-- ==== Sys2Proof/Word.lean ====
section
/-! DEFINITION. The word types of the module (R6): bytes, instruction words, 64-bit words. -/

namespace Sys2Proof

/-- A word is 64 bits (R6). -/
abbrev Word := BitVec 64

/-- An instruction word is 32 bits (R6). -/
abbrev IWord := BitVec 32

/-- The byte, the unit of memory addressing (R6). -/
abbrev Byte := BitVec 8

/-- A register number field, x0 to x31 (R12) or v0 to v31 (R252). -/
abbrev Reg := BitVec 5

end Sys2Proof
end

