-- ==== Sys2Proof/Machine/Bits.lean ====
section
/-! DEFINITION. The narrowing helpers of Table 1.8, bit-field access to control-register words, and lists of bytes. -/

namespace Sys2Proof.Machine

/-- SignExtend(v, n) of R35, as an integer. -/
def signExtend (v : Nat) (n : Nat) : Int :=
  let m := v % 2 ^ n
  if n ≠ 0 ∧ 2 ^ (n - 1) ≤ m then (m : Int) - (2 ^ n : Nat) else m

/-- An integer reduced modulo 2^64, as WriteX does (R35). -/
def wordOfInt (i : Int) : Word := BitVec.ofInt 64 i

/-- A natural number reduced modulo 2^64. -/
def wordOfNat (n : Nat) : Word := BitVec.ofNat 64 n

/-- Saturate(v, lo, hi) of R35. -/
def saturate (v lo hi : Int) : Int := if v < lo then lo else if hi < v then hi else v

/-- v[hi:lo] of a word, as a number (R35). -/
def bitsOf (w : Word) (hi lo : Nat) : Nat := w.toNat / 2 ^ lo % 2 ^ (hi - lo + 1)

/-- v[n] of a word. -/
def bitOf (w : Word) (n : Nat) : Bool := w.getLsbD n

/-- The number n placed at bit `lo`. -/
def putAt (n lo : Nat) : Nat := n * 2 ^ lo

/-- 1 for true. -/
def b2n (b : Bool) : Nat := if b then 1 else 0

/-- The value of a list of bytes, least significant first (R6). -/
def bytesVal : List Byte → Nat
  | [] => 0
  | b :: r => b.toNat + 256 * bytesVal r

/-- The low n bytes of a value, least significant first (R6). -/
def bytesOf : Nat → Nat → List Byte
  | 0, _ => []
  | n + 1, v => BitVec.ofNat 8 v :: bytesOf n (v / 256)

/-- floor(log2 n), and 0 for n = 0, by fuel. -/
def log2Fuel : Nat → Nat → Nat
  | 0, _ => 0
  | f + 1, n => if n < 2 then 0 else 1 + log2Fuel f (n / 2)

/-- floor(a / b) rounded up. -/
def ceilDiv (a b : Nat) : Nat := (a + b - 1) / b

/-- True for a power of two. -/
def isPow2 (n : Nat) : Bool := n != 0 && n &&& (n - 1) == 0

/-- Number of one bits among the low `n` bits of `v`. -/
def popCount : Nat → Nat → Nat
  | 0, _ => 0
  | n + 1, v => v % 2 + popCount n (v / 2)

/-- The elements of a list from position `a`, `n` of them. -/
def sliceL {α : Type} (l : List α) (a n : Nat) : List α := (l.drop a).take n

/-- Replaces the elements from position `a` by those of `xs`, within the list's length. -/
def spliceL {α : Type} (l : List α) (a : Nat) (xs : List α) : List α :=
  (l.take a ++ xs ++ l.drop (a + xs.length)).take l.length

/-- Replaces the element at position `i`. -/
def setL {α : Type} : List α → Nat → α → List α
  | [], _, _ => []
  | _ :: r, 0, v => v :: r
  | x :: r, i + 1, v => x :: setL r i v

end Sys2Proof.Machine
end

