-- ==== Sys2Proof/Machine/Blocks.lean ====
section
/-! DEFINITION. The code of cluster-memory blocks (R166, Table 7.12), which block compression shares (R311), and CRC-32C
(R293). -/

namespace Sys2Proof.Machine

/-- Words of eight bytes from a list of bytes, n of them. -/
def wordsOfBytes : Nat → List Byte → List Nat
  | 0, _ => []
  | n + 1, bs => bytesVal (bs.take 8) :: wordsOfBytes n (bs.drop 8)

/-- The class of word w after word prev, and its payload (Table 7.12): the first rule that fits. -/
def wordClass (prev w : Nat) : Nat × List Byte :=
  if w = 0 then (0, [])
  else if w = prev then (1, [])
  else
    let d := signExtend ((w + 2 ^ 64 - prev) % 2 ^ 64) 64
    if -32768 ≤ d ∧ d ≤ 32767 then (3, bytesOf 2 ((w + 2 ^ 64 - prev) % 2 ^ 64)) else (2, bytesOf 8 w)

/-- The classes and payloads of a block's words in order. -/
def blockItems : Nat → List Nat → List (Nat × List Byte)
  | _, [] => []
  | prev, w :: r => wordClass prev w :: blockItems w r

/-- The two-bit classes of the header, word 0 lowest. -/
def headerVal : List (Nat × List Byte) → Nat
  | [] => 0
  | i :: r => i.1 + 4 * headerVal r

/-- The coded block: header H0, H1, payload, zero bytes up to a multiple of 8. -/
def encodeBlock (ws : List Nat) : List Byte :=
  let items := blockItems 0 ws
  let body := bytesOf 16 (headerVal items) ++ items.flatMap fun i => i.2
  body ++ List.replicate ((8 - body.length % 8) % 8) 0

/-- Decodes n words by their classes from the payload. Answers the words, or none where the payload runs out. -/
def decodeWords : Nat → Nat → Nat → List Byte → Option (List Nat)
  | 0, _, _, _ => some []
  | n + 1, header, prev, bs =>
    let k := header % 4
    let need := if k = 2 then 8 else if k = 3 then 2 else 0
    if bs.length < need then none
    else
      let w := if k = 0 then 0 else if k = 1 then prev
        else if k = 2 then bytesVal (bs.take 8)
        else (prev + (wordOfInt (signExtend (bytesVal (bs.take 2)) 16)).toNat) % 2 ^ 64
      (decodeWords n (header / 4) w (bs.drop need)).map fun r => w :: r

/-- Bytes of the payload that a header calls for. -/
def payloadSize : Nat → Nat → Nat
  | 0, _ => 0
  | n + 1, header => (if header % 4 = 2 then 8 else if header % 4 = 3 then 2 else 0) + payloadSize n (header / 4)

/-- Decodes coded blocks one after another: k blocks of 512 bytes, none where a code or the length does not fit (R294). -/
def decodeChunks : Nat → List Byte → Option (List Byte)
  | 0, bs => if bs.isEmpty then some [] else none
  | k + 1, bs =>
    if bs.length < 16 then none
    else
      let h := bytesVal (bs.take 16)
      let size := (16 + payloadSize 64 h + 7) / 8 * 8
      if bs.length < size then none
      else
        match decodeWords 64 h 0 (bs.drop 16), decodeChunks k (bs.drop size) with
        | some ws, some r => some (ws.flatMap (bytesOf 8) ++ r)
        | _, _ => none

/-! ## CRC-32C (R293): polynomial 0x1EDC_6F41 bit-reflected, initial value all ones, final value complemented -/

/-- Eight steps of the shift register. -/
def crcBits : Nat → Nat → Nat
  | 0, c => c
  | k + 1, c => crcBits k (if c % 2 = 1 then (c / 2) ^^^ 0x82F63B78 else c / 2)

/-- The register after a list of bytes. -/
def crcBytes : List Byte → Nat → Nat
  | [], c => c
  | b :: r, c => crcBytes r (crcBits 8 (c ^^^ b.toNat))

def crc32c (bs : List Byte) : Nat := crcBytes bs 0xFFFFFFFF ^^^ 0xFFFFFFFF

end Sys2Proof.Machine
end

