-- ==== Sys2Proof/Syntax.lean ====
section
/-! DEFINITION. Syntax: the instruction forms of the 221 instruction words of the opcode map, and the 120
hardware, engine, management, host and link steps of the table, one constructor each (Tables 1.3, 1.4; the
table of operations and events). -/

namespace Sys2Proof

/-- Scopes of R169, coded 000 to 111 as Table 8.2 gives. -/
inductive Scope where
  | thr | core | oct | clu | die | part | mod | host
deriving DecidableEq, Repr

/-- Cache policies of a device memory form (R110), coded 00 to 11. -/
inductive Policy where
  | default | stream | noAlloc | lastUse
deriving DecidableEq, Repr

/-- Floating types of the vector forms (R256), coded 00 to 11. -/
inductive FTy where
  | f64 | f32 | f16 | bf16
deriving DecidableEq, Repr

/-- Element sizes of the vector forms (R256), coded 00 to 11. -/
inductive Sz where
  | b8 | b16 | b32 | b64
deriving DecidableEq, Repr

/-- Number types of the vector forms (R256), coded 0000 to 1011. -/
inductive NTy where
  | i8 | i16 | i32 | i64 | n8 | n16 | n32 | n64 | f64 | f32 | f16 | bf16
deriving DecidableEq, Repr

/-- What an access to memory does, for translation and protection (R323, R325, R329). -/
inductive Access where
  | fetch | load | store | atomic | drive
deriving DecidableEq, Repr

/-- Where an uncorrectable error strikes (R353): a copy in a core's first-level cache, a copy in an L2 slice, a
sector of GDDR memory, a word of a scratchpad bank, or a cluster-memory block. -/
inductive ErrPlace where
  | firstLevel (core : Nat) | slice (n : Nat) | gddr | scratchpad | clusterMemory
deriving DecidableEq, Repr

/-- The arbiters of Table 19.2. -/
inductive Arbiter where
  | issue (core : Nat) | ways (slice : Nat) | channel (n : Nat) | injection (router : Nat) | copy (cluster : Nat)
  | host (inward : Bool) | peer (port : Nat) (inward : Bool) | d2d (die : Nat) (port : Nat) (inward : Bool)
  | hubCopy | crypto
deriving DecidableEq, Repr

/-- RATE and DEPTH of one bucket (R343). -/
structure Rate where
  rate : Nat := 0
  depth : Nat := 0
deriving DecidableEq, Repr

/-- A window of numbered resources: first number and count. -/
structure Span where
  base : Nat := 0
  count : Nat := 0
deriving DecidableEq, Repr

/-- A read-only window (R352): frames of the owner partition that a borrower partition may read. -/
structure RoWindow where
  owner : Nat
  borrower : Nat
  frames : Span
  bucket : Rate
deriving DecidableEq, Repr

/-- A seat's configuration (Table 19.1). The lists run over the partition's level-3 nodes, clusters or octets in
ascending order. -/
structure SeatCfg where
  rtbase : Word := 0
  kn5 : Bool := false
  issue : Rate := {}
  ways : List Nat := []
  channel : List Rate := []
  injection : Rate := {}
  copy : List Rate := []
  cpmax : List Nat := []
  hostIn : Rate := {}
  hostOut : Rate := {}
  tracks : List Span := []
  slots : List Nat := []
  sems : List Span := []
  mailboxes : List Span := []
  rowOctets : List Bool := []
deriving DecidableEq, Repr

/-- What a PARTCFG command asks for (R339, R341, R352): a merge of a partition with its sibling, a split into the two
children, or the partition configuration (CMBASE and CMSIZE of each cluster, read-only windows). -/
inductive PartAct where
  | merge (fn : Nat)
  | split (fn : Nat)
  | config (fn : Nat) (clusters : List Span) (windows : List RoWindow)
deriving DecidableEq, Repr

/-- One constructor per row of the table of operations and events. -/
inductive Instr where
  /-- LB (R52). -/
  | lb (rd : Reg) (rs1 : Reg) (imm : BitVec 12)
  /-- LH (R52). -/
  | lh (rd : Reg) (rs1 : Reg) (imm : BitVec 12)
  /-- LW (R52). -/
  | lw (rd : Reg) (rs1 : Reg) (imm : BitVec 12)
  /-- LD (R52). -/
  | ld (rd : Reg) (rs1 : Reg) (imm : BitVec 12)
  /-- LBU (R52). -/
  | lbu (rd : Reg) (rs1 : Reg) (imm : BitVec 12)
  /-- LHU (R52). -/
  | lhu (rd : Reg) (rs1 : Reg) (imm : BitVec 12)
  /-- LWU (R52). -/
  | lwu (rd : Reg) (rs1 : Reg) (imm : BitVec 12)
  /-- SB (R52). -/
  | sb (rs2 : Reg) (rs1 : Reg) (imm : BitVec 12)
  /-- SH (R52). -/
  | sh (rs2 : Reg) (rs1 : Reg) (imm : BitVec 12)
  /-- SW (R52). -/
  | sw (rs2 : Reg) (rs1 : Reg) (imm : BitVec 12)
  /-- SD (R52). -/
  | sd (rs2 : Reg) (rs1 : Reg) (imm : BitVec 12)
  /-- ADDI (R47). -/
  | addi (rd : Reg) (rs1 : Reg) (imm : BitVec 12)
  /-- SLTI (R47). -/
  | slti (rd : Reg) (rs1 : Reg) (imm : BitVec 12)
  /-- SLTIU (R47). -/
  | sltiu (rd : Reg) (rs1 : Reg) (imm : BitVec 12)
  /-- XORI (R47). -/
  | xori (rd : Reg) (rs1 : Reg) (imm : BitVec 12)
  /-- ORI (R47). -/
  | ori (rd : Reg) (rs1 : Reg) (imm : BitVec 12)
  /-- ANDI (R47). -/
  | andi (rd : Reg) (rs1 : Reg) (imm : BitVec 12)
  /-- SLLI (R48). -/
  | slli (rd : Reg) (rs1 : Reg) (sh : BitVec 6)
  /-- SRLI (R48). -/
  | srli (rd : Reg) (rs1 : Reg) (sh : BitVec 6)
  /-- SRAI (R48). -/
  | srai (rd : Reg) (rs1 : Reg) (sh : BitVec 6)
  /-- ADDIW (R47). -/
  | addiw (rd : Reg) (rs1 : Reg) (imm : BitVec 12)
  /-- SLLIW (R48). -/
  | slliw (rd : Reg) (rs1 : Reg) (sh : BitVec 5)
  /-- SRLIW (R48). -/
  | srliw (rd : Reg) (rs1 : Reg) (sh : BitVec 5)
  /-- SRAIW (R48). -/
  | sraiw (rd : Reg) (rs1 : Reg) (sh : BitVec 5)
  /-- ADD (R45). -/
  | add (rd : Reg) (rs1 : Reg) (rs2 : Reg)
  /-- SUB (R45). -/
  | sub (rd : Reg) (rs1 : Reg) (rs2 : Reg)
  /-- SLL (R45). -/
  | sll (rd : Reg) (rs1 : Reg) (rs2 : Reg)
  /-- SLT (R45). -/
  | slt (rd : Reg) (rs1 : Reg) (rs2 : Reg)
  /-- SLTU (R45). -/
  | sltu (rd : Reg) (rs1 : Reg) (rs2 : Reg)
  /-- XOR (R45). -/
  | xor (rd : Reg) (rs1 : Reg) (rs2 : Reg)
  /-- SRL (R45). -/
  | srl (rd : Reg) (rs1 : Reg) (rs2 : Reg)
  /-- SRA (R45). -/
  | sra (rd : Reg) (rs1 : Reg) (rs2 : Reg)
  /-- OR (R45). -/
  | or (rd : Reg) (rs1 : Reg) (rs2 : Reg)
  /-- AND (R45). -/
  | and (rd : Reg) (rs1 : Reg) (rs2 : Reg)
  /-- MUL (R50). -/
  | mul (rd : Reg) (rs1 : Reg) (rs2 : Reg)
  /-- MULH (R50). -/
  | mulh (rd : Reg) (rs1 : Reg) (rs2 : Reg)
  /-- MULHSU (R50). -/
  | mulhsu (rd : Reg) (rs1 : Reg) (rs2 : Reg)
  /-- MULHU (R50). -/
  | mulhu (rd : Reg) (rs1 : Reg) (rs2 : Reg)
  /-- DIV (R50). -/
  | div (rd : Reg) (rs1 : Reg) (rs2 : Reg)
  /-- DIVU (R50). -/
  | divu (rd : Reg) (rs1 : Reg) (rs2 : Reg)
  /-- REM (R50). -/
  | rem (rd : Reg) (rs1 : Reg) (rs2 : Reg)
  /-- REMU (R50). -/
  | remu (rd : Reg) (rs1 : Reg) (rs2 : Reg)
  /-- ADDW (R46). -/
  | addw (rd : Reg) (rs1 : Reg) (rs2 : Reg)
  /-- SUBW (R46). -/
  | subw (rd : Reg) (rs1 : Reg) (rs2 : Reg)
  /-- SLLW (R46). -/
  | sllw (rd : Reg) (rs1 : Reg) (rs2 : Reg)
  /-- SRLW (R46). -/
  | srlw (rd : Reg) (rs1 : Reg) (rs2 : Reg)
  /-- SRAW (R46). -/
  | sraw (rd : Reg) (rs1 : Reg) (rs2 : Reg)
  /-- MULW (R50). -/
  | mulw (rd : Reg) (rs1 : Reg) (rs2 : Reg)
  /-- DIVW (R50). -/
  | divw (rd : Reg) (rs1 : Reg) (rs2 : Reg)
  /-- DIVUW (R50). -/
  | divuw (rd : Reg) (rs1 : Reg) (rs2 : Reg)
  /-- REMW (R50). -/
  | remw (rd : Reg) (rs1 : Reg) (rs2 : Reg)
  /-- REMUW (R50). -/
  | remuw (rd : Reg) (rs1 : Reg) (rs2 : Reg)
  /-- LUI (R49). -/
  | lui (rd : Reg) (imm : BitVec 20)
  /-- AUIPC (R49). -/
  | auipc (rd : Reg) (imm : BitVec 20)
  /-- JAL (R55: `off` is imm[20:1]). -/
  | jal (rd : Reg) (off : BitVec 20)
  /-- JALR (R55). -/
  | jalr (rd : Reg) (rs1 : Reg) (imm : BitVec 12)
  /-- BEQ (R54: `off` is imm[12:1]). -/
  | beq (rs1 : Reg) (rs2 : Reg) (off : BitVec 12)
  /-- BNE (R54: `off` is imm[12:1]). -/
  | bne (rs1 : Reg) (rs2 : Reg) (off : BitVec 12)
  /-- BLT (R54: `off` is imm[12:1]). -/
  | blt (rs1 : Reg) (rs2 : Reg) (off : BitVec 12)
  /-- BGE (R54: `off` is imm[12:1]). -/
  | bge (rs1 : Reg) (rs2 : Reg) (off : BitVec 12)
  /-- BLTU (R54: `off` is imm[12:1]). -/
  | bltu (rs1 : Reg) (rs2 : Reg) (off : BitVec 12)
  /-- BGEU (R54: `off` is imm[12:1]). -/
  | bgeu (rs1 : Reg) (rs2 : Reg) (off : BitVec 12)
  /-- CSRRW (R79). -/
  | csrrw (rd : Reg) (csr : BitVec 12) (rs1 : Reg)
  /-- CSRRS (R79). -/
  | csrrs (rd : Reg) (csr : BitVec 12) (rs1 : Reg)
  /-- CSRRC (R79). -/
  | csrrc (rd : Reg) (csr : BitVec 12) (rs1 : Reg)
  /-- CSRRWI (R79). -/
  | csrrwi (rd : Reg) (csr : BitVec 12) (zimm : BitVec 5)
  /-- CSRRSI (R79). -/
  | csrrsi (rd : Reg) (csr : BitVec 12) (zimm : BitVec 5)
  /-- CSRRCI (R79). -/
  | csrrci (rd : Reg) (csr : BitVec 12) (zimm : BitVec 5)
  /-- BFX (R58, R59). -/
  | bfx (rd : Reg) (rs1 : Reg) (rs2 : Reg)
  /-- BFXS (R58, R59). -/
  | bfxs (rd : Reg) (rs1 : Reg) (rs2 : Reg)
  /-- BFI (R58, R59). -/
  | bfi (rd : Reg) (rs1 : Reg) (rs2 : Reg)
  /-- CLZ (R60). -/
  | clz (rd : Reg) (rs1 : Reg)
  /-- CTZ (R60). -/
  | ctz (rd : Reg) (rs1 : Reg)
  /-- CPOP (R60). -/
  | cpop (rd : Reg) (rs1 : Reg)
  /-- REV8 (R60). -/
  | rev8 (rd : Reg) (rs1 : Reg)
  /-- LDO (R110). -/
  | ldo (rd : Reg) (rs1 : Reg) (scope : Scope) (wait : BitVec 2) (pol : Policy) (off : BitVec 4)
  /-- LWO (R110). -/
  | lwo (rd : Reg) (rs1 : Reg) (scope : Scope) (wait : BitVec 2) (pol : Policy) (off : BitVec 4)
  /-- SDO (R110). -/
  | sdo (rs2 : Reg) (rs1 : Reg) (scope : Scope) (wait : BitVec 2) (pol : Policy) (off : BitVec 4)
  /-- SWO (R110). -/
  | swo (rs2 : Reg) (rs1 : Reg) (scope : Scope) (wait : BitVec 2) (pol : Policy) (off : BitVec 4)
  /-- RST (R114). -/
  | rst (rs2 : Reg) (rs1 : Reg) (off : BitVec 5)
  /-- RSA (R114). -/
  | rsa (rs2 : Reg) (rs1 : Reg) (off : BitVec 5)
  /-- WCWAIT (R118). -/
  | wcwait (mask : BitVec 3)
  /-- WCREAD (R118). -/
  | wcread (rd : Reg) (c : BitVec 2)
  /-- CB_CFG (R122). -/
  | cbCfg (h : BitVec 4) (rs1 : Reg)
  /-- CB_WFILL (R122). -/
  | cbWfill (rd : Reg) (h : BitVec 4) (rs1 : Reg)
  /-- CB_WFREE (R122). -/
  | cbWfree (rd : Reg) (h : BitVec 4) (rs1 : Reg)
  /-- CB_ADVP (R122). -/
  | cbAdvp (h : BitVec 4) (rs1 : Reg)
  /-- CB_ADVC (R122). -/
  | cbAdvc (h : BitVec 4) (rs1 : Reg)
  /-- PFX_IMM (R29). -/
  | pfxImm (p : BitVec 22)
  /-- PFX_ORD (R30). -/
  | pfxOrd (wait : BitVec 2)
  /-- TRAP (R76). -/
  | trap (code : BitVec 5) (rs1 : Reg)
  /-- XRET (R76). -/
  | xret
  /-- IDLE (R76). -/
  | idle (rd : Reg) (rs1 : Reg)
  /-- YIELD (R76). -/
  | yield
  /-- FUSE (R90). -/
  | fuse (rd : Reg) (rs1 : Reg) (rs2 : Reg)
  /-- SPLIT (R93). -/
  | split
  /-- HD_ACQ (R142). -/
  | hdAcq (rd : Reg) (h : BitVec 3) (rs1 : Reg)
  /-- HD_REL (R143). -/
  | hdRel (h : BitVec 3) (keep : Bool)
  /-- HD_SEEK (R144). -/
  | hdSeek (h : BitVec 3) (rs1 : Reg) (rs2 : Reg)
  /-- HD_RDS (R144). -/
  | hdRds (rd : Reg) (h : BitVec 3)
  /-- HD_WRS (R144). -/
  | hdWrs (h : BitVec 3) (rs1 : Reg)
  /-- HD_REW (R144). -/
  | hdRew (h : BitVec 3)
  /-- HD_POS (R145). -/
  | hdPos (rd : Reg) (h : BitVec 3)
  /-- HD_CHK (R145). -/
  | hdChk (rd : Reg) (h : BitVec 3) (resync : Bool)
  /-- HD_SAVE (R146). -/
  | hdSave (h : BitVec 3) (rs1 : Reg)
  /-- HD_LOAD (R146). -/
  | hdLoad (h : BitVec 3) (rs1 : Reg)
  /-- ST_BIND (R150). -/
  | stBind (xs : Reg) (rs1 : Reg)
  /-- ST_REL (R150). -/
  | stRel (xs : Reg)
  /-- ST_POS (R150). -/
  | stPos (rd : Reg) (xs : Reg)
  /-- CP_GO (R155). -/
  | cpGo (rd : Reg) (rs1 : Reg) (rs2 : Reg)
  /-- GT_GO (R156). -/
  | gtGo (rd : Reg) (rs1 : Reg) (rs2 : Reg)
  /-- CP_WAIT (R158). -/
  | cpWait (rd : Reg) (rs1 : Reg)
  /-- CP_STOP (R158). -/
  | cpStop (rs1 : Reg)
  /-- CP_STAT (R158). -/
  | cpStat (rd : Reg) (rs1 : Reg)
  /-- FENCE_S (R182). -/
  | fenceS (scope : Scope) (pred : BitVec 2) (succ : BitVec 2)
  /-- ACQ (R182). -/
  | acq (full : Bool) (scope : Scope)
  /-- REL (R182). -/
  | rel (scope : Scope)
  /-- SIG_PUB (R183). -/
  | sigPub (add : Bool) (scope : Scope) (rs1 : Reg) (rs2 : Reg)
  /-- SIG_INV (R183). -/
  | sigInv (scope : Scope) (rd : Reg) (rs1 : Reg)
  /-- FENCE_ENG (R184). -/
  | fenceEng (mask : BitVec 4)
  /-- AMO_ADD (R187, R188). -/
  | amoAdd (aq : Bool) (rl : Bool) (scx : Bool) (rd : Reg) (rs1 : Reg) (rs2 : Reg)
  /-- AMO_SWAP (R187, R188). -/
  | amoSwap (aq : Bool) (rl : Bool) (scx : Bool) (rd : Reg) (rs1 : Reg) (rs2 : Reg)
  /-- AMO_AND (R187, R188). -/
  | amoAnd (aq : Bool) (rl : Bool) (scx : Bool) (rd : Reg) (rs1 : Reg) (rs2 : Reg)
  /-- AMO_OR (R187, R188). -/
  | amoOr (aq : Bool) (rl : Bool) (scx : Bool) (rd : Reg) (rs1 : Reg) (rs2 : Reg)
  /-- AMO_XOR (R187, R188). -/
  | amoXor (aq : Bool) (rl : Bool) (scx : Bool) (rd : Reg) (rs1 : Reg) (rs2 : Reg)
  /-- AMO_MIN (R187, R188). -/
  | amoMin (aq : Bool) (rl : Bool) (scx : Bool) (rd : Reg) (rs1 : Reg) (rs2 : Reg)
  /-- AMO_MAX (R187, R188). -/
  | amoMax (aq : Bool) (rl : Bool) (scx : Bool) (rd : Reg) (rs1 : Reg) (rs2 : Reg)
  /-- AMO_MINN (R187, R188). -/
  | amoMinn (aq : Bool) (rl : Bool) (scx : Bool) (rd : Reg) (rs1 : Reg) (rs2 : Reg)
  /-- AMO_MAXN (R187, R188). -/
  | amoMaxn (aq : Bool) (rl : Bool) (scx : Bool) (rd : Reg) (rs1 : Reg) (rs2 : Reg)
  /-- AMO_CAS (R187, R188). -/
  | amoCas (aq : Bool) (rl : Bool) (scx : Bool) (rd : Reg) (rs1 : Reg) (rs2 : Reg)
  /-- LR (R187 to R189). -/
  | lr (aq : Bool) (rl : Bool) (scx : Bool) (rd : Reg) (rs1 : Reg)
  /-- SC (R187 to R189). -/
  | sc (aq : Bool) (rl : Bool) (scx : Bool) (rd : Reg) (rs1 : Reg) (rs2 : Reg)
  /-- BAR_CFG (R196). -/
  | barCfg (rs1 : Reg) (rs2 : Reg)
  /-- BAR_ARR (R196). -/
  | barArr (rd : Reg) (rs1 : Reg)
  /-- BAR_WAIT (R196). -/
  | barWait (rd : Reg) (rs1 : Reg) (rs2 : Reg)
  /-- BAR_WAIT_N (R196). -/
  | barWaitN (rd : Reg) (rs1 : Reg) (rs2 : Reg)
  /-- DOM_SYNC (R198). -/
  | domSync (rd : Reg) (k : BitVec 4)
  /-- SEM_POST (R200). -/
  | semPost (rs1 : Reg) (rs2 : Reg)
  /-- SEM_WAIT (R200). -/
  | semWait (rd : Reg) (rs1 : Reg) (rs2 : Reg)
  /-- SEM_WAIT_N (R200). -/
  | semWaitN (rd : Reg) (rs1 : Reg) (rs2 : Reg)
  /-- MBX_BIND (R202). -/
  | mbxBind (rd : Reg) (rs1 : Reg)
  /-- MBX_REL (R204). -/
  | mbxRel (rd : Reg) (rs1 : Reg)
  /-- MBX_PEEK (R204). -/
  | mbxPeek (rd : Reg)
  /-- MBX_TAKE (R204). -/
  | mbxTake (rd : Reg) (rs1 : Reg)
  /-- MBX_DONE (R204). -/
  | mbxDone (rs1 : Reg)
  /-- MSG_SEND (R205). -/
  | msgSend (last : Bool) (rs1 : Reg) (rs2 : Reg)
  /-- MSG_ABORT (R205). -/
  | msgAbort
  /-- DEAL_POST (R218). -/
  | dealPost (rd : Reg) (rs1 : Reg)
  /-- DEAL_STAT (R218). -/
  | dealStat (rd : Reg) (rs1 : Reg)
  /-- HAND_EXIT (R218). -/
  | handExit
  /-- RNG_PUSH (R217). -/
  | rngPush (rd : Reg) (rs1 : Reg) (rs2 : Reg)
  /-- RNG_POP (R217). -/
  | rngPop (rd : Reg) (rs1 : Reg) (rs2 : Reg)
  /-- RNG_SKIP (R217). -/
  | rngSkip (rd : Reg) (rs1 : Reg)
  /-- VCLAIM (R258). -/
  | vclaim (rd : Reg) (rs1 : Reg)
  /-- VREL (R258). -/
  | vrel
  /-- VLEN (R258). -/
  | vlen (rd : Reg) (rs1 : Reg)
  /-- VFENCE (R258). -/
  | vfence (r : Bool) (sp : Bool) (rs1 : Reg) (rs2 : Reg)
  /-- VFADD (R259). -/
  | vfadd (t : FTy) (vd : Reg) (vs1 : Reg) (vs2 : Reg)
  /-- VFSUB (R259). -/
  | vfsub (t : FTy) (vd : Reg) (vs1 : Reg) (vs2 : Reg)
  /-- VFMUL (R259). -/
  | vfmul (t : FTy) (vd : Reg) (vs1 : Reg) (vs2 : Reg)
  /-- VFMA (R259). -/
  | vfma (t : FTy) (vd : Reg) (vs1 : Reg) (vs2 : Reg)
  /-- VFMS (R259). -/
  | vfms (t : FTy) (vd : Reg) (vs1 : Reg) (vs2 : Reg)
  /-- VFNMS (R259). -/
  | vfnms (t : FTy) (vd : Reg) (vs1 : Reg) (vs2 : Reg)
  /-- VFMIN (R259). -/
  | vfmin (t : FTy) (vd : Reg) (vs1 : Reg) (vs2 : Reg)
  /-- VFMAX (R259). -/
  | vfmax (t : FTy) (vd : Reg) (vs1 : Reg) (vs2 : Reg)
  /-- VFEQ (R259). -/
  | vfeq (t : FTy) (vd : Reg) (vs1 : Reg) (vs2 : Reg)
  /-- VFLT (R259). -/
  | vflt (t : FTy) (vd : Reg) (vs1 : Reg) (vs2 : Reg)
  /-- VFLE (R259). -/
  | vfle (t : FTy) (vd : Reg) (vs1 : Reg) (vs2 : Reg)
  /-- VFSEL (R259). -/
  | vfsel (t : FTy) (vd : Reg) (vs1 : Reg) (vs2 : Reg)
  /-- VADD (R260). -/
  | vadd (z : Sz) (n : Bool) (vd : Reg) (vs1 : Reg) (vs2 : Reg)
  /-- VSUB (R260). -/
  | vsub (z : Sz) (n : Bool) (vd : Reg) (vs1 : Reg) (vs2 : Reg)
  /-- VMUL (R260). -/
  | vmul (z : Sz) (n : Bool) (vd : Reg) (vs1 : Reg) (vs2 : Reg)
  /-- VADDS (R260). -/
  | vadds (z : Sz) (n : Bool) (vd : Reg) (vs1 : Reg) (vs2 : Reg)
  /-- VSUBS (R260). -/
  | vsubs (z : Sz) (n : Bool) (vd : Reg) (vs1 : Reg) (vs2 : Reg)
  /-- VMIN (R260). -/
  | vmin (z : Sz) (n : Bool) (vd : Reg) (vs1 : Reg) (vs2 : Reg)
  /-- VMAX (R260). -/
  | vmax (z : Sz) (n : Bool) (vd : Reg) (vs1 : Reg) (vs2 : Reg)
  /-- VAND (R260). -/
  | vand (z : Sz) (n : Bool) (vd : Reg) (vs1 : Reg) (vs2 : Reg)
  /-- VOR (R260). -/
  | vor (z : Sz) (n : Bool) (vd : Reg) (vs1 : Reg) (vs2 : Reg)
  /-- VXOR (R260). -/
  | vxor (z : Sz) (n : Bool) (vd : Reg) (vs1 : Reg) (vs2 : Reg)
  /-- VSLL (R260). -/
  | vsll (z : Sz) (n : Bool) (vd : Reg) (vs1 : Reg) (vs2 : Reg)
  /-- VSR (R260). -/
  | vsr (z : Sz) (n : Bool) (vd : Reg) (vs1 : Reg) (vs2 : Reg)
  /-- VEQ (R260). -/
  | veq (z : Sz) (n : Bool) (vd : Reg) (vs1 : Reg) (vs2 : Reg)
  /-- VLT (R260). -/
  | vlt (z : Sz) (n : Bool) (vd : Reg) (vs1 : Reg) (vs2 : Reg)
  /-- VCVT (R262). -/
  | vcvt (dst : NTy) (rtz : Bool) (src : NTy) (vd : Reg) (vs1 : Reg)
  /-- VSCALE (R262). -/
  | vscale (t : FTy) (vd : Reg) (vs1 : Reg) (rs2 : Reg)
  /-- VSCALEA (R262). -/
  | vscalea (t : FTy) (vd : Reg) (vs1 : Reg) (rs2 : Reg)
  /-- VEXP2 (R262). -/
  | vexp2 (t : FTy) (vd : Reg) (vs1 : Reg)
  /-- VLOG2 (R262). -/
  | vlog2 (t : FTy) (vd : Reg) (vs1 : Reg)
  /-- VRCP (R262). -/
  | vrcp (t : FTy) (vd : Reg) (vs1 : Reg)
  /-- VRSQRT (R262). -/
  | vrsqrt (t : FTy) (vd : Reg) (vs1 : Reg)
  /-- VREDSUM (R264). -/
  | vredsum (t : NTy) (vd : Reg) (vs1 : Reg)
  /-- VREDMAX (R264). -/
  | vredmax (t : NTy) (vd : Reg) (vs1 : Reg)
  /-- VREDMIN (R264). -/
  | vredmin (t : NTy) (vd : Reg) (vs1 : Reg)
  /-- VDOT (R265). -/
  | vdot (t : NTy) (vd : Reg) (vs1 : Reg) (vs2 : Reg)
  /-- VOPA (R266). -/
  | vopa (t : FTy) (vd : Reg) (vs1 : Reg) (vs2 : Reg)
  /-- VLD (R267). -/
  | vld (z : Sz) (vd : Reg) (rs1 : Reg)
  /-- VLDS (R267). -/
  | vlds (z : Sz) (vd : Reg) (rs1 : Reg) (rs2 : Reg)
  /-- VLDX (R267). -/
  | vldx (z : Sz) (vd : Reg) (rs1 : Reg) (vs2 : Reg)
  /-- VST (R267). -/
  | vst (z : Sz) (vs3 : Reg) (rs1 : Reg)
  /-- VSTS (R267). -/
  | vsts (z : Sz) (vs3 : Reg) (rs1 : Reg) (rs2 : Reg)
  /-- VBCAST (R268). -/
  | vbcast (z : Sz) (n : Bool) (vd : Reg) (rs1 : Reg)
  /-- VPERM (R268). -/
  | vperm (z : Sz) (n : Bool) (vd : Reg) (vs1 : Reg) (vs2 : Reg)
  /-- VMV (R268). -/
  | vmv (z : Sz) (n : Bool) (vd : Reg) (vs1 : Reg)
  /-- VMVX (R268). -/
  | vmvx (z : Sz) (n : Bool) (rd : Reg) (vs1 : Reg) (rs2 : Reg)
  /-- VINS (R268). -/
  | vins (z : Sz) (n : Bool) (vd : Reg) (rs1 : Reg) (rs2 : Reg)
  /-- VMPOP (R268). -/
  | vmpop (z : Sz) (n : Bool) (rd : Reg) (vs1 : Reg)
  /-- VMFIRST (R268). -/
  | vmfirst (z : Sz) (n : Bool) (rd : Reg) (vs1 : Reg)
  /-- MX_CFG (R285). -/
  | mxCfg (rs1 : Reg)
  /-- MX_LDA (R286). -/
  | mxLda (rs1 : Reg) (rs2 : Reg)
  /-- MX_LDB (R286). -/
  | mxLdb (rs1 : Reg)
  /-- MX_GO (R287). -/
  | mxGo (rs1 : Reg)
  /-- MX_POP (R288). -/
  | mxPop (vd : Reg) (rd : Reg)
  /-- MX_DROP (R289). -/
  | mxDrop
  /-- MX_ABORT (R289). -/
  | mxAbort
  /-- WD_ENTER (R306). -/
  | wdEnter (rd : Reg) (rs1 : Reg) (rs2 : Reg)
  /-- WD_EXIT (R306). -/
  | wdExit
  /-- WD_RESUME (R306). -/
  | wdResume (rd : Reg) (rs1 : Reg)
  /-- WD_WAIT (R306). -/
  | wdWait (rd : Reg)
  /-- TX_REQ (R314). -/
  | txReq (rd : Reg) (rs1 : Reg)
  /-- TX_RES (R314). -/
  | txRes (rd : Reg)
  /-- TX_STAT (R314). -/
  | txStat (rd : Reg)
  /-- REGISTER_WRITE (R8: the write of a control register, in the view of thread `tid`). -/
  | registerWrite (tid : Nat) (csr : BitVec 12) (v : Word)
  /-- IDLE_TIMEOUT (R76). -/
  | idleTimeout (tid : Nat)
  /-- FUSE_RESOLVE (R90: resolves the wait of thread `tid`). -/
  | fuseResolve (tid : Nat)
  /-- GANG_UNIT_ARRIVAL (R91: the next unit in flight reaches follower `tid`). -/
  | gangUnitArrival (tid : Nat)
  /-- HEAD_GRANT (R130, R226). -/
  | headGrant (cluster : Nat) (track : Nat)
  /-- TRACK_SHIFT_END (R126: `slip` is the displacement the shift suffered, 0 for none). -/
  | trackShiftEnd (cluster : Nat) (track : Nat) (slip : BitVec 12)
  /-- SHIFT_SLOT_GRANT (R136). -/
  | shiftSlotGrant (cluster : Nat) (track : Nat)
  /-- REALIGN_REREAD (R133). -/
  | realignReread (tid : Nat) (h : BitVec 3)
  /-- TRACK_FORMAT (R128). -/
  | trackFormat (cluster : Nat) (first : Nat) (count : Nat)
  /-- STREAM_ELEMENT_ARRIVAL (R151). -/
  | streamElementArrival (tid : Nat) (slot : Nat)
  /-- STREAM_PUSH_SEND (R152). -/
  | streamPushSend (tid : Nat) (slot : Nat)
  /-- COPY_PACKET_LANDED (R157). -/
  | copyPacketLanded (cluster : Nat) (engine : Nat)
  /-- CM_BLOCK_FILL (R167). -/
  | cmBlockFill (cluster : Nat) (block : Nat)
  /-- RESERVATION_TIMEOUT (R189). -/
  | reservationTimeout (tid : Nat)
  /-- BARRIER_RELEASE (R196). -/
  | barrierRelease (core : Nat) (b : Nat)
  /-- DOMAIN_FLIP (R198). -/
  | domainFlip (deal : Nat) (level : Nat) (node : Nat)
  /-- SEM_REQUEST_ARRIVAL (R200). -/
  | semRequestArrival (octet : Nat) (s : Nat)
  /-- REGISTERED_WAIT_RELEASE (R195). -/
  | registeredWaitRelease (tid : Nat)
  /-- MAILBOX_ARRIVAL (R203). -/
  | mailboxArrival (cluster : Nat) (m : Nat)
  /-- DEAL_PLACEMENT (R211). -/
  | dealPlacement (cluster : Nat)
  /-- HAND_LAUNCH (R213). -/
  | handLaunch (deal : Nat)
  /-- HAND_RETIRE (R215). -/
  | handRetire (deal : Nat) (hand : Nat)
  /-- VECTOR_COMMAND_COMPLETE (R253). -/
  | vectorCommandComplete (core : Nat)
  /-- LANE_GROUP_MOVE (R250). -/
  | laneGroupMove (core : Nat)
  /-- MX_JOIN (R280). -/
  | mxJoin (octet : Nat)
  /-- MX_OP_START (R281). -/
  | mxOpStart (octet : Nat)
  /-- MX_ROW_QUEUED (R281). -/
  | mxRowQueued (octet : Nat)
  /-- WD_JOIN (R306). -/
  | wdJoin (octet : Nat)
  /-- PARISON_HEADER (R299). -/
  | parisonHeader (octet : Nat)
  /-- NOP (R295). -/
  | parNop (octet : Nat)
  /-- LOADB (R295). -/
  | parLoadb (octet : Nat)
  /-- RUN (R295). -/
  | parRun (octet : Nat)
  /-- EMIT (R295). -/
  | parEmit (octet : Nat)
  /-- BRANCH (R295). -/
  | parBranch (octet : Nat)
  /-- CALL (R295). -/
  | parCall (octet : Nat)
  /-- RETURN (R295). -/
  | parReturn (octet : Nat)
  /-- SIGNAL (R295). -/
  | parSignal (octet : Nat)
  /-- WAITSIG (R295). -/
  | parWaitsig (octet : Nat)
  /-- END (R295). -/
  | parEnd (octet : Nat)
  /-- FP32_TO_SX (R311: the request at the head of the queue). -/
  | fp32ToSx (octet : Nat)
  /-- SX_TO_FP32 (R311: the request at the head of the queue). -/
  | sxToFp32 (octet : Nat)
  /-- TOP_K (R311: the request at the head of the queue). -/
  | topK (octet : Nat)
  /-- BLOCK_COMPRESSION (R311: the request at the head of the queue). -/
  | blockCompression (octet : Nat)
  /-- BLOCK_EXPANSION (R311: the request at the head of the queue). -/
  | blockExpansion (octet : Nat)
  /-- EXPONENT_HISTOGRAM (R311: the request at the head of the queue). -/
  | exponentHistogram (octet : Nat)
  /-- TX_COMPLETE (R312). -/
  | txComplete (octet : Nat)
  /-- RESUME (R73). -/
  | resume (tid : Nat)
  /-- KILL (R73). -/
  | kill (tid : Nat)
  /-- STOP (R73). -/
  | stop (tid : Nat)
  /-- WAKE (R73). -/
  | wake (tid : Nat)
  /-- ADOPT (R74). -/
  | adopt (target : Nat) (source : Nat)
  /-- START (R78). -/
  | start (tid : Nat)
  /-- STOP_TAKES_EFFECT (R63). -/
  | stopTakesEffect (tid : Nat)
  /-- CONTEXT_SAVE_DONE (R72). -/
  | contextSaveDone (tid : Nat)
  /-- CONTEXT_RESTORE_DONE (R72). -/
  | contextRestoreDone (tid : Nat)
  /-- CORE_WAKE (R77). -/
  | coreWake (core : Nat)
  /-- ICACHE_FILL (R84). -/
  | icacheFill (tid : Nat) (va : Word)
  /-- L1_FILL (R98). -/
  | l1Fill (tid : Nat) (va : Word)
  /-- REMOTE_STORE_ACK (R116: the table entry at `index`). -/
  | remoteStoreAck (core : Nat) (index : Nat)
  /-- PLB_FILL (R327). -/
  | plbFill (tid : Nat) (dom : Nat)
  /-- PAGE_WALK (R323). -/
  | pageWalk (tid : Nat) (va : Word) (acc : Access)
  /-- XLAT_REQ_PAGE (R332). -/
  | xlatReqPage (core : Nat) (vpage : BitVec 40) (size : BitVec 2)
  /-- XLAT_REQ_RIGHTS (R332). -/
  | xlatReqRights (core : Nat) (dom : BitVec 16) (all : Bool) (seat : BitVec 4)
  /-- XLAT_REQ_FLUSH (R332). -/
  | xlatReqFlush (core : Nat)
  /-- SHOOTDOWN_COMPLETE (R332). -/
  | shootdownComplete (core : Nat)
  /-- TICK_REFILL (R345). -/
  | tickRefill
  /-- AGED_REQUEST (R351). -/
  | agedRequest (channel : Nat) (seat : Nat)
  /-- FRAME_SCRUB_DONE (R334). -/
  | frameScrubDone (channel : Nat)
  /-- LATE_WRITEBACK (R334). -/
  | lateWriteback (pa : Nat)
  /-- UNCORRECTABLE_ERROR (R353). -/
  | uncorrectableError (place : ErrPlace) (loc : Nat)
  /-- SYNC_STOP_START (R354). -/
  | syncStopStart (fn : Nat)
  /-- QUIET_AGREED (R355). -/
  | quietAgreed (fn : Nat)
  /-- FLUSH_TOKEN_ARRIVAL (R355). -/
  | flushTokenArrival (fn : Nat) (router : Nat) (link : Nat) (vc : Nat)
  /-- SYNC_STOP_COMPLETE (R356). -/
  | syncStopComplete (fn : Nat)
  /-- SYNC_RESUME (R357). -/
  | syncResume (fn : Nat)
  /-- LINK_CRC_FAILURE (R371). -/
  | linkCrcFailure (link : Nat)
  /-- LINK_RETRAIN (R371). -/
  | linkRetrain (link : Nat)
  /-- PEER_FLIT_CODING (R370). -/
  | peerFlitCoding (port : Nat) (vc : Nat) (words : List (BitVec 32))
  /-- HOST_BAR2_WRITE (R368). -/
  | hostBar2Write (fn : Nat) (off : Nat) (bytes : List Byte)
  /-- HOST_BAR2_READ (R368). -/
  | hostBar2Read (fn : Nat) (off : Nat) (n : Nat)
  /-- CONFIG_REQUEST (R367). -/
  | configRequest (fn : Nat)
  /-- RAMP_TIMER_EXPIRY (R373). -/
  | rampTimerExpiry (octet : Nat)
  /-- DEMAND_APPEARS (R373). -/
  | demandAppears (octet : Nat)
  /-- POWER_DECISION (R374: the measured power of the window just ended). -/
  | powerDecision (milliwatts : Nat)
  /-- PARTCFG (R339). -/
  | partcfg (act : PartAct) (result : Word)
  /-- SEATCFG (R341). -/
  | seatcfg (fn : Nat) (seat : BitVec 4) (cfg : Option SeatCfg) (result : Word)
  /-- PTWRITE (R378). -/
  | ptwrite (addr : Word) (v : Word) (result : Word)
  /-- SSTOP (R354). -/
  | sstop (fn : Nat) (g : Nat) (result : Word)
  /-- POSTSYS (R378). -/
  | postsys (fn : Nat) (record : Word) (result : Word)
  /-- PLIM (R374). -/
  | plim (watts : Nat) (result : Word)
  /-- BKTREAD (R378). -/
  | bktread (arb : Arbiter) (bucket : Nat) (dest : Word) (result : Word)
  /-- TRKIMG (R378). -/
  | trkimg (cluster : Nat) (track : Nat) (pos : Nat) (src : Nat) (count : Nat) (result : Word)
  /-- FWSTAGE (R391). -/
  | fwstage (slot : Word) (src : Word) (len : Nat) (result : Word)
  /-- FWACT (R387). -/
  | fwact (result : Word)
  /-- SRESUME (R357). -/
  | sresume (fn : Nat) (g : Nat) (result : Word)
  /-- FRAMES_ALLOT (R334). -/
  | framesAllot (holder : Nat) (first : Nat) (count : Nat) (result : Word)
  /-- FRAMES_RELEASE (R334). -/
  | framesRelease (holder : Nat) (first : Nat) (count : Nat) (result : Word)
  /-- FRAMES_RETIRE (R334). -/
  | framesRetire (holder : Nat) (first : Nat) (count : Nat) (result : Word)
  /-- ACKSEQ_WRITE (R383). -/
  | ackseqWrite (fn : Nat) (seat : BitVec 4) (v : BitVec 32)
  /-- FW_QUIESCE_ACK (R387). -/
  | fwQuiesceAck
  /-- QUIESCE_TIMEOUT (R387). -/
  | quiesceTimeout
  /-- HEARTBEAT (R389). -/
  | heartbeat (k : Nat) (ver : BitVec 16)
  /-- QACK (R389). -/
  | qack (k : Nat)
  /-- HEARTBEAT_MISSED (R392). -/
  | heartbeatMissed
  /-- POWER_ON (R379). -/
  | powerOn
  /-- MEMORY_TRAINING_DONE (R379). -/
  | memoryTrainingDone (die : Nat) (ok : Bool)
  /-- DEALER_CORE_RESET (R384). -/
  | dealerCoreReset (k : Nat)
  /-- DIE_RESET (R384). -/
  | dieReset (die : Nat)
  /-- FUNCTION_RESET (R340). -/
  | functionReset (fn : Nat)
  /-- GET_VERSION (R386). -/
  | getVersion (fn : Nat)
  /-- GET_CAPABILITIES (R386). -/
  | getCapabilities (fn : Nat)
  /-- NEGOTIATE_ALGORITHMS (R386). -/
  | negotiateAlgorithms (fn : Nat) (p256 : Bool) (sha256 : Bool)
  /-- GET_DIGESTS (R386). -/
  | getDigests (fn : Nat)
  /-- GET_CERTIFICATE (R386). -/
  | getCertificate (fn : Nat) (slot : Nat)
  /-- CHALLENGE (R386). -/
  | challenge (fn : Nat) (slot : Nat) (nonce : BitVec 256)
  /-- GET_MEASUREMENTS (R386: `index` 0 asks for every block). -/
  | getMeasurements (fn : Nat) (index : Nat)
  /-- ILLEGAL_INSTRUCTION (R26, R27). -/
  | illegalInstruction (sub : BitVec 8) (val : Word)
  /-- FETCH_FAULT (R329). -/
  | fetchFault (cause : BitVec 8) (sub : BitVec 8) (va : Word)
  /-- FRAME_BOUNDARY (R372). -/
  | frameBoundary (octet : Nat)
  /-- CONTROL_PAGE_WRITE (R380). -/
  | controlPageWrite (fn : Nat) (off : Nat) (v : Word)
deriving DecidableEq, Repr

end Sys2Proof
end

