-- ==== Sys2Proof/Config.lean ====
section
/-! DEFINITION. The fixed constants of the module and the values the spec leaves open. An opaque constant has no body, so
nothing can be proved of its value. -/

namespace Sys2Proof.Config

/-- Number of compute cores (R1). -/
def cores : Nat := 2048
/-- Number of dealer cores (R1). -/
def dealers : Nat := 16
/-- First GDDR address beyond the memory, 192 × 2^30 (R322). -/
def gddrTop : Nat := 192 * 2 ^ 30
/-- Bytes a GDDR channel serves, 6 × 2^30 (R338). -/
def channelBytes : Nat := 6 * 2 ^ 30
/-- Bit 47 of a physical address: the host link serves it (R322). -/
def hostBit : Nat := 2 ^ 47
/-- Cycles of a tick (R4). -/
def tick : Nat := 128

/-- A value the spec leaves open, drawn by number (DESIGN CHOICE, log 3). -/
opaque freeWord : Nat → Word
/-- Cycles beyond one after which a thread's next unit is ready (DESIGN CHOICE, log 3: the spec fixes no latency under contention). -/
opaque extraCycles : Nat → Nat
/-- Positions by which a shift leaves a track's words off their offset (R126, R133: the spec says that slips occur, not
when; DESIGN CHOICE, log 3). -/
opaque shiftSlip : Nat → BitVec 12
/-- Tokens, modulo 33, that the refresh of a channel takes in a tick, by tick and channel (R334 bounds them by 32; DESIGN CHOICE, log 3). -/
opaque refreshTokens : Nat → Nat → BitVec 6
/-- The SEC-DED check bits of a track word's bits [71:0] (R124: the spec names the code's power, not its matrix; DESIGN CHOICE, log 14). -/
opaque checkBits : BitVec 72 → BitVec 8
/-- Energy weight of an event kind in units of 2^-10 nJ (R376 fixes that there are weights, not their values). -/
opaque energyWeight : Nat → Nat
/-- SHA-256 (R386: a named standard whose text is outside the spec). -/
opaque sha256 : List Byte → BitVec 256
/-- ECDSA P-256 verification of an image by its digest and signature (R386, R391: a named standard outside the spec). -/
opaque ecdsaValid : BitVec 256 → List Byte → Bool

/-- Version and entry address of a dealer image (R385, R387; the image's layout is outside the spec). -/
opaque imageVersion : List Byte → BitVec 16
opaque imageEntry : List Byte → Word
/-- The signature that comes with an image (R385), and the hub's ECDSA P-256 signature of bytes (R386). -/
opaque imageSig : List Byte → List Byte
opaque ecdsaSign : List Byte → List Byte
/-- The digest of the management processor's firmware, and the certificate chain of slot 0 (R386). -/
opaque hubDigest : BitVec 256
opaque certChain : List Byte
/-- Doublewords of a function's configuration space that name the module: device and vendor, class and revision, subsystem (R367 gives the header's form
only). -/
opaque pciId : Nat → Nat → BitVec 32
/-- The digest of a partition and seat configuration written out as numbers (R386; the form that is hashed is not given). -/
opaque configDigest : List Nat → BitVec 256

/-- What the arguments of a PARTCFG, of a SEATCFG and the arbiter of a BKTREAD stand for in a ring record (R378 names them and gives no layout; DESIGN
CHOICE, log 28). -/
opaque partcfgArgs : List Word → Option PartAct
opaque seatcfgArgs : List Word → Option (Nat × BitVec 4 × Option SeatCfg)
opaque arbiterArg : Word → Option Arbiter

end Sys2Proof.Config
end

