-- ==== Sys2Proof/Decode.lean ====
section
/-! DEFINITION. Decoding (R17 to R27) and encoding of instruction words. A word is cut once into the six columns of
Table 0.4; every form reads its fields from them. Rejections carry the subcauses of Table 1.5. -/

namespace Sys2Proof

/-! ## The columns of a word (Table 0.4, R18) -/

/-- The six columns 31–25, 24–20, 19–15, 14–12, 11–7 and 6–0 of an instruction word. -/
structure Fields where
  f7 : BitVec 7
  rs2 : BitVec 5
  rs1 : BitVec 5
  f3 : BitVec 3
  rd : BitVec 5
  op : BitVec 7
deriving DecidableEq, Repr

/-- The columns of a word. -/
def fieldsOf (w : IWord) : Fields :=
  ⟨w.extractLsb' 25 7, w.extractLsb' 20 5, w.extractLsb' 15 5, w.extractLsb' 12 3, w.extractLsb' 7 5,
    w.extractLsb' 0 7⟩

/-- The word with the given columns. -/
def wordOf (f : Fields) : IWord :=
  f.f7 ++ f.rs2 ++ f.rs1 ++ f.f3 ++ f.rd ++ f.op

/-! ## Immediates (R19, Table 1.2): assembled from the columns, before sign extension -/

/-- Format I: inst[31:20]. -/
def Fields.immI (f : Fields) : BitVec 12 := f.f7 ++ f.rs2

/-- Format S: inst[31:25] · inst[11:7]. -/
def Fields.immS (f : Fields) : BitVec 12 := f.f7 ++ f.rd

/-- Format B: imm[12:1], which is inst[31] · inst[7] · inst[30:25] · inst[11:8]. -/
def Fields.immB (f : Fields) : BitVec 12 :=
  f.f7.extractLsb' 6 1 ++ f.rd.extractLsb' 0 1 ++ f.f7.extractLsb' 0 6 ++ f.rd.extractLsb' 1 4

/-- Format U: inst[31:12]. -/
def Fields.immU (f : Fields) : BitVec 20 := f.f7 ++ f.rs2 ++ f.rs1 ++ f.f3

/-- Format J: imm[20:1], which is inst[31] · inst[19:12] · inst[20] · inst[30:21]. -/
def Fields.immJ (f : Fields) : BitVec 20 :=
  f.f7.extractLsb' 6 1 ++ f.rs1 ++ f.f3 ++ f.rs2.extractLsb' 0 1 ++ f.f7.extractLsb' 0 6 ++ f.rs2.extractLsb' 1 4

/-- The p of pfx.imm (Table 1.6): inst[31:15] · inst[11:7]. -/
def Fields.immP (f : Fields) : BitVec 22 := f.f7 ++ f.rs2 ++ f.rs1 ++ f.rd

/-! ## Codes of the small fields -/

/-- Scope codes (Table 8.2). -/
def Scope.code : Scope → BitVec 3
  | .thr => 0 | .core => 1 | .oct => 2 | .clu => 3 | .die => 4 | .part => 5 | .mod => 6 | .host => 7

/-- The scope of a code. -/
def Scope.ofCode (c : BitVec 3) : Scope :=
  match c.toNat with
  | 0 => .thr | 1 => .core | 2 => .oct | 3 => .clu | 4 => .die | 5 => .part | 6 => .mod | _ => .host

/-- Policy codes (Table 5.5). -/
def Policy.code : Policy → BitVec 2
  | .default => 0 | .stream => 1 | .noAlloc => 2 | .lastUse => 3

/-- The policy of a code. -/
def Policy.ofCode (c : BitVec 2) : Policy :=
  match c.toNat with
  | 0 => .default | 1 => .stream | 2 => .noAlloc | _ => .lastUse

/-- Codes of the floating types (R259). -/
def FTy.code : FTy → BitVec 2
  | .f64 => 0 | .f32 => 1 | .f16 => 2 | .bf16 => 3

/-- The floating type of a code. -/
def FTy.ofCode (c : BitVec 2) : FTy :=
  match c.toNat with
  | 0 => .f64 | 1 => .f32 | 2 => .f16 | _ => .bf16

/-- Codes of the element sizes (R260). -/
def Sz.code : Sz → BitVec 2
  | .b8 => 0 | .b16 => 1 | .b32 => 2 | .b64 => 3

/-- The element size of a code. -/
def Sz.ofCode (c : BitVec 2) : Sz :=
  match c.toNat with
  | 0 => .b8 | 1 => .b16 | 2 => .b32 | _ => .b64

/-- Type codes of R261. -/
def NTy.code : NTy → BitVec 4
  | .i8 => 0 | .i16 => 1 | .i32 => 2 | .i64 => 3 | .n8 => 4 | .n16 => 5 | .n32 => 6 | .n64 => 7
  | .f64 => 8 | .f32 => 9 | .f16 => 10 | .bf16 => 11

/-- The type of a code; codes 1100 to 1111 are unassigned (R261). -/
def NTy.ofCode (c : BitVec 4) : Option NTy :=
  match c.toNat with
  | 0 => some .i8 | 1 => some .i16 | 2 => some .i32 | 3 => some .i64
  | 4 => some .n8 | 5 => some .n16 | 6 => some .n32 | 7 => some .n64
  | 8 => some .f64 | 9 => some .f32 | 10 => some .f16 | 11 => some .bf16
  | _ => none

/-- One bit as a field. -/
def bit1 (b : Bool) : BitVec 1 := BitVec.ofBool b

/-! ## Decoding -/

/-- Why a word is no instruction: the subcauses of Table 1.5 that concern one word. -/
inductive DecErr where
  | unassigned | reserved | pool
deriving DecidableEq, Repr

/-- The subcause of Table 1.5. -/
def DecErr.sub : DecErr → BitVec 8
  | .unassigned => 0 | .reserved => 1 | .pool => 3

/-- The outcome of a form whose selectors are assigned: its reserved fields must be zero (R25). -/
def formWith (reservedZero : Bool) (i : Instr) : Except DecErr Instr :=
  if reservedZero then .ok i else .error .reserved

/-- An unassigned encoding (R25). -/
def noForm : Except DecErr Instr := .error .unassigned

/-- LOAD (R52). -/
def decLoad (f : Fields) : Except DecErr Instr :=
  match f.f3.toNat with
  | 0 => .ok (.lb f.rd f.rs1 f.immI) | 1 => .ok (.lh f.rd f.rs1 f.immI) | 2 => .ok (.lw f.rd f.rs1 f.immI)
  | 3 => .ok (.ld f.rd f.rs1 f.immI) | 4 => .ok (.lbu f.rd f.rs1 f.immI) | 5 => .ok (.lhu f.rd f.rs1 f.immI)
  | 6 => .ok (.lwu f.rd f.rs1 f.immI) | _ => noForm

/-- STORE (R52). -/
def decStore (f : Fields) : Except DecErr Instr :=
  match f.f3.toNat with
  | 0 => .ok (.sb f.rs2 f.rs1 f.immS) | 1 => .ok (.sh f.rs2 f.rs1 f.immS) | 2 => .ok (.sw f.rs2 f.rs1 f.immS)
  | 3 => .ok (.sd f.rs2 f.rs1 f.immS) | _ => noForm

/-- OP-IMM (R47, R48). -/
def decOpImm (f : Fields) : Except DecErr Instr :=
  match f.f3.toNat with
  | 0 => .ok (.addi f.rd f.rs1 f.immI) | 2 => .ok (.slti f.rd f.rs1 f.immI) | 3 => .ok (.sltiu f.rd f.rs1 f.immI)
  | 4 => .ok (.xori f.rd f.rs1 f.immI) | 6 => .ok (.ori f.rd f.rs1 f.immI) | 7 => .ok (.andi f.rd f.rs1 f.immI)
  | 1 =>
    match (f.f7.extractLsb' 1 6).toNat with
    | 0 => .ok (.slli f.rd f.rs1 (f.f7.extractLsb' 0 1 ++ f.rs2))
    | _ => noForm
  | _ =>
    match (f.f7.extractLsb' 1 6).toNat with
    | 0 => .ok (.srli f.rd f.rs1 (f.f7.extractLsb' 0 1 ++ f.rs2))
    | 16 => .ok (.srai f.rd f.rs1 (f.f7.extractLsb' 0 1 ++ f.rs2))
    | _ => noForm

/-- OP-IMM-32 (R47, R48). -/
def decOpImm32 (f : Fields) : Except DecErr Instr :=
  match f.f3.toNat with
  | 0 => .ok (.addiw f.rd f.rs1 f.immI)
  | 1 => match f.f7.toNat with
    | 0 => .ok (.slliw f.rd f.rs1 f.rs2)
    | _ => noForm
  | 5 => match f.f7.toNat with
    | 0 => .ok (.srliw f.rd f.rs1 f.rs2)
    | 32 => .ok (.sraiw f.rd f.rs1 f.rs2)
    | _ => noForm
  | _ => noForm

/-- OP (R45, R50). -/
def decOp (f : Fields) : Except DecErr Instr :=
  match f.f7.toNat with
  | 0 => match f.f3.toNat with
    | 0 => .ok (.add f.rd f.rs1 f.rs2) | 1 => .ok (.sll f.rd f.rs1 f.rs2) | 2 => .ok (.slt f.rd f.rs1 f.rs2)
    | 3 => .ok (.sltu f.rd f.rs1 f.rs2) | 4 => .ok (.xor f.rd f.rs1 f.rs2) | 5 => .ok (.srl f.rd f.rs1 f.rs2)
    | 6 => .ok (.or f.rd f.rs1 f.rs2) | _ => .ok (.and f.rd f.rs1 f.rs2)
  | 32 => match f.f3.toNat with
    | 0 => .ok (.sub f.rd f.rs1 f.rs2) | 5 => .ok (.sra f.rd f.rs1 f.rs2) | _ => noForm
  | 1 => match f.f3.toNat with
    | 0 => .ok (.mul f.rd f.rs1 f.rs2) | 1 => .ok (.mulh f.rd f.rs1 f.rs2) | 2 => .ok (.mulhsu f.rd f.rs1 f.rs2)
    | 3 => .ok (.mulhu f.rd f.rs1 f.rs2) | 4 => .ok (.div f.rd f.rs1 f.rs2) | 5 => .ok (.divu f.rd f.rs1 f.rs2)
    | 6 => .ok (.rem f.rd f.rs1 f.rs2) | _ => .ok (.remu f.rd f.rs1 f.rs2)
  | _ => noForm

/-- OP-32 (R46, R50). -/
def decOp32 (f : Fields) : Except DecErr Instr :=
  match f.f7.toNat with
  | 0 => match f.f3.toNat with
    | 0 => .ok (.addw f.rd f.rs1 f.rs2) | 1 => .ok (.sllw f.rd f.rs1 f.rs2) | 5 => .ok (.srlw f.rd f.rs1 f.rs2)
    | _ => noForm
  | 32 => match f.f3.toNat with
    | 0 => .ok (.subw f.rd f.rs1 f.rs2) | 5 => .ok (.sraw f.rd f.rs1 f.rs2) | _ => noForm
  | 1 => match f.f3.toNat with
    | 0 => .ok (.mulw f.rd f.rs1 f.rs2) | 4 => .ok (.divw f.rd f.rs1 f.rs2) | 5 => .ok (.divuw f.rd f.rs1 f.rs2)
    | 6 => .ok (.remw f.rd f.rs1 f.rs2) | 7 => .ok (.remuw f.rd f.rs1 f.rs2) | _ => noForm
  | _ => noForm

/-- BRANCH (R54). -/
def decBranch (f : Fields) : Except DecErr Instr :=
  match f.f3.toNat with
  | 0 => .ok (.beq f.rs1 f.rs2 f.immB) | 1 => .ok (.bne f.rs1 f.rs2 f.immB) | 4 => .ok (.blt f.rs1 f.rs2 f.immB)
  | 5 => .ok (.bge f.rs1 f.rs2 f.immB) | 6 => .ok (.bltu f.rs1 f.rs2 f.immB) | 7 => .ok (.bgeu f.rs1 f.rs2 f.immB)
  | _ => noForm

/-- SYSTEM (R23, R79). -/
def decSystem (f : Fields) : Except DecErr Instr :=
  match f.f3.toNat with
  | 1 => .ok (.csrrw f.rd f.immI f.rs1) | 2 => .ok (.csrrs f.rd f.immI f.rs1) | 3 => .ok (.csrrc f.rd f.immI f.rs1)
  | 5 => .ok (.csrrwi f.rd f.immI f.rs1) | 6 => .ok (.csrrsi f.rd f.immI f.rs1) | 7 => .ok (.csrrci f.rd f.immI f.rs1)
  | _ => noForm

/-- The scope, wait and policy fields of an own load or store (R110). -/
def Fields.scopeHi (f : Fields) : Scope := Scope.ofCode (f.f7.extractLsb' 4 3)
/-- WAIT of R110. -/
def Fields.waitHi (f : Fields) : BitVec 2 := f.f7.extractLsb' 2 2
/-- POL of R110. -/
def Fields.polHi (f : Fields) : Policy := Policy.ofCode (f.f7.extractLsb' 0 2)
/-- The scope field in bits [22:20] (R181). -/
def Fields.scopeRs2 (f : Fields) : Scope := Scope.ofCode (f.rs2.extractLsb' 0 3)

/-- custom-0 (Table 1.4; R57, R110, R114, R118, R121). -/
def decCustom0 (f : Fields) : Except DecErr Instr :=
  match f.f3.toNat with
  | 0 => match f.f7.toNat with
    | 0 => .ok (.bfx f.rd f.rs1 f.rs2) | 1 => .ok (.bfxs f.rd f.rs1 f.rs2) | 2 => .ok (.bfi f.rd f.rs1 f.rs2)
    | 3 => formWith (f.rs2 == 0) (.clz f.rd f.rs1) | 4 => formWith (f.rs2 == 0) (.ctz f.rd f.rs1)
    | 5 => formWith (f.rs2 == 0) (.cpop f.rd f.rs1) | 6 => formWith (f.rs2 == 0) (.rev8 f.rd f.rs1)
    | _ => noForm
  | 1 => match (f.rs2.extractLsb' 4 1).toNat with
    | 0 => .ok (.ldo f.rd f.rs1 f.scopeHi f.waitHi f.polHi (f.rs2.extractLsb' 0 4))
    | _ => .ok (.lwo f.rd f.rs1 f.scopeHi f.waitHi f.polHi (f.rs2.extractLsb' 0 4))
  | 2 => match (f.rd.extractLsb' 0 1).toNat with
    | 0 => .ok (.sdo f.rs2 f.rs1 f.scopeHi f.waitHi f.polHi (f.rd.extractLsb' 1 4))
    | _ => .ok (.swo f.rs2 f.rs1 f.scopeHi f.waitHi f.polHi (f.rd.extractLsb' 1 4))
  | 3 => match f.f7.toNat with
    | 0 => .ok (.rst f.rs2 f.rs1 f.rd) | 1 => .ok (.rsa f.rs2 f.rs1 f.rd) | _ => noForm
  | 4 => match f.f7.toNat with
    | 0 =>
      if f.rs2.extractLsb' 0 3 == 0 then noForm
      else formWith (f.rs2.extractLsb' 3 2 == 0 && f.rs1 == 0 && f.rd == 0) (.wcwait (f.rs2.extractLsb' 0 3))
    | 1 =>
      if f.rs2.extractLsb' 0 2 == 0 then noForm
      else formWith (f.rs2.extractLsb' 2 3 == 0 && f.rs1 == 0) (.wcread f.rd (f.rs2.extractLsb' 0 2))
    | _ => noForm
  | 5 =>
    let h := f.rs2.extractLsb' 0 4
    let top := f.rs2.extractLsb' 4 1 == 0
    match f.f7.toNat with
    | 0 => formWith (top && f.rd == 0) (.cbCfg h f.rs1) | 1 => formWith top (.cbWfill f.rd h f.rs1)
    | 2 => formWith top (.cbWfree f.rd h f.rs1) | 3 => formWith (top && f.rd == 0) (.cbAdvp h f.rs1)
    | 4 => formWith (top && f.rd == 0) (.cbAdvc h f.rs1) | _ => noForm
  | _ => noForm

/-- T of R259 in funct7[1:0]. -/
def Fields.fty (f : Fields) : FTy := FTy.ofCode (f.f7.extractLsb' 0 2)
/-- SZ of R260 in funct7[2:1]. -/
def Fields.sz (f : Fields) : Sz := Sz.ofCode (f.f7.extractLsb' 1 2)
/-- N of R260. -/
def Fields.sgn (f : Fields) : Bool := f.f7.extractLsb' 0 1 == 1
/-- SZ of R267 in funct7[3:2]. -/
def Fields.msz (f : Fields) : Sz := Sz.ofCode (f.f7.extractLsb' 2 2)
/-- F of R261 and R263 in funct7[3:0]. -/
def Fields.nty (f : Fields) : Option NTy := NTy.ofCode (f.f7.extractLsb' 0 4)

/-- The floating types among the type codes: codes 1000 to 1011 (R261, R263). -/
def Fields.ntyFloat (f : Fields) : Option FTy :=
  if f.f7.extractLsb' 2 2 == 2 then some f.fty else none

/-- custom-1 claims and vfence (R257). -/
def decVClaim (f : Fields) : Except DecErr Instr :=
  match f.f7.toNat with
  | 0 => formWith (f.rs2 == 0) (.vclaim f.rd f.rs1)
  | 1 => formWith (f.rs2 == 0 && f.rs1 == 0 && f.rd == 0) .vrel
  | 2 => formWith (f.rs2 == 0) (.vlen f.rd f.rs1)
  | 3 =>
    let r := f.rd.extractLsb' 0 1 == 1
    let sp := f.rd.extractLsb' 1 1 == 1
    formWith (f.rd.extractLsb' 2 3 == 0 && (sp || (f.rs1 == 0 && f.rs2 == 0))) (.vfence r sp f.rs1 f.rs2)
  | _ => noForm

/-- custom-1 float forms (R259). -/
def decVFloat (f : Fields) : Except DecErr Instr :=
  let t := f.fty
  match (f.f7.extractLsb' 2 5).toNat with
  | 0 => .ok (.vfadd t f.rd f.rs1 f.rs2) | 1 => .ok (.vfsub t f.rd f.rs1 f.rs2) | 2 => .ok (.vfmul t f.rd f.rs1 f.rs2)
  | 3 => .ok (.vfma t f.rd f.rs1 f.rs2) | 4 => .ok (.vfms t f.rd f.rs1 f.rs2) | 5 => .ok (.vfnms t f.rd f.rs1 f.rs2)
  | 6 => .ok (.vfmin t f.rd f.rs1 f.rs2) | 7 => .ok (.vfmax t f.rd f.rs1 f.rs2) | 8 => .ok (.vfeq t f.rd f.rs1 f.rs2)
  | 9 => .ok (.vflt t f.rd f.rs1 f.rs2) | 10 => .ok (.vfle t f.rd f.rs1 f.rs2) | 11 => .ok (.vfsel t f.rd f.rs1 f.rs2)
  | _ => noForm

/-- custom-1 integer forms (R260). -/
def decVInt (f : Fields) : Except DecErr Instr :=
  let z := f.sz
  let n := f.sgn
  match (f.f7.extractLsb' 3 4).toNat with
  | 0 => .ok (.vadd z n f.rd f.rs1 f.rs2) | 1 => .ok (.vsub z n f.rd f.rs1 f.rs2) | 2 => .ok (.vmul z n f.rd f.rs1 f.rs2)
  | 3 => .ok (.vadds z n f.rd f.rs1 f.rs2) | 4 => .ok (.vsubs z n f.rd f.rs1 f.rs2)
  | 5 => .ok (.vmin z n f.rd f.rs1 f.rs2) | 6 => .ok (.vmax z n f.rd f.rs1 f.rs2)
  | 7 => .ok (.vand z n f.rd f.rs1 f.rs2) | 8 => .ok (.vor z n f.rd f.rs1 f.rs2) | 9 => .ok (.vxor z n f.rd f.rs1 f.rs2)
  | 10 => .ok (.vsll z n f.rd f.rs1 f.rs2) | 11 => .ok (.vsr z n f.rd f.rs1 f.rs2)
  | 12 => .ok (.veq z n f.rd f.rs1 f.rs2) | 13 => .ok (.vlt z n f.rd f.rs1 f.rs2)
  | _ => noForm

/-- custom-1 conversions and special functions (R261, Table 13.8). -/
def decVCvt (f : Fields) : Except DecErr Instr :=
  match (f.f7.extractLsb' 4 3).toNat with
  | 0 => match f.nty, NTy.ofCode (f.rs2.extractLsb' 0 4) with
    | some d, some s => .ok (.vcvt d (f.rs2.extractLsb' 4 1 == 1) s f.rd f.rs1)
    | _, _ => noForm
  | 1 => match f.ntyFloat with
    | some .f64 => .ok (.vscale .f64 f.rd f.rs1 f.rs2) | some .f32 => .ok (.vscale .f32 f.rd f.rs1 f.rs2)
    | _ => noForm
  | 2 => match f.ntyFloat with
    | some .f64 => .ok (.vscalea .f64 f.rd f.rs1 f.rs2) | some .f32 => .ok (.vscalea .f32 f.rd f.rs1 f.rs2)
    | _ => noForm
  | 3 => match f.ntyFloat with | some t => formWith (f.rs2 == 0) (.vexp2 t f.rd f.rs1) | none => noForm
  | 4 => match f.ntyFloat with | some t => formWith (f.rs2 == 0) (.vlog2 t f.rd f.rs1) | none => noForm
  | 5 => match f.ntyFloat with | some t => formWith (f.rs2 == 0) (.vrcp t f.rd f.rs1) | none => noForm
  | 6 => match f.ntyFloat with | some t => formWith (f.rs2 == 0) (.vrsqrt t f.rd f.rs1) | none => noForm
  | _ => noForm

/-- custom-1 reductions, dot products and the outer product (R263, Table 13.9). -/
def decVRed (f : Fields) : Except DecErr Instr :=
  match (f.f7.extractLsb' 4 3).toNat with
  | 0 => match f.nty with | some t => formWith (f.rs2 == 0) (.vredsum t f.rd f.rs1) | none => noForm
  | 1 => match f.nty with | some t => formWith (f.rs2 == 0) (.vredmax t f.rd f.rs1) | none => noForm
  | 2 => match f.nty with | some t => formWith (f.rs2 == 0) (.vredmin t f.rd f.rs1) | none => noForm
  | 3 => match f.nty with
    | some .i8 => .ok (.vdot .i8 f.rd f.rs1 f.rs2) | some .i16 => .ok (.vdot .i16 f.rd f.rs1 f.rs2)
    | some .n8 => .ok (.vdot .n8 f.rd f.rs1 f.rs2) | some .n16 => .ok (.vdot .n16 f.rd f.rs1 f.rs2)
    | _ => noForm
  | 4 => match f.ntyFloat with | some t => .ok (.vopa t f.rd f.rs1 f.rs2) | none => noForm
  | _ => noForm

/-- custom-1 memory forms (R267). -/
def decVMem (f : Fields) : Except DecErr Instr :=
  let z := f.msz
  let low := f.f7.extractLsb' 0 2 == 0
  match (f.f7.extractLsb' 4 3).toNat with
  | 0 => formWith (low && f.rs2 == 0) (.vld z f.rd f.rs1)
  | 1 => formWith low (.vlds z f.rd f.rs1 f.rs2)
  | 2 => formWith low (.vldx z f.rd f.rs1 f.rs2)
  | 3 => formWith (low && f.rs2 == 0) (.vst z f.rd f.rs1)
  | 4 => formWith low (.vsts z f.rd f.rs1 f.rs2)
  | _ => noForm

/-- custom-1 permute, broadcast, moves and masks (R268). -/
def decVMove (f : Fields) : Except DecErr Instr :=
  let z := f.sz
  let n := f.sgn
  match (f.f7.extractLsb' 3 4).toNat with
  | 0 => formWith (f.rs2 == 0) (.vbcast z n f.rd f.rs1)
  | 1 => .ok (.vperm z n f.rd f.rs1 f.rs2)
  | 2 => formWith (f.rs2 == 0) (.vmv z n f.rd f.rs1)
  | 3 => .ok (.vmvx z n f.rd f.rs1 f.rs2)
  | 4 => .ok (.vins z n f.rd f.rs1 f.rs2)
  | 5 => formWith (f.rs2 == 0) (.vmpop z n f.rd f.rs1)
  | 6 => formWith (f.rs2 == 0) (.vmfirst z n f.rd f.rs1)
  | _ => noForm

/-- custom-1 (Table 1.4). -/
def decCustom1 (f : Fields) : Except DecErr Instr :=
  match f.f3.toNat with
  | 0 => decVClaim f | 1 => decVFloat f | 2 => decVInt f | 3 => decVCvt f
  | 4 => decVRed f | 5 => decVMem f | 6 => decVMove f | _ => noForm

/-- custom-2 heads (R141, Table 6.10). -/
def decHead (f : Fields) : Except DecErr Instr :=
  let h := f.f7.extractLsb' 0 3
  let z2 := f.rs2 == 0
  let z1 := f.rs1 == 0
  let zd := f.rd == 0
  let hi := f.rs2.extractLsb' 1 4 == 0
  let k := f.rs2.extractLsb' 0 1 == 1
  match (f.f7.extractLsb' 3 4).toNat with
  | 0 => formWith z2 (.hdAcq f.rd h f.rs1)
  | 1 => formWith (hi && z1 && zd) (.hdRel h k)
  | 2 => formWith zd (.hdSeek h f.rs1 f.rs2)
  | 3 => formWith (z2 && z1) (.hdRds f.rd h)
  | 4 => formWith (z2 && zd) (.hdWrs h f.rs1)
  | 5 => formWith (z2 && z1 && zd) (.hdRew h)
  | 6 => formWith (z2 && z1) (.hdPos f.rd h)
  | 7 => formWith (hi && z1) (.hdChk f.rd h k)
  | 8 => formWith (z2 && zd) (.hdSave h f.rs1)
  | 9 => formWith (z2 && zd) (.hdLoad h f.rs1)
  | _ => noForm

/-- custom-2 streams, copies and gathers (R147, Table 7.2). -/
def decStream (f : Fields) : Except DecErr Instr :=
  let z2 := f.rs2 == 0
  match f.f7.toNat with
  | 0 => formWith z2 (.stBind f.rd f.rs1)
  | 1 => formWith (z2 && f.rs1 == 0) (.stRel f.rd)
  | 2 => formWith z2 (.stPos f.rd f.rs1)
  | 3 => .ok (.cpGo f.rd f.rs1 f.rs2)
  | 4 => .ok (.gtGo f.rd f.rs1 f.rs2)
  | 5 => formWith z2 (.cpWait f.rd f.rs1)
  | 6 => formWith (z2 && f.rd == 0) (.cpStop f.rs1)
  | 7 => formWith z2 (.cpStat f.rd f.rs1)
  | _ => noForm

/-- custom-2 row array, weight-driven and transform forms (R284, R306, R314). -/
def decArray (f : Fields) : Except DecErr Instr :=
  let z2 := f.rs2 == 0
  let z1 := f.rs1 == 0
  let zd := f.rd == 0
  match f.f3.toNat with
  | 2 => match f.f7.toNat with
    | 0 => formWith (z2 && zd) (.mxCfg f.rs1)
    | 1 => formWith zd (.mxLda f.rs1 f.rs2)
    | 2 => formWith (z2 && zd) (.mxLdb f.rs1)
    | 3 => formWith (z2 && zd) (.mxGo f.rs1)
    | 4 => formWith z1 (.mxPop f.rs2 f.rd)
    | 5 => formWith (z2 && z1 && zd) .mxDrop
    | 6 => formWith (z2 && z1 && zd) .mxAbort
    | _ => noForm
  | 3 => match f.f7.toNat with
    | 0 => .ok (.wdEnter f.rd f.rs1 f.rs2)
    | 1 => formWith (z2 && z1 && zd) .wdExit
    | 2 => formWith z2 (.wdResume f.rd f.rs1)
    | 3 => formWith (z2 && z1) (.wdWait f.rd)
    | _ => noForm
  | _ => match f.f7.toNat with
    | 0 => formWith z2 (.txReq f.rd f.rs1)
    | 1 => formWith (z2 && z1) (.txRes f.rd)
    | 2 => formWith (z2 && z1) (.txStat f.rd)
    | _ => noForm

/-- custom-2 (Table 1.4). -/
def decCustom2 (f : Fields) : Except DecErr Instr :=
  match f.f3.toNat with
  | 0 => decHead f | 1 => decStream f | 2 => decArray f | 3 => decArray f | 4 => decArray f | _ => noForm

/-- custom-3 atomics (R187). -/
def decAtomic (f : Fields) : Except DecErr Instr :=
  let q := f.f7.extractLsb' 2 1 == 1
  let l := f.f7.extractLsb' 1 1 == 1
  let x := f.f7.extractLsb' 0 1 == 1
  match (f.f7.extractLsb' 3 4).toNat with
  | 0 => .ok (.amoAdd q l x f.rd f.rs1 f.rs2) | 1 => .ok (.amoSwap q l x f.rd f.rs1 f.rs2)
  | 2 => .ok (.amoAnd q l x f.rd f.rs1 f.rs2) | 3 => .ok (.amoOr q l x f.rd f.rs1 f.rs2)
  | 4 => .ok (.amoXor q l x f.rd f.rs1 f.rs2) | 5 => .ok (.amoMin q l x f.rd f.rs1 f.rs2)
  | 6 => .ok (.amoMax q l x f.rd f.rs1 f.rs2) | 7 => .ok (.amoMinn q l x f.rd f.rs1 f.rs2)
  | 8 => .ok (.amoMaxn q l x f.rd f.rs1 f.rs2) | 9 => .ok (.amoCas q l x f.rd f.rs1 f.rs2)
  | 10 => formWith (f.rs2 == 0) (.lr q l x f.rd f.rs1) | 11 => .ok (.sc q l x f.rd f.rs1 f.rs2)
  | _ => noForm

/-- custom-3 fences and signature operations (R181). -/
def decFence (f : Fields) : Except DecErr Instr :=
  let z1 := f.rs1 == 0
  let zd := f.rd == 0
  let sc := f.scopeRs2
  let hi2 := f.rs2.extractLsb' 3 2 == 0
  match f.f7.toNat with
  | 0 =>
    let p := f.rs1.extractLsb' 2 2
    let q := f.rs1.extractLsb' 0 2
    if p == 0 || q == 0 then noForm
    else formWith (hi2 && f.rs1.extractLsb' 4 1 == 0 && zd) (.fenceS sc p q)
  | 1 =>
    let full := f.rs2.extractLsb' 3 1 == 1
    if full && (sc == .thr || sc == .core) then noForm
    else formWith (f.rs2.extractLsb' 4 1 == 0 && z1 && zd) (.acq full sc)
  | 2 => formWith (hi2 && z1 && zd) (.rel sc)
  | 3 => formWith (f.rd.extractLsb' 4 1 == 0)
      (.sigPub (f.rd.extractLsb' 3 1 == 1) (Scope.ofCode (f.rd.extractLsb' 0 3)) f.rs1 f.rs2)
  | 4 => formWith hi2 (.sigInv sc f.rd f.rs1)
  | 5 =>
    if f.rs2.extractLsb' 0 4 == 0 then noForm
    else formWith (f.rs2.extractLsb' 4 1 == 0 && z1 && zd) (.fenceEng (f.rs2.extractLsb' 0 4))
  | _ => noForm

/-- custom-3 barriers, domains and semaphores (R201): funct7[6] is N. -/
def decSync (f : Fields) : Except DecErr Instr :=
  match f.f7.toNat with
  | 0 => formWith (f.rd == 0) (.barCfg f.rs1 f.rs2)
  | 1 => formWith (f.rs2 == 0) (.barArr f.rd f.rs1)
  | 2 => .ok (.barWait f.rd f.rs1 f.rs2)
  | 66 => .ok (.barWaitN f.rd f.rs1 f.rs2)
  | 3 =>
    if 8 < (f.rs2.extractLsb' 0 4).toNat then noForm
    else formWith (f.rs2.extractLsb' 4 1 == 0 && f.rs1 == 0) (.domSync f.rd (f.rs2.extractLsb' 0 4))
  | 4 => formWith (f.rd == 0) (.semPost f.rs1 f.rs2)
  | 5 => .ok (.semWait f.rd f.rs1 f.rs2)
  | 69 => .ok (.semWaitN f.rd f.rs1 f.rs2)
  | _ => noForm

/-- custom-3 mailboxes and messages (R206). -/
def decMailbox (f : Fields) : Except DecErr Instr :=
  let z2 := f.rs2 == 0
  let z1 := f.rs1 == 0
  let zd := f.rd == 0
  match f.f7.toNat with
  | 0 => formWith z2 (.mbxBind f.rd f.rs1)
  | 1 => formWith z2 (.mbxRel f.rd f.rs1)
  | 2 => formWith (z2 && z1) (.mbxPeek f.rd)
  | 3 => formWith z2 (.mbxTake f.rd f.rs1)
  | 4 => formWith (z2 && zd) (.mbxDone f.rs1)
  | 5 => formWith (f.rd.extractLsb' 1 4 == 0) (.msgSend (f.rd.extractLsb' 0 1 == 1) f.rs1 f.rs2)
  | 6 => formWith (z2 && z1 && zd) .msgAbort
  | _ => noForm

/-- custom-3 deals and rings (R217, R218). -/
def decDeal (f : Fields) : Except DecErr Instr :=
  let z2 := f.rs2 == 0
  match f.f7.toNat with
  | 0 => formWith z2 (.dealPost f.rd f.rs1)
  | 1 => formWith z2 (.dealStat f.rd f.rs1)
  | 2 => formWith (z2 && f.rs1 == 0 && f.rd == 0) .handExit
  | 3 => .ok (.rngPush f.rd f.rs1 f.rs2)
  | 4 => .ok (.rngPop f.rd f.rs1 f.rs2)
  | 5 => formWith z2 (.rngSkip f.rd f.rs1)
  | _ => noForm

/-- custom-3 gangs, system forms and pfx.ord (R89, R75, R30). -/
def decSys3 (f : Fields) : Except DecErr Instr :=
  let z2 := f.rs2 == 0
  let z1 := f.rs1 == 0
  let zd := f.rd == 0
  match f.f3.toNat with
  | 5 => match f.f7.toNat with
    | 0 => .ok (.fuse f.rd f.rs1 f.rs2)
    | 1 => formWith (z2 && z1 && zd) .split
    | _ => noForm
  | _ => match f.f7.toNat with
    | 0 => formWith zd (.trap f.rs2 f.rs1)
    | 1 =>
      if f.rd.extractLsb' 0 2 == 0 then noForm
      else formWith (z2 && z1 && f.rd.extractLsb' 2 3 == 0) (.pfxOrd (f.rd.extractLsb' 0 2))
    | 2 => formWith (z2 && z1 && zd) .xret
    | 3 => formWith z2 (.idle f.rd f.rs1)
    | 4 => formWith (z2 && z1 && zd) .yield
    | _ => noForm

/-- custom-3 (Table 1.4). -/
def decCustom3 (f : Fields) : Except DecErr Instr :=
  match f.f3.toNat with
  | 0 => decAtomic f | 1 => decFence f | 2 => decSync f | 3 => decMailbox f | 4 => decDeal f
  | 7 => .ok (.pfxImm f.immP)
  | _ => decSys3 f

/-- The major-opcode map (Table 1.3): every other value of bits [6:0] is illegal (R21, R22). -/
def decodeFields (f : Fields) : Except DecErr Instr :=
  match f.op.toNat with
  | 0x03 => decLoad f
  | 0x23 => decStore f
  | 0x13 => decOpImm f
  | 0x1B => decOpImm32 f
  | 0x33 => decOp f
  | 0x3B => decOp32 f
  | 0x17 => .ok (.auipc f.rd f.immU)
  | 0x37 => .ok (.lui f.rd f.immU)
  | 0x63 => decBranch f
  | 0x67 => match f.f3.toNat with
    | 0 => .ok (.jalr f.rd f.rs1 f.immI)
    | _ => noForm
  | 0x6F => .ok (.jal f.rd f.immJ)
  | 0x73 => decSystem f
  | 0x0B => decCustom0 f
  | 0x2B => decCustom1 f
  | 0x5B => decCustom2 f
  | 0x7B => decCustom3 f
  | _ => noForm

/-- Checks 2 to 5 of R27 on one word. -/
def decode (w : IWord) : Except DecErr Instr :=
  if w = 0 then .error .pool else decodeFields (fieldsOf w)

/-- The decoder's answer for a word numbered as the opcode table numbers it; `none` where it refuses. -/
def decodeTableWord (nbits w : Nat) : Option Instr :=
  match decode (BitVec.ofNat 32 (w % 2 ^ nbits)) with
  | .ok i => some i
  | .error _ => none

/-! ## Encoding -/

/-- Columns of format R. -/
def encR (op : BitVec 7) (f3 : BitVec 3) (f7 : BitVec 7) (rd rs1 rs2 : BitVec 5) : Fields := ⟨f7, rs2, rs1, f3, rd, op⟩

/-- Columns of format I. -/
def encI (op : BitVec 7) (f3 : BitVec 3) (rd rs1 : BitVec 5) (imm : BitVec 12) : Fields :=
  ⟨imm.extractLsb' 5 7, imm.extractLsb' 0 5, rs1, f3, rd, op⟩

/-- Columns of format S. -/
def encS (op : BitVec 7) (f3 : BitVec 3) (rs1 rs2 : BitVec 5) (imm : BitVec 12) : Fields :=
  ⟨imm.extractLsb' 5 7, rs2, rs1, f3, imm.extractLsb' 0 5, op⟩

/-- Columns of format B, from imm[12:1]. -/
def encB (f3 : BitVec 3) (rs1 rs2 : BitVec 5) (off : BitVec 12) : Fields :=
  ⟨off.extractLsb' 11 1 ++ off.extractLsb' 4 6, rs2, rs1, f3, off.extractLsb' 0 4 ++ off.extractLsb' 10 1, 0x63⟩

/-- Columns of format U. -/
def encU (op : BitVec 7) (rd : BitVec 5) (imm : BitVec 20) : Fields :=
  ⟨imm.extractLsb' 13 7, imm.extractLsb' 8 5, imm.extractLsb' 3 5, imm.extractLsb' 0 3, rd, op⟩

/-- Columns of format J, from imm[20:1]. -/
def encJ (rd : BitVec 5) (off : BitVec 20) : Fields :=
  ⟨off.extractLsb' 19 1 ++ off.extractLsb' 4 6, off.extractLsb' 0 4 ++ off.extractLsb' 10 1,
    off.extractLsb' 14 5, off.extractLsb' 11 3, rd, 0x6F⟩

/-- funct7 of an own load or store (R110). -/
def own7 (s : Scope) (w : BitVec 2) (p : Policy) : BitVec 7 := s.code ++ w ++ p.code

/-- funct7 of an atomic (R187). -/
def amo7 (fn : BitVec 4) (q l x : Bool) : BitVec 7 := fn ++ bit1 q ++ bit1 l ++ bit1 x

/-- funct7 of a float form (R259). -/
def float7 (op : BitVec 5) (t : FTy) : BitVec 7 := op ++ t.code

/-- funct7 of an integer, permute or move form (R260, R268). -/
def int7 (op : BitVec 4) (z : Sz) (n : Bool) : BitVec 7 := op ++ z.code ++ bit1 n

/-- funct7 of a conversion or reduction on a type code (R261, R263). -/
def type7 (op : BitVec 3) (t : NTy) : BitVec 7 := op ++ t.code

/-- funct7 of a special function or outer product on a floating type (R261, R263). -/
def spec7 (op : BitVec 3) (t : FTy) : BitVec 7 := op ++ (2#2 ++ t.code)

/-- funct7 of a vector memory form (R267). -/
def vmem7 (op : BitVec 3) (z : Sz) : BitVec 7 := op ++ z.code ++ 0#2

/-- funct7 of a head form (R141). -/
def head7 (form : BitVec 4) (h : BitVec 3) : BitVec 7 := form ++ h

/-- The rs2 column of a circular-buffer form (R121). -/
def cbRs2 (h : BitVec 4) : BitVec 5 := 0#1 ++ h

/-- Columns of a word; the guard word's for a step that has no encoding. -/
def encFields : Instr → Fields
  | .lb rd rs1 imm => encI 0x03 0 rd rs1 imm
  | .lh rd rs1 imm => encI 0x03 1 rd rs1 imm
  | .lw rd rs1 imm => encI 0x03 2 rd rs1 imm
  | .ld rd rs1 imm => encI 0x03 3 rd rs1 imm
  | .lbu rd rs1 imm => encI 0x03 4 rd rs1 imm
  | .lhu rd rs1 imm => encI 0x03 5 rd rs1 imm
  | .lwu rd rs1 imm => encI 0x03 6 rd rs1 imm
  | .sb rs2 rs1 imm => encS 0x23 0 rs1 rs2 imm
  | .sh rs2 rs1 imm => encS 0x23 1 rs1 rs2 imm
  | .sw rs2 rs1 imm => encS 0x23 2 rs1 rs2 imm
  | .sd rs2 rs1 imm => encS 0x23 3 rs1 rs2 imm
  | .addi rd rs1 imm => encI 0x13 0 rd rs1 imm
  | .slti rd rs1 imm => encI 0x13 2 rd rs1 imm
  | .sltiu rd rs1 imm => encI 0x13 3 rd rs1 imm
  | .xori rd rs1 imm => encI 0x13 4 rd rs1 imm
  | .ori rd rs1 imm => encI 0x13 6 rd rs1 imm
  | .andi rd rs1 imm => encI 0x13 7 rd rs1 imm
  | .slli rd rs1 sh => ⟨0#6 ++ sh.extractLsb' 5 1, sh.extractLsb' 0 5, rs1, 1, rd, 0x13⟩
  | .srli rd rs1 sh => ⟨0#6 ++ sh.extractLsb' 5 1, sh.extractLsb' 0 5, rs1, 5, rd, 0x13⟩
  | .srai rd rs1 sh => ⟨16#6 ++ sh.extractLsb' 5 1, sh.extractLsb' 0 5, rs1, 5, rd, 0x13⟩
  | .addiw rd rs1 imm => encI 0x1B 0 rd rs1 imm
  | .slliw rd rs1 sh => encR 0x1B 1 0 rd rs1 sh
  | .srliw rd rs1 sh => encR 0x1B 5 0 rd rs1 sh
  | .sraiw rd rs1 sh => encR 0x1B 5 32 rd rs1 sh
  | .add rd rs1 rs2 => encR 0x33 0 0 rd rs1 rs2
  | .sub rd rs1 rs2 => encR 0x33 0 32 rd rs1 rs2
  | .sll rd rs1 rs2 => encR 0x33 1 0 rd rs1 rs2
  | .slt rd rs1 rs2 => encR 0x33 2 0 rd rs1 rs2
  | .sltu rd rs1 rs2 => encR 0x33 3 0 rd rs1 rs2
  | .xor rd rs1 rs2 => encR 0x33 4 0 rd rs1 rs2
  | .srl rd rs1 rs2 => encR 0x33 5 0 rd rs1 rs2
  | .sra rd rs1 rs2 => encR 0x33 5 32 rd rs1 rs2
  | .or rd rs1 rs2 => encR 0x33 6 0 rd rs1 rs2
  | .and rd rs1 rs2 => encR 0x33 7 0 rd rs1 rs2
  | .mul rd rs1 rs2 => encR 0x33 0 1 rd rs1 rs2
  | .mulh rd rs1 rs2 => encR 0x33 1 1 rd rs1 rs2
  | .mulhsu rd rs1 rs2 => encR 0x33 2 1 rd rs1 rs2
  | .mulhu rd rs1 rs2 => encR 0x33 3 1 rd rs1 rs2
  | .div rd rs1 rs2 => encR 0x33 4 1 rd rs1 rs2
  | .divu rd rs1 rs2 => encR 0x33 5 1 rd rs1 rs2
  | .rem rd rs1 rs2 => encR 0x33 6 1 rd rs1 rs2
  | .remu rd rs1 rs2 => encR 0x33 7 1 rd rs1 rs2
  | .addw rd rs1 rs2 => encR 0x3B 0 0 rd rs1 rs2
  | .subw rd rs1 rs2 => encR 0x3B 0 32 rd rs1 rs2
  | .sllw rd rs1 rs2 => encR 0x3B 1 0 rd rs1 rs2
  | .srlw rd rs1 rs2 => encR 0x3B 5 0 rd rs1 rs2
  | .sraw rd rs1 rs2 => encR 0x3B 5 32 rd rs1 rs2
  | .mulw rd rs1 rs2 => encR 0x3B 0 1 rd rs1 rs2
  | .divw rd rs1 rs2 => encR 0x3B 4 1 rd rs1 rs2
  | .divuw rd rs1 rs2 => encR 0x3B 5 1 rd rs1 rs2
  | .remw rd rs1 rs2 => encR 0x3B 6 1 rd rs1 rs2
  | .remuw rd rs1 rs2 => encR 0x3B 7 1 rd rs1 rs2
  | .lui rd imm => encU 0x37 rd imm
  | .auipc rd imm => encU 0x17 rd imm
  | .jal rd off => encJ rd off
  | .jalr rd rs1 imm => encI 0x67 0 rd rs1 imm
  | .beq rs1 rs2 off => encB 0 rs1 rs2 off
  | .bne rs1 rs2 off => encB 1 rs1 rs2 off
  | .blt rs1 rs2 off => encB 4 rs1 rs2 off
  | .bge rs1 rs2 off => encB 5 rs1 rs2 off
  | .bltu rs1 rs2 off => encB 6 rs1 rs2 off
  | .bgeu rs1 rs2 off => encB 7 rs1 rs2 off
  | .csrrw rd csr rs1 => encI 0x73 1 rd rs1 csr
  | .csrrs rd csr rs1 => encI 0x73 2 rd rs1 csr
  | .csrrc rd csr rs1 => encI 0x73 3 rd rs1 csr
  | .csrrwi rd csr zimm => encI 0x73 5 rd zimm csr
  | .csrrsi rd csr zimm => encI 0x73 6 rd zimm csr
  | .csrrci rd csr zimm => encI 0x73 7 rd zimm csr
  | .bfx rd rs1 rs2 => encR 0x0B 0 0 rd rs1 rs2
  | .bfxs rd rs1 rs2 => encR 0x0B 0 1 rd rs1 rs2
  | .bfi rd rs1 rs2 => encR 0x0B 0 2 rd rs1 rs2
  | .clz rd rs1 => encR 0x0B 0 3 rd rs1 0
  | .ctz rd rs1 => encR 0x0B 0 4 rd rs1 0
  | .cpop rd rs1 => encR 0x0B 0 5 rd rs1 0
  | .rev8 rd rs1 => encR 0x0B 0 6 rd rs1 0
  | .ldo rd rs1 scope wait pol off => encR 0x0B 1 (own7 scope wait pol) rd rs1 (0#1 ++ off)
  | .lwo rd rs1 scope wait pol off => encR 0x0B 1 (own7 scope wait pol) rd rs1 (1#1 ++ off)
  | .sdo rs2 rs1 scope wait pol off => encR 0x0B 2 (own7 scope wait pol) (off ++ 0#1) rs1 rs2
  | .swo rs2 rs1 scope wait pol off => encR 0x0B 2 (own7 scope wait pol) (off ++ 1#1) rs1 rs2
  | .rst rs2 rs1 off => encR 0x0B 3 0 off rs1 rs2
  | .rsa rs2 rs1 off => encR 0x0B 3 1 off rs1 rs2
  | .wcwait mask => encR 0x0B 4 0 0 0 (0#2 ++ mask)
  | .wcread rd c => encR 0x0B 4 1 rd 0 (0#3 ++ c)
  | .cbCfg h rs1 => encR 0x0B 5 0 0 rs1 (cbRs2 h)
  | .cbWfill rd h rs1 => encR 0x0B 5 1 rd rs1 (cbRs2 h)
  | .cbWfree rd h rs1 => encR 0x0B 5 2 rd rs1 (cbRs2 h)
  | .cbAdvp h rs1 => encR 0x0B 5 3 0 rs1 (cbRs2 h)
  | .cbAdvc h rs1 => encR 0x0B 5 4 0 rs1 (cbRs2 h)
  | .pfxImm p => ⟨p.extractLsb' 15 7, p.extractLsb' 10 5, p.extractLsb' 5 5, 7, p.extractLsb' 0 5, 0x7B⟩
  | .pfxOrd wait => encR 0x7B 6 1 (0#3 ++ wait) 0 0
  | .trap code rs1 => encR 0x7B 6 0 0 rs1 code
  | .xret => encR 0x7B 6 2 0 0 0
  | .idle rd rs1 => encR 0x7B 6 3 rd rs1 0
  | .yield => encR 0x7B 6 4 0 0 0
  | .fuse rd rs1 rs2 => encR 0x7B 5 0 rd rs1 rs2
  | .split => encR 0x7B 5 1 0 0 0
  | .hdAcq rd h rs1 => encR 0x5B 0 (head7 0 h) rd rs1 0
  | .hdRel h keep => encR 0x5B 0 (head7 1 h) 0 0 (0#4 ++ bit1 keep)
  | .hdSeek h rs1 rs2 => encR 0x5B 0 (head7 2 h) 0 rs1 rs2
  | .hdRds rd h => encR 0x5B 0 (head7 3 h) rd 0 0
  | .hdWrs h rs1 => encR 0x5B 0 (head7 4 h) 0 rs1 0
  | .hdRew h => encR 0x5B 0 (head7 5 h) 0 0 0
  | .hdPos rd h => encR 0x5B 0 (head7 6 h) rd 0 0
  | .hdChk rd h resync => encR 0x5B 0 (head7 7 h) rd 0 (0#4 ++ bit1 resync)
  | .hdSave h rs1 => encR 0x5B 0 (head7 8 h) 0 rs1 0
  | .hdLoad h rs1 => encR 0x5B 0 (head7 9 h) 0 rs1 0
  | .stBind xs rs1 => encR 0x5B 1 0 xs rs1 0
  | .stRel xs => encR 0x5B 1 1 xs 0 0
  | .stPos rd xs => encR 0x5B 1 2 rd xs 0
  | .cpGo rd rs1 rs2 => encR 0x5B 1 3 rd rs1 rs2
  | .gtGo rd rs1 rs2 => encR 0x5B 1 4 rd rs1 rs2
  | .cpWait rd rs1 => encR 0x5B 1 5 rd rs1 0
  | .cpStop rs1 => encR 0x5B 1 6 0 rs1 0
  | .cpStat rd rs1 => encR 0x5B 1 7 rd rs1 0
  | .fenceS scope pred succ => encR 0x7B 1 0 0 (0#1 ++ pred ++ succ) (0#2 ++ scope.code)
  | .acq full scope => encR 0x7B 1 1 0 0 (0#1 ++ bit1 full ++ scope.code)
  | .rel scope => encR 0x7B 1 2 0 0 (0#2 ++ scope.code)
  | .sigPub add scope rs1 rs2 => encR 0x7B 1 3 (0#1 ++ bit1 add ++ scope.code) rs1 rs2
  | .sigInv scope rd rs1 => encR 0x7B 1 4 rd rs1 (0#2 ++ scope.code)
  | .fenceEng mask => encR 0x7B 1 5 0 0 (0#1 ++ mask)
  | .amoAdd aq rl scx rd rs1 rs2 => encR 0x7B 0 (amo7 0 aq rl scx) rd rs1 rs2
  | .amoSwap aq rl scx rd rs1 rs2 => encR 0x7B 0 (amo7 1 aq rl scx) rd rs1 rs2
  | .amoAnd aq rl scx rd rs1 rs2 => encR 0x7B 0 (amo7 2 aq rl scx) rd rs1 rs2
  | .amoOr aq rl scx rd rs1 rs2 => encR 0x7B 0 (amo7 3 aq rl scx) rd rs1 rs2
  | .amoXor aq rl scx rd rs1 rs2 => encR 0x7B 0 (amo7 4 aq rl scx) rd rs1 rs2
  | .amoMin aq rl scx rd rs1 rs2 => encR 0x7B 0 (amo7 5 aq rl scx) rd rs1 rs2
  | .amoMax aq rl scx rd rs1 rs2 => encR 0x7B 0 (amo7 6 aq rl scx) rd rs1 rs2
  | .amoMinn aq rl scx rd rs1 rs2 => encR 0x7B 0 (amo7 7 aq rl scx) rd rs1 rs2
  | .amoMaxn aq rl scx rd rs1 rs2 => encR 0x7B 0 (amo7 8 aq rl scx) rd rs1 rs2
  | .amoCas aq rl scx rd rs1 rs2 => encR 0x7B 0 (amo7 9 aq rl scx) rd rs1 rs2
  | .lr aq rl scx rd rs1 => encR 0x7B 0 (amo7 10 aq rl scx) rd rs1 0
  | .sc aq rl scx rd rs1 rs2 => encR 0x7B 0 (amo7 11 aq rl scx) rd rs1 rs2
  | .barCfg rs1 rs2 => encR 0x7B 2 0 0 rs1 rs2
  | .barArr rd rs1 => encR 0x7B 2 1 rd rs1 0
  | .barWait rd rs1 rs2 => encR 0x7B 2 2 rd rs1 rs2
  | .barWaitN rd rs1 rs2 => encR 0x7B 2 66 rd rs1 rs2
  | .domSync rd k => encR 0x7B 2 3 rd 0 (0#1 ++ k)
  | .semPost rs1 rs2 => encR 0x7B 2 4 0 rs1 rs2
  | .semWait rd rs1 rs2 => encR 0x7B 2 5 rd rs1 rs2
  | .semWaitN rd rs1 rs2 => encR 0x7B 2 69 rd rs1 rs2
  | .mbxBind rd rs1 => encR 0x7B 3 0 rd rs1 0
  | .mbxRel rd rs1 => encR 0x7B 3 1 rd rs1 0
  | .mbxPeek rd => encR 0x7B 3 2 rd 0 0
  | .mbxTake rd rs1 => encR 0x7B 3 3 rd rs1 0
  | .mbxDone rs1 => encR 0x7B 3 4 0 rs1 0
  | .msgSend last rs1 rs2 => encR 0x7B 3 5 (0#4 ++ bit1 last) rs1 rs2
  | .msgAbort => encR 0x7B 3 6 0 0 0
  | .dealPost rd rs1 => encR 0x7B 4 0 rd rs1 0
  | .dealStat rd rs1 => encR 0x7B 4 1 rd rs1 0
  | .handExit => encR 0x7B 4 2 0 0 0
  | .rngPush rd rs1 rs2 => encR 0x7B 4 3 rd rs1 rs2
  | .rngPop rd rs1 rs2 => encR 0x7B 4 4 rd rs1 rs2
  | .rngSkip rd rs1 => encR 0x7B 4 5 rd rs1 0
  | .vclaim rd rs1 => encR 0x2B 0 0 rd rs1 0
  | .vrel => encR 0x2B 0 1 0 0 0
  | .vlen rd rs1 => encR 0x2B 0 2 rd rs1 0
  | .vfence r sp rs1 rs2 => encR 0x2B 0 3 (0#3 ++ bit1 sp ++ bit1 r) rs1 rs2
  | .vfadd t vd vs1 vs2 => encR 0x2B 1 (float7 0 t) vd vs1 vs2
  | .vfsub t vd vs1 vs2 => encR 0x2B 1 (float7 1 t) vd vs1 vs2
  | .vfmul t vd vs1 vs2 => encR 0x2B 1 (float7 2 t) vd vs1 vs2
  | .vfma t vd vs1 vs2 => encR 0x2B 1 (float7 3 t) vd vs1 vs2
  | .vfms t vd vs1 vs2 => encR 0x2B 1 (float7 4 t) vd vs1 vs2
  | .vfnms t vd vs1 vs2 => encR 0x2B 1 (float7 5 t) vd vs1 vs2
  | .vfmin t vd vs1 vs2 => encR 0x2B 1 (float7 6 t) vd vs1 vs2
  | .vfmax t vd vs1 vs2 => encR 0x2B 1 (float7 7 t) vd vs1 vs2
  | .vfeq t vd vs1 vs2 => encR 0x2B 1 (float7 8 t) vd vs1 vs2
  | .vflt t vd vs1 vs2 => encR 0x2B 1 (float7 9 t) vd vs1 vs2
  | .vfle t vd vs1 vs2 => encR 0x2B 1 (float7 10 t) vd vs1 vs2
  | .vfsel t vd vs1 vs2 => encR 0x2B 1 (float7 11 t) vd vs1 vs2
  | .vadd z n vd vs1 vs2 => encR 0x2B 2 (int7 0 z n) vd vs1 vs2
  | .vsub z n vd vs1 vs2 => encR 0x2B 2 (int7 1 z n) vd vs1 vs2
  | .vmul z n vd vs1 vs2 => encR 0x2B 2 (int7 2 z n) vd vs1 vs2
  | .vadds z n vd vs1 vs2 => encR 0x2B 2 (int7 3 z n) vd vs1 vs2
  | .vsubs z n vd vs1 vs2 => encR 0x2B 2 (int7 4 z n) vd vs1 vs2
  | .vmin z n vd vs1 vs2 => encR 0x2B 2 (int7 5 z n) vd vs1 vs2
  | .vmax z n vd vs1 vs2 => encR 0x2B 2 (int7 6 z n) vd vs1 vs2
  | .vand z n vd vs1 vs2 => encR 0x2B 2 (int7 7 z n) vd vs1 vs2
  | .vor z n vd vs1 vs2 => encR 0x2B 2 (int7 8 z n) vd vs1 vs2
  | .vxor z n vd vs1 vs2 => encR 0x2B 2 (int7 9 z n) vd vs1 vs2
  | .vsll z n vd vs1 vs2 => encR 0x2B 2 (int7 10 z n) vd vs1 vs2
  | .vsr z n vd vs1 vs2 => encR 0x2B 2 (int7 11 z n) vd vs1 vs2
  | .veq z n vd vs1 vs2 => encR 0x2B 2 (int7 12 z n) vd vs1 vs2
  | .vlt z n vd vs1 vs2 => encR 0x2B 2 (int7 13 z n) vd vs1 vs2
  | .vcvt dst rtz src vd vs1 => encR 0x2B 3 (type7 0 dst) vd vs1 (bit1 rtz ++ src.code)
  | .vscale t vd vs1 rs2 => encR 0x2B 3 (spec7 1 t) vd vs1 rs2
  | .vscalea t vd vs1 rs2 => encR 0x2B 3 (spec7 2 t) vd vs1 rs2
  | .vexp2 t vd vs1 => encR 0x2B 3 (spec7 3 t) vd vs1 0
  | .vlog2 t vd vs1 => encR 0x2B 3 (spec7 4 t) vd vs1 0
  | .vrcp t vd vs1 => encR 0x2B 3 (spec7 5 t) vd vs1 0
  | .vrsqrt t vd vs1 => encR 0x2B 3 (spec7 6 t) vd vs1 0
  | .vredsum t vd vs1 => encR 0x2B 4 (type7 0 t) vd vs1 0
  | .vredmax t vd vs1 => encR 0x2B 4 (type7 1 t) vd vs1 0
  | .vredmin t vd vs1 => encR 0x2B 4 (type7 2 t) vd vs1 0
  | .vdot t vd vs1 vs2 => encR 0x2B 4 (type7 3 t) vd vs1 vs2
  | .vopa t vd vs1 vs2 => encR 0x2B 4 (spec7 4 t) vd vs1 vs2
  | .vld z vd rs1 => encR 0x2B 5 (vmem7 0 z) vd rs1 0
  | .vlds z vd rs1 rs2 => encR 0x2B 5 (vmem7 1 z) vd rs1 rs2
  | .vldx z vd rs1 vs2 => encR 0x2B 5 (vmem7 2 z) vd rs1 vs2
  | .vst z vs3 rs1 => encR 0x2B 5 (vmem7 3 z) vs3 rs1 0
  | .vsts z vs3 rs1 rs2 => encR 0x2B 5 (vmem7 4 z) vs3 rs1 rs2
  | .vbcast z n vd rs1 => encR 0x2B 6 (int7 0 z n) vd rs1 0
  | .vperm z n vd vs1 vs2 => encR 0x2B 6 (int7 1 z n) vd vs1 vs2
  | .vmv z n vd vs1 => encR 0x2B 6 (int7 2 z n) vd vs1 0
  | .vmvx z n rd vs1 rs2 => encR 0x2B 6 (int7 3 z n) rd vs1 rs2
  | .vins z n vd rs1 rs2 => encR 0x2B 6 (int7 4 z n) vd rs1 rs2
  | .vmpop z n rd vs1 => encR 0x2B 6 (int7 5 z n) rd vs1 0
  | .vmfirst z n rd vs1 => encR 0x2B 6 (int7 6 z n) rd vs1 0
  | .mxCfg rs1 => encR 0x5B 2 0 0 rs1 0
  | .mxLda rs1 rs2 => encR 0x5B 2 1 0 rs1 rs2
  | .mxLdb rs1 => encR 0x5B 2 2 0 rs1 0
  | .mxGo rs1 => encR 0x5B 2 3 0 rs1 0
  | .mxPop vd rd => encR 0x5B 2 4 rd 0 vd
  | .mxDrop => encR 0x5B 2 5 0 0 0
  | .mxAbort => encR 0x5B 2 6 0 0 0
  | .wdEnter rd rs1 rs2 => encR 0x5B 3 0 rd rs1 rs2
  | .wdExit => encR 0x5B 3 1 0 0 0
  | .wdResume rd rs1 => encR 0x5B 3 2 rd rs1 0
  | .wdWait rd => encR 0x5B 3 3 rd 0 0
  | .txReq rd rs1 => encR 0x5B 4 0 rd rs1 0
  | .txRes rd => encR 0x5B 4 1 rd 0 0
  | .txStat rd => encR 0x5B 4 2 rd 0 0
  | .registerWrite _ _ _ => ⟨0, 0, 0, 0, 0, 0⟩
  | .idleTimeout _ => ⟨0, 0, 0, 0, 0, 0⟩
  | .fuseResolve _ => ⟨0, 0, 0, 0, 0, 0⟩
  | .gangUnitArrival _ => ⟨0, 0, 0, 0, 0, 0⟩
  | .headGrant _ _ => ⟨0, 0, 0, 0, 0, 0⟩
  | .trackShiftEnd _ _ _ => ⟨0, 0, 0, 0, 0, 0⟩
  | .shiftSlotGrant _ _ => ⟨0, 0, 0, 0, 0, 0⟩
  | .realignReread _ _ => ⟨0, 0, 0, 0, 0, 0⟩
  | .trackFormat _ _ _ => ⟨0, 0, 0, 0, 0, 0⟩
  | .streamElementArrival _ _ => ⟨0, 0, 0, 0, 0, 0⟩
  | .streamPushSend _ _ => ⟨0, 0, 0, 0, 0, 0⟩
  | .copyPacketLanded _ _ => ⟨0, 0, 0, 0, 0, 0⟩
  | .cmBlockFill _ _ => ⟨0, 0, 0, 0, 0, 0⟩
  | .reservationTimeout _ => ⟨0, 0, 0, 0, 0, 0⟩
  | .barrierRelease _ _ => ⟨0, 0, 0, 0, 0, 0⟩
  | .domainFlip _ _ _ => ⟨0, 0, 0, 0, 0, 0⟩
  | .semRequestArrival _ _ => ⟨0, 0, 0, 0, 0, 0⟩
  | .registeredWaitRelease _ => ⟨0, 0, 0, 0, 0, 0⟩
  | .mailboxArrival _ _ => ⟨0, 0, 0, 0, 0, 0⟩
  | .dealPlacement _ => ⟨0, 0, 0, 0, 0, 0⟩
  | .handLaunch _ => ⟨0, 0, 0, 0, 0, 0⟩
  | .handRetire _ _ => ⟨0, 0, 0, 0, 0, 0⟩
  | .vectorCommandComplete _ => ⟨0, 0, 0, 0, 0, 0⟩
  | .laneGroupMove _ => ⟨0, 0, 0, 0, 0, 0⟩
  | .mxJoin _ => ⟨0, 0, 0, 0, 0, 0⟩
  | .mxOpStart _ => ⟨0, 0, 0, 0, 0, 0⟩
  | .mxRowQueued _ => ⟨0, 0, 0, 0, 0, 0⟩
  | .wdJoin _ => ⟨0, 0, 0, 0, 0, 0⟩
  | .parisonHeader _ => ⟨0, 0, 0, 0, 0, 0⟩
  | .parNop _ => ⟨0, 0, 0, 0, 0, 0⟩
  | .parLoadb _ => ⟨0, 0, 0, 0, 0, 0⟩
  | .parRun _ => ⟨0, 0, 0, 0, 0, 0⟩
  | .parEmit _ => ⟨0, 0, 0, 0, 0, 0⟩
  | .parBranch _ => ⟨0, 0, 0, 0, 0, 0⟩
  | .parCall _ => ⟨0, 0, 0, 0, 0, 0⟩
  | .parReturn _ => ⟨0, 0, 0, 0, 0, 0⟩
  | .parSignal _ => ⟨0, 0, 0, 0, 0, 0⟩
  | .parWaitsig _ => ⟨0, 0, 0, 0, 0, 0⟩
  | .parEnd _ => ⟨0, 0, 0, 0, 0, 0⟩
  | .fp32ToSx _ => ⟨0, 0, 0, 0, 0, 0⟩
  | .sxToFp32 _ => ⟨0, 0, 0, 0, 0, 0⟩
  | .topK _ => ⟨0, 0, 0, 0, 0, 0⟩
  | .blockCompression _ => ⟨0, 0, 0, 0, 0, 0⟩
  | .blockExpansion _ => ⟨0, 0, 0, 0, 0, 0⟩
  | .exponentHistogram _ => ⟨0, 0, 0, 0, 0, 0⟩
  | .txComplete _ => ⟨0, 0, 0, 0, 0, 0⟩
  | .resume _ => ⟨0, 0, 0, 0, 0, 0⟩
  | .kill _ => ⟨0, 0, 0, 0, 0, 0⟩
  | .stop _ => ⟨0, 0, 0, 0, 0, 0⟩
  | .wake _ => ⟨0, 0, 0, 0, 0, 0⟩
  | .adopt _ _ => ⟨0, 0, 0, 0, 0, 0⟩
  | .start _ => ⟨0, 0, 0, 0, 0, 0⟩
  | .stopTakesEffect _ => ⟨0, 0, 0, 0, 0, 0⟩
  | .contextSaveDone _ => ⟨0, 0, 0, 0, 0, 0⟩
  | .contextRestoreDone _ => ⟨0, 0, 0, 0, 0, 0⟩
  | .coreWake _ => ⟨0, 0, 0, 0, 0, 0⟩
  | .icacheFill _ _ => ⟨0, 0, 0, 0, 0, 0⟩
  | .l1Fill _ _ => ⟨0, 0, 0, 0, 0, 0⟩
  | .remoteStoreAck _ _ => ⟨0, 0, 0, 0, 0, 0⟩
  | .plbFill _ _ => ⟨0, 0, 0, 0, 0, 0⟩
  | .pageWalk _ _ _ => ⟨0, 0, 0, 0, 0, 0⟩
  | .xlatReqPage _ _ _ => ⟨0, 0, 0, 0, 0, 0⟩
  | .xlatReqRights _ _ _ _ => ⟨0, 0, 0, 0, 0, 0⟩
  | .xlatReqFlush _ => ⟨0, 0, 0, 0, 0, 0⟩
  | .shootdownComplete _ => ⟨0, 0, 0, 0, 0, 0⟩
  | .tickRefill => ⟨0, 0, 0, 0, 0, 0⟩
  | .agedRequest _ _ => ⟨0, 0, 0, 0, 0, 0⟩
  | .frameScrubDone _ => ⟨0, 0, 0, 0, 0, 0⟩
  | .lateWriteback _ => ⟨0, 0, 0, 0, 0, 0⟩
  | .uncorrectableError _ _ => ⟨0, 0, 0, 0, 0, 0⟩
  | .syncStopStart _ => ⟨0, 0, 0, 0, 0, 0⟩
  | .quietAgreed _ => ⟨0, 0, 0, 0, 0, 0⟩
  | .flushTokenArrival _ _ _ _ => ⟨0, 0, 0, 0, 0, 0⟩
  | .syncStopComplete _ => ⟨0, 0, 0, 0, 0, 0⟩
  | .syncResume _ => ⟨0, 0, 0, 0, 0, 0⟩
  | .linkCrcFailure _ => ⟨0, 0, 0, 0, 0, 0⟩
  | .linkRetrain _ => ⟨0, 0, 0, 0, 0, 0⟩
  | .peerFlitCoding _ _ _ => ⟨0, 0, 0, 0, 0, 0⟩
  | .hostBar2Write _ _ _ => ⟨0, 0, 0, 0, 0, 0⟩
  | .hostBar2Read _ _ _ => ⟨0, 0, 0, 0, 0, 0⟩
  | .configRequest _ => ⟨0, 0, 0, 0, 0, 0⟩
  | .rampTimerExpiry _ => ⟨0, 0, 0, 0, 0, 0⟩
  | .demandAppears _ => ⟨0, 0, 0, 0, 0, 0⟩
  | .powerDecision _ => ⟨0, 0, 0, 0, 0, 0⟩
  | .partcfg _ _ => ⟨0, 0, 0, 0, 0, 0⟩
  | .seatcfg _ _ _ _ => ⟨0, 0, 0, 0, 0, 0⟩
  | .ptwrite _ _ _ => ⟨0, 0, 0, 0, 0, 0⟩
  | .sstop _ _ _ => ⟨0, 0, 0, 0, 0, 0⟩
  | .postsys _ _ _ => ⟨0, 0, 0, 0, 0, 0⟩
  | .plim _ _ => ⟨0, 0, 0, 0, 0, 0⟩
  | .bktread _ _ _ _ => ⟨0, 0, 0, 0, 0, 0⟩
  | .trkimg _ _ _ _ _ _ => ⟨0, 0, 0, 0, 0, 0⟩
  | .fwstage _ _ _ _ => ⟨0, 0, 0, 0, 0, 0⟩
  | .fwact _ => ⟨0, 0, 0, 0, 0, 0⟩
  | .sresume _ _ _ => ⟨0, 0, 0, 0, 0, 0⟩
  | .framesAllot _ _ _ _ => ⟨0, 0, 0, 0, 0, 0⟩
  | .framesRelease _ _ _ _ => ⟨0, 0, 0, 0, 0, 0⟩
  | .framesRetire _ _ _ _ => ⟨0, 0, 0, 0, 0, 0⟩
  | .ackseqWrite _ _ _ => ⟨0, 0, 0, 0, 0, 0⟩
  | .fwQuiesceAck => ⟨0, 0, 0, 0, 0, 0⟩
  | .quiesceTimeout => ⟨0, 0, 0, 0, 0, 0⟩
  | .heartbeat _ _ => ⟨0, 0, 0, 0, 0, 0⟩
  | .qack _ => ⟨0, 0, 0, 0, 0, 0⟩
  | .heartbeatMissed => ⟨0, 0, 0, 0, 0, 0⟩
  | .powerOn => ⟨0, 0, 0, 0, 0, 0⟩
  | .memoryTrainingDone _ _ => ⟨0, 0, 0, 0, 0, 0⟩
  | .dealerCoreReset _ => ⟨0, 0, 0, 0, 0, 0⟩
  | .dieReset _ => ⟨0, 0, 0, 0, 0, 0⟩
  | .functionReset _ => ⟨0, 0, 0, 0, 0, 0⟩
  | .getVersion _ => ⟨0, 0, 0, 0, 0, 0⟩
  | .getCapabilities _ => ⟨0, 0, 0, 0, 0, 0⟩
  | .negotiateAlgorithms _ _ _ => ⟨0, 0, 0, 0, 0, 0⟩
  | .getDigests _ => ⟨0, 0, 0, 0, 0, 0⟩
  | .getCertificate _ _ => ⟨0, 0, 0, 0, 0, 0⟩
  | .challenge _ _ _ => ⟨0, 0, 0, 0, 0, 0⟩
  | .getMeasurements _ _ => ⟨0, 0, 0, 0, 0, 0⟩
  | .illegalInstruction _ _ => ⟨0, 0, 0, 0, 0, 0⟩
  | .fetchFault _ _ _ => ⟨0, 0, 0, 0, 0, 0⟩
  | .frameBoundary _ => ⟨0, 0, 0, 0, 0, 0⟩
  | .controlPageWrite _ _ _ => ⟨0, 0, 0, 0, 0, 0⟩

/-- The word of an instruction (R18). -/
def encode (i : Instr) : IWord := wordOf (encFields i)

/-- The steps of the table that have no instruction word. -/
def Instr.isEvent (i : Instr) : Bool := encFields i == ⟨0, 0, 0, 0, 0, 0⟩

end Sys2Proof
end

