-- ==== Sys2Proof/Machine/NMap.lean ====
section
/-! DEFINITION. Finite tables keyed by number: a list of keys and values with keys strictly rising, and a default for a
key it does not list. Register files, thread tables and the other numbered parts of the machine are held so. -/

namespace Sys2Proof.Machine

/-- A table from numbers to `V`. -/
structure NMap (V : Type) where
  cells : List (Nat × V) := []
deriving DecidableEq, Repr

/-- The value listed first under key `i`, else `d`. -/
def lookupCells {V : Type} (d : V) (i : Nat) : List (Nat × V) → V
  | [] => d
  | (k, v) :: r => if k = i then v else lookupCells d i r

/-- Enters `v` under key `i`, keeping the keys rising. -/
def insertCells {V : Type} (i : Nat) (v : V) : List (Nat × V) → List (Nat × V)
  | [] => [(i, v)]
  | (k, w) :: r =>
    if k = i then (i, v) :: r
    else if i < k then (i, v) :: (k, w) :: r
    else (k, w) :: insertCells i v r

/-- The value under key `i`. -/
def NMap.get {V : Type} (m : NMap V) (d : V) (i : Nat) : V := lookupCells d i m.cells

/-- Sets the value under key `i`. -/
def NMap.set {V : Type} (m : NMap V) (i : Nat) (v : V) : NMap V := ⟨insertCells i v m.cells⟩

/-- Removes key `i`. -/
def NMap.erase {V : Type} (m : NMap V) (i : Nat) : NMap V := ⟨m.cells.filter fun c => c.1 != i⟩

/-- The values listed, with their keys. -/
def NMap.toList {V : Type} (m : NMap V) : List (Nat × V) := m.cells

/-- The keys whose value meets `p`. -/
def NMap.keysWhere {V : Type} (m : NMap V) (p : V → Bool) : List Nat :=
  (m.cells.filter fun c => p c.2).map fun c => c.1

/-- Applies `f` to every listed value. -/
def NMap.mapVals {V : Type} (m : NMap V) (f : Nat → V → V) : NMap V := ⟨m.cells.map fun c => (c.1, f c.1 c.2)⟩

/-- True when some listed value meets `p`. -/
def NMap.anyVal {V : Type} (m : NMap V) (p : Nat → V → Bool) : Bool := m.cells.any fun c => p c.1 c.2

end Sys2Proof.Machine
end

