-- ==== Sys2Proof/Machine/Parts.lean ====
section
/-! DEFINITION. The pieces of state held by threads, cores, octets and clusters, as plain data. Every field names what
the spec gives the machine; a field that is the model's own says so. -/

namespace Sys2Proof.Machine

/-! ## Commands -/

/-- A command written to RUNCTL (Table 3.6) or XLAT_REQ (Table 18.6) whose store has performed and which is carried out
next. START names the core that wrote it, none for the management function (R78). -/
inductive Command where
  | resume (t : Nat)
  | kill (t : Nat)
  | stop (t : Nat)
  | wake (t : Nat)
  | adopt (target source : Nat)
  | start (t : Nat) (by_ : Option Nat)
  | xlatPage (core : Nat) (vpage : BitVec 40) (size : BitVec 2)
  | xlatRights (core : Nat) (dom : BitVec 16) (all : Bool) (seat : BitVec 4)
  | xlatFlush (core : Nat)
deriving DecidableEq, Repr

/-! ## Threads -/

/-- Thread states of Table 3.1, in the code order of RUNCTL.STATE (Table 3.6). -/
inductive TState where
  | empty | running | idle | parked | stopping | stopped | resuming
deriving DecidableEq, Repr

/-- A unit forwarded to a gang's follower (R91, R92): the leader's PC, its words, the leader's next PC, whether that is a
misaligned target at which the leader trapped, and the reason that an idle of the leader returned. -/
structure GUnit where
  pc : Word := 0
  next : Word := 0
  misaligned : Bool := false
  words : List IWord := []
  val : Word := 0
deriving DecidableEq, Repr

/-- A circular-buffer handle (Tables 5.10, 5.11). -/
structure CbHandle where
  base : Word := 0
  ctrl : Word := 0
  geom : Word := 0
  valid : Bool := false
  grantC : BitVec 13 := 0
  grantP : BitVec 13 := 0
deriving DecidableEq, Repr

/-- Head states (Table 6.3), in the code order of HS (Table 6.6). -/
inductive HState where
  | unbound | owned | sharedWait | saved | reacq | realign | error
deriving DecidableEq, Repr

/-- The access a head has in progress (R133, R145): whether it writes, realigns made so far, the subcause of a fatal result found, and the
correction that a resync's sweep has found. -/
structure HAccess where
  write : Bool := false
  realigns : Nat := 0
  fatal : Option (BitVec 8) := none
  resync : Bool := false
  result : Option Word := none
deriving DecidableEq, Repr

/-- A head handle (Tables 6.6, 6.7). `errSaved` marks a REACQ head whose record was marked ERROR (R131). -/
structure Head where
  hs : HState := .unbound
  sh : Bool := false
  grp : BitVec 8 := 0
  track : BitVec 11 := 0
  pos : BitVec 12 := 0
  dir : Bool := false
  step : BitVec 4 := 1
  mark : BitVec 12 := 0
  pend : Bool := false
  slips : BitVec 8 := 0
  lastTag : BitVec 4 := 0
  tflag : Bool := false
  errSaved : Bool := false
  acc : Option HAccess := none
deriving DecidableEq, Repr

/-- An element of a read binding that has arrived (R151): a value, or a recorded element fault with its subcause. -/
inductive Elem where
  | value (v : Word)
  | faulted (sub : BitVec 8) (va : Word)
deriving DecidableEq, Repr

/-- A stream binding slot (Tables 7.4, 7.5). `arrived` holds the elements ahead of the pops. -/
structure Binding where
  base : Word := 0
  strides : Word := 0
  counts : Word := 0
  fmt : Word := 0
  reg : BitVec 5 := 0
  next : Nat := 0
  exh : Bool := false
  last : Word := 0
  arrived : List Elem := []
deriving DecidableEq, Repr

/-- The reservation of lr (R189): the home address of the doubleword and the cycle of the lr. -/
structure Resv where
  addr : Nat
  cycle : Nat
deriving DecidableEq, Repr

/-- A registered wait (R195, Table 9.16). `done` is set when its release has come, with the
signature that its acquire takes. -/
structure RegWait where
  sem : Bool := false
  obj : BitVec 16 := 0
  arg : BitVec 16 := 0
  done : Bool := false
  sig : BitVec 512 := 0
deriving DecidableEq, Repr

/-- An arrival at dom.sync that has not completed (R198, Table 9.16: DA, DP, DK). -/
structure DomArr where
  phase : Bool := false
  level : BitVec 4 := 0
deriving DecidableEq, Repr

/-- The message buffer while a packet is open (R205): the destination and its home address, the doublewords appended, and the words issued
since the first send. -/
structure Msg where
  dest : Word := 0
  home : Nat := 0
  words : List Word := []
  issued : Nat := 0
deriving DecidableEq, Repr

/-- The transform request record of a thread (R314, R316): the state of tx.stat, the result, or the subcause and address of
a fault, and the bytes that the request wrote. -/
structure TxRec where
  state : BitVec 3 := 0
  result : Word := 0
  fault : BitVec 8 := 0
  addr : Word := 0
  dst : Nat := 0
  bytes : Nat := 0
deriving DecidableEq, Repr

/-- A word in a run-ahead buffer, with the protection domain and the size of its page (R83, R86). -/
structure Ahead where
  word : IWord := 0
  dom : BitVec 16 := 0
  page : Nat := 0x10000
deriving DecidableEq, Repr

/-- What a safe point records of the claim it ends (R271): groups, MIN, MAX, VL, the live mask and the spill address. -/
structure Spill where
  g : Nat := 0
  minG : Nat := 0
  maxG : Nat := 0
  vl : Nat := 0
  mask : BitVec 32 := 0
  addr : Word := 0
deriving DecidableEq, Repr

/-- A hardware thread. `wakeR` is the reason of the wake event that ended its idle, until the idle writes it, and `wakeAt` the cycle of that event (R76);
`paid`, `issued`, `sent`, `firm`, `waiting` and `seen` record how far the unit at its PC has come: prefix words issued, the target
issued, forwarded to followers, in a wait that no stop abandons (R63), looked at in this cycle and found to wait, and the write counters seen at
zero (R118), and `lateSeen` the elements of copy channels and bindings that the unit has asked for too early (R164). `ready` is the cycle from
which the result of its last unit lets it go on (R43, R65), and `defer` the last cycle in which a yield lets the core's other
threads go first (R76). `ahead` holds the words that run-ahead has fetched from `aheadAt` on (R86). `engSigs` holds the signatures that the engines keep for the
thread: 0 lane pool, 1 row array, 2 transform coprocessor, 3 copy unit (R184). `cpWait` is the engine on which a cp.wait waits, and `cpAns` its
count
and destination range once that engine has been freed (R158). `safeStop` notes a safe point reached with a stop
pending (R271), `spill` what that point recorded of its claim, and `exits` a hand.exit that completes.
`adopt` is the source of an ADOPT that waits for its stores (R74). `barWait` is the barrier and phase of a bar.wait, and `objAns` the
phase or value with the signature that answers a wait (R196, R200). `fuseWait` holds the descriptor and limit of a fuse that waits, and `fuseAns` its
result once it has resolved (R90). `txSlot` marks a tx.req that has found a slot and releases before it takes it (R314). -/
structure Thread where
  regs : NMap Word := {}
  pc : Word := 0
  st : TState := .empty
  pmark : Bool := false
  saved : Bool := false
  ares : BitVec 2 := 0
  wake : Bool := false
  stopPend : Bool := false
  killPend : Bool := false
  resumePend : Bool := false
  saving : Bool := false
  restoring : Bool := false
  postDue : Bool := false
  paid : Nat := 0
  issued : Bool := false
  sent : Bool := false
  firm : Bool := false
  waiting : Bool := false
  lateSeen : List (Nat × Nat) := []
  ready : Nat := 0
  defer : Nat := 0
  aheadAt : Word := 0
  ahead : List Ahead := []
  seen : BitVec 3 := 0
  deadline : Option Nat := none
  wakeR : Option (BitVec 3) := none
  wakeAt : Nat := 0
  seat : Option Nat := none
  sys : Bool := false
  inTrap : Bool := false
  kn5 : Bool := false
  gang : Bool := false
  leader : Bool := false
  nested : Bool := false
  causeSub : BitVec 8 := 0
  cause : BitVec 8 := 0
  xval : Word := 0
  xpc : Word := 0
  xtvec : Word := 0
  xdeleg : BitVec 9 := 0
  xscratch : Word := 0
  xinst : IWord := 0
  instret : Word := 0
  issStall : Word := 0
  fused : Bool := false
  gfirst : BitVec 3 := 0
  gsize : BitVec 4 := 0
  gindex : BitVec 3 := 0
  gend : BitVec 2 := 0
  fuseWait : Option (BitVec 7 × Nat) := none
  fuseAns : Option Word := none
  cpWait : Option Nat := none
  cpAns : Option (Word × Nat × Nat) := none
  flight : List GUnit := []
  fq : List GUnit := []
  l1pol : BitVec 8 := 0x60
  cbs : NMap CbHandle := {}
  heads : NMap Head := {}
  binds : NMap Binding := {}
  resv : Option Resv := none
  relMark : Option Scope := none
  engSigs : NMap (BitVec 512) := {}
  regWait : Option RegWait := none
  barWait : Option (BitVec 16 × BitVec 16) := none
  objAns : Option (BitVec 16 × BitVec 512) := none
  domArr : Option DomArr := none
  domKills : NMap Nat := {}
  msg : Option Msg := none
  plevel : BitVec 4 := 0
  memb : BitVec 9 := 0
  domPol : BitVec 20 := 0
  dealSeq : BitVec 32 := 0
  nthr : BitVec 9 := 0
  hand : BitVec 3 := 0
  rank : BitVec 8 := 0
  phase : BitVec 9 := 0
  tricks : BitVec 32 := 0
  deal : Option Nat := none
  retried : List (Nat × BitVec 8) := []
  rm : BitVec 2 := 0
  flags : BitVec 6 := 0
  vdisp : Word := 0
  safeStop : Bool := false
  spill : Option Spill := none
  exits : Bool := false
  adopt : Option Nat := none
  tx : TxRec := {}
  txSlot : Bool := false
deriving DecidableEq, Repr

/-! ## Cores -/

/-- A block of the first-level cache or of victim space (R98, R99, R170): its virtual address, the home address of its
bytes, its words, dirty bit per byte (bit i for byte i), the threads whose stores dirtied it, the seat of its last store,
its protection domain, the predictor entry it records, the words accessed, poison (R353), and whether its frame is borrowed
through a read-only window (R352). -/
structure Block where
  va : Nat := 0
  home : Nat := 0
  words : Nat := 1
  data : List Byte := []
  dirty : Nat := 0
  mask : BitVec 4 := 0
  seat : Nat := 0
  dom : BitVec 16 := 0
  pred : Option Nat := none
  accessed : Nat := 0
  poisoned : Bool := false
  borrowed : Bool := false
deriving DecidableEq, Repr

/-- A block in victim space with the banks whose word it takes (R101, R223). -/
structure Victim where
  banks : List Nat := []
  blk : Block := {}
deriving DecidableEq, Repr

/-- A set of the first-level cache: its blocks from least to most recently used, and the blocks of its victim space in
order of arrival (R98, R101, R223). -/
structure L1Set where
  blocks : List Block := []
  victims : List Victim := []
deriving DecidableEq, Repr

/-- A line of an instruction cache (R83): way, virtual address, domain, the size of its page and the sixteen words as fetched, or the cause and
subcause of a fill that failed (R84). -/
structure ILine where
  way : Nat := 0
  va : Nat := 0
  dom : BitVec 16 := 0
  page : Nat := 0x10000
  words : List IWord := []
  failed : Option (BitVec 8 × BitVec 8) := none
deriving DecidableEq, Repr

/-- A group of scratchpad banks with its owner, and whether the bank maps hold its entry (R102 to R104): it is entered once the group has
been drained and zeroed, and withdrawn when its hand retires. -/
structure Group where
  base : Nat := 0
  size : Nat := 0
  seat : Nat := 0
  deal : Nat := 0
  hand : Nat := 0
  mapped : Bool := true
deriving DecidableEq, Repr

/-- What a remote store does at its home. A message packet names the home of each of its doublewords, checked when it closed, or none where it closed for
a mailbox (R203, R205). -/
inductive RKind where
  | store (n : Nat) (v : Nat)
  | add (v : Word)
  | pub (additive : Bool) (v : Word) (sig : BitVec 512)
  | packet (words : List Word) (homes : List Nat)
deriving DecidableEq, Repr

/-- A remote store in flight (R116): the issuing thread, its seat, deal and hand, the counter class, the destination that orders it
(R115), the home address, and whether it has performed. `sent` tells that it has left the core, `inj` its place among the packets that have
(R363), and `saved` that a save buffer of its router holds it (R355). An element of a write binding names its slot and its copy-engine tokens (R152, R162). -/
structure RStore where
  tid : Nat := 0
  seat : Nat := 0
  deal : Option Nat := none
  hand : Nat := 0
  cls : BitVec 2 := 0
  dest : Nat := 0
  addr : Nat := 0
  kind : RKind := .store 8 0
  performed : Bool := false
  slot : Option Nat := none
  sent : Bool := false
  inj : Nat := 0
  saved : Bool := false
  cost : Nat := 0
deriving DecidableEq, Repr

/-- A named barrier (R196). -/
structure Barrier where
  configured : Bool := false
  seat : Nat := 0
  deal : Nat := 0
  hand : Nat := 0
  count : BitVec 16 := 0
  arr : BitVec 16 := 0
  phase : BitVec 16 := 0
  sig : BitVec 512 := 0
deriving DecidableEq, Repr

/-- An entry of a protection lookaside buffer (R327). -/
structure PlbEntry where
  seat : Nat := 0
  dom : BitVec 16 := 0
  nib : BitVec 4 := 0
deriving DecidableEq, Repr

/-- A command of a vector queue (R253): the instruction with what it read at its push. `data` holds the half-row of mx.pop
(R288), or the bytes that a load in execution has read; `homes` holds the home addresses of the elements that have passed their checks
(R255), and `prog` counts the elements a store has stored. -/
structure VCmd where
  instr : Instr
  tid : Nat := 0
  pc : Word := 0
  x1 : Word := 0
  x2 : Word := 0
  vl : Nat := 0
  rm : BitVec 2 := 0
  data : List Byte := []
  homes : List Nat := []
  prog : Nat := 0
deriving DecidableEq, Repr

/-- A change of a claim's grant that has been decided (R250): the groups, and how many commands of the queue come before it. -/
structure LaneMove where
  groups : List Nat
  ahead : Nat
deriving DecidableEq, Repr

/-- A core's claim on the lane pool (R249 to R251, R271) with its vector registers (byte i of register r under key
4096 r + i), its command queue, a held fault (subcause, element address, command address), the changes of its grant that trick boundaries have decided
and that are not yet made (R250), and the mark of a vclaim that waits below its MIN. -/
structure Claim where
  owner : Option Nat := none
  groups : List Nat := []
  minG : Nat := 0
  maxG : Nat := 0
  vl : Nat := 0
  vregs : NMap Byte := {}
  queue : List VCmd := []
  fault : Option (BitVec 8 × Word × Word) := none
  moves : List LaneMove := []
  waiting : Bool := false
deriving DecidableEq, Repr

/-- The vector context saved on a core (R269, R271): the number of the first free value of its bytes (DESIGN CHOICE, log 7), and the thread whose
save wrote it. What it saves, the queue of a claim or the record of a safe point, stays with the claim or the thread. -/
structure VCtx where
  mark : Nat := 0
  tid : Nat := 0
deriving DecidableEq, Repr

/-- A half of a slice (R273, R277): loaded mark, format code, columns, sparsity seed, and for each column the exponent
and the 128 aligned integers; `loss` counts the columns whose alignment lost bits (R244, R279). -/
structure Half where
  loaded : Bool := false
  fmt : BitVec 2 := 0
  ncol : Nat := 0
  seed : BitVec 16 := 0
  exps : List Nat := []
  cols : List (List Int) := []
  loss : Nat := 0
deriving DecidableEq, Repr

/-- A row of partial sums (R279, R288): the 256 sums, the exponent of the A window, the pass index, the mark of the
operation's final row, and the loss mark. -/
structure PRow where
  sums : List Int := []
  ea : Nat := 0
  row : Nat := 0
  last : Bool := false
  loss : Bool := false
deriving DecidableEq, Repr

/-- How a join answers a thread that waits for it: not yet, joined, or a trap with its subcause and value. -/
inductive JoinAns where
  | waits
  | joined
  | traps (sub : BitVec 8) (val : Word)
deriving DecidableEq, Repr

/-- A pending mx.go of a core (R280, R287): thread, captured context, descriptor. -/
structure GoReq where
  tid : Nat := 0
  ctx : Word := 0
  desc : Word := 0
  ans : JoinAns := .waits
deriving DecidableEq, Repr

/-- A pending wd.enter of a core (R306): thread and the two operands. -/
structure EnterReq where
  tid : Nat := 0
  a : Word := 0
  d : Word := 0
  ans : JoinAns := .waits
deriving DecidableEq, Repr

/-- A load of operands in progress, mx.lda or mx.ldb (R283, R286): its place in the order of arrival, the address, the
entries from `first` or none, the format and group size, `ncol` and seed of a tile, vectors completed, and the blocks read
of the vector or tile in hand. -/
structure MxLoad where
  tid : Nat := 0
  arr : Nat := 0
  addr : Word := 0
  first : Nat := 0
  count : Nat := 0
  fmt : BitVec 2 := 0
  g : Nat := 1
  ncol : Nat := 0
  seed : BitVec 16 := 0
  done : Nat := 0
  got : List Nat := []
deriving DecidableEq, Repr

/-- A core's share of the row array (R273, R275, R292, R297): context, the two halves and which is active, partial queue
with the half-row to pop next, committed staged rows, passes counted, the core's mx.go and wd.enter in issue order, and
its mx.ldb in progress. -/
structure MxCore where
  ctx : Word := 0
  half0 : Half := {}
  half1 : Half := {}
  active : Bool := false
  queue : List PRow := []
  popHalf : Bool := false
  staged : List PRow := []
  passes : Nat := 0
  go : List GoReq := []
  enter : List EnterReq := []
  ldbs : List MxLoad := []
deriving DecidableEq, Repr

/-- A compute or dealer core. `xreq` is the request of its XLAT_REQ that has started (R331). -/
structure Core where
  l1 : NMap L1Set := {}
  pred : NMap Nat := {}
  icache : NMap (List ILine) := {}
  imiss : Nat := 0
  pgwait : Nat := 0
  groups : List Group := []
  rstores : List RStore := []
  sigs : NMap (BitVec 512) := {}
  drops : Nat := 0
  bars : NMap Barrier := {}
  hdSlips : Nat := 0
  hdBits : Nat := 0
  lossWin : Nat := 0
  lossB : Nat := 0
  lossA : Nat := 0
  claim : Claim := {}
  vsub : BitVec 8 := 0
  vpc : Word := 0
  vctx : Option VCtx := none
  mx : MxCore := {}
  plb : List PlbEntry := []
  plbMiss : Nat := 0
  plbShoots : Nat := 0
  stale : Bool := false
  xreqBusy : Bool := false
  xreq : Option Command := none
  xreqCount : Nat := 0
  lastIssued : Nat := 3
deriving DecidableEq, Repr

/-! ## Clusters -/

/-- A track word (Table 6.1) as hardware wrote it last, and `flips`, the bits of its 80 that have gone wrong since. Its CHECK is a function of
the others (TWord.check). -/
structure TWord where
  data : Word := 0
  tag : BitVec 4 := 0
  mark : BitVec 4 := 0
  flips : BitVec 80 := 0
deriving DecidableEq, Repr

/-- Which head: a thread and one of its handles. -/
structure HRef where
  tid : Nat := 0
  h : BitVec 3 := 0
deriving DecidableEq, Repr

/-- What a shift is for: a seek or rewind, a step, the way of an access to its word, a seek back at a grant, a realign by
a slip found, or a resync's sweep (R126, R131, R133, R136, R145). -/
inductive ShiftKind where
  | seek | step | reach | back | realign (m : Int) | sweep
deriving DecidableEq, Repr

/-- A shift asked of a track (R126, R136): positions upward, the seat charged with its slot, the head it serves, the cycle in which it was
asked for, and whether its slot has been granted. -/
structure Shift where
  by_ : Int := 0
  kind : ShiftKind := .seek
  seat : Nat := 0
  head : HRef := {}
  asked : Nat := 0
  granted : Bool := false
deriving DecidableEq, Repr

/-- A track (R124, R125, R129): the offset, the displacement a slip has left, the words that differ from formatted ones, the
owner and the queue of heads, each with the cycle in which it entered, the fault flag, shifts asked for in order, the
formatting mark, and the seat whose window held the track last (R128). -/
structure Track where
  off : BitVec 12 := 0
  disp : BitVec 12 := 0
  words : NMap TWord := {}
  owner : Option HRef := none
  queue : List (Nat × HRef) := []
  flag : Bool := false
  shifts : List Shift := []
  formatting : Bool := false
  win : Option Nat := none
deriving DecidableEq, Repr

/-- States of a copy or gather engine (R158). -/
inductive EState where
  | free | active | done | faulted | stopped
deriving DecidableEq, Repr

/-- A copy channel (0–15) or gather engine (16, 17) of a cluster (R154 to R159). For a gather, `src` is IDX, `tbl` is
BASE, `len` counts elements; `landed` counts bytes landed contiguously from the start; `before` holds, by home
address, the source doublewords that the copy's own writes have replaced (R161), and `ending` the state in which the engine ends once
its completion record is written (R159). -/
structure Engine where
  st : EState := .free
  seat : Nat := 0
  tid : Nat := 0
  deal : Nat := 0
  hand : Nat := 0
  src : Word := 0
  tbl : Word := 0
  dst : Word := 0
  len : Nat := 0
  esz : Nat := 8
  iw64 : Bool := false
  mbx : Word := 0
  landed : Nat := 0
  side : Bool := false
  sub : BitVec 8 := 0
  faddr : Word := 0
  before : NMap Nat := {}
  ending : Option EState := none
deriving DecidableEq, Repr

/-- An arrival at a mailbox's doorbell that its home holds (R203): kind, source and payload. -/
structure Arrival where
  ma : Nat := 0
  kind : Nat := 0
  src : Nat := 0
  payload : List Word := []
deriving DecidableEq, Repr

/-- A mailbox (R202 to R204). -/
structure Mailbox where
  tid : Nat := 0
  seat : Nat := 0
  ma : Nat := 0
  rbase : Nat := 0
  nrec : Nat := 1
  inn : Nat := 0
  out : Nat := 0
deriving DecidableEq, Repr

/-- An entry of a translation unit's cache (R328): the page's address and size, the address of its leaf, the frame, the domain, and
whether the frame is borrowed through a read-only window. -/
structure XEntry where
  leaf : Nat := 0
  page : Nat := 0
  size : Nat := 0
  frame : Nat := 0
  dom : BitVec 16 := 0
  borrowed : Bool := false
deriving DecidableEq, Repr

/-- A walk that a translation unit has queued or runs (R328): the virtual page it is for with its size, the seat of the miss, whether
a walker runs it, and since which cycle. -/
structure Walk where
  page : Nat := 0
  size : Nat := 0x10000
  seat : Nat := 0
  running : Bool := false
  since : Nat := 0
deriving DecidableEq, Repr

/-- The expander's work on a miss (R167): the block that it brings in, the seat whose shift slots it takes and the thread it is for, the coded words of the block that
leaves, by track word, the track words still to read, the values read, the realigns made for the word in hand, and the cycle in which a word
proved uncorrectable. -/
structure CmJob where
  block : Nat := 0
  seat : Nat := 0
  tid : Nat := 0
  writes : List (Nat × Nat) := []
  reads : List Nat := []
  got : List Nat := []
  realigns : Nat := 0
  failed : Option Nat := none
deriving DecidableEq, Repr

/-- An access that waits at an expander: whose it is, its block, and when it asked last (R167). -/
structure CmWait where
  tid : Nat := 0
  block : Nat := 0
  asked : Nat := 0
deriving DecidableEq, Repr

/-- A cluster. `cmBlocks` lists the expanded blocks from least to most recently used, with a mark for dirty ones; `cmCoded` gives for each coded
block its track words, as 4096 × track + position (R166), and `cmQueue` holds the accesses that wait, in the order in which they came (R167). -/
structure Cluster where
  tracks : NMap Track := {}
  engines : NMap Engine := {}
  pfSel : NMap (BitVec 5) := {}
  pfCount : NMap Nat := {}
  cmBlocks : List (Nat × Bool) := []
  cmCoded : NMap (List Nat) := {}
  cmJob : Option CmJob := none
  cmQueue : List CmWait := []
  mailboxes : NMap Mailbox := {}
  arrivals : List Arrival := []
  queue : List Nat := []
  xlat : List XEntry := []
  walkq : List Walk := []
  walks : Nat := 0
  xfaults : Nat := 0
deriving DecidableEq, Repr

/-! ## Octets -/

/-- A request in a semaphore's queue (R200). -/
structure SemReq where
  tid : Nat := 0
  n : Nat := 0
  registered : Bool := false
deriving DecidableEq, Repr

/-- A semaphore (R200). A request of a run's sequencer carries a thread number from 100,000 up. -/
structure Sem where
  val : Nat := 0
  sig : BitVec 512 := 0
  queue : List SemReq := []
deriving DecidableEq, Repr

/-- Lane groups reserved by a hand in the octet (R249). -/
structure LaneRes where
  deal : Nat := 0
  hand : Nat := 0
  groups : List Nat := []
deriving DecidableEq, Repr

/-- An entry of the row buffer (R273, R276): loaded mark, format code, G, the aligned integers, their exponent, loss. -/
structure RowEntry where
  loaded : Bool := false
  fmt : BitVec 2 := 0
  g : Nat := 1
  ints : List Int := []
  exp : Nat := 0
  loss : Bool := false
deriving DecidableEq, Repr

/-- An operation joined or in flight (R280, R281): the eight requests in core order, its place in the order of arrival, the
next pass, the start mark, the entries that it counted on and that must be loaded anew before it reads them (R283), the join cycle (R281), and the
pass before which an mx.abort ends it (R289). -/
structure MxOp where
  arr : Nat := 0
  reqs : List GoReq := []
  deal : Nat := 0
  hand : Nat := 0
  first : Nat := 0
  count : Nat := 0
  pass : Nat := 0
  started : Bool := false
  holes : List Nat := []
  joinAt : Nat := 0
  cut : Option Nat := none
deriving DecidableEq, Repr

/-- A pass whose broadcast has ended and whose row is on its way (R281, R301): the cycle of its last broadcast, its rows by slice, the deal, hand and
threads of its operation. -/
structure PassOut where
  ended : Nat := 0
  rows : List PRow := []
  deal : Nat := 0
  hand : Nat := 0
  tids : List Nat := []
deriving DecidableEq, Repr

/-- States of a weight-driven run (Table 15.4). -/
inductive RunState where
  | off | running | faulted | halted
deriving DecidableEq, Repr

/-- A parison header (Table 15.1): doubleword 0, the two links, and the doubleword with CRC and PLEN. -/
structure Header where
  w0 : Word := 0
  succ : Word := 0
  alt : Word := 0
  w3 : Word := 0
deriving DecidableEq, Repr

/-- A run (R297), held by its octet 0; `header` is the parison header that has passed phase H (R299), `got` the payload
doublewords read, and `waiting` marks a WAITSIG request placed in a semaphore's queue, or a RUN whose next pass has waited. `arr` is a RUN's place in the order
of arrival (R301); `retried` lists the levels that have retried the parison, and `ident`, `pol` and `memb` tell who entered, as fault records
and containment need it (R305). -/
structure Run where
  st : RunState := .off
  paddr : Word := 0
  ret : Option Word := none
  pair : Bool := false
  seat : Nat := 0
  deal : Nat := 0
  hand : Nat := 0
  tid : Nat := 0
  header : Option Header := none
  got : List Word := []
  waiting : Bool := false
  arr : Nat := 0
  retried : List Nat := []
  ident : Word := 0
  pol : BitVec 20 := 0
  memb : BitVec 9 := 0
deriving DecidableEq, Repr

/-- An accepted transform request (R309, R310): thread, seat, deal, hand, descriptor, rounding mode; `dead` once its thread's
part in its hand has ended (R316). `got` holds the source bytes read, `out` the destination bytes to write with the result
and flags, `homes` the home addresses of the destination's units that have passed their checks (R312), `put` the bytes
written, and `outcome` once it has been executed, a subcause (0 for none) with the result or address. -/
structure TxReq where
  tid : Nat := 0
  seat : Nat := 0
  deal : Nat := 0
  hand : Nat := 0
  src : Word := 0
  dst : Word := 0
  ctl : Word := 0
  k : Word := 0
  rm : BitVec 2 := 0
  dead : Bool := false
  started : Bool := false
  got : List Byte := []
  out : Option (List Byte × Word) := none
  homes : List Nat := []
  put : Nat := 0
  outcome : Option (BitVec 8 × Word) := none
  flags : BitVec 6 := 0
deriving DecidableEq, Repr

/-- A throttle decision on its way to an octet (R375): step, limit, number. -/
structure StepMsg where
  step : Nat := 0
  plim : Nat := 0
  dseq : Nat := 0
deriving DecidableEq, Repr

/-- An octet. `level` and `rampAt` are the ramp's level and the start of its timer, `dummy` its dummy broadcasts, `rising` notes demand
(R373); `usable` positions stand in the issue frame number `frame` (R372), and those of cycles before `issued` are spent. `left` counts the broadcast
cycles that the pass in progress still has, and `pipe` holds the passes whose rows are on their way (R281). `energyDeal` is the deal of the run or operation
that ended last (R376). -/
structure Octet where
  lanes : List LaneRes := []
  sems : NMap Sem := {}
  rows : NMap RowEntry := {}
  loads : List MxLoad := []
  arrivals : Nat := 0
  ops : List MxOp := []
  run : Run := {}
  endc : BitVec 2 := 0
  wdFault : Word := 0
  cnt : BitVec 16 := 0
  cflag : Bool := false
  txq : List TxReq := []
  txBusy : Nat := 0
  txDone : Nat := 0
  plim : Nat := 2000
  dseq : Nat := 0
  step : Nat := 0
  decisions : List StepMsg := []
  level : Nat := 0
  rampAt : Nat := 0
  dummy : Nat := 0
  rising : Bool := false
  usable : Nat := 0
  frame : Nat := 0
  issued : Nat := 0
  left : Nat := 0
  pipe : List PassOut := []
  energyDeal : Option Nat := none
deriving DecidableEq, Repr

end Sys2Proof.Machine
end

