-- ==== Sys2Proof/Machine/State.lean ====
section
/-! DEFINITION. The state of the module: threads, cores, octets and clusters by number, the partitions, seats and deals,
the frames, L2 slices, token buckets, links, functions and hub, and memory. All of it is plain data.

Numbers used as keys: a compute core is its core number (R2); dealer core k = 2 × die + index is 2048 + k; thread t of core n is
4 n + t; octet n / 8; cluster n / 16; level-3 node n / 64; a partition is its function number (R340); seat j (1–16) of
partition f is 16 f + j − 1, and the dealer seat of dealer core k is 1024 + k. A deal is the number of its acceptance. -/

namespace Sys2Proof.Machine

/-! ## Memory

One list of bytes for every location of the module (R6, R168). A GDDR byte stands at its physical address, a byte the host
link serves at its physical address (bit 47 set), a byte of a scratchpad, reserved bank or cluster memory at its window address
of Table 18.1 (0x00F1, 0x00F2 and 0x00F3 forms). -/

/-- What a byte reads as when nothing has been written to it: zero for a FREE frame (R334), an allotted bank (R103) and
cluster memory (R165); for the other locations the model's choice (DESIGN CHOICE, log 2). -/
def unlistedByte : Byte := 0

/-- The canonical form: addresses strictly rising and no entry equal to `unlistedByte`. -/
def memCanonical : List Host.Cell → Bool
  | [] => true
  | (_, b) :: [] => b != unlistedByte
  | (a, b) :: (a', b') :: r => b != unlistedByte && decide (a < a') && memCanonical ((a', b') :: r)

/-- Memory.wf: the canonical form holds. -/
abbrev Memory.wf (m : List Host.Cell) : Prop := memCanonical m = true

/-! ## Module parts -/

/-- A token bucket (R343): RATE, DEPTH, TOK, DEBT, the demand mark of the tick, whether it showed demand in the last
tick, whether a request waits, the ticks in which one waited, and the tokens spent in the cycle of the last grant (R366). -/
structure Bucket where
  rate : Nat := 0
  depth : Nat := 0
  tok : Nat := 0
  debt : Nat := 0
  demand : Bool := false
  lastDemand : Bool := false
  waited : Bool := false
  waits : Nat := 0
  spent : Nat := 0
  spentAt : Nat := 0
deriving DecidableEq, Repr

/-- A request at an arbiter (R344): its bucket and its cost, the line or place that the transfer is for, who makes it, the energy that its grant
charges to a deal (R376), and its packet's virtual channel: 0 request, 1 response, 2 message (R362). -/
structure Req where
  arb : Nat := 0
  bucket : Nat := 0
  cost : Nat := 0
  line : Nat := 0
  who : Nat := 0
  energy : Nat := 0
  deal : Option Nat := none
  vc : Nat := 0
deriving DecidableEq, Repr

/-- A request that waits at an arbiter: since which cycle (R351), and when it asked last (log 31). -/
structure Waiting where
  req : Req := {}
  since : Nat := 0
  asked : Nat := 0
deriving DecidableEq, Repr

/-- A request that has been granted for a transfer which still waits for another request (log 31): `used` marks one that the step in hand has met
again or made, and `asked` the cycle in which its transfer last met it. A step lists what it is granted behind what stood before. -/
structure Paid where
  req : Req := {}
  used : Bool := false
  asked : Nat := 0
deriving DecidableEq, Repr

/-- An arbiter (Table 19.2): its buckets by seat or partition, its kitty, the bucket and the requester served last, the tokens moved in the tick from
buckets and by loan, those of aged grants at a channel (R343, R351), and the requests that wait, in the order in which they came. -/
structure Arb where
  buckets : NMap Bucket := {}
  kitty : Nat := 0
  last : Nat := 0
  lastWho : Nat := 0
  moved : Nat := 0
  aged : Nat := 0
  queue : List Waiting := []
deriving DecidableEq, Repr

/-- A line of an L2 slice (R350): address, way, the seat that last dirtied it, dirty, the deals
that pin it (R212), poison, and `good` for a clean copy whose sector has been poisoned in GDDR beneath it (R353). -/
structure L2Line where
  addr : Nat := 0
  way : Nat := 0
  dirty : Bool := false
  seat : Nat := 0
  pinned : List Nat := []
  poisoned : Bool := false
  good : Bool := false
deriving DecidableEq, Repr

/-- An L2 slice (R348, R350): lines by set from least to most recently used, and for each way its owner and holder (a
seat, or none for the kitty) and the mark for reclaim; the seats that showed demand in the tick. -/
structure Slice where
  sets : NMap (List L2Line) := {}
  owners : NMap Nat := {}
  holders : NMap Nat := {}
  reclaim : List Nat := []
  demand : List Nat := []
  lastGiven : Nat := 0
deriving DecidableEq, Repr

/-- States of a 64 KiB frame (R334): the holder of a HELD frame is a function number, 0 for the management function. -/
inductive FrameState where
  | free | held (fn : Nat) | scrub | retired
deriving DecidableEq, Repr

/-- Phases of a synchronised stop (R354 to R357). -/
inductive StopPhase where
  | none | asked | stopping | agreed | stopped | resuming
deriving DecidableEq, Repr

/-- A partition (R337 to R341, R352): level of its node, CMBASE and CMSIZE by cluster, read-only windows that its configuration
opens, as borrower or as owner, seat and partition configurations accepted for the next tick, and its synchronised stop:
phase, cycle named, input pairs on which the flush token has arrived, those to which it has been sent (`flying`), threads the
stop put in STOPPED. -/
structure Part where
  level : Nat := 3
  cmbase : NMap Nat := {}
  cmsize : NMap Nat := {}
  windows : List RoWindow := []
  pending : List (Nat × Option SeatCfg) := []
  pendingCfg : Option (List Span × List RoWindow) := none
  phase : StopPhase := .none
  atCycle : Nat := 0
  tokens : List (Nat × Nat × Nat) := []
  flying : List (Nat × Nat × Nat) := []
  stopped : List Nat := []
deriving DecidableEq, Repr

/-- A journal entry (R383): SEQ, record address, its deal, and the completion record once written (its four
doublewords). -/
structure Journal where
  seq : BitVec 32 := 0
  recAddr : Word := 0
  deal : Nat := 0
  compl : Option (Word × Word × Word × Word) := none
deriving DecidableEq, Repr

/-- A seat (R209, R220, R341, R383): configuration, NEXTSEQ, journal, ACKSEQ, FAULT_MBX. -/
structure Seat where
  cfg : SeatCfg := {}
  nextSeq : BitVec 32 := 1
  journal : List Journal := []
  ackSeq : BitVec 32 := 0
  mbxValid : Bool := false
  mbxMa : BitVec 52 := 0
  rejected : List (BitVec 32) := []
deriving DecidableEq, Repr

/-- States of a deal, in the order of deal.stat's codes 1 to 5 (Table 9.12). -/
inductive DealState where
  | waiting | ready | launching | running | retired
deriving DecidableEq, Repr

/-- A hand of a deal (Table 9.7) with its placement and whether it has retired. -/
structure HandRec where
  entry : Word := 0
  any : Bool := false
  first : Nat := 0
  ncores : Nat := 1
  tmask : BitVec 4 := 0
  gang : Bool := false
  spBytes : Nat := 0
  lanes : Nat := 0
  retired : Bool := false
deriving DecidableEq, Repr

/-- A domain of a deal (R197, R198): members living, arrived, the phase, the signature, that of the last flip, kills. -/
structure Domain where
  living : Nat := 0
  arrived : Nat := 0
  phase : Bool := false
  sig : BitVec 512 := 0
  lastSig : BitVec 512 := 0
  kills : Nat := 0
deriving DecidableEq, Repr

/-- An accepted deal (R208 to R215). `domains` is keyed by 4096 × level + node; `ran` lists the threads it has run on;
`fpItem` and `fpOff` tell how far the copy of its footprint has come; `status` presets the status of a deal that is to complete
with one. -/
structure Deal where
  seat : Nat := 0
  seq : BitVec 32 := 0
  prio : Nat := 0
  sys : Bool := false
  compl : Word := 0
  memb : BitVec 9 := 0
  pol : BitVec 20 := 0
  arg : Word := 0
  recAddr : Word := 0
  reads : List (Nat × Nat) := []
  writes : List (Nat × Nat) := []
  footprint : List (Word × Word) := []
  hands : List HandRec := []
  home : Nat := 0
  st : DealState := .waiting
  deps : List Nat := []
  passed : Nat := 0
  killed : Nat := 0
  dead : Bool := false
  status : BitVec 8 := 0
  domains : NMap Domain := {}
  energy : Nat := 0
  energyTick : Nat := 0
  duplicates : List Word := []
  ran : List Nat := []
  fpItem : Nat := 0
  fpOff : Nat := 0
deriving DecidableEq, Repr

/-- A function's control page (R380, R381): counters, the error log (doubleword i of slot j under 4 j + i), its head and
tail, records lost, the deal ring control blocks; what the host writes in its configuration space: the command register, the two base addresses and the
device control register (R367); and what the function last answered. -/
structure Func where
  corrected : Nat := 0
  uncorrectable : Nat := 0
  elog : NMap Word := {}
  elogHead : Word := 0
  elogTail : Word := 0
  lost : Word := 0
  rings : NMap Word := {}
  mgmtRing : Word := 0
  cmd : BitVec 16 := 0
  bar0 : Word := 0
  bar2 : Word := 0
  devctl : BitVec 16 := 0
  unsupported : Bool := false
  hostRead : List Byte := []
deriving DecidableEq, Repr

/-- A packet that a link has sent and not had acknowledged (R371): sequence number, virtual channel, the function whose traffic it is, its FP32
payload words at a peer port. -/
structure LinkPacket where
  seq : BitVec 12 := 0
  vc : Nat := 0
  fn : Nat := 0
  words : List (BitVec 32) := []
deriving DecidableEq, Repr

/-- A link (R371). As the sender: next sequence number, packets sent and not acknowledged, whether they are being replayed, failed replays in a row,
whether it has retrained since the last acknowledgement, and whether it has been reported failed. As the receiver: the sequence number accepted next,
whether it discards until that packet arrives intact, and the FP32 words that have arrived at a peer port. -/
structure Link where
  seq : BitVec 12 := 0
  unacked : List LinkPacket := []
  replaying : Bool := false
  replays : Nat := 0
  retrained : Bool := false
  failed : Bool := false
  next : BitVec 12 := 0
  discards : Bool := false
  got : List (BitVec 32) := []
deriving DecidableEq, Repr

/-- A transfer of the hub's copy engines to another module (R369): the function it is metered for, peer port, virtual channel, the physical address
that it reads next, and the FP32 words still to send. -/
structure PeerTransfer where
  fn : Nat := 0
  port : Nat := 0
  vc : Nat := 0
  src : Nat := 0
  words : Nat := 0
deriving DecidableEq, Repr

/-- The exponent table of a peer port's virtual channel and direction as the sender and as the receiver hold it, and the packet sent last: the bits of
its coded payload, the bit stream, RAW, and its CRC-32C (R370, R371). -/
structure ExpTable where
  t : List (BitVec 8) := [127, 126, 128, 125]
  ackT : List (BitVec 8) := [127, 126, 128, 125]
  bits : Nat := 0
  code : Nat := 0
  raw : Bool := false
  crc : Nat := 0
deriving DecidableEq, Repr

/-- A firmware slot (R385): whether an image is stored, its bytes and signature, whether that verifies, version, digest, entry. -/
structure FwSlot where
  full : Bool := false
  valid : Bool := false
  version : BitVec 16 := 0
  digest : BitVec 256 := 0
  entry : Word := 0
  image : List Byte := []
  sig : List Byte := []
deriving DecidableEq, Repr

/-- What the hub last answered to an SPDM request (R386). -/
inductive SpdmAnswer where
  | none | version (v : Nat) | capabilities (sessions : Bool) | algorithms (p256 sha256 : Bool)
  | digests (slots : List (BitVec 256)) | certificate (slot : Nat) (chain : List Byte)
  | challengeAuth (slot : Nat) (nonce : BitVec 256) (summary : BitVec 256) (sig : List Byte)
  | measurements (blocks : List (Nat × BitVec 256)) | error
deriving DecidableEq, Repr

/-- The hub (R374, R378, R385 to R389): the slots, the active one, STATE, FW_BEAT.VER, the dealer cores' QACK bits, the
deadline of a quiesce or trial, the result address of the update in progress, the handover copies, measurement block 5, the
power limit, decision number, windows decided, the power that the agenda has given for the next decision, and the step of the
row arrays, ESEQ, function 0's presence, dies in service, whether and in which tick full service was declared, SPDM progress
and answer by function. -/
structure Hub where
  slotA : FwSlot := {}
  slotB : FwSlot := {}
  activeB : Bool := false
  state : BitVec 2 := 0
  beatVer : BitVec 16 := 0
  qacks : List Nat := []
  deadline : Nat := 0
  result : Word := 0
  copies : NMap (List Byte) := {}
  block5 : BitVec 256 := 0
  plim : Nat := 2000
  dseq : Nat := 0
  windows : Nat := 0
  measured : Option Nat := none
  step : Nat := 0
  eseq : BitVec 32 := 0
  up : Bool := false
  trained : List Nat := []
  failedDies : List Nat := []
  fullService : Bool := false
  fullTick : Nat := 0
  spdm : NMap Nat := {}
  spdmAns : SpdmAnswer := .none
  transfers : List PeerTransfer := []
deriving DecidableEq, Repr

/-- A doubleword of a fault record on its way as an ordinary store (R207): who makes the store, its address and value. -/
structure Post where
  core : Nat := 0
  tid : Nat := 0
  seat : Nat := 0
  va : Word := 0
  v : Word := 0
deriving DecidableEq, Repr

/-! ## The machine -/

/-- What comes from outside: a step of the opcode table, or what the management function sets without a command of its own:
the root of the page tables (R321), the dealer seats' rights table and a bucket of theirs or of a partition (R78, R364); a
management command of a code that Table 24.1 does not have (R378); bits of a track word that go wrong (R133); the host's
accesses of a function's configuration space and its reads of a control page (R367, R380); a transfer to another module that
the management function sets up (R369); or a packet that arrives at a peer port, with its words' number, payload and CRC
(R370, R371). -/
inductive Input where
  | step (i : Instr)
  | otherCommand (code result : Word)
  | root (a : Word)
  | dealerRights (a : Word)
  | dealerBucket (arb seat : Nat) (r : Rate)
  | trackError (cluster track pos : Nat) (bits : BitVec 80)
  | configRead (fn off : Nat)
  | configWrite (fn off : Nat) (v : BitVec 32)
  | controlRead (fn off : Nat)
  | peerTransfer (x : PeerTransfer)
  | peerReceive (port vc : Nat) (seq : BitVec 12) (raw : Bool) (n : Nat) (payload : List Byte) (crc : Nat)
deriving DecidableEq, Repr

/-- The machine. `poison` lists the poisoned 64-byte sectors by number, each with the bytes written since (R353). `cycle` is
the module-wide cycle count and `ticks` the ticks whose first cycle has been carried out; `free`, `agenda` and `cur` are the
model's own: the counter of free values drawn (DESIGN CHOICE, log 3), the events and inputs that come next (DESIGN CHOICE,
log 4), and the thread whose turn it is (DESIGN CHOICE, log 5). Within a cycle each core has its turn: `coreAt` is the core
whose turn it is and `slotUsed` tells that it has issued its word of this cycle (R65). `evTurn` tells that the cores have had
their turns and the hardware has its own, `evLeft` counts the events it may still make in this cycle, and `evCur` counts the
hardware's turns. `now` lists what the hardware has added in this cycle to control registers whose writes keep it, and
`wrote` the ones written in this cycle whose writes win (R11): register number and the thread, core or octet that holds it.
`paid` holds the requests granted to transfers that wait for another (R344), and `scrubLeft` the tokens that the scrub under
way at a channel still takes (R334). -/
structure State where
  mem : List Host.Cell := []
  poison : NMap Nat := {}
  threads : NMap Thread := {}
  cores : NMap Core := {}
  octets : NMap Octet := {}
  clusters : NMap Cluster := {}
  parts : NMap Part := {}
  seats : NMap Seat := {}
  deals : NMap Deal := {}
  nextDeal : Nat := 0
  frames : NMap FrameState := {}
  scrubs : NMap (List Nat) := {}
  scrubLeft : NMap Nat := {}
  slices : NMap Slice := {}
  arbs : NMap Arb := {}
  paid : List Paid := []
  links : NMap Link := {}
  expTables : NMap ExpTable := {}
  funcs : NMap Func := {}
  hub : Hub := {}
  root : Word := 0
  dealerRt : Word := 0
  cycle : Nat := 0
  ticks : Nat := 0
  energyNone : Nat := 0
  energyAll : Nat := 0
  free : Nat := 0
  cur : Nat := 0
  coreAt : Nat := 0
  slotUsed : Bool := false
  evTurn : Bool := false
  evLeft : Nat := 0
  evCur : Nat := 0
  now : List (Nat × Nat × Nat) := []
  wrote : List (Nat × Nat) := []
  posts : List Post := []
  pend : List Command := []
  agenda : List Input := []
deriving DecidableEq, Repr

/-- Why a step stops with a fault. No rule of the spec stops the module: each error is a trap, a status or a report. -/
inductive Fault where
  /-- Raised by no meaning: the spec gives every error of a program or an engine a trap, a status or a report. Safe. -/
  | none
deriving DecidableEq, Repr

/-- Why a step has no meaning. -/
inductive Refusal where
  /-- Raised by an arm of Dispatch whose instruction has no meaning yet. Safe: nothing is claimed of what follows. -/
  | notModelled (mnemonic : String)
deriving DecidableEq, Repr

/-- The machine right after reset: every register at the value its field map gives, memory with nothing listed, every
thread EMPTY. One partition, function 1, covers the whole module and holds no seat, since the management function only
merges and splits partitions (R339; DESIGN CHOICE, log 6). -/
def State.reset : State :=
  { parts := ⟨[(1, { level := 8 })]⟩ }

end Sys2Proof.Machine
end

