-- ==== Sys2Proof/Machine/Ops.lean ====
section
/-! DEFINITION. The shared operations: access to the parts of the state, token buckets (R343, R344), memory bytes and
poison (R353), taking a trap (R69) and returning from one (R76), and the issue of a unit (R28, R65, R66). -/

namespace Sys2Proof.Machine

/-! ## The parts of the state -/

def State.thr (s : State) (t : Nat) : Thread := s.threads.get {} t
def State.core (s : State) (n : Nat) : Core := s.cores.get {} n
def State.octet (s : State) (o : Nat) : Octet := s.octets.get {} o
def State.cluster (s : State) (c : Nat) : Cluster := s.clusters.get {} c
def State.part (s : State) (f : Nat) : Part := s.parts.get {} f
def State.seat (s : State) (k : Nat) : Seat := s.seats.get {} k
def State.deal (s : State) (d : Nat) : Deal := s.deals.get {} d
def State.slice (s : State) (n : Nat) : Slice := s.slices.get {} n
def State.arb (s : State) (k : Nat) : Arb := s.arbs.get {} k
def State.func (s : State) (f : Nat) : Func := s.funcs.get {} f
def State.frame (s : State) (f : Nat) : FrameState := s.frames.get .free f

def State.setThr (s : State) (t : Nat) (x : Thread) : State := { s with threads := s.threads.set t x }
def State.setCore (s : State) (n : Nat) (x : Core) : State := { s with cores := s.cores.set n x }
def State.setOctet (s : State) (o : Nat) (x : Octet) : State := { s with octets := s.octets.set o x }
def State.setCluster (s : State) (c : Nat) (x : Cluster) : State := { s with clusters := s.clusters.set c x }
def State.setPart (s : State) (f : Nat) (x : Part) : State := { s with parts := s.parts.set f x }
def State.setSeat (s : State) (k : Nat) (x : Seat) : State := { s with seats := s.seats.set k x }
def State.setDeal (s : State) (d : Nat) (x : Deal) : State := { s with deals := s.deals.set d x }
def State.setSlice (s : State) (n : Nat) (x : Slice) : State := { s with slices := s.slices.set n x }
def State.setArb (s : State) (k : Nat) (x : Arb) : State := { s with arbs := s.arbs.set k x }
def State.setFunc (s : State) (f : Nat) (x : Func) : State := { s with funcs := s.funcs.set f x }
def State.setFrame (s : State) (f : Nat) (x : FrameState) : State := { s with frames := s.frames.set f x }

def State.modThr (s : State) (t : Nat) (f : Thread → Thread) : State := s.setThr t (f (s.thr t))
def State.modCore (s : State) (n : Nat) (f : Core → Core) : State := s.setCore n (f (s.core n))
def State.modOctet (s : State) (o : Nat) (f : Octet → Octet) : State := s.setOctet o (f (s.octet o))
def State.modCluster (s : State) (c : Nat) (f : Cluster → Cluster) : State := s.setCluster c (f (s.cluster c))
def State.modPart (s : State) (k : Nat) (f : Part → Part) : State := s.setPart k (f (s.part k))
def State.modSeat (s : State) (k : Nat) (f : Seat → Seat) : State := s.setSeat k (f (s.seat k))
def State.modDeal (s : State) (d : Nat) (f : Deal → Deal) : State := s.setDeal d (f (s.deal d))
def State.modSlice (s : State) (n : Nat) (f : Slice → Slice) : State := s.setSlice n (f (s.slice n))
def State.modArb (s : State) (k : Nat) (f : Arb → Arb) : State := s.setArb k (f (s.arb k))
def State.modFunc (s : State) (k : Nat) (f : Func → Func) : State := s.setFunc k (f (s.func k))

/-- Changes every listed thread. -/
def State.mapThr (s : State) (f : Nat → Thread → Thread) : State := { s with threads := s.threads.mapVals f }

/-! ## Numbers of threads, cores, octets, clusters, nodes and partitions (R2, R337, R340) -/

def coreOf (t : Nat) : Nat := t / 4
def isDealer (n : Nat) : Bool := Config.cores ≤ n
def octetOf (n : Nat) : Nat := n / 8
def clusterOf (n : Nat) : Nat := n / 16
def nodeOf (n : Nat) : Nat := n / 64
/-- The die of a compute or dealer core. -/
def dieOf (n : Nat) : Nat := if isDealer n then (n - Config.cores) / 2 else n / 256
/-- The translation unit that serves a core: its cluster's, and for dealer core k one of its own, 128 + k. -/
def xlatOf (n : Nat) : Nat := if isDealer n then 128 + (n - Config.cores) else n / 16
/-- The die of a cluster. -/
def dieOfCluster (c : Nat) : Nat := c / 16

/-- Level-3 nodes a partition covers. -/
def Part.nodes (p : Part) : Nat := 2 ^ (p.level - 3)
/-- The partition that covers a level-3 node. -/
def State.partOfNode (s : State) (node : Nat) : Option Nat :=
  (s.parts.toList.find? fun p => p.1 - 1 ≤ node && node < p.1 - 1 + p.2.nodes).map fun p => p.1
/-- The partition that covers a compute core. -/
def State.partOfCore (s : State) (n : Nat) : Option Nat := if isDealer n then none else s.partOfNode (nodeOf n)
/-- The partition of a seat, none for a dealer seat. -/
def partOfSeat (k : Nat) : Option Nat := if 1024 ≤ k then none else some (k / 16)
/-- The seat number minus one. -/
def seatIndex (k : Nat) : Nat := if 1024 ≤ k then 0 else k % 16
/-- The seats of partition f. -/
def State.seatsOf (s : State) (f : Nat) : List Nat :=
  (s.seats.toList.map fun c => c.1).filter fun k => k / 16 == f && k < 1024
/-- True when partition f covers core n. -/
def State.covers (s : State) (f n : Nat) : Bool :=
  !isDealer n && (f - 1) * 64 ≤ n && n < (f - 1 + (s.part f).nodes) * 64
/-- True while a partition is held by a synchronised stop, from its cycle G to G′ (R354 to R357). -/
def Part.held (p : Part) : Bool := p.phase != .none && p.phase != .asked
/-- True from the cycle Q of a synchronised stop: the partition's packets lie in save buffers (R355). -/
def Part.swept (p : Part) : Bool := p.phase == .agreed || p.phase == .stopped || p.phase == .resuming
/-- True while the partition of a cluster is held by a synchronised stop: its sources start nothing. -/
def State.clusterHeld (s : State) (c : Nat) : Bool :=
  match s.partOfNode (c / 4) with
  | some f => (s.part f).held
  | none => false
/-- Threads of a cluster whose units wait are looked at again. -/
def recheckCluster (c : Nat) (s : State) : State :=
  s.mapThr fun t th => if clusterOf (coreOf t) = c ∧ !isDealer (coreOf t) then { th with waiting := false } else th
/-- The threads listed on core n. -/
def threadsOf (n : Nat) : List Nat := [4 * n, 4 * n + 1, 4 * n + 2, 4 * n + 3]

/-! ## Actions

An instruction's effect is an action: it answers a value and a state, or stops. A trap withdraws the effects written before
it (R35) but for what `keep` marks. A stall is a structural wait of R65: the word has not issued, and only what `keep` marks
(a count) changes. A hold is a unit that has
issued and waits: it runs anew, keeping only what `keep` marks. -/

inductive Stop where
  | trap (cause sub : BitVec 8) (val : Word) (keep : State → State)
  | stall (keep : State → State)
  | hold (keep : State → State)

abbrev Act (α : Type) := StateT State (Except Stop) α

/-- A structural wait (R65). -/
def stall {α : Type} : Act α := throw (.stall id)
/-- A wait after issue. -/
def hold {α : Type} : Act α := throw (.hold id)
/-- A wait after issue that keeps `k`. -/
def holdKeep {α : Type} (k : State → State) : Act α := throw (.hold k)
/-- The state reached, but for the stream bindings, whose pops and pushes are withdrawn: the unit runs anew. -/
def keepBut (s o : State) : State := s.modThr s.cur fun th => { th with binds := (o.thr o.cur).binds }
/-- Waits, keeping every effect made so far but pops. -/
def holdAll {α : Type} : Act α := fun s => .error (.hold (keepBut s))
/-- Traps, keeping every effect made so far but pops. -/
def trapAll {α : Type} (cause sub : BitVec 8) (val : Word) : Act α := fun s => .error (.trap cause sub val (keepBut s))

/-- The thread whose unit is running. -/
def cur : Act Nat := fun s => .ok (s.cur, s)
/-- The record of the thread whose unit is running. -/
def me : Act Thread := fun s => .ok (s.thr s.cur, s)
/-- The core of the thread whose unit is running. -/
def myCore : Act Nat := fun s => .ok (coreOf s.cur, s)
/-- The seat of the thread whose unit is running. -/
def mySeat : Act Nat := fun s => .ok ((s.thr s.cur).seat.getD 0, s)
/-- Changes the record of the thread whose unit is running. -/
def modMe (f : Thread → Thread) : Act Unit := fun s => .ok ((), s.modThr s.cur f)
/-- Reads a part of the state. -/
def look {α : Type} (f : State → α) : Act α := fun s => .ok (f s, s)
/-- Changes the state. -/
def upd (f : State → State) : Act Unit := fun s => .ok ((), f s)

/-- A value the spec leaves open: the next free value (DESIGN CHOICE, log 3). -/
def drawWord : Act Word := fun s => .ok (Config.freeWord s.free, { s with free := s.free + 1 })

/-! ## Registers that hardware and software change in one cycle (R11) -/

/-- Notes what the hardware adds to register `reg` of `holder` in this cycle, as the register shows it. -/
def noteNow (reg holder v : Nat) (s : State) : State := { s with now := (reg, holder, v) :: s.now }
/-- What the hardware has added in this cycle to register `reg` of `holder`. -/
def State.nowOf (s : State) (reg holder : Nat) : List Nat :=
  s.now.filterMap fun x => if x.1 = reg ∧ x.2.1 = holder then some x.2.2 else none
/-- True when register `reg` of `holder` has been written in this cycle, and the write wins. -/
def State.wroteNow (s : State) (reg holder : Nat) : Bool := s.wrote.contains (reg, holder)
/-- Notes a write of register `reg` of `holder` that wins over the hardware's updates of the cycle. -/
def noteWrote (reg holder : Nat) (s : State) : State := { s with wrote := (reg, holder) :: s.wrote }

/-- True when a die is in service: its memory training has ended well (R379). -/
def State.serves (s : State) (die : Nat) : Bool := s.hub.trained.contains die

/-! ## Energy (R376) -/

/-- Charges units of energy to a deal, or to none. -/
def spendUnits (e : Nat) (d : Option Nat) (s : State) : State :=
  match d with
  | some i => { s.modDeal i (fun x => { x with energy := x.energy + e }) with energyAll := s.energyAll + e }
  | none => { s with energyAll := s.energyAll + e, energyNone := s.energyNone + e }

/-- Charges n events of kind k to a deal, or to none. -/
def spend (k n : Nat) (d : Option Nat) (s : State) : State := spendUnits (n * Config.energyWeight k) d s

/-! ## Token buckets (R343 to R346) -/

/-- Who makes an access: the core it comes from, the thread, the seat that pays and is checked, its deal and hand; `packet` gives the payload bytes of the
packet that carries its data, where that is not its own: 0 where one that has been paid for carries it (R155). -/
structure Agent where
  core : Nat
  tid : Nat
  seat : Nat
  deal : Option Nat
  hand : Nat := 0
  packet : Option Nat := none
deriving DecidableEq, Repr

/-- The bucket of an arbiter; a bucket that is not listed has no tokens and lends none. -/
def Arb.bucket (a : Arb) (b : Nat) : Bucket := a.buckets.get {} b
def Arb.setBucket (a : Arb) (b : Nat) (x : Bucket) : Arb := { a with buckets := a.buckets.set b x }
/-- True when an arbiter holds a bucket; it meters no other. -/
def Arb.holds (a : Arb) (b : Nat) : Bool := a.buckets.anyVal fun x _ => x == b
/-- A bucket that comes into existence is full (R345). -/
def Bucket.fresh (r : Rate) : Bucket := { rate := r.rate, depth := r.depth, tok := r.depth }

/-- True when a request of the cost can be granted, from the bucket or by loan (R344). -/
def Arb.canGrant (a : Arb) (b cost : Nat) : Bool :=
  let x := a.bucket b
  let short := cost - x.tok
  decide (short = 0) || (decide (short ≤ a.kitty) && decide (x.debt + short ≤ x.depth))

/-- Grants a request (R344): the cost from TOK, the shortfall from the kitty as debt. -/
def Arb.grant (a : Arb) (b now cost : Nat) : Arb :=
  let x := a.bucket b
  let short := cost - x.tok
  { (a.setBucket b { x with
      tok := x.tok - cost, debt := x.debt + short, demand := true
      spent := (if x.spentAt = now then x.spent else 0) + min cost x.tok, spentAt := now }) with
    kitty := a.kitty - short, last := b, moved := a.moved + cost }

/-- Marks a bucket of which a request waits: it shows demand in this tick (R344). -/
def Arb.wait (a : Arb) (b : Nat) : Arb := a.setBucket b { a.bucket b with demand := true, waited := true }

/-- True for a waiting request that still asks: in this cycle or the one before (log 31). -/
def Waiting.asks (w : Waiting) (now : Nat) : Bool := decide (now ≤ w.asked + 1)

/-- A request waits: behind those that came before it, from the cycle in which it has asked without a break. -/
def Arb.await (a : Arb) (r : Req) (now : Nat) : Arb :=
  let live := a.queue.filter fun w => w.asks now
  let queue := if live.any fun w => w.req == r then live.map fun w => if w.req = r then { w with asked := now } else w
    else live ++ [{ req := r, since := now, asked := now }]
  { a.wait r.bucket with queue := queue }

/-- A request that waited is granted. -/
def Arb.served (a : Arb) (r : Req) (now : Nat) : Arb :=
  { a.grant r.bucket now r.cost with lastWho := r.who, queue := a.queue.filter fun w => w.req != r }

/-- True when x comes before y after the one served last. -/
def turnBefore (last x y : Nat) : Bool :=
  if decide (last < x) == decide (last < y) then decide (x < y) else decide (last < x)

/-- True when no other bucket whose request waits comes before bucket b for a loan (R344). -/
def Arb.mayLend (a : Arb) (b now : Nat) : Bool :=
  a.queue.all fun w => w.req.bucket == b || !w.asks now || !turnBefore a.last w.req.bucket b || !a.canGrant w.req.bucket w.req.cost

/-- True when no request of the same bucket to the same line came before one that still waits (R351). -/
def Arb.inOrder (a : Arb) (r : Req) (now : Nat) : Bool :=
  (a.queue.takeWhile fun w => w.req != r).all fun w =>
    w.req.who == r.who || w.req.bucket != r.bucket || w.req.line != r.line || !w.asks now

/-- True when no other requester of the same bucket that waits comes before this one in turn (R162). -/
def Arb.inTurn (a : Arb) (r : Req) (now : Nat) : Bool :=
  a.queue.all fun w => w.req.who == r.who || w.req.bucket != r.bucket || !w.asks now || !turnBefore a.lastWho w.req.who r.who
    || !a.canGrant r.bucket w.req.cost

/-- Keys of the arbiters of Table 19.2: core n is n; the others follow. -/
def channelArb (n : Nat) : Nat := 10000 + n
def injectArb (c : Nat) : Nat := 11000 + c
def copyArb (c : Nat) : Nat := 12000 + c
def hostInArb : Nat := 13000
def hostOutArb : Nat := 13001
def peerArb (p dir : Nat) : Nat := 14000 + 2 * p + dir
def dieArb (p dir : Nat) : Nat := 15000 + 2 * p + dir
def hubCopyArb : Nat := 16000
def cryptoArb : Nat := 16001
def isChannelArb (k : Nat) : Bool := decide (10000 ≤ k) && decide (k < 11000)
def isCopyArb (k : Nat) : Bool := decide (12000 ≤ k) && decide (k < 13000)

/-- Capacity C of an arbiter (Table 19.2; R364 for the die-to-die ports). -/
def arbCapacity (k : Nat) : Nat :=
  if k < 10000 then 128
  else if k < 11000 then 288
  else if k < 12000 then 128
  else if k < 13000 then 256
  else if k < 14000 then 512
  else if k < 15000 then 448
  else if k < 16000 then 256
  else if k = hubCopyArb then 256
  else 64

/-- Tokens that an arbiter moves at most in a tick: a channel 48 beyond C (R343). -/
def arbPeak (k : Nat) : Nat := if isChannelArb k then 336 else arbCapacity k

/-- True when a waiting request may be granted as aged now (R351): it has waited 4,096 cycles and still asks, its shortfall keeps DEBT within 65,535, the tick
has capacity left beyond C, no earlier request of its bucket to its line waits, and no other bucket has been granted a request from its tokens in this
cycle. -/
def Arb.agedDue (a : Arb) (w : Waiting) (now : Nat) : Bool :=
  let x := a.bucket w.req.bucket
  decide (w.since + 4096 ≤ now) && w.asks now && decide (x.debt + (w.req.cost - x.tok) ≤ 65535) && decide (a.aged + w.req.cost ≤ 48)
    && a.inOrder w.req now && a.buckets.toList.all fun p => p.1 == w.req.bucket || p.2.spentAt != now || p.2.spent == 0

/-- Grants an aged request from the capacity beyond C: what TOK does not cover is DEBT (R351). -/
def Arb.grantAged (a : Arb) (r : Req) : Arb :=
  let x := a.bucket r.bucket
  { (a.setBucket r.bucket { x with tok := x.tok - r.cost, debt := x.debt + (r.cost - x.tok), demand := true }) with
    aged := a.aged + r.cost, queue := a.queue.filter fun w => w.req != r }

/-- Tokens that the refresh of channel n takes in the tick (R334). -/
def State.refreshOf (s : State) (n : Nat) : Nat := (Config.refreshTokens s.ticks n).toNat % 33

/-- Tokens that loans and grants from buckets may move in a tick at arbiter k: at a channel all that aged grants and refresh leave, and none beyond C
while a scrub takes the rest (R334, R343). -/
def State.loanLimit (s : State) (k : Nat) : Nat :=
  if isChannelArb k then
    if (s.scrubs.get [] (k - 10000)).isEmpty then arbPeak k - (s.arb k).aged - s.refreshOf (k - 10000) else arbCapacity k
  else arbCapacity k

/-- The tokens of an arbiter's other buckets, which a loan leaves room for (R343, R346). -/
def Arb.others (a : Arb) (b : Nat) : Nat := (a.buckets.toList.map fun p => if p.1 = b then 0 else p.2.tok).foldl (· + ·) 0

/-- True when an arbiter grants a request now: from its bucket's tokens, or by a loan, when its turn has come for one, no aged request comes first, and what
the tick has left covers it beside the other buckets' tokens (R343, R344, R351). -/
def State.grants (s : State) (r : Req) : Bool :=
  let a := s.arb r.arb
  a.canGrant r.bucket r.cost && (!isChannelArb r.arb || a.inOrder r s.cycle) && (!isCopyArb r.arb || a.inTurn r s.cycle) &&
    (decide (r.cost ≤ (a.bucket r.bucket).tok) ||
      (a.mayLend r.bucket s.cycle && !(isChannelArb r.arb && a.queue.any fun w => a.agedDue w s.cycle) &&
        decide (a.moved + a.others r.bucket + r.cost ≤ s.loanLimit r.arb)))

/-- SOURCE of the link over which a grant at an arbiter sends a packet (Table 24.6): a die-to-die port's outward side, or the host link's. -/
def sendLink (k : Nat) : Option Nat :=
  if 15000 ≤ k ∧ k < 15064 then (if k % 2 = 0 then some (0x940 + (k - 15000) / 2) else none)
  else if k = hostOutArb then some 0x960 else none

/-- The function whose traffic a request carries: its partition's, or the management function's. -/
def Req.fn (r : Req) : Nat := if 2000 ≤ r.bucket then r.bucket - 2000 else (partOfSeat r.bucket).getD 0

def State.link (s : State) (k : Nat) : Link := s.links.get {} k
def State.setLink (s : State) (k : Nat) (x : Link) : State := { s with links := s.links.set k x }

/-- The port that a die-to-die port faces on the next die. -/
def facingPort (p : Nat) : Nat :=
  match p % 4 with
  | 0 => p - 16 + 1
  | 1 => p + 16 - 1
  | 2 => p - 4 + 1
  | _ => p + 4 - 1

/-- The oldest packet of a link is acknowledged (R371): it has arrived intact and in sequence, at a die-to-die port's neighbour too. -/
def acceptOldest (k : Nat) (s : State) : State :=
  let l := s.link k
  match l.unacked with
  | [] => s
  | p :: r =>
    let s1 := s.setLink k { l with unacked := r, replaying := false, replays := 0, retrained := false }
    if k < 0x960 then
      let f := 0x940 + facingPort (k - 0x940)
      s1.setLink f { s1.link f with next := p.seq + 1 }
    else s1

/-- A packet leaves by a link (R371): it takes the next sequence number and is kept until it is acknowledged, which the oldest of 64 is first. -/
def sendOn (k : Nat) (p : LinkPacket) (s : State) : State :=
  let s1 := if 64 ≤ (s.link k).unacked.length then acceptOldest k s else s
  let l := s1.link k
  s1.setLink k { l with seq := l.seq + 1, unacked := l.unacked ++ [{ p with seq := l.seq }] }

/-- The packet of a granted request on the link that it crosses; one from the host is accepted in sequence (R371). -/
def crossLink (r : Req) (s : State) : State :=
  match sendLink r.arb with
  | some k => sendOn k { vc := r.vc, fn := r.fn } s
  | none => if r.arb = hostInArb then s.setLink 0x960 { s.link 0x960 with next := (s.link 0x960).next + 1 } else s

/-- A request as granted to the transfer in hand, with its energy charged and its packet on the link (R371, R376). -/
def State.pay (r : Req) (s : State) : State :=
  let s1 := crossLink r (spendUnits r.energy r.deal s)
  { s1 with paid := s1.paid ++ [{ req := r, used := true, asked := s.cycle }] }

/-- True when a grant made before serves a request. -/
def Paid.covers (p : Paid) (r : Req) : Bool :=
  !p.used && p.req.arb == r.arb && p.req.bucket == r.bucket && p.req.line == r.line && p.req.who == r.who && decide (r.cost ≤ p.req.cost)

/-- The list with the first grant that serves a request used, where there is one. -/
def usePaid (r : Req) : List Paid → Option (List Paid)
  | [] => none
  | p :: l => if p.covers r then some ({ p with used := true } :: l) else (usePaid r l).map fun m => p :: m

/-- A request asks: it has been granted before, or its arbiter holds no bucket for it and does not meter it, or it is granted now; none where it waits. -/
def State.ask (r : Req) (s : State) : Option State :=
  match usePaid r s.paid with
  | some l => some { s with paid := l }
  | none =>
    if !(s.arb r.arb).holds r.bucket then some (s.pay r)
    else if s.grants r then some ((s.modArb r.arb fun a => a.served r s.cycle).pay r)
    else none

/-- The requests of a transfer ask in order, each at its arbiter; an error is the state in which one waits. -/
def askAll : List Req → State → Except State State
  | [], s => .ok s
  | r :: l, s =>
    match s.ask r with
    | some s1 => askAll l s1
    | none => .error (s.modArb r.arb fun a => a.await r s.cycle)

/-- The grants that the step in hand has not used: those of transfers that still wait. -/
def State.settled (s : State) : State := { s with paid := s.paid.filter fun p => !p.used }

/-- The state `o` in which a unit began, with what it has been granted up to `f`, where it waits: its grants stay, with their energy, and the lines that
its accesses have brought into slices. -/
def keepPaid (f o : State) : State :=
  (f.paid.drop o.paid.length).foldl (fun s p => spendUnits p.req.energy p.req.deal s)
    { o with arbs := f.arbs, slices := f.slices, links := f.links, paid := f.paid.map fun p =>
        { p with used := false, asked := if p.used then f.cycle else p.asked } }

/-- Makes the requests of one transfer, in the order in which it reaches their arbiters: it waits at the first that is not granted, and what it has been
granted before stays granted (R344, R359, R365). -/
def charges (l : List Req) : Act Unit := fun s =>
  match askAll l s with
  | .ok s1 => .ok ((), s1)
  | .error s1 => .error (.hold (keepPaid s1))

/-- A transfer that costs tokens at an arbiter is made once they have been granted; one without a cost asks for none. -/
def metered {α : Type} (r : Req) (act : Act α) : Act α := do
  if r.cost ≠ 0 then charges [r]
  act

/-! ## Memory bytes -/

/-- The byte at a location. -/
def readCell (m : List Host.Cell) (a : Nat) : Byte := lookupCells unlistedByte a m

/-- Writes the byte at a location, keeping the canonical form. -/
def writeCell (a : Nat) (b : Byte) : List Host.Cell → List Host.Cell
  | [] => if b = unlistedByte then [] else [(a, b)]
  | (k, v) :: r =>
    if k = a then (if b = unlistedByte then r else (a, b) :: r)
    else if a < k then (if b = unlistedByte then (k, v) :: r else (a, b) :: (k, v) :: r)
    else (k, v) :: writeCell a b r

/-- Writes bytes at consecutive locations. -/
def writeCells (a : Nat) : List Byte → List Host.Cell → List Host.Cell
  | [], m => m
  | b :: r, m => writeCells (a + 1) r (writeCell a b m)

/-- The n bytes from a location. -/
def readCells (m : List Host.Cell) (a : Nat) : Nat → List Byte
  | 0 => []
  | n + 1 => readCell m a :: readCells m (a + 1) n

/-- The value of the n bytes from a location, least significant first (R6). -/
def State.load (s : State) (a n : Nat) : Nat := bytesVal (readCells s.mem a n)

/-- The mask of n bytes from offset o of a sector. -/
def byteMask (o n : Nat) : Nat := (2 ^ n - 1) * 2 ^ o

/-- Notes bytes written in a sector: poison ends once every byte has been written (R353). -/
def clearPoison (p : NMap Nat) (a n : Nat) : NMap Nat :=
  if p.anyVal fun k _ => k == a / 64 then
    let m := p.get 0 (a / 64) ||| byteMask (a % 64) n
    if m == 2 ^ 64 - 1 then p.erase (a / 64) else p.set (a / 64) m
  else p

/-- A write at the home of n bytes ends every reservation on a doubleword it touches (R189). -/
def dropResv (a n : Nat) (t : Thread) : Thread :=
  match t.resv with
  | some r => if r.addr < a + n ∧ a < r.addr + 8 then { t with resv := none } else t
  | none => t

/-- Stores bytes at a location; the bytes lie in one sector. -/
def State.storeBytes (s : State) (a : Nat) (bs : List Byte) : State :=
  { s with
    mem := writeCells a bs s.mem
    poison := clearPoison s.poison a bs.length
    threads := s.threads.mapVals fun _ t => dropResv a bs.length t }

/-- Moves bytes into a location, which is no write of it: poison and reservations stay (R167, R189). -/
def State.setBytes (s : State) (a : Nat) (bs : List Byte) : State := { s with mem := writeCells a bs s.mem }

/-- Stores the low n bytes of a value. -/
def State.store (s : State) (a n v : Nat) : State := s.storeBytes a (bytesOf n v)

/-- Stores bytes that may span sectors, in pieces of one byte. -/
def State.storeAll (s : State) (a : Nat) : List Byte → State
  | [] => s
  | b :: r => State.storeAll (s.storeBytes a [b]) (a + 1) r

/-- Sets n bytes from a location to zero, as hardware clears banks and frames (R103, R334): any poison there ends. -/
def State.zeroBytes (s : State) (a n : Nat) : State :=
  { s with
    mem := s.mem.filter fun c => decide (c.1 < a) || decide (a + n ≤ c.1)
    poison := ⟨s.poison.cells.filter fun c => decide (c.1 < a / 64) || decide ((a + n + 63) / 64 ≤ c.1)⟩
    threads := s.threads.mapVals fun _ t => dropResv a n t }

/-- True when the sector of a location is poisoned (R353). -/
def State.poisoned (s : State) (a : Nat) : Bool := s.poison.anyVal fun k _ => k == a / 64

/-! ## The fabric (R362, R364, R365) -/

/-- Flits of a packet of n bytes: a header and the payload (R205, R362). -/
def packetFlits (n : Nat) : Nat := 1 + ceilDiv n 32

/-- The router that serves a core: its cluster's, and for a dealer core that of its die's first cluster (DESIGN CHOICE, log 15). -/
def routerOf (n : Nat) : Nat := if isDealer n then 16 * dieOf n else clusterOf n

/-- The die-to-die ports that a packet leaves by on its way between dies of the 2 × 4 mesh: along a row of four first, then across
(R362). Port 0 faces the die 4 below, 1 the die 4 above, 2 the die before, 3 the die behind. -/
def dieRoute (a b : Nat) : List Nat :=
  let x := a % 4
  let y := b % 4
  let row := a / 4 * 4
  ((List.range (y - x)).map fun i => 4 * (row + x + i) + 3) ++ ((List.range (x - y)).map fun i => 4 * (row + x - i) + 2)
    ++ if a / 4 = b / 4 then [] else [4 * (row + y) + (if a / 4 = 0 then 1 else 0)]

/-- The bucket of a partition at an arbiter that meters by partition. -/
def partBucket (seat : Nat) : Nat := match partOfSeat seat with | none => seat | some f => 2000 + f

/-- The requests of a packet of n payload bytes of an agent for a place: its injection at router `rt`, whose flits are charged to its deal, and each crossing
from one die to the next, outward at the one's port and inward at the other's, on a virtual channel (R364, R365, R376). -/
def packetFrom (rt from_ to_ : Nat) (ag : Agent) (line n vc : Nat) : List Req :=
  let k := packetFlits (if n = 0 then 0 else ag.packet.getD n)
  if ag.packet = some 0 then []
  else
    { arb := injectArb rt, bucket := ag.seat, cost := k, line := line, who := ag.tid, energy := k * Config.energyWeight 3, deal := ag.deal,
        vc := vc } :: (dieRoute from_ to_).flatMap fun p => [dieArb p 0, dieArb (facingPort p) 1].map fun a =>
        { arb := a, bucket := partBucket ag.seat, cost := k, line := line, who := ag.tid, vc := vc }

/-- The requests of a packet from an agent's core to a die. -/
def packetRequests (ag : Agent) (die line n : Nat) (vc : Nat := 0) : List Req :=
  packetFrom (routerOf ag.core) (dieOf ag.core) die ag line n vc

/-- The requests of the answer of n bytes from router `rt` of a die, for the requester's seat (DESIGN CHOICE, log 15). -/
def answerRequests (ag : Agent) (rt die line n : Nat) : List Req := packetFrom rt die (dieOf ag.core) ag line n 1

/-! ## What accesses leave behind a trap (R323, R327, R336) -/

/-- What the translation unit and the protection lookaside buffer of core n hold, with their counts. -/
def State.xlatView (s : State) (n : Nat) : (List XEntry × List Walk) × (Nat × Nat) × (List PlbEntry × Nat) :=
  let c := s.cluster (xlatOf n)
  ((c.xlat, c.walkq), (c.walks, c.xfaults), ((s.core n).plb, (s.core n).plbMiss))

/-- The state `o` in which a unit began, with what its accesses up to `f` have left in buckets, slices, translation unit and
lookaside buffer, and the A bits of the leaves they walked to: a trap withdraws none of it. -/
def keepAccesses (f o : State) : State :=
  let n := coreOf f.cur
  let o1 := { keepPaid f o with paid := f.paid }
  if f.xlatView n = o.xlatView n then o1
  else
    let u := xlatOf n
    let new := (f.cluster u).xlat.filter fun e => (o.cluster u).xlat.all fun x => x.leaf != e.leaf
    let o2 := new.foldl (fun s e => s.store e.leaf 8 (s.load e.leaf 8 ||| 8)) o1
    let o3 := o2.modCluster u fun c =>
      { c with xlat := (f.cluster u).xlat, walkq := (f.cluster u).walkq, walks := (f.cluster u).walks, xfaults := (f.cluster u).xfaults }
    o3.modCore n fun c => { c with plb := (f.core n).plb, plbMiss := (f.core n).plbMiss }

/-- Trap(cause, sub, val) of R35. -/
def trap {α : Type} (cause sub : BitVec 8) (val : Word) : Act α := fun s => .error (.trap cause sub val (keepAccesses s))
/-- Traps when `c` holds. -/
def trapIf (c : Bool) (cause sub : BitVec 8) (val : Word) : Act Unit := if c then trap cause sub val else pure ()

/-! ## Windows of Table 18.1 -/

def ownBase : Nat := 0x00F0000000000000
def scratchBase : Nat := 0x00F1000000000000
def cmBase : Nat := 0x00F2000000000000
def dealerBase : Nat := 0x00F3000000000000
def windowsEnd : Nat := 0x0100000000000000

/-- The window address of offset `off` of a core's scratchpad or reserved bank. -/
def bankAddr (n off : Nat) : Nat :=
  if isDealer n then dealerBase + (n - Config.cores) * 0x80000 + off else scratchBase + n * 0x80000 + off

/-- Where a virtual address leads (R320). `bad` names the subcause of Table 18.5. -/
inductive Place where
  | bank (n off : Nat)
  | cm (c off : Nat)
  | page
  | bad (sub : BitVec 8)
deriving DecidableEq, Repr

/-- Sorts a virtual address by Table 18.1, for an agent of core n. -/
def placeOf (n va : Nat) : Place :=
  if windowsEnd ≤ va then .bad 0x01
  else if va < ownBase then .page
  else if va < ownBase + 0x80000 then
    (if isDealer n && va - ownBase < 0x60000 then .bad 0x02 else .bank n (va - ownBase))
  else if scratchBase ≤ va ∧ va < scratchBase + 2048 * 0x80000 then
    .bank ((va - scratchBase) / 0x80000) ((va - scratchBase) % 0x80000)
  else if cmBase ≤ va ∧ va < cmBase + 128 * 2 ^ 32 then .cm ((va - cmBase) / 2 ^ 32) ((va - cmBase) % 2 ^ 32)
  else if dealerBase ≤ va ∧ va < dealerBase + 16 * 0x80000 then
    (if (va - dealerBase) % 0x80000 < 0x60000 then .bad 0x02
     else .bank (Config.cores + (va - dealerBase) / 0x80000) ((va - dealerBase) % 0x80000))
  else .bad 0x02

/-- Rewrites an own-alias address to the 0x00F1 window of core n, or the 0x00F3 window of a dealer core (R186). -/
def rewriteOwn (n : Nat) (va : Word) : Word :=
  if ownBase ≤ va.toNat ∧ va.toNat < ownBase + 0x80000 then wordOfNat (bankAddr n (va.toNat - ownBase)) else va

/-! ## Tracks and heads -/

def State.track (s : State) (c k : Nat) : Track := (s.cluster c).tracks.get {} k
def State.setTrack (s : State) (c k : Nat) (x : Track) : State :=
  s.modCluster c fun y => { y with tracks := y.tracks.set k x }
def State.modTrack (s : State) (c k : Nat) (f : Track → Track) : State := s.setTrack c k (f (s.track c k))
def Thread.head (t : Thread) (h : Nat) : Head := t.heads.get {} h
def State.setHead (s : State) (t h : Nat) (x : Head) : State :=
  s.modThr t fun th => { th with heads := th.heads.set h x }
def State.modHead (s : State) (t h : Nat) (f : Head → Head) : State := s.setHead t h (f ((s.thr t).head h))

/-! ## Leaving a track (R130, R131) -/

/-- The track loses a head: its place in the queue, and its ownership. -/
def leaveTrack (c : Nat) (r : HRef) (k : Nat) (s : State) : State :=
  s.modTrack c k fun t => { t with
    owner := if t.owner = some r then none else t.owner, queue := t.queue.filter fun q => q.2 != r }

/-- A head enters a track's queue behind those before it; heads of one cycle stand by core, thread and handle (R130). -/
def insertHead (e : Nat × HRef) : List (Nat × HRef) → List (Nat × HRef)
  | [] => [e]
  | x :: r =>
    if x.1 = e.1 ∧ 8 * e.2.tid + e.2.h.toNat < 8 * x.2.tid + x.2.h.toNat then e :: x :: r else x :: insertHead e r
def enterQueue (c k : Nat) (r : HRef) (s : State) : State :=
  s.modTrack c k fun t => { t with queue := insertHead (s.cycle, r) t.queue }

/-- A head becomes UNBOUND (columns rel and end of Table 6.3): every field takes its reset value (DESIGN CHOICE, log 14: R139 gives one at
launch alone). -/
def unbindHead (t : Nat) (h : BitVec 3) (s : State) : State :=
  let x := (s.thr t).head h.toNat
  let s1 := leaveTrack (clusterOf (coreOf t)) { tid := t, h := h } x.track.toNat s
  s1.setHead t h.toNat {}

/-- Every head of a thread becomes UNBOUND: its hand ends or it is killed. -/
def unbindHeads (t : Nat) (s : State) : State :=
  ((s.thr t).heads.toList.filter fun e => e.2.hs != .unbound).foldl (fun s e => unbindHead t (BitVec.ofNat 3 e.1) s) s

/-- A thread's save begins: every bound head is SAVED and its track released (column stop of Table 6.3). -/
def saveHeads (t : Nat) (s : State) : State :=
  ((s.thr t).heads.toList.filter fun e => e.2.hs != .unbound).foldl (fun s e =>
    let s1 := leaveTrack (clusterOf (coreOf t)) { tid := t, h := BitVec.ofNat 3 e.1 } e.2.track.toNat s
    s1.setHead t e.1 { e.2 with hs := .saved, errSaved := e.2.hs == .error, acc := none }) s

/-! ## Traps (R68, R69), gangs they dissolve (R94) -/

/-- The members of thread t's gang, leader first; empty outside a gang. -/
def State.gangMembers (s : State) (t : Nat) : List Nat :=
  let th := s.thr t
  if th.fused then
    ((List.range th.gsize.toNat).map fun i => 4 * (8 * octetOf (coreOf t) + th.gfirst.toNat + i) + t % 4).filter fun m =>
      (s.thr m).fused && (s.thr m).gfirst == th.gfirst && (s.thr m).gsize == th.gsize
  else []

/-- The other members of thread t's gang. -/
def State.gangOthers (s : State) (t : Nat) : List Nat := (s.gangMembers t).filter fun m => m != t

/-- Leaves a gang, noting how it ended: 1 split, 2 trap, 3 kill (R95). -/
def leaveGang (how : BitVec 2) (th : Thread) : Thread :=
  { th with gang := false, leader := false, fused := false, gend := how, flight := [], fq := [] }

/-- The marks of the unit in progress, as a unit that has not begun leaves them. -/
def Thread.unitEnds (th : Thread) : Thread :=
  { th with
    paid := 0, issued := false, sent := false, firm := false, waiting := false, seen := 0, lateSeen := [], deadline := none, wakeR := none, fuseWait := none
    fuseAns := none, cpWait := none, cpAns := none, barWait := none, objAns := none, txSlot := false }

/-- A save begins (R72, R131, R189): the thread's heads are SAVED, its reservation is lost, and the unit that it waited in is undone. A
member of a gang that has been dissolved leaves it (R94). -/
def beginSave (t : Nat) (s : State) : State :=
  saveHeads t (s.modThr t fun th =>
    let th := if th.fused && th.gend != 0 then leaveGang th.gend th else th
    { th.unitEnds with saving := true, saved := false, resv := none, safeStop := false })

/-- A stop request to one thread (Table 3.1). -/
def stopRequest (t : Nat) (s : State) : State :=
  let th := s.thr t
  match th.st with
  | .running => s.setThr t { th with st := .stopping, waiting := false }
  | .idle => beginSave t (s.setThr t { th with st := .stopped })
  | .parked => s.setThr t { th with st := .stopped, pmark := true }
  | .resuming => s.setThr t { th with stopPend := true }
  | .empty | .stopping | .stopped => s

/-- A wake event of an idle thread with its reason (R76): of those of one cycle the lowest reason counts, so that the thread goes on no earlier
than in the cycle after it. A thread in another state but EMPTY holds it pending, where `pending` says that its kind is held (Table 3.1). -/
def wakeThread (t : Nat) (reason : BitVec 3) (pending : Bool) (s : State) : State :=
  let th := s.thr t
  match th.st, th.wakeR with
  | .idle, _ =>
    s.setThr t { th with
      st := .running, waiting := false, wakeR := some reason, wakeAt := s.cycle, ready := max th.ready (s.cycle + 1), deadline := none }
  | .empty, _ => s
  | .running, some r =>
    if th.wakeAt = s.cycle then s.setThr t { th with wakeR := some (if reason < r then reason else r) }
    else if pending then s.setThr t { th with wake := true } else s
  | _, _ => if pending then s.setThr t { th with wake := true } else s

/-- Dissolves the gang of thread t, which leaves it. Every other member that runs completes the units it has received and
then stops; any other leaves the gang at once (R94). A thread in no gang dissolves none. Until it stops a member reads FUSED
1 with END already set (R95: DESIGN CHOICE, log 50). -/
def dissolveGang (t : Nat) (how : BitVec 2) (s : State) : State :=
  if !(s.thr t).fused then s
  else
  let s1 := (s.gangOthers t).foldl (fun s m =>
    stopRequest m (s.modThr m fun th =>
      if th.st = .running ∨ th.st = .stopping ∨ th.st = .idle then { th with gend := how } else leaveGang how th)) s
  s1.modThr t fun th => leaveGang how th

/-- True when the thread delegates the cause to its own handler (R69, R94). -/
def Thread.delegates (th : Thread) (cause : BitVec 8) : Bool :=
  !th.inTrap && !th.gang && decide (cause.toNat < 9) && th.xdeleg.getLsbD cause.toNat

/-- Trap entry (R69): XCAUSE, XVAL, XPC and XINST are written; a delegated trap goes to XTVEC with INTRAP set, any other
parks the thread and starts its save, on its way to STOPPED where a stop was asked for. -/
def takeTrap (t : Nat) (inst : IWord) (cause sub : BitVec 8) (val : Word) (s : State) : State :=
  let th := s.thr t
  let r := { th.unitEnds with
    cause := cause, causeSub := sub, xval := val, xpc := th.pc, xinst := inst, resv := none, msg := none }
  if th.delegates cause then
    s.setThr t { r with nested := false, inTrap := true, pc := th.xtvec }
  else
    let p := { r with
      nested := th.inTrap, pmark := true, postDue := true, st := .parked, stopPend := decide (th.st = .stopping) }
    dissolveGang t 2 (beginSave t (s.setThr t p))

/-- True while the thread runs a unit that its leader forwarded (R92). -/
def Thread.follows (th : Thread) : Bool := !th.fq.isEmpty && th.fuseWait.isNone

/-- A follower takes its leader's decision (R92). Where the leader's transfer trapped at a misaligned target the follower's does
too (DESIGN CHOICE, log 42). -/
def leaderTarget (th : Thread) : Act (Option Word) := do
  match th.fq with
  | u :: _ =>
    trapIf u.misaligned 2 0 u.next
    return some u.next
  | [] => return none

/-- Checks a transfer's target (R17) and answers it as NextPC. The trap's subcause is 0 (DESIGN CHOICE, log 42: the spec gives
none). A follower takes its leader's decision (R92). -/
def jumpTo (target : Word) : Act (Option Word) := do
  let th ← me
  if th.follows then leaderTarget th
  else
    trapIf (target.getLsbD 1) 2 0 target
    return some target

/-- xret's effect (R76): NextPC becomes XPC and INTRAP is cleared; outside a trap it traps with subcause 6. A follower tests
its own INTRAP (DESIGN CHOICE, log 42). -/
def trapReturn (word : IWord) : Act (Option Word) := do
  let th ← me
  trapIf (!th.inTrap) 1 6 (word.zeroExtend 64)
  let r ← jumpTo th.xpc
  modMe fun th => { th with inTrap := false }
  return r

/-! ## Issue of a unit -/

/-- The instructions that may issue while a message packet is open (R205): msg.send, msg.abort and the forms of the first
three rows of Table 2.1. -/
def openAllows : Instr → Bool
  | .msgSend _ _ _ | .msgAbort => true
  | .add _ _ _ | .sub _ _ _ | .sll _ _ _ | .slt _ _ _ | .sltu _ _ _ | .xor _ _ _ | .srl _ _ _ | .sra _ _ _ | .or _ _ _
  | .and _ _ _ | .addw _ _ _ | .subw _ _ _ | .sllw _ _ _ | .srlw _ _ _ | .sraw _ _ _ => true
  | .addi _ _ _ | .slti _ _ _ | .sltiu _ _ _ | .xori _ _ _ | .ori _ _ _ | .andi _ _ _ | .addiw _ _ _ => true
  | .slli _ _ _ | .srli _ _ _ | .srai _ _ _ | .slliw _ _ _ | .srliw _ _ _ | .sraiw _ _ _ => true
  | .lui _ _ | .auipc _ _ | .jal _ _ | .jalr _ _ _ => true
  | .bfx _ _ _ | .bfxs _ _ _ | .bfi _ _ _ | .clz _ _ | .ctz _ _ | .cpop _ _ | .rev8 _ _ => true
  | .mul _ _ _ | .mulh _ _ _ | .mulhsu _ _ _ | .mulhu _ _ _ | .mulw _ _ _ => true
  | _ => false

/-- True when a unit may not issue in the thread's open packet, by its form or as a 65th word (R205). -/
def Thread.packetBars (th : Thread) (ws : List IWord) : Bool :=
  match th.msg with
  | none => false
  | some m =>
    decide (64 < m.issued + ws.length) || !(match decode (ws.getLastD 0) with | .ok i => openAllows i | .error _ => false)

/-- True when thread t may issue a word: always on a dealer core (R78), and once its unit's target has issued. -/
def issueReady (s : State) (t : Nat) : Bool :=
  (s.thr t).issued || isDealer (coreOf t) || (s.arb (coreOf t)).canGrant ((s.thr t).seat.getD 0) 1

/-- What one word of thread t costs at its issue: a token of its seat, its count in INSTRET, its energy (R28, R66, R376). -/
def issueWord (t : Nat) (s : State) : State :=
  let th := s.thr t
  let s1 := if isDealer (coreOf t) then s else s.modArb (coreOf t) fun a => a.grant (th.seat.getD 0) s.cycle 1
  let s2 := s1.modThr t fun x => { x with instret := x.instret + 1 }
  { spend 0 1 th.deal (s2.modCore (coreOf t) fun c => { c with lastIssued := t % 4 }) with slotUsed := true }

/-- The last word of thread t's unit issues, once. -/
def issueCharge (t : Nat) (s : State) : State :=
  if (s.thr t).issued then s else (issueWord t s).modThr t fun x => { x with issued := true }

/-- A prefix word of thread t's unit issues (R28). The counters that a pfx.ord waits for are those seen at zero after it (R30). -/
def issuePrefix (t : Nat) (w : IWord) (s : State) : State :=
  let ord := match decode w with
    | .ok (.pfxOrd _) => true
    | _ => false
  (issueWord t s).modThr t fun x => { x with paid := x.paid + 1, seen := if ord then 0 else x.seen }

/-- A cycle of R67 in which thread t waits for its seat's bucket alone. -/
def bucketStall (t : Nat) (s : State) : State :=
  let s1 := s.modThr t fun th => { th with issStall := th.issStall + 1, waiting := true }
  s1.modArb (coreOf t) fun a => a.wait ((s.thr t).seat.getD 0)

/-- The words of a unit leave for every follower of its leader, once (R91). -/
def forwardUnit (t : Nat) (u : GUnit) (s : State) : State :=
  if (s.thr t).leader && !(s.thr t).sent then
    ((s.gangOthers t).foldl
      (fun s m => s.modThr m fun th => { th with flight := th.flight ++ [u] }) s).modThr t fun th => { th with sent := true }
  else s

/-- True while every follower runs (R94) and its queue of 8 words has a free entry (R91), or the unit has been forwarded. -/
def followersReady (s : State) (t k : Nat) : Bool :=
  !(s.thr t).leader || (s.thr t).sent || (s.thr t).fuseWait.isSome || (s.gangOthers t).all fun m =>
    let th := s.thr m
    (th.st == .running || th.st == .stopping) && decide (((th.flight ++ th.fq).map fun u => u.words.length).foldl (· + ·) 0 + k ≤ 8)

/-- The unit of thread t as its followers receive it. -/
def Thread.gangUnit (th : Thread) (ws : List IWord) (next : Word) : GUnit :=
  { pc := th.pc, next := next, words := ws, val := (th.wakeR.getD 0).zeroExtend 64 }

/-- The address behind a unit of thread t. -/
def Thread.behind (th : Thread) (ws : List IWord) : Word := th.pc + 4 * wordOfNat ws.length

/-- A unit completes: NextPC is its target, or the next unit (R36); a follower takes its leader's (R92). The fuse that
makes a gang is its member's own unit. -/
def retire (t : Nat) (ws : List IWord) (target : Option Word) (s : State) : State :=
  let th := s.thr t
  let own := target.getD (th.behind ws)
  let next := if th.follows then (match th.fq with | u :: _ => u.next | [] => own) else own
  let s1 := if th.fuseWait.isSome then s else forwardUnit t (th.gangUnit ws next) s
  s1.modThr t fun x => { x.unitEnds with
    pc := next, retried := [], msg := x.msg.map fun m => { m with issued := m.issued + ws.length }
    fq := if th.follows then x.fq.tail else x.fq }

/-- The forms whose wait a stop abandons, so that they run anew after a resume (R90, R118, R121, R145, R158, R182, R184, R195, R196, R198, R200, R251,
R291, R306, R314). Every other unit that has issued completes before the stop (R63). -/
def stopAbandons : Instr → Bool
  | .wcwait _ | .cbWfill _ _ _ | .cbWfree _ _ _ | .cpWait _ _ | .fenceS _ _ _ | .acq _ _ | .rel _ | .fenceEng _ => true
  | .barWait _ _ _ | .barWaitN _ _ _ | .domSync _ _ | .semWait _ _ _ | .semWaitN _ _ _ | .fuse _ _ _ | .idle _ _ => true
  | .vclaim _ _ | .vfence _ _ _ _ | .mxGo _ | .mxLda _ _ | .mxLdb _ | .mxPop _ _ | .wdEnter _ _ _ | .wdExit | .wdWait _ | .txRes _ => true
  | _ => false

/-- The forms whose target a follower takes from its leader once the leader has computed it: jal and jalr (R92). -/
def linksAhead : Instr → Bool
  | .jal _ _ | .jalr _ _ _ => true
  | _ => false

/-- What the last word of a unit decodes to satisfies p. -/
def unitIs (p : Instr → Bool) (ws : List IWord) : Bool := match decode (ws.getLastD 0) with | .ok i => p i | .error _ => false

/-- A unit that has issued waits, whether or not a stop would abandon its wait (R63). Its leader has forwarded it at its issue (R91), but for an
idle, whose reason its followers need, and for jal and jalr, whose target they need (R92). -/
def holdUnit (t : Nat) (ws : List IWord) (s : State) : State :=
  let th := s.thr t
  let s1 := if th.st = .idle ∨ th.fuseWait.isSome ∨ unitIs linksAhead ws then s else forwardUnit t (th.gangUnit ws (th.behind ws)) s
  s1.modThr t fun x => { x with waiting := true, firm := !unitIs stopAbandons ws }

/-- A unit that has issued traps: its followers have received it (R91, R94). -/
def trapUnit (t : Nat) (ws : List IWord) (cause sub : BitVec 8) (val : Word) (s : State) : State :=
  let th := s.thr t
  let u := th.gangUnit ws (if cause = 2 then val else th.behind ws)
  takeTrap t (ws.headD 0) cause sub val (forwardUnit t { u with misaligned := decide (cause = 2) } s)

/-- Runs the unit of the current thread whose words are ws (R28, R65): each word waits, holding nothing, until the unit has no
structural wait and its followers' queues, its core's issue slot and its seat's bucket let it issue; the last one then
completes, traps, or waits. A pfx.ord's own wait holds its target only (R30). A thread that lost the cycle's slot to
another is not counted as stalled by its bucket: threads whose bucket lacks a token are looked at first (R67). A word that
passes R27's checks 1 to 6 and fails check 7 is counted and charged (DESIGN CHOICE, log 13). -/
def runUnit (ws : List IWord) (act : Act (Option Word)) (s : State) : Host.Outcome State Fault Refusal :=
  let t := s.cur
  let k := (s.thr t).paid
  let last := ws.length ≤ k + 1
  let s0 := if last then s else s.modThr t fun th => { th with seen := 7 }
  if !followersReady s t ws.length then .next (s.modThr t fun th => { th with waiting := true })
  else
    match (if (s.thr t).packetBars ws then trap 15 0x0A ((ws.headD 0).zeroExtend 64) else act) s0 with
    | .error (.stall keep) => .next ((keep s).modThr t fun th => { th with waiting := true })
    | r =>
      if s.slotUsed && !(s.thr t).issued then .next (s.modThr t fun th => { th with waiting := true })
      else if !issueReady s t then .next (bucketStall t s)
      else if !last then .next (issuePrefix t (ws.getD k 0) s)
      else
        match r with
        | .ok (target, s1) => .next (retire t ws target (issueCharge t s1))
        | .error (.trap c sub v keep) => .next (trapUnit t ws c sub v (issueCharge t (keep s)))
        | .error (.stall keep) => .next (keep s)
        | .error (.hold keep) => .next (holdUnit t ws (issueCharge t (keep s)))

/-- Runs an instruction that is a unit by itself. -/
def runInstr (i : Instr) (act : Act (Option Word)) (s : State) : Host.Outcome State Fault Refusal :=
  runUnit [encode i] act s

/-- Runs a form that a dealer core does not have: its words are unassigned encodings there (R27, R141, R147, R252), whose
trap comes before an issue. -/
def runCompute (i : Instr) (act : Act (Option Word)) (s : State) : Host.Outcome State Fault Refusal :=
  if isDealer (coreOf s.cur) then .next (takeTrap s.cur (encode i) 1 0 ((encode i).zeroExtend 64) s) else runInstr i act s

/-- Runs an instruction that goes on to the next unit. -/
def runPlain (i : Instr) (act : Act Unit) (s : State) : Host.Outcome State Fault Refusal :=
  runInstr i (do act; return none) s

/-- Runs a form that a dealer core does not have and that goes on to the next unit. -/
def runComputePlain (i : Instr) (act : Act Unit) (s : State) : Host.Outcome State Fault Refusal :=
  runCompute i (do act; return none) s

/-- Runs an event: where its conditions do not hold it changes nothing, and where it waits for a bucket it keeps the
marks of the wait. -/
def runEvent (act : Act Unit) (s : State) : Host.Outcome State Fault Refusal :=
  match act s with
  | .ok (_, s1) => .next s1
  | .error (.hold keep) => .next (keep s)
  | .error _ => .next s

end Sys2Proof.Machine
end

