-- ==== Sys2Proof/Machine/Errors.lean ====
section
/-! DEFINITION. Error log records and the counters of the functions (R380, R381). -/

namespace Sys2Proof.Machine

/-- A report to the error registers (R381): CLASS, SOURCE, CAUSE, SUB, address, core field and deal SEQ. -/
structure Report where
  cls : Nat
  source : Nat
  cause : Nat := 0
  sub : Nat := 0
  addr : Word := 0
  core : Nat := 0x7FF
  seq : BitVec 32 := 0
deriving DecidableEq, Repr

/-- Doubleword 0 of a record (R381). -/
def Report.head (r : Report) (eseq : BitVec 32) : Word :=
  wordOfNat (putAt eseq.toNat 32 + putAt r.cls 28 + putAt (r.source % 4096) 16 + putAt (r.cause % 256) 8 + r.sub % 256)

/-- Enters one record in function f's log, or counts it as lost while the log is full; the counters rise either way. -/
def logIn (f : Nat) (r : Report) (eseq : BitVec 32) (s : State) : State :=
  s.modFunc f fun x =>
    let x := if r.cls = 1 then { x with corrected := (x.corrected + 1) % 2 ^ 32 }
      else if r.cls = 2 then { x with uncorrectable := (x.uncorrectable + 1) % 2 ^ 32 } else x
    if x.elogHead - x.elogTail = 256 then { x with lost := x.lost + 1 }
    else
      let k := 4 * (x.elogHead.toNat % 256)
      { x with
        elog := (((x.elog.set k (r.head eseq)).set (k + 1) r.addr).set (k + 2) (wordOfNat s.cycle)).set (k + 3)
          (wordOfNat (putAt (r.core % 2048) 32 + r.seq.toNat))
        elogHead := x.elogHead + 1 }

/-- One report to the logs of several functions carries one ESEQ (R381). -/
def report (fs : List Nat) (r : Report) (s : State) : State :=
  let e := s.hub.eseq
  let s1 := fs.foldl (fun s f => logIn f r e s) s
  { s1 with hub := { s1.hub with eseq := e + 1 } }

/-- SOURCE of a core, and of a channel (Table 24.6). -/
def sourceOfCore (n : Nat) : Nat := n
def sourceOfChannel (n : Nat) : Nat := 0x900 + n

/-- The functions whose registers a core reports to: its partition's, or function 0 for a dealer core. -/
def State.funcOfCore (s : State) (n : Nat) : List Nat := [(s.partOfCore n).getD 0]

/-- The core field of the last doubleword of a fault record (Table 3.3): the core number, or die and index. -/
def coreField (n : Nat) : Nat :=
  if isDealer n then putAt ((n - Config.cores) / 2) 8 + (n - Config.cores) % 2 else n

/-- SOURCE of a cluster's track store, expander, copy unit or translation unit (Table 24.6). -/
def sourceOfCluster (c : Nat) : Nat := 0x880 + c

/-- The report that arises from a trap of thread t (R381). -/
def reportTrap (t : Nat) (cause sub : BitVec 8) (val : Word) (s : State) : State :=
  let n := coreOf t
  let seq := match (s.thr t).deal with
    | some d => (s.deal d).seq
    | none => 0
  report (s.funcOfCore n)
    { cls := 2, source := sourceOfCore n, cause := cause.toNat, sub := sub.toNat, addr := val
      core := coreField n, seq := seq } s

end Sys2Proof.Machine
end

