-- ==== Sys2Proof/Machine/Cache.lean ====
section
/-! DEFINITION. The L2 slices (R348, R350), page walks and rights (R321 to R329), the first-level cache with its victim
space (R98 to R101), write-back and dropping of blocks, signatures of sectors (R178, R179), and remote stores in flight
(R113 to R117). -/

namespace Sys2Proof.Machine

/-- Thread t as an agent. -/
def State.agent (s : State) (t : Nat) : Agent :=
  { core := coreOf t, tid := t, seat := (s.thr t).seat.getD 0, deal := (s.thr t).deal
    hand := (s.thr t).hand.toNat }

/-- The current thread as an agent. -/
def meAgent : Act Agent := fun s => .ok (s.agent s.cur, s)

/-- Why an access fails: an address fault of Table 18.5, a data error of Table 19.5, or a faulted copy channel that holds
the bytes (R157). -/
inductive Bad where
  | addr (sub : BitVec 8)
  | data (sub : BitVec 8)
  | misaligned
  | channel (e : Nat)
deriving DecidableEq, Repr

/-! ## L2 slices -/

/-- The bucket that pays at channel n: the seat's, or that of the borrowing partition's read-only window (R352). -/
def State.channelBucket (s : State) (seat n : Nat) : Nat :=
  match partOfSeat seat with
  | none => seat
  | some f => if s.partOfNode n = some f then seat else 2000 + f

/-- True for a seat of the partition that covers slice n: no other takes part in the sharing of its ways (R348, R352). -/
def State.sharesWays (s : State) (seat n : Nat) : Bool := (partOfSeat seat).isSome && s.partOfNode n == partOfSeat seat

/-- The ways of slice n that a seat holds and may fill (R348). -/
def State.waysHeld (s : State) (seat n : Nat) : List Nat :=
  if s.sharesWays seat n then
    (List.range 16).filter fun w => (s.slice n).holders.get 9999 w == seat
  else []

/-- The way of a set that a miss of the agent fills: a free one that its seat holds, or the least recently used it may take, with the
line that leaves it (R348). -/
def victimWay (held : List Nat) (lines : List L2Line) : Option (Nat × Option L2Line) :=
  match held.find? fun w => lines.all fun y => y.way != w with
  | some w => some (w, none)
  | none => (lines.find? fun y => held.contains y.way && y.pinned.isEmpty).map fun v => (v.way, some v)

/-- The request of a line's transfer at channel n for a seat, with the energy of kind k (R350, R376). -/
def State.lineRequest (s : State) (ag : Agent) (n seat line k : Nat) : Req :=
  { arb := channelArb n, bucket := s.channelBucket seat n, cost := 2, line := line + 1, who := ag.tid, energy := Config.energyWeight k, deal := ag.deal }

/-- An access of a GDDR line at its L2 slice: a hit is served whatever way holds it; a miss is paid at the channel, with the write-back
of a dirty victim, and fills a way of the seat (R344, R348, R350). A store to a clean copy makes it dirty whole, and its write-back ends poison that
lies beneath it (R353). `pre` holds the requests of the packet that carries it, and `post` those of its
answer. -/
def l2Access (ag : Agent) (pa : Nat) (store : Bool) (pre : List Req := []) (post : List Req := []) : Act Unit := do
  let n := pa / Config.channelBytes
  let line := pa / 64 * 64
  let ix := pa / 64 % 16384
  let lines ← look fun s => (s.slice n).sets.get [] ix
  match lines.find? fun x => x.addr == line with
  | some x =>
    charges (pre ++ post)
    let x1 := if store then { x with dirty := true, seat := ag.seat, good := false } else x
    if store && x.good then upd fun s => { s with poison := s.poison.erase (line / 64) }
    upd fun s => s.modSlice n fun z => { z with sets := z.sets.set ix ((lines.filter fun y => y.addr != line) ++ [x1]) }
  | none =>
    upd fun s => if s.sharesWays ag.seat n then s.modSlice n fun z =>
      { z with demand := if z.demand.contains ag.seat then z.demand else z.demand ++ [ag.seat] } else s
    let held ← look fun s => s.waysHeld ag.seat n
    let place := victimWay held lines
    let out := match place with
      | some (_, some v) => if v.dirty then some v else none
      | _ => none
    charges (pre ++ (← look fun s => s.lineRequest ag n ag.seat line 1 :: (out.map fun v => s.lineRequest ag n v.seat v.addr 2).toList) ++ post)
    match place with
    | none => pure ()
    | some (w, v) =>
      let kept := match v with
        | some v => lines.filter fun y => y.addr != v.addr
        | none => lines
      let line1 : L2Line := { addr := line, way := w, dirty := store, seat := ag.seat }
      upd fun s => s.modSlice n fun z => { z with sets := z.sets.set ix (kept ++ [line1]) }

/-- The line of a slice that holds a physical address. -/
def State.lineAt (s : State) (a : Nat) : Option L2Line :=
  ((s.slice (a / Config.channelBytes)).sets.get [] (a / 64 % 16384)).find? fun x => x.addr == a / 64 * 64

/-- Changes the line of a slice that holds a physical address, where there is one. -/
def State.modLine (s : State) (a : Nat) (f : L2Line → L2Line) : State :=
  s.modSlice (a / Config.channelBytes) fun z =>
    { z with sets := z.sets.set (a / 64 % 16384) ((z.sets.get [] (a / 64 % 16384)).map fun x => if x.addr = a / 64 * 64 then f x else x) }

/-- The subcause of Table 19.5 for poison that an access of a location meets, none where it meets none: a clean line that a slice held before its
sector was poisoned in GDDR is good (R353). -/
def State.poisonAt (s : State) (a : Nat) : Option (BitVec 8) :=
  if !s.poisoned a then none
  else if scratchBase ≤ a then some (if cmBase ≤ a ∧ a < dealerBase then 0x04 else 0x03)
  else if Config.hostBit ≤ a then some 0x06
  else
    match s.lineAt a with
    | some x => if x.good then none else some (if x.poisoned then 0x02 else 0x01)
    | none => some 0x01

/-- The requests of a packet of n payload bytes at the host link, in a direction; the flits of an answer are charged there (R368, R376). -/
def hostRequests (ag : Agent) (arb pa n : Nat) (vc : Nat := 0) : List Req :=
  let k := packetFlits (if n = 0 then 0 else ag.packet.getD n)
  if ag.packet = some 0 then []
  else [{ arb := arb, bucket := ag.seat, cost := k, line := pa + 1, who := ag.tid, deal := ag.deal, vc := vc
          energy := if arb = hostInArb then k * Config.energyWeight 3 else 0 }]

/-- The requests of a packet of n payload bytes from an agent to a home address: its way through the fabric, and the host link
(R364, R365, R368). -/
def homeRequests (ag : Agent) (pa n : Nat) : List Req :=
  if pa < Config.hostBit then packetRequests ag (pa / Config.channelBytes / 4) (pa + 1) n
  else packetRequests ag (dieOf ag.core) (pa + 1) n ++ hostRequests ag hostOutArb pa n

/-- The requests of a home's answer of n bytes: from the router of a channel's node, the first of its four clusters, or through the host link
(R365, R368; DESIGN CHOICE, log 15). -/
def homeAnswers (ag : Agent) (pa n : Nat) : List Req :=
  if pa < Config.hostBit then answerRequests ag (4 * (pa / Config.channelBytes)) (pa / Config.channelBytes / 4) (pa + 1) n
  else hostRequests ag hostInArb pa n

/-- A read at the home of a physical address, by a packet of k payload bytes: the L2 slice, or the host link's ordering point, whose answer comes inward
(R168, R368). -/
def readHome (ag : Agent) (pa n : Nat) (k : Nat := 0) : Act (Except Bad Nat) := do
  let pre := homeRequests ag pa k
  if pa < Config.hostBit then l2Access ag pa false pre (homeAnswers ag pa n) else charges (pre ++ homeAnswers ag pa n)
  match ← look fun s => s.poisonAt pa with
  | some sub => return .error (.data sub)
  | none => return .ok (← look fun s => s.load pa n)

/-! ## Rights (R325 to R327) -/

/-- Address of a seat's rights table: its configuration's RTBASE, or the dealer seats' one table (R78). -/
def State.rtBase (s : State) (seat : Nat) : Nat :=
  if 1024 ≤ seat then s.dealerRt.toNat else (s.seat seat).cfg.rtbase.toNat

/-- The rights nibble of a domain for the agent's seat, through its core's protection lookaside buffer; domain 0 grants
none. A buffer miss reads the nibble and enters it. A core that is STALE drops its buffer first (R333). -/
def rightsOf (ag : Agent) (dom : BitVec 16) : Act (Except Bad (BitVec 4)) := do
  if dom = 0 then return .ok 0
  if ← look fun s => (s.core ag.core).stale then upd fun s => s.modCore ag.core fun c => { c with plb := [], stale := false }
  let plb ← look fun s => (s.core ag.core).plb
  match plb.find? fun e => e.seat == ag.seat && e.dom == dom with
  | some e =>
    upd fun s => s.modCore ag.core fun c =>
      { c with plb := (c.plb.filter fun x => !(x.seat == ag.seat && x.dom == dom)) ++ [e] }
    return .ok e.nib
  | none =>
    let base ← look fun s => s.rtBase ag.seat
    match ← readHome { ag with packet := none } (base + dom.toNat / 2) 1 with
    | .error b =>
      upd fun s => s.modCore ag.core fun c => { c with plbMiss := c.plbMiss + 1 }
      return .error b
    | .ok v =>
      let nib : BitVec 4 := BitVec.ofNat 4 (if dom.toNat % 2 = 1 then v / 16 else v)
      upd fun s => s.modCore ag.core fun c =>
        let kept := if c.plb.length < 64 then c.plb else c.plb.tail
        { c with plb := kept ++ [{ seat := ag.seat, dom := dom, nib := nib }], plbMiss := c.plbMiss + 1 }
      return .ok nib

/-- Rights of Table 18.4 as bits of a nibble: R, W, X, D. -/
def needR : BitVec 4 := 1
def needW : BitVec 4 := 2
def needRW : BitVec 4 := 3
def needX : BitVec 4 := 4
def needD : BitVec 4 := 8

/-- Checks a right on a domain (R326). -/
def checkRight (ag : Agent) (dom : BitVec 16) (need : BitVec 4) : Act (Except Bad Unit) := do
  match ← rightsOf ag dom with
  | .error b => return .error b
  | .ok nib => return if nib &&& need = need then .ok () else .error (.addr 0x04)

/-! ## Page walks (R321 to R324, R328) -/

/-- Index of a virtual address at a level (Table 18.2). -/
def pteIndex (level va : Nat) : Nat :=
  if level = 4 then va / 2 ^ 48 % 256
  else if level = 3 then va / 2 ^ 39 % 512
  else if level = 2 then va / 2 ^ 30 % 512
  else if level = 1 then va / 2 ^ 21 % 512
  else va / 2 ^ 16 % 32

/-- log2 of the page size of a leaf at a level (Table 18.2). -/
def pageBits (level : Nat) : Nat := if level = 2 then 30 else if level = 1 then 21 else 16

/-- Alignment of the table of a level (Table 18.2). -/
def tableAlign (level : Nat) : Nat := if level = 0 then 256 else 4096

/-- A leaf found by a walk: the entry's address and value and log2 of its page size. -/
structure Leaf where
  at_ : Nat
  pte : Word
  bits : Nat
deriving DecidableEq, Repr

/-- What one table entry answers at a level (R323): a fault, a leaf, or the next table's address. -/
inductive PteStep where
  | fault (sub : BitVec 8)
  | leaf (bits : Nat)
  | table (a : Nat)
deriving DecidableEq, Repr

/-- Reads one table entry as R323 does; `cm` for a cluster-memory window, whose leaf must hold a zero frame (R324). -/
def pteStep (cm : Bool) (level : Nat) (pte : Word) : PteStep :=
  let reserved := bitsOf pte 7 4 != 0 || pte.getLsbD 2
  let frame := bitsOf pte 47 16 * 65536
  if !pte.getLsbD 0 then .fault 0x03
  else if pte.getLsbD 1 then
    if 2 < level || frame % 2 ^ pageBits level != 0 || reserved
        || (cm && frame != 0) || (!cm && decide (frame < Config.hostBit) && decide (Config.gddrTop ≤ frame)) then
      .fault 0x08
    else .leaf (pageBits level)
  else if level = 0 || reserved || bitsOf pte 63 48 != 0
      || bitsOf pte 47 8 * 256 % tableAlign (level - 1) != 0 then .fault 0x08
  else .table (bitsOf pte 47 8 * 256)

/-- The walk from a table entry at a level (R323). A poisoned entry is a data error of subcause 0x05. -/
def walkFrom (ag : Agent) (va : Nat) (cm : Bool) : Nat → Nat → Act (Except Bad Leaf)
  | 0, ea => do
    match ← readHome { ag with packet := none } ea 8 with
    | .error _ => return .error (.data 0x05)
    | .ok v =>
      match pteStep cm 0 (wordOfNat v) with
      | .leaf b => return .ok { at_ := ea, pte := wordOfNat v, bits := b }
      | .fault sub => return .error (.addr sub)
      | .table _ => return .error (.addr 0x08)
  | level + 1, ea => do
    match ← readHome { ag with packet := none } ea 8 with
    | .error _ => return .error (.data 0x05)
    | .ok v =>
      match pteStep cm (level + 1) (wordOfNat v) with
      | .leaf b => return .ok { at_ := ea, pte := wordOfNat v, bits := b }
      | .fault sub => return .error (.addr sub)
      | .table a => walkFrom ag va cm level (a + 8 * pteIndex level va)

/-- The read-only windows through which a partition borrows, in whichever configuration (R352). -/
def State.borrows (s : State) (f : Nat) : List RoWindow := s.parts.toList.flatMap fun p => p.2.windows.filter fun w => w.borrower == f

/-- The frame check of R334 for an agent: held by its partition, or borrowed through a read-only window, or any held
frame for a dealer core. Answers whether the frame is borrowed. -/
def State.frameCheck (s : State) (ag : Agent) (pa : Nat) : Option Bool :=
  if Config.hostBit ≤ pa then some false
  else
    match s.frame (pa / 65536), partOfSeat ag.seat with
    | .held _, none => some false
    | .held g, some f =>
      if g = f then some false
      else if (s.borrows f).any fun w =>
          w.owner == g && decide (w.frames.base ≤ pa / 65536) && decide (pa / 65536 < w.frames.base + w.frames.count)
        then some true
      else none
    | _, _ => none

/-- A translation as an access uses it: home address, domain, whether the frame is borrowed, and the size of the page. -/
structure Xlated where
  pa : Nat
  dom : BitVec 16
  borrowed : Bool
  size : Nat := 0x10000
deriving DecidableEq, Repr

/-- Counts a walk that faulted in the translation unit (R336). -/
def countFault (u : Nat) : Act Unit := upd fun s => s.modCluster u fun c => { c with xfaults := c.xfaults + 1 }

/-- The leaf to which the page tables lead from an entry, with the page's bits, none where they lead to no leaf. -/
def State.leafAt (s : State) (va : Nat) (cm : Bool) : Nat → Nat → Option (Nat × Word)
  | 0, ea =>
    match pteStep cm 0 (wordOfNat (s.load ea 8)) with
    | .leaf b => some (b, wordOfNat (s.load ea 8))
    | _ => none
  | level + 1, ea =>
    match pteStep cm (level + 1) (wordOfNat (s.load ea 8)) with
    | .leaf b => some (b, wordOfNat (s.load ea 8))
    | .fault _ => none
    | .table a => State.leafAt s va cm level (a + 8 * pteIndex level va)

/-- The leaf of the page of an address (R323). -/
def State.leafOf (s : State) (va : Nat) (cm : Bool) : Option (Nat × Word) := s.leafAt va cm 4 (s.root.toNat + 8 * pteIndex 4 va)

/-- The size of the page of a miss, which the walks that it may join have (R328; DESIGN CHOICE, log 43). -/
def State.missPage (s : State) (va : Nat) (cm : Bool) : Nat := 2 ^ ((s.leafOf va cm).map fun l => l.1).getD 16

/-- The walk in a translation unit's queue for the page of an address. -/
def Cluster.walkOf (c : Cluster) (va : Nat) : Option Walk := c.walkq.find? fun w => decide (w.page ≤ va) && decide (va < w.page + w.size)

/-- A miss enters the queue of its translation unit, or joins the walk of its page; it holds until a walker runs that walk. With 512
misses queued it waits outside (R328). The walk then ends with it. -/
def awaitWalker (ag : Agent) (va : Nat) (cm : Bool) : Act Unit := do
  let u := xlatOf ag.core
  match ← look fun s => (s.cluster u).walkOf va with
  | some w =>
    if !w.running then hold
    upd fun s => s.modCluster u fun c => { c with walkq := c.walkq.filter fun x => x.page != w.page }
  | none =>
    if 512 ≤ (← look fun s => ((s.cluster u).walkq.filter fun w => !w.running).length) then stall
    holdKeep fun s => s.modCluster u fun c =>
      let size := s.missPage va cm
      { c with walkq := c.walkq ++ [{ page := va / size * size, size := size, seat := ag.seat, since := s.cycle }] }

/-- The walkers of translation unit u (R328): the oldest queued walk starts where one of sixteen is free and its seat runs fewer than
eight, or no miss of another seat waits. A walk whose access no longer waits for it ends after 256 cycles (DESIGN CHOICE, log 43). -/
def startWalk (u : Nat) (s : State) : State :=
  let q := (s.cluster u).walkq
  let queued := q.filter fun w => !w.running
  let running := q.filter fun w => w.running
  let may := fun (w : Walk) => decide ((running.filter fun r => r.seat == w.seat).length < 8) || queued.all fun x => x.seat == w.seat
  let kept := q.filter fun w => !(w.running && decide (w.since + 256 ≤ s.cycle))
  if kept.length < q.length then s.modCluster u fun c => { c with walkq := kept }
  else if 16 ≤ running.length then s
  else
    match queued.find? may with
    | none => s
    | some w => s.modCluster u fun c => { c with walkq := q.map fun x => if x.page = w.page then { w with running := true, since := s.cycle } else x }

/-- A walk for an access (R323): frame check, rights, then the A bit and the entry in the translation unit. -/
def walk (ag : Agent) (va : Nat) (need : BitVec 4) (cm : Bool) : Act (Except Bad Xlated) := do
  let u := xlatOf ag.core
  let root ← look fun s => s.root.toNat
  match ← walkFrom ag va cm 4 (root + 8 * pteIndex 4 va) with
  | .error b => countFault u; return .error b
  | .ok l =>
    let size := 2 ^ l.bits
    let frame := bitsOf l.pte 47 16 * 65536
    let dom : BitVec 16 := BitVec.ofNat 16 (bitsOf l.pte 63 48)
    let chk ← look fun s => if cm then some false else s.frameCheck ag frame
    match chk with
    | none => countFault u; return .error (.addr 0x05)
    | some borrowed =>
      if borrowed && (need &&& needW == needW) then countFault u; return .error (.addr 0x09)
      match ← checkRight ag dom need with
      | .error b => countFault u; return .error b
      | .ok _ =>
        upd fun s =>
          let s1 := s.store l.at_ 8 (l.pte ||| 8).toNat
          s1.modCluster u fun c => { c with
            walks := c.walks + 1
            xlat := (if c.xlat.length < 4096 then c.xlat else c.xlat.tail) ++
              [{ leaf := l.at_, page := va / size * size, size := size, frame := frame, dom := dom, borrowed := borrowed }] }
        return .ok { pa := if cm then va else frame + va % size, dom := dom, borrowed := borrowed, size := size }

/-- Translates an access through the core's translation unit (R328). -/
def translate (ag : Agent) (va : Nat) (need : BitVec 4) (cm : Bool := false) : Act (Except Bad Xlated) := do
  let u := xlatOf ag.core
  let xs ← look fun s => (s.cluster u).xlat
  match xs.find? fun e => decide (e.page ≤ va) && decide (va < e.page + e.size) with
  | none =>
    awaitWalker ag va cm
    walk ag va need cm
  | some e =>
    upd fun s => s.modCluster u fun c => { c with xlat := (c.xlat.filter fun x => x != e) ++ [e] }
    if e.borrowed && (need &&& needW == needW) then return .error (.addr 0x09)
    match ← checkRight ag e.dom need with
    | .error b => return .error b
    | .ok _ => return .ok { pa := if cm then va else e.frame + va % e.size, dom := e.dom, borrowed := e.borrowed, size := e.size }

/-! ## Signatures (R178, R179) -/

/-- Rotation of an 8-bit value left by j. -/
def rot8 (c j : Nat) : Nat := (c * 2 ^ (j % 8) + c / 2 ^ (8 - j % 8)) % 256

/-- The two bits of the sector of a virtual address. -/
def sectorBits (va : Nat) : BitVec 512 :=
  let s := va / 64 % 2 ^ 50
  let cs := (List.range 7).map fun j => (j, s / 2 ^ (8 * j) % 256)
  let h1 := cs.foldl (fun h c => h ^^^ c.2) 0
  let h2 := cs.foldl (fun h c => h ^^^ rot8 c.2 c.1) 0
  BitVec.ofNat 512 (2 ^ h1 ||| 2 ^ (256 + h2))

/-- True when both bits of the sector are set. -/
def sigMatches (sig : BitVec 512) (va : Nat) : Bool := sectorBits va &&& sig == sectorBits va

/-- A store of the agent to a GDDR address sets its sector in the seat's signature on the core (R178). -/
def noteSector (ag : Agent) (va : Nat) : Act Unit := upd fun s =>
  s.modCore ag.core fun c => { c with sigs := c.sigs.set ag.seat (c.sigs.get 0 ag.seat ||| sectorBits va) }

/-- ORs a signature into the seat's signature on a core. -/
def orSig (n seat : Nat) (sig : BitVec 512) (s : State) : State :=
  s.modCore n fun c => { c with sigs := c.sigs.set seat (c.sigs.get 0 seat ||| sig) }

/-! ## Remote stores in flight (R113 to R117) -/

/-- Destination class of a home address: GDDR on the core's own die wc2, other dies and the host wc3 (R113). -/
def classOfHome (n pa : Nat) : BitVec 2 :=
  if pa < Config.hostBit ∧ pa / Config.channelBytes / 4 = dieOf n then 2 else 3

/-- Destination class of another core's or cluster's memory. -/
def classOfCore (n m : Nat) : BitVec 2 :=
  if !isDealer n && !isDealer m && clusterOf n == clusterOf m then 1 else if dieOf n = dieOf m then 2 else 3

/-- The destination that orders stores to a home address (R115). -/
def destOfHome (pa : Nat) : Nat := if pa < Config.hostBit then 4096 + pa / Config.channelBytes else 9000

/-- The die on which an address has its home; the host link's is reached from the agent's own die. -/
def dieOfAddr (n a : Nat) : Nat :=
  match placeOf n a with
  | .bank m _ => dieOf m
  | .cm c _ => dieOfCluster c
  | _ => if a < Config.hostBit then a / Config.channelBytes / 4 else dieOf n

/-- The place of the next packet that leaves core n, behind those that have left and not performed. -/
def Core.nextPlace (c : Core) : Nat := (c.rstores.map fun r => r.inj).foldl max 0 + 1

/-- Issues a remote store: it takes an entry of the core's table of 64, or waits for one (R116). One that a write binding makes
waits for the copy unit too (R152); a message packet has been sent when it closed (R205). -/
def issueRemote (ag : Agent) (cls : BitVec 2) (dest addr : Nat) (kind : RKind) (slot : Option Nat := none) (cost : Nat := 0) :
    Act Unit := do
  if 64 ≤ (← look fun s => (s.core ag.core).rstores.length) then stall
  let closed := match kind with
    | .packet _ _ => true
    | _ => false
  upd fun s => s.modCore ag.core fun c => { c with
    rstores := c.rstores ++ [{ tid := ag.tid, seat := ag.seat, deal := ag.deal, hand := ag.hand, cls := cls, dest := dest
                               addr := addr, kind := kind, slot := slot, sent := closed, cost := cost
                               inj := if closed then c.nextPlace else 0 }] }

/-- A write counter of a seat on a core (R117). -/
def Core.writeCounter (c : Core) (seat : Nat) (cls : BitVec 2) : Nat :=
  (c.rstores.filter fun r => r.seat == seat && r.cls == cls).length

/-- Bytes from its address that a remote store writes. -/
def RKind.size (k : RKind) : Nat :=
  match k with
  | .store n _ => n
  | .add _ => 8
  | .pub _ _ _ => 128
  | .packet ws _ => 8 * ws.length
def RStore.size (r : RStore) : Nat := r.kind.size

/-- The pieces of memory that a remote store writes: home address and bytes. A packet for a mailbox writes none by its address. -/
def RStore.pieces (r : RStore) : List (Nat × Nat) :=
  match r.kind with
  | .packet _ hs => hs.map fun h => (h, 8)
  | k => [(r.addr, k.size)]

/-- True when a remote store writes some of n bytes from address a. -/
def RStore.overlaps (r : RStore) (a n : Nat) : Bool := r.pieces.any fun p => decide (p.1 < a + n) && decide (a < p.1 + p.2)

/-- The virtual channel that carries a remote store: requests, or messages (R362). -/
def RStore.isMessage (r : RStore) : Bool :=
  match r.kind with
  | .packet _ _ => true
  | _ => false

/-- What a remote store does to memory bytes at its home: a store, the add of rsa, or the two updates of sig.pub. The
update of poisoned bytes leaves them poisoned. -/
def applyKind (a : Nat) (k : RKind) (s : State) : State :=
  match k with
  | .store n v => s.store a n v
  | .add v => if (s.poisonAt a).isSome then s else s.store a 8 (s.load a 8 + v.toNat)
  | .pub additive v sig =>
    let s1 := if additive && (s.poisonAt a).isSome then s else
      s.store a 8 (if additive then s.load a 8 + v.toNat else v.toNat)
    s1.storeBytes (a + 64) (bytesOf 64 (s.load (a + 64) 64 ||| sig.toNat))
  | .packet ws hs => (hs.zip ws).foldl (fun s x => s.store x.1 8 x.2.toNat) s

/-- True when an address lies in a GDDR frame that is HELD, or on the host (R334). -/
def State.held (s : State) (pa : Nat) : Bool :=
  decide (Config.hostBit ≤ pa) || match s.frame (pa / 65536) with
    | .held _ => true
    | _ => false

/-- The report of a write that reaches a frame which is not HELD (R334, Table 24.7). -/
def lateReport (s : State) (pa : Nat) : State :=
  let n := pa / Config.channelBytes
  report [(s.partOfNode n).getD 0]
    { cls := 2, source := sourceOfChannel n, sub := 3, addr := wordOfNat (pa / 64 * 64) } s

/-- The agent of a remote store of core n. -/
def RStore.agent (n : Nat) (r : RStore) : Agent := { core := n, tid := r.tid, seat := r.seat, deal := r.deal, hand := r.hand }

/-- The accesses of the lines that a piece of a remote store writes. -/
def storeLines (ag : Agent) (a size : Nat) (pre : List Req) : Act Unit := do
  if a < Config.hostBit then
    for i in List.range (size / 64 + 1) do
      if i = 0 ∨ 64 * i < size then l2Access ag (a + 64 * i) true (if i = 0 then pre else [])
  else charges pre

/-- Performs a remote store whose home is memory bytes (R168). One that reaches a frame which is not HELD is lost: its line never
reaches the frame (R334). `pre` holds the requests of the packet that carries it, and `post` those of its answer. -/
def performMem (n : Nat) (r : RStore) (pre : List Req := []) (post : List Req := []) : Act Unit := do
  if !(← look fun s => s.held r.addr) then upd fun s => lateReport s r.addr
  else
    for p in r.pieces do storeLines (r.agent n) p.1 p.2 pre
    charges post
    upd (applyKind r.addr r.kind)

/-- Marks the entry at index i of a core's table as performed. -/
def markPerformed (n i : Nat) (s : State) : State :=
  s.modCore n fun c => match c.rstores[i]? with
    | some r => { c with rstores := setL c.rstores i { r with performed := true } }
    | none => c

/-- Numbers with a key each, in the order of their keys. -/
def insertPlace (x : Nat × Nat) : List (Nat × Nat) → List (Nat × Nat)
  | [] => [x]
  | y :: r => if y.1 ≤ x.1 then y :: insertPlace x r else x :: y :: r

/-- The stores of a core to a destination that have left it and not performed, messages aside, by index in the order in which they left (R363). -/
def Core.sentTo (c : Core) (dest : Nat) : List Nat :=
  let due := ((List.range c.rstores.length).zip c.rstores).filter fun x => x.2.sent && !x.2.performed && x.2.dest == dest && !x.2.isMessage
  ((due.map fun x => (x.2.inj, x.1)).foldl (fun l x => insertPlace x l) []).map fun x => x.2

/-- Before a packet of core n reaches a home address: the stores to its destination that left the core before perform, in that order (R115, R363), and
one to the same bytes that has not left or is a message is waited for, so that bytes enter coherence order in program order (R172). -/
def performBefore (n a len : Nat) : Act Unit := do
  let c ← look fun s => s.core n
  if c.rstores.any fun r => !r.performed && r.overlaps a len && (!r.sent || r.isMessage) then hold
  for i in c.sentTo (destOfHome a) do
    performMem n (c.rstores.getD i {})
    upd (markPerformed n i)

/-- A load of the thread waits while one of its own remote stores to the doubleword is unacknowledged (R116). -/
def waitOwnStores (ag : Agent) (a n : Nat) : Act Unit := do
  let c ← look fun s => s.core ag.core
  if c.rstores.any fun r => r.tid == ag.tid &&
    r.pieces.any fun p => decide (p.1 / 8 * 8 < a + n) && decide (a < (p.1 + p.2 + 7) / 8 * 8) then hold

/-! ## The first-level cache and victim space (R97 to R101) -/

/-- Set of an address (R98). -/
def setOf (va : Nat) : Nat := va / 64 % 1024

def Block.end_ (b : Block) : Nat := b.va + 8 * b.words
/-- True when the block holds the byte of an address. -/
def Block.holds (b : Block) (va : Nat) : Bool := decide (b.va ≤ va) && decide (va < b.end_)
/-- True when the block overlaps a range of addresses. -/
def Block.overlaps (b : Block) (a len : Nat) : Bool := decide (b.va < a + len) && decide (a < b.end_)

def Core.set (c : Core) (ix : Nat) : L1Set := c.l1.get {} ix
def State.modSet (s : State) (n ix : Nat) (f : L1Set → L1Set) : State :=
  s.modCore n fun c => { c with l1 := c.l1.set ix (f (c.set ix)) }

/-- The banks of a core that no group takes (R101). -/
def Core.freeBanks (c : Core) : List Nat :=
  (List.range 48).filter fun b => !c.groups.any fun g => decide (g.base ≤ b) && decide (b < g.base + g.size)

/-- The predictor's update when a block leaves the cache (R99). -/
def leavePredictor (b : Block) (c : Core) : Core :=
  match b.pred with
  | none => c
  | some e =>
    let v := c.pred.get 3 e
    let k := popCount b.words b.accessed
    if k = b.words then { c with pred := c.pred.set e (min 3 (v + 1)) }
    else if 2 * k ≤ b.words then { c with pred := c.pred.set e (v - 1) }
    else c

/-- The positions of the dirty bytes of a block, with their values. -/
def Block.dirtyBytes (b : Block) : List (Nat × Byte) :=
  ((List.range b.data.length).zip b.data).filter fun x => b.dirty.testBit x.1

/-- Writes back the dirty bytes of a block to its home (R170). A write-back to a frame that is not HELD is discarded and
reported (R334); a poisoned copy carries its poison into the slice's line (R353). -/
def writeBack (ag : Agent) (b : Block) : Act Unit := do
  if b.dirty = 0 then return ()
  performBefore ag.core b.home (8 * b.words)
  if ← look fun s => s.held b.home then
    let by_ := { ag with seat := b.seat }
    l2Access by_ b.home true (homeRequests by_ b.home (popCount b.data.length b.dirty)) (homeAnswers by_ b.home 0)
    upd fun s =>
      let s1 := b.dirtyBytes.foldl (fun s x => s.storeBytes (b.home + x.1) [x.2]) s
      if b.poisoned then { s1 with poison := s1.poison.set (b.home / 64) 0 }.modLine b.home fun x => { x with poisoned := true } else s1
  else upd fun s => lateReport s b.home

/-- A block that is clean again. -/
def Block.clean (b : Block) : Block := { b with dirty := 0, mask := 0 }

/-- The oldest victims that leave so that k words and a tag are free (R223), and those that stay. -/
def victimRoom (free : List Nat) (k : Nat) : List Victim → List Victim × List Victim
  | [] => ([], [])
  | v :: r =>
    let used := (v :: r).flatMap fun x => x.banks
    if (v :: r).length < 48 && k ≤ (free.filter fun b => !used.contains b).length then ([], v :: r)
    else
      let p := victimRoom free k r
      (v :: p.1, p.2)

/-- A block evicted from the cache: into victim space, or written back where it would never fit (R101, R223). -/
def evict (ag : Agent) (ix : Nat) (b : Block) : Act Unit := do
  upd fun s => s.modCore ag.core (leavePredictor b)
  let c ← look fun s => s.core ag.core
  let free := c.freeBanks
  if free.length < b.words then writeBack ag b
  else
    let p := victimRoom free b.words (c.set ix).victims
    for v in p.1 do writeBack ag v.blk
    let used := p.2.flatMap fun x => x.banks
    let banks := (free.filter fun x => !used.contains x).take b.words
    upd fun s => s.modSet ag.core ix fun z => { z with victims := p.2 ++ [{ banks := banks, blk := b }] }

/-- The least recently used blocks that leave so that a block of `need` words fits (R98), and those that stay. -/
def blockRoom (need : Nat) : List Block → List Block × List Block
  | [] => ([], [])
  | b :: r =>
    if ((b :: r).map fun x => x.words).foldl (· + ·) 0 + need ≤ 192 && (b :: r).length < 48 then ([], b :: r)
    else
      let p := blockRoom need r
      (b :: p.1, p.2)

/-- Puts a block into its set, evicting least recently used blocks; `first` places it first in the order of eviction. -/
def insertBlock (ag : Agent) (ix : Nat) (b : Block) (first : Bool) : Act Unit := do
  let z ← look fun s => (s.core ag.core).set ix
  let p := blockRoom b.words z.blocks
  upd fun s => s.modSet ag.core ix fun z => { z with blocks := if first then b :: p.2 else p.2 ++ [b] }
  for e in p.1 do evict ag ix e

/-- Overlays the bytes of a smaller block of the same region on a new block (R98). Its accessed words do not count as accessed in
the new one (DESIGN CHOICE, log 46). -/
def Block.absorb (b o : Block) : Block :=
  let off := o.va - b.va
  { b with
    data := spliceL b.data off o.data
    dirty := b.dirty ||| o.dirty * 2 ^ off
    mask := b.mask ||| o.mask
    seat := if o.dirty = 0 then b.seat else o.seat
    poisoned := b.poisoned || o.poisoned }

/-- The size of a fill in words and the predictor entry it records (R99). -/
def fillSize (th : Thread) (c : Core) (pol : Policy) (va : Nat) : Nat × Option Nat :=
  let e := (th.pc.toNat / 4 % 256) ^^^ (va / 64 % 256)
  if pol = .stream then (8, none)
  else if th.l1pol.getLsbD 7 then (2 ^ (bitsOf (th.l1pol.zeroExtend 64) 6 5), none)
  else (2 ^ c.pred.get 3 e, some e)

/-- Fills a block for an access to a translated address (R98, R99). -/
def fillBlock (ag : Agent) (va : Nat) (x : Xlated) (pol : Policy) : Act (Except Bad Block) := do
  let th ← look fun s => s.thr ag.tid
  let c ← look fun s => s.core ag.core
  let (w, e) := fillSize th c pol va
  let base := va / (8 * w) * (8 * w)
  let home := x.pa - (va - base)
  performBefore ag.core home (8 * w)
  match ← readHome ag home (8 * w) with
  | .error b => return .error b
  | .ok v =>
    let b0 : Block := { va := base, home := home, words := w, data := bytesOf (8 * w) v, dom := x.dom, pred := e,
                        seat := ag.seat, borrowed := x.borrowed }
    let ix := setOf va
    let z ← look fun s => (s.core ag.core).set ix
    let inside := fun (o : Block) => o.overlaps base (8 * w)
    let olds := (z.blocks.filter inside) ++ ((z.victims.map fun v => v.blk).filter inside)
    let b1 := olds.foldl Block.absorb b0
    upd fun s => s.modSet ag.core ix fun z =>
      { blocks := z.blocks.filter fun o => !inside o, victims := z.victims.filter fun v => !inside v.blk }
    insertBlock ag ix b1 (pol == .stream)
    return .ok b1

/-- Replaces the block with the same address in its set, making it the most recently used unless `keepPlace`. -/
def putBlock (n ix : Nat) (b : Block) (keepPlace : Bool) (s : State) : State :=
  s.modSet n ix fun z => { z with
    blocks := if keepPlace then z.blocks.map fun o => if o.va = b.va then b else o
      else (z.blocks.filter fun o => o.va != b.va) ++ [b] }

/-- A victim block that has a word in a group's banks. -/
def Group.hits (g : Group) (v : Victim) : Bool := v.banks.any fun b => decide (g.base ≤ b) && decide (b < g.base + g.size)

/-- Brings the held block that holds an address into the cache: a hit, or a victim hit whose block moves back (R101). An access to a block
that is being drained waits, and then misses (R103). -/
def heldBlock (ag : Agent) (va : Nat) : Act (Option Block) := do
  let ix := setOf va
  let z ← look fun s => (s.core ag.core).set ix
  match z.blocks.find? fun b => b.holds va with
  | some b => return some b
  | none =>
    match z.victims.find? fun v => v.blk.holds va with
    | none => return none
    | some v =>
      if (← look fun s => s.core ag.core).groups.any fun g => g.hits v then hold
      upd fun s => s.modSet ag.core ix fun z => { z with victims := z.victims.filter fun o => !o.blk.holds va }
      insertBlock ag ix v.blk false
      return some v.blk

/-- The grants that a step had used before an action, beside those that the action leaves. -/
def regain (s s1 : State) : State := { s1 with paid := (s.paid.filter fun p => p.used) ++ s1.paid }

/-- Runs an action; where it waits, what had been done before it stays. -/
def progress {α : Type} (act : Act α) : Act α := fun s =>
  match act s.settled with
  | .ok (v, s1) => .ok (v, regain s s1)
  | .error (.hold k) => .error (.hold fun o => k (keepBut s.settled o))
  | .error e => .error e

/-- Waits while a block that meets p is being drained from the banks of an allotment: the drain writes it back for the launching seat (R103). -/
def awaitDrain (n : Nat) (p : Block → Bool) : Act Unit := do
  let c ← look fun s => s.core n
  if c.l1.anyVal fun _ z => z.victims.any fun v => p v.blk && c.groups.any fun g => g.hits v then hold

/-- Drops a block of a core's set `ix` from the cache or victim space, counted when `count` (R99, R192). -/
def dropBlock (n ix : Nat) (b : Block) (count : Bool) (s : State) : State :=
  s.modCore n fun c =>
    let z := c.set ix
    let c1 := if z.blocks.any fun x => x.va == b.va then leavePredictor b c else c
    { c1 with
      l1 := c1.l1.set ix { blocks := z.blocks.filter fun x => x.va != b.va, victims := z.victims.filter fun v => v.blk.va != b.va }
      drops := if count then (c1.drops + 1) % 65536 else c1.drops }

/-- Writes back, then drops, the blocks of core n that meet p, in the cache and in victim space; counts them when `count`
(R177, R192). -/
def dropWhere (ag : Agent) (p : Block → Bool) (count : Bool) : Act Unit := do
  awaitDrain ag.core p
  for e in ← look fun s => (s.core ag.core).l1.toList do
    for b in (e.2.blocks ++ e.2.victims.map fun v => v.blk).filter p do
      writeBack ag b
      upd (dropBlock ag.core e.1 b count)

/-- Leaves the block of core n with an address clean, wherever it is held. -/
def cleanBlock (n ix va : Nat) (s : State) : State :=
  s.modSet n ix fun z =>
    let f := fun (b : Block) => if b.va = va then b.clean else b
    { blocks := z.blocks.map f, victims := z.victims.map fun v => { v with blk := f v.blk } }

/-- Writes back the dirty blocks of core n that meet p and leaves them clean (R176). -/
def cleanWhere (ag : Agent) (p : Block → Bool) : Act Unit := do
  awaitDrain ag.core fun b => b.dirty != 0 && p b
  let sets ← look fun s => (s.core ag.core).l1.toList
  for e in sets do
    for b in (e.2.blocks ++ e.2.victims.map fun v => v.blk).filter fun b => b.dirty != 0 && p b do
      writeBack ag b
      upd (cleanBlock ag.core e.1 b.va)

/-- True when a block's dirty mask holds a thread of the list. -/
def Block.dirtiedBy (b : Block) (ts : List Nat) : Bool := ts.any fun t => b.mask.getLsbD (t % 4)

/-- The threads of core n that belong to a seat: on a dealer core all four are its dealer seat, running or not (R390). -/
def State.seatThreads (s : State) (n seat : Nat) : List Nat :=
  (threadsOf n).filter fun t => if isDealer n then Config.cores + seat == n + 1024 else (s.thr t).seat == some seat

end Sys2Proof.Machine
end

