-- ==== Sys2Proof/Machine/Access.lean ====
section
/-! DEFINITION. Loads and stores of threads and engines: windows, the bank map (R105), the reserved bank (R71, R331),
cluster memory (R165 to R167), cached and homed accesses (R110, R111, R170), and the faults they raise (R108, R329). -/

namespace Sys2Proof.Machine

/-! ## Copy channels that hold bytes back (R157) -/

/-- Key of a prefetch count: 0 late, 1 drop, 2 stall, for source `sel` (R164). -/
def pfKey (kind sel : Nat) : Nat := 32 * kind + sel
/-- Adds to a prefetch count of a cluster. -/
def addPf (c kind sel n : Nat) (s : State) : State :=
  s.modCluster c fun x => { x with pfCount := x.pfCount.set (pfKey kind sel) ((x.pfCount.get 0 (pfKey kind sel) + n) % 2 ^ 48) }

/-- Counts as late, once in a unit of thread t, the elements of a source that it asks for before they have arrived (R164): each by its source and its number. -/
def noteLate (t c sel : Nat) (xs : List (Nat × Nat)) (s : State) : State :=
  let new := xs.filter fun x => !(s.thr t).lateSeen.contains x
  if new.isEmpty then s else addPf c 0 sel new.length (s.modThr t fun th => { th with lateSeen := th.lateSeen ++ new })

/-- The doublewords of n bytes from an address that a copy channel has yet to bring (R157, R164), with the channel's number. -/
def Engine.lateParts (x : Engine) (e a n : Nat) : List (Nat × Nat) :=
  ((List.range (n / 8 + 2)).map fun i => (e, a / 8 + i)).filter fun p =>
    decide (8 * p.2 < a + n) && decide (x.dst.toNat + x.landed < 8 * p.2 + 8) && decide (8 * p.2 < x.dst.toNat + x.len)

/-- The copy channel of a cluster that holds back an access of n bytes at an address, with its state (R157). One that has
faulted holds back until cp.stop, accesses made later too (DESIGN CHOICE, log 17). -/
def State.heldBy (s : State) (c a n : Nat) : Option (Nat × EState) :=
  ((s.cluster c).engines.toList.find? fun e =>
    decide (e.1 < 16) && (e.2.st == .active || e.2.st == .faulted) &&
      decide (a < e.2.dst.toNat + e.2.len) && decide (e.2.dst.toNat + e.2.landed < a + n)).map fun e => (e.1, e.2.st)

/-- A thread's access that gets ahead of an active channel's watermark waits; of a faulted one it fails (R157). -/
def watermark (ag : Agent) (a n : Nat) : Act (Except Bad Unit) := do
  if isDealer ag.core then return .ok ()
  match ← look fun s => s.heldBy (clusterOf ag.core) a n with
  | none => return .ok ()
  | some (e, .faulted) => return .error (.channel e)
  | some (e, _) =>
    holdKeep fun s =>
      let c := clusterOf ag.core
      addPf c 2 e 1 (noteLate ag.tid c e (((s.cluster c).engines.get {} e).lateParts e a n) s)

/-! ## The reserved bank (R71 to R73, R331) -/

/-- RUNCTL's code of a thread state (Table 3.6). -/
def TState.code : TState → Nat
  | .empty => 0 | .running => 1 | .idle => 2 | .parked => 3 | .stopping => 4 | .stopped => 5 | .resuming => 6

/-- What RUNCTL reads (Table 3.6). -/
def Thread.runctl (t : Thread) : Nat :=
  putAt t.ares.toNat 12 + putAt t.st.code 8 + putAt (b2n t.saved) 7 + putAt (b2n t.pmark) 6

/-- What XLAT_REQ reads (R331). -/
def Core.xlatReq (c : Core) : Nat := putAt (b2n c.xreqBusy) 63 + c.xreqCount % 2 ^ 32

/-- Who may make a software access at an offset of a core's reserved bank (R71, R331). -/
def State.reservedOk (s : State) (ag : Agent) (n off : Nat) (write : Bool) : Bool :=
  if isDealer ag.core then true
  else if off < 0x62000 then (s.thr (4 * n + (off - 0x60000) / 0x800)).seat == some ag.seat
  else if off < 0x63000 then (threadsOf n).any fun t => (s.thr t).seat == some ag.seat
  else if off < 0x63020 then (s.thr (4 * n + (off - 0x63000) / 8)).seat == some ag.seat
  else if off = 0x70000 && !isDealer n then !write || (s.thr ag.tid).sys
  else false

/-- The synchronisation doubleword (Table 9.16). -/
def Thread.syncWord (th : Thread) : Word :=
  let w := match th.regWait with
    | some r => putAt 1 63 + putAt (b2n r.sem) 62 + putAt (b2n r.done) 61 + putAt r.arg.toNat 32 + putAt r.obj.toNat 16
    | none => 0
  let d := match th.domArr with
    | some a => putAt 1 15 + putAt (b2n a.phase) 12 + putAt a.level.toNat 8
    | none => 0
  wordOfNat (w + d)

/-- A read of the reserved bank. The synchronisation doubleword of a saved thread is the thread's own record (R195). -/
def State.reservedRead (s : State) (n off : Nat) : Nat :=
  if 0x63000 ≤ off ∧ off < 0x63020 then (s.thr (4 * n + (off - 0x63000) / 8)).runctl
  else if off = 0x70000 ∧ !isDealer n then (s.core n).xlatReq
  else if off < 0x62000 ∧ off % 0x800 = 0x178 ∧ (s.thr (4 * n + (off - 0x60000) / 0x800)).saved then
    (s.thr (4 * n + (off - 0x60000) / 0x800)).syncWord.toNat
  else s.load (bankAddr n off) 8

/-- The command that a write of RUNCTL by a core, or by the management function, asks for (Table 3.6). -/
def runctlCommand (by_ : Option Nat) (t : Nat) (v : Nat) : Option Command :=
  match v % 8 with
  | 1 => some (.resume t)
  | 2 => some (.kill t)
  | 3 => some (.stop t)
  | 4 => some (.wake t)
  | 5 => some (.adopt t (4 * (v / 2 ^ 32 % 2 ^ 11) + v / 2 ^ 43 % 4))
  | 6 => if isDealer (coreOf t) then some (.start t by_) else none
  | _ => none

/-- The request an XLAT_REQ write asks for (Table 18.6). -/
def xlatReqCommand (n : Nat) (v : Word) : Option Command :=
  match bitsOf v 63 62 with
  | 1 => if bitsOf v 3 2 = 3 then none
    else some (.xlatPage n (BitVec.ofNat 40 (bitsOf v 55 16)) (BitVec.ofNat 2 (bitsOf v 3 2)))
  | 2 => some (.xlatRights n (BitVec.ofNat 16 (bitsOf v 31 16)) (bitOf v 8) (BitVec.ofNat 4 (bitsOf v 7 4)))
  | 3 => some (.xlatFlush n)
  | _ => none

/-- A write to the reserved bank performs: x0's doubleword of a save area ignores it, RUNCTL and XLAT_REQ start their
command, which is carried out next, and any other offset holds the value (R71, R73, R331); that the offsets which no part owns,
0x6_3020 on, do so for a dealer core's writes, while a compute core's access there takes 0x07, is a DESIGN CHOICE, log 44. A
write to XLAT_REQ waits at the home while an earlier request is busy. `by_` is the core that writes, none for the management function. -/
def reservedWrite (by_ : Option Nat) (n off v : Nat) : Act Unit := do
  if off < 0x62000 ∧ off % 0x800 = 0 then return ()
  if 0x63000 ≤ off ∧ off < 0x63020 then
    match runctlCommand by_ (4 * n + (off - 0x63000) / 8) v with
    | some e => upd fun s => { s with pend := s.pend ++ [e] }
    | none => pure ()
  else if off = 0x70000 ∧ !isDealer n then
    match xlatReqCommand n (wordOfNat v) with
    | some e =>
      if (← look fun s => (s.core n).xreqBusy) then hold
      upd fun s => { s.modCore n (fun c => { c with xreqBusy := true }) with pend := s.pend ++ [e] }
    | none => pure ()
  else upd fun s => s.store (bankAddr n off) 8 v

/-- A load's or store's failure: a `Bad`, or beyond the cluster-memory size, or cluster memory full (R165, R167). -/
inductive Fail where
  | bad (b : Bad)
  | cmBeyond
  | cmFull
deriving DecidableEq, Repr

/-! ## Cluster memory (R165 to R167) -/

/-- The partition that holds a cluster. -/
def State.partOfCluster (s : State) (c : Nat) : Option Nat := s.partOfNode (c / 4)

/-- CMSIZE of a cluster (R165). -/
def State.cmSize (s : State) (c : Nat) : Nat :=
  match s.partOfCluster c with
  | some f => (s.part f).cmsize.get 0 c
  | none => 0

/-- CMBASE of a cluster (R127); without a partition's configuration every track is raw. -/
def State.cmBaseOf (s : State) (c : Nat) : Nat :=
  match s.partOfCluster c with
  | some f => (s.part f).cmbase.get 2048 c
  | none => 2048

/-- Window address of byte `off` of cluster c's memory. -/
def cmAddr (c off : Nat) : Nat := cmBase + c * 2 ^ 32 + off

/-- The track words that coded blocks take (R166). -/
def Cluster.codedWords (x : Cluster) : List Nat := x.cmCoded.toList.flatMap fun e => e.2

/-- Free track space of a cluster's cluster-memory tracks, in bytes (R166, R167). -/
def State.cmFree (s : State) (c : Nat) : Nat := (2048 - s.cmBaseOf c) * 4096 * 8 - 8 * (s.cluster c).codedWords.length

/-- k free track words of a cluster: the lowest (R167; DESIGN CHOICE, log 45). -/
def State.freeTrackWords (s : State) (c k : Nat) : List Nat :=
  let used := (s.cluster c).codedWords
  (((List.range (used.length + k)).map fun i => 4096 * s.cmBaseOf c + i).filter fun w => !used.contains w).take k

/-- An expanded block leaves the expander: a dirty one is encoded for free track words, and its old words are freed (R167). Answers the words to
write. -/
def cmEvict (c : Nat) (o : Nat × Bool) (s : State) : List (Nat × Nat) × State :=
  let code := if o.2 then encodeBlock (wordsOfBytes 64 (readCells s.mem (cmAddr c (512 * o.1)) 512)) else []
  let ws := wordsOfBytes (code.length / 8) code
  let at_ := s.freeTrackWords c ws.length
  let s1 := (s.setBytes (cmAddr c (512 * o.1)) (List.replicate 512 0)).modCluster c fun x =>
    { x with cmBlocks := x.cmBlocks.filter fun z => z.1 != o.1, cmCoded := if o.2 then x.cmCoded.set o.1 at_ else x.cmCoded }
  (at_.zip ws, s1)

/-- A block comes into the expander, as the most recently used. -/
def cmEnter (c b : Nat) (s : State) : State := s.modCluster c fun x => { x with cmBlocks := x.cmBlocks ++ [(b, false)] }

/-- The expander begins to bring in a block, for an access of an agent; the least recently used of 64 makes room (R167). -/
def cmStart (ag : Agent) (c b : Nat) (s : State) : State :=
  let x := s.cluster c
  let (writes, s1) := match x.cmBlocks with
    | o :: _ => if x.cmBlocks.length < 64 then ([], s) else cmEvict c o s
    | [] => ([], s)
  s1.modCluster c fun y => { y with cmJob := some { block := b, seat := ag.seat, tid := ag.tid, writes := writes, reads := y.cmCoded.get [] b } }

/-- The accesses that still wait at an expander, in this cycle or the one before, without that of an agent to a block. -/
def Cluster.cmOthers (x : Cluster) (ag : Agent) (b now : Nat) : List CmWait :=
  x.cmQueue.filter fun w => decide (now ≤ w.asked + 1) && !(w.tid == ag.tid && w.block == b)

/-- True when another access came to an expander before that of an agent to a block, and still waits (R167). -/
def Cluster.cmBehind (x : Cluster) (ag : Agent) (b now : Nat) : Bool :=
  if x.cmQueue.any fun w => w.tid == ag.tid && w.block == b && decide (now ≤ w.asked + 1) then
    (x.cmQueue.takeWhile fun w => !(w.tid == ag.tid && w.block == b)).any fun w => decide (now ≤ w.asked + 1)
  else !(x.cmOthers ag b now).isEmpty

/-- An access waits at an expander, in its place among those that came before and after it (R167). -/
def cmAwait (ag : Agent) (c b : Nat) (s : State) : State :=
  s.modCluster c fun x =>
    let live := x.cmQueue.filter fun w => decide (s.cycle ≤ w.asked + 1)
    let mine := fun (w : CmWait) => w.tid == ag.tid && w.block == b
    { x with cmQueue := if live.any mine then live.map fun w => if mine w then { w with asked := s.cycle } else w
        else live ++ [{ tid := ag.tid, block := b, asked := s.cycle }] }

/-- An access has been served at an expander. -/
def cmServed (ag : Agent) (c b : Nat) (s : State) : State :=
  s.modCluster c fun x => { x with cmQueue := x.cmOthers ag b s.cycle }

/-- Serves an access of a block at the expander, in the order in which accesses come: it waits behind those before it, and while track words are moved for
its own block (R126, R167). A block that has no coded words comes in at once, where none has to be written. A word that proved uncorrectable is a
data error of the access. -/
def cmExpand (ag : Agent) (c b : Nat) : Act (Except Fail Unit) := do
  let x ← look fun s => s.cluster c
  if (← look fun s => x.cmBehind ag b s.cycle) then holdKeep (cmAwait ag c b)
  match x.cmBlocks.find? fun y => y.1 == b with
  | some y =>
    upd fun s => cmServed ag c b (s.modCluster c fun z => { z with cmBlocks := (z.cmBlocks.filter fun w => w.1 != b) ++ [y] })
    return .ok ()
  | none =>
    match x.cmJob with
    | some j =>
      if j.failed.isNone then holdKeep (cmAwait ag c b)
      if j.block = b then
        upd (cmServed ag c b)
        return .error (.bad (.data 0x04))
      holdKeep fun s => cmAwait ag c b (cmStart ag c b s)
    | none =>
      if x.cmBlocks.length < 64 ∧ (x.cmCoded.get [] b).isEmpty then
        upd fun s => cmServed ag c b (cmEnter c b s)
        return .ok ()
      holdKeep fun s => cmAwait ag c b (cmStart ag c b s)

/-- Marks an expanded block dirty. -/
def cmDirty (c b : Nat) (s : State) : State :=
  s.modCluster c fun y => { y with cmBlocks := y.cmBlocks.map fun z => if z.1 = b then (b, true) else z }

/-- The blocks of a cluster's memory to which remote stores are under way. -/
def State.cmUnderWay (s : State) (c : Nat) : List Nat :=
  s.cores.toList.flatMap fun k => (k.2.rstores.filter fun r => !r.performed).flatMap fun r => r.pieces.filterMap fun p =>
    if cmAddr c 0 ≤ p.1 ∧ p.1 < cmAddr (c + 1) 0 then some ((p.1 - cmAddr c 0) / 512) else none

/-- True when stores to the blocks of a list leave at least 528 bytes of free track space for each dirty block, those that stores under way make dirty
among them (R167). -/
def State.cmRoomFor (s : State) (c : Nat) (bs : List Nat) : Bool :=
  let ds := (((s.cluster c).cmBlocks.filter fun x => x.2).map (fun x => x.1) ++ s.cmUnderWay c).eraseDups
  let more := (bs.filter fun b => !ds.contains b).eraseDups
  more.isEmpty || decide (528 * (ds.length + more.length) ≤ s.cmFree c)

/-- The same for a store to one block. -/
def State.cmRoom (s : State) (c b : Nat) : Bool := s.cmRoomFor c [b]

/-- The checks of a cluster-memory access: the partition's seats, the size, the domain (R165, R324). `inr` says that it
lies beyond the window's size. -/
def cmCheck (ag : Agent) (c off n : Nat) (need : BitVec 4) : Act (Except Bad Bool) := do
  if !(← look fun s => s.partOfCluster c == partOfSeat ag.seat && (partOfSeat ag.seat).isSome) then
    return .error (.addr 0x04)
  if (← look fun s => s.cmSize c) < off + n then return .ok false
  match ← translate ag (cmAddr c off) need true with
  | .error b => return .error b
  | .ok _ => return .ok true

/-! ## The outcome of an access -/

/-- Raises an access's failure as the trap of the current thread: cause 5 or 6 for addresses, 7 for data, 4 for
alignment, 10 for copy channels and cluster memory (R108, R148, R329, R353). -/
def raise {α : Type} (cause : BitVec 8) (va : Word) (f : Fail) : Act α :=
  match f with
  | .bad (.addr sub) => trap cause sub va
  | .bad (.data sub) => fun s => .error (.trap 7 sub va fun o => reportTrap s.cur 7 sub va (keepAccesses s o))
  | .bad .misaligned => trap 4 0 va
  | .bad (.channel e) => trap 10 0x08 (wordOfNat e)
  | .cmBeyond => trap 10 0x0A va
  | .cmFull => trap 10 0x09 va

/-! ## Windows -/

/-- The bank map's check of a scratchpad bank (R105). -/
def State.bankOwned (s : State) (seat n off : Nat) : Bool :=
  (s.core n).groups.any fun g => decide (g.base ≤ off / 0x2000) && decide (off / 0x2000 < g.base + g.size) && g.seat == seat && g.mapped

/-- The requests of a packet of n payload bytes to a home address: its way through the fabric, none to the own core's bank, and the host link (R365,
R368). -/
def placeRequests (ag : Agent) (a n : Nat) : List Req :=
  match placeOf ag.core a with
  | .bank m _ => if m = ag.core then [] else packetRequests ag (dieOf m) (a + 1) n
  | .cm c _ => packetRequests ag (dieOfCluster c) (a + 1) n
  | _ => homeRequests ag a n

/-- The requests of the answer of n bytes from a home address. -/
def placeAnswers (ag : Agent) (a n : Nat) : List Req :=
  match placeOf ag.core a with
  | .bank m _ => if m = ag.core then [] else answerRequests ag (routerOf m) (dieOf m) (a + 1) n
  | .cm c _ => answerRequests ag c (dieOfCluster c) (a + 1) n
  | _ => homeAnswers ag a n

/-- A request of n payload bytes to another core's bank or to a cluster's expander goes through the fabric, and its answer of k bytes comes back
(R365). -/
def request (ag : Agent) (a n k : Nat) : Act Unit := charges (placeRequests ag a n ++ placeAnswers ag a k)

/-- The checks of an access of n bytes at offset `off` of core m's window (R71, R105). -/
def bankCheck (ag : Agent) (m off n : Nat) (write : Bool) : Act (Except Fail Unit) := do
  if off < 0x60000 then
    return if ← look fun s => s.bankOwned ag.seat m off then .ok () else .error (.bad (.addr 0x06))
  if n ≠ 8 then return .error (.bad .misaligned)
  return if ← look fun s => s.reservedOk ag m off write then .ok () else .error (.bad (.addr 0x07))

/-- The bytes at an address of cluster memory or a bank, unless they are poisoned. -/
def loadPlain (a n : Nat) : Act (Except Fail Nat) := do
  match ← look fun s => s.poisonAt a with
  | some sub => return .error (.bad (.data sub))
  | none => return .ok (← look fun s => s.load a n)

/-- A read of n bytes at offset `off` of core m's window that has passed its checks. -/
def bankLoad (ag : Agent) (m off n : Nat) : Act (Except Fail Nat) := do
  request ag (bankAddr m off) 0 n
  if off < 0x60000 then loadPlain (bankAddr m off) n else return .ok (← look fun s => s.reservedRead m off)

/-- A read of n bytes of a cluster's memory that has passed its checks. -/
def cmLoad (ag : Agent) (c off n : Nat) : Act (Except Fail Nat) := do
  request ag (cmAddr c off) 0 n
  match ← cmExpand ag c (off / 512) with
  | .error f => return .error f
  | .ok _ => loadPlain (cmAddr c off) n

/-! ## Performing a remote store at its home (R115, R116) -/

/-- The mailbox whose doorbell is an address, with its cluster (R202). -/
def State.mailboxAt (s : State) (a : Nat) : Option (Nat × Nat × Mailbox) :=
  if scratchBase ≤ a ∧ a < cmBase then
    let c := clusterOf ((a - scratchBase) / 0x80000)
    ((s.cluster c).mailboxes.toList.find? fun m => m.2.ma == a).map fun m => (c, m.1, m.2)
  else none

/-- True while a mailbox has a free slot (R203). -/
def Mailbox.room (m : Mailbox) : Bool := decide (m.inn - m.out < m.nrec)

/-- The record's bytes: the header of Table 9.5 and the payload. -/
def recordBytes (kind src : Nat) (payload : List Word) : List Byte :=
  bytesOf 8 (putAt kind 56 + putAt payload.length 40 + src) ++ payload.flatMap fun w => bytesOf 8 w.toNat

/-- Writes the record of an arrival at mailbox m of cluster c, counts it, and wakes the bound thread (R203). -/
def deliver (c m kind src : Nat) (payload : List Word) (s : State) : State :=
  let x := (s.cluster c).mailboxes.get {} m
  let s1 := s.storeAll (x.rbase + 256 * (x.inn % x.nrec)) (recordBytes kind src payload)
  let s2 := s1.modCluster c fun y => { y with mailboxes := y.mailboxes.set m { x with inn := x.inn + 1 } }
  wakeThread x.tid 2 true s2

/-- An arrival from hardware at a doorbell address (R203): it waits at the home for a slot of the mailbox bound there; where
none is bound it is an ordinary store of its doublewords. -/
def postArrival (a kind src : Nat) (payload : List Word) (s : State) : State :=
  match s.mailboxAt a with
  | some (c, _, _) =>
    s.modCluster c fun y => { y with arrivals := y.arrivals ++ [{ ma := a, kind := kind, src := src, payload := payload }] }
  | none => s.storeAll a (payload.flatMap fun w => bytesOf 8 w.toNat)

/-- An arrival that enters its mailbox at once, where that has room and none waits there before it (R203, R222). -/
def arriveNow (a kind src : Nat) (payload : List Word) (s : State) : State :=
  match s.mailboxAt a with
  | some (c, m, x) =>
    if x.room && (s.cluster c).arrivals.all fun y => y.ma != a then deliver c m kind src payload s else postArrival a kind src payload s
  | none => postArrival a kind src payload s

/-- Ordinary stores of doublewords to a core's bank from an offset, by a packet of core n: where it closed for a mailbox, and none is bound any more, each
is checked as it arrives (DESIGN CHOICE, log 47). -/
def bankStores (n : Nat) (r : RStore) (checked : Bool) (m off : Nat) : List Word → Act Unit
  | [] => pure ()
  | w :: l => do
    if checked || (← look fun s => if off < 0x60000 then s.bankOwned r.seat m off else s.reservedOk (r.agent n) m off true) then
      if off < 0x60000 then upd fun s => s.store (bankAddr m off) 8 w.toNat else reservedWrite (some n) m off w.toNat
    bankStores n r checked m (off + 8) l

/-- A message packet of core n at its home (R203, R205): a record of the mailbox bound there, for which it waits while the ring is
full, and ordinary stores where no mailbox is bound. -/
def performPacket (n m off : Nat) (r : RStore) (words : List Word) (checked : Bool) : Act Unit := do
  match ← look fun s => s.mailboxAt r.addr with
  | some (c, i, x) =>
    if !x.room then hold
    upd (deliver c i 1 (coreField (coreOf r.tid)) words)
  | none => bankStores n r checked m off words

/-- A requester of a copy unit's tokens (R162): engine or binding `e` of a thread. -/
def copyWho (t e : Nat) : Nat := 131072 * (e + 1) + t

/-- True for a message packet that waits at its home for a slot of the mailbox it closed for, and in no router. -/
def RStore.atMailbox (r : RStore) : Bool :=
  match r.kind with
  | .packet _ hs => hs.isEmpty
  | _ => false

/-- The packets of core n's partition that the router of its cluster holds (R355; DESIGN CHOICE, log 33). -/
def State.routerPackets (s : State) (n : Nat) : Nat :=
  ((List.range 16).map fun i => ((s.core (16 * clusterOf n + i)).rstores.filter fun r => r.sent && !r.performed && !r.atMailbox).length).foldl (· + ·) 0

/-- A packet of a partition's core waits outside while its router has admitted 16 of the partition's (R355). -/
def awaitRouter (n : Nat) : Act Unit := do
  if !isDealer n && (← look fun s => decide (16 ≤ s.routerPackets n)) then hold

/-- A remote store leaves the core: its copy-engine tokens, where a write binding made it, and its flits (R162, R365). -/
def sendStore (n i : Nat) (r : RStore) : Act Unit := do
  awaitRouter n
  metered { arb := copyArb (clusterOf n), bucket := r.seat, cost := r.cost, who := copyWho r.tid (18 + r.slot.getD 0), line := r.addr + 1 }
    (charges (placeRequests (r.agent n) r.addr r.size))
  upd fun s => s.modCore n fun c => { c with rstores := setL c.rstores i { r with sent := true, inj := c.nextPlace } }

/-- Stores pieces of core n's store in a cluster's memory, each through the expander, where an uncorrectable word of the block is reported as a data error
and the piece is lost (R167). -/
def cmStores (n : Nat) (r : RStore) (c : Nat) : List (Nat × RKind) → Act Unit
  | [] => pure ()
  | (a, k) :: l => do
    let b := (a - cmAddr c 0) / 512
    match ← cmExpand (r.agent n) c b with
    | .error _ => upd (reportTrap r.tid 7 0x04 (wordOfNat a))
    | .ok _ => upd fun s => applyKind a k (cmDirty c b s)
    cmStores n r c l

/-- Performs a store of core n at its home: memory bytes, a reserved bank, or the expander. `pre` holds the requests of the packet that
carries it, and `post` those of its answer. -/
def performStore (n : Nat) (r : RStore) (pre : List Req := []) (post : List Req := []) : Act Unit := do
  match placeOf n r.addr, r.kind with
  | .bank m off, .packet ws hs => performPacket n m off r ws (!hs.isEmpty)
  | .bank m off, .store _ v => if off < 0x60000 then upd (applyKind r.addr r.kind) else reservedWrite (some n) m off v
  | .bank _ _, _ => upd (applyKind r.addr r.kind)
  | .cm c _, .packet ws hs => cmStores n r c ((hs.zip ws).map fun x => (x.1, .store 8 x.2.toNat))
  | .cm c _, k => cmStores n r c [(r.addr, k)]
  | _, _ => performMem n r pre post

/-- Before a packet of core n reaches another home: the stores to its destination that left the core before perform (R115, R363). -/
def performSent (n dest : Nat) : Act Unit := do
  let c ← look fun s => s.core n
  for i in c.sentTo dest do
    performStore n (c.rstores.getD i {})
    upd (markPerformed n i)

/-- A load of cluster memory waits for its thread's earlier stores to the same block to perform: accesses of one thread to one block perform in issue
order (R167). -/
def waitBlockStores (ag : Agent) (c b : Nat) : Act Unit := do
  let k ← look fun s => s.core ag.core
  if k.rstores.any fun r => r.tid == ag.tid && !r.performed && r.overlaps (cmAddr c (512 * b)) 512 then hold

/-! ## Loads -/

/-- Scope and policy of an access (R110). -/
structure Att where
  scope : Scope := .core
  pol : Policy := .default
deriving DecidableEq, Repr

/-- True for a scope within which a load may be served by the core's cache (R111). -/
def scopeCached : Scope → Bool
  | .thr | .core => true
  | .oct | .clu | .die | .part | .mod | .host => false

/-- The n bytes at an address of a held block. -/
def Block.read (b : Block) (va n : Nat) : Nat := bytesVal (sliceL b.data (va - b.va) n)

/-- Marks the words of an access as accessed. -/
def Block.touch (b : Block) (va : Nat) : Block := { b with accessed := b.accessed ||| 2 ^ ((va - b.va) / 8) }

/-- A last-use access lets its block leave the cache and victim space (R110). -/
def leaveIfLast (ag : Agent) (pol : Policy) (va : Nat) : Act Unit :=
  if pol = .lastUse then dropWhere ag (fun b => b.holds va) false else pure ()

/-- A load from a held block: its domain is checked in the buffer, then it is served (R327). -/
def loadHeld (ag : Agent) (b : Block) (va n : Nat) (pol : Policy) : Act (Except Fail Nat) := do
  match ← checkRight ag b.dom needR with
  | .error e => return .error (.bad e)
  | .ok _ =>
    if b.poisoned then return .error (.bad (.data 0x03))
    waitOwnStores ag (b.home + (va - b.va)) n
    upd (putBlock ag.core (setOf va) (b.touch va) false)
    leaveIfLast ag pol va
    return .ok (b.read va n)

/-- A load of a page (R110, R111): from the cache for scopes thr and core, else from the home. A wider scope's load of a block that
the core holds fills that block anew at its size, which becomes the most recently used, whatever POL (DESIGN CHOICE, log 46). -/
def loadPage (ag : Agent) (va n : Nat) (att : Att) : Act (Except Fail Nat) := do
  match ← heldBlock ag va with
  | some b =>
    if scopeCached att.scope then loadHeld ag b va n att.pol
    else
      match ← translate ag va needR with
      | .error e => return .error (.bad e)
      | .ok x =>
        waitOwnStores ag x.pa n
        if b.dirty ≠ 0 then writeBack ag b
        performBefore ag.core b.home (8 * b.words)
        match ← readHome ag b.home (8 * b.words) with
        | .error e => return .error (.bad e)
        | .ok v =>
          let b1 := { b.clean with data := bytesOf (8 * b.words) v, poisoned := false }
          upd (putBlock ag.core (setOf va) (b1.touch va) false)
          leaveIfLast ag att.pol va
          return .ok (b1.read va n)
  | none =>
    match ← translate ag va needR with
    | .error e => return .error (.bad e)
    | .ok x =>
      waitOwnStores ag x.pa n
      if Config.hostBit ≤ x.pa ∨ att.pol = .noAlloc then
        performBefore ag.core x.pa n
        match ← readHome ag x.pa n with
        | .error e => return .error (.bad e)
        | .ok v => return .ok v
      else
        match ← fillBlock ag va x att.pol with
        | .error e => return .error (.bad e)
        | .ok b =>
          if b.poisoned then return .error (.bad (.data 0x03))
          upd (putBlock ag.core (setOf va) (b.touch va) true)
          leaveIfLast ag att.pol va
          return .ok (b.read va n)

/-- A load of n bytes by a thread (MemRead of R35, without its trap). -/
def loadAt (ag : Agent) (va0 : Word) (n : Nat) (att : Att) : Act (Except Fail Nat) := do
  if va0.toNat % n ≠ 0 then return .error (.bad .misaligned)
  let va := (rewriteOwn ag.core va0).toNat
  match ← watermark ag va n with
  | .error b => return .error (.bad b)
  | .ok _ =>
    match placeOf ag.core va with
    | .bad sub => return .error (.bad (.addr sub))
    | .bank m off =>
      waitOwnStores ag (bankAddr m off) n
      match ← bankCheck ag m off n false with
      | .error f => return .error f
      | .ok _ =>
        performSent ag.core m
        bankLoad ag m off n
    | .cm c off =>
      match ← cmCheck ag c off n needR with
      | .error b => return .error (.bad b)
      | .ok false => return .error .cmBeyond
      | .ok true =>
        waitOwnStores ag (cmAddr c off) n
        performSent ag.core (8192 + c)
        waitBlockStores ag c (off / 512)
        cmLoad ag c off n
    | .page => loadPage ag va n att

/-! ## Stores -/

/-- A store of the thread to the doubleword of its reservation ends it (R189). -/
def ownResv (ag : Agent) (a n : Nat) : Act Unit := upd fun s => s.modThr ag.tid (dropResv a n)

/-- A write to the bank of core m: local on the own core, a remote store elsewhere (R113). -/
def bankWrite (ag : Agent) (m off : Nat) (kind : RKind) : Act Unit := do
  ownResv ag (bankAddr m off) kind.size
  if m = ag.core then
    if off < 0x60000 then upd (applyKind (bankAddr m off) kind)
    else
      match kind with
      | .store _ v => reservedWrite (some ag.core) m off v
      | _ => upd (applyKind (bankAddr m off) kind)
  else issueRemote ag (classOfCore ag.core m) m (bankAddr m off) kind

/-- A store to cluster memory is a remote store of the class of its cluster (R167). -/
def cmWrite (ag : Agent) (c off : Nat) (kind : RKind) : Act (Except Fail Unit) := do
  if !(← look fun s => s.cmRoom c (off / 512)) then return .error .cmFull
  ownResv ag (cmAddr c off) kind.size
  issueRemote ag (classOfCore ag.core (16 * c)) (8192 + c) (cmAddr c off) kind
  return .ok ()

/-- A homed store to a translated address, whose sector has been noted, leaves the core as a remote store (R111, R113, R114). -/
def homedStore (ag : Agent) (x : Xlated) (kind : RKind) : Act Unit := do
  ownResv ag x.pa kind.size
  issueRemote ag (classOfHome ag.core x.pa) (destOfHome x.pa) x.pa kind

/-- A homed store notes its sector at its issue where it goes to GDDR (R178). -/
def noteHomed (ag : Agent) (va : Nat) (x : Xlated) : Act Unit := do
  if x.pa < Config.hostBit then noteSector ag va

/-- Destination class and ordering destination of a home address of any kind (R113, R115). -/
def classOfAddr (n a : Nat) : BitVec 2 :=
  match placeOf n a with
  | .bank m _ => classOfCore n m
  | .cm c _ => classOfCore n (16 * c)
  | _ => classOfHome n a
def destOfAddr (n a : Nat) : Nat :=
  match placeOf n a with
  | .bank m _ => m
  | .cm c _ => 8192 + c
  | _ => destOfHome a

/-- Writes bytes into a block of the cache: dirty bytes, the thread's mask bit, the seat (R170). -/
def Block.write (b : Block) (ag : Agent) (va : Nat) (bs : List Byte) : Block :=
  { b.touch va with
    data := spliceL b.data (va - b.va) bs
    dirty := b.dirty ||| byteMask (va - b.va) bs.length
    mask := b.mask ||| BitVec.ofNat 4 (2 ^ (ag.tid % 4))
    seat := ag.seat }

/-- A cached store performs in the cache (R111); `first` tells that its miss has placed the block first in the order of eviction. -/
def storeCached (ag : Agent) (b : Block) (va n v : Nat) (pol : Policy) (first : Bool) : Act (Except Fail Unit) := do
  if b.borrowed then return .error (.bad (.addr 0x09))
  match ← checkRight ag b.dom needW with
  | .error e => return .error (.bad e)
  | .ok _ =>
    ownResv ag (b.home + (va - b.va)) n
    noteSector ag va
    upd (putBlock ag.core (setOf va) (b.write ag va (bytesOf n v)) first)
    leaveIfLast ag pol va
    return .ok ()

/-- A store to a page (R110, R111). -/
def storePage (ag : Agent) (va n v : Nat) (att : Att) : Act (Except Fail Unit) := do
  match ← heldBlock ag va with
  | some b =>
    if scopeCached att.scope then storeCached ag b va n v att.pol false
    else
      match ← translate ag va needW with
      | .error e => return .error (.bad e)
      | .ok x =>
        if b.dirty ≠ 0 then writeBack ag b
        let b1 := { b.clean with data := spliceL b.data (va - b.va) (bytesOf n v) }
        upd (putBlock ag.core (setOf va) (b1.touch va) false)
        noteHomed ag va x
        homedStore ag x (.store n v)
        leaveIfLast ag att.pol va
        return .ok ()
  | none =>
    match ← translate ag va needW with
    | .error e => return .error (.bad e)
    | .ok x =>
      if Config.hostBit ≤ x.pa ∨ !scopeCached att.scope ∨ att.pol = .noAlloc then
        noteHomed ag va x
        homedStore ag x (.store n v)
        return .ok ()
      else
        match ← fillBlock ag va x att.pol with
        | .error e => return .error (.bad e)
        | .ok b => storeCached ag b va n v att.pol (att.pol == .stream)

/-- A store of n bytes by a thread (MemWrite of R35, without its trap). -/
def storeAt (ag : Agent) (va0 : Word) (n v : Nat) (att : Att) : Act (Except Fail Unit) := do
  if va0.toNat % n ≠ 0 then return .error (.bad .misaligned)
  let va := (rewriteOwn ag.core va0).toNat
  match ← watermark ag va n with
  | .error b => return .error (.bad b)
  | .ok _ =>
    match placeOf ag.core va with
    | .bad sub => return .error (.bad (.addr sub))
    | .bank m off =>
      match ← bankCheck ag m off n true with
      | .error f => return .error f
      | .ok _ => bankWrite ag m off (.store n v); return .ok ()
    | .cm c off =>
      match ← cmCheck ag c off n needW with
      | .error b => return .error (.bad b)
      | .ok false => return .error .cmBeyond
      | .ok true => cmWrite ag c off (.store n v)
    | .page => storePage ag va n v att

/-- A homed write of 8 bytes at an address, as rst makes it: no allocation, and a held block is written back and invalidated (R114).
`need` is the right it needs; `update` marks rsa, which a host address or cluster memory refuses, and a reserved bank too, which
is open to loads and stores alone (R71; DESIGN CHOICE, log 44). -/
def storeHomed (ag : Agent) (va0 : Word) (kind : RKind) (need : BitVec 4) (update : Bool) : Act (Except Fail Unit) := do
  let va := (rewriteOwn ag.core va0).toNat
  let n := kind.size
  match ← watermark ag va n with
  | .error b => return .error (.bad b)
  | .ok _ =>
    match placeOf ag.core va with
    | .bad sub => return .error (.bad (.addr sub))
    | .bank m off =>
      if update && decide (0x60000 ≤ off) then return .error (.bad (.addr 0x07))
      match ← bankCheck ag m off n true with
      | .error f => return .error f
      | .ok _ => bankWrite ag m off kind; return .ok ()
    | .cm c off =>
      if update then return .error (.bad (.addr 0x0B))
      match ← cmCheck ag c off n need with
      | .error b => return .error (.bad b)
      | .ok false => return .error .cmBeyond
      | .ok true => cmWrite ag c off kind
    | .page =>
      match ← translate ag va need with
      | .error e => return .error (.bad e)
      | .ok x =>
        if update ∧ Config.hostBit ≤ x.pa then return .error (.bad (.addr 0x0B))
        dropWhere ag (fun b => b.overlaps va n) false
        noteHomed ag va x
        homedStore ag x kind
        return .ok ()

/-! ## Engines (R168, R170, R185) -/

/-- An engine's access of a command of the thread waits while the thread has an unacknowledged remote store to a doubleword of it, as a load of the
thread does (R185). -/
def engineWait (ag : Agent) (a n : Nat) : Act Unit := waitOwnStores ag a n

/-- The checks of an engine's read of n bytes of one 64-byte sector, with the home address where it passes. -/
def engineReadCheck (ag : Agent) (va0 : Word) (n : Nat) (need : BitVec 4 := needR) : Act (Except Fail Nat) := do
  let va := va0.toNat
  match placeOf ag.core va with
  | .bad sub => return .error (.bad (.addr sub))
  | .bank m off =>
    match ← bankCheck ag m off n false with
    | .error f => return .error f
    | .ok _ => return .ok (bankAddr m off)
  | .cm c off =>
    match ← cmCheck ag c off n need with
    | .error b => return .error (.bad b)
    | .ok false => return .error .cmBeyond
    | .ok true => return .ok (cmAddr c off)
  | .page =>
    match ← translate ag va need with
    | .error e => return .error (.bad e)
    | .ok x => return .ok x.pa

/-- An engine's read at a home address that has passed its checks (R168, R170). -/
def engineLoad (ag : Agent) (a n : Nat) : Act (Except Fail Nat) := do
  engineWait ag a n
  match placeOf ag.core a with
  | .bank m off => bankLoad ag m off n
  | .cm c off => cmLoad ag c off n
  | _ =>
    match ← readHome ag a n with
    | .error e => return .error (.bad e)
    | .ok v => return .ok v

/-- An engine's read of n bytes of one 64-byte sector: always at the home, for the seat that pushed the command. -/
def engineReadAt (ag : Agent) (va : Word) (n : Nat) (need : BitVec 4 := needR) : Act (Except Fail Nat) := do
  match ← engineReadCheck ag va n need with
  | .error f => return .error f
  | .ok a => engineLoad ag a n

/-- An engine's read of n aligned bytes. -/
def engineRead (ag : Agent) (va : Word) (n : Nat) (need : BitVec 4 := needR) : Act (Except Fail Nat) := do
  if va.toNat % n ≠ 0 then return .error (.bad .misaligned)
  engineReadAt ag va n need

/-- An engine's read of up to 64 bytes at any alignment, by its parts in the sectors it meets. -/
def engineReadSpan (ag : Agent) (va : Word) (n : Nat) : Act (Except Fail Nat) := do
  let k := 64 - va.toNat % 64
  if n ≤ k then engineReadAt ag va n
  else
    match ← engineReadAt ag va k with
    | .error f => return .error f
    | .ok lo =>
      match ← engineReadAt ag (va + wordOfNat k) (n - k) with
      | .error f => return .error f
      | .ok hi => return .ok (lo + hi * 2 ^ (8 * k))

/-- The checks of an engine's write of n bytes, with the home address where it passes. -/
def engineWriteCheck (ag : Agent) (va0 : Word) (n : Nat) : Act (Except Fail Nat) := do
  if va0.toNat % n ≠ 0 then return .error (.bad .misaligned)
  let va := va0.toNat
  match placeOf ag.core va with
  | .bad sub => return .error (.bad (.addr sub))
  | .bank m off =>
    match ← bankCheck ag m off n true with
    | .error f => return .error f
    | .ok _ => return .ok (bankAddr m off)
  | .cm c off =>
    match ← cmCheck ag c off n needW with
    | .error b => return .error (.bad b)
    | .ok false => return .error .cmBeyond
    | .ok true =>
      if !(← look fun s => s.cmRoom c (off / 512)) then return .error .cmFull
      return .ok (cmAddr c off)
  | .page =>
    match ← translate ag va needW with
    | .error e => return .error (.bad e)
    | .ok x => return .ok x.pa

/-- An engine's write at a home address that has passed its checks (R170). -/
def engineStore (ag : Agent) (a n v : Nat) : Act Unit := do
  engineWait ag a n
  if ownBase ≤ a then request ag a n 0
  performStore ag.core { tid := ag.tid, seat := ag.seat, deal := ag.deal, addr := a, kind := .store n v, sent := true }
    (if a < ownBase then homeRequests ag a n else []) (if a < ownBase then homeAnswers ag a 0 else [])

/-- An engine's write of n bytes: it performs at the home (R170). -/
def engineWrite (ag : Agent) (va : Word) (n v : Nat) : Act (Except Fail Unit) := do
  match ← engineWriteCheck ag va n with
  | .error f => return .error f
  | .ok a =>
    engineStore ag a n v
    return .ok ()

/-- True when stores to home addresses leave the free track space that each dirty block needs (R167). -/
def State.roomForAll (s : State) (core : Nat) (homes : List Nat) : Bool :=
  let cms := homes.filterMap fun a => match placeOf core a with
    | .cm c off => some (c, off / 512)
    | _ => none
  (cms.map fun x => x.1).eraseDups.all fun c => s.cmRoomFor c ((cms.filter fun x => x.1 == c).map fun x => x.2)

/-- Notes a sector that an engine of a thread has written in GDDR in the signature that engine k keeps for it (R184). -/
def noteEngine (t k : Nat) (a : Nat) (va : Word) : Act Unit :=
  if a < Config.hostBit then
    upd fun s => s.modThr t fun th => { th with engSigs := th.engSigs.set k (th.engSigs.get 0 k ||| sectorBits va.toNat) }
  else pure ()

/-- A push of a command releases the thread's earlier stores: the dirty blocks of its core that its stores reached are
written back (R160, R185). -/
def pushRelease : Act Unit := do
  let ag ← meAgent
  cleanWhere ag fun b => b.dirtiedBy [ag.tid]

/-- True once a write counter of the thread's seat has been seen at zero since its unit, or the pfx.ord that heads it, issued (R30,
R110, R118): now, or at the end of a cycle. -/
def counterSeen (c : BitVec 2) : Act Bool := do
  let th ← me
  let n ← myCore
  let seat ← mySeat
  if c = 0 then return true
  if th.seen.getLsbD (c.toNat - 1) then return true
  return ← look fun s => (s.core n).writeCounter seat c == 0

/-- The end of a cycle notes the write counters at zero for a unit that has begun to issue. -/
def State.noteZeros (s : State) (t : Nat) (th : Thread) : Thread :=
  if th.issued || th.paid != 0 then
    let c := s.core (coreOf t)
    let zero := fun (k : BitVec 2) => BitVec.ofBool (c.writeCounter (th.seat.getD 0) k == 0)
    { th with seen := th.seen ||| (zero 3 ++ zero 2 ++ zero 1) }
  else th

/-- Waits, after issue, until the counter has been seen at zero (R110). -/
def waitCounter (c : BitVec 2) : Act Unit := do
  if !(← counterSeen c) then hold

/-! ## Releases (R176) -/

/-- The counters a release of a scope waits for (Table 8.2). -/
def scopeCounters : Scope → List (BitVec 2)
  | .thr | .core => []
  | .oct | .clu => [1]
  | .die => [1, 2]
  | .part | .mod | .host => [1, 2, 3]

/-- Waits until each counter of a list has been seen at zero since issue (R118). -/
def waitCounters (cs : List (BitVec 2)) : Act Unit := do
  let seen ← cs.mapM counterSeen
  if !seen.all id then hold

/-- A release of the thread at a scope (R176): its own earlier accesses have performed, the seat's dirty blocks are written
back for scopes oct and wider, and the scope's counters have been seen at zero. -/
def release (scope : Scope) : Act Unit := do
  let ag ← meAgent
  let c ← look fun s => s.core ag.core
  if c.rstores.any fun r => r.tid == ag.tid && !r.performed then hold
  if !scopeCached scope then
    let ts ← look fun s => s.seatThreads ag.core ag.seat
    cleanWhere ag fun b => b.dirtiedBy ts
  waitCounters (scopeCounters scope)

/-! ## Acquires (R177, R178) -/

/-- An acquire of an agent that received a signature: at scope oct or wider it drops the matching blocks; the signature
joins the seat's (R177, R178, R183). -/
def acquireAt (ag : Agent) (scope : Scope) (sig : BitVec 512) : Act Unit := do
  if !scopeCached scope then dropWhere ag (fun b => sigMatches sig b.va) true
  upd (orSig ag.core ag.seat sig)

/-- An acquire of the current thread. -/
def acquireSig (scope : Scope) (sig : BitVec 512) : Act Unit := do acquireAt (← meAgent) scope sig

/-- Reads and clears the seat's signature, as the last step of a release does (R178). -/
def takeSig : Act (BitVec 512) := do
  let ag ← meAgent
  let sig ← look fun s => (s.core ag.core).sigs.get 0 ag.seat
  upd fun s => s.modCore ag.core fun c => { c with sigs := c.sigs.set ag.seat 0 }
  return sig

/-- The first store after a rel fence releases at its scope (R175, R182). -/
def settleRelease : Act Unit := do
  match (← me).relMark with
  | none => return ()
  | some sc =>
    release sc
    modMe fun th => { th with relMark := none }

/-! ## Loads and stores as instructions make them -/

/-- MemRead of R35: a failure traps as a load fault. -/
def memRead (va : Word) (n : Nat) (att : Att) : Act Nat := do
  match ← loadAt (← meAgent) va n att with
  | .error f => raise 5 va f
  | .ok v => return v

/-- MemWrite of R35: a failure traps as a store fault. The first store after a rel is a release (R175, R182). -/
def memWrite (va : Word) (n v : Nat) (att : Att) : Act Unit := do
  settleRelease
  match ← storeAt (← meAgent) va n v att with
  | .error f => raise 6 va f
  | .ok _ => return ()

/-- A homed write as rst, rsa and the advances of circular buffers make it; a failure traps as a store fault. -/
def homedWrite (va : Word) (kind : RKind) (need : BitVec 4) (update : Bool) : Act Unit := do
  settleRelease
  match ← storeHomed (← meAgent) va kind need update with
  | .error f => raise 6 va f
  | .ok _ => return ()

/-- The attributes of a plain access: scope core and L1_POL.DEFPOL (R53, R111). -/
def plainAtt : Act Att := do return { scope := .core, pol := Policy.ofCode (((← me).l1pol).extractLsb' 0 2) }

/-- Reads k doublewords of a descriptor by plain loads. -/
def readDoublewords (va : Word) (k : Nat) : Act (List Word) := do
  let att ← plainAtt
  (List.range k).mapM fun i => do return wordOfNat (← memRead (va + wordOfNat (8 * i)) 8 att)

end Sys2Proof.Machine
end

