-- ==== Sys2Proof/Machine/Operands.lean ====
section
/-! DEFINITION. The operand forms: ReadX and WriteX of R35 with stream-bound registers (R42, R149 to R152), immediates (R19),
and the low parts of operands. -/

namespace Sys2Proof.Machine

/-- The binding slot that holds a register in stream mode. -/
def Thread.boundSlot (th : Thread) (i : Reg) : Option (Nat × Binding) :=
  (th.binds.toList.find? fun b => b.2.reg == i).map fun b => (b.1, b.2)

/-- Bytes of an element (Table 7.4). -/
def Binding.esz (b : Binding) : Nat := 2 ^ bitsOf b.fmt 1 0
/-- Elements of a stream (R150). -/
def Binding.count (b : Binding) : Nat := bitsOf b.counts 31 0 * bitsOf b.counts 63 32
/-- Address of element k (R150). -/
def Binding.addr (b : Binding) (k : Nat) : Word :=
  let c0 := bitsOf b.counts 31 0
  b.base + wordOfInt (((k % c0 : Nat) : Int) * signExtend (bitsOf b.strides 31 0) 32
    + ((k / c0 : Nat) : Int) * signExtend (bitsOf b.strides 63 32) 32)

/-- The binding one element further (R151, R152). -/
def Binding.advance (b : Binding) : Binding := { b with next := b.next + 1, exh := decide (b.count ≤ b.next + 1) }

/-- The thread's binding slot takes a new content. -/
def setBind (t slot : Nat) (b : Binding) (s : State) : State := s.modThr t fun th => { th with binds := th.binds.set slot b }

/-- A register number as the value of a trap's XVAL. -/
def regVal (i : Reg) : Word := i.zeroExtend 64

/-- A pop of a read binding (R151): it waits, unissued, for the element; the wait and the lateness of the element are counted (R164). -/
def popElem (i : Reg) (slot : Nat) (b : Binding) : Act Word := do
  let t ← cur
  trapIf b.exh 10 0x04 (regVal i)
  match b.arrived with
  | .value v :: r => upd (setBind t slot { b with arrived := r }.advance); return v
  | .faulted sub va :: _ => trap 10 sub va
  | [] =>
    let c := clusterOf (coreOf t)
    throw (.stall fun s => addPf c 2 16 1 (noteLate t c 16 [(32 + slot, b.next)] s))

/-- Where a pushed element goes: its home address after the checks of R152, which trap with subcause 0x05. -/
def pushTarget (va : Word) (n : Nat) : Act Nat := do
  let ag ← meAgent
  let va1 := rewriteOwn ag.core va
  match ← watermark ag va1.toNat n with
  | .error (.channel e) => trap 10 0x08 (wordOfNat e)
  | _ => pure ()
  match ← engineWriteCheck ag va1 n with
  | .ok a => return a
  | .error .cmFull => trap 10 0x09 va
  | .error .cmBeyond => trap 10 0x0A va
  | .error (.bad (.data sub)) => raise 6 va (.bad (.data sub))
  | .error (.bad (.addr _)) => trap 10 0x05 va
  | .error (.bad .misaligned) => trap 10 0x05 va
  | .error (.bad (.channel e)) => trap 10 0x08 (wordOfNat e)

/-- The copy-engine tokens of an element that a push stores in the own scratchpad (R162): without them the push waits, unissued. -/
def drainCost (ag : Agent) (slot cost : Nat) : Act Unit := fun s =>
  let r : Req := { arb := copyArb (clusterOf ag.core), bucket := ag.seat, cost := cost, who := copyWho ag.tid (18 + slot) }
  if cost = 0 then .ok ((), s)
  else
    match s.ask r with
    | some s1 => .ok ((), s1)
    | none => .error (.stall fun o => o.setArb r.arb ((s.arb r.arb).await r s.cycle))

/-- A push to a write binding (R152): an element of the own scratchpad is stored at once, any other is a remote store that waits to
be sent. As a store it settles a rel fence (R175). -/
def pushElem (i : Reg) (slot : Nat) (b : Binding) (v : Word) : Act Unit := do
  let t ← cur
  let ag ← meAgent
  trapIf b.exh 10 0x04 (regVal i)
  let waiting ← look fun s => ((s.core ag.core).rstores.filter fun r => r.tid == t && r.slot == some slot && !r.sent).length
  if 32 ≤ waiting then stall
  let va := b.addr b.next
  let a ← pushTarget va b.esz
  settleRelease
  let cost := b2n (b.next * b.esz % 32 == 0)
  match placeOf ag.core a with
  | .bank m _ =>
    if m = ag.core then
      drainCost ag slot cost
      performStore ag.core { tid := t, seat := ag.seat, addr := a, kind := .store b.esz v.toNat }
    else issueRemote ag (classOfAddr ag.core a) (destOfAddr ag.core a) a (.store b.esz v.toNat) (some slot) cost
  | .cm _ _ => issueRemote ag (classOfAddr ag.core a) (destOfAddr ag.core a) a (.store b.esz v.toNat) (some slot) cost
  | _ =>
    if a < Config.hostBit then noteSector ag va.toNat
    dropWhere ag (fun x => x.holds va.toNat) false
    issueRemote ag (classOfAddr ag.core a) (destOfAddr ag.core a) a (.store b.esz v.toNat) (some slot) cost
  ownResv ag a b.esz
  upd (setBind t slot { b with last := v }.advance)

/-- ReadX (R35, R149): zero for x0, a pop of a read-bound register, the last value pushed of a write-bound one. -/
def readX (i : Reg) : Act Word := do
  let th ← me
  if i = 0 then return 0
  match th.boundSlot i with
  | none => return th.regs.get 0 i.toNat
  | some (slot, b) => if 28 ≤ i.toNat then popElem i slot b else return b.last

/-- WriteX (R35, R149): discarded for x0 and a read-bound register, a push to a write-bound one. -/
def writeX (i : Reg) (v : Word) : Act Unit := do
  let th ← me
  if i = 0 then return ()
  match th.boundSlot i with
  | none => modMe fun th => { th with regs := th.regs.set i.toNat v }
  | some (slot, b) => if 28 ≤ i.toNat then return () else pushElem i slot b v

/-- A 12-bit immediate (R19). -/
def imm12 (i : BitVec 12) : Word := i.signExtend 64
/-- A 20-bit immediate of a U form, placed at bits [31:12] (R19, R49). -/
def immU (i : BitVec 20) : Word := (i ++ (0 : BitVec 12)).signExtend 64
/-- A branch offset: `off` is imm[12:1] (R19, R54). -/
def immB (off : BitVec 12) : Word := (off ++ (0 : BitVec 1)).signExtend 64
/-- A jump offset: `off` is imm[20:1] (R19, R55). -/
def immJ (off : BitVec 20) : Word := (off ++ (0 : BitVec 1)).signExtend 64
/-- The 34-bit immediate of a prefixed unit (R29): p, then the target's 12 bits. -/
def immP (p : BitVec 22) (low : BitVec 12) : Word := (p ++ low).signExtend 64

/-- The low 32 bits of an operand. -/
def lo32 (v : Word) : BitVec 32 := v.truncate 32
/-- SignExtend of a 32-bit result (R46). -/
def sx32 (v : BitVec 32) : Word := v.signExtend 64

end Sys2Proof.Machine
end

