-- ==== Sys2Proof/Machine/Heads.lean ====
section
/-! DEFINITION. The track store and heads (R124 to R146): shifts with their slots, checks and realigns, the head state machine
of Table 6.3, and the head instructions. -/

namespace Sys2Proof.Machine

/-! ## Parts of the state -/

/-- First cluster of a seat's partition; its configuration's lists count from it. -/
def firstCluster (seat : Nat) : Nat := (seat / 16 - 1) * 4
/-- The seat's window of raw tracks in a cluster, and its shift slots there (R127, R140). -/
def State.seatTracks (s : State) (seat c : Nat) : Span :=
  if 1024 ≤ seat then {} else (s.seat seat).cfg.tracks.getD (c - firstCluster seat) {}
def State.seatSlots (s : State) (seat c : Nat) : Nat :=
  if 1024 ≤ seat then 0 else (s.seat seat).cfg.slots.getD (c - firstCluster seat) 0

/-- The heads bound to a track, in any state (R142). -/
def State.boundHeads (s : State) (c k : Nat) : List (HRef × Head) :=
  (s.threads.toList.filter fun e => clusterOf (coreOf e.1) == c && !isDealer (coreOf e.1)).flatMap fun e =>
    (e.2.heads.toList.filter fun h => h.2.hs != .unbound && h.2.track.toNat == k).map fun h =>
      ({ tid := e.1, h := BitVec.ofNat 3 h.1 }, h.2)

/-- Distinct tracks bound by a seat's heads in a cluster (Table 6.8). -/
def State.tracksHeld (s : State) (seat c : Nat) : Nat :=
  (((s.threads.toList.filter fun e => clusterOf (coreOf e.1) == c && !isDealer (coreOf e.1) && e.2.seat == some seat).flatMap fun e =>
    (e.2.heads.toList.filter fun h => h.2.hs != .unbound).map fun h => h.2.track).eraseDups).length

/-! ## Words, positions and ports (R124 to R126) -/

/-- MARK of a position (Table 6.1). -/
def markOf (p : Nat) : BitVec 4 := if p % 256 = 0 then 0b1010 else 0
/-- A word as hardware writes it at a position. -/
def trackWord (p : Nat) (v : Word) : TWord := { data := v, tag := BitVec.ofNat 4 (p % 16), mark := markOf p }
/-- CHECK of a word (Table 6.1): its check bits, with those that have gone wrong. -/
def TWord.check (w : TWord) : BitVec 8 := Config.checkBits (w.mark ++ w.tag ++ w.data) ^^^ w.flips.extractLsb' 72 8
/-- The number of bits of a word that have gone wrong. -/
def TWord.errs (w : TWord) : Nat := popCount 80 w.flips.toNat
/-- TAG and MARK as a port senses them, uncorrected. -/
def TWord.sensedTag (w : TWord) : BitVec 4 := w.tag ^^^ w.flips.extractLsb' 64 4
def TWord.sensedMark (w : TWord) : BitVec 4 := w.mark ^^^ w.flips.extractLsb' 68 4
/-- The word at a position of a track; a word not written since formatting holds zero data (R128). -/
def Track.word (t : Track) (p : Nat) : TWord := t.words.get (trackWord (p % 4096) 0) (p % 4096)
/-- Where a position lies after a displacement. -/
def movePos (p : Nat) (d : Int) : Nat := ((p : Int) + d).emod 4096 |>.toNat
/-- The displacement of a track as an integer. -/
def Track.slip (t : Track) : Int := signExtend t.disp.toNat 12
/-- The word that the ports show for a position: the slip displaces it (R133). -/
def Track.shown (t : Track) (p : Nat) : TWord := t.word (movePos p t.slip)
/-- The offset once every shift asked for has ended. -/
def Track.finalOff (t : Track) : Nat :=
  t.shifts.foldl (fun o x => match x.kind with | .realign _ => o | _ => movePos o x.by_) t.off.toNat
/-- The shift that brings position p under a port from offset o (R126). -/
def shiftToward (o p : Nat) : Int :=
  let δ := (p + 4096 - o) % 1024
  if δ ≤ 512 then (δ : Int) else (δ : Int) - 1024

/-- Asks the track for a shift (R136). -/
def askShift (c k : Nat) (x : Shift) (s : State) : State :=
  s.modTrack c k fun t => { t with shifts := t.shifts ++ [{ x with asked := s.cycle }] }

/-! ## Head records (R139) -/

def HState.code : HState → Nat
  | .unbound => 0 | .owned => 1 | .sharedWait => 2 | .saved => 3 | .reacq => 4 | .realign => 5 | .error => 6

/-- HD_STATE of a head (Table 6.6). -/
def Head.dw0 (h : Head) : Nat :=
  putAt (b2n (h.hs != .unbound)) 63 + putAt h.hs.code 60 + putAt (b2n h.sh) 59 + putAt h.grp.toNat 48
    + putAt h.track.toNat 32 + putAt h.pos.toNat 16 + putAt (b2n h.dir) 4 + h.step.toNat
/-- The check doubleword of a head (Table 6.7). -/
def Head.dw1 (h : Head) : Nat :=
  putAt h.mark.toNat 48 + putAt (b2n h.pend) 40 + putAt h.slips.toNat 32 + putAt h.lastTag.toNat 16 + putAt (b2n h.tflag) 8

/-- A head in REACQ as a record restores it (R131, R146). PEND becomes 0 in it (DESIGN CHOICE, log 22). -/
def headOfRecord (a b : Word) : Head :=
  { hs := .reacq, sh := bitOf a 59, grp := BitVec.ofNat 8 (bitsOf a 55 48), track := BitVec.ofNat 11 (bitsOf a 42 32)
    pos := BitVec.ofNat 12 (bitsOf a 27 16), dir := bitOf a 4, step := BitVec.ofNat 4 (bitsOf a 3 0)
    mark := BitVec.ofNat 12 (bitsOf b 59 48), slips := BitVec.ofNat 8 (bitsOf b 39 32)
    lastTag := BitVec.ofNat 4 (bitsOf b 19 16), tflag := bitOf b 8, errSaved := bitsOf a 62 60 == 6 }

/-- True when a record names a head that may be bound: BOUND, a state, a track of the window (R146). -/
def recordGood (w : Span) (cmbase : Nat) (a : Word) : Bool :=
  bitOf a 63 && bitsOf a 62 60 != 0 && decide (w.base ≤ bitsOf a 42 32) && decide (bitsOf a 42 32 < w.base + w.count)
    && decide (bitsOf a 42 32 < cmbase)

/-- XVAL of a head fault (Table 6.4). -/
def headXval (pos : BitVec 12) (track : BitVec 11) (h : BitVec 3) : Word :=
  wordOfNat (putAt pos.toNat 32 + putAt track.toNat 8 + h.toNat)

/-- Steps a head's position (R144). -/
def Head.stepped (h : Head) : Head :=
  { h with pos := if h.dir then h.pos - h.step.zeroExtend 12 else h.pos + h.step.zeroExtend 12 }
/-- The shift of a step, upward or downward. -/
def Head.stepBy (h : Head) : Int := if h.dir then -(h.step.toNat : Int) else (h.step.toNat : Int)

/-! ## Checks of a word (R133) and fatal results (R135) -/

/-- What a check finds: the word passes, a slip m that may be corrected, or a fatal result. -/
inductive Check where
  | pass | slip (m : Int) | fatal (sub : BitVec 8)
deriving DecidableEq, Repr

/-- The checks of tag and marker (R133). -/
def checkPlace (tag mark : BitVec 4) (pos : Nat) : Check :=
  let m := (tag.toNat + 16 - pos % 16) % 16
  if m = 8 then .fatal 0x10
  else if m ≠ 0 then .slip (if m < 8 then (m : Int) else (m : Int) - 16)
  else if mark ≠ markOf pos then .fatal 0x11
  else .pass

/-- The checks of R133 in order, of the corrected word; a write passes over a word that is uncorrectable in SEC-DED alone (R144). -/
def checkWord (w : TWord) (pos : Nat) (write : Bool) : Check :=
  if w.errs < 2 then checkPlace w.tag w.mark pos
  else if write && checkPlace w.sensedTag w.sensedMark pos == .pass then .pass
  else .fatal 0x12

/-- A fatal access (R135): the head enters ERROR and the track is flagged, both kept across the trap; subcauses 0x10 to
0x13 are reported. `more` is what the check counted. -/
def headFatal {α : Type} (h : BitVec 3) (sub : BitVec 8) (more : State → State := id) : Act α := fun s =>
  let t := s.cur
  let x := (s.thr t).head h.toNat
  let v := headXval x.pos x.track h
  .error (.trap 9 sub v fun o =>
    let o1 := (more o).modHead t h.toNat fun y => { y with hs := .error, tflag := true, acc := none }
    let o2 := o1.modTrack (clusterOf (coreOf t)) x.track.toNat fun k => { k with flag := true }
    if 0x10 ≤ sub.toNat ∧ sub.toNat ≤ 0x13 then reportTrap t 9 sub v o2 else o2)

/-- The head of an instruction that needs ownership (R131, R132): unbound traps, a waiting head does not issue, a head in
ERROR or on a flagged track is fatal unless `resync` (that an OWNED head resynchronises on a flagged track: DESIGN CHOICE,
log 48). -/
def ownedHead (h : BitVec 3) (resync : Bool) : Act Head := do
  let x := (← me).head h.toNat
  match x.hs with
  | .unbound => trap 9 0x02 (headXval x.pos x.track h)
  | .sharedWait => stall
  | .reacq => stall
  | .saved => stall
  | .error => if resync then return x else headFatal h 0x13
  | .realign => return x
  | .owned =>
    let c := clusterOf (← myCore)
    let flagged ← look fun s => (s.track c x.track.toNat).flag
    if flagged && !resync && x.acc.isNone then headFatal h 0x13
    return x

/-- Waits with the head's access in progress. -/
def holdAccess {α : Type} (h : BitVec 3) (a : HAccess) (more : State → State) : Act α := do
  let t ← cur
  holdKeep fun s => more (s.modHead t h.toNat fun y => { y with acc := some a })

/-- Asks for a realign (R133): the head enters REALIGN and the track shifts by −m. -/
def askRealign (t : Nat) (h : BitVec 3) (x : Head) (a : HAccess) (m : Int) (s : State) : State :=
  let s1 := s.modHead t h.toNat fun y => { y with hs := .realign, acc := some { a with realigns := a.realigns + 1 } }
  askShift (clusterOf (coreOf t)) x.track.toNat
    { by_ := -m, kind := .realign m, seat := (s.thr t).seat.getD 0, head := { tid := t, h := h } } s1

/-- Counts a corrected single-bit error (R133). -/
def countBit (t : Nat) (w : TWord) (s : State) : State :=
  if w.errs = 1 ∧ !s.wroteNow 0x0C9 (coreOf t) then s.modCore (coreOf t) fun c => { c with hdBits := min 0xFFFF (c.hdBits + 1) } else s

/-- Brings the head's position under a port and passes its word through R133; waits for shifts and realigns. -/
def passWord (h : BitVec 3) (write : Bool) : Act TWord := do
  let t ← cur
  let c := clusterOf (← myCore)
  let seat ← mySeat
  let x ← ownedHead h false
  let a := x.acc.getD { write := write }
  match a.fatal with
  | some sub => headFatal h sub
  | none =>
    if x.hs = .realign then holdAccess h a id
    let k ← look fun s => s.track c x.track.toNat
    if !k.shifts.isEmpty then holdAccess h a id
    let d := shiftToward k.off.toNat x.pos.toNat
    if d ≠ 0 then
      holdAccess h a (askShift c x.track.toNat { by_ := d, kind := .reach, seat := seat, head := { tid := t, h := h } })
    let w := k.shown x.pos.toNat
    match checkWord w x.pos.toNat write with
    | .pass =>
      upd (countBit t w)
      return w
    | .fatal sub => headFatal h sub (countBit t w)
    | .slip m =>
      if 3 ≤ a.realigns then headFatal h 0x10 (countBit t w)
      holdKeep fun s => askRealign t h x a m (countBit t w s)

/-- The head steps after its word: its position, and the track's shift (R136, R144). -/
def stepHead (h : BitVec 3) (f : Head → Head) : Act Unit := do
  let t ← cur
  let c := clusterOf (← myCore)
  let seat ← mySeat
  let x := (← me).head h.toNat
  upd fun s => s.setHead t h.toNat { (f x).stepped with acc := none }
  upd (askShift c x.track.toNat { by_ := x.stepBy, kind := .step, seat := seat, head := { tid := t, h := h } })

/-! ## The instructions (R141 to R146) -/

/-- hd.acq (R142). Where no head is bound the XVAL of subcause 0x03 holds the track asked for and POS 0 (DESIGN CHOICE,
log 14); the head's own state is tested before the operand (DESIGN CHOICE, log 48). -/
def execHdAcq (rd : Reg) (h : BitVec 3) (rs1 : Reg) (s : State) :=
  runComputePlain (.hdAcq rd h rs1) (do
    let a ← readX rs1
    let t ← cur
    let c := clusterOf (← myCore)
    let seat ← mySeat
    let x := (← me).head h.toNat
    let k := bitsOf a 10 0
    let xv := headXval x.pos (BitVec.ofNat 11 k) h
    trapIf (x.hs != .unbound) 9 0x01 (headXval x.pos x.track h)
    let w ← look fun s => s.seatTracks seat c
    let cmb ← look fun s => s.cmBaseOf c
    trapIf (decide (k < w.base) || decide (w.base + w.count ≤ k) || decide (cmb ≤ k)) 9 0x03 xv
    let sh := bitOf a 11
    let grp : BitVec 8 := if sh then BitVec.ofNat 8 (bitsOf a 19 12) else 0
    let bound ← look fun s => s.boundHeads c k
    let others ← look fun s => bound.any fun b =>
      !b.2.sh || b.2.grp != grp || (s.thr b.1.tid).seat != some seat
    let formatting ← look fun s => (s.track c k).formatting
    let x1 : Head := { hs := .owned, sh := sh, grp := grp, track := BitVec.ofNat 11 k }
    if formatting || others || (!sh && !bound.isEmpty) then writeX rd (-1)
    else if bound.isEmpty then
      upd fun s => (s.setHead t h.toNat x1).modTrack c k fun y => { y with owner := some { tid := t, h := h } }
      writeX rd 0
    else
      upd fun s => enterQueue c k { tid := t, h := h } (s.setHead t h.toNat { x1 with hs := .sharedWait })
      writeX rd 1) s

/-- hd.rel (R143): the rel and keep columns of Table 6.3. -/
def execHdRel (h : BitVec 3) (keep : Bool) (s : State) :=
  runComputePlain (.hdRel h keep) (do
    let t ← cur
    let c := clusterOf (← myCore)
    let x := (← me).head h.toNat
    trapIf (x.hs == .unbound) 9 0x02 (headXval x.pos x.track h)
    if !keep then upd (unbindHead t h)
    else if (x.hs == .owned || x.hs == .error) && x.sh then
      let queued ← look fun s => !(s.track c x.track.toNat).queue.isEmpty
      if queued then
        upd fun s => enterQueue c x.track.toNat { tid := t, h := h }
          ((s.setHead t h.toNat { x with hs := .sharedWait }).modTrack c x.track.toNat fun k => { k with owner := none })) s

/-- The head's shift toward a position, as hd.seek and hd.rew start it (R126, R144). -/
def startSeek (h : BitVec 3) (p : BitVec 12) : Act Unit := do
  let t ← cur
  let c := clusterOf (← myCore)
  let seat ← mySeat
  let x := (← me).head h.toNat
  let k ← look fun s => s.track c x.track.toNat
  let d := shiftToward k.finalOff p.toNat
  upd fun s => s.setHead t h.toNat { x with pos := p, pend := d != 0 || x.pend }
  if d ≠ 0 then upd (askShift c x.track.toNat { by_ := d, kind := .seek, seat := seat, head := { tid := t, h := h } })

/-- hd.seek (R144). -/
def execHdSeek (h : BitVec 3) (rs1 rs2 : Reg) (s : State) :=
  runComputePlain (.hdSeek h rs1 rs2) (do
    let p ← readX rs1
    let c ← readX rs2
    let x ← ownedHead h false
    let xv := headXval x.pos x.track h
    trapIf (decide (4095 < p.toNat)) 9 0x04 xv
    let st := bitsOf c 3 0
    trapIf (bitsOf c 4 0 != 0 && (st == 0 || decide (8 < st))) 9 0x04 xv
    let t ← cur
    upd fun s => s.modHead t h.toNat fun y =>
      { y with
        step := if bitsOf c 4 0 = 0 then y.step else BitVec.ofNat 4 st
        dir := if bitsOf c 4 0 = 0 then y.dir else bitOf c 4
        mark := p.truncate 12 }
    startSeek h (p.truncate 12)) s

/-- hd.rew (R144). -/
def execHdRew (h : BitVec 3) (s : State) :=
  runComputePlain (.hdRew h) (do
    let x ← ownedHead h false
    startSeek h x.mark) s

/-- hd.rds (R144). -/
def execHdRds (rd : Reg) (h : BitVec 3) (s : State) :=
  runComputePlain (.hdRds rd h) (do
    let w ← passWord h false
    stepHead h fun y => { y with lastTag := w.tag }
    writeX rd w.data) s

/-- hd.wrs (R144): the old word passes its check before the new one replaces it. LASTTAG becomes the
new word's (DESIGN CHOICE, log 48). -/
def execHdWrs (h : BitVec 3) (rs1 : Reg) (s : State) :=
  runComputePlain (.hdWrs h rs1) (do
    let v ← readX rs1
    let w ← passWord h true
    let c := clusterOf (← myCore)
    let x := (← me).head h.toNat
    upd fun s => s.modTrack c x.track.toNat fun k =>
      { k with words := k.words.set (movePos x.pos.toNat k.slip) (trackWord x.pos.toNat v) }
    stepHead h fun y => { y with lastTag := w.tag }) s

/-- hd.pos (R145). -/
def execHdPos (rd : Reg) (h : BitVec 3) (s : State) :=
  runComputePlain (.hdPos rd h) (do
    let x := (← me).head h.toNat
    trapIf (x.hs == .unbound) 9 0x02 (headXval x.pos x.track h)
    writeX rd (x.pos.zeroExtend 64)) s

/-- Positions of a resync's sweep: up to the first marker word under port 0, 256 where there is none (R145). -/
def sweepLength (k : Track) : Nat :=
  ((List.range 257).find? fun i => (k.shown (k.off.toNat + i)).sensedMark == 0b1010).getD 256

/-- The resync of a track whose sweep has ended (R145): the multiple of 256 nearest the predicted position, the correction,
and the track with its offset corrected. -/
def resyncTrack (k : Track) : Word × Track :=
  let q := k.off.toNat
  let r := q % 256
  let c : Int := if r < 128 then -(r : Int) else 256 - (r : Int)
  (wordOfInt c, { k with
    off := BitVec.ofNat 12 (movePos q c), disp := BitVec.ofInt 12 (k.slip - c), flag := false })

/-- hd.chk (R145). -/
def execHdChk (rd : Reg) (h : BitVec 3) (resync : Bool) (s : State) :=
  runComputePlain (.hdChk rd h resync) (do
    let t ← cur
    let c := clusterOf (← myCore)
    let seat ← mySeat
    if !resync then
      let x := (← me).head h.toNat
      trapIf (x.hs == .unbound) 9 0x02 (headXval x.pos x.track h)
      writeX rd (wordOfNat x.dw1)
    else
      let x ← ownedHead h true
      let a := x.acc.getD { resync := true }
      match a.fatal, a.result with
      | some sub, _ => headFatal h sub
      | none, some r =>
        upd fun s => s.setHead t h.toNat { x with hs := .owned, tflag := false, acc := none }
        writeX rd r
      | none, none =>
        let k ← look fun s => s.track c x.track.toNat
        if !k.shifts.isEmpty then holdAccess h a id
        let f := sweepLength k
        holdAccess h a
          (askShift c x.track.toNat { by_ := f, kind := .sweep, seat := seat, head := { tid := t, h := h } })) s

/-- hd.save (R146): the record is stored, then the head is released. -/
def execHdSave (h : BitVec 3) (rs1 : Reg) (s : State) :=
  runComputePlain (.hdSave h rs1) (do
    let a ← readX rs1
    let t ← cur
    let x := (← me).head h.toNat
    trapIf (x.hs == .unbound) 9 0x02 (headXval x.pos x.track h)
    trapIf (a.toNat % 64 != 0) 4 0 a
    for i in List.range 8 do
      memWrite (a + wordOfNat (8 * i)) 8 (if i = 0 then x.dw0 else if i = 1 then x.dw1 else 0) {}
    upd (unbindHead t h)) s

/-- hd.load (R146): a passing record binds the handle in REACQ, which enters the track's queue. The XVAL of subcause 0x05 holds the
record's POS and TRACK (DESIGN CHOICE, log 14). -/
def execHdLoad (h : BitVec 3) (rs1 : Reg) (s : State) :=
  runComputePlain (.hdLoad h rs1) (do
    let a ← readX rs1
    let t ← cur
    let c := clusterOf (← myCore)
    let seat ← mySeat
    let x := (← me).head h.toNat
    trapIf (x.hs != .unbound) 9 0x01 (headXval x.pos x.track h)
    trapIf (a.toNat % 64 != 0) 4 0 a
    let ws ← (List.range 8).mapM fun i => memRead (a + wordOfNat (8 * i)) 8 {}
    let d0 := wordOfNat (ws.getD 0 0)
    let d1 := wordOfNat (ws.getD 1 0)
    let w ← look fun s => s.seatTracks seat c
    let cmb ← look fun s => s.cmBaseOf c
    let y := headOfRecord d0 d1
    trapIf (!recordGood w cmb d0) 9 0x05 (headXval y.pos y.track h)
    upd fun s => enterQueue c y.track.toNat { tid := t, h := h } (s.setHead t h.toNat y)) s

/-! ## Events of the track store -/

/-- A track's first queued head that may own it (R130): an exclusive head in REACQ waits until it alone is bound. -/
def State.nextOwner (s : State) (c k : Nat) : Option HRef :=
  ((s.track c k).queue.map fun e => e.2).find? fun r =>
    let x := (s.thr r.tid).head r.h.toNat
    x.hs == .sharedWait || (x.hs == .reacq && (x.sh || (s.boundHeads c k).all fun b => b.1 == r))

/-- Ownership passes (R130, R131): a waiting head is OWNED; one in REACQ seeks back to its position first,
a track that awaits formatting or not (DESIGN CHOICE, log 16). -/
def execHeadGrant (cluster track : Nat) (s : State) :=
  runEvent (do
    let k ← look fun s => s.track cluster track
    match k.owner, (← look fun s => s.nextOwner cluster track) with
    | none, some r =>
      upd fun s => s.modTrack cluster track fun y =>
        { y with owner := some r, queue := y.queue.filter fun q => q.2 != r }
      let x ← look fun s => (s.thr r.tid).head r.h.toNat
      let d := shiftToward k.finalOff x.pos.toNat
      if x.hs = .reacq ∧ (d ≠ 0 ∨ !k.shifts.isEmpty) then
        upd fun s => askShift cluster track
          { by_ := d, kind := .back, seat := (s.thr r.tid).seat.getD 0, head := r } s
      else
        upd fun s => (s.setHead r.tid r.h.toNat { x with hs := .owned }).modThr r.tid fun th => { th with waiting := false }
    | _, _ => pure ()) s

/-- Slots granted in a cluster, in all or to one seat (R136). -/
def State.slotsGranted (s : State) (c : Nat) (p : Nat → Bool) : Nat :=
  ((s.cluster c).tracks.toList.filter fun e => e.2.shifts.any fun x => x.granted && p x.seat).length

/-- The shifts of a cluster that can be granted a slot now, one for each track, with their tracks (R136): 64 slots in the cluster, SLOTS for
the seat. -/
def State.grantable (s : State) (c : Nat) : List (Nat × Shift) :=
  if 64 ≤ s.slotsGranted c fun _ => true then []
  else (s.cluster c).tracks.toList.filterMap fun e =>
    match e.2.shifts with
    | x :: _ => if !x.granted && decide (s.slotsGranted c (fun q => q == x.seat) < s.seatSlots x.seat c) then some (e.1, x) else none
    | [] => none

/-- True when shift x comes before shift y: it was asked for earlier, or in the same cycle by a lower core (R136). -/
def Shift.before (x y : Shift) : Bool :=
  decide (x.asked < y.asked) || (x.asked == y.asked && decide (coreOf x.head.tid < coreOf y.head.tid))

/-- A track's first shift receives its slot, when no other that can be granted one comes before it (R136). -/
def execShiftSlotGrant (cluster track : Nat) (s : State) :=
  runEvent (upd fun s =>
    let g := s.grantable cluster
    match g.find? fun e => e.1 == track with
    | some (_, x) =>
      if g.any fun e => e.2.before x then s
      else s.modTrack cluster track fun k => { k with shifts := { x with granted := true } :: k.shifts.tail }
    | none => s) s

/-- True when some port senses a marker that the offset does not predict during a shift of n positions (R134): `real` and
`seen` give the positions under port 0 after i positions, of the track and of the prediction. -/
def markerMismatch (k : Track) (n : Nat) (real seen : Nat → Nat) : Bool :=
  (List.range n).any fun i => (List.range 4).any fun p =>
    (k.word (real (i + 1) + 1024 * p)).sensedMark != markOf ((seen (i + 1) + 1024 * p) % 4096)

/-- The moves of a shift of d positions: i of them made. -/
def partway (d : Int) (i : Nat) : Int := if d < 0 then -(i : Int) else (i : Int)

/-- A shift ends (R126): the offset moves, or a realign moves the words back; the ports' markers are compared (R134); the
slip that the shift suffered displaces the words; its slot is free. A seek back makes its head OWNED while it has the track (R130). The record of
a head that a save has released keeps PEND (R138). -/
def execTrackShiftEnd (cluster track : Nat) (slip : BitVec 12) (s : State) :=
  runEvent (do
    let k ← look fun s => s.track cluster track
    match k.shifts with
    | [] => pure ()
    | x :: r =>
      if !x.granted then return ()
      let o := k.off.toNat
      let n := x.by_.natAbs
      let real := fun i => movePos o (k.slip + partway x.by_ i)
      let (k1, bad) := match x.kind with
        | .realign m =>
          ({ k with disp := BitVec.ofInt 12 (k.slip + x.by_) },
            markerMismatch k n real fun i => movePos o (m + partway x.by_ i))
        | .sweep => ({ k with off := BitVec.ofNat 12 (movePos o x.by_) }, false)
        | _ =>
          ({ k with off := BitVec.ofNat 12 (movePos o x.by_) },
            markerMismatch k n real fun i => movePos o (partway x.by_ i))
      let newFlag := bad && !k.flag
      let k2 := { k1 with shifts := r, flag := k1.flag || bad }
      let found := (k2.shown k2.off.toNat).sensedMark == 0b1010
      let (c, k3) := if x.kind = .sweep ∧ found then resyncTrack k2 else (0, k2)
      let k4 := { k3 with disp := k3.disp + slip }
      upd fun s => s.setTrack cluster track k4
      -- the head that the shift serves
      let th ← look fun s => s.thr x.head.tid
      let hd := th.head x.head.h.toNat
      if hd.hs != .unbound && hd.track.toNat == track then
        let backs := r.any fun y => y.head == x.head && y.kind == .back
        let seeks := r.any fun y => y.head == x.head && y.kind == .seek
        let hd1 := match x.kind with
          | .seek => if hd.hs = .saved then hd else { hd with pend := seeks }
          | .back => if hd.hs = .reacq ∧ k.owner = some x.head ∧ !backs then { hd with hs := .owned } else hd
          | .sweep =>
            match hd.acc with
            | some a => { hd with acc := some (if found then { a with result := some c } else { a with fatal := some 0x14 }) }
            | none => hd
          | _ => hd
        upd fun s => (s.setHead x.head.tid x.head.h.toNat hd1).modThr x.head.tid fun th => { th with waiting := false }
      -- an access whose word has not passed when the flag is set is fatal
      match k.owner with
      | some q =>
        if newFlag then
          upd fun s => s.modHead q.tid q.h.toNat fun y =>
            match y.acc with
            | some a => if a.resync then y else { y with acc := some { a with fatal := some 0x11 }, tflag := true }
            | none => y
      | none => pure ()) s

/-- The word is read again after a realign (R133): it passes and the slip is counted, it is realigned again, or the access
is fatal. -/
def execRealignReread (tid : Nat) (h : BitVec 3) (s : State) :=
  runEvent (do
    let c := clusterOf (coreOf tid)
    let x ← look fun s => (s.thr tid).head h.toNat
    let k ← look fun s => s.track c x.track.toNat
    if x.hs != .realign || !k.shifts.isEmpty then return ()
    let a := x.acc.getD {}
    let w := k.shown x.pos.toNat
    let fatal := fun (sub : BitVec 8) (s : State) =>
      s.setHead tid h.toNat { x with hs := .owned, acc := some { a with fatal := some sub } }
    let next : State → State := match a.fatal with
      | some sub => fatal sub
      | none =>
        match checkWord w x.pos.toNat a.write with
        | .pass => fun s =>
          let s1 := s.setHead tid h.toNat { x with hs := .owned, slips := if x.slips = 255 then 255 else x.slips + 1 }
          if s.wroteNow 0x0C9 (coreOf tid) then s1 else s1.modCore (coreOf tid) fun y => { y with hdSlips := min 0xFFFF (y.hdSlips + 1) }
        | .fatal sub => fun s => fatal sub (countBit tid w s)
        | .slip m => fun s => (if 3 ≤ a.realigns then fatal 0x10 else askRealign tid h x a m) (countBit tid w s)
    upd fun s => (next s).modThr tid fun th => { th with waiting := false }) s

/-- Formatting of a track (R128): zero data with the tags and marks of the positions, offset 0, no flag. -/
def formatTrack (k : Track) : Track := { k with off := 0, disp := 0, words := {}, flag := false, formatting := false }

/-- The track store formats the tracks of a range that await it (R128). -/
def execTrackFormat (cluster first count : Nat) (s : State) :=
  runEvent (upd fun s => s.modCluster cluster fun c =>
    { c with tracks := c.tracks.mapVals fun i k =>
        if k.formatting && decide (first ≤ i) && decide (i < first + count) then formatTrack k else k }) s

end Sys2Proof.Machine
end

