-- ==== Sys2Proof/Machine/Expander.lean ====
section
/-! DEFINITION. The expander's work on the cluster-memory tracks (R126, R133, R166, R167): it moves the coded words of the block that leaves and
of the block that comes, one after another, each under a shift slot of the accessing seat and through the checks of a track word. -/

namespace Sys2Proof.Machine

/-- What the expander does next on its work: the track word in hand, and the value to write there or none for a read. -/
def CmJob.next (j : CmJob) : Option (Nat × Option Nat) :=
  match j.writes, j.reads with
  | (w, v) :: _, _ => some (w, some v)
  | [], w :: _ => some (w, none)
  | [], [] => none

/-- The work once the word in hand has been written, or read with a value. -/
def CmJob.done (j : CmJob) (v : Nat) : CmJob :=
  match j.writes with
  | _ :: r => { j with writes := r, realigns := 0 }
  | [] => { j with reads := j.reads.tail, got := j.got ++ [v], realigns := 0 }

/-- The block that the words read decode to (R166); nothing stands for one that no words hold. -/
def CmJob.bytes (j : CmJob) : List Byte :=
  if j.got.isEmpty then List.replicate 512 0 else (decodeChunks 1 (j.got.flatMap (bytesOf 8))).getD []

/-- The expander has its block (R167). -/
def cmFinish (c : Nat) (j : CmJob) (s : State) : State :=
  (cmEnter c j.block (s.setBytes (cmAddr c (512 * j.block)) j.bytes)).modCluster c fun x => { x with cmJob := none }

/-- Keeps the expander's work. -/
def cmKeep (c : Nat) (j : CmJob) (s : State) : State := s.modCluster c fun x => { x with cmJob := some j }

/-- The word in hand is uncorrectable: a read fails the work, and a write replaces the word all the same (R167; DESIGN CHOICE, log 45). -/
def cmFatal (c : Nat) (j : CmJob) (write : State → State) (isWrite : Bool) (s : State) : State :=
  if isWrite then cmKeep c (j.done 0) (write s) else cmKeep c { j with failed := some s.cycle } s

/-- The expander goes on with the word in hand: its track shifts, is realigned after a slip, or shows the word, which passes R133 (R126, R133,
R167). A track whose fault flag is set shows no word that passes. -/
def cmWord (c : Nat) (j : CmJob) (w : Nat) (v : Option Nat) (s : State) : State :=
  let t := w / 4096
  let p := w % 4096
  let k := s.track c t
  let d := shiftToward k.off.toNat p
  let ask := fun (n : Int) (kind : ShiftKind) (s : State) =>
    askShift c t { by_ := n, kind := kind, seat := j.seat, head := { tid := j.tid } } s
  let write := fun (s : State) => match v with
    | some v => s.modTrack c t fun k => { k with words := k.words.set (movePos p k.slip) (trackWord p (wordOfNat v)) }
    | none => s
  let x := k.shown p
  if !k.shifts.isEmpty then s
  else if k.flag then cmFatal c j write v.isSome s
  else if d ≠ 0 then ask d .reach s
  else
    match checkWord x p v.isSome with
    | .pass => cmKeep c (j.done x.data.toNat) (write s)
    | .fatal _ => cmFatal c j write v.isSome s
    | .slip m => if 3 ≤ j.realigns then cmFatal c j write v.isSome s else ask (-m) (.realign m) (cmKeep c { j with realigns := j.realigns + 1 } s)

/-- The expander brings in a block of a cluster's window, with the eviction that makes room for it (R167). Work that has failed is dropped once
the access that needed it has had its turns. -/
def execCmBlockFill (cluster block : Nat) (s : State) :=
  runEvent (upd fun s =>
    match (s.cluster cluster).cmJob with
    | none => s
    | some j =>
      if j.block ≠ block then s
      else
        match j.failed, j.next with
        | some f, _ => if f + 8 < s.cycle then s.modCluster cluster fun x => { x with cmJob := none } else s
        | none, some (w, v) => cmWord cluster j w v s
        | none, none => cmFinish cluster j s) s

end Sys2Proof.Machine
end

