-- ==== Sys2Proof/Machine/Fetch.lean ====
section
/-! DEFINITION. The fetch of an instruction word through the instruction cache (R83 to R86, R329) and the words of a unit
(R28, R32). -/

namespace Sys2Proof.Machine

/-- A failed fetch: cause, subcause and the address of the word (R329, R353). -/
structure FetchFail where
  cause : BitVec 8
  sub : BitVec 8
  va : Word
deriving DecidableEq, Repr

/-- A failed access as a failed fetch. -/
def fetchFail (va : Word) : Bad → FetchFail
  | .addr sub => ⟨3, sub, va⟩
  | .data sub => ⟨7, sub, va⟩
  | .misaligned => ⟨3, 0, va⟩
  | .channel _ => ⟨3, 0, va⟩

/-- Set of an instruction-cache line (R83). -/
def isetOf (va : Nat) : Nat := va / 64 % 128

/-- The sixteen words of a line. -/
def lineWords : Nat → Nat → List IWord
  | 0, _ => []
  | n + 1, v => BitVec.ofNat 32 v :: lineWords n (v / 2 ^ 32)

/-- Enters a line for thread index k, which fills only ways 2k and 2k + 1, the least recently filled first (R83). -/
def fillLine (k : Nat) (l : ILine) (lines : List ILine) : List ILine :=
  let own := lines.filter fun x => x.way / 2 == k
  match (if own.length < 2 then [2 * k, 2 * k + 1].find? fun w => own.all fun x => x.way != w else none), own with
  | some w, _ => lines ++ [{ l with way := w }]
  | none, o :: _ => (lines.filter fun x => x.way != o.way) ++ [{ l with way := o.way }]
  | none, [] => lines

/-- The line of core n's instruction cache that holds an address. -/
def State.iline (s : State) (n va : Nat) : Option ILine :=
  ((s.core n).icache.get [] (isetOf va)).find? fun l => l.va == va / 64 * 64

/-- Brings the line of an address into the core's instruction cache for a thread (R83, R84); a fill that fails is recorded against
the line. -/
def fillICache (ag : Agent) (va : Nat) : Act ILine := do
  upd fun s => s.modCore ag.core fun c => { c with imiss := (c.imiss + 1) % 2 ^ 24 }
  let none_ : ILine := { va := va / 64 * 64 }
  let bad := fun (b : Bad) => let f := fetchFail 0 b; { none_ with failed := some (f.cause, f.sub) }
  let l ← match ← translate ag va needX with
    | .error b => pure (bad b)
    | .ok x =>
      match ← readHome ag (x.pa / 64 * 64) 64 with
      | .error b => pure (bad b)
      | .ok v => pure { none_ with dom := x.dom, page := x.size, words := lineWords 16 v }
  upd fun s => s.modCore ag.core fun c =>
    { c with icache := c.icache.set (isetOf va) (fillLine (ag.tid % 4) l (c.icache.get [] (isetOf va))) }
  upd State.settled
  return l

/-- The word at an address in a thread's run-ahead buffer (R86). -/
def Thread.aheadWord (th : Thread) (va : Nat) : Option Ahead :=
  if th.aheadAt.toNat ≤ va then th.ahead[(va - th.aheadAt.toNat) / 4]? else none

/-- Takes a word from a line: a hit checks the X right of the line's domain (R83); a recorded failure is raised, and the
line is filled anew by the next fetch (R84). The failure is the line's, raised once, whichever thread of the core reaches it
(DESIGN CHOICE, log 50). -/
def lineWord (ag : Agent) (pc : Word) (l : ILine) : Act (Except FetchFail IWord) := do
  match l.failed with
  | some (c, sub) =>
    upd fun s => s.modCore ag.core fun k =>
      { k with icache := k.icache.set (isetOf l.va) ((k.icache.get [] (isetOf l.va)).filter fun x => x.va != l.va) }
    return .error ⟨c, sub, pc⟩
  | none =>
    match ← checkRight ag l.dom needX with
    | .error b => return .error (fetchFail pc b)
    | .ok _ => return .ok (l.words.getD (pc.toNat % 64 / 4) 0)

/-- Fetches the word at an address for a thread: from its run-ahead buffer, or the instruction cache, which a miss fills. A PC with
bit 1 set, which a save area may give, is a misaligned fetch (R70). A PC with bit 0 set and bit 1 clear fetches the word that
holds it and stays odd (DESIGN CHOICE, log 42). -/
def fetchWord (ag : Agent) (pc : Word) : Act (Except FetchFail IWord) := do
  let va := pc.toNat
  if pc.getLsbD 1 then return .error ⟨2, 0, pc⟩
  match placeOf ag.core va with
  | .bad sub => return .error ⟨3, sub, pc⟩
  | .bank _ _ => return .error ⟨3, 0x0A, pc⟩
  | .cm _ _ => return .error ⟨3, 0x0A, pc⟩
  | .page =>
    match (← look fun s => s.thr ag.tid).aheadWord va with
    | some x =>
      match ← checkRight ag x.dom needX with
      | .error b => return .error (fetchFail pc b)
      | .ok _ => return .ok x.word
    | none =>
      match ← look fun s => s.iline ag.core va with
      | some l => lineWord ag pc l
      | none => lineWord ag pc (← fillICache ag va)

/-! ## Run-ahead (R86) -/

/-- The buffer from the thread's next PC on: words before it are gone, and a PC outside it empties it. -/
def Thread.trimAhead (th : Thread) : Thread :=
  let pc := th.pc.toNat / 4 * 4
  let kept := if th.aheadAt.toNat ≤ pc ∧ pc ≤ th.aheadAt.toNat + 4 * th.ahead.length
    then th.ahead.drop ((pc - th.aheadAt.toNat) / 4) else []
  { th with aheadAt := wordOfNat pc, ahead := kept }

/-- The address behind a thread's run-ahead buffer. -/
def Thread.aheadEnd (th : Thread) : Nat := th.aheadAt.toNat + 4 * th.ahead.length

/-- The entry of a translation unit that covers an address. -/
def State.xlatAt (s : State) (n va : Nat) : Option XEntry :=
  (s.cluster (xlatOf n)).xlat.find? fun e => decide (e.page ≤ va) && decide (va < e.page + e.size)

/-- True when run-ahead of a thread may reach an address: its line hits, or its translation is cached with X for the
thread's seat. It starts no page walk; that the core's protection buffer must hold the page's nibble too is the model's
choice (DESIGN CHOICE, log 50). -/
def State.mayRunAhead (s : State) (ag : Agent) (va : Nat) : Bool :=
  (match s.iline ag.core va with
    | some l => l.failed.isNone
    | none => false)
  || match s.xlatAt ag.core va with
    | some e => (s.core ag.core).plb.any fun p => p.seat == ag.seat && p.dom == e.dom && p.nib &&& needX == needX
    | none => false

/-- A thread that fetches for itself. -/
def Thread.fetches (th : Thread) : Bool := (th.st == .running || th.st == .stopping) && !th.saving && (!th.fused || th.leader)

/-- The word at an address that a thread's fetch finds without a fill. -/
def State.cachedWord (s : State) (t va : Nat) : Option IWord :=
  match (s.thr t).aheadWord va with
  | some x => some x.word
  | none => (s.iline (coreOf t) va).bind fun l => if l.failed.isNone then some (l.words.getD (va % 64 / 4) 0) else none

/-- True for a word that decodes to a prefix. -/
def prefixWord (w : IWord) : Bool :=
  match decode w with
  | .ok (.pfxImm _) | .ok (.pfxOrd _) => true
  | _ => false

/-- The addresses of the words that R27 has reached in the unit at a thread's PC: the first, and the one behind each prefix that is there. -/
def State.unitReach (s : State) (t : Nat) : List Nat :=
  let pc := (s.thr t).pc.toNat
  let heads := fun (va : Nat) => (s.cachedWord t va).any prefixWord
  if heads pc then (if heads (pc + 4) then [pc, pc + 4, pc + 8] else [pc, pc + 4]) else [pc]

/-- True where a line may be filled for a thread: R27 has reached a word of it, or the thread's run-ahead may go on into it (R84, R86). -/
def State.mayFill (s : State) (t va : Nat) : Bool :=
  let th := (s.thr t).trimAhead
  (s.thr t).fetches && ((s.unitReach t).any (fun a => a / 64 == va / 64)
    || (th.aheadEnd / 64 == va / 64 && decide (th.ahead.length < 16) && s.mayRunAhead (s.agent t) va))

/-- Fills a thread's run-ahead buffer by up to k words. -/
def fillAhead (ag : Agent) : Nat → Act Unit
  | 0 => pure ()
  | k + 1 => do
    let th ← look fun s => s.thr ag.tid
    let va := th.aheadEnd
    if 16 ≤ th.ahead.length ∨ placeOf ag.core va ≠ .page then return ()
    if !(← look fun s => s.mayRunAhead ag va) then return ()
    let l ← match ← look fun s => s.iline ag.core va with
      | some l => pure l
      | none => progress (fillICache ag va)
    if l.failed.isSome then return ()
    upd fun s => s.modThr ag.tid fun th => { th with ahead := th.ahead ++ [{ word := l.words.getD (va % 64 / 4) 0, dom := l.dom, page := l.page }] }
    fillAhead ag k

/-- The run-ahead of thread t. -/
def runAhead (t : Nat) (s : State) : Host.Outcome State Fault Refusal :=
  runEvent (do
    if (← look fun s => s.thr t).fetches then
      upd fun s => s.modThr t Thread.trimAhead
      fillAhead (← look fun s => s.agent t) 16) s

/-- True while the run-ahead of a thread waits at a page boundary (R86): the next word lies in another page, which it may not
reach, and the thread's PC has not crossed into it. -/
def State.waitsAtPage (s : State) (t : Nat) : Bool :=
  let th := (s.thr t).trimAhead
  let va := th.aheadEnd
  let size := (th.ahead.getLastD {}).page
  th.fetches && !th.ahead.isEmpty && decide (th.ahead.length < 16) && decide (va % size = 0) && !s.mayRunAhead (s.agent t) va

/-- Word k of the current unit: fetched, or as the leader forwarded it (R28, R92). -/
def unitWord (k : Nat) : Act (Except FetchFail IWord) := do
  let th ← me
  let ag ← meAgent
  if th.follows then
    match th.fq with
    | u :: _ => return .ok (u.words.getD k 0)
    | [] => fetchWord ag (th.pc + 4 * wordOfNat k)
  else fetchWord ag (th.pc + 4 * wordOfNat k)

/-- What a word decodes to on core n: a dealer core has no custom-1 and no custom-2 forms, so that their words are unassigned
encodings there, whatever their fields (R27, R141, R147, R252). -/
def decodeOn (n : Nat) (w : IWord) : Except DecErr Instr :=
  if isDealer n && (w.extractLsb' 0 7 == 0b0101011 || w.extractLsb' 0 7 == 0b1011011) then .error .unassigned else decode w

end Sys2Proof.Machine
end

