-- ==== Sys2Proof/Machine/Scalar.lean ====
section
/-! DEFINITION. The scalar datapath: integer computation (R45 to R50), loads and stores (R52, R53), control flow (R54, R55) and
bit-field operations (R57 to R60). -/

namespace Sys2Proof.Machine

/-! ## Shared forms -/

/-- A register-register form: rs1, then rs2, then rd (R42). -/
def opRR (rd rs1 rs2 : Reg) (f : Word → Word → Word) : Act Unit := do
  let a ← readX rs1
  let b ← readX rs2
  writeX rd (f a b)

/-- A form of one register and a constant. -/
def opR (rd rs1 : Reg) (f : Word → Word) : Act Unit := do
  let a ← readX rs1
  writeX rd (f a)

/-- 1 for true, as a register value. -/
def flagW (b : Bool) : Word := if b then 1 else 0

/-! ## Results (Tables 2.4, 2.5, 2.7, 2.8, 2.10) -/

def sllV (a b : Word) : Word := a <<< (b.toNat % 64)
def srlV (a b : Word) : Word := a >>> (b.toNat % 64)
def sraV (a b : Word) : Word := a.sshiftRight (b.toNat % 64)
def sltV (a b : Word) : Word := flagW (a.slt b)
def sltuV (a b : Word) : Word := flagW (a.ult b)
def addwV (a b : Word) : Word := sx32 (lo32 (a + b))
def subwV (a b : Word) : Word := sx32 (lo32 (a - b))
def sllwV (a b : Word) : Word := sx32 (lo32 a <<< (b.toNat % 32))
def srlwV (a b : Word) : Word := sx32 (lo32 a >>> (b.toNat % 32))
def srawV (a b : Word) : Word := sx32 ((lo32 a).sshiftRight (b.toNat % 32))
def mulhV (a b : Word) : Word := wordOfInt (Int.fdiv (a.toInt * b.toInt) (2 ^ 64))
def mulhsuV (a b : Word) : Word := wordOfInt (Int.fdiv (a.toInt * (b.toNat : Int)) (2 ^ 64))
def mulhuV (a b : Word) : Word := wordOfNat (a.toNat * b.toNat / 2 ^ 64)
/-- Division truncated toward zero; −1 for a zero divisor, and −2^63 by −1 wraps to itself (R50). -/
def divV (a b : Word) : Word := if b = 0 then -1 else wordOfInt (Int.tdiv a.toInt b.toInt)
def divuV (a b : Word) : Word := if b = 0 then -1 else wordOfNat (a.toNat / b.toNat)
def remV (a b : Word) : Word := if b = 0 then a else wordOfInt (a.toInt - b.toInt * Int.tdiv a.toInt b.toInt)
def remuV (a b : Word) : Word := if b = 0 then a else wordOfNat (a.toNat % b.toNat)
def mulwV (a b : Word) : Word := sx32 (lo32 (a * b))
def divwV (a b : Word) : Word :=
  if lo32 b = 0 then -1 else sx32 (BitVec.ofInt 32 (Int.tdiv (lo32 a).toInt (lo32 b).toInt))
def divuwV (a b : Word) : Word :=
  if lo32 b = 0 then -1 else sx32 (BitVec.ofNat 32 ((lo32 a).toNat / (lo32 b).toNat))
def remwV (a b : Word) : Word :=
  if lo32 b = 0 then sx32 (lo32 a)
  else sx32 (BitVec.ofInt 32 ((lo32 a).toInt - (lo32 b).toInt * Int.tdiv (lo32 a).toInt (lo32 b).toInt))
def remuwV (a b : Word) : Word :=
  if lo32 b = 0 then sx32 (lo32 a) else sx32 (BitVec.ofNat 32 ((lo32 a).toNat % (lo32 b).toNat))

/-- The field of a control value: offset and width (R58). -/
def fieldOff (c : Word) : Nat := bitsOf c 7 0
def fieldWid (c : Word) : Nat := bitsOf c 15 8

/-- bfx (R58): positions above 63 read as zero. -/
def bfxV (a c : Word) : Word := wordOfNat (a.toNat / 2 ^ fieldOff c % 2 ^ fieldWid c)
/-- bfxs (R58): sign-extended only when the field's top position is a real bit. -/
def bfxsV (a c : Word) : Word :=
  let f := a.toNat / 2 ^ fieldOff c % 2 ^ fieldWid c
  if fieldWid c ≠ 0 ∧ fieldOff c + fieldWid c ≤ 64 then wordOfInt (signExtend f (fieldWid c)) else wordOfNat f
/-- bfi (R59): the low wid bits of s placed at off in d, within bits 0 to 63. -/
def bfiV (s c d : Word) : Word :=
  let m := wordOfNat ((2 ^ fieldWid c - 1) * 2 ^ fieldOff c)
  (d &&& ~~~m) ||| (wordOfNat (s.toNat * 2 ^ fieldOff c) &&& m)
/-- Zero bits above the highest 1 (R60), counted over the low n bits. -/
def clzV (a : Word) : Word := if a = 0 then 64 else wordOfNat (63 - log2Fuel 64 a.toNat)
/-- Trailing zero bits among n, by recursion. -/
def ctzN : Nat → Nat → Nat
  | 0, _ => 0
  | n + 1, v => if v % 2 = 1 then 0 else 1 + ctzN n (v / 2)
def ctzV (a : Word) : Word := wordOfNat (ctzN 64 a.toNat)
def cpopV (a : Word) : Word := wordOfNat (popCount 64 a.toNat)
def rev8V (a : Word) : Word := wordOfNat (bytesVal (bytesOf 8 a.toNat).reverse)

/-! ## Register-register forms (R45, R46, R50) -/

def execAdd (rd rs1 rs2 : Reg) (s : State) := runPlain (.add rd rs1 rs2) (opRR rd rs1 rs2 fun a b => a + b) s
def execSub (rd rs1 rs2 : Reg) (s : State) := runPlain (.sub rd rs1 rs2) (opRR rd rs1 rs2 fun a b => a - b) s
def execSll (rd rs1 rs2 : Reg) (s : State) := runPlain (.sll rd rs1 rs2) (opRR rd rs1 rs2 sllV) s
def execSlt (rd rs1 rs2 : Reg) (s : State) := runPlain (.slt rd rs1 rs2) (opRR rd rs1 rs2 sltV) s
def execSltu (rd rs1 rs2 : Reg) (s : State) := runPlain (.sltu rd rs1 rs2) (opRR rd rs1 rs2 sltuV) s
def execXor (rd rs1 rs2 : Reg) (s : State) := runPlain (.xor rd rs1 rs2) (opRR rd rs1 rs2 fun a b => a ^^^ b) s
def execSrl (rd rs1 rs2 : Reg) (s : State) := runPlain (.srl rd rs1 rs2) (opRR rd rs1 rs2 srlV) s
def execSra (rd rs1 rs2 : Reg) (s : State) := runPlain (.sra rd rs1 rs2) (opRR rd rs1 rs2 sraV) s
def execOr (rd rs1 rs2 : Reg) (s : State) := runPlain (.or rd rs1 rs2) (opRR rd rs1 rs2 fun a b => a ||| b) s
def execAnd (rd rs1 rs2 : Reg) (s : State) := runPlain (.and rd rs1 rs2) (opRR rd rs1 rs2 fun a b => a &&& b) s
def execMul (rd rs1 rs2 : Reg) (s : State) := runPlain (.mul rd rs1 rs2) (opRR rd rs1 rs2 fun a b => a * b) s
def execMulh (rd rs1 rs2 : Reg) (s : State) := runPlain (.mulh rd rs1 rs2) (opRR rd rs1 rs2 mulhV) s
def execMulhsu (rd rs1 rs2 : Reg) (s : State) := runPlain (.mulhsu rd rs1 rs2) (opRR rd rs1 rs2 mulhsuV) s
def execMulhu (rd rs1 rs2 : Reg) (s : State) := runPlain (.mulhu rd rs1 rs2) (opRR rd rs1 rs2 mulhuV) s
def execDiv (rd rs1 rs2 : Reg) (s : State) := runPlain (.div rd rs1 rs2) (opRR rd rs1 rs2 divV) s
def execDivu (rd rs1 rs2 : Reg) (s : State) := runPlain (.divu rd rs1 rs2) (opRR rd rs1 rs2 divuV) s
def execRem (rd rs1 rs2 : Reg) (s : State) := runPlain (.rem rd rs1 rs2) (opRR rd rs1 rs2 remV) s
def execRemu (rd rs1 rs2 : Reg) (s : State) := runPlain (.remu rd rs1 rs2) (opRR rd rs1 rs2 remuV) s
def execAddw (rd rs1 rs2 : Reg) (s : State) := runPlain (.addw rd rs1 rs2) (opRR rd rs1 rs2 addwV) s
def execSubw (rd rs1 rs2 : Reg) (s : State) := runPlain (.subw rd rs1 rs2) (opRR rd rs1 rs2 subwV) s
def execSllw (rd rs1 rs2 : Reg) (s : State) := runPlain (.sllw rd rs1 rs2) (opRR rd rs1 rs2 sllwV) s
def execSrlw (rd rs1 rs2 : Reg) (s : State) := runPlain (.srlw rd rs1 rs2) (opRR rd rs1 rs2 srlwV) s
def execSraw (rd rs1 rs2 : Reg) (s : State) := runPlain (.sraw rd rs1 rs2) (opRR rd rs1 rs2 srawV) s
def execMulw (rd rs1 rs2 : Reg) (s : State) := runPlain (.mulw rd rs1 rs2) (opRR rd rs1 rs2 mulwV) s
def execDivw (rd rs1 rs2 : Reg) (s : State) := runPlain (.divw rd rs1 rs2) (opRR rd rs1 rs2 divwV) s
def execDivuw (rd rs1 rs2 : Reg) (s : State) := runPlain (.divuw rd rs1 rs2) (opRR rd rs1 rs2 divuwV) s
def execRemw (rd rs1 rs2 : Reg) (s : State) := runPlain (.remw rd rs1 rs2) (opRR rd rs1 rs2 remwV) s
def execRemuw (rd rs1 rs2 : Reg) (s : State) := runPlain (.remuw rd rs1 rs2) (opRR rd rs1 rs2 remuwV) s

/-! ## Immediate forms (R47 to R49) -/

def addiOp (rd rs1 : Reg) (imm : Word) : Act Unit := opR rd rs1 fun a => a + imm
def sltiOp (rd rs1 : Reg) (imm : Word) : Act Unit := opR rd rs1 fun a => sltV a imm
def sltiuOp (rd rs1 : Reg) (imm : Word) : Act Unit := opR rd rs1 fun a => sltuV a imm
def xoriOp (rd rs1 : Reg) (imm : Word) : Act Unit := opR rd rs1 fun a => a ^^^ imm
def oriOp (rd rs1 : Reg) (imm : Word) : Act Unit := opR rd rs1 fun a => a ||| imm
def andiOp (rd rs1 : Reg) (imm : Word) : Act Unit := opR rd rs1 fun a => a &&& imm

def execAddi (rd rs1 : Reg) (imm : BitVec 12) (s : State) := runPlain (.addi rd rs1 imm) (addiOp rd rs1 (imm12 imm)) s
def execSlti (rd rs1 : Reg) (imm : BitVec 12) (s : State) := runPlain (.slti rd rs1 imm) (sltiOp rd rs1 (imm12 imm)) s
def execSltiu (rd rs1 : Reg) (imm : BitVec 12) (s : State) := runPlain (.sltiu rd rs1 imm) (sltiuOp rd rs1 (imm12 imm)) s
def execXori (rd rs1 : Reg) (imm : BitVec 12) (s : State) := runPlain (.xori rd rs1 imm) (xoriOp rd rs1 (imm12 imm)) s
def execOri (rd rs1 : Reg) (imm : BitVec 12) (s : State) := runPlain (.ori rd rs1 imm) (oriOp rd rs1 (imm12 imm)) s
def execAndi (rd rs1 : Reg) (imm : BitVec 12) (s : State) := runPlain (.andi rd rs1 imm) (andiOp rd rs1 (imm12 imm)) s
def execSlli (rd rs1 : Reg) (sh : BitVec 6) (s : State) :=
  runPlain (.slli rd rs1 sh) (opR rd rs1 fun a => a <<< sh.toNat) s
def execSrli (rd rs1 : Reg) (sh : BitVec 6) (s : State) :=
  runPlain (.srli rd rs1 sh) (opR rd rs1 fun a => a >>> sh.toNat) s
def execSrai (rd rs1 : Reg) (sh : BitVec 6) (s : State) :=
  runPlain (.srai rd rs1 sh) (opR rd rs1 fun a => a.sshiftRight sh.toNat) s
def execAddiw (rd rs1 : Reg) (imm : BitVec 12) (s : State) :=
  runPlain (.addiw rd rs1 imm) (opR rd rs1 fun a => addwV a (imm12 imm)) s
def execSlliw (rd rs1 : Reg) (sh : BitVec 5) (s : State) :=
  runPlain (.slliw rd rs1 sh) (opR rd rs1 fun a => sx32 (lo32 a <<< sh.toNat)) s
def execSrliw (rd rs1 : Reg) (sh : BitVec 5) (s : State) :=
  runPlain (.srliw rd rs1 sh) (opR rd rs1 fun a => sx32 (lo32 a >>> sh.toNat)) s
def execSraiw (rd rs1 : Reg) (sh : BitVec 5) (s : State) :=
  runPlain (.sraiw rd rs1 sh) (opR rd rs1 fun a => sx32 ((lo32 a).sshiftRight sh.toNat)) s
def execLui (rd : Reg) (imm : BitVec 20) (s : State) := runPlain (.lui rd imm) (writeX rd (immU imm)) s
/-- auipc (R49) adds to its own address; a follower's is the leader's (R92). -/
def execAuipc (rd : Reg) (imm : BitVec 20) (s : State) :=
  runPlain (.auipc rd imm) (do let th ← me; writeX rd (th.pc + immU imm)) s

/-! ## Loads and stores (R52, R53) -/

/-- A pfx.ord target waits, unissued, for its counter (R30, R65). -/
def waitOrd (c : BitVec 2) : Act Unit := do
  if !(← counterSeen c) then stall

/-- The value of an n-byte load, sign- or zero-extended. -/
def extendLoad (n : Nat) (sx : Bool) (v : Nat) : Word := if sx then wordOfInt (signExtend v (8 * n)) else wordOfNat v

/-- A base load with its immediate and the counter of a pfx.ord (R52, R53). -/
def loadOp (n : Nat) (sx : Bool) (rd rs1 : Reg) (imm : Word) (wait : BitVec 2) : Act Unit := do
  let a ← readX rs1
  waitOrd wait
  let v ← memRead (a + imm) n (← plainAtt)
  writeX rd (extendLoad n sx v)

/-- A base store (R52, R53). -/
def storeOp (n : Nat) (rs2 rs1 : Reg) (imm : Word) (wait : BitVec 2) : Act Unit := do
  let a ← readX rs1
  let v ← readX rs2
  waitOrd wait
  memWrite (a + imm) n v.toNat (← plainAtt)

def execLb (rd rs1 : Reg) (imm : BitVec 12) (s : State) := runPlain (.lb rd rs1 imm) (loadOp 1 true rd rs1 (imm12 imm) 0) s
def execLh (rd rs1 : Reg) (imm : BitVec 12) (s : State) := runPlain (.lh rd rs1 imm) (loadOp 2 true rd rs1 (imm12 imm) 0) s
def execLw (rd rs1 : Reg) (imm : BitVec 12) (s : State) := runPlain (.lw rd rs1 imm) (loadOp 4 true rd rs1 (imm12 imm) 0) s
def execLd (rd rs1 : Reg) (imm : BitVec 12) (s : State) := runPlain (.ld rd rs1 imm) (loadOp 8 false rd rs1 (imm12 imm) 0) s
def execLbu (rd rs1 : Reg) (imm : BitVec 12) (s : State) :=
  runPlain (.lbu rd rs1 imm) (loadOp 1 false rd rs1 (imm12 imm) 0) s
def execLhu (rd rs1 : Reg) (imm : BitVec 12) (s : State) :=
  runPlain (.lhu rd rs1 imm) (loadOp 2 false rd rs1 (imm12 imm) 0) s
def execLwu (rd rs1 : Reg) (imm : BitVec 12) (s : State) :=
  runPlain (.lwu rd rs1 imm) (loadOp 4 false rd rs1 (imm12 imm) 0) s
def execSb (rs2 rs1 : Reg) (imm : BitVec 12) (s : State) := runPlain (.sb rs2 rs1 imm) (storeOp 1 rs2 rs1 (imm12 imm) 0) s
def execSh (rs2 rs1 : Reg) (imm : BitVec 12) (s : State) := runPlain (.sh rs2 rs1 imm) (storeOp 2 rs2 rs1 (imm12 imm) 0) s
def execSw (rs2 rs1 : Reg) (imm : BitVec 12) (s : State) := runPlain (.sw rs2 rs1 imm) (storeOp 4 rs2 rs1 (imm12 imm) 0) s
def execSd (rs2 rs1 : Reg) (imm : BitVec 12) (s : State) := runPlain (.sd rs2 rs1 imm) (storeOp 8 rs2 rs1 (imm12 imm) 0) s

/-! ## Control flow (R54, R55) -/

/-- A branch: a follower takes its leader's decision and evaluates no condition (R92); it reads no operand, so that no
stream-bound register of its own is popped (DESIGN CHOICE, log 42). -/
def branchOp (taken : Word → Word → Bool) (rs1 rs2 : Reg) (off : BitVec 12) : Act (Option Word) := do
  let th ← me
  if th.follows then leaderTarget th
  else
    let a ← readX rs1
    let b ← readX rs2
    if taken a b then jumpTo (th.pc + immB off) else return none

def execBeq (rs1 rs2 : Reg) (off : BitVec 12) (s : State) :=
  runInstr (.beq rs1 rs2 off) (branchOp (fun a b => a == b) rs1 rs2 off) s
def execBne (rs1 rs2 : Reg) (off : BitVec 12) (s : State) :=
  runInstr (.bne rs1 rs2 off) (branchOp (fun a b => a != b) rs1 rs2 off) s
def execBlt (rs1 rs2 : Reg) (off : BitVec 12) (s : State) :=
  runInstr (.blt rs1 rs2 off) (branchOp (fun a b => a.slt b) rs1 rs2 off) s
def execBge (rs1 rs2 : Reg) (off : BitVec 12) (s : State) :=
  runInstr (.bge rs1 rs2 off) (branchOp (fun a b => !a.slt b) rs1 rs2 off) s
def execBltu (rs1 rs2 : Reg) (off : BitVec 12) (s : State) :=
  runInstr (.bltu rs1 rs2 off) (branchOp (fun a b => a.ult b) rs1 rs2 off) s
def execBgeu (rs1 rs2 : Reg) (off : BitVec 12) (s : State) :=
  runInstr (.bgeu rs1 rs2 off) (branchOp (fun a b => !a.ult b) rs1 rs2 off) s

/-- jal (R55): a transfer that traps writes no link. -/
def execJal (rd : Reg) (off : BitVec 20) (s : State) :=
  runInstr (.jal rd off) (do
    let th ← me
    let r ← jumpTo (th.pc + immJ off)
    writeX rd (th.pc + 4)
    return r) s

/-- jalr in a unit of k words (R55): bit 0 of the target is cleared. A follower takes its leader's target (R92) and does not read
its own rs1 (DESIGN CHOICE, log 42). -/
def jalrOp (rd rs1 : Reg) (imm : Word) (k : Nat) : Act (Option Word) := do
  let th ← me
  let a ← if th.follows then pure 0 else readX rs1
  let r ← jumpTo ((a + imm) &&& ~~~1)
  writeX rd (th.pc + 4 * wordOfNat k)
  return r

def execJalr (rd rs1 : Reg) (imm : BitVec 12) (s : State) :=
  runInstr (.jalr rd rs1 imm) (jalrOp rd rs1 (imm12 imm) 1) s

/-! ## Bit-field and bit forms (R57 to R60) -/

def execBfx (rd rs1 rs2 : Reg) (s : State) := runPlain (.bfx rd rs1 rs2) (opRR rd rs1 rs2 bfxV) s
def execBfxs (rd rs1 rs2 : Reg) (s : State) := runPlain (.bfxs rd rs1 rs2) (opRR rd rs1 rs2 bfxsV) s
/-- bfi reads rs1, rs2, then rd (R59). -/
def execBfi (rd rs1 rs2 : Reg) (s : State) :=
  runPlain (.bfi rd rs1 rs2) (do
    let a ← readX rs1
    let c ← readX rs2
    let d ← readX rd
    writeX rd (bfiV a c d)) s
def execClz (rd rs1 : Reg) (s : State) := runPlain (.clz rd rs1) (opR rd rs1 clzV) s
def execCtz (rd rs1 : Reg) (s : State) := runPlain (.ctz rd rs1) (opR rd rs1 ctzV) s
def execCpop (rd rs1 : Reg) (s : State) := runPlain (.cpop rd rs1) (opR rd rs1 cpopV) s
def execRev8 (rd rs1 : Reg) (s : State) := runPlain (.rev8 rd rs1) (opR rd rs1 rev8V) s

/-! ## Prefixed units (R28 to R32) -/

/-- The action of a target in a unit of k words, with its immediate widened by p and the counter of a pfx.ord; none where
a prefix of the unit does not permit the target (R29 to R31). -/
def prefixedAct (t : Instr) (p : Option (BitVec 22)) (wait : BitVec 2) (k : Nat) : Option (Act (Option Word)) :=
  let imm := fun (i : BitVec 12) => match p with | some p => immP p i | none => imm12 i
  let plain := fun (a : Act Unit) => some (do a; return none : Act (Option Word))
  let alone := fun (a : Act (Option Word)) => if wait = 0 then some a else none
  match t with
  | .lb rd rs1 i => plain (loadOp 1 true rd rs1 (imm i) wait)
  | .lh rd rs1 i => plain (loadOp 2 true rd rs1 (imm i) wait)
  | .lw rd rs1 i => plain (loadOp 4 true rd rs1 (imm i) wait)
  | .ld rd rs1 i => plain (loadOp 8 false rd rs1 (imm i) wait)
  | .lbu rd rs1 i => plain (loadOp 1 false rd rs1 (imm i) wait)
  | .lhu rd rs1 i => plain (loadOp 2 false rd rs1 (imm i) wait)
  | .lwu rd rs1 i => plain (loadOp 4 false rd rs1 (imm i) wait)
  | .sb rs2 rs1 i => plain (storeOp 1 rs2 rs1 (imm i) wait)
  | .sh rs2 rs1 i => plain (storeOp 2 rs2 rs1 (imm i) wait)
  | .sw rs2 rs1 i => plain (storeOp 4 rs2 rs1 (imm i) wait)
  | .sd rs2 rs1 i => plain (storeOp 8 rs2 rs1 (imm i) wait)
  | .addi rd rs1 i => alone (do addiOp rd rs1 (imm i); return none)
  | .slti rd rs1 i => alone (do sltiOp rd rs1 (imm i); return none)
  | .sltiu rd rs1 i => alone (do sltiuOp rd rs1 (imm i); return none)
  | .xori rd rs1 i => alone (do xoriOp rd rs1 (imm i); return none)
  | .ori rd rs1 i => alone (do oriOp rd rs1 (imm i); return none)
  | .andi rd rs1 i => alone (do andiOp rd rs1 (imm i); return none)
  | .jalr rd rs1 i => alone (jalrOp rd rs1 (imm i) k)
  | _ => none

/-- Misuse of a prefix: no word of the unit executes or issues (R27, R31). -/
def prefixMisuse (w0 : IWord) (s : State) : State := takeTrap s.cur w0 1 2 (w0.zeroExtend 64) s

/-- Continues with the word at position k of the unit. A failed fetch traps at the unit's first word (R32). -/
def withUnitWord (w0 : IWord) (k : Nat) (s : State)
    (f : IWord → State → Host.Outcome State Fault Refusal) : Host.Outcome State Fault Refusal :=
  match unitWord k s with
  | .ok (.ok w, s1) => f w s1
  | .ok (.error e, s1) =>
    let s2 := takeTrap s.cur w0 e.cause e.sub e.va s1
    .next (if e.cause = 7 then reportTrap s.cur 7 e.sub e.va s2 else s2)
  | .error (.hold keep) => .next ((keep s).modThr s.cur fun th => { th with waiting := true })
  | .error (.stall keep) => .next (keep s)
  | .error (.trap c sub v keep) => .next (takeTrap s.cur w0 c sub v (keep s))

/-- Runs a unit headed by pfx.imm p: its target, or pfx.ord and a target that both permit (R29, R31). -/
def execPfxImm (p : BitVec 22) (s : State) : Host.Outcome State Fault Refusal :=
  let w0 := encode (.pfxImm p)
  withUnitWord w0 1 s fun w1 s1 =>
    match decode w1 with
    | .ok (.pfxOrd c) =>
      withUnitWord w0 2 s1 fun w2 s2 =>
        match decode w2 with
        | .ok t =>
          match prefixedAct t (some p) c 3 with
          | some a => runUnit [w0, w1, w2] a s2
          | none => .next (prefixMisuse w0 s2)
        | .error _ => .next (prefixMisuse w0 s2)
    | .ok t =>
      match prefixedAct t (some p) 0 2 with
      | some a => runUnit [w0, w1] a s1
      | none => .next (prefixMisuse w0 s1)
    | .error _ => .next (prefixMisuse w0 s1)

/-- Runs a unit headed by pfx.ord c (R30, R31). -/
def execPfxOrd (c : BitVec 2) (s : State) : Host.Outcome State Fault Refusal :=
  let w0 := encode (.pfxOrd c)
  withUnitWord w0 1 s fun w1 s1 =>
    match decode w1 with
    | .ok (.pfxImm p) =>
      withUnitWord w0 2 s1 fun w2 s2 =>
        match decode w2 with
        | .ok t =>
          match prefixedAct t (some p) c 3 with
          | some a => runUnit [w0, w1, w2] a s2
          | none => .next (prefixMisuse w0 s2)
        | .error _ => .next (prefixMisuse w0 s2)
    | .ok t =>
      match prefixedAct t none c 2 with
      | some a => runUnit [w0, w1] a s1
      | none => .next (prefixMisuse w0 s1)
    | .error _ => .next (prefixMisuse w0 s1)

end Sys2Proof.Machine
end

