-- ==== Sys2Proof/Machine/Streams.lean ====
section
/-! DEFINITION. Stream bindings (R149 to R153), copy channels and gather engines (R154 to R162), and the fill of a
cluster-memory block (R167). -/

namespace Sys2Proof.Machine

/-! ## Parts of the state -/

def State.engine (s : State) (c e : Nat) : Engine := (s.cluster c).engines.get {} e
def State.setEngine (s : State) (c e : Nat) (x : Engine) : State :=
  s.modCluster c fun y => { y with engines := y.engines.set e x }

/-- Copy channels that a seat holds in a cluster (Table 7.10). -/
def State.channelsHeld (s : State) (seat c : Nat) : Nat :=
  ((s.cluster c).engines.toList.filter fun e => decide (e.1 < 16) && e.2.st != .free && e.2.seat == seat).length
/-- CPMAX of a seat in a cluster. -/
def State.cpMax (s : State) (seat c : Nat) : Nat :=
  if 1024 ≤ seat then 0 else (s.seat seat).cfg.cpmax.getD (c - (seat / 16 - 1) * 4) 0

/-! ## Stream bindings (R150) -/

/-- S of a stream form, 24 to 31, with its binding (R147). -/
def streamReg (xs : Reg) : Act Unit := trapIf (decide (xs.toNat < 24)) 10 0x01 (regVal xs)

/-- st.bind (R150). The value that S had is lost (R149). An rs1 that is a read-bound register pops before the tests
(DESIGN CHOICE, log 49). -/
def execStBind (xs rs1 : Reg) (s : State) :=
  runComputePlain (.stBind xs rs1) (do
    streamReg xs
    let a ← readX rs1
    let th ← me
    trapIf (th.boundSlot xs).isSome 10 0x01 (regVal xs)
    match (List.range 4).find? fun b => (th.binds.get {} b).reg == 0 with
    | none => trap 10 0x02 (regVal xs)
    | some slot =>
      let d ← readDoublewords a 4
      let b : Binding := { base := rewriteOwn (← myCore) (d.getD 0 0), strides := d.getD 1 0, counts := d.getD 2 0,
                           fmt := d.getD 3 0, reg := xs }
      let bad := b.base.toNat % b.esz != 0 || bitsOf b.strides 31 0 % b.esz != 0 || bitsOf b.strides 63 32 % b.esz != 0
        || b.count == 0 || bitsOf b.fmt 63 3 != 0 || (b.esz == 8 && bitOf b.fmt 2)
      trapIf bad 10 0x03 a
      pushRelease
      upd (setBind (← cur) slot b)
      modMe fun th => { th with regs := th.regs.set xs.toNat 0 }) s

/-- Values that have arrived ahead of the pops. -/
def Binding.values (b : Binding) : Nat :=
  (b.arrived.filter fun e => match e with | .value _ => true | .faulted _ _ => false).length

/-- The binding of S, which a form needs. -/
def boundOrTrap (xs : Reg) : Act (Nat × Binding) := do
  streamReg xs
  match (← me).boundSlot xs with
  | none => trap 10 0x01 (regVal xs)
  | some x => return x

/-- st.rel (R150): the register holds zero after it (R149). -/
def execStRel (xs : Reg) (s : State) :=
  runComputePlain (.stRel xs) (do
    let (slot, b) ← boundOrTrap xs
    let c := clusterOf (← myCore)
    upd (addPf c 1 16 b.values)
    modMe fun th => { th with binds := th.binds.erase slot, regs := th.regs.set xs.toNat 0 }) s

/-- st.pos (R150). -/
def execStPos (rd xs : Reg) (s : State) :=
  runComputePlain (.stPos rd xs) (do
    let (_, b) ← boundOrTrap xs
    writeX rd (wordOfNat b.next)) s

/-- The value of an element as a pop reads it (R150). -/
def Binding.extend (b : Binding) (v : Nat) : Word :=
  if bitOf b.fmt 2 then wordOfInt (signExtend v (8 * b.esz)) else wordOfNat v

/-- True while a thread's refill runs: its bindings are in force (R151, R153). -/
def Thread.refills (th : Thread) : Bool := (th.st == .running || th.st == .idle || th.st == .stopping) && !th.saving

/-- The next element of a read binding is requested and arrives, or its fault is recorded (R151, R157; beyond CMSIZE R165). -/
def execStreamElementArrival (tid slot : Nat) (s : State) :=
  runEvent (do
    let th ← look fun s => s.thr tid
    let ag ← look fun s => s.agent tid
    let c := clusterOf ag.core
    let b := th.binds.get {} slot
    let k := b.next + b.arrived.length
    let behindFault := b.arrived.any fun e => match e with | .value _ => false | .faulted _ _ => true
    if b.reg.toNat < 28 ∨ b.exh ∨ b.count ≤ k ∨ 32 ≤ b.arrived.length ∨ behindFault ∨ !th.refills
        ∨ isDealer ag.core then return ()
    if ← look fun s => s.clusterHeld c then return ()
    let va := b.addr k
    let held ← look fun s => s.heldBy c va.toNat b.esz
    let e ← match held with
      | some (_, .faulted) => pure (Elem.faulted 0x05 va)
      | some _ => hold
      | none =>
        match ← metered { arb := copyArb c, bucket := ag.seat, cost := b2n (k * b.esz % 32 == 0), line := va.toNat + 1, who := copyWho tid (18 + slot) }
            (engineRead ag va b.esz) with
        | .ok v => pure (Elem.value (b.extend v))
        | .error (.bad (.data sub)) =>
          upd (reportTrap tid 7 sub va)
          pure (Elem.faulted 0x05 va)
        | .error .cmBeyond => pure (Elem.faulted 0x0A va)
        | .error _ => pure (Elem.faulted 0x05 va)
    upd fun s => (setBind tid slot { b with arrived := b.arrived ++ [e] } s).modThr tid fun x => { x with waiting := false }) s

/-- The oldest element that a binding slot has pushed and not sent leaves the copy unit (R152, R162), once earlier stores of the
thread to its destination have left. -/
def execStreamPushSend (tid slot : Nat) (s : State) :=
  runEvent (do
    let n := coreOf tid
    let rs ← look fun s => (s.core n).rstores
    match (List.range rs.length).find? fun i => match rs[i]? with
      | some r => r.tid == tid && r.slot == some slot && !r.sent
      | none => false with
    | none => pure ()
    | some i =>
      let r := rs.getD i {}
      if (rs.take i).any fun q => q.tid == tid && q.dest == r.dest && !q.sent then return ()
      sendStore n i r) s

/-! ## Copy channels and gather engines -/

/-- An engine's state code (R158), for a seat that may not hold it. -/
def EState.code : EState → Nat
  | .free => 0 | .active => 1 | .done => 2 | .faulted => 3 | .stopped => 4

/-- The status word of Table 7.9. -/
def Engine.status (x : Engine) : Word :=
  wordOfNat (putAt x.landed 32 + putAt (b2n x.side) 16 + putAt x.sub.toNat 8 + x.st.code)

/-- Bytes of an engine's destination range. -/
def Engine.bytes (x : Engine) (e : Nat) : Nat := if e < 16 then x.len else x.len * x.esz

/-- The completion record of an engine that ends (R159): an arrival at MBX, checked as a store of its seat. -/
def completeEngine (c e : Nat) (x : Engine) : Act Unit := do
  if x.mbx = 0 then return ()
  let ag ← look fun s => { s.agent x.tid with seat := x.seat }
  let src := e + 32 * c
  match ← engineWriteCheck ag x.mbx 8 with
  | .error _ => return ()
  | .ok a =>
    match placeOf ag.core a with
    | .bank _ _ =>
      request ag a 16 0
      upd (postArrival a 2 src [x.status, x.faddr])
    | _ =>
      let _ ← engineWrite ag x.mbx 8 x.status.toNat
      let _ ← engineWrite ag (x.mbx + 8) 8 x.faddr.toNat
      noteEngine x.tid 3 a x.mbx

/-- Frees an engine: each thread that waits on it receives the count (R158). -/
def freeEngine (c e : Nat) (s : State) : State :=
  let x := s.engine c e
  (s.setEngine c e {}).mapThr fun t th =>
    if clusterOf (coreOf t) = c ∧ !isDealer (coreOf t) ∧ th.cpWait = some e ∧ th.seat = some x.seat then
      { th with cpAns := some (wordOfNat x.landed, x.dst.toNat, x.bytes e), waiting := false }
    else th

/-- Stops and frees an engine (R154, R158). -/
def stopEngine (c e : Nat) : Act Unit := do
  let x := { ← look (fun s => s.engine c e) with st := .stopped }
  upd fun s => s.setEngine c e x
  completeEngine c e x
  upd (freeEngine c e)

/-- True when a destination range lies in a scratchpad window and not in banks of the seat (R155). -/
def State.badBanks (s : State) (seat core a len : Nat) : Bool :=
  match placeOf core a with
  | .bank m off =>
    !(decide (off + len ≤ 0x60000) && (List.range (len / 0x2000 + 2)).all fun i =>
      let o := off / 0x2000 * 0x2000 + i * 0x2000
      decide (off + len ≤ o) || s.bankOwned seat m o)
  | _ => false

/-- The common end of cp.go and gt.go (R155, R156): the bank check, then busy or started. -/
def startEngine (rd : Reg) (e : Nat) (x : Engine) : Act Unit := do
  let n := (← myCore)
  let c := clusterOf n
  let seat ← mySeat
  trapIf (← look fun s => s.badBanks seat n x.dst.toNat (x.bytes e)) 10 0x07 x.dst
  let busy ← look fun s => (s.engine c e).st != .free || (decide (e < 16) && decide (s.cpMax seat c ≤ s.channelsHeld seat c))
  if busy then writeX rd (-1)
  else
    pushRelease
    let th ← me
    upd fun s => s.setEngine c e { x with
      st := .active, seat := seat, tid := s.cur, deal := th.deal.getD 0, hand := th.hand.toNat }
    writeX rd 0

/-- cp.go (R155). -/
def execCpGo (rd rs1 rs2 : Reg) (s : State) :=
  runComputePlain (.cpGo rd rs1 rs2) (do
    let a ← readX rs1
    let e ← readX rs2
    trapIf (decide (15 < e.toNat)) 10 0x06 e
    let d ← readDoublewords a 4
    let n ← myCore
    let src := rewriteOwn n (d.getD 0 0)
    let dst := rewriteOwn n (d.getD 1 0)
    let len := bitsOf (d.getD 2 0) 31 0
    let mbx := rewriteOwn n (d.getD 3 0)
    trapIf (src.toNat % 8 != 0 || dst.toNat % 8 != 0 || bitsOf (d.getD 2 0) 63 32 != 0 || len == 0 || len % 8 != 0
      || mbx.toNat % 16 != 0) 10 0x03 a
    startEngine rd e.toNat { src := src, dst := dst, len := len, mbx := mbx }) s

/-- gt.go (R156). -/
def execGtGo (rd rs1 rs2 : Reg) (s : State) :=
  runComputePlain (.gtGo rd rs1 rs2) (do
    let a ← readX rs1
    let g ← readX rs2
    trapIf (decide (1 < g.toNat)) 10 0x06 g
    let d ← readDoublewords a 6
    let n ← myCore
    let idx := rewriteOwn n (d.getD 0 0)
    let dst := rewriteOwn n (d.getD 2 0)
    let f := d.getD 3 0
    let mbx := rewriteOwn n (d.getD 4 0)
    let esz := 2 ^ bitsOf f 33 32
    trapIf (idx.toNat % (if bitOf f 34 then 8 else 4) != 0 || dst.toNat % esz != 0 || bitsOf f 63 35 != 0
      || bitsOf f 31 0 == 0 || mbx.toNat % 16 != 0 || d.getD 5 0 != 0) 10 0x03 a
    startEngine rd (16 + g.toNat) { src := idx, tbl := rewriteOwn n (d.getD 1 0), dst := dst, len := bitsOf f 31 0, esz := esz,
                                     iw64 := bitOf f 34, mbx := mbx }) s

/-- The engine number of cp.wait, cp.stop and cp.stat (R158). -/
def engineNumber (rs1 : Reg) : Act Nat := do
  let e ← readX rs1
  trapIf (decide (17 < e.toNat)) 10 0x06 e
  return e.toNat

/-- Invalidates the issuing core's blocks that overlap a destination range; dirty bytes are written back first (R158). -/
def dropRange (dst bytes : Nat) : Act Unit := do
  dropWhere (← meAgent) (fun b => b.overlaps dst bytes) false

/-- cp.wait (R158). -/
def execCpWait (rd rs1 : Reg) (s : State) :=
  runComputePlain (.cpWait rd rs1) (do
    let e ← engineNumber rs1
    let th ← me
    let c := clusterOf (← myCore)
    let seat ← mySeat
    match th.cpAns with
    | some (v, dst, bytes) =>
      dropRange dst bytes
      writeX rd v
    | none =>
      let x ← look fun s => s.engine c e
      if x.st = .free ∨ x.seat ≠ seat then writeX rd (-1)
      else
        match x.st with
        | .done =>
          dropRange x.dst.toNat (x.bytes e)
          upd (freeEngine c e)
          writeX rd (wordOfNat x.landed)
        | .stopped =>
          dropRange x.dst.toNat (x.bytes e)
          upd (freeEngine c e)
          writeX rd (wordOfNat x.landed)
        | .faulted => trap 10 0x08 (wordOfNat e)
        | _ => holdKeep fun s => s.modThr s.cur fun y => { y with cpWait := some e }) s

/-- cp.stop (R158). -/
def execCpStop (rs1 : Reg) (s : State) :=
  runComputePlain (.cpStop rs1) (do
    let e ← engineNumber rs1
    let c := clusterOf (← myCore)
    let seat ← mySeat
    let x ← look fun s => s.engine c e
    if x.st ≠ .free ∧ x.seat = seat then stopEngine c e) s

/-- cp.stat (R158). -/
def execCpStat (rd rs1 : Reg) (s : State) :=
  runComputePlain (.cpStat rd rs1) (do
    let e ← engineNumber rs1
    let c := clusterOf (← myCore)
    let seat ← mySeat
    let x ← look fun s => s.engine c e
    writeX rd (if x.st = .free then 0 else if x.seat = seat then x.status else 5)) s

/-! ## Landing (R155, R156, R159, R161) -/

/-- How an element of an engine ends. -/
inductive Landed where
  | ok
  | fault (side : Bool) (sub : BitVec 8) (va : Word)
deriving DecidableEq, Repr

/-- The subcause of Table 7.3 of a failed engine access; poisoned data is reported where element faults are (R353). -/
def failSub : Fail → BitVec 8
  | .cmFull => 0x09
  | .cmBeyond => 0x0A
  | .bad .misaligned => 0x0B
  | .bad _ => 0x05

/-- A failed engine access: consumption of poison is reported (R353). -/
def landFail (t : Nat) (side : Bool) (va : Word) (f : Fail) : Act Landed := do
  match f with
  | .bad (.data sub) => upd (reportTrap t 7 sub va)
  | _ => pure ()
  return .fault side (failSub f) va

/-- Writes n bytes of an element at its destination for engine e, after noting the sector in the thread's copy-unit
signature (R184). -/
def landElement (ag : Agent) (c e : Nat) (va : Word) (n v : Nat) : Act Landed := do
  match ← engineWriteCheck ag va n with
  | .error f => landFail ag.tid true va f
  | .ok a =>
    match placeOf ag.core a with
    | .cm m off =>
      match ← cmExpand ag m (off / 512) with
      | .error f => return ← landFail ag.tid true va f
      | .ok _ => pure ()
    | _ => pure ()
    let x ← look fun s => s.engine c e
    let inSrc := decide (e < 16) && decide (x.src.toNat ≤ va.toNat) && decide (va.toNat < x.src.toNat + x.len)
    if inSrc && (x.before.get (2 ^ 64) a == 2 ^ 64) then
      upd fun s => s.setEngine c e { x with before := x.before.set a (s.load a 8) }
    match ← engineWrite ag va n v with
    | .error f => landFail ag.tid true va f
    | .ok _ =>
      noteEngine ag.tid 3 a va
      return .ok

/-- One doubleword of a copy channel lands. Where the copy itself has written the source doubleword, its value before the
copy or the written one is taken, and which is a free value (R161, log 3). -/
def copyElement (ag : Agent) (c e : Nat) (off : Nat) : Act Landed := do
  let x ← look fun s => s.engine c e
  let src := x.src + wordOfNat off
  match ← engineRead ag src 8 with
  | .error f => landFail ag.tid false src f
  | .ok v =>
    let a := match placeOf ag.core src.toNat with
      | .page => none
      | _ => some src.toNat
    let home ← match a with
      | some h => pure h
      | none =>
        match ← translate ag src.toNat needR with
        | .ok t => pure t.pa
        | .error _ => pure 0
    let old := x.before.get (2 ^ 64) home
    let w ← if old = 2 ^ 64 then pure v else do
      let f ← drawWord
      pure (if f.getLsbD 0 then v else old)
    landElement ag c e (x.dst + wordOfNat off) 8 w

/-- One element of a gather engine lands (R156). -/
def gatherElement (ag : Agent) (c e k : Nat) : Act Landed := do
  let x ← look fun s => s.engine c e
  let w := if x.iw64 then 8 else 4
  let ia := x.src + wordOfNat (k * w)
  match ← engineRead ag ia w with
  | .error f => landFail ag.tid false ia f
  | .ok i =>
    let va := x.tbl + wordOfInt (signExtend i (8 * w) * (x.esz : Int))
    match ← engineRead ag va x.esz with
    | .error f => landFail ag.tid false va f
    | .ok v => landElement ag c e (x.dst + wordOfNat (k * x.esz)) x.esz v

/-- Lands elements of `esz` bytes in order until one faults, their bytes charged to the deal (R376), each under the seat's
copy-engine bucket, a token for 32 bytes (R162); answers the fault. A wait keeps the elements landed. -/
def landAll (one : Nat → Act Landed) (seat c e esz : Nat) : List Nat → Act Landed
  | [] => return .ok
  | k :: r => do
    let cost := if e < 16 then b2n (k * esz % 32 == 0) else 1
    let x ← look fun s => s.engine c e
    let l ← metered { arb := copyArb c, bucket := seat, cost := cost, line := k + 1, who := copyWho x.tid e } (one k)
    match l with
    | .fault side sub va => return .fault side sub va
    | .ok =>
      upd fun s => spend 9 esz (some x.deal) (s.setEngine c e { s.engine c e with landed := x.landed + esz })
      progress (landAll one seat c e esz r)

/-- An engine that has landed its last element, or faulted, writes its completion record and is then in its last state (R159). -/
def endEngine (c e : Nat) (x : Engine) : Act Unit := do
  let y := { x with st := x.ending.getD .done, ending := none }
  completeEngine c e y
  upd fun s => recheckCluster c (s.setEngine c e y)

/-- The next packet of a copy channel lands, up to 256 bytes that one packet carries, or the next element of a gather engine; after the last, or at the
lowest faulting element, the engine ends (R155, R157, R159, R162). -/
def execCopyPacketLanded (cluster engine : Nat) (s : State) :=
  runEvent (do
    let x ← look fun s => s.engine cluster engine
    if x.st ≠ .active ∨ 17 < engine then return ()
    if ← look fun s => s.clusterHeld cluster then return ()
    if x.ending.isSome then endEngine cluster engine x
    else
      let ag ← look fun s => { s.agent x.tid with seat := x.seat }
      let esz := if engine < 16 then 8 else x.esz
      let n := if engine < 16 then min (256 - x.landed % 256) (x.bytes engine - x.landed) else x.esz
      let ks := (List.range (n / esz)).map fun i => x.landed / esz + i
      let opens := fun k => if k % 32 = 0 then min 256 (x.bytes engine - 8 * k) else 0
      let one := fun k => if engine < 16 then copyElement { ag with packet := some (opens k) } cluster engine (8 * k) else gatherElement ag cluster engine k
      let r ← landAll one x.seat cluster engine esz ks
      let y ← look fun s => s.engine cluster engine
      let y1 : Engine := match r with
        | .fault side sub va => { y with ending := some .faulted, side := side, sub := sub, faddr := va }
        | .ok => if y.landed = y.bytes engine then { y with ending := some .done } else y
      upd fun s => recheckCluster cluster (s.setEngine cluster engine y1)) s

end Sys2Proof.Machine
end

