-- ==== Sys2Proof/Machine/Near.lean ====
section
/-! DEFINITION. Near storage: own loads and stores (R110), remote stores and write counters (R114 to R118), circular buffers
(R120 to R123), and the fills of caches and buffers as steps of their own (R84, R98, R323, R327). -/

namespace Sys2Proof.Machine

/-! ## Own loads and stores (R110, R111) -/

/-- The effect of an own load of n bytes (R110). -/
def ownLoad (n : Nat) (rd rs1 : Reg) (scope : Scope) (wait : BitVec 2) (pol : Policy) (off : BitVec 4) : Act Unit := do
  let a ← readX rs1
  waitCounter wait
  let v ← memRead (a + wordOfNat (off.toNat * n)) n { scope := scope, pol := pol }
  writeX rd (extendLoad n (n == 4) v)

/-- The effect of an own store of n bytes (R110). -/
def ownStore (n : Nat) (rs2 rs1 : Reg) (scope : Scope) (wait : BitVec 2) (pol : Policy) (off : BitVec 4) : Act Unit := do
  let a ← readX rs1
  let v ← readX rs2
  waitCounter wait
  memWrite (a + wordOfNat (off.toNat * n)) n v.toNat { scope := scope, pol := pol }

def execLdo (rd rs1 : Reg) (scope : Scope) (wait : BitVec 2) (pol : Policy) (off : BitVec 4) (s : State) :=
  runPlain (.ldo rd rs1 scope wait pol off) (ownLoad 8 rd rs1 scope wait pol off) s
def execLwo (rd rs1 : Reg) (scope : Scope) (wait : BitVec 2) (pol : Policy) (off : BitVec 4) (s : State) :=
  runPlain (.lwo rd rs1 scope wait pol off) (ownLoad 4 rd rs1 scope wait pol off) s
def execSdo (rs2 rs1 : Reg) (scope : Scope) (wait : BitVec 2) (pol : Policy) (off : BitVec 4) (s : State) :=
  runPlain (.sdo rs2 rs1 scope wait pol off) (ownStore 8 rs2 rs1 scope wait pol off) s
def execSwo (rs2 rs1 : Reg) (scope : Scope) (wait : BitVec 2) (pol : Policy) (off : BitVec 4) (s : State) :=
  runPlain (.swo rs2 rs1 scope wait pol off) (ownStore 4 rs2 rs1 scope wait pol off) s

/-! ## Remote stores and write counters (R114, R116, R118) -/

/-- The checks of alignment come first (R108). -/
def aligned (va : Word) (n : Nat) : Act Unit := trapIf (va.toNat % n != 0) 4 0 va

/-- rst (R114): a homed store of a doubleword that allocates nothing. -/
def execRst (rs2 rs1 : Reg) (off : BitVec 5) (s : State) :=
  runPlain (.rst rs2 rs1 off) (do
    let a ← readX rs1
    let v ← readX rs2
    let va := a + wordOfNat (off.toNat * 8)
    aligned va 8
    homedWrite va (.store 8 v.toNat) needW false) s

/-- rsa (R114): an indivisible add at a scratchpad window or a GDDR address. -/
def execRsa (rs2 rs1 : Reg) (off : BitVec 5) (s : State) :=
  runPlain (.rsa rs2 rs1 off) (do
    let a ← readX rs1
    let v ← readX rs2
    let va := a + wordOfNat (off.toNat * 8)
    aligned va 8
    homedWrite va (.add v) needRW true) s

/-- The counters a wcwait mask names (R118). -/
def maskCounters (m : BitVec 3) : List (BitVec 2) :=
  [1, 2, 3].filter fun (c : BitVec 2) => m.getLsbD (c.toNat - 1)

/-- wcwait (R118). -/
def execWcwait (mask : BitVec 3) (s : State) := runPlain (.wcwait mask) (waitCounters (maskCounters mask)) s

/-- wcread (R118): the counter's value at issue. -/
def execWcread (rd : Reg) (c : BitVec 2) (s : State) :=
  runPlain (.wcread rd c) (do
    let n ← myCore
    let seat ← mySeat
    writeX rd (wordOfNat (← look fun s => (s.core n).writeCounter seat c))) s

/-- The next step of a remote store of core n towards its performance: it leaves the core, or it performs (R115, R116). -/
def advanceStore (n i : Nat) (r : RStore) : Act Unit := do
  if !r.sent then sendStore n i r
  else
    performStore n r
    upd (markPerformed n i)

/-- The oldest store of the thread of entry i to its destination that has not performed (R115). -/
def Core.threadFirst (c : Core) (i : Nat) : Nat :=
  let r := c.rstores.getD i {}
  ((List.range i).find? fun j => match c.rstores[j]? with
    | some q => q.tid == r.tid && q.dest == r.dest && !q.performed
    | none => false).getD i

/-- The entry that moves before entry i performs or leaves: an older one of its thread to its destination (R115), and, once it has left the core, the
first of its virtual channel to that destination that left before it (R363). -/
def Core.storeFirst (c : Core) (i : Nat) : Nat :=
  let j := c.threadFirst i
  let r := c.rstores.getD j {}
  let earlier := ((List.range c.rstores.length).zip c.rstores).filter fun x =>
    x.2.sent && !x.2.performed && x.2.dest == r.dest && x.2.isMessage == r.isMessage && decide (x.2.inj < r.inj)
  if !r.sent then j
  else
    match (earlier.map fun x => (x.2.inj, x.1)).foldl (fun l x => insertPlace x l) [] with
    | x :: _ => c.threadFirst x.2
    | [] => j

/-- A remote store that has performed is acknowledged, and its entry freed (R116). -/
def acknowledge (core index : Nat) (r : RStore) : Act Unit := do
  charges (placeAnswers (r.agent core) r.addr 0)
  upd fun s => s.modCore core fun c => { c with rstores := c.rstores.take index ++ c.rstores.drop (index + 1) }

/-- The next step of the remote store with an index: the store that its order lets move first leaves the core or performs (R115, R363), and once the
store itself has performed it is acknowledged (R116). A store of a stopped partition stays in a save buffer (R355). -/
def execRemoteStoreAck (core index : Nat) (s : State) :=
  runEvent (do
    let c ← look fun s => s.core core
    if ← look fun s => ((s.partOfCore core).map fun f => (s.part f).swept) == some true then return ()
    match c.rstores[index]? with
    | none => pure ()
    | some r =>
      if r.saved then return ()
      if r.performed then acknowledge core index r
      else
        let k := c.storeFirst index
        advanceStore core k (c.rstores.getD k {})
        if k = index ∧ r.sent then progress (acknowledge core index r)) s

/-! ## Circular buffers (R120 to R123) -/

/-- NSLOT and SLOTSZ of a handle's geometry doubleword (Table 5.10). -/
def cbSlots (g : Word) : Nat := bitsOf g 31 16
def cbSize (g : Word) : Nat := bitsOf g 15 0

/-- True when len bytes from an address lie in one core's banks of the seat (R105). -/
def State.banksOwned (s : State) (seat core a len : Nat) : Bool :=
  match placeOf core a with
  | .bank m off =>
    decide (off + len ≤ 0x60000) && decide (0 < len) &&
      (List.range (len / 0x2000 + 2)).all fun i =>
        let o := off / 0x2000 * 0x2000 + i * 0x2000
        decide (off + len ≤ o) || s.bankOwned seat m o
  | _ => false

/-- The core whose scratchpad window holds an address. -/
def bankCore (core a : Nat) : Option Nat :=
  match placeOf core a with
  | .bank m off => if off < 0x60000 then some m else none
  | _ => none

/-- cb.cfg (R122). -/
def execCbCfg (h : BitVec 4) (rs1 : Reg) (s : State) :=
  runPlain (.cbCfg h rs1) (do
    let a ← readX rs1
    let d ← readDoublewords a 3
    let n ← myCore
    let seat ← mySeat
    let base := rewriteOwn n (d.getD 0 0)
    let ctrl := rewriteOwn n (d.getD 1 0)
    let g := d.getD 2 0
    let good := base.toNat % 8 == 0 && ctrl.toNat % 16 == 0 && bitsOf g 63 32 == 0 && isPow2 (cbSlots g)
      && decide (cbSlots g ≤ 4096) && cbSize g % 8 == 0 && decide (8 ≤ cbSize g) && decide (cbSize g ≤ 32768)
      && (bankCore n base.toNat).isSome && bankCore n base.toNat == bankCore n ctrl.toNat
    trapIf (!good) 15 0x40 (h.zeroExtend 64)
    let own ← look fun s => s.banksOwned seat n base.toNat (cbSlots g * cbSize g) && s.banksOwned seat n ctrl.toNat 16
    trapIf (!own) 15 0x40 (h.zeroExtend 64)
    modMe fun th => { th with cbs := th.cbs.set h.toNat { base := base, ctrl := ctrl, geom := g, valid := true } }) s

/-- The counts P and C of a handle's control block, read as loads (R122). -/
def cbCounts (c : CbHandle) : Act (Word × Word) := do
  let p ← memRead c.ctrl 8 {}
  let q ← memRead (c.ctrl + 8) 8 {}
  return (wordOfNat p, wordOfNat q)

/-- The wait of cb.wfill and cb.wfree (R122): the grant and the slot's address once enough slots are filled or free. -/
def cbWait (consumer : Bool) (h : BitVec 4) (rs1 : Reg) : Act Word := do
  let n ← readX rs1
  let c := (← me).cbs.get {} h.toNat
  trapIf (!c.valid) 15 0x41 (h.zeroExtend 64)
  let slots := cbSlots c.geom
  trapIf (decide (slots < n.toNat)) 15 0x42 (h.zeroExtend 64)
  let (p, q) ← cbCounts c
  let fill := (p - q).toNat
  trapIf (decide (slots < fill)) 15 0x43 (h.zeroExtend 64)
  let have_ := if consumer then fill else slots - fill
  if have_ < n.toNat then hold
  let at_ := if consumer then q else p
  let c1 := if consumer then { c with grantC := BitVec.ofNat 13 have_ } else { c with grantP := BitVec.ofNat 13 have_ }
  modMe fun th => { th with cbs := th.cbs.set h.toNat c1 }
  return c.base + wordOfNat (at_.toNat % slots * cbSize c.geom)

def execCbWfill (rd : Reg) (h : BitVec 4) (rs1 : Reg) (s : State) :=
  runPlain (.cbWfill rd h rs1) (do writeX rd (← cbWait true h rs1)) s
def execCbWfree (rd : Reg) (h : BitVec 4) (rs1 : Reg) (s : State) :=
  runPlain (.cbWfree rd h rs1) (do writeX rd (← cbWait false h rs1)) s

/-- The advance of a count (R122, R123): the grant falls and the count rises at the home as rsa makes it, after the
thread's earlier stores to the home core. -/
def cbAdvance (producer : Bool) (h : BitVec 4) (rs1 : Reg) : Act Unit := do
  let n ← readX rs1
  let c := (← me).cbs.get {} h.toNat
  trapIf (!c.valid) 15 0x41 (h.zeroExtend 64)
  let grant := (if producer then c.grantP else c.grantC).toNat
  trapIf (decide (grant < n.toNat)) 15 0x42 (h.zeroExtend 64)
  let left := BitVec.ofNat 13 (grant - n.toNat)
  let c1 := if producer then { c with grantP := left } else { c with grantC := left }
  modMe fun th => { th with cbs := th.cbs.set h.toNat c1 }
  homedWrite (if producer then c.ctrl else c.ctrl + 8) (.add n) needRW true

def execCbAdvp (h : BitVec 4) (rs1 : Reg) (s : State) := runPlain (.cbAdvp h rs1) (cbAdvance true h rs1) s
def execCbAdvc (h : BitVec 4) (rs1 : Reg) (s : State) := runPlain (.cbAdvc h rs1) (cbAdvance false h rs1) s

/-! ## Fills as steps of their own (R84, R98, R323, R327) -/

/-- True for a thread that runs. -/
def State.live (s : State) (t : Nat) : Bool := (s.thr t).st != .empty

/-- An instruction-cache line is filled for a thread whose fetch or run-ahead reaches it (R84, R86); a fill that fails is raised when R27 reaches
the word. -/
def execIcacheFill (tid : Nat) (va : Word) (s : State) :=
  runEvent (do
    if ← look fun s => s.mayFill tid va.toNat then
      let ag ← look fun s => s.agent tid
      if placeOf ag.core va.toNat = .page then
        let lines ← look fun s => (s.core ag.core).icache.get [] (isetOf va.toNat)
        if lines.all fun l => l.va != va.toNat / 64 * 64 then
          let _ ← fillICache ag va.toNat) s

/-- A block is filled in the first-level cache for a thread that may read it (R98). -/
def execL1Fill (tid : Nat) (va : Word) (s : State) :=
  runEvent (do
    if ← look fun s => s.live tid then
      let ag ← look fun s => s.agent tid
      if placeOf ag.core va.toNat = .page then
        match ← heldBlock ag va.toNat with
        | some _ => pure ()
        | none =>
          match ← translate ag va.toNat needR with
          | .error _ => pure ()
          | .ok x =>
            if x.pa < Config.hostBit then
              let _ ← fillBlock ag va.toNat x .default) s

/-- A rights nibble enters the lookaside buffer of a thread's core (R327). -/
def execPlbFill (tid dom : Nat) (s : State) :=
  runEvent (do
    if ← look fun s => s.live tid then
      let ag ← look fun s => s.agent tid
      let _ ← rightsOf ag (BitVec.ofNat 16 dom)) s

/-- The right an access needs (Table 18.4). -/
def accessNeed : Access → BitVec 4
  | .fetch => needX
  | .load => needR
  | .store => needW
  | .atomic => needRW
  | .drive => needD

/-- The page walk of an access of a thread (R323): it sets A, or faults, as that access does (log 26). -/
def execPageWalk (tid : Nat) (va : Word) (acc : Access) (s : State) :=
  runEvent (do
    if ← look fun s => s.live tid then
      let ag ← look fun s => s.agent tid
      let held ← look fun s => (s.cluster (xlatOf ag.core)).xlat.any fun e =>
        decide (e.page ≤ va.toNat) && decide (va.toNat < e.page + e.size)
      if held then return ()
      match placeOf ag.core va.toNat with
      | .page => let _ ← walk ag va.toNat (accessNeed acc) false
      | .cm _ _ => let _ ← walk ag va.toNat (accessNeed acc) true
      | _ => pure ()) s

end Sys2Proof.Machine
end

