-- ==== Sys2Proof/Machine/Flags.lean ====
section
/-! DEFINITION. The six arithmetic flags (R239) and FRM (R240, R241). `Thread.flags` holds FRM[6:1]: NX, UF, OF, DZ, NV, SAT
from bit 0 up. -/

namespace Sys2Proof.Machine

/-- A set of flags. -/
abbrev FlagSet := BitVec 6

def flagNX : FlagSet := 1
def flagUF : FlagSet := 2
def flagOF : FlagSet := 4
def flagDZ : FlagSet := 8
def flagNV : FlagSet := 16
def flagSAT : FlagSet := 32
/-- A flag raised under a condition. -/
def flagIf (c : Bool) (f : FlagSet) : FlagSet := if c then f else 0

/-- FRM as a read gives it (Table 12.7). -/
def Thread.frm (th : Thread) : Word := (th.flags ++ th.rm.extractLsb' 0 1).zeroExtend 64

/-- A write of FRM: the flags and RM take the value's bits. -/
def Thread.setFrm (v : Word) (th : Thread) : Thread :=
  { th with flags := v.extractLsb' 1 6, rm := (v.extractLsb' 0 1).zeroExtend 2 }

/-- Flags raised by a thread's command join its sticky flags (R239, R241), and stand against a write of FRM in the same cycle. -/
def raiseFlags (t : Nat) (f : FlagSet) (s : State) : State :=
  (if f = 0 then s else noteNow 0x200 t f.toNat s).modThr t fun th => { th with flags := th.flags ||| f }

/-- The flags raised in this cycle for thread t. -/
def State.flagsNow (s : State) (t : Nat) : FlagSet := (s.nowOf 0x200 t).foldl (fun f v => f ||| BitVec.ofNat 6 v) 0

/-- True when FRM.RM selects RTZ. -/
def rtzOf (rm : BitVec 2) : Bool := rm.getLsbD 0

end Sys2Proof.Machine
end

