-- ==== Sys2Proof/Machine/Float.lean ====
section
/-! DEFINITION. Number formats and rounding (R227 to R238, R242, R245): exact values, one rounding, the range rules, the
conversions, the special functions of R262, and SX blocks. -/

namespace Sys2Proof.Machine

/-! ## Floating formats (R229) -/

/-- Width, exponent bits and fraction bits of a format (Table 12.2). -/
structure Fmt where
  w : Nat
  eb : Nat
  f : Nat
deriving DecidableEq, Repr

/-- The formats of the four type codes. -/
def fmtOf : FTy → Fmt
  | .f64 => ⟨64, 11, 52⟩
  | .f32 => ⟨32, 8, 23⟩
  | .f16 => ⟨16, 5, 10⟩
  | .bf16 => ⟨16, 8, 7⟩

def Fmt.bias (t : Fmt) : Nat := 2 ^ (t.eb - 1) - 1
def Fmt.emin (t : Fmt) : Int := 1 - (t.bias : Int)
/-- The canonical NaN. -/
def Fmt.nan (t : Fmt) : Nat := (2 ^ t.eb - 1) * 2 ^ t.f + 2 ^ (t.f - 1)
def Fmt.signBit (t : Fmt) (neg : Bool) : Nat := if neg then 2 ^ (t.w - 1) else 0
def Fmt.inf (t : Fmt) (neg : Bool) : Nat := t.signBit neg + (2 ^ t.eb - 1) * 2 ^ t.f
def Fmt.largest (t : Fmt) (neg : Bool) : Nat := t.signBit neg + (2 ^ t.eb - 2) * 2 ^ t.f + (2 ^ t.f - 1)

/-- What an encoding denotes: a finite value is ± mag × 2^exp. -/
inductive FVal where
  | nan (signalling : Bool)
  | inf (neg : Bool)
  | fin (neg : Bool) (mag : Nat) (exp : Int)
deriving DecidableEq, Repr

/-- The value of an encoding (R229, R230). -/
def Fmt.unpack (t : Fmt) (v : Nat) : FVal :=
  let neg := v / 2 ^ (t.w - 1) % 2 == 1
  let e := v / 2 ^ t.f % 2 ^ t.eb
  let m := v % 2 ^ t.f
  if e = 2 ^ t.eb - 1 then (if m = 0 then .inf neg else .nan (m < 2 ^ (t.f - 1)))
  else if e = 0 then .fin neg m (t.emin - t.f)
  else .fin neg (m + 2 ^ t.f) ((e : Int) - t.bias - t.f)

/-! ## Rounding (R232, R233) -/

/-- num / den rounded to an integer: RNE, or RTZ. Answers whether it was inexact. -/
def roundNat (num den : Nat) (rtz : Bool) : Nat × Bool :=
  let q := num / den
  let r := num % den
  let up := !rtz && (decide (den < 2 * r) || (2 * r == den && q % 2 == 1))
  (if up then q + 1 else q, r != 0)

/-- num / den × 2^k as a fraction. -/
def scaleFrac (num den : Nat) (k : Int) : Nat × Nat :=
  if 0 ≤ k then (num * 2 ^ k.toNat, den) else (num, den * 2 ^ (-k).toNat)

/-- floor(log2(num / den)) of a positive fraction. -/
def log2Frac (num den : Nat) : Int :=
  let e : Int := (Nat.log2 num : Int) - Nat.log2 den
  let p := scaleFrac num den (-e)
  if p.1 < p.2 then e - 1 else e

/-- The exact value ± num / den rounded once and encoded, with its flags (R232, R233). -/
def Fmt.round (t : Fmt) (rtz neg : Bool) (num den : Nat) : Nat × FlagSet :=
  if num = 0 then (t.signBit neg, 0)
  else
    let e := log2Frac num den
    -- as though the exponent range were unbounded
    let pu := scaleFrac num den (t.f - e)
    let ru := roundNat pu.1 pu.2 rtz
    let eu := if ru.1 = 2 ^ (t.f + 1) then e + 1 else e
    if (t.bias : Int) < eu then
      (if rtz then t.largest neg else t.inf neg, flagOF ||| flagNX)
    else if t.emin ≤ eu && decide (t.emin ≤ e) then
      let m := if ru.1 = 2 ^ (t.f + 1) then 2 ^ t.f else ru.1
      (t.signBit neg + (eu + t.bias).toNat * 2 ^ t.f + (m - 2 ^ t.f), flagIf ru.2 flagNX)
    else
      let pd := scaleFrac num den (t.f - t.emin)
      let rd := roundNat pd.1 pd.2 rtz
      let tiny := decide (eu < t.emin)
      (t.signBit neg + rd.1, flagIf rd.2 flagNX ||| flagIf (tiny && rd.2) flagUF)

/-- An exact dyadic value ± mag × 2^exp rounded. -/
def Fmt.roundDyadic (t : Fmt) (rtz neg : Bool) (mag : Nat) (exp : Int) : Nat × FlagSet :=
  let p := scaleFrac mag 1 exp
  t.round rtz neg p.1 p.2

/-! ## Sums and products (R230, R231, R245) -/

/-- NV of the signalling NaNs among operands. -/
def snanNV : List FVal → FlagSet
  | [] => 0
  | .nan true :: r => flagNV ||| snanNV r
  | _ :: r => snanNV r

/-- A signed magnitude. -/
def signed (neg : Bool) (m : Nat) : Int := if neg then -(m : Int) else (m : Int)

/-- The exact sum of two values, rounded once; a zero sum is −0 only of two −0 (R233). -/
def Fmt.addVals (t : Fmt) (rtz : Bool) (a b : FVal) : Nat × FlagSet :=
  match a, b with
  | .nan _, _ => (t.nan, snanNV [a, b])
  | _, .nan _ => (t.nan, snanNV [a, b])
  | .inf x, .inf y => if x = y then (t.inf x, 0) else (t.nan, flagNV)
  | .inf x, .fin _ _ _ => (t.inf x, 0)
  | .fin _ _ _, .inf y => (t.inf y, 0)
  | .fin na ma ea, .fin nb mb eb =>
    let e := min ea eb
    let sum := signed na (ma * 2 ^ (ea - e).toNat) + signed nb (mb * 2 ^ (eb - e).toNat)
    if sum = 0 then (t.signBit (na && nb), 0) else t.roundDyadic rtz (decide (sum < 0)) sum.natAbs e

/-- The exact product as a value: NaN where an operand is, or for zero times infinity (with the flags). -/
def mulVals (a b : FVal) : FVal × FlagSet :=
  match a, b with
  | .nan _, _ => (.nan false, snanNV [a, b])
  | _, .nan _ => (.nan false, snanNV [a, b])
  | .inf x, .inf y => (.inf (x != y), 0)
  | .inf x, .fin y m _ => if m = 0 then (.nan false, flagNV) else (.inf (x != y), 0)
  | .fin x m _, .inf y => if m = 0 then (.nan false, flagNV) else (.inf (x != y), 0)
  | .fin x m e, .fin y n g => (.fin (x != y) (m * n) (e + g), 0)

/-- A value rounded to a format. -/
def Fmt.ofVal (t : Fmt) (rtz : Bool) : FVal → Nat × FlagSet
  | .nan sg => (t.nan, flagIf sg flagNV)
  | .inf n => (t.inf n, 0)
  | .fin n m e => if m = 0 then (t.signBit n, 0) else t.roundDyadic rtz n m e

/-- A value with the opposite sign. -/
def FVal.negate : FVal → FVal
  | .nan s => .nan s
  | .inf n => .inf (!n)
  | .fin n m e => .fin (!n) m e

def Fmt.add (t : Fmt) (rtz : Bool) (a b : Nat) : Nat × FlagSet := t.addVals rtz (t.unpack a) (t.unpack b)
def Fmt.sub (t : Fmt) (rtz : Bool) (a b : Nat) : Nat × FlagSet := t.addVals rtz (t.unpack a) (t.unpack b).negate
def Fmt.mul (t : Fmt) (rtz : Bool) (a b : Nat) : Nat × FlagSet :=
  let p := mulVals (t.unpack a) (t.unpack b)
  let r := t.ofVal rtz p.1
  (r.1, p.2 ||| r.2)
/-- ± a × b ± c, fused: the exact order over two terms (R245). -/
def Fmt.fma (t : Fmt) (rtz negProduct negAddend : Bool) (a b c : Nat) : Nat × FlagSet :=
  let p := mulVals (t.unpack a) (t.unpack b)
  let x := if negProduct then p.1.negate else p.1
  let y := if negAddend then (t.unpack c).negate else t.unpack c
  let r := t.addVals rtz x y
  (r.1, p.2 ||| r.2)

/-! ## Order (R259) -/

/-- a < b and a = b for values that are not NaN. -/
def valLt (a b : FVal) : Bool :=
  match a, b with
  | .nan _, _ => false
  | _, .nan _ => false
  | .inf x, .inf y => x && !y
  | .inf x, .fin _ _ _ => x
  | .fin _ _ _, .inf y => !y
  | .fin na ma ea, .fin nb mb eb =>
    let e := min ea eb
    decide (signed na (ma * 2 ^ (ea - e).toNat) < signed nb (mb * 2 ^ (eb - e).toNat))
def valEq (a b : FVal) : Bool :=
  match a, b with
  | .nan _, _ => false
  | _, .nan _ => false
  | a, b => !valLt a b && !valLt b a
def FVal.isNan : FVal → Bool
  | .nan _ => true
  | _ => false
def FVal.isNeg : FVal → Bool
  | .nan _ => false
  | .inf n => n
  | .fin n _ _ => n

/-- minimumNumber or maximumNumber (R259): −0 lies below +0. -/
def Fmt.minMax (t : Fmt) (max : Bool) (a b : Nat) : Nat × FlagSet :=
  let x := t.unpack a
  let y := t.unpack b
  let nv := snanNV [x, y]
  if x.isNan && y.isNan then (t.nan, nv)
  else if x.isNan then (b, nv)
  else if y.isNan then (a, nv)
  else
    let less := valLt x y || (valEq x y && x.isNeg && !y.isNeg)
    (if less != max then a else b, nv)

def Fmt.eq (t : Fmt) (a b : Nat) : Bool × FlagSet := (valEq (t.unpack a) (t.unpack b), snanNV [t.unpack a, t.unpack b])
def anyNan (a b : FVal) : FlagSet := flagIf (a.isNan || b.isNan) flagNV
def Fmt.lt (t : Fmt) (a b : Nat) : Bool × FlagSet :=
  (valLt (t.unpack a) (t.unpack b), anyNan (t.unpack a) (t.unpack b))
def Fmt.le (t : Fmt) (a b : Nat) : Bool × FlagSet :=
  let x := t.unpack a
  let y := t.unpack b
  (valLt x y || valEq x y, anyNan x y)

/-! ## Integers (R228, R234) -/

/-- Bounds of an integer type of w bits. -/
def intLo (signed_ : Bool) (w : Nat) : Int := if signed_ then -(2 ^ (w - 1) : Nat) else 0
def intHi (signed_ : Bool) (w : Nat) : Int := if signed_ then (2 ^ (w - 1) : Nat) - 1 else (2 ^ w : Nat) - 1
/-- The value of an encoding, and the encoding of an integer modulo 2^w. -/
def intVal (signed_ : Bool) (w v : Nat) : Int := if signed_ then signExtend v w else (v % 2 ^ w : Nat)
def intEnc (w : Nat) (i : Int) : Nat := (i % ((2 ^ w : Nat) : Int)).toNat

/-- Saturates to a type, with SAT (R228). -/
def saturateTo (signed_ : Bool) (w : Nat) (i : Int) : Nat × FlagSet :=
  let r := saturate i (intLo signed_ w) (intHi signed_ w)
  (intEnc w r, flagIf (r != i) flagSAT)

/-- A floating value to an integer type (R234). -/
def valToInt (signed_ : Bool) (w : Nat) (rtz : Bool) : FVal → Nat × FlagSet
  | .nan _ => (0, flagNV)
  | .inf n => (intEnc w (if n then intLo signed_ w else intHi signed_ w), flagNV ||| flagSAT)
  | .fin n m e =>
    let p := scaleFrac m 1 e
    let r := roundNat p.1 p.2 rtz
    let i := signed n r.1
    let q := saturateTo signed_ w i
    (q.1, flagIf r.2 flagNX ||| q.2 ||| flagIf (q.2 != 0) flagNV)

/-! ## Number types of vcvt (R261, R262) -/

def ntyFloat : NTy → Option FTy
  | .f64 => some .f64 | .f32 => some .f32 | .f16 => some .f16 | .bf16 => some .bf16
  | .i8 | .i16 | .i32 | .i64 | .n8 | .n16 | .n32 | .n64 => none
/-- Bytes of an element. -/
def ntySize : NTy → Nat
  | .i8 | .n8 => 1
  | .i16 | .n16 | .f16 | .bf16 => 2
  | .i32 | .n32 | .f32 => 4
  | .i64 | .n64 | .f64 => 8
def ntySigned : NTy → Bool
  | .i8 | .i16 | .i32 | .i64 => true
  | .n8 | .n16 | .n32 | .n64 | .f64 | .f32 | .f16 | .bf16 => false

/-- Converts one element (R237). -/
def convert (dst src : NTy) (rtz : Bool) (v : Nat) : Nat × FlagSet :=
  match ntyFloat src, ntyFloat dst with
  | some a, some b => (fmtOf b).ofVal rtz ((fmtOf a).unpack v)
  | some a, none => valToInt (ntySigned dst) (8 * ntySize dst) rtz ((fmtOf a).unpack v)
  | none, some b =>
    let i := intVal (ntySigned src) (8 * ntySize src) v
    (fmtOf b).ofVal rtz (.fin (decide (i < 0)) i.natAbs 0)
  | none, none => saturateTo (ntySigned dst) (8 * ntySize dst) (intVal (ntySigned src) (8 * ntySize src) v)

/-- A scale exponent beyond ±4,000 rounds as ±4,000 does: both lie outside every format's range (R233). -/
def clampExp (k : Int) : Int := saturate k (-4000) 4000

/-- i × 2^k rounded once (vscale), and d + i × 2^k in the exact order (vscalea) (R262). -/
def Fmt.scale (t : Fmt) (rtz : Bool) (i k : Int) : Nat × FlagSet := t.ofVal rtz (.fin (decide (i < 0)) i.natAbs (clampExp k))
def Fmt.scaleAdd (t : Fmt) (rtz : Bool) (d : Nat) (i k : Int) : Nat × FlagSet :=
  t.addVals rtz (t.unpack d) (.fin (decide (i < 0)) i.natAbs (clampExp k))

/-! ## Special functions (R262): exact values rounded once

An irrational result is given by the integer part q of its value × 2^k. No rounding boundary lies strictly between
q / 2^k and (q + 1) / 2^k, so the value rounds as (2 q + 1) / 2^(k+1) does. -/

/-- floor(sqrt n), by its bits from bit i − 1 down. -/
def isqrtBits : Nat → Nat → Nat → Nat
  | 0, _, r => r
  | i + 1, n, r => let c := r + 2 ^ i; isqrtBits i n (if c * c ≤ n then c else r)
def isqrt (n : Nat) : Nat := isqrtBits (Nat.log2 n / 2 + 1) n 0

/-- Rounds a value that lies strictly between q and q + 1 times 2^−k. -/
def Fmt.roundBetween (t : Fmt) (rtz neg : Bool) (q : Nat) (k : Int) : Nat × FlagSet :=
  t.roundDyadic rtz neg (2 * q + 1) (-(k + 1))

/-- vrcp (R231, R262). -/
def Fmt.rcp (t : Fmt) (rtz : Bool) (a : Nat) : Nat × FlagSet :=
  match t.unpack a with
  | .nan sg => (t.nan, flagIf sg flagNV)
  | .inf n => (t.signBit n, 0)
  | .fin n m e =>
    if m = 0 then (t.inf n, flagDZ)
    else
      let p := scaleFrac 1 m (-e)
      t.round rtz n p.1 p.2

/-- vrsqrt (R231, R262). -/
def Fmt.rsqrt (t : Fmt) (rtz : Bool) (a : Nat) : Nat × FlagSet :=
  match t.unpack a with
  | .nan sg => (t.nan, flagIf sg flagNV)
  | .inf n => if n then (t.nan, flagNV) else (0, 0)
  | .fin n m e =>
    if m = 0 then (t.inf n, flagDZ)
    else if n then (t.nan, flagNV)
    else
      -- 1 / sqrt(m × 2^e) × 2^k = sqrt(2^(2k − e) / m)
      let k : Int := t.f + 8 + (Nat.log2 m + 1) + e.natAbs
      let p := scaleFrac 1 m (2 * k - e)
      let q := isqrt (p.1 / p.2)
      if q * q * p.2 = p.1 then t.roundDyadic rtz false q (-k) else t.roundBetween rtz false q k

/-- Lower and upper bounds of 2^(0.b1 b2 …) × 2^p from the bits, with c the bounds of 2^(2^−i) × 2^p. -/
def exp2Bounds (p : Nat) : List Bool → Nat → Nat → Nat → Nat → Nat × Nat
  | [], lo, hi, _, _ => (lo, hi)
  | b :: r, lo, hi, cl, ch =>
    let cl1 := isqrt (cl * 2 ^ p)
    let ch1 := isqrt (ch * 2 ^ p) + 1
    if b then exp2Bounds p r (lo * cl1 / 2 ^ p) (hi * ch1 / 2 ^ p + 1) cl1 ch1
    else exp2Bounds p r lo hi cl1 ch1

/-- floor(2^x × 2^k) for the fraction x of the bits, doubling the working precision until it is decided. -/
def exp2Floor (bits : List Bool) (k : Nat) : Nat → Nat → Nat
  | 0, p => (exp2Bounds p bits (2 ^ p) (2 ^ p) (2 ^ (p + 1)) (2 ^ (p + 1))).1 / 2 ^ (p - k)
  | n + 1, p =>
    let r := exp2Bounds p bits (2 ^ p) (2 ^ p) (2 ^ (p + 1)) (2 ^ (p + 1))
    let hi := min r.2 (2 ^ (p + 1))
    if r.1 / 2 ^ (p - k) = (hi - 1) / 2 ^ (p - k) then r.1 / 2 ^ (p - k) else exp2Floor bits k n (2 * p)

/-- vexp2 (R262). -/
def Fmt.exp2 (t : Fmt) (rtz : Bool) (a : Nat) : Nat × FlagSet :=
  match t.unpack a with
  | .nan sg => (t.nan, flagIf sg flagNV)
  | .inf n => if n then (0, 0) else (t.inf false, 0)
  | .fin n m e =>
    let x := signed n m
    if 0 ≤ e then t.roundDyadic rtz false 1 (clampExp (x * 2 ^ e.toNat))
    else
      let d := (-e).toNat
      let whole := clampExp (x / (2 ^ d : Nat))
      let frac := (x % (2 ^ d : Nat)).toNat
      if frac = 0 then t.roundDyadic rtz false 1 whole
      else
        let bits := (List.range d).map fun i => frac.testBit (d - 1 - i)
        let k := t.f + 4
        let q := exp2Floor bits k 12 (2 * k)
        t.roundDyadic rtz false (2 * q + 1) (whole - k - 1)

/-- Bounds on the bits of log2 of a value in [1, 2) held between lo and hi times 2^−p, by squaring: n bits, or none where
the working precision does not decide them. -/
def log2Bits (p : Nat) : Nat → Nat → Nat → Nat → Option Nat
  | 0, _, _, acc => some acc
  | n + 1, lo, hi, acc =>
    let l := lo * lo / 2 ^ p
    let h := hi * hi / 2 ^ p + 1
    if 2 ^ (p + 1) ≤ l then log2Bits p n (l / 2) (h / 2 + 1) (2 * acc + 1)
    else if h < 2 ^ (p + 1) then log2Bits p n l h (2 * acc)
    else none

/-- floor(2^n × log2(m / 2^b)) for 2^b < m < 2^(b+1), doubling the working precision until it is decided. -/
def log2Floor (m b n : Nat) : Nat → Nat → Nat
  | 0, _ => 0
  | f + 1, p =>
    let v := m * 2 ^ (p - b)
    match log2Bits p n v v 0 with
    | some q => q
    | none => log2Floor m b n f (2 * p)

/-- vlog2 (R231, R262). -/
def Fmt.log2 (t : Fmt) (rtz : Bool) (a : Nat) : Nat × FlagSet :=
  match t.unpack a with
  | .nan sg => (t.nan, flagIf sg flagNV)
  | .inf n => if n then (t.nan, flagNV) else (t.inf false, 0)
  | .fin n m e =>
    if m = 0 then (t.inf true, flagDZ)
    else if n then (t.nan, flagNV)
    else
      let b := Nat.log2 m
      let whole : Int := e + b
      if m = 2 ^ b then t.ofVal rtz (.fin (decide (whole < 0)) whole.natAbs 0)
      else
        let k := 2 * t.f + 16
        let q : Int := whole * (2 ^ k : Nat) + log2Floor m b k 12 (4 * k)
        if 0 ≤ q then t.roundBetween rtz false q.toNat k else t.roundBetween rtz true (-q - 1).toNat k

/-! ## SX blocks (R235 to R238) -/

/-- Mantissa bits m of SX2, SX4 and SX7 by format code 0 to 2. -/
def sxM (f : Nat) : Nat := if f = 0 then 2 else if f = 1 then 4 else 7
/-- Bytes of a block and its alignment (Table 12.4). -/
def sxBytes (f : Nat) : Nat := 2 + 2 * (sxM f + 1)
def sxAlign (f : Nat) : Nat := if f = 0 then 8 else if f = 1 then 4 else 2

/-- The fields of a block: exponent, sub-scales, and sign with magnitude of the sixteen elements. -/
structure SxBlock where
  exp : Nat
  sub : List Nat
  elems : List (Bool × Nat)
deriving DecidableEq, Repr

/-- Reads a block from its value (Table 12.3). -/
def sxUnpack (f v : Nat) : SxBlock :=
  let m := sxM f
  { exp := v % 256
    sub := (List.range 4).map fun q => v / 2 ^ (8 + 2 * q) % 4
    elems := (List.range 16).map fun i =>
      let x := v / 2 ^ (16 + (m + 1) * i) % 2 ^ (m + 1)
      (x / 2 ^ m == 1, x % 2 ^ m) }

/-- The value of a block's bit string. -/
def sxPack (f : Nat) (b : SxBlock) : Nat :=
  let m := sxM f
  let subs := ((List.range 4).zip b.sub).foldl (fun a x => a + x.2 * 2 ^ (8 + 2 * x.1)) 0
  let es := ((List.range 16).zip b.elems).foldl
    (fun a x => a + (b2n x.2.1 * 2 ^ m + x.2.2) * 2 ^ (16 + (m + 1) * x.1)) 0
  b.exp + subs + es

/-- The values of a block's elements (R236): an element of magnitude 0 is +0. -/
def SxBlock.values (f : Nat) (b : SxBlock) : List FVal :=
  ((List.range 16).zip b.elems).map fun x =>
    .fin (x.2.1 && x.2.2 != 0) x.2.2 ((b.exp : Int) - 127 - (b.sub.getD (x.1 / 4) 0 : Nat) - (sxM f - 1 : Nat))

/-- Round(|v| × 2^k) of a finite value. -/
def scaledMag (rtz : Bool) (m : Nat) (e k : Int) : Nat :=
  let p := scaleFrac m 1 (e + k)
  (roundNat p.1 p.2 rtz).1

/-- The block exponent of step 1 of R238. -/
def sxExponent (vs : List FVal) : Nat :=
  if vs.any fun v => match v with | .inf _ => true | _ => false then 254
  else
    let logs := vs.filterMap fun v => match v with
      | .fin _ m e => if m = 0 then none else some ((Nat.log2 m : Int) + e)
      | _ => none
    match logs with
    | [] => 0
    | l :: r => (saturate (r.foldl max l + 127) 0 254).toNat

/-- The sub-scale of a quad (step 2 of R238). -/
def sxSub (f : Nat) (rtz : Bool) (exp : Nat) (quad : List FVal) : Nat :=
  let m := sxM f
  let fits := fun (j : Nat) => quad.all fun v => match v with
    | .fin _ mag e => decide (scaledMag rtz mag e ((m : Int) - 1 + j + 127 - exp) ≤ 2 ^ m - 1)
    | _ => false
  if fits 3 then 3 else if fits 2 then 2 else if fits 1 then 1 else 0

/-- An element (steps 3 and 4 of R238): sign, magnitude and flags. -/
def sxElem (f : Nat) (rtz : Bool) (exp sub : Nat) (v : FVal) : (Bool × Nat) × FlagSet :=
  let m := sxM f
  match v with
  | .nan _ => ((false, 0), flagNV)
  | .inf n => ((n, 2 ^ m - 1), flagSAT)
  | .fin n mag e =>
    let k : Int := (m : Int) - 1 + sub + 127 - exp
    let r := scaledMag rtz mag e k
    let beyond := decide (2 ^ m - 1 < r)
    let x := if beyond then 2 ^ m - 1 else r
    let p := scaleFrac mag 1 (e + k)
    ((n && x != 0, x), flagIf beyond flagSAT ||| flagIf (x * p.2 != p.1) flagNX)

/-- Encodes sixteen values with a chosen block exponent (steps 2 to 4 of R238). -/
def sxEncodeAt (f : Nat) (rtz : Bool) (exp : Nat) (vs : List FVal) : SxBlock × FlagSet :=
  let subs := (List.range 4).map fun q => sxSub f rtz exp (sliceL vs (4 * q) 4)
  let es := ((List.range 16).zip vs).map fun x => sxElem f rtz exp (subs.getD (x.1 / 4) 0) x.2
  ({ exp := exp, sub := subs, elems := es.map fun x => x.1 }, es.foldl (fun a x => a ||| x.2) 0)


/-! ## Alignment within a k-window (R242) -/

/-- An aligned integer, and whether a discarded bit is 1. -/
def alignElem (delta sub : Nat) (neg : Bool) (mag : Nat) : Int × Bool :=
  let d := delta + sub
  if d ≤ 4 then (signed neg (mag * 2 ^ (4 - d)), false)
  else (signed neg (mag / 2 ^ (d - 4)), mag % 2 ^ (d - 4) != 0)

/-- The window's exponent, its 128 aligned integers, and whether it suffers loss. -/
def alignWindow (bs : List SxBlock) : Nat × List Int × Bool :=
  let emax := bs.foldl (fun a b => max a b.exp) 0
  let xs := bs.flatMap fun b => ((List.range 16).zip b.elems).map fun x =>
    alignElem (emax - b.exp) (b.sub.getD (x.1 / 4) 0) x.2.1 x.2.2
  (emax, xs.map fun x => x.1, xs.any fun x => x.2)

end Sys2Proof.Machine
end

