-- ==== Sys2Proof/Machine/Lanes.lean ====
section
/-! DEFINITION. The lane pool: claims and their groups (R248 to R251), the command queue and its faults (R252 to R255), and the
claim forms (R257, R258, R271). -/

namespace Sys2Proof.Machine

/-! ## Vector registers (R248) -/

def Claim.byte (c : Claim) (r i : Nat) : Byte := c.vregs.get 0 (4096 * r + i)
/-- Element e of s bytes of a register. -/
def Claim.elem (c : Claim) (r e s : Nat) : Nat := bytesVal ((List.range s).map fun i => c.byte r (e * s + i))
/-- Writes bytes into a register from byte i. -/
def Claim.putBytes (c : Claim) (r i : Nat) : List Byte → Claim
  | [] => c
  | b :: t => Claim.putBytes { c with vregs := c.vregs.set (4096 * r + i) b } r (i + 1) t
def Claim.setElem (c : Claim) (r e s v : Nat) : Claim := c.putBytes r (e * s) (bytesOf s v)
/-- Bit e of a mask register. -/
def Claim.bit (c : Claim) (r e : Nat) : Bool := (c.byte r (e / 8)).getLsbD (e % 8)
def Claim.setBit (c : Claim) (r e : Nat) (b : Bool) : Claim :=
  let old := (c.byte r (e / 8)).toNat
  let m := 2 ^ (e % 8)
  c.putBytes r (e / 8) [BitVec.ofNat 8 (if b then old ||| m else old - (old &&& m))]

/-! ## Reservations and grants (R249 to R251) -/

/-- The claim of core n. -/
def State.claim (s : State) (n : Nat) : Claim := (s.core n).claim
def State.modClaim (s : State) (n : Nat) (f : Claim → Claim) : State := s.modCore n fun c => { c with claim := f c.claim }

/-- Groups reserved for a hand in an octet. -/
def State.reserved (s : State) (o : Nat) (d : Option Nat) (hand : Nat) : List Nat :=
  match d, (s.octet o).lanes.find? fun r => some r.deal == d && r.hand == hand with
  | some _, some r => r.groups
  | _, _ => []

/-- The groups of a claim as last decided: those of the last move not yet made, or those it holds. -/
def Claim.decided (c : Claim) : List Nat := (c.moves.getLast?.map fun m => m.groups).getD c.groups

/-- Groups of an octet that some claim holds or is to receive. -/
def State.groupsTaken (s : State) (o : Nat) : List Nat :=
  (List.range 8).flatMap fun i => (s.claim (8 * o + i)).groups ++ (s.claim (8 * o + i)).moves.flatMap fun m => m.groups

/-- The groups of the owner's hand that no claim holds, in ascending order. -/
def State.groupsFree (s : State) (n : Nat) : List Nat :=
  match (s.claim n).owner with
  | some t => (s.reserved (octetOf n) (s.thr t).deal (s.thr t).hand.toNat).filter fun g =>
      !(s.groupsTaken (octetOf n)).contains g
  | none => []

/-- Groups that a waiting claim lacks to reach its MIN. -/
def Claim.lack (c : Claim) : Nat := if c.waiting then c.minG - c.decided.length else 0

/-- The other claims of the hand that wait below their MIN, on the cores of the octet that meet p: groups they lack in all. -/
def State.lacking (s : State) (n : Nat) (p : Nat → Bool) : Nat :=
  let o := octetOf n
  match (s.claim n).owner with
  | none => 0
  | some t =>
    (((List.range 8).map fun i => 8 * o + i).filterMap fun m =>
      match (s.claim m).owner with
      | some u =>
        if m ≠ n ∧ p m ∧ (s.thr u).deal = (s.thr t).deal ∧ (s.thr u).hand = (s.thr t).hand then some (s.claim m).lack else none
      | none => none).foldl (· + ·) 0

/-- The groups that the claim of core n is to hold after a renegotiation point, from the groups `h` (R250). -/
def rebalance (n : Nat) (h : List Nat) (s : State) : List Nat :=
  let c := s.claim n
  let free := s.groupsFree n
  if c.waiting && decide (h.length < c.minG) then
    let lower := s.lacking n fun m => decide (m < n)
    let higher := s.lacking n fun m => decide (n < m)
    if free.length < lower then h.take (h.length - (lower - free.length))
    else if lower ≠ 0 then h
    else h ++ free.take ((if higher = 0 then c.maxG else c.minG) - h.length)
  else
    let all := s.lacking n fun _ => true
    if all ≠ 0 then h.take (h.length - min (all - free.length) (h.length - c.minG))
    else h ++ free.take (c.maxG - h.length)

/-- How many leading positions two grants share. -/
def samePositions : List Nat → List Nat → Nat
  | a :: r, b :: t => if a = b then samePositions r t + 1 else 0
  | _, _ => 0

/-- A claim takes new groups: positions that leave are lost and those that enter are zero (R249, R251). -/
def Claim.place (c : Claim) (new : List Nat) : Claim :=
  let kept := 512 * samePositions c.groups new
  { c with groups := new, vregs := ⟨c.vregs.cells.filter fun x => decide (x.1 % 4096 < kept)⟩ }

/-- The moves that have been decided are made, in order; the claim's earlier commands have completed. -/
def settleMoves (n : Nat) (s : State) : State :=
  if (s.claim n).moves.isEmpty then s
  else s.modClaim n fun c => { c.moves.foldl (fun c m => c.place m.groups) c with moves := [] }

/-- A renegotiation point whose owner has waited for the move gives the claim new groups, after those decided before; VL follows (R250, R251). -/
def moveGroups (n : Nat) (new : List Nat) (s : State) : State :=
  (settleMoves n s).modClaim n fun c => { c.place new with vl := min c.vl (512 * new.length) }

/-- A trick boundary of the claim's owner (R250): the change is decided and VL follows; the groups move once the commands pushed before it have
completed. -/
def trickBoundary (n : Nat) (s : State) : State :=
  let c := s.claim n
  let new := rebalance n c.decided s
  if new = c.decided then s
  else s.modClaim n fun c => { c with moves := c.moves ++ [{ groups := new, ahead := c.queue.length }], vl := min c.vl (512 * new.length) }

/-- A claim ends: its groups return to the reservation and its commands are gone (R249). -/
def endClaim (n : Nat) (s : State) : State := s.modCore n fun c => { c with claim := {} }

/-- VGRANT (Table 13.12). -/
def State.vgrant (s : State) (n : Nat) : Word :=
  let c := s.claim n
  match c.owner with
  | none => 0
  | some t =>
    wordOfNat (putAt 1 63 + putAt (t % 4) 61 + putAt (b2n (!c.queue.isEmpty)) 60 + putAt (b2n c.fault.isSome) 59
      + putAt c.queue.length 48 + putAt ((List.range 8).foldl (fun a g => a + b2n (c.groups.contains g) * 2 ^ g) 0) 40
      + putAt c.groups.length 36 + putAt (s.reserved (octetOf n) (s.thr t).deal (s.thr t).hand.toNat).length 32 + c.vl)

/-! ## Issue of a vector form (R252, R253, R255) -/

/-- A held fault is reported at the owner's next reporting point (R255). -/
def reportHeld : Act Unit := do
  let t ← cur
  let n ← myCore
  let c ← look fun s => s.claim n
  match c.fault with
  | some (sub, va, _) => if c.owner = some t then trap 11 sub va
  | none => pure ()

/-- The checks at issue of a form that needs the claim: the claim, a held fault. -/
def vguard : Act Unit := do
  let t ← cur
  let n ← myCore
  let s ← look id
  trapIf ((s.claim n).owner != some t) 11 0x01 (s.vgrant n)
  reportHeld

/-- Reads an x operand that a form may have. -/
def optX : Option Reg → Act Word
  | some r => readX r
  | none => return 0

/-- A push to the command queue, which has room for 16 (R253); it releases the thread's earlier stores (R185). -/
def vpush (i : Instr) (x1 x2 : Option Reg) : Act Unit := do
  vguard
  let t ← cur
  let n ← myCore
  if 16 ≤ (← look fun s => (s.claim n).queue.length) then stall
  let a ← optX x1
  let b ← optX x2
  let th ← me
  pushRelease
  upd fun s => s.modClaim n fun c =>
    { c with queue := c.queue ++ [{ instr := i, tid := t, pc := th.pc, x1 := a, x2 := b, vl := c.vl, rm := th.rm }] }

/-- Waits until the claim's earlier commands have completed. -/
def vdrain : Act Unit := do
  let n ← myCore
  if !(← look fun s => (s.claim n).queue.isEmpty) then hold

/-! ## Claim forms (R258) -/

/-- vclaim (R250, R258): the record of MIN and MAX stays over its wait. -/
def execVclaim (rd rs1 : Reg) (s : State) :=
  runComputePlain (.vclaim rd rs1) (do
    let q ← readX rs1
    let hi := bitsOf q 3 0
    let lo := bitsOf q 7 4
    let t ← cur
    let n ← myCore
    let th ← me
    let c ← look fun s => s.claim n
    let rsv ← look fun s => s.reserved (octetOf n) th.deal th.hand.toNat
    if 8 < hi ∨ hi < lo then writeX rd (-2)
    else if c.owner.isSome ∧ c.owner ≠ some t then writeX rd (-3)
    else if rsv.length < lo then writeX rd (-1)
    else
      reportHeld
      upd fun s => s.modClaim n fun c => { c with owner := some t, minG := lo, maxG := hi, waiting := true }
      let held := c.decided.take hi
      let new ← look fun s => rebalance n held s
      if (new ≠ c.decided ∨ new.isEmpty) ∧ !c.queue.isEmpty then holdAll
      if new ≠ c.decided then upd (moveGroups n new)
      if new.length < lo then holdAll
      if new.isEmpty then upd (endClaim n)
      else upd fun s => s.modClaim n fun c => { c with waiting := false, vl := 512 * new.length }
      writeX rd (wordOfNat new.length)) s

/-- vrel (R252, R258). -/
def execVrel (s : State) :=
  runComputePlain .vrel (do
    let t ← cur
    let n ← myCore
    let s ← look id
    match (s.claim n).owner with
    | none => pure ()
    | some u =>
      trapIf (u != t) 11 0x01 (s.vgrant n)
      reportHeld
      vdrain
      upd (endClaim n)) s

/-- vlen (R258). -/
def execVlen (rd rs1 : Reg) (s : State) :=
  runComputePlain (.vlen rd rs1) (do
    vguard
    let v ← readX rs1
    let n ← myCore
    let g ← look fun s => (s.claim n).decided.length
    let l := min v.toNat (512 * g) / 8 * 8
    upd fun s => s.modClaim n fun c => { c with vl := l }
    writeX rd (wordOfNat l)) s

/-- Stores register vi of the claim at an address as the spill of a safe point does (R271). -/
def spillReg (ag : Agent) (c : Claim) (i : Nat) (a : Word) : Act Unit := do
  for k in List.range (64 * c.groups.length) do
    let va := a + wordOfNat (8 * k)
    match ← engineWriteCheck ag va 8 with
    | .error _ => trap 11 0x05 va
    | .ok h =>
      engineStore ag h 8 (c.elem i k 8)
      noteEngine ag.tid 0 h va

/-- The safe-point stop (R271): the live registers are stored, the claim's limits recorded, and the claim ends. -/
def safePoint (mask a : Word) : Act Unit := do
  let n ← myCore
  let ag ← meAgent
  let c ← look fun s => s.claim n
  trapIf (a.toNat % 64 != 0) 11 0x05 a
  let base := rewriteOwn n a
  let live := (List.range 32).filter fun i => mask.getLsbD i
  for x in (List.range live.length).zip live do
    spillReg ag c x.2 (base + wordOfNat (512 * c.groups.length * x.1))
  upd (endClaim n)
  modMe fun th => { th with
    spill := some { g := c.groups.length, minG := c.minG, maxG := c.maxG, vl := c.vl, mask := mask.truncate 32, addr := base } }

/-- vfence (R258). -/
def execVfence (r sp : Bool) (rs1 rs2 : Reg) (s : State) :=
  runComputePlain (.vfence r sp rs1 rs2) (do
    let mask ← if sp then readX rs1 else pure 0
    let a ← if sp then readX rs2 else pure 0
    let t ← cur
    let n ← myCore
    let th ← me
    let stopping := sp && th.kn5 && th.st == .stopping
    if (← look fun s => (s.claim n).owner) = some t then
      reportHeld
      vdrain
      if r then
        let c ← look fun s => s.claim n
        let new ← look fun s => rebalance n c.decided s
        if new ≠ c.decided then upd (moveGroups n new) else upd (settleMoves n)
      if stopping then safePoint mask a
    if stopping then modMe fun th => { th with safeStop := true }) s

end Sys2Proof.Machine
end

