-- ==== Sys2Proof/Machine/Ordering.lean ====
section
/-! DEFINITION. Fences, signature publication and acquisition (R181 to R184), and the atomics with their reservation (R187
to R190). -/

namespace Sys2Proof.Machine

/-! ## Checks at a home address -/

/-- A location that an update at its home has passed the checks for. -/
inductive HomeAt where
  | bank (m off : Nat)
  | cm (c off : Nat)
  | page (va : Nat) (x : Xlated)
deriving DecidableEq, Repr

/-- The home address. -/
def HomeAt.addr : HomeAt → Nat
  | .bank m off => bankAddr m off
  | .cm c off => cmAddr c off
  | .page _ x => x.pa

/-- The checks of an access of n bytes, in one bank or page, at its home with a right of Table 18.4, as a load or store makes them. An
atomic or a signature form finds no target in a reserved bank, which is open to loads and stores alone (R71; DESIGN CHOICE, log
44); `plain` marks the store of a packet. -/
def homeCheck (ag : Agent) (va0 : Word) (need : BitVec 4) (n : Nat := 8) (plain : Bool := false) : Act (Except Fail HomeAt) := do
  let va := (rewriteOwn ag.core va0).toNat
  let write := need &&& needW == needW
  match ← watermark ag va n with
  | .error b => return .error (.bad b)
  | .ok _ =>
    match placeOf ag.core va with
    | .bad sub => return .error (.bad (.addr sub))
    | .bank m off =>
      if off < 0x60000 then
        return if ← look fun s => s.bankOwned ag.seat m off then .ok (.bank m off) else .error (.bad (.addr 0x06))
      return if plain && (← look fun s => s.reservedOk ag m off write) then .ok (.bank m off) else .error (.bad (.addr 0x07))
    | .cm c off =>
      match ← cmCheck ag c off n need with
      | .error b => return .error (.bad b)
      | .ok false => return .error .cmBeyond
      | .ok true =>
        if write && !(← look fun s => s.cmRoom c (off / 512)) then return .error .cmFull
        return .ok (.cm c off)
    | .page =>
      match ← translate ag va need with
      | .error e => return .error (.bad e)
      | .ok x => return .ok (.page va x)

/-- The checks of an instruction that updates at the home: they trap as a load's or a store's fault does, and a location
that the host link serves traps with cause 17 (R183, R188). -/
def homeOrTrap (cause : BitVec 8) (va : Word) (need : BitVec 4) (n : Nat := 8) : Act HomeAt := do
  match ← homeCheck (← meAgent) va need n with
  | .error f => raise cause va f
  | .ok h =>
    trapIf (decide (Config.hostBit ≤ h.addr) && decide (h.addr < scratchBase)) 17 1 va
    return h

/-! ## Acquires (R177, R178) -/

/-- acq.full: every block is dropped and the seat's signature set to all ones (R177, R178). -/
def acquireFull : Act Unit := do
  let ag ← meAgent
  dropWhere ag (fun _ => true) true
  upd (orSig ag.core ag.seat (BitVec.allOnes 512))

/-! ## Fences (R182) -/

/-- fence.s (R182): with W in PRED at scope oct or wider it waits as a release. At scope core it waits for the thread's remote stores,
which the core's other threads would else see after its later cached ones (R174). The other orders hold in program order.
PRED is (R, W) in bits 1 and 0 of its field, as is SUCC. -/
def execFenceS (scope : Scope) (pred succ : BitVec 2) (s : State) :=
  runPlain (.fenceS scope pred succ) (do
    if pred.getLsbD 0 && scope != .thr then release scope) s

/-- acq (R182). -/
def execAcq (full : Bool) (scope : Scope) (s : State) :=
  runPlain (.acq full scope) (do
    if full && !scopeCached scope then acquireFull) s

/-- rel (R182): the thread's next store is a release. -/
def execRel (scope : Scope) (s : State) :=
  runPlain (.rel scope) (modMe fun th => { th with relMark := some scope }) s

/-! ## Signatures (R183) -/

/-- The remote store of a sig.pub, whose record has passed its checks. -/
def publish (h : HomeAt) (kind : RKind) : Act Unit := do
  let ag ← meAgent
  match h with
  | .bank m off => bankWrite ag m off kind
  | .cm c off =>
    let _ ← cmWrite ag c off kind
  | .page va x =>
    dropWhere ag (fun b => b.overlaps va 128) false
    homedStore ag x kind

/-- sig.pub (R183): the checks of a store that updates its record (Table 18.4), the sectors that it writes noted at its issue (R178), a
release that takes the seat's signature, then the two updates at the home. -/
def execSigPub (add : Bool) (scope : Scope) (rs1 rs2 : Reg) (s : State) :=
  runPlain (.sigPub add scope rs1 rs2) (do
    let a ← readX rs1
    let v ← readX rs2
    trapIf (a.toNat % 128 != 0) 4 0 a
    let h ← homeOrTrap 6 a needRW 128
    settleRelease
    match h with
    | .page va _ =>
      noteSector (← meAgent) va
      noteSector (← meAgent) (va + 64)
    | _ => pure ()
    release scope
    publish h (.pub add v (← takeSig))) s

/-- sig.inv (R183): flag and field are read at the home, after the dirty bytes that the core holds of the record have been written back; the matching
blocks are dropped and the field joins the seat's signature. What the core still holds of the record leaves it too, so that no later load is older
(R172). -/
def execSigInv (scope : Scope) (rd rs1 : Reg) (s : State) :=
  runPlain (.sigInv scope rd rs1) (do
    let a ← readX rs1
    trapIf (a.toNat % 128 != 0) 4 0 a
    let ag ← meAgent
    let h ← homeOrTrap 5 a needR 128
    waitOwnStores ag h.addr 128
    match h with
    | .page va x =>
      cleanWhere ag fun b => b.overlaps va 128
      performBefore ag.core x.pa 128
      for o in [0, 64] do
        match ← readHome ag (x.pa + o) 64 with
        | .error b => raise 5 a (.bad b)
        | .ok _ => pure ()
    | .cm c off =>
      performSent ag.core (8192 + c)
      request ag h.addr 0 128
      match ← cmExpand ag c (off / 512) with
      | .error f => raise 5 a f
      | .ok _ => pure ()
    | .bank m _ =>
      performSent ag.core m
      request ag h.addr 0 128
    match ← look fun s => (s.poisonAt h.addr).or (s.poisonAt (h.addr + 64)) with
    | some sub => raise 5 a (.bad (.data sub))
    | none => pure ()
    let flag ← look fun s => s.load h.addr 8
    let field ← look fun s => s.load (h.addr + 64) 64
    acquireSig scope (BitVec.ofNat 512 field)
    match h with
    | .page va _ => dropWhere ag (fun b => b.overlaps va 128) false
    | _ => pure ()
    writeX rd (wordOfNat flag)) s

/-! ## fence.eng (R184) -/

/-- True while a command that thread t pushed to the engine of a mask bit has not completed, or a write it made is not
performed: 0 lane pool, 1 row array, 2 transform coprocessor, 3 copy unit. -/
def State.enginePending (s : State) (t e : Nat) : Bool :=
  let n := coreOf t
  match e with
  | 0 => (s.core n).claim.queue.any fun q => q.tid == t
  | 1 => ((s.core n).mx.go.any fun g => g.tid == t) || ((s.octet (octetOf n)).ops.any fun o => o.reqs.any fun g => g.tid == t)
      || (s.octet (octetOf n)).pipe.any fun x => x.tids.contains t
  | 2 => (s.octet (octetOf n)).txq.any fun r => r.tid == t
  | _ => ((s.cluster (clusterOf n)).engines.anyVal fun _ x => x.tid == t && x.st == .active)
      || (s.core n).rstores.any fun r => r.tid == t && r.slot.isSome && !r.performed

/-- fence.eng (R184): naming vp it reports a held fault (R255); it waits for the named engines, then drops the blocks that
their signatures match, which join the seat's. -/
def execFenceEng (mask : BitVec 4) (s : State) :=
  runPlain (.fenceEng mask) (do
    let t ← cur
    let es := (List.range 4).filter fun e => mask.getLsbD e
    if mask.getLsbD 0 then reportHeld
    if ← look fun s => es.any fun e => s.enginePending t e then hold
    let th ← me
    let sig := es.foldl (fun x e => x ||| th.engSigs.get 0 e) 0
    acquireSig .oct sig) s

/-! ## Atomics (R187, R188) -/

/-- The new value of Table 8.8 by FUNC, none where nothing is written. -/
def amoValue (func : Nat) (old v e : Word) : Option Word :=
  match func with
  | 0 => some (old + v)
  | 1 => some v
  | 2 => some (old &&& v)
  | 3 => some (old ||| v)
  | 4 => some (old ^^^ v)
  | 5 => some (if old.slt v then old else v)
  | 6 => some (if old.slt v then v else old)
  | 7 => some (if old < v then old else v)
  | 8 => some (if old < v then v else old)
  | _ => if old = e then some v else none

/-- Reads the doubleword at a home, after the thread's own stores to it; a block of it that the core holds is written back
and dropped, and the sector enters the seat's signature (R178, R188). -/
def atomicOld (cause : BitVec 8) (a : Word) (h : HomeAt) : Act Word := do
  let ag ← meAgent
  waitOwnStores ag h.addr 8
  match h with
  | .page va x =>
    dropWhere ag (fun b => b.holds va) false
    performBefore ag.core x.pa 8
    noteSector ag va
    match ← readHome ag x.pa 8 8 with
    | .error b => raise cause a (.bad b)
    | .ok v => return wordOfNat v
  | .cm c off =>
    performSent ag.core (8192 + c)
    request ag h.addr 8 8
    match ← cmExpand ag c (off / 512) with
    | .error f => raise cause a f
    | .ok _ =>
      match ← loadPlain h.addr 8 with
      | .error f => raise cause a f
      | .ok v => return wordOfNat v
  | .bank m off =>
    performSent ag.core m
    request ag h.addr 8 8
    if off < 0x60000 then
      match ← look fun s => s.poisonAt h.addr with
      | some sub => raise cause a (.bad (.data sub))
      | none => return wordOfNat (← look fun s => s.load h.addr 8)
    return wordOfNat (← look fun s => s.reservedRead m off)

/-- Writes the doubleword at its home. -/
def atomicWrite (h : HomeAt) (v : Word) : Act Unit := do
  let ag ← meAgent
  match h with
  | .page _ x => performMem ag.core { tid := ag.tid, seat := ag.seat, deal := ag.deal, hand := ag.hand, addr := x.pa, kind := .store 8 v.toNat }
  | .cm c off => upd fun s => (cmDirty c (off / 512) s).store (cmAddr c off) 8 v.toNat
  | .bank m off => if off < 0x60000 then upd fun s => s.store (bankAddr m off) 8 v.toNat else reservedWrite (some ag.core) m off v.toNat

/-- The scope of an atomic's ordering (R187). -/
def scxScope (scx : Bool) : Scope := if scx then .host else .part

/-- The effect of an atomic of Table 8.8 with FUNC 0 to 9 (R188). AQ drops nothing, since no signature comes with it
(R177). -/
def amo (func : Nat) (rl scx : Bool) (rd rs1 rs2 : Reg) : Act Unit := do
  let a ← readX rs1
  let v ← readX rs2
  let e ← if func = 9 then readX rd else pure 0
  trapIf (a.toNat % 8 != 0) 4 0 a
  let h ← homeOrTrap 6 a needRW
  settleRelease
  if rl then release (scxScope scx)
  let old ← atomicOld 6 a h
  match amoValue func old v e with
  | some w => atomicWrite h w
  | none => pure ()
  writeX rd old

def execAmoAdd (aq rl scx : Bool) (rd rs1 rs2 : Reg) (s : State) :=
  runPlain (.amoAdd aq rl scx rd rs1 rs2) (amo 0 rl scx rd rs1 rs2) s
def execAmoSwap (aq rl scx : Bool) (rd rs1 rs2 : Reg) (s : State) :=
  runPlain (.amoSwap aq rl scx rd rs1 rs2) (amo 1 rl scx rd rs1 rs2) s
def execAmoAnd (aq rl scx : Bool) (rd rs1 rs2 : Reg) (s : State) :=
  runPlain (.amoAnd aq rl scx rd rs1 rs2) (amo 2 rl scx rd rs1 rs2) s
def execAmoOr (aq rl scx : Bool) (rd rs1 rs2 : Reg) (s : State) :=
  runPlain (.amoOr aq rl scx rd rs1 rs2) (amo 3 rl scx rd rs1 rs2) s
def execAmoXor (aq rl scx : Bool) (rd rs1 rs2 : Reg) (s : State) :=
  runPlain (.amoXor aq rl scx rd rs1 rs2) (amo 4 rl scx rd rs1 rs2) s
def execAmoMin (aq rl scx : Bool) (rd rs1 rs2 : Reg) (s : State) :=
  runPlain (.amoMin aq rl scx rd rs1 rs2) (amo 5 rl scx rd rs1 rs2) s
def execAmoMax (aq rl scx : Bool) (rd rs1 rs2 : Reg) (s : State) :=
  runPlain (.amoMax aq rl scx rd rs1 rs2) (amo 6 rl scx rd rs1 rs2) s
def execAmoMinn (aq rl scx : Bool) (rd rs1 rs2 : Reg) (s : State) :=
  runPlain (.amoMinn aq rl scx rd rs1 rs2) (amo 7 rl scx rd rs1 rs2) s
def execAmoMaxn (aq rl scx : Bool) (rd rs1 rs2 : Reg) (s : State) :=
  runPlain (.amoMaxn aq rl scx rd rs1 rs2) (amo 8 rl scx rd rs1 rs2) s
def execAmoCas (aq rl scx : Bool) (rd rs1 rs2 : Reg) (s : State) :=
  runPlain (.amoCas aq rl scx rd rs1 rs2) (amo 9 rl scx rd rs1 rs2) s

/-- lr (R188, R189). -/
def execLr (aq rl scx : Bool) (rd rs1 : Reg) (s : State) :=
  runPlain (.lr aq rl scx rd rs1) (do
    let a ← readX rs1
    trapIf (a.toNat % 8 != 0) 4 0 a
    let h ← homeOrTrap 5 a needR
    if rl then release (scxScope scx)
    let old ← atomicOld 5 a h
    let now ← look fun s => s.cycle
    modMe fun th => { th with resv := some { addr := h.addr, cycle := now } }
    writeX rd old) s

/-- Cycles for which a reservation lasts (R189). -/
def resvLife : Nat := 1024

/-- sc (R188, R189): it writes only while the reservation on its doubleword is held, and ends it. -/
def execSc (aq rl scx : Bool) (rd rs1 rs2 : Reg) (s : State) :=
  runPlain (.sc aq rl scx rd rs1 rs2) (do
    let a ← readX rs1
    let v ← readX rs2
    trapIf (a.toNat % 8 != 0) 4 0 a
    let h ← homeOrTrap 6 a needRW
    settleRelease
    if rl then release (scxScope scx)
    let _ ← atomicOld 6 a h
    let now ← look fun s => s.cycle
    let ok := match (← me).resv with
      | some r => r.addr == h.addr && decide (now < r.cycle + resvLife)
      | none => false
    if ok then atomicWrite h v
    modMe fun th => { th with resv := none }
    writeX rd (if ok then 0 else 1)) s

/-- A reservation ends 1,024 cycles after its lr (R189). -/
def execReservationTimeout (tid : Nat) (s : State) :=
  runEvent (do
    match (← look fun s => (s.thr tid).resv) with
    | some r =>
      if r.cycle + resvLife ≤ (← look fun s => s.cycle) then upd fun s => s.modThr tid fun th => { th with resv := none }
    | none => pure ()) s

end Sys2Proof.Machine
end

