-- ==== Sys2Proof/Machine/Sync.lean ====
section
/-! DEFINITION. Named barriers, domains, semaphores, mailboxes and messages (R193 to R206), with the events that release
their waiters. -/

namespace Sys2Proof.Machine

/-- A release at an object's scope that takes the seat's signature, as sig.pub does (R194). -/
def releaseSig (scope : Scope) : Act (BitVec 512) := do
  release scope
  takeSig

/-- An arrival at an object on a die uses the sender's fabric share, as a packet of one doubleword (R193; DESIGN CHOICE, log 15). -/
def sendArrival (die : Nat) : Act Unit := do
  let ag ← meAgent
  charges (packetRequests ag die 0 8)

/-! ## Barriers (R196) -/

/-- Home core and index of a barrier's name. -/
def barCore (i : Word) : Nat := bitsOf i 10 0
def barIndex (i : Word) : Nat := bitsOf i 20 16
/-- RWOBJ of a barrier (Table 9.16). -/
def barObj (core b : Nat) : BitVec 16 := BitVec.ofNat 16 (b * 2048 + core)

/-- The narrowest scope that covers both cores (R194). -/
def coverScope (n m : Nat) : Scope :=
  if n = m then .core
  else if octetOf n = octetOf m then .oct
  else if clusterOf n = clusterOf m then .clu
  else if dieOf n = dieOf m then .die
  else .part

def State.bar (s : State) (core b : Nat) : Barrier := (s.core core).bars.get {} b
def State.setBar (s : State) (core b : Nat) (x : Barrier) : State :=
  s.modCore core fun c => { c with bars := c.bars.set b x }

/-- Releases the waiters of a barrier whose phase has changed, with its signature (R194 to R196). -/
def releaseWaiters (core b : Nat) (phase : BitVec 16) (sig : BitVec 512) (s : State) : State :=
  s.mapThr fun _ th =>
    let th1 := match th.barWait with
      | some (o, p) =>
        if o = barObj core b ∧ p ≠ phase then { th with objAns := some (phase, sig), barWait := none, waiting := false } else th
      | none => th
    match th1.regWait with
    | some w =>
      if !w.sem ∧ w.obj = barObj core b ∧ !w.done ∧ w.arg ≠ phase then
        { th1 with regWait := some { w with done := true, sig := sig } }
      else th1
    | none => th1

/-- The last arrival flips the phase, releases the waiters and clears the signature (R194, R196). Every access to the
barrier comes after it. -/
def flipBarrier (core b : Nat) (s : State) : State :=
  let x := s.bar core b
  if x.configured ∧ x.arr = x.count then
    releaseWaiters core b (x.phase + 1) x.sig (s.setBar core b { x with arr := 0, phase := x.phase + 1, sig := 0 })
  else s

/-- bar.cfg (R196). A dealer core has no number of its own among the barriers' home cores. -/
def execBarCfg (rs1 rs2 : Reg) (s : State) :=
  runPlain (.barCfg rs1 rs2) (do
    let i ← readX rs1
    let n ← readX rs2
    let core ← myCore
    let seat ← mySeat
    let th ← me
    let b := barIndex i
    trapIf (barCore i != core) 15 0x01 i
    upd (flipBarrier core b)
    let x ← look fun s => s.bar core b
    trapIf (x.configured && x.seat != seat) 15 0x02 i
    let waited ← look fun s => s.threads.anyVal fun _ t => match t.regWait with
      | some w => !w.sem && w.obj == barObj core b && !w.done
      | none => false
    trapIf (x.arr != 0 || waited) 15 0x0C i
    trapIf (n == 0 || decide (65535 < n.toNat)) 15 0x03 n
    upd fun s => releaseWaiters core b 0 0 (s.setBar core b
      { configured := true, seat := seat, deal := th.deal.getD 0, hand := th.hand.toNat, count := n.truncate 16 })) s

/-- The checks of bar.arr and bar.wait on a name (R196). -/
def barName (i : Word) : Act Unit := do
  let seat ← mySeat
  let inside ← look fun s => match partOfSeat seat with
    | some f => s.covers f (barCore i)
    | none => false
  trapIf (!inside) 15 0x01 i

/-- The barrier at its home, which the thread's seat must own (R193, R196). -/
def barAtHome (i : Word) : Act Barrier := do
  upd (flipBarrier (barCore i) (barIndex i))
  let x ← look fun s => s.bar (barCore i) (barIndex i)
  trapIf (!x.configured || x.seat != (← mySeat)) 15 0x02 i
  return x

/-- bar.arr (R196): the arrival meets the barrier as it stands when it reaches the home (R361). -/
def execBarArr (rd rs1 : Reg) (s : State) :=
  runPlain (.barArr rd rs1) (do
    let i ← readX rs1
    barName i
    let sig ← releaseSig (coverScope (← myCore) (barCore i))
    if barCore i ≠ (← myCore) then sendArrival (dieOf (barCore i))
    let x ← barAtHome i
    upd fun s => s.setBar (barCore i) (barIndex i) { x with arr := x.arr + 1, sig := x.sig ||| sig }
    writeX rd (x.phase.zeroExtend 64)) s

/-- bar.wait (R196): a stop abandons the wait. -/
def execBarWait (rd rs1 rs2 : Reg) (s : State) :=
  runPlain (.barWait rd rs1 rs2) (do
    let i ← readX rs1
    let v ← readX rs2
    let p : BitVec 16 := v.truncate 16
    barName i
    let scope := coverScope (← myCore) (barCore i)
    match (← me).objAns with
    | some (phase, sig) =>
      acquireSig scope sig
      writeX rd (phase.zeroExtend 64)
    | none =>
      let x ← barAtHome i
      if x.phase ≠ p then
        acquireSig scope x.sig
        writeX rd (x.phase.zeroExtend 64)
      else
        modMe fun th => { th with barWait := some (barObj (barCore i) (barIndex i), p) }
        holdAll) s

/-- bar.wait.n (R195, R196). -/
def execBarWaitN (rd rs1 rs2 : Reg) (s : State) :=
  runPlain (.barWaitN rd rs1 rs2) (do
    let i ← readX rs1
    let v ← readX rs2
    let p : BitVec 16 := v.truncate 16
    barName i
    let x ← barAtHome i
    if x.phase ≠ p then
      acquireSig (coverScope (← myCore) (barCore i)) x.sig
      writeX rd 0
    else
      trapIf (← me).regWait.isSome 15 0x06 0
      modMe fun th => { th with regWait := some { obj := barObj (barCore i) (barIndex i), arg := p } }
      writeX rd 1) s

/-- The last arrival has come: the phase flips and the waiters are released (R196). -/
def execBarrierRelease (core b : Nat) (s : State) := runEvent (upd (flipBarrier core b)) s

/-! ## Domains (R197, R198) -/

/-- Key of the level-k domain of a core in its deal: 4096 × level + node. -/
def domNode (k n : Nat) : Nat := if k = 0 then n / 8 else if k = 1 then n / 16 else n / 2 ^ (k + 3)
def domKey (k n : Nat) : Nat := 4096 * k + domNode k n

/-- Scope of a domain by level (R194). -/
def domScope (k : Nat) : Scope := if k = 0 then .oct else if k = 1 then .clu else if k ≤ 5 then .die else .part

/-- The die of a level-k domain's home, the lowest-numbered cluster of its node (Table 9.1). -/
def domDie (k n : Nat) : Nat := if k ≤ 1 then dieOf n else dieOf (domNode k n * 2 ^ (k + 3))

/-- Lowest set bit of MEMB; 9 where none is set. -/
def lowestBit (m : BitVec 9) : Nat := ((List.range 9).find? fun i => m.getLsbD i).getD 9

def State.domain (s : State) (d key : Nat) : Domain := (s.deal d).domains.get {} key
def State.setDomain (s : State) (d key : Nat) (x : Domain) : State :=
  s.modDeal d fun y => { y with domains := y.domains.set key x }

/-- dom.sync's completion once the phase has flipped (R198): TRICK, the acquire, the trick boundary of the thread's claim
(R250), and the answer that tells of a kill. -/
def domDone (rd : Reg) (k : Nat) (x : Domain) : Act Unit := do
  let th ← me
  let again := decide (th.domKills.get 0 k ≠ x.kills)
  modMe fun th => { th with
    domArr := none
    domKills := th.domKills.set k x.kills
    phase := if x.phase then th.phase ||| BitVec.ofNat 9 (2 ^ k) else th.phase &&& ~~~(BitVec.ofNat 9 (2 ^ k))
    tricks := if !x.phase && lowestBit th.memb = k then th.tricks + 1 else th.tricks }
  acquireSig (domScope k) x.lastSig
  let t ← cur
  let n ← myCore
  if !x.phase && lowestBit th.memb = k && (← look fun s => (s.claim n).owner) = some t then upd (trickBoundary n)
  writeX rd (if again then -1 else 0)

/-- dom.sync (R198): the arrival counts once; it stays counted over a stop. -/
def execDomSync (rd : Reg) (k : BitVec 4) (s : State) :=
  runPlain (.domSync rd k) (do
    let th ← me
    let n ← myCore
    let d := th.deal.getD 0
    let key := domKey k.toNat n
    trapIf (!th.memb.getLsbD k.toNat) 15 0x04 (k.zeroExtend 64)
    match th.domArr with
    | some a =>
      let x ← look fun s => s.domain d key
      if a.level = k then
        if x.phase ≠ a.phase then domDone rd k.toNat x else hold
      else hold
    | none =>
      let sig ← releaseSig (domScope k.toNat)
      sendArrival (domDie k.toNat n)
      let x ← look fun s => s.domain d key
      upd fun s => s.setDomain d key { x with arrived := x.arrived + 1, sig := x.sig ||| sig }
      modMe fun th => { th with domArr := some { phase := x.phase, level := k } }
      holdAll) s

/-- The flip of a domain once every living member has arrived (R194, R198). -/
def execDomainFlip (deal level node : Nat) (s : State) :=
  runEvent (do
    let key := 4096 * level + node
    let x ← look fun s => s.domain deal key
    if 0 < x.living ∧ x.living ≤ x.arrived then
      upd fun s => (s.setDomain deal key
        { x with arrived := x.arrived - x.living, phase := !x.phase, lastSig := x.sig, sig := 0 }).mapThr fun _ th =>
          if th.deal = some deal ∧ th.domArr.isSome then { th with waiting := false } else th) s

/-! ## Semaphores (R200) -/

/-- The seat's window of semaphores in an octet, and of mailboxes in a cluster (R193). -/
def State.semWindow (s : State) (seat o : Nat) : Span :=
  if 1024 ≤ seat then {} else (s.seat seat).cfg.sems.getD (o - (seat / 16 - 1) * 8) {}
def State.mbxWindow (s : State) (seat c : Nat) : Span :=
  if 1024 ≤ seat then {} else (s.seat seat).cfg.mailboxes.getD (c - (seat / 16 - 1) * 4) {}
def spanHas (w : Span) (i : Nat) : Bool := decide (w.base ≤ i) && decide (i < w.base + w.count)

def State.sem (s : State) (o i : Nat) : Sem := (s.octet o).sems.get {} i
def State.setSem (s : State) (o i : Nat) (x : Sem) : State := s.modOctet o fun y => { y with sems := y.sems.set i x }

/-- The value taken from a semaphore; its signature clears at zero (R194). -/
def Sem.take (x : Sem) (n : Nat) : Sem := { x with val := x.val - n, sig := if x.val = n then 0 else x.sig }

/-- The next parison of a run becomes current: what survives a commit (R299). -/
def Run.next (r : Run) (a : Word) : Run := { r with paddr := a, header := none, got := [], waiting := false, retried := [] }

/-- The answer to a request that has been served: to a waiting or registered thread, or to the sequencer of a run, whose
WAITSIG commits (R303). -/
def answerSem (i : Nat) (r : SemReq) (val : Nat) (sig : BitVec 512) (s : State) : State :=
  if 100000 ≤ r.tid then s.modOctet (r.tid - 100000) fun y =>
    { y with run := match y.run.header with | some h => y.run.next h.succ | none => y.run }
  else if r.registered then
    let w : RegWait := { sem := true, obj := BitVec.ofNat 16 i, arg := BitVec.ofNat 16 r.n, done := true, sig := sig }
    s.modThr r.tid fun th => { th with regWait := some w }
  else s.modThr r.tid fun th => { th with objAns := some (BitVec.ofNat 16 val, sig), waiting := false }

/-- Serves the request at the head of a semaphore's queue where the value allows (R200). -/
def serveSem (o i : Nat) (s : State) : State :=
  let x := s.sem o i
  match x.queue with
  | r :: rest =>
    if r.n ≤ x.val then
      answerSem i r (x.val - r.n) x.sig (s.setSem o i { (x.take r.n) with queue := rest })
    else s
  | [] => s

/-- Serves a semaphore's queue as far as its value allows: requests that reached the octet before this one (R200). -/
def serveQueue (o i : Nat) (s : State) : State := (s.sem o i).queue.foldl (fun s _ => serveSem o i s) s

/-- The checks of both forms (R200); answers the octet, s and n. -/
def semOperands (rs1 rs2 : Reg) : Act (Nat × Nat × Nat) := do
  let i ← readX rs1
  let n ← readX rs2
  let o := octetOf (← myCore)
  let seat ← mySeat
  let inside ← look fun s => spanHas (s.semWindow seat o) i.toNat
  trapIf (decide (63 < i.toNat) || !inside) 15 0x05 i
  trapIf (decide (65535 < n.toNat)) 15 0x03 n
  return (o, i.toNat, n.toNat)

/-- sem.post (R200). -/
def execSemPost (rs1 rs2 : Reg) (s : State) :=
  runPlain (.semPost rs1 rs2) (do
    let (o, i, n) ← semOperands rs1 rs2
    let sig ← releaseSig .oct
    sendArrival (dieOf (← myCore))
    upd (serveQueue o i)
    let x ← look fun s => s.sem o i
    trapIf (decide (65535 < x.val + n)) 15 0x03 (wordOfNat n)
    upd fun s => s.setSem o i { x with val := x.val + n, sig := x.sig ||| sig }) s

/-- Takes n at once as sem.wait does. -/
def semTake (rd : Reg) (o i n : Nat) (x : Sem) : Act Unit := do
  upd fun s => s.setSem o i (x.take n)
  acquireSig .oct x.sig
  writeX rd (wordOfNat (x.val - n))

/-- sem.wait (R200). -/
def execSemWait (rd rs1 rs2 : Reg) (s : State) :=
  runPlain (.semWait rd rs1 rs2) (do
    let (o, i, n) ← semOperands rs1 rs2
    let t ← cur
    match (← me).objAns with
    | some (v, sig) =>
      acquireSig .oct sig
      writeX rd (v.zeroExtend 64)
    | none =>
      if (← look fun s => s.sem o i).queue.any fun r => r.tid == t && !r.registered then hold
      upd (serveQueue o i)
      let x ← look fun s => s.sem o i
      if x.queue.isEmpty ∧ n ≤ x.val then semTake rd o i n x
      else
        upd fun s => s.setSem o i { x with queue := x.queue ++ [{ tid := t, n := n }] }
        holdAll) s

/-- sem.wait.n (R195, R200). -/
def execSemWaitN (rd rs1 rs2 : Reg) (s : State) :=
  runPlain (.semWaitN rd rs1 rs2) (do
    let (o, i, n) ← semOperands rs1 rs2
    let t ← cur
    upd (serveQueue o i)
    let x ← look fun s => s.sem o i
    if x.queue.isEmpty ∧ n ≤ x.val then semTake rd o i n x
    else
      trapIf (← me).regWait.isSome 15 0x06 0
      upd fun s => s.setSem o i { x with queue := x.queue ++ [{ tid := t, n := n, registered := true }] }
      modMe fun th => { th with regWait := some { sem := true, obj := BitVec.ofNat 16 i, arg := BitVec.ofNat 16 n } }
      writeX rd (-1)) s

/-- The request at the head of a semaphore's queue is applied (R200). -/
def execSemRequestArrival (octet s_ : Nat) (s : State) := runEvent (upd (serveSem octet s_)) s

/-! ## Registered waits (R195) -/

/-- The scope at which a thread's registered wait acquires. -/
def regScope (t : Nat) (w : RegWait) : Scope := if w.sem then .oct else coverScope (coreOf t) (w.obj.toNat % 2048)

/-- A registered wait whose release has come resolves: the acquire, then the wake with reason 3. During a stop it is
held (R195). -/
def execRegisteredWaitRelease (tid : Nat) (s : State) :=
  runEvent (do
    let th ← look fun s => s.thr tid
    match th.regWait with
    | some w =>
      if w.done ∧ (th.st = .running ∨ th.st = .idle ∨ th.st = .stopping) then
        acquireAt (← look fun s => s.agent tid) (regScope tid w) w.sig
        upd fun s => wakeThread tid 3 true (s.modThr tid fun x => { x with regWait := none })
    | none => pure ()) s

/-! ## Mailboxes (R202 to R204) -/

def State.mailbox (s : State) (c m : Nat) : Option Mailbox :=
  if (s.cluster c).mailboxes.anyVal fun k _ => k == m then some ((s.cluster c).mailboxes.get {} m) else none
def State.setMailbox (s : State) (c m : Nat) (x : Mailbox) : State :=
  s.modCluster c fun y => { y with mailboxes := y.mailboxes.set m x }

/-- Unbinds a mailbox: its unread records are discarded, and an arrival that waits for it is an ordinary store (R203,
R204). -/
def unbindMailbox (c m : Nat) (s : State) : State :=
  let x := (s.cluster c).mailboxes.get {} m
  let late := (s.cluster c).arrivals.filter fun a => a.ma == x.ma
  let s1 := s.modCluster c fun y => { y with
    mailboxes := y.mailboxes.erase m, arrivals := y.arrivals.filter fun a => a.ma != x.ma }
  late.foldl (fun s a => s.storeAll a.ma (a.payload.flatMap fun w => bytesOf 8 w.toNat)) s1

/-- Unbinds every mailbox of a thread whose part in its hand ends (R204). -/
def unbindMailboxes (t : Nat) (s : State) : State :=
  let c := clusterOf (coreOf t)
  ((s.cluster c).mailboxes.toList.filter fun m => m.2.tid == t).foldl (fun s m => unbindMailbox c m.1 s) s

/-- mbx.bind (R202). -/
def execMbxBind (rd rs1 : Reg) (s : State) :=
  runPlain (.mbxBind rd rs1) (do
    let a ← readX rs1
    let d ← readDoublewords a 4
    let t ← cur
    let n ← myCore
    let c := clusterOf n
    let seat ← mySeat
    let ma := (rewriteOwn n (d.getD 0 0)).toNat
    let rb := (rewriteOwn n (d.getD 1 0)).toNat
    let f := d.getD 2 0
    let nrec := bitsOf f 8 0
    let own ← look fun s => s.banksOwned seat n ma 16 && s.banksOwned seat n rb (256 * nrec)
    let taken ← look fun s => (s.mailboxAt ma).isSome
    trapIf (ma % 16 != 0 || rb % 256 != 0 || bitsOf f 63 9 != 0 || d.getD 3 0 != 0 || !isPow2 nrec || decide (256 < nrec)
      || bankCore n ma != some n || bankCore n rb != some n || !own || (decide (rb ≤ ma) && decide (ma < rb + 256 * nrec))
      || taken) 15 0x08 a
    let w ← look fun s => s.mbxWindow seat c
    let free ← look fun s => (List.range w.count).find? fun i => (s.mailbox c (w.base + i)).isNone
    match free with
    | none => writeX rd (-1)
    | some i =>
      upd fun s => s.setMailbox c (w.base + i) { tid := t, seat := seat, ma := ma, rbase := rb, nrec := nrec }
      writeX rd (wordOfNat (w.base + i))) s

/-- The mailbox m = ReadX(rs1), which must be bound to the thread (R204). -/
def myMailbox (rs1 : Reg) : Act (Nat × Nat × Mailbox) := do
  let m ← readX rs1
  let t ← cur
  let c := clusterOf (← myCore)
  match ← look fun s => s.mailbox c m.toNat with
  | some x =>
    trapIf (x.tid != t) 15 0x07 m
    return (c, m.toNat, x)
  | none => trap 15 0x07 m

/-- mbx.peek (R204). -/
def execMbxPeek (rd : Reg) (s : State) :=
  runPlain (.mbxPeek rd) (do
    let t ← cur
    let c := clusterOf (← myCore)
    let m ← look fun s => (s.cluster c).mailboxes.toList.find? fun m => m.2.tid == t && m.2.inn != m.2.out
    writeX rd (match m with | some x => wordOfNat x.1 | none => -1)) s

/-- mbx.take (R204). -/
def execMbxTake (rd rs1 : Reg) (s : State) :=
  runPlain (.mbxTake rd rs1) (do
    let (_, _, x) ← myMailbox rs1
    writeX rd (if x.inn = x.out then 0 else wordOfNat (x.rbase + 256 * (x.out % x.nrec)))) s

/-- mbx.done (R204). -/
def execMbxDone (rs1 : Reg) (s : State) :=
  runPlain (.mbxDone rs1) (do
    let (c, m, x) ← myMailbox rs1
    trapIf (x.inn == x.out) 15 0x09 (wordOfNat m)
    upd fun s => s.setMailbox c m { x with out := x.out + 1 }) s

/-- mbx.rel (R204): an arrival that waits is applied first. -/
def execMbxRel (rd rs1 : Reg) (s : State) :=
  runPlain (.mbxRel rd rs1) (do
    let (c, m, x) ← myMailbox rs1
    let waits ← look fun s => (s.cluster c).arrivals.any fun a => a.ma == x.ma
    if x.inn ≠ x.out ∨ waits then writeX rd (-1)
    else
      upd (unbindMailbox c m)
      writeX rd 0) s

/-- The first packet in flight to a doorbell that its order lets perform: its core and index (R115). -/
def State.packetTo (s : State) (ma : Nat) : Option (Nat × Nat × RStore) :=
  (s.cores.toList.flatMap fun c => ((List.range c.2.rstores.length).zip c.2.rstores).filterMap fun x =>
    let ahead := (c.2.rstores.take x.1).any fun q => q.tid == x.2.tid && q.dest == x.2.dest && !q.performed
    match x.2.kind with
    | .packet _ _ => if x.2.addr = ma ∧ !x.2.performed ∧ !ahead then some (c.1, x.1, x.2) else none
    | _ => none).head?

/-- The next arrival at a mailbox with a free slot becomes a record and wakes the bound thread (R203). -/
def execMailboxArrival (cluster m : Nat) (s : State) :=
  runEvent (do
    match ← look fun s => s.mailbox cluster m with
    | none => pure ()
    | some x =>
      if !x.room then return ()
      match (← look fun s => (s.cluster cluster).arrivals.find? fun a => a.ma == x.ma),
            (← look fun s => s.packetTo x.ma) with
      | some a, _ =>
        upd fun s => (deliver cluster m a.kind a.src a.payload s).modCluster cluster fun y =>
          { y with arrivals := y.arrivals.erase a }
      | none, some (n, i, r) =>
        performStore n r
        upd (markPerformed n i)
      | none, none => pure ()) s

/-! ## Messages (R205) -/

/-- The homes of the doublewords of a packet for addresses where no mailbox is bound, each checked as a store's is when the packet closes (R205). -/
def packetHomes (ag : Agent) : List Word → Act (List HomeAt)
  | [] => return []
  | va :: l => do
    match ← homeCheck ag va needW 8 true with
    | .error f => raise 6 va f
    | .ok h => return h :: (← packetHomes ag l)

/-- What a packet's stores to a page leave behind at its core: their sectors in GDDR are noted (R178). -/
def notePacket (ag : Agent) : List HomeAt → Act Unit
  | [] => pure ()
  | h :: l => do
    match h with
    | .page va x => noteHomed ag va x
    | _ => pure ()
    notePacket ag l

/-- The stores of a packet to the own core's bank, which are local (R113). -/
def ownPacket (ag : Agent) : List (HomeAt × Word) → Act Unit
  | [] => pure ()
  | (h, w) :: l => do
    match h with
    | .bank m off => bankWrite ag m off (.store 8 w.toNat)
    | _ => pure ()
    ownPacket ag l

/-- True while an earlier packet of a thread waits at its own core for a mailbox's slot. -/
def Core.packetWaits (c : Core) (t n : Nat) : Bool := c.rstores.any fun r => r.tid == t && r.dest == n && r.isMessage && !r.performed

/-- Injects the thread's packet as one remote store of the class of its destination (R205); one for the own core's bank is local, and waits in the table
only for a mailbox's slot (R113; DESIGN CHOICE, log 47). -/
def injectPacket (ag : Agent) (m : Msg) (hs : List HomeAt) : Act Unit := do
  let c ← look fun s => s.core ag.core
  let own := match placeOf ag.core m.home with
    | .bank n _ => n == ag.core
    | _ => false
  let room ← look fun s => match s.mailboxAt m.home with
    | some (_, _, x) => x.room
    | none => true
  if own && room && !c.packetWaits ag.tid ag.core then
    match hs, placeOf ag.core m.home with
    | [], .bank n off => performPacket ag.core n off { tid := ag.tid, seat := ag.seat, addr := m.home } m.words false
    | _, _ => ownPacket ag (hs.zip m.words)
  else
    for h in hs do ownResv ag h.addr 8
    issueRemote ag (if own then 0 else classOfAddr ag.core m.home) (destOfAddr ag.core m.home) m.home (.packet m.words (hs.map HomeAt.addr))

/-- Closes the thread's packet (R205). Where no mailbox is bound at its destination its doublewords are ordinary stores, whose addresses are checked and
translated as it closes (R71, R332); a block that its core holds of them is written back and dropped, as by rst (R114). -/
def closePacket (m : Msg) : Act Unit := do
  let ag ← meAgent
  awaitRouter ag.core
  let box ← look fun s => (s.mailboxAt m.home).isSome
  let hs ← if box then pure [] else packetHomes ag ((List.range m.words.length).map fun i => m.dest + wordOfNat (8 * i))
  if m.home < ownBase then dropWhere ag (fun b => b.overlaps m.dest.toNat (8 * m.words.length)) false
  let home := (hs.head?.map HomeAt.addr).getD m.home
  charges (packetRequests ag (dieOfAddr ag.core home) (home + 1) (8 * m.words.length) 2)
  if Config.hostBit ≤ home ∧ home < 2 * Config.hostBit then charges (hostRequests ag hostOutArb home (8 * m.words.length) 2)
  notePacket ag hs
  injectPacket ag { m with home := home } hs
  modMe fun th => { th with msg := none }

/-- The send that closes a packet: bytes of it that a copy channel still holds back make it wait, and those of a faulted channel
make it trap, as a store of them does (R157, R205). -/
def sendPacket (m : Msg) : Act Unit := do
  let ag ← meAgent
  match ← watermark ag (rewriteOwn ag.core m.dest).toNat (8 * m.words.length) with
  | .error b => raise 6 m.dest (.bad b)
  | .ok _ => closePacket m

/-- msg.send (R205). The destination's own alias is the issuing core's window. -/
def execMsgSend (last : Bool) (rs1 rs2 : Reg) (s : State) :=
  runPlain (.msgSend last rs1 rs2) (do
    let d ← readX rs1
    let v ← readX rs2
    let m ← match (← me).msg with
      | some m =>
        trapIf (m.dest != d || m.words.length == 31) 15 0x0B d
        pure { m with words := m.words ++ [v] }
      | none =>
        trapIf (d.toNat % 16 != 0) 4 0 d
        settleRelease
        match ← homeCheck (← meAgent) d needW 8 true with
        | .error f => raise 6 d f
        | .ok h => pure { dest := d, home := h.addr, words := [v] }
    if last then sendPacket m
    else modMe fun th => { th with msg := some m }) s

/-- msg.abort (R205). -/
def execMsgAbort (s : State) := runPlain .msgAbort (modMe fun th => { th with msg := none }) s

end Sys2Proof.Machine
end

