-- ==== Sys2Proof/Machine/Vector.lean ====
section
/-! DEFINITION. The commands of the lane pool: what each computes (R259 to R268), their execution in queue order (R253 to
R255), the moves of lane groups (R250), and the vector forms. -/

namespace Sys2Proof.Machine

/-! ## Elements -/

/-- Bytes of an element of a floating type, and of an element size. -/
def ftySize (t : FTy) : Nat := (fmtOf t).w / 8
def szSize : Sz → Nat
  | .b8 => 1 | .b16 => 2 | .b32 => 4 | .b64 => 8

/-- Writes the elements of size s from element e of register vd. -/
def Claim.setElems (c : Claim) (vd s e : Nat) : List Nat → Claim
  | [] => c
  | v :: r => Claim.setElems (c.setElem vd e s v) vd s (e + 1) r

/-- Writes mask bits from bit e. -/
def Claim.setBits (c : Claim) (vd e : Nat) : List Bool → Claim
  | [] => c
  | b :: r => Claim.setBits (c.setBit vd e b) vd (e + 1) r

/-- The flags of a list of results. -/
def allFlags {α : Type} : List (α × FlagSet) → FlagSet
  | [] => 0
  | x :: r => x.2 ||| allFlags r

/-- Elements 0 to n − 1 of vd become what f gives; every source is read before (R253). -/
def mapElems (c : Claim) (vd : Reg) (s n : Nat) (f : Nat → Nat × FlagSet) : Claim × FlagSet :=
  let rs := (List.range n).map f
  (c.setElems vd.toNat s 0 (rs.map fun x => x.1), allFlags rs)

/-- Mask bits 0 to n − 1 of vd become what f gives; the others stay (R259). -/
def mapMask (c : Claim) (vd : Reg) (n : Nat) (f : Nat → Bool × FlagSet) : Claim × FlagSet :=
  let rs := (List.range n).map f
  (c.setBits vd.toNat 0 (rs.map fun x => x.1), allFlags rs)

/-- A float form of two or three elements (R259). -/
def floatForm (c : Claim) (q : VCmd) (t : FTy) (vd vs1 vs2 : Reg) (f : Nat → Nat → Nat → Nat × FlagSet) : Claim × FlagSet :=
  let s := ftySize t
  mapElems c vd s (q.vl / s) fun e => f (c.elem vs1.toNat e s) (c.elem vs2.toNat e s) (c.elem vd.toNat e s)

/-- A float compare (R259). -/
def floatMask (c : Claim) (q : VCmd) (t : FTy) (vd vs1 vs2 : Reg) (f : Nat → Nat → Bool × FlagSet) : Claim × FlagSet :=
  let s := ftySize t
  mapMask c vd (q.vl / s) fun e => f (c.elem vs1.toNat e s) (c.elem vs2.toNat e s)

/-- An integer form of two elements of W bits (R260): f takes W. -/
def intForm (c : Claim) (q : VCmd) (z : Sz) (vd vs1 vs2 : Reg) (f : Nat → Nat → Nat → Nat × FlagSet) : Claim × FlagSet :=
  let s := szSize z
  mapElems c vd s (q.vl / s) fun e => f (8 * s) (c.elem vs1.toNat e s) (c.elem vs2.toNat e s)

/-- A wrapping result of W bits, which raises no flag (R228). -/
def wrapTo (w : Nat) (i : Int) : Nat × FlagSet := (intEnc w i, 0)

/-- vsr (R260): arithmetic without the .n suffix. -/
def shiftRight (n : Bool) (w a b : Nat) : Nat × FlagSet := wrapTo w (intVal (!n) w a / (2 ^ (b % w) : Nat))

/-- The lesser or greater of two encodings by the type's signedness. -/
def intPick (max n : Bool) (w a b : Nat) : Nat := if decide (intVal (!n) w b < intVal (!n) w a) == max then a else b

/-- A conversion of one source to one result (R262). -/
def unaryForm (c : Claim) (q : VCmd) (t : FTy) (vd vs1 : Reg) (f : Nat → Nat × FlagSet) : Claim × FlagSet :=
  let s := ftySize t
  mapElems c vd s (q.vl / s) fun e => f (c.elem vs1.toNat e s)

/-! ## Reductions (R245, R264) -/

/-- One level of the tree over lane index: adjacent pairs combined, an odd last term passed up. -/
def treeLevel (f : Nat → Nat → Nat × FlagSet) : List Nat → List Nat × FlagSet
  | a :: b :: r =>
    let x := f a b
    let y := treeLevel f r
    (x.1 :: y.1, x.2 ||| y.2)
  | l => (l, 0)

/-- The tree of R245 by levels; 16 levels cover 4,096 terms. -/
def treeReduce (f : Nat → Nat → Nat × FlagSet) : Nat → List Nat → Nat × FlagSet
  | 0, l => (l.headD 0, 0)
  | k + 1, l =>
    if l.length ≤ 1 then (l.headD 0, 0)
    else
      let x := treeLevel f l
      let y := treeReduce f k x.1
      (y.1, x.2 ||| y.2)

/-- A floating reduction; a NaN that is the one term gives the canonical NaN (R230, R245). -/
def floatReduce (t : Fmt) (f : Nat → Nat → Nat × FlagSet) (l : List Nat) : Nat × FlagSet :=
  match l with
  | [a] => if (t.unpack a).isNan then (t.nan, snanNV [t.unpack a]) else (a, 0)
  | l => treeReduce f 16 l

/-- A reduction writes element 0 of vd; with no element it writes nothing (R264). -/
def reduceForm (c : Claim) (q : VCmd) (t : NTy) (vd vs1 : Reg) (ff : Fmt → Nat → Nat → Nat × FlagSet)
    (fi : Nat → Nat → Nat → Nat) : Claim × FlagSet :=
  let s := ntySize t
  let l := (List.range (q.vl / s)).map fun e => c.elem vs1.toNat e s
  match l with
  | [] => (c, 0)
  | a :: r =>
    let x := match ntyFloat t with
      | some ft => floatReduce (fmtOf ft) (ff (fmtOf ft)) l
      | none => (r.foldl (fi (8 * s)) a, 0)
    (c.setElem vd.toNat 0 s x.1, x.2)

/-- One lane of vdot (R265): the exact total of the accumulator and the products, saturated once. -/
def dotLane (c : Claim) (t : NTy) (vd vs1 vs2 : Reg) (e : Nat) : Nat × FlagSet :=
  let s := ntySize t
  let g := ntySigned t
  let terms := (List.range (4 / s)).map fun p =>
    intVal g (8 * s) (c.elem vs1.toNat (4 / s * e + p) s) * intVal g (8 * s) (c.elem vs2.toNat (4 / s * e + p) s)
  saturateTo g 32 (terms.foldl (· + ·) (intVal g 32 (c.elem vd.toNat e 4)))

/-- vopa (R266): for each j the register vd + j accumulates vs1[j] × vs2[e]. -/
def outerForm (c : Claim) (q : VCmd) (t : FTy) (vd vs1 vs2 : Reg) : Claim × FlagSet :=
  let s := ftySize t
  (List.range 8).foldl (fun (acc : Claim × FlagSet) j =>
    let a := c.elem vs1.toNat j s
    let r := mapElems acc.1 (vd + BitVec.ofNat 5 j) s (q.vl / s) fun e =>
      (fmtOf t).fma (rtzOf q.rm) false false a (c.elem vs2.toNat e s) (c.elem (vd.toNat + j) e s)
    (r.1, acc.2 ||| r.2)) (c, 0)

/-! ## What a command computes -/

/-- The registers after a command that accesses no memory, and the flags it raises. -/
def vcompute (c : Claim) (q : VCmd) : Claim × FlagSet :=
  let rtz := rtzOf q.rm
  match q.instr with
  | .vfadd t vd a b => floatForm c q t vd a b fun x y _ => (fmtOf t).add rtz x y
  | .vfsub t vd a b => floatForm c q t vd a b fun x y _ => (fmtOf t).sub rtz x y
  | .vfmul t vd a b => floatForm c q t vd a b fun x y _ => (fmtOf t).mul rtz x y
  | .vfma t vd a b => floatForm c q t vd a b fun x y z => (fmtOf t).fma rtz false false x y z
  | .vfms t vd a b => floatForm c q t vd a b fun x y z => (fmtOf t).fma rtz false true x y z
  | .vfnms t vd a b => floatForm c q t vd a b fun x y z => (fmtOf t).fma rtz true false x y z
  | .vfmin t vd a b => floatForm c q t vd a b fun x y _ => (fmtOf t).minMax false x y
  | .vfmax t vd a b => floatForm c q t vd a b fun x y _ => (fmtOf t).minMax true x y
  | .vfeq t vd a b => floatMask c q t vd a b (fmtOf t).eq
  | .vflt t vd a b => floatMask c q t vd a b (fmtOf t).lt
  | .vfle t vd a b => floatMask c q t vd a b (fmtOf t).le
  | .vfsel t vd a b =>
    let s := ftySize t
    mapElems c vd s (q.vl / s) fun e => (if c.bit 0 e then c.elem a.toNat e s else c.elem b.toNat e s, 0)
  | .vadd z _ vd a b => intForm c q z vd a b fun w x y => wrapTo w (x + y : Nat)
  | .vsub z _ vd a b => intForm c q z vd a b fun w x y => wrapTo w ((x : Int) - y)
  | .vmul z _ vd a b => intForm c q z vd a b fun w x y => wrapTo w (x * y : Nat)
  | .vadds z n vd a b => intForm c q z vd a b fun w x y => saturateTo (!n) w (intVal (!n) w x + intVal (!n) w y)
  | .vsubs z n vd a b => intForm c q z vd a b fun w x y => saturateTo (!n) w (intVal (!n) w x - intVal (!n) w y)
  | .vmin z n vd a b => intForm c q z vd a b fun w x y => (intPick false n w x y, 0)
  | .vmax z n vd a b => intForm c q z vd a b fun w x y => (intPick true n w x y, 0)
  | .vand z _ vd a b => intForm c q z vd a b fun _ x y => (x &&& y, 0)
  | .vor z _ vd a b => intForm c q z vd a b fun _ x y => (x ||| y, 0)
  | .vxor z _ vd a b => intForm c q z vd a b fun _ x y => (x ^^^ y, 0)
  | .vsll z _ vd a b => intForm c q z vd a b fun w x y => wrapTo w (x * 2 ^ (y % w) : Nat)
  | .vsr z n vd a b => intForm c q z vd a b fun w x y => shiftRight n w x y
  | .veq z _ vd a b =>
    let s := szSize z
    mapMask c vd (q.vl / s) fun e => (c.elem a.toNat e s == c.elem b.toNat e s, 0)
  | .vlt z n vd a b =>
    let s := szSize z
    mapMask c vd (q.vl / s) fun e =>
      (decide (intVal (!n) (8 * s) (c.elem a.toNat e s) < intVal (!n) (8 * s) (c.elem b.toNat e s)), 0)
  | .vcvt dst r src vd a =>
    let ss := ntySize src
    let ds := ntySize dst
    mapElems c vd ds (q.vl / max ss ds) fun e => convert dst src (r || rtz) (c.elem a.toNat e ss)
  | .vscale t vd a _ =>
    mapElems c vd (ftySize t) (q.vl / ftySize t) fun e => (fmtOf t).scale rtz (intVal true 32 (c.elem a.toNat e 4)) q.x2.toInt
  | .vscalea t vd a _ =>
    mapElems c vd (ftySize t) (q.vl / ftySize t) fun e =>
      (fmtOf t).scaleAdd rtz (c.elem vd.toNat e (ftySize t)) (intVal true 32 (c.elem a.toNat e 4)) q.x2.toInt
  | .vexp2 t vd a => unaryForm c q t vd a ((fmtOf t).exp2 rtz)
  | .vlog2 t vd a => unaryForm c q t vd a ((fmtOf t).log2 rtz)
  | .vrcp t vd a => unaryForm c q t vd a ((fmtOf t).rcp rtz)
  | .vrsqrt t vd a => unaryForm c q t vd a ((fmtOf t).rsqrt rtz)
  | .vredsum t vd a => reduceForm c q t vd a (fun f => f.add rtz) fun w x y => (x + y) % 2 ^ w
  | .vredmax t vd a => reduceForm c q t vd a (fun f => f.minMax true) fun w x y => intPick true (!ntySigned t) w x y
  | .vredmin t vd a => reduceForm c q t vd a (fun f => f.minMax false) fun w x y => intPick false (!ntySigned t) w x y
  | .vdot t vd a b => mapElems c vd 4 (q.vl / 4) fun e => dotLane c t vd a b e
  | .vopa t vd a b => outerForm c q t vd a b
  | .vbcast z _ vd _ =>
    let s := szSize z
    mapElems c vd s (q.vl / s) fun _ => (q.x1.toNat % 2 ^ (8 * s), 0)
  | .vperm z _ vd a b =>
    let s := szSize z
    mapElems c vd s (q.vl / s) fun e =>
      let i := c.elem b.toNat e s
      (if i < q.vl / s then c.elem a.toNat i s else 0, 0)
  | .vmv z _ vd a =>
    let s := szSize z
    mapElems c vd s (q.vl / s) fun e => (c.elem a.toNat e s, 0)
  | .vins z _ vd _ _ =>
    let s := szSize z
    let i := q.x2.toNat
    (if i < q.vl / s then c.setElem vd.toNat i s (q.x1.toNat % 2 ^ (8 * s)) else c, 0)
  | .mxPop vd _ => (c.putBytes vd.toNat 0 q.data, 0)
  | _ => (c, 0)

/-! ## Memory commands (R254, R255, R267) -/

/-- An action that answers none, keeping the marks of the wait, where it has to wait. -/
def attempt {α : Type} (a : Act α) : Act (Option α) := fun s =>
  match a s.settled with
  | .ok (v, s1) => .ok (some v, regain s s1)
  | .error (.hold k) => .ok (none, k s.settled)
  | .error e => .error e

/-- A memory command's destination or source register, element size and element addresses. -/
structure VMem where
  store : Bool
  reg : Nat
  size : Nat
  addrs : List Word
deriving DecidableEq, Repr

/-- The addresses of a memory command (Table 13.10): an own-alias base is rewritten at the push (R186). -/
def vmemOf (c : Claim) (q : VCmd) : Option VMem :=
  let base := rewriteOwn (coreOf q.tid) q.x1
  let mk := fun (store : Bool) (r : Reg) (z : Sz) (f : Nat → Word) =>
    some { store := store, reg := r.toNat, size := szSize z, addrs := (List.range (q.vl / szSize z)).map f : VMem }
  match q.instr with
  | .vld z vd _ => mk false vd z fun e => base + wordOfNat (e * szSize z)
  | .vlds z vd _ _ => mk false vd z fun e => base + wordOfNat e * q.x2
  | .vldx z vd _ b => mk false vd z fun e =>
      base + wordOfInt (signExtend (c.elem b.toNat e (szSize z)) (8 * szSize z) * (szSize z : Int))
  | .vst z vs _ => mk true vs z fun e => base + wordOfNat (e * szSize z)
  | .vsts z vs _ _ => mk true vs z fun e => base + wordOfNat e * q.x2
  | _ => none

/-- How far a memory command has come: all its elements, those before a wait, or a fault at an element. -/
inductive VProg (α : Type) where
  | all (v : α)
  | upTo (v : α)
  | fault (sub : BitVec 8) (va : Word)

/-- A failed element: consumption of poison is reported (R353). -/
def vectorFail {α : Type} (ag : Agent) (sub : BitVec 8) (va : Word) (f : Fail) : Act (VProg α) := do
  match f with
  | .bad (.data d) => upd (reportTrap ag.tid 7 d va)
  | _ => pure ()
  return .fault (if f = .bad .misaligned then 0x03 else sub) va

/-- The home address of an aligned element of a command that has passed its checks: for a store, with room for all of them (R255). -/
def elementHome (ag : Agent) (store : Bool) (size : Nat) (a : Word) (homes : List Nat) : Act (Except Fail Nat) := do
  if !store then
    if a.toNat % size ≠ 0 then return .error (.bad .misaligned)
    return ← engineReadCheck ag a size
  match ← engineWriteCheck ag a size with
  | .error f => return .error f
  | .ok h => return if ← look fun s => s.roomForAll ag.core (homes ++ [h]) then .ok h else .error .cmFull

/-- Checks elements in ascending order, before any is read or written, adding their home addresses to those found (R255). -/
def vectorCheck (ag : Agent) (store : Bool) (size : Nat) : List Word → List Nat → Act (VProg (List Nat))
  | [], homes => return .all homes
  | a :: r, homes => do
    match ← attempt (elementHome ag store size a homes) with
    | none => return .upTo homes
    | some (.error f) => vectorFail ag (if store then 0x05 else 0x04) a f
    | some (.ok h) => vectorCheck ag store size r (homes ++ [h])

/-- Reads elements in ascending order, adding their bytes to those read. -/
def vectorRead (ag : Agent) (size : Nat) : List (Word × Nat) → List Byte → Act (VProg (List Byte))
  | [], acc => return .all acc
  | x :: r, acc => do
    match ← attempt (engineLoad ag x.2 size) with
    | none => return .upTo acc
    | some (.error f) => vectorFail ag 0x04 x.1 f
    | some (.ok v) => vectorRead ag size r (acc ++ bytesOf size v)

/-- Stores elements in ascending order, noting their sectors in the thread's lane-pool signature (R184); k counts them. -/
def vectorWrite (ag : Agent) (size : Nat) : List ((Word × Nat) × Nat) → Nat → Act (VProg Nat)
  | [], k => return .all k
  | x :: r, k => do
    match ← attempt (engineStore ag x.1.2 size x.2) with
    | none => return .upTo k
    | some _ =>
      noteEngine ag.tid 0 x.1.2 x.1.1
      vectorWrite ag size r (k + 1)

/-! ## Execution (R253) -/

/-- True while the pool executes a claim's commands: its owner is not stopped, parked or saving, and no fault is held. -/
def State.poolRuns (s : State) (n : Nat) : Bool :=
  let c := s.claim n
  match c.owner with
  | none => false
  | some t =>
    let th := s.thr t
    (th.st == .running || th.st == .idle || th.st == .stopping) && !th.saving && c.fault.isNone

/-- The command at the head of the queue completes: its flags reach FRM (R241) and its owner is looked at again. -/
def vectorDone (n : Nat) (q : VCmd) (f : FlagSet) (c : Claim) (s : State) : State :=
  let s1 := s.modClaim n fun _ => { c with queue := c.queue.tail, moves := c.moves.map fun m => { m with ahead := m.ahead - 1 } }
  let s2 := (raiseFlags q.tid f s1).modThr q.tid fun th => { th with waiting := false }
  spend 4 1 (s.thr q.tid).deal s2

/-- The command at the head faults and is held with those behind it (R255). -/
def vectorHold (n : Nat) (sub : BitVec 8) (va : Word) (q : VCmd) (s : State) : State :=
  let s1 := s.modClaim n fun c => { c with queue := q :: c.queue.tail, fault := some (sub, va, q.pc) }
  (s1.modCore n fun k => { k with vsub := sub, vpc := q.pc &&& 0x00FFFFFFFFFFFFFC }).modThr q.tid fun th => { th with waiting := false }

/-- The head command keeps how far it has come. -/
def vectorKeep (n : Nat) (q : VCmd) (s : State) : State := s.modClaim n fun c => { c with queue := q :: c.queue.tail }

/-- True when the next move of a claim is due: the commands before it have completed (R250). -/
def Claim.moveDue (c : Claim) : Bool := c.moves.head?.any fun m => m.ahead == 0

/-- The pool completes the command at the head of a core's queue, as far as the buckets let its accesses go. -/
def execVectorCommandComplete (core : Nat) (s : State) :=
  runEvent (do
    if !(← look fun s => s.poolRuns core) then return ()
    let c ← look fun s => s.claim core
    match c.queue with
    | [] => return ()
    | q :: _ =>
      if c.moveDue then return ()
      match vmemOf c q with
      | none =>
        let r := vcompute c q
        upd (vectorDone core q r.2 r.1)
      | some m =>
        let ag ← look fun s => s.agent q.tid
        match ← vectorCheck ag m.store m.size (m.addrs.drop q.homes.length) q.homes with
        | .fault sub va => upd (vectorHold core sub va { q with homes := [] })
        | .upTo hs => upd (vectorKeep core { q with homes := hs })
        | .all hs =>
          let xs := m.addrs.zip hs
          if m.store then
            let ys := ((List.range xs.length).zip xs).map fun x => (x.2, c.elem m.reg x.1 m.size)
            match ← vectorWrite ag m.size (ys.drop q.prog) q.prog with
            | .fault sub va => upd (vectorHold core sub va q)
            | .upTo k => upd (vectorKeep core { q with homes := hs, prog := k })
            | .all _ => upd fun s => vectorDone core q 0 (s.claim core) s
          else
            match ← vectorRead ag m.size (xs.drop (q.data.length / m.size)) q.data with
            | .fault sub va => upd (vectorHold core sub va { q with homes := [], data := [] })
            | .upTo bs => upd (vectorKeep core { q with homes := hs, data := bs })
            | .all bs => upd fun s => vectorDone core q 0 ((s.claim core).putBytes m.reg 0 bs) s) s

/-- The move of a claim's groups once every earlier command has completed (R250). -/
def execLaneGroupMove (core : Nat) (s : State) :=
  runEvent (do
    let c ← look fun s => s.claim core
    match c.moves with
    | [] => return ()
    | m :: r =>
      if c.moveDue then
        upd fun s => s.modClaim core fun c => { c.place m.groups with moves := r }
        match c.owner with
        | some t => upd fun s => s.modThr t fun th => { th with waiting := false }
        | none => return ()) s

/-- A form that pushes a command with the x operands it reads. -/
def runPush (i : Instr) (x1 x2 : Option Reg) (s : State) : Host.Outcome State Fault Refusal := runComputePlain i (vpush i x1 x2) s

/-! ## Float forms (R259) -/

/-- vfadd (R259). -/
def execVfadd (t : FTy) (vd vs1 vs2 : Reg) (s : State) := runPush (.vfadd t vd vs1 vs2) none none s

/-- vfsub (R259). -/
def execVfsub (t : FTy) (vd vs1 vs2 : Reg) (s : State) := runPush (.vfsub t vd vs1 vs2) none none s

/-- vfmul (R259). -/
def execVfmul (t : FTy) (vd vs1 vs2 : Reg) (s : State) := runPush (.vfmul t vd vs1 vs2) none none s

/-- vfma (R259). -/
def execVfma (t : FTy) (vd vs1 vs2 : Reg) (s : State) := runPush (.vfma t vd vs1 vs2) none none s

/-- vfms (R259). -/
def execVfms (t : FTy) (vd vs1 vs2 : Reg) (s : State) := runPush (.vfms t vd vs1 vs2) none none s

/-- vfnms (R259). -/
def execVfnms (t : FTy) (vd vs1 vs2 : Reg) (s : State) := runPush (.vfnms t vd vs1 vs2) none none s

/-- vfmin (R259). -/
def execVfmin (t : FTy) (vd vs1 vs2 : Reg) (s : State) := runPush (.vfmin t vd vs1 vs2) none none s

/-- vfmax (R259). -/
def execVfmax (t : FTy) (vd vs1 vs2 : Reg) (s : State) := runPush (.vfmax t vd vs1 vs2) none none s

/-- vfeq (R259). -/
def execVfeq (t : FTy) (vd vs1 vs2 : Reg) (s : State) := runPush (.vfeq t vd vs1 vs2) none none s

/-- vflt (R259). -/
def execVflt (t : FTy) (vd vs1 vs2 : Reg) (s : State) := runPush (.vflt t vd vs1 vs2) none none s

/-- vfle (R259). -/
def execVfle (t : FTy) (vd vs1 vs2 : Reg) (s : State) := runPush (.vfle t vd vs1 vs2) none none s

/-- vfsel (R259). -/
def execVfsel (t : FTy) (vd vs1 vs2 : Reg) (s : State) := runPush (.vfsel t vd vs1 vs2) none none s

/-! ## Integer forms (R260) -/

/-- vadd (R260). -/
def execVadd (z : Sz) (n : Bool) (vd vs1 vs2 : Reg) (s : State) := runPush (.vadd z n vd vs1 vs2) none none s

/-- vsub (R260). -/
def execVsub (z : Sz) (n : Bool) (vd vs1 vs2 : Reg) (s : State) := runPush (.vsub z n vd vs1 vs2) none none s

/-- vmul (R260). -/
def execVmul (z : Sz) (n : Bool) (vd vs1 vs2 : Reg) (s : State) := runPush (.vmul z n vd vs1 vs2) none none s

/-- vadds (R260). -/
def execVadds (z : Sz) (n : Bool) (vd vs1 vs2 : Reg) (s : State) := runPush (.vadds z n vd vs1 vs2) none none s

/-- vsubs (R260). -/
def execVsubs (z : Sz) (n : Bool) (vd vs1 vs2 : Reg) (s : State) := runPush (.vsubs z n vd vs1 vs2) none none s

/-- vmin (R260). -/
def execVmin (z : Sz) (n : Bool) (vd vs1 vs2 : Reg) (s : State) := runPush (.vmin z n vd vs1 vs2) none none s

/-- vmax (R260). -/
def execVmax (z : Sz) (n : Bool) (vd vs1 vs2 : Reg) (s : State) := runPush (.vmax z n vd vs1 vs2) none none s

/-- vand (R260). -/
def execVand (z : Sz) (n : Bool) (vd vs1 vs2 : Reg) (s : State) := runPush (.vand z n vd vs1 vs2) none none s

/-- vor (R260). -/
def execVor (z : Sz) (n : Bool) (vd vs1 vs2 : Reg) (s : State) := runPush (.vor z n vd vs1 vs2) none none s

/-- vxor (R260). -/
def execVxor (z : Sz) (n : Bool) (vd vs1 vs2 : Reg) (s : State) := runPush (.vxor z n vd vs1 vs2) none none s

/-- vsll (R260). -/
def execVsll (z : Sz) (n : Bool) (vd vs1 vs2 : Reg) (s : State) := runPush (.vsll z n vd vs1 vs2) none none s

/-- vsr (R260). -/
def execVsr (z : Sz) (n : Bool) (vd vs1 vs2 : Reg) (s : State) := runPush (.vsr z n vd vs1 vs2) none none s

/-- veq (R260). -/
def execVeq (z : Sz) (n : Bool) (vd vs1 vs2 : Reg) (s : State) := runPush (.veq z n vd vs1 vs2) none none s

/-- vlt (R260). -/
def execVlt (z : Sz) (n : Bool) (vd vs1 vs2 : Reg) (s : State) := runPush (.vlt z n vd vs1 vs2) none none s

/-! ## Conversions and special functions (R262) -/

/-- vcvt (R262). -/
def execVcvt (dst : NTy) (rtz : Bool) (src : NTy) (vd vs1 : Reg) (s : State) := runPush (.vcvt dst rtz src vd vs1) none none s

/-- vexp2 (R262). -/
def execVexp2 (t : FTy) (vd vs1 : Reg) (s : State) := runPush (.vexp2 t vd vs1) none none s

/-- vlog2 (R262). -/
def execVlog2 (t : FTy) (vd vs1 : Reg) (s : State) := runPush (.vlog2 t vd vs1) none none s

/-- vrcp (R262). -/
def execVrcp (t : FTy) (vd vs1 : Reg) (s : State) := runPush (.vrcp t vd vs1) none none s

/-- vrsqrt (R262). -/
def execVrsqrt (t : FTy) (vd vs1 : Reg) (s : State) := runPush (.vrsqrt t vd vs1) none none s

/-- vscale (R262). -/
def execVscale (t : FTy) (vd vs1 rs2 : Reg) (s : State) := runPush (.vscale t vd vs1 rs2) none (some rs2) s

/-- vscalea (R262). -/
def execVscalea (t : FTy) (vd vs1 rs2 : Reg) (s : State) := runPush (.vscalea t vd vs1 rs2) none (some rs2) s

/-! ## Reductions and dot products (R264, R265) -/

/-- vredsum (R264, R265). -/
def execVredsum (t : NTy) (vd vs1 : Reg) (s : State) := runPush (.vredsum t vd vs1) none none s

/-- vredmax (R264, R265). -/
def execVredmax (t : NTy) (vd vs1 : Reg) (s : State) := runPush (.vredmax t vd vs1) none none s

/-- vredmin (R264, R265). -/
def execVredmin (t : NTy) (vd vs1 : Reg) (s : State) := runPush (.vredmin t vd vs1) none none s

/-- vdot (R264, R265). -/
def execVdot (t : NTy) (vd vs1 vs2 : Reg) (s : State) := runPush (.vdot t vd vs1 vs2) none none s

/-! ## Loads and stores (R267) -/

/-- vld (R267). -/
def execVld (z : Sz) (vd rs1 : Reg) (s : State) := runPush (.vld z vd rs1) (some rs1) none s

/-- vldx (R267). -/
def execVldx (z : Sz) (vd rs1 vs2 : Reg) (s : State) := runPush (.vldx z vd rs1 vs2) (some rs1) none s

/-- vst (R267). -/
def execVst (z : Sz) (vs3 rs1 : Reg) (s : State) := runPush (.vst z vs3 rs1) (some rs1) none s

/-- vlds (R267). -/
def execVlds (z : Sz) (vd rs1 rs2 : Reg) (s : State) := runPush (.vlds z vd rs1 rs2) (some rs1) (some rs2) s

/-- vsts (R267). -/
def execVsts (z : Sz) (vs3 rs1 rs2 : Reg) (s : State) := runPush (.vsts z vs3 rs1 rs2) (some rs1) (some rs2) s

/-! ## Permutes and moves (R268) -/

/-- vperm (R268). -/
def execVperm (z : Sz) (n : Bool) (vd vs1 vs2 : Reg) (s : State) := runPush (.vperm z n vd vs1 vs2) none none s

/-- vmv (R268). -/
def execVmv (z : Sz) (n : Bool) (vd vs1 : Reg) (s : State) := runPush (.vmv z n vd vs1) none none s

/-- vbcast (R268). -/
def execVbcast (z : Sz) (n : Bool) (vd rs1 : Reg) (s : State) := runPush (.vbcast z n vd rs1) (some rs1) none s

/-- vins (R268). -/
def execVins (z : Sz) (n : Bool) (vd rs1 rs2 : Reg) (s : State) := runPush (.vins z n vd rs1 rs2) (some rs1) (some rs2) s

/-- vopa (R266): its register group is checked at issue. -/
def execVopa (t : FTy) (vd vs1 vs2 : Reg) (s : State) :=
  runComputePlain (.vopa t vd vs1 vs2) (do
    vguard
    let inside := fun (r : Reg) => decide (vd.toNat ≤ r.toNat) && decide (r.toNat < vd.toNat + 8)
    trapIf (vd.toNat % 8 != 0 || inside vs1 || inside vs2) 11 0x02 (regVal vd)
    vpush (.vopa t vd vs1 vs2) none none) s

/-! ## Moves to scalar (R268) -/

/-- vmvx: it waits for the claim's earlier commands, then reads the element. -/
def execVmvx (z : Sz) (n : Bool) (rd vs1 rs2 : Reg) (s : State) :=
  runComputePlain (.vmvx z n rd vs1 rs2) (do
    vguard
    let i ← readX rs2
    vdrain
    let c ← look fun s => s.claim (coreOf s.cur)
    let w := szSize z
    let v := if i.toNat < c.vl / w then c.elem vs1.toNat i.toNat w else 0
    writeX rd (wordOfInt (intVal (!n) (8 * w) v))) s

/-- vmpop: the number of set mask bits. -/
def execVmpop (z : Sz) (n : Bool) (rd vs1 : Reg) (s : State) :=
  runComputePlain (.vmpop z n rd vs1) (do
    vguard
    vdrain
    let c ← look fun s => s.claim (coreOf s.cur)
    writeX rd (wordOfNat ((List.range (c.vl / szSize z)).filter fun e => c.bit vs1.toNat e).length)) s

/-- vmfirst: the lowest element whose mask bit is set, or −1. -/
def execVmfirst (z : Sz) (n : Bool) (rd vs1 : Reg) (s : State) :=
  runComputePlain (.vmfirst z n rd vs1) (do
    vguard
    vdrain
    let c ← look fun s => s.claim (coreOf s.cur)
    writeX rd (match (List.range (c.vl / szSize z)).find? fun e => c.bit vs1.toNat e with
      | some e => wordOfNat e
      | none => -1)) s

end Sys2Proof.Machine
end

