-- ==== Sys2Proof/Machine/Rows.lean ====
section
/-! DEFINITION. The row arrays (R273 to R292): the format context, loads of operands with their order against operations,
joins, passes and partial queues. -/

namespace Sys2Proof.Machine

/-! ## The array and its seat (R273, R274, R298) -/

/-- True when the seat holds the row array of octet o. -/
def State.holdsArray (s : State) (seat o : Nat) : Bool :=
  match partOfSeat seat with
  | some f => decide ((f - 1) * 8 ≤ o) && (s.seat seat).cfg.rowOctets.getD (o - (f - 1) * 8) false
  | none => false

/-- The octet that holds the run, not OFF, which drives octet o. -/
def State.runOctet (s : State) (o : Nat) : Option Nat :=
  if (s.octet o).run.st ≠ .off then some o
  else if o % 2 = 1 ∧ (s.octet (o - 1)).run.st ≠ .off ∧ (s.octet (o - 1)).run.pair then some (o - 1)
  else none

/-- True while a die runs the reduced service: to the tick boundary after full service has been declared (R379). -/
def State.reduced (s : State) (die : Nat) : Bool :=
  s.serves die && !(s.hub.fullService && decide (s.hub.fullTick < s.ticks))

/-- The core's share of its octet's array. -/
def State.mx (s : State) (n : Nat) : MxCore := (s.core n).mx
def State.modMx (s : State) (n : Nat) (f : MxCore → MxCore) : State := s.modCore n fun c => { c with mx := f c.mx }

/-- Threads of an octet whose units wait are looked at again. -/
def recheckOctet (o : Nat) (s : State) : State :=
  s.mapThr fun t th => if octetOf (coreOf t) = o ∧ !isDealer (coreOf t) then { th with waiting := false } else th

/-- The thread's seat must hold the octet's array (R274), and for some forms no run may drive it (R298). -/
def mxHeld (notDriven : Bool) : Act Unit := do
  let n ← myCore
  let seat ← mySeat
  let s ← look id
  trapIf (!s.holdsArray seat (octetOf n)) 12 0x03 (s.mx n).ctx
  trapIf (notDriven && (s.runOctet (octetOf n)).isSome) 12 0x08 (s.mx n).ctx

/-- The next place in an octet's order of arrival (R283). -/
def nextArrival (o : Nat) : Act Nat := do
  let k ← look fun s => (s.octet o).arrivals
  upd fun s => s.modOctet o fun y => { y with arrivals := k + 1 }
  return k

/-! ## The format context (R275, R285) -/

/-- Group size G of SP, and NCOL of SHAPE (Table 14.2). -/
def spG (sp : Nat) : Nat := if sp = 0 then 1 else if sp = 1 then 2 else 4
def shapeCols (sh : Nat) : Nat := if sh = 0 then 256 else if sh = 1 then 128 else 64

def ctxA (c : Word) : Nat := bitsOf c 1 0
def ctxB (c : Word) : Nat := bitsOf c 3 2
def ctxSp (c : Word) : Nat := bitsOf c 5 4
def ctxShape (c : Word) : Nat := bitsOf c 7 6
def ctxSeed (c : Word) : Nat := bitsOf c 31 16

/-- A reserved combination (R275); `reduced` is the service of the die. -/
def ctxReserved (reduced : Bool) (c : Word) : Bool :=
  ctxA c == 3 || ctxB c == 3 || ctxSp c == 3 || ctxShape c == 3 || bitsOf c 63 32 != 0 || bitsOf c 15 8 != 0
    || (ctxSp c != 0 && ctxSeed c == 0) || (reduced && (ctxA c == 2 || ctxB c == 2))

/-- mx.cfg (R285). -/
def execMxCfg (rs1 : Reg) (s : State) :=
  runComputePlain (.mxCfg rs1) (do
    let c ← readX rs1
    let n ← myCore
    let seat ← mySeat
    let st ← look id
    trapIf (!st.holdsArray seat (octetOf n)) 12 0x03 c
    mxHeld true
    trapIf (ctxReserved (st.reduced (dieOf n)) c) 12 0x01 c
    upd fun s => s.modMx n fun m => { m with ctx := c }) s

/-! ## Sparsity and partial sums (R278, R279) -/

/-- The states of the walk after each of k steps (R278). -/
def walkSeed : Nat → Nat → List Nat
  | 0, _ => []
  | k + 1, s =>
    let b := (s / 32768 + s / 8192 + s / 4096 + s / 1024) % 2
    let n := (2 * s + b) % 65536
    n :: walkSeed k n

/-- pos_g of the 128 groups. -/
def patternPos (seed g : Nat) : List Nat := (walkSeed 128 seed).map fun s => s % g

/-- The sum of products of two vectors. -/
def dotProduct : List Int → List Int → Int
  | a :: r, b :: q => a * b + dotProduct r q
  | _, _ => 0

/-- The elements of an A vector that meet the physical rows of a slice. -/
def selectA (e : RowEntry) (seed : Nat) : List Int :=
  ((List.range 128).zip (patternPos seed e.g)).map fun x => e.ints.getD (e.g * x.1 + x.2) 0

/-- The row of a pass in one slice (R279). A half that is empty holds zeros, of the columns that the context names. -/
def formRow (e : RowEntry) (h : Half) (ctx : Word) (row : Nat) (last : Bool) : PRow :=
  { sums := if h.loaded then h.cols.map (dotProduct (selectA e h.seed.toNat)) else List.replicate (shapeCols (ctxShape ctx)) 0
    ea := e.exp, row := row, last := last, loss := e.loss || h.loss != 0 }

/-- The active and the shadow half of a core's slice. -/
def MxCore.activeHalf (m : MxCore) : Half := if m.active then m.half1 else m.half0
def MxCore.shadow (m : MxCore) : Half := if m.active then m.half0 else m.half1
def MxCore.setShadow (m : MxCore) (h : Half) : MxCore := if m.active then { m with half0 := h } else { m with half1 := h }

/-- What a pass counts in a core (R244, R292): PASSES, ASIDE, and WINDOWS for each window that suffers loss. -/
def countPass (n : Nat) (aLoss : Bool) (bLoss : Nat) (s : State) : State :=
  (noteNow 0x201 n (putAt (b2n aLoss + bLoss) 16 + b2n aLoss) s).modCore n fun c => { c with
    mx := { c.mx with passes := (c.mx.passes + 1) % 2 ^ 24 }
    lossA := if aLoss then 1 else c.lossA
    lossWin := min (2 ^ 32 - 1) (c.lossWin + b2n aLoss + bLoss) }

/-- BSIDE, at the alignment of a tile (R244). -/
def noteTile (n : Nat) (h : Half) (s : State) : State :=
  if h.loss = 0 then s else (noteNow 0x201 n 2 s).modCore n fun c => { c with lossB := 1 }

/-! ## Operands (R276, R277, R286) -/

/-- The blocks of a list, eight to a column. -/
def columnsOf : Nat → List SxBlock → List (Nat × List Int × Bool)
  | 0, _ => []
  | k + 1, bs => alignWindow (bs.take 8) :: columnsOf k (bs.drop 8)

/-- A half from the blocks of its tile (R277, R279). -/
def tileHalf (fmt : BitVec 2) (ncol : Nat) (seed : BitVec 16) (blocks : List Nat) : Half :=
  let cs := columnsOf ncol (blocks.map (sxUnpack fmt.toNat))
  { loaded := true, fmt := fmt, ncol := ncol, seed := seed, exps := cs.map fun c => c.1
    cols := cs.map fun c => c.2.1, loss := (cs.filter fun c => c.2.2).length }

/-- A row-buffer entry from the blocks of an A vector (R276, R279). -/
def vectorEntry (fmt : BitVec 2) (g : Nat) (blocks : List Nat) : RowEntry :=
  let w := alignWindow (blocks.map (sxUnpack fmt.toNat))
  { loaded := true, fmt := fmt, g := g, ints := w.2.1, exp := w.1, loss := w.2.2 }

/-- Reads k blocks of format f from an address, adding to those read; a block exponent 0xFF is reserved (R236). -/
def readBlocks (ag : Agent) (f : Nat) : Nat → Word → List Nat → Act (VProg (List Nat))
  | 0, _, acc => return .all acc
  | k + 1, a, acc => do
    match ← attempt (engineReadSpan ag a (sxBytes f)) with
    | none => return .upTo acc
    | some (.error e) =>
      match e with
      | .bad (.data d) => upd (reportTrap ag.tid 7 d a)
      | _ => pure ()
      return .fault 0x05 a
    | some (.ok v) =>
      if v % 256 = 255 then return .fault 0x20 a
      readBlocks ag f k (a + wordOfNat (sxBytes f)) (acc ++ [v])

/-! ## Order of loads and operations (R283) -/

/-- True when e is one of k entries from `first`, modulo 64. -/
def entryIn (first k e : Nat) : Bool := (List.range k).any fun i => (first + i) % 64 == e

/-- Entries that a load has still to write, and that an operation has still to broadcast. -/
def MxLoad.needs (l : MxLoad) (e : Nat) : Bool := entryIn (l.first + l.done) (l.count - l.done) e
def MxOp.upto (p : MxOp) : Nat := p.cut.getD p.count
def MxOp.needs (p : MxOp) (e : Nat) : Bool := entryIn (p.first + p.pass) (p.upto - p.pass) e

/-- The entries a run's RUN is still to broadcast in octet o, with its arrival: first and count (R301). -/
def State.runNeeds (s : State) (o : Nat) : Option (Nat × Nat × Nat) :=
  match s.runOctet o with
  | none => none
  | some ro =>
    let r := (s.octet ro).run
    match r.header with
    | some h =>
      let n := (s.octet o).pipe.length
      if r.st = .running ∧ bitsOf h.w0 3 0 = 2 ∧ ro + bitsOf h.w0 16 16 = o then some (r.arr, bitsOf h.w0 53 48 + n, bitsOf h.w0 62 56 - n)
      else none
    | none => none

def State.entry (s : State) (o e : Nat) : RowEntry := (s.octet o).rows.get {} e
def State.setEntry (s : State) (o e : Nat) (x : RowEntry) : State := s.modOctet o fun y => { y with rows := y.rows.set e x }

/-- True while a load may not write entry e: an earlier load is to write it, or an operation or RUN that arrived earlier is
to broadcast it; an operation that waits for the entry to be loaded anew is not waited for. -/
def State.loadWaits (s : State) (o : Nat) (l : MxLoad) (e : Nat) : Bool :=
  let y := s.octet o
  (y.loads.any fun m => decide (m.arr < l.arr) && m.needs e)
    || ((s.entry o e).loaded && y.ops.any fun p => decide (p.arr < l.arr) && p.needs e && !p.holes.contains e)
    || match s.runNeeds o with
      | some (arr, first, count) => decide (arr < l.arr) && entryIn first count e
      | none => false

/-- True when entry e counts as loaded with a format and group size at a join: loaded so, or being written so, and not left empty by a load that
ended short. -/
def State.entryCounts (s : State) (o e fmt g : Nat) : Bool :=
  match ((s.octet o).loads.filter fun l => l.needs e).getLast? with
  | some l => l.fmt.toNat == fmt && l.g == g
  | none => (s.entry o e).loaded && (s.entry o e).fmt.toNat == fmt && (s.entry o e).g == g
      && !(s.octet o).ops.any fun p => p.holes.contains e

/-- True while a load that arrived before `arr` is still to write entry e. -/
def State.entryPending (s : State) (o e arr : Nat) : Bool :=
  (s.octet o).loads.any fun l => decide (l.arr < arr) && l.needs e

/-- Keeps a load's progress; a load without a record gets one. -/
def keepLoad (o : Nat) (l : MxLoad) (s : State) : State :=
  s.modOctet o fun y => { y with loads := if y.loads.any fun m => m.tid == l.tid then y.loads.map fun m => if m.tid = l.tid then l else m
    else y.loads ++ [l] }

/-- A load leaves entry e: one that it had begun to write is empty, and so is one that an operation which joined later counts on, which then
waits for it to be loaded anew, once the operations that joined before the load have read it (R283, R286); a RUN that waits for it finds it
empty, and faults (R301). -/
def leaveEntry (o : Nat) (l : MxLoad) (begun : Bool) (e : Nat) (s : State) : State :=
  let ops := (s.octet o).ops
  let counts := fun (p : MxOp) => decide (l.arr < p.arr) && p.needs e
  let before := ops.any fun p => decide (p.arr < l.arr) && p.needs e && !p.holes.contains e
  let runWaits := match s.runNeeds o with
    | some (arr, first, count) => decide (l.arr < arr) && entryIn first count e
    | none => false
  let s1 := s.modOctet o fun y => { y with ops := ops.map fun p => if counts p then { p with holes := p.holes ++ [e] } else p }
  if begun || ((ops.any counts || runWaits) && !before) then s1.setEntry o e {} else s1

/-- A load ends short of its entries (R286, R291); `begun` tells that it had begun to write the entry in hand. -/
def endLoadShort (o : Nat) (l : MxLoad) (begun : Bool) (s : State) : State :=
  let s1 := (List.range (l.count - l.done)).foldl (fun s i => leaveEntry o l (begun && i == 0) ((l.first + l.done + i) % 64) s) s
  s1.modOctet o fun y => { y with loads := y.loads.filter fun m => m.tid != l.tid }

/-- A load completes entry e, for which operations may have waited (R283). -/
def completeEntry (o e : Nat) (x : RowEntry) (s : State) : State :=
  (s.setEntry o e x).modOctet o fun y => { y with ops := y.ops.map fun p => { p with holes := p.holes.filter fun h => h != e } }

/-- The vectors of an mx.lda, as far as buckets and operations let them be written. -/
def ldaVectors (ag : Agent) (o : Nat) : Nat → MxLoad → Act Unit
  | 0, l => upd fun s => recheckOctet o (s.modOctet o fun y => { y with loads := y.loads.filter fun m => m.tid != l.tid })
  | k + 1, l => do
    let e := (l.first + l.done) % 64
    let size := sxBytes l.fmt.toNat
    if ← look fun s => s.loadWaits o l e then
      upd (keepLoad o l)
      holdAll
    match ← readBlocks ag l.fmt.toNat (8 * l.g - l.got.length) (l.addr + wordOfNat ((8 * l.g * l.done + l.got.length) * size)) l.got with
    | .fault sub va =>
      upd (endLoadShort o l true)
      trapAll 12 sub va
    | .upTo bs =>
      upd (keepLoad o { l with got := bs })
      holdAll
    | .all bs =>
      upd (completeEntry o e (vectorEntry l.fmt l.g bs))
      ldaVectors ag o k { l with done := l.done + 1, got := [] }

/-- The load that a thread's mx.lda has begun, or begins with its checks (R286): it arrives, with its format, as the word issues (R276, R283). -/
def beginLda (o : Nat) (a d : Word) : Act MxLoad := do
  let t ← cur
  let n ← myCore
  match ← look fun s => (s.octet o).loads.find? fun l => l.tid == t with
  | some l => return l
  | none =>
    mxHeld false
    let ctx ← look fun s => (s.mx n).ctx
    let count := bitsOf d 14 8
    trapIf (bitsOf d 63 15 != 0 || bitsOf d 7 6 != 0 || count == 0 || decide (64 < count)) 12 0x07 d
    trapIf (a.toNat % sxAlign (ctxA ctx) != 0) 12 0x04 a
    let arr ← nextArrival o
    let l : MxLoad := { tid := t, arr := arr, addr := rewriteOwn n a, first := bitsOf d 5 0, count := count,
                        fmt := BitVec.ofNat 2 (ctxA ctx), g := spG (ctxSp ctx) }
    upd (keepLoad o l)
    return l

/-- mx.lda (R286). -/
def execMxLda (rs1 rs2 : Reg) (s : State) :=
  runComputePlain (.mxLda rs1 rs2) (do
    let ag ← meAgent
    let o := octetOf (← myCore)
    let a ← readX rs1
    let d ← readX rs2
    let l ← beginLda o a d
    progress pushRelease
    ldaVectors ag o (l.count - l.done) l) s

/-- Keeps the progress of a core's mx.ldb. -/
def keepTile (n : Nat) (l : MxLoad) (s : State) : State :=
  s.modMx n fun m => { m with ldbs := if m.ldbs.any fun x => x.tid == l.tid then m.ldbs.map fun x => if x.tid = l.tid then l else x
    else m.ldbs ++ [l] }

/-- True while a tile may not be written: an earlier mx.ldb of the core is in progress, or an operation that arrived earlier
is still to swap the core's halves (R283). -/
def State.tileWaits (s : State) (n : Nat) (l : MxLoad) : Bool :=
  ((s.mx n).ldbs.any fun m => decide (m.arr < l.arr)) ||
    (s.octet (octetOf n)).ops.any fun p => decide (p.arr < l.arr) && !p.started && bitOf (p.reqs.getD (n % 8) {}).desc 6

/-- The tile of an mx.ldb, as far as buckets and operations let it be read. -/
def ldbTile (ag : Agent) (n : Nat) (l : MxLoad) : Act Unit := do
  if ← look fun s => s.tileWaits n l then
    upd (keepTile n l)
    holdAll
  let drop := fun (m : MxCore) => { m with ldbs := m.ldbs.filter fun x => x.tid != l.tid }
  match ← readBlocks ag l.fmt.toNat (8 * l.ncol - l.got.length) (l.addr + wordOfNat (l.got.length * sxBytes l.fmt.toNat)) l.got with
  | .fault sub va =>
    upd fun s => recheckOctet (octetOf n) (s.modMx n fun m => drop (m.setShadow {}))
    trapAll 12 sub va
  | .upTo bs =>
    upd (keepTile n { l with got := bs })
    holdAll
  | .all bs =>
    let h := tileHalf l.fmt l.ncol l.seed bs
    upd fun s => recheckOctet (octetOf n) (noteTile n h (s.modMx n fun m => drop (m.setShadow h)))

/-- The load that a thread's mx.ldb has begun, or begins with its checks (R286): it arrives, with its context, as the word issues (R283). -/
def beginLdb (n : Nat) (a : Word) : Act MxLoad := do
  let t ← cur
  match ← look fun s => (s.mx n).ldbs.find? fun l => l.tid == t with
  | some l => return l
  | none =>
    mxHeld true
    let ctx ← look fun s => (s.mx n).ctx
    trapIf (a.toNat % sxAlign (ctxB ctx) != 0) 12 0x04 a
    let arr ← nextArrival (octetOf n)
    let l : MxLoad := { tid := t, arr := arr, addr := rewriteOwn n a, fmt := BitVec.ofNat 2 (ctxB ctx),
                        ncol := shapeCols (ctxShape ctx), seed := BitVec.ofNat 16 (ctxSeed ctx) }
    upd (keepTile n l)
    return l

/-- mx.ldb (R286). -/
def execMxLdb (rs1 : Reg) (s : State) :=
  runComputePlain (.mxLdb rs1) (do
    let n ← myCore
    let ag ← meAgent
    let a ← readX rs1
    let l ← beginLdb n a
    progress pushRelease
    ldbTile ag n l) s

/-! ## Joins (R280, R287) -/

/-- mx.go (R287): it captures the context as it issues, joins, and is answered by the join. -/
def execMxGo (rs1 : Reg) (s : State) :=
  runComputePlain (.mxGo rs1) (do
    let t ← cur
    let n ← myCore
    let d ← readX rs1
    let drop := fun (s : State) => s.modMx n fun m => { m with go := m.go.filter fun g => g.tid != t }
    match ← look fun s => (s.mx n).go.find? fun g => g.tid == t with
    | some g =>
      match g.ans with
      | .waits =>
        progress pushRelease
        hold
      | .joined => upd drop
      | .traps sub v =>
        upd drop
        trapAll 12 sub v
    | none =>
      mxHeld true
      let count := bitsOf d 14 8
      trapIf (bitsOf d 63 15 != 0 || bitOf d 7 || count == 0 || decide (64 < count)) 12 0x07 d
      let ctx ← look fun s => (s.mx n).ctx
      upd fun s => s.modMx n fun m => { m with go := m.go ++ [{ tid := t, ctx := ctx, desc := d }] }
      progress pushRelease
      holdAll) s

/-- The first pending mx.go of each core of an octet, where every core has one. -/
def State.joining (s : State) (o : Nat) : Option (List GoReq) :=
  let rs := (List.range 8).filterMap fun i => (s.mx (8 * o + i)).go.find? fun g => g.ans == .waits
  if rs.length = 8 then some rs else none

/-- The subcause that the checks of a join find, none where they pass (R280). -/
def State.joinFault (s : State) (o : Nat) (rs : List GoReq) : Option (BitVec 8) :=
  let r0 := rs.headD {}
  let t0 := s.thr r0.tid
  let first := bitsOf r0.desc 5 0
  let count := bitsOf r0.desc 14 8
  let sameHand := rs.all fun r => (s.thr r.tid).deal == t0.deal && (s.thr r.tid).hand == t0.hand
  if !sameHand || !s.holdsArray (t0.seat.getD 0) o then some 0x03
  else
    let agree := rs.all fun r => ctxA r.ctx == ctxA r0.ctx && ctxSp r.ctx == ctxSp r0.ctx
      && bitsOf r.desc 5 0 == first && bitsOf r.desc 14 8 == count
    let entries := (List.range count).all fun i => s.entryCounts o ((first + i) % 64) (ctxA r0.ctx) (spG (ctxSp r0.ctx))
    let shadows := ((List.range 8).zip rs).all fun x => !bitOf x.2.desc 6 || (s.mx (8 * o + x.1)).shadow.loaded
    if agree && entries && shadows then none else some 0x02

/-- The join of an octet's eight cores (R280). -/
def execMxJoin (octet : Nat) (s : State) :=
  runEvent (do
    match ← look fun s => s.joining octet with
    | none => return ()
    | some rs =>
      let answer := fun (f : GoReq → JoinAns) (s : State) => rs.foldl (fun s r => s.modMx (coreOf r.tid) fun m =>
        { m with go := m.go.map fun g => if g.tid = r.tid then { g with ans := f g } else g }) s
      match ← look fun s => s.joinFault octet rs with
      | some sub => upd (answer fun g => .traps sub (if sub = 0x03 then g.ctx else g.desc))
      | none =>
        let arr ← nextArrival octet
        let r0 := rs.headD {}
        upd (answer fun _ => .joined)
        upd fun s => s.modOctet octet fun y => { y with
          ops := y.ops ++ [{ arr := arr, reqs := rs, deal := (s.thr r0.tid).deal.getD 0, hand := (s.thr r0.tid).hand.toNat,
                             first := bitsOf r0.desc 5 0, count := bitsOf r0.desc 14 8, joinAt := s.cycle }] }
      upd (recheckOctet octet)) s

/-! ## Operations (R281, R282) -/

/-- The cores of an octet whose slices exchange their halves at the start of an operation. -/
def MxOp.swaps (p : MxOp) (o : Nat) : List Nat :=
  ((List.range 8).zip p.reqs).filterMap fun x => if bitOf x.2.desc 6 then some (8 * o + x.1) else none

/-- True when the octet's next operation may start: no earlier than 4 cycles after its join, once the cores' earlier mx.ldb have resolved, and no
synchronised stop holds the array (R281, R283, R354). -/
def State.startDue (s : State) (o : Nat) : Bool :=
  match (s.octet o).ops with
  | [] => false
  | p :: _ => !p.started && !s.clusterHeld (o / 2) && decide (p.joinAt + 4 ≤ s.cycle)
      && !(p.swaps o).any fun n => (s.mx n).ldbs.any fun l => decide (l.arr < p.arr)

/-- The start of the next operation: each slice with S = 1 exchanges its halves (R281). -/
def execMxOpStart (octet : Nat) (s : State) :=
  runEvent (do
    if !(← look fun s => s.startDue octet) then return ()
    match ← look fun s => (s.octet octet).ops with
    | [] => return ()
    | p :: r =>
      upd fun s => (p.swaps octet).foldl (fun s n => s.modMx n fun m => { m with active := !m.active }) s
      upd fun s => recheckOctet octet (s.modOctet octet fun y => { y with ops := { p with started := true } :: r })) s

/-- True when the next pass of the operation in flight may start: its entry is loaded and every queue has room for its row and those on their
way (R282, R283), and no synchronised stop holds the array (R291, R354). -/
def State.opReady (s : State) (o : Nat) : Bool :=
  match (s.octet o).ops with
  | [] => false
  | p :: _ =>
    let e := (p.first + p.pass) % 64
    p.started && !s.clusterHeld (o / 2) && !s.entryPending o e p.arr && (s.entry o e).loaded && !p.holes.contains e &&
      (List.range 8).all fun i => decide ((s.mx (8 * o + i)).queue.length + (s.octet o).pipe.length < 8)

/-- The broadcast of a pass of the operation in flight has ended: its rows are formed (R279), its energy is charged to the deal of the joining
threads (R274, R376; log 34), and after the last pass the operation has ended. -/
def endOpPass (o : Nat) (p : MxOp) (r : List MxOp) (s : State) : State :=
  let e := s.entry o ((p.first + p.pass) % 64)
  let slices := (List.range 8).zip p.reqs
  let rows := slices.map fun x => formRow e (s.mx (8 * o + x.1)).activeHalf x.2.ctx p.pass (decide (p.pass + 1 = p.count))
  let ends := decide (p.upto ≤ p.pass + 1)
  let s1 := slices.foldl (fun s x => countPass (8 * o + x.1) e.loss (s.mx (8 * o + x.1)).activeHalf.loss s) s
  recheckOctet o ((spend 6 1 (if (s.deal p.deal).st = .retired then none else some p.deal) s1).modOctet o fun y => { y with
    ops := if ends then r else { p with pass := p.pass + 1 } :: r
    pipe := y.pipe ++ [{ ended := s.cycle, rows := rows, deal := p.deal, hand := p.hand, tids := p.reqs.map fun g => g.tid }]
    energyDeal := if ends then some p.deal else y.energyDeal })

/-- A pass's row enters every slice's partial queue, 6 cycles after the last broadcast of the pass (R281); those of a RUN are staged instead (R301). -/
def execMxRowQueued (octet : Nat) (s : State) :=
  runEvent (upd fun s =>
    match (s.octet octet).pipe with
    | [] => s
    | x :: r =>
      if (s.runOctet octet).isSome ∨ s.cycle < x.ended + 6 then s
      else
        let s1 := ((List.range 8).zip x.rows).foldl (fun s y => s.modMx (8 * octet + y.1) fun m => { m with queue := m.queue ++ [y.2] }) s
        recheckOctet octet (s1.modOctet octet fun y => { y with pipe := r })) s

/-! ## Pops (R288, R289) -/

/-- The 128 partials of a half of a row, as bytes; zero at or above NCOL. -/
def halfRow (p : PRow) (h : Nat) : List Byte :=
  (List.range 128).flatMap fun i => bytesOf 4 (intEnc 32 (p.sums.getD (128 * h + i) 0))

/-- mx.pop (R288). -/
def execMxPop (vd rd : Reg) (s : State) :=
  runComputePlain (.mxPop vd rd) (do
    mxHeld false
    let t ← cur
    let n ← myCore
    let st ← look id
    trapIf ((st.claim n).owner != some t) 12 0x06 (st.vgrant n)
    let m := st.mx n
    match m.queue with
    | [] =>
      if !(st.octet (octetOf n)).ops.isEmpty || !(st.octet (octetOf n)).pipe.isEmpty || (st.runOctet (octetOf n)).isSome then hold
      writeX rd (-1)
    | p :: r =>
      if 16 ≤ (st.claim n).queue.length then stall
      let h := b2n m.popHalf
      let th ← me
      let leaves := p.sums.length != 256 || m.popHalf
      pushRelease
      upd fun s => s.modClaim n fun c =>
        { c with queue := c.queue ++ [{ instr := .mxPop vd rd, tid := t, pc := th.pc, vl := c.vl, data := halfRow p h }] }
      upd fun s => recheckOctet (octetOf n) (s.modMx n fun m =>
        { m with queue := if leaves then r else p :: r, popHalf := !leaves })
      writeX rd (wordOfNat (p.ea + 256 * h + 512 * b2n p.last + 1024 * b2n p.loss + 65536 * (p.row % 65536)))) s

/-- mx.drop (R289). -/
def execMxDrop (s : State) :=
  runComputePlain .mxDrop (do
    mxHeld false
    let n ← myCore
    upd fun s => recheckOctet (octetOf n) (s.modMx n fun m => { m with queue := [], popHalf := false })) s

/-- What an mx.abort leaves of an octet's operations: the one whose pass is in progress, up to that pass (R289). -/
def Octet.aborted (y : Octet) : List MxOp :=
  match y.ops with
  | [] => []
  | p :: _ => if y.left = 0 then [] else [{ p with cut := some (p.pass + 1) }]

/-- What the abort of the operations that satisfy `mine` leaves of an octet's operations (R291): the others, and of the one whose pass is in
progress, where it is among them, that pass. -/
def Octet.abortedOf (y : Octet) (mine : MxOp → Bool) : List MxOp :=
  match y.ops with
  | [] => []
  | p :: r =>
    (if !mine p then [p] else if y.left = 0 then [] else [{ p with cut := some (p.pass + 1) }]) ++ r.filter fun q => !mine q

/-- mx.abort (R289): the operations end after the pass in progress; rows already queued, and of passes that have ended, stay. -/
def execMxAbort (s : State) :=
  runComputePlain .mxAbort (do
    mxHeld true
    let n ← myCore
    upd fun s => recheckOctet (octetOf n) (s.modOctet (octetOf n) fun y =>
      { y with ops := y.aborted, energyDeal := match y.ops.getLast? with | some p => some p.deal | none => y.energyDeal })) s

/-! ## Stops and the end of a hand (R291) -/

/-- A stop, kill or trap of thread t withdraws what it waits for: its joins not yet answered, and its loads, which leave the
entry in hand or the shadow empty (R286, R291, R306). -/
def withdrawRows (t : Nat) (s : State) : State :=
  let n := coreOf t
  let o := octetOf n
  let s1 := match (s.octet o).loads.find? fun l => l.tid == t with
    | some l => endLoadShort o l (!s.loadWaits o l ((l.first + l.done) % 64)) s
    | none => s
  let begun := match (s.mx n).ldbs.find? fun l => l.tid == t with
    | some l => !s.tileWaits n l
    | none => false
  s1.modMx n fun m =>
    let m1 := if begun then m.setShadow {} else m
    { m1 with
      ldbs := m.ldbs.filter fun l => l.tid != t
      go := m.go.filter fun g => g.tid != t
      enter := m.enter.filter fun g => g.tid != t }

/-- The end of a hand: its operations are aborted as by mx.abort, after the pass in progress, and the rows queued in its cores' slices are discarded
(R291; of rows still on their way, log 34). -/
def endHandRows (d h : Nat) (s : State) : State :=
  let rec_ := (s.deal d).hands.getD h {}
  let cores := (List.range rec_.ncores).map fun i => rec_.first + i
  let s1 := s.mapThr fun t th => if octetOf (coreOf t) ∈ cores.map octetOf then { th with waiting := false } else th
  let mine := fun (p : MxOp) => p.deal == d && p.hand == h
  let s2 := (cores.map octetOf).foldl (fun s o => s.modOctet o fun y =>
    { y with ops := y.abortedOf mine, energyDeal := if y.ops.any mine then some d else y.energyDeal }) s1
  cores.foldl (fun s n => s.modMx n fun m => { m with queue := [], popHalf := false }) s2

end Sys2Proof.Machine
end

