-- ==== Sys2Proof/Machine/Contain.lean ====
section
/-! DEFINITION. Fault records (R69, R207) and containment by the policies of a thread's domains (R199). -/

namespace Sys2Proof.Machine

/-- XCAUSE as a read gives it (Table 3.9). -/
def Thread.xcause (th : Thread) : Word :=
  wordOfNat (putAt (b2n th.nested) 16 + putAt th.causeSub.toNat 8 + th.cause.toNat)

/-- SEQ of a thread's deal, zero without one. -/
def State.seqOf (s : State) (t : Nat) : Nat :=
  match (s.thr t).deal with
  | some d => (s.deal d).seq.toNat
  | none => 0

/-- The last doubleword of a fault record (Table 3.3). -/
def State.faultIdent (s : State) (t : Nat) : Word :=
  wordOfNat (putAt (s.seqOf t) 32 + putAt (seatIndex ((s.thr t).seat.getD 0)) 16 + putAt (t % 4) 11 + coreField (coreOf t))

/-- Ordinary stores of doublewords for an agent at consecutive addresses, which perform as they can. -/
def storeWords (ag : Agent) (va : Word) (ws : List Word) (s : State) : State :=
  { s with posts := s.posts ++ ((List.range ws.length).zip ws).map fun x =>
      { core := ag.core, tid := ag.tid, seat := ag.seat, va := va + 8 * wordOfNat x.1, v := x.2 } }

/-- The store at index i among those on their way performs, after the earlier ones of its core; one that fails its checks is dropped. -/
def performPost (i : Nat) (s : State) : Host.Outcome State Fault Refusal :=
  runEvent (do
    match s.posts[i]? with
    | none => pure ()
    | some p =>
      if (s.posts.take i).any fun q => q.core == p.core then return ()
      if ((s.partOfCore p.core).map fun f => (s.part f).swept) == some true then return ()
      let _ ← engineWrite { core := p.core, tid := p.tid, seat := p.seat, deal := none } p.va 8 p.v.toNat
      upd fun s => { s with posts := s.posts.take i ++ s.posts.drop (i + 1) }) s

/-- Posts a fault record of four doublewords to a seat's fault mailbox; answers whether a mailbox was bound there. Where
none is bound the record is written as ordinary stores (R207). -/
def postFault (seat t : Nat) (payload : List Word) (s : State) : State × Bool :=
  let x := s.seat seat
  let ma := x.mbxMa.toNat * 16
  if !x.mbxValid then (s, false)
  else if (s.mailboxAt ma).isSome then (postArrival ma 3 (coreField (coreOf t)) payload s, true)
  else (storeWords { s.agent t with seat := seat } (wordOfNat ma) payload s, false)

/-- The policies of DOM_POL and MEMB in the order in which they are consulted: a thread's own under key 0, level k's under key k + 1. -/
def policiesOf (pol : BitVec 20) (memb : BitVec 9) : List (Nat × Nat) :=
  (0, pol.toNat / 2 ^ 18 % 4) :: ((List.range 9).filter fun k => memb.getLsbD k).map fun k => (k + 1, pol.toNat / 2 ^ (2 * k) % 4)
def Thread.policies (th : Thread) : List (Nat × Nat) := policiesOf th.domPol th.memb

/-- How a fault is absorbed (Table 9.2). -/
inductive Absorbed where
  | retry (key : Nat)
  | kill (key : Nat)
  | killDeal
deriving DecidableEq, Repr

/-- Consults the policies in order; `tried` says that a level has retried this fault before. -/
def absorb (tried : Nat → Bool) : List (Nat × Nat) → Absorbed
  | [] => .killDeal
  | (k, p) :: r =>
    if p = 0 || (p == 1 && tried k) then absorb tried r
    else if p = 1 then .retry k
    else if p = 2 then .kill k
    else match r with
      | [] => .killDeal
      | (k1, _) :: _ => .kill k1

/-- The threads that a kill at a key names, for thread t of a deal: the thread alone, or the members of its level's domain. -/
def State.killTargets (s : State) (deal : Option Nat) (t key : Nat) : List Nat :=
  if key = 0 then (if (s.thr t).deal = deal then [t] else [])
  else
    s.threads.toList.filterMap fun c =>
      if c.2.st ≠ .empty ∧ c.2.deal = deal ∧ c.2.memb.getLsbD (key - 1) ∧ domKey (key - 1) (coreOf c.1) = domKey (key - 1) (coreOf t)
      then some c.1 else none

/-- Asks for the kill of threads, which is carried out next. -/
def killAll (ts : List Nat) (s : State) : State := { s with pend := s.pend ++ ts.map Command.kill }

/-- Kills a deal: each of its threads (R199). -/
def killDeal (d : Nat) (s : State) : State :=
  let ts := s.threads.toList.filterMap fun c => if c.2.st ≠ .empty ∧ c.2.deal = some d then some c.1 else none
  killAll ts (s.modDeal d fun x => { x with dead := true })

/-- Containment of a trap of thread t (R199). -/
def contain (t : Nat) (cause : BitVec 8) (s : State) : State :=
  let th := s.thr t
  match absorb (fun k => th.retried.contains (k, cause)) th.policies with
  | .retry k =>
    let s1 := s.setThr t { th with retried := th.retried ++ [(k, cause)] }
    { s1 with pend := s1.pend ++ [.resume t] }
  | .kill k => killAll (s.killTargets th.deal t k) s
  | .killDeal =>
    match th.deal with
    | some d => killDeal d s
    | none => s

/-- True for the faults that invoke containment after their record has been posted: data errors, and head faults of
subcauses 0x10 to 0x13 (R199). -/
def alwaysContained (cause sub : BitVec 8) : Bool :=
  cause == 7 || (cause == 9 && decide (0x10 ≤ sub.toNat) && decide (sub.toNat ≤ 0x13))

/-- The fault record of thread t, posted once its save is done, and the containment that follows it (R69, R199, R207). A trap of wd.enter, cause 13,
posts none (R305). -/
def reportFault (t : Nat) (s : State) : State :=
  let th := s.thr t
  if th.cause = 13 then (if (s.seat (th.seat.getD 0)).mbxValid then s else contain t th.cause s)
  else
  let p := postFault (th.seat.getD 0) t [th.xcause, th.xval, th.xpc, s.faultIdent t] s
  if !p.2 || alwaysContained th.cause th.causeSub then contain t th.cause p.1 else p.1

end Sys2Proof.Machine
end

