-- ==== Sys2Proof/Machine/Weights.lean ====
section
/-! DEFINITION. Weight-driven mode (R293 to R307): runs, the parisons, their faults, and the wd forms. -/

namespace Sys2Proof.Machine

/-! ## The header (R293, R295) -/

def Header.op (h : Header) : Nat := bitsOf h.w0 3 0
def Header.cond (h : Header) : Nat := bitsOf h.w0 7 4
def Header.smask (h : Header) : Nat := bitsOf h.w0 15 8
def Header.oct (h : Header) : Nat := bitsOf h.w0 16 16
def Header.fmt (h : Header) : Nat := bitsOf h.w0 21 20
def Header.sp (h : Header) : Nat := bitsOf h.w0 23 22
def Header.shape (h : Header) : Nat := bitsOf h.w0 25 24
def Header.swap (h : Header) : Bool := bitOf h.w0 26
def Header.seed (h : Header) : Nat := bitsOf h.w0 47 32
def Header.imm (h : Header) : Nat := bitsOf h.w0 63 48
def Header.crc (h : Header) : Nat := bitsOf h.w3 63 32
def Header.plen (h : Header) : Nat := bitsOf h.w3 23 0
/-- FIRST and COUNT of a RUN; semaphore and n of SIGNAL and WAITSIG. -/
def Header.first (h : Header) : Nat := h.imm % 64
def Header.count (h : Header) : Nat := h.imm / 256 % 128
def Header.sem (h : Header) : Nat := h.imm % 64
def Header.n (h : Header) : Nat := h.imm / 256

/-- Opcodes of Table 15.2. -/
def opNop : Nat := 0
def opLoadb : Nat := 1
def opRun : Nat := 2
def opEmit : Nat := 3
def opBranch : Nat := 4
def opCall : Nat := 5
def opReturn : Nat := 6
def opSignal : Nat := 7
def opWaitsig : Nat := 8
def opEnd : Nat := 9

/-- The fields that an opcode uses (Table 15.2), as the bits of doubleword 0 beside OP. -/
def usedBits (op : Nat) : Nat :=
  let smask := 0xFF00
  let oct := 0x10000
  let imm := 0xFFFF000000000000
  if op = opLoadb then smask + oct + 0x00300000 + 0x00C00000 + 0x03000000 + 0x0000FFFF00000000
  else if op = opRun then smask + oct + 0x00300000 + 0x00C00000 + 0x04000000 + imm
  else if op = opEmit then smask + oct
  else if op = opBranch then 0xF0
  else if op = opSignal || op = opWaitsig then oct + imm
  else 0

/-- True when SUCC, or ALT, is used. -/
def usesSucc (op : Nat) : Bool := op != opReturn && op != opEnd
def usesAlt (op : Nat) : Bool := op == opBranch || op == opCall

/-- A link that is not a parison address (R293), or an unused one that is not zero. -/
def badLink (used : Bool) (w : Word) : Bool := if used then w.toNat % 32 != 0 || bitsOf w 63 56 != 0 else w != 0

/-- A reserved opcode, field, link or combination (R295): subcause 0x06. -/
def Header.reserved (h : Header) (reduced : Bool) : Bool :=
  let op := h.op
  decide (opEnd < op) || (h.w0.toNat ||| (usedBits op + 15)) != usedBits op + 15 || bitsOf h.w3 31 24 != 0
    || (op != opLoadb && h.plen != 0) || badLink (usesSucc op) h.succ || badLink (usesAlt op) h.alt
    || (op == opBranch && decide (4 < h.cond))
    || ((op == opLoadb || op == opRun) && (h.fmt == 3 || h.sp == 3 || (reduced && h.fmt == 2)))
    || (op == opLoadb && (h.shape == 3 || (h.sp != 0 && h.seed == 0)))
    || (op == opRun && (bitsOf h.w0 55 54 != 0 || bitOf h.w0 63 || h.count == 0 || decide (8 < h.count)))
    || ((op == opSignal || op == opWaitsig) && (bitsOf h.w0 55 54 != 0 || h.n == 0))

/-- The opcodes that name an octet, and those that need SMASK ≠ 0. -/
def usesOct (op : Nat) : Bool := op == opLoadb || op == opRun || op == opEmit || op == opSignal || op == opWaitsig
def usesMask (op : Nat) : Bool := op == opLoadb || op == opRun || op == opEmit

/-- The bytes of a doubleword. -/
def wordBytes (w : Word) : List Byte := bytesOf 8 w.toNat

/-- The check of a header that has been read: its subcause, none where it passes (R299, phase H). -/
def Header.check (h : Header) (pair reduced : Bool) : Option (BitVec 8) :=
  let bytes := wordBytes h.w0 ++ wordBytes h.succ ++ wordBytes h.alt ++ (wordBytes h.w3).take 4
  if crc32c bytes ≠ h.crc then some 0x05
  else if h.reserved reduced then some 0x06
  else if (usesOct h.op && h.oct == 1 && !pair) || (usesMask h.op && h.smask == 0) then some 0x0A
  else none

/-! ## Runs -/

def State.run (s : State) (o : Nat) : Run := (s.octet o).run
def State.modRun (s : State) (o : Nat) (f : Run → Run) : State := s.modOctet o fun y => { y with run := f y.run }

/-- The octets of a run held by octet o. -/
def Run.octets (r : Run) (o : Nat) : List Nat := if r.pair then [o, o + 1] else [o]

/-- The octet a header names, and the cores of its routed slices. -/
def Header.octet (h : Header) (o : Nat) : Nat := o + h.oct
def Header.cores (h : Header) (o : Nat) : List Nat :=
  ((List.range 8).filter fun c => h.smask.testBit c).map fun c => 8 * h.octet o + c

/-- The agent of a run's reads: the entering thread of its lowest-numbered core, for the run's seat (R300). -/
def Run.agent (r : Run) : Agent := { core := coreOf r.tid, tid := r.tid, seat := r.seat, deal := some r.deal }

/-- What a fault or an abandonment of the parison in progress leaves (Table 15.2): the routed shadows of a LOADB empty, a RUN without its passes, a
WAITSIG withdrawn from its semaphore's queue. -/
def abandonParison (o : Nat) (s : State) : State :=
  let r := s.run o
  match r.header with
  | none => s
  | some h =>
    let s1 :=
      if h.op = opLoadb then (h.cores o).foldl (fun s n => s.modMx n fun m => m.setShadow {}) s
      else if h.op = opRun then s.modOctet (h.octet o) fun y => { y with left := 0, pipe := [] }
      else if h.op = opWaitsig ∧ r.waiting then
        let x := s.sem (h.octet o) h.sem
        s.setSem (h.octet o) h.sem { x with queue := x.queue.filter fun q => q.tid != 100000 + o }
      else s
    s1.modRun o fun r => { r with header := none, got := [], waiting := false }

/-- Every octet of a run discards its staged rows. -/
def dropStaged (o : Nat) (s : State) : State :=
  ((s.run o).octets o).foldl (fun s x => (List.range 8).foldl (fun s c => s.modMx (8 * x + c) fun m => { m with staged := [] }) s) s

/-- The run ends with an ENDC (Table 15.4). -/
def endRun (o : Nat) (endc : BitVec 2) (s : State) : State :=
  let r := s.run o
  let s1 := (r.octets o).foldl (fun s x => s.modOctet x fun y => { y with endc := endc, energyDeal := some r.deal }) (dropStaged o s)
  let s2 := (r.octets o).foldl (fun s x => s.modRun x fun y => { y with
    st := .off, paddr := r.paddr, header := none, got := [], ret := none }) s1
  (r.octets o).foldl (fun s x => recheckOctet x s) s2

/-- The policies of the entering thread: its own while it is of the run's hand, else those with which it entered. -/
def State.runPolicies (s : State) (r : Run) : List (Nat × Nat) :=
  let th := s.thr r.tid
  if th.st ≠ .empty ∧ th.deal = some r.deal ∧ th.hand.toNat = r.hand then th.policies else policiesOf r.pol r.memb

/-- The containment of a parison fault, for the entering thread: a retry restarts the parison (R305). -/
def containRun (o : Nat) (s : State) : State :=
  let r := s.run o
  match absorb (fun k => r.retried.contains k) (s.runPolicies r) with
  | .retry k => s.modRun o fun r => { r with st := .running, retried := r.retried ++ [k] }
  | .kill k => killAll (s.killTargets (some r.deal) r.tid k) s
  | .killDeal => killDeal r.deal s

/-- A parison fault (R305): what Table 15.2 leaves, FAULTED, WD_FAULT in every octet, the fault record, and containment
where no mailbox takes it or the data were poisoned. `phase` is 0 for H, 1 for P, 2 for P while waiting. -/
def faultRun (o : Nat) (sub : BitVec 8) (phase : Nat) (s : State) : State :=
  let r := s.run o
  let f := wordOfNat (putAt sub.toNat 56 + putAt phase 3) ||| (r.paddr &&& 0x00FFFFFFFFFFFFE0)
  let s1 := (abandonParison o s).modRun o fun r => { r with st := .faulted }
  let s2 := (r.octets o).foldl (fun s x => recheckOctet x (s.modOctet x fun y => { y with wdFault := f })) s1
  let p := postFault r.seat r.tid [wordOfNat (13 + 256 * sub.toNat), r.paddr, r.paddr, r.ident] s2
  if !p.2 || sub == 0x0D then containRun o p.1 else p.1

/-- Runs the work of the current parison where it has the opcode: `f` answers the fault of phase P, or none. -/
def parison (o op : Nat) (f : Run → Header → Act (Option (BitVec 8 × Nat))) (s : State) : Host.Outcome State Fault Refusal :=
  runEvent (do
    let r ← look fun s => s.run o
    match r.header with
    | none => return ()
    | some h =>
      if r.st ≠ .running ∨ Header.op h ≠ op then return ()
      if ← look fun s => s.clusterHeld (o / 2) then return ()
      match ← f r h with
      | some (sub, phase) => upd (faultRun o sub phase)
      | none => return ()) s

/-- The run goes on at a parison address: the end of a commit. -/
def goTo (o : Nat) (a : Word) : Act (Option (BitVec 8 × Nat)) := do
  upd fun s => s.modRun o fun r => r.next a
  return none

/-! ## Reads (R300) -/

/-- A read of a parison's bytes: GDDR or cluster memory with the D right; answers the subcause of a failure. -/
def parisonRead (ag : Agent) (va : Word) : Act (Except (BitVec 8) Word) := do
  let res ← match placeOf ag.core va.toNat with
    | .page => do
      match ← translate ag va.toNat needD with
      | .error b => pure (Except.error (Fail.bad b))
      | .ok x =>
        if Config.hostBit ≤ x.pa then pure (Except.error (Fail.bad (.addr 0x04)))
        else
          match ← readHome ag x.pa 8 with
          | .error b => pure (Except.error (Fail.bad b))
          | .ok v => pure (Except.ok v)
    | .cm _ _ => engineReadAt ag va 8 needD
    | _ => pure (Except.error (Fail.bad (.addr 0x04)))
  match res with
  | .ok v => return .ok (wordOfNat v)
  | .error (.bad (.data d)) =>
    upd (reportTrap ag.tid 7 d va)
    return .error 0x0D
  | .error _ => return .error 0x04

/-- Reads k doublewords, adding to those read, as far as the buckets let it. -/
def parisonWords (ag : Agent) : Nat → Word → List Word → Act (VProg (List Word))
  | 0, _, acc => return .all acc
  | k + 1, a, acc => do
    match ← attempt (parisonRead ag a) with
    | none => return .upTo acc
    | some (.error sub) => return .fault sub a
    | some (.ok w) => parisonWords ag k (a + 8) (acc ++ [w])

/-- Phase H (R299): the header at PADDR is read and checked. A RUN arrives as its phase P begins (R301). -/
def execParisonHeader (octet : Nat) (s : State) :=
  runEvent (do
    let r ← look fun s => s.run octet
    if r.st ≠ .running ∨ r.header.isSome then return ()
    if ← look fun s => s.clusterHeld (octet / 2) then return ()
    match ← parisonWords r.agent 4 r.paddr [] with
    | .upTo _ => return ()
    | .fault sub _ => upd (faultRun octet sub 0)
    | .all ws =>
      let h : Header := { w0 := ws.getD 0 0, succ := ws.getD 1 0, alt := ws.getD 2 0, w3 := ws.getD 3 0 }
      match Header.check h r.pair (← look fun s => s.reduced (dieOf (8 * octet))) with
      | some sub => upd (faultRun octet sub 0)
      | none =>
        let arr ← if h.op = opRun then nextArrival (h.octet octet) else pure 0
        upd fun s => s.modRun octet fun r => { r with header := some h, got := [], arr := arr }) s

/-! ## The parisons (Table 15.2) -/

/-- NOP. -/
def execParNop (octet : Nat) (s : State) := parison octet opNop (fun _ h => goTo octet h.succ) s

/-- The tile of a LOADB's payload (R294): the half, or the subcause. -/
def payloadHalf (h : Header) (bytes : List Byte) : Except (BitVec 8) Half :=
  let ncol := shapeCols h.shape
  let size := sxBytes h.fmt
  let t := ncol * 8 * size
  match decodeChunks (ceilDiv t 512) bytes with
  | none => .error 0x07
  | some bs =>
    let blocks := (List.range (8 * ncol)).map fun i => bytesVal (sliceL bs (i * size) size)
    if blocks.any fun b => b % 256 == 255 then .error 0x20
    else .ok (tileHalf (BitVec.ofNat 2 h.fmt) ncol (BitVec.ofNat 16 h.seed) blocks)

/-- LOADB: the payload is read and decoded; at commit the shadows of the routed slices are loaded. -/
def execParLoadb (octet : Nat) (s : State) :=
  parison octet opLoadb (fun r h => do
    if h.plen % 8 ≠ 0 then return some (0x07, 1)
    match ← parisonWords r.agent (h.plen / 8 - r.got.length) (r.paddr + 32 + wordOfNat (8 * r.got.length)) r.got with
    | .fault sub _ => return some (sub, 1)
    | .upTo ws =>
      upd fun s => s.modRun octet fun r => { r with got := ws }
      return none
    | .all ws =>
      match payloadHalf h (ws.flatMap wordBytes) with
      | .error sub => return some (sub, 1)
      | .ok x =>
        upd fun s => (h.cores octet).foldl (fun s n => noteTile n x (s.modMx n fun m => m.setShadow x)) (spend 7 1 (some r.deal) s)
        goTo octet h.succ) s

/-- How the next pass of a RUN stands: its entry, a wait, or a fault (R301). -/
inductive RunPass where
  | rows (e : RowEntry)
  | waits
  | fault
deriving DecidableEq, Repr

def State.runPass (s : State) (octet : Nat) (r : Run) (h : Header) (i : Nat) : RunPass :=
  let o := h.octet octet
  let e := (h.first + i) % 64
  let x := s.entry o e
  if s.entryPending o e r.arr then .waits
  else if !x.loaded || x.fmt.toNat != h.fmt || x.g != spG h.sp then .fault
  else if (h.cores octet).all fun n => (if h.swap then (s.mx n).shadow else (s.mx n).activeHalf).loaded then .rows x
  else .fault

/-- True when the staged rows of some routed slice leave no room for those of a RUN (R301). -/
def State.runFull (s : State) (octet : Nat) (h : Header) : Bool := (h.cores octet).any fun n => decide (8 - h.count < (s.mx n).staged.length)

/-- The octet and header of the RUN that octet o carries out, where no synchronised stop holds it. -/
def State.runOf (s : State) (o : Nat) : Option (Nat × Header) :=
  match s.runOctet o with
  | none => none
  | some ro =>
    match (s.run ro).header with
    | some h => if (s.run ro).st == .running && h.op == opRun && h.octet ro == o && !s.clusterHeld (ro / 2) then some (ro, h) else none
    | none => none

/-- True when the next pass of a RUN may start in octet o (R301). -/
def State.runReady (s : State) (o : Nat) : Bool :=
  match s.runOf o with
  | some (ro, h) => decide ((s.octet o).pipe.length < h.count) && !s.runFull ro h &&
      match s.runPass ro (s.run ro) h (s.octet o).pipe.length with | .rows _ => true | _ => false
  | none => false

/-- The broadcast of a pass of a RUN has ended: the rows of the routed slices are formed (R279), and its energy is charged to the run's deal (R298). -/
def endRunPass (o ro : Nat) (h : Header) (s : State) : State :=
  let e := s.entry o ((h.first + (s.octet o).pipe.length) % 64)
  let half := fun (s : State) (n : Nat) => if h.swap then (s.mx n).shadow else (s.mx n).activeHalf
  let rows := (List.range 8).map fun c => if h.smask.testBit c then formRow e (half s (8 * o + c)) 0 0 false else {}
  let s1 := (h.cores ro).foldl (fun s n => countPass n e.loss (half s n).loss s) s
  let r := s.run ro
  ((spend 6 1 (some r.deal) s1).modOctet o fun y => { y with
    pipe := y.pipe ++ [{ ended := s.cycle, rows := rows, deal := r.deal, hand := r.hand, tids := [r.tid] }] }).modRun ro fun r => { r with waiting := false }

/-- RUN (R301): each pass faults where it does not find its operands, in phase 2 where it has waited for them (R307); the cycle after the last
row has been staged, and once no earlier mx.ldb of a routed core is in progress where S = 1 (R283), it commits and the halves exchange. -/
def execParRun (octet : Nat) (s : State) :=
  parison octet opRun (fun r h => do
    let y ← look fun s => s.octet (h.octet octet)
    if ← look fun s => s.runFull octet h then return some (0x08, 1)
    if y.pipe.length < h.count then
      match ← look fun s => s.runPass octet r h y.pipe.length with
      | .fault => return if y.left = 0 then some (0x08, if r.waiting then 2 else 1) else none
      | .waits =>
        if y.left = 0 then upd fun s => s.modRun octet fun r => { r with waiting := true }
        return none
      | .rows _ => return none
    if ← look fun s => decide (s.cycle < (y.pipe.getLastD {}).ended + 7) then return none
    if h.swap && (← look fun s => (h.cores octet).any fun n => (s.mx n).ldbs.any fun l => decide (l.arr < r.arr)) then return none
    for n in h.cores octet do
      upd fun s => s.modMx n fun m => { m with
        staged := m.staged ++ y.pipe.map fun x => x.rows.getD (n % 8) {}
        active := m.active ^^ h.swap }
    upd fun s => recheckOctet (h.octet octet) (s.modOctet (h.octet octet) fun y => { y with pipe := [] })
    goTo octet h.succ) s

/-- EMIT (R302): the committed staged rows enter the queues once every routed queue has room. -/
def execParEmit (octet : Nat) (s : State) :=
  parison octet opEmit (fun _ h => do
    let cs := h.cores octet
    if ← look fun s => cs.any fun n => decide (8 < (s.mx n).queue.length + (s.mx n).staged.length) then return none
    upd fun s => cs.foldl (fun s n => s.modMx n fun m =>
      let k := m.staged.length
      let rows := ((List.range k).zip m.staged).map fun x => { x.2 with row := x.1, last := decide (x.1 + 1 = k) }
      { m with queue := m.queue ++ rows, staged := [] }) s
    upd (recheckOctet (h.octet octet))
    goTo octet h.succ) s

/-- BRANCH (R296), on the WD_CNT of the run's octet 0. -/
def execParBranch (octet : Nat) (s : State) :=
  parison octet opBranch (fun _ h => do
    let y ← look fun s => s.octet octet
    let holds := h.cond == 0 || (h.cond == 1 && y.cnt != 0) || (h.cond == 2 && y.cnt == 0) || (h.cond == 3 && y.cflag)
      || (h.cond == 4 && !y.cflag)
    if h.cond = 1 ∧ holds then upd fun s => s.modOctet octet fun y => { y with cnt := y.cnt - 1 }
    goTo octet (if holds then h.alt else h.succ)) s

/-- CALL: it faults while RET is held (R303). -/
def execParCall (octet : Nat) (s : State) :=
  parison octet opCall (fun r h => do
    if r.ret.isSome then return some (0x09, 1)
    upd fun s => s.modRun octet fun r => { r with ret := some h.succ }
    goTo octet h.alt) s

/-- RETURN: it faults while RET is empty (R303). -/
def execParReturn (octet : Nat) (s : State) :=
  parison octet opReturn (fun r _ => do
    match r.ret with
    | none => return some (0x09, 1)
    | some a =>
      upd fun s => s.modRun octet fun r => { r with ret := none }
      goTo octet a) s

/-- SIGNAL (R303): a post to a semaphore of the seat's window. -/
def execParSignal (octet : Nat) (s : State) :=
  parison octet opSignal (fun r h => do
    let o := h.octet octet
    upd (serveQueue o h.sem)
    let x ← look fun s => s.sem o h.sem
    if !(← look fun s => spanHas (s.semWindow r.seat o) h.sem) || decide (65535 < x.val + h.n) then return some (0x0B, 1)
    upd fun s => s.setSem o h.sem { x with val := x.val + h.n }
    goTo octet h.succ) s

/-- WAITSIG (R303): a request in the semaphore's queue; it commits when it is served. Its phase P is that wait, so its fault is of phase 2. -/
def execParWaitsig (octet : Nat) (s : State) :=
  parison octet opWaitsig (fun r h => do
    let o := h.octet octet
    if r.waiting then return none
    if !(← look fun s => spanHas (s.semWindow r.seat o) h.sem) then return some (0x0B, 2)
    upd (serveQueue o h.sem)
    let x ← look fun s => s.sem o h.sem
    if x.queue.isEmpty ∧ h.n ≤ x.val then
      upd fun s => s.setSem o h.sem (x.take h.n)
      goTo octet h.succ
    else
      upd fun s => s.setSem o h.sem { x with queue := x.queue ++ [{ tid := 100000 + octet, n := h.n }] }
      upd fun s => s.modRun octet fun r => { r with waiting := true }
      return none) s

/-- END: the run ends with code 1. -/
def execParEnd (octet : Nat) (s : State) :=
  parison octet opEnd (fun _ _ => do
    upd (endRun octet 1)
    return none) s

/-! ## The wd forms (R306) -/

/-- True while a run, an operation or an mx.go is pending in an octet. -/
def State.arrayBusy (s : State) (o : Nat) : Bool :=
  (s.runOctet o).isSome || !(s.octet o).ops.isEmpty || !(s.octet o).pipe.isEmpty || (List.range 8).any fun i => (s.mx (8 * o + i)).go.any fun g => g.ans == .waits

/-- The octets that a wd.enter on octet o covers. -/
def coveredOctets (o : Nat) (pair : Bool) : List Nat := if pair then [o / 2 * 2, o / 2 * 2 + 1] else [o]

/-- The release of an engine push that waits for the thread's stores in flight (R185). -/
def engineRelease : Act Unit := do
  let ag ← meAgent
  let c ← look fun s => s.core ag.core
  if (c.rstores.any fun r => r.tid == ag.tid && !r.performed) then hold
  pushRelease

/-- wd.enter (R306). -/
def execWdEnter (rd rs1 rs2 : Reg) (s : State) :=
  runComputePlain (.wdEnter rd rs1 rs2) (do
    let a ← readX rs1
    let d ← readX rs2
    let t ← cur
    let n ← myCore
    let seat ← mySeat
    let drop := fun (s : State) => s.modMx n fun m => { m with enter := m.enter.filter fun g => g.tid != t }
    match ← look fun s => (s.mx n).enter.find? fun g => g.tid == t with
    | some g =>
      match g.ans with
      | .waits => hold
      | .joined =>
        upd drop
        writeX rd 0
      | .traps sub v =>
        upd drop
        trapAll 13 sub v
    | none =>
      trapIf (bitsOf d 63 1 != 0) 13 0x01 d
      trapIf (a.toNat % 32 != 0 || bitsOf a 63 56 != 0) 13 0x03 a
      let os := coveredOctets (octetOf n) (bitOf d 0)
      trapIf (← look fun s => os.any fun o => !s.holdsArray seat o || s.arrayBusy o) 13 0x02 a
      engineRelease
      upd fun s => s.modMx n fun m => { m with enter := m.enter ++ [{ tid := t, a := a, d := d }] }
      holdAll) s

/-- The first pending wd.enter of each core of an octet, where every core has one. -/
def State.entering (s : State) (o : Nat) : Option (List EnterReq) :=
  let rs := (List.range 8).filterMap fun i => (s.mx (8 * o + i)).enter.find? fun g => g.ans == .waits
  if rs.length = 8 then some rs else none

/-- The join of wd.enter (R306): of an octet, or of both octets of its cluster where the word asks for the pair. -/
def execWdJoin (octet : Nat) (s : State) :=
  runEvent (do
    match ← look fun s => s.entering octet with
    | none => return ()
    | some own =>
      let pair := own.any fun r => bitOf r.d 0
      let sib ← look fun s => s.entering (octet / 2 * 2 + (1 - octet % 2))
      if pair ∧ sib.isNone then return ()
      let rs := if pair then (if octet % 2 = 0 then own ++ sib.getD [] else sib.getD [] ++ own) else own
      let r0 := rs.headD {}
      let os := coveredOctets octet pair
      let st ← look id
      let t0 := st.thr r0.tid
      let same := rs.all fun r => r.a == r0.a && r.d == r0.d && (st.thr r.tid).deal == t0.deal && (st.thr r.tid).hand == t0.hand
      let ans : JoinAns := if !same then .traps 0x01 r0.a else if os.any fun o => st.arrayBusy o then .traps 0x02 r0.a else .joined
      upd fun s => rs.foldl (fun s r => s.modMx (coreOf r.tid) fun m =>
        { m with enter := m.enter.map fun g => if g.tid = r.tid then { g with ans := match ans with
          | .traps sub _ => .traps sub r.a
          | x => x } else g }) s
      if ans = .joined then
        let o0 := os.headD octet
        upd fun s => os.foldl (fun s o => (List.range 8).foldl (fun s c => s.modMx (8 * o + c) fun m => { m with staged := [] })
          (s.modOctet o fun y => { y with wdFault := 0 })) s
        upd fun s => s.modOctet o0 fun y => { y with run := {
          st := .running, paddr := r0.a, pair := pair, seat := t0.seat.getD 0, deal := t0.deal.getD 0, hand := t0.hand.toNat,
          tid := r0.tid, ident := st.faultIdent r0.tid, pol := t0.domPol, memb := t0.memb } }
      upd fun s => os.foldl (fun s o => recheckOctet o s) s) s

/-- wd.exit (R306). -/
def execWdExit (s : State) :=
  runComputePlain .wdExit (do
    let n ← myCore
    match ← look fun s => s.runOctet (octetOf n) with
    | none => return ()
    | some o => upd fun s => endRun o 2 (abandonParison o s)) s

/-- wd.resume (R306). -/
def execWdResume (rd rs1 : Reg) (s : State) :=
  runComputePlain (.wdResume rd rs1) (do
    let c ← readX rs1
    let seat ← mySeat
    let st ← look id
    let inside := decide (c.toNat < Config.cores) && (match partOfSeat seat with | some f => st.covers f c.toNat | none => false)
    if !inside || !st.holdsArray seat (octetOf c.toNat) then writeX rd (-1)
    else
      match st.runOctet (octetOf c.toNat) with
      | none => writeX rd (-2)
      | some o =>
        if (st.run o).st = .faulted then
          upd fun s => s.modRun o fun r => { r with st := .running, header := none, got := [] }
          writeX rd 0
        else writeX rd (-2)) s

/-- wd.wait (R306). -/
def execWdWait (rd : Reg) (s : State) :=
  runComputePlain (.wdWait rd) (do
    let n ← myCore
    match ← look fun s => s.runOctet (octetOf n) with
    | none => writeX rd ((← look fun s => (s.octet (octetOf n)).endc).zeroExtend 64)
    | some o =>
      if (← look fun s => (s.run o).st) = .faulted then writeX rd 4 else hold) s

/-! ## Synchronised stops and the end of a hand (Table 15.4) -/

/-- A synchronised stop halts a running run; its parison is abandoned. -/
def haltRun (o : Nat) (s : State) : State :=
  if (s.run o).st = .running then (abandonParison o s).modRun o fun r => { r with st := .halted } else s

/-- The partition's restore starts a halted run again at PADDR. -/
def restartRun (o : Nat) (s : State) : State :=
  if (s.run o).st = .halted then s.modRun o fun r => { r with st := .running, header := none, got := [] } else s

/-- The end of a hand ends its runs with code 3. -/
def endHandRuns (d h : Nat) (s : State) : State :=
  (s.octets.toList.filter fun x => x.2.run.st != .off && x.2.run.deal == d && x.2.run.hand == h).foldl
    (fun s x => endRun x.1 3 (abandonParison x.1 s)) s

end Sys2Proof.Machine
end

