-- ==== Sys2Proof/Machine/Transform.lean ====
section
/-! DEFINITION. The transform coprocessor (R309 to R318): the tx forms, the six operations, and the completion of a
request. -/

namespace Sys2Proof.Machine

/-! ## The descriptor (Tables 16.1 and 16.2) -/

def txOp (ctl : Word) : Nat := bitsOf ctl 63 60
def txRm (ctl : Word) : Nat := bitsOf ctl 59 58
def txFmt (ctl : Word) : Nat := bitsOf ctl 57 56
def txMode (ctl : Word) : Nat := bitsOf ctl 55 54
def txAcc (ctl : Word) : Bool := bitOf ctl 53
def txFix (ctl : Word) : Nat := bitsOf ctl 47 40
def txN (ctl : Word) : Nat := bitsOf ctl 31 0

/-- The bits of the control doubleword that an operation uses beside OP and N. -/
def txUsed (op mode : Nat) : Nat :=
  if op = 0 then 0x0FC0000000000000 + (if mode = 1 then 0x0000FF0000000000 else 0)
  else if op = 1 then 0x0300000000000000
  else if op = 5 then 0x0020000000000000
  else 0

/-- Bytes of the source and destination ranges, as the overlap check takes them (R310). -/
def txSrcBytes (ctl : Word) : Nat :=
  match txOp ctl with
  | 1 => txN ctl / 16 * sxBytes (txFmt ctl)
  | 3 => 512 * txN ctl
  | 4 => 528 * txN ctl
  | _ => 4 * txN ctl
def txDstBytes (ctl k : Word) : Nat :=
  match txOp ctl with
  | 0 => txN ctl / 16 * sxBytes (txFmt ctl)
  | 1 => 4 * txN ctl
  | 2 => 8 * bitsOf k 8 0
  | 3 => 528 * txN ctl
  | 4 => 512 * txN ctl
  | _ => 1024

/-- Alignments of SRC and DST. -/
def txSrcAlign (ctl : Word) : Nat :=
  match txOp ctl with
  | 1 => sxAlign (txFmt ctl)
  | 3 => 8
  | 4 => 8
  | _ => 4
def txDstAlign (ctl : Word) : Nat :=
  match txOp ctl with
  | 0 => sxAlign (txFmt ctl)
  | 1 => 4
  | 5 => 4
  | _ => 8

/-- True when N and K lie within the limits of Table 16.2. -/
def txLimits (ctl k : Word) : Bool :=
  let n := txN ctl
  match txOp ctl with
  | 0 => n % 16 == 0 && decide (16 ≤ n) && decide (n ≤ 65536)
  | 1 => n % 16 == 0 && decide (16 ≤ n) && decide (n ≤ 65536)
  | 2 => decide (1 ≤ n) && decide (n ≤ 4096) && decide (1 ≤ bitsOf k 8 0) && decide (bitsOf k 8 0 ≤ n)
  | 3 => decide (1 ≤ n) && decide (n ≤ 128)
  | 4 => decide (1 ≤ n) && decide (n ≤ 128)
  | _ => decide (1 ≤ n) && decide (n ≤ 65536)

/-- True when two ranges of bytes overlap. -/
def rangesMeet (a n b m : Nat) : Bool := decide (a < b + m) && decide (b < a + n)

/-- An invalid descriptor (R310). -/
def txInvalid (src dst ctl k : Word) : Bool :=
  let op := txOp ctl
  let used := txUsed op (txMode ctl) + 0xF0000000FFFFFFFF
  decide (5 < op) || (ctl.toNat ||| used) != used || bitsOf k 63 9 != 0 || (op != 2 && bitsOf k 8 0 != 0)
    || (op == 0 && (txRm ctl == 3 || txMode ctl == 3 || (txMode ctl == 1 && txFix ctl == 255)))
    || ((op == 0 || op == 1) && txFmt ctl == 3)
    || !txLimits ctl k
    || rangesMeet src.toNat (txSrcBytes ctl) dst.toNat (txDstBytes ctl k)

/-! ## The forms (R314) -/

/-- The seats of the threads that hold hands on an octet's cores. -/
def State.octetSeats (s : State) (o : Nat) : List Nat :=
  (s.threads.toList.filterMap fun c =>
    if octetOf (coreOf c.1) = o ∧ !isDealer (coreOf c.1) ∧ c.2.st ≠ .empty then c.2.seat else none).eraseDups

/-- The seats that hold slots of an octet: those of its requests, and of threads that release for one (R309, R314). -/
def State.slotsTaken (s : State) (o : Nat) : List Nat :=
  (s.octet o).txq.map (fun r => r.seat) ++ s.threads.toList.filterMap fun c =>
    if c.2.txSlot && octetOf (coreOf c.1) == o then c.2.seat else none

/-- True while a slot is open to a seat (R309). A coprocessor whose partition is held by a synchronised stop accepts no request: no slot of it
is open (R354; DESIGN CHOICE, log 33). -/
def State.slotOpen (s : State) (o seat : Nat) : Bool :=
  let q := s.slotsTaken o
  !s.clusterHeld (o / 2) && decide (q.length < 4) &&
    (decide ((s.octetSeats o).length ≤ 1) || decide ((q.filter fun r => r == seat).length < 2))

/-- tx.req (R314). The slot is its own from the check on, while it releases. -/
def execTxReq (rd rs1 : Reg) (s : State) :=
  runComputePlain (.txReq rd rs1) (do
    let a ← readX rs1
    trapIf (a.toNat % 32 != 0) 4 0 a
    let d ← readDoublewords a 4
    let t ← cur
    let n ← myCore
    let seat ← mySeat
    let th ← me
    let o := octetOf n
    let src := rewriteOwn n (d.getD 0 0)
    let dst := rewriteOwn n (d.getD 1 0)
    let ctl := d.getD 2 0
    let k := d.getD 3 0
    trapIf (txInvalid src dst ctl k) 14 0x01 a
    trapIf (src.toNat % txSrcAlign ctl != 0) 14 0x02 (d.getD 0 0)
    trapIf (dst.toNat % txDstAlign ctl != 0) 14 0x02 (d.getD 1 0)
    if th.tx.state ≠ 0 then writeX rd (-2)
    else if !th.txSlot ∧ !(← look fun s => s.slotOpen o seat) then
      upd fun s => (noteNow 0x300 o (putAt 1 48) s).modOctet o fun y => { y with txBusy := (y.txBusy + 1) % 65536 }
      writeX rd (-1)
    else
      modMe fun th => { th with txSlot := true }
      progress pushRelease
      let rm : BitVec 2 := if txRm ctl = 0 then th.rm else if txRm ctl = 1 then 0 else 1
      let r : TxReq := { tid := t, seat := seat, deal := th.deal.getD 0, hand := th.hand.toNat, src := src, dst := dst, ctl := ctl, k := k, rm := rm }
      upd fun s => s.modOctet o fun y => { y with txq := y.txq ++ [r] }
      modMe fun th => { th with tx := { state := 1 }, txSlot := false }
      writeX rd 0) s

/-- tx.res (R313, R314): a fault clears the record and traps. -/
def execTxRes (rd : Reg) (s : State) :=
  runComputePlain (.txRes rd) (do
    let x := (← me).tx
    if x.state = 0 then writeX rd (-1)
    else if x.state = 3 then
      modMe fun th => { th with tx := {} }
      dropWhere (← meAgent) (fun b => b.overlaps x.dst x.bytes) false
      writeX rd x.result
    else if x.state = 4 then
      modMe fun th => { th with tx := {} }
      trapAll 14 x.fault x.addr
    else hold) s

/-- tx.stat (R314). -/
def execTxStat (rd : Reg) (s : State) :=
  runComputePlain (.txStat rd) (do
    writeX rd ((← me).tx.state.zeroExtend 64)) s

/-! ## Reading and writing (R312, R313) -/

/-- The agent of a request's accesses. -/
def TxReq.agent (r : TxReq) : Agent := { core := coreOf r.tid, tid := r.tid, seat := r.seat, deal := some r.deal }

/-- Reads n bytes from an address in pieces that lie in one sector, by fuel, adding them to those read, under the right of a source or of a destination
(R326). -/
def txRead (ag : Agent) (need : BitVec 4) : Nat → Word → Nat → List Byte → Act (VProg (List Byte))
  | 0, _, _, acc => return .all acc
  | f + 1, a, n, acc => do
    if n = 0 then return .all acc
    let k := min n (64 - a.toNat % 64)
    match ← attempt (engineReadAt ag a k need) with
    | none => return .upTo acc
    | some (.error e) =>
      match e with
      | .bad (.data d) => upd (reportTrap ag.tid 7 d a)
      | _ => pure ()
      return .fault 0x03 a
    | some (.ok v) => txRead ag need f (a + wordOfNat k) (n - k) (acc ++ bytesOf k v)

/-- Checks the destination's units of u bytes in ascending order, before any is written, adding their home addresses to those found (R312). -/
def txCheck (ag : Agent) (u : Nat) : Nat → Word → List Nat → Act (VProg (List Nat))
  | 0, _, homes => return .all homes
  | k + 1, a, homes => do
    match ← attempt (elementHome ag true u a homes) with
    | none => return .upTo homes
    | some (.error _) => return .fault 0x04 a
    | some (.ok h) => txCheck ag u k (a + wordOfNat u) (homes ++ [h])

/-- Writes units of u bytes at their home addresses, noting their sectors in the thread's signature of the coprocessor (R184); answers the
bytes written. -/
def txWrite (ag : Agent) (u : Nat) : List Nat → Word → List Byte → Nat → Act (VProg Nat)
  | [], _, _, put => return .all put
  | h :: r, a, bs, put => do
    match ← attempt (engineStore ag h u (bytesVal (bs.take u))) with
    | none => return .upTo put
    | some _ =>
      noteEngine ag.tid 2 h a
      txWrite ag u r (a + wordOfNat u) (bs.drop u) (put + u)

/-- What an operation makes of its source bytes: the destination bytes and the result, or the subcause and address of a
block with a reserved exponent; and the flags. -/
structure TxOut where
  bytes : List Byte := []
  result : Nat := 0
  bad : Option (BitVec 8 × Word) := none
  flags : FlagSet := 0
deriving DecidableEq, Repr

/-- Executes the request at the head of an octet's queue where it has the operation: `need` says how many source bytes it
needs, judged by those read, `work` what it makes of them (with the destination's old bytes where it reads them). -/
def txExecute (o op : Nat) (need : TxReq → List Byte → Nat) (oldBytes : TxReq → Nat)
    (work : TxReq → List Byte → List Byte → TxOut) (s : State) : Host.Outcome State Fault Refusal :=
  runEvent (do
    match ← look fun s => (s.octet o).txq with
    | [] => return ()
    | r :: rest =>
      if txOp r.ctl ≠ op ∨ r.outcome.isSome then return ()
      let ag := r.agent
      let keep := fun (r : TxReq) (s : State) => s.modOctet o fun y => { y with txq := { r with started := true } :: rest }
      let finish := fun (sub : BitVec 8) (v : Word) (r : TxReq) => keep { r with outcome := some (sub, v) }
      if !r.dead then upd fun s => s.modThr r.tid fun th => { th with tx := { th.tx with state := 2 } }
      let u := txDstAlign r.ctl
      match r.out with
      | none =>
        match ← readAll ag r (2 * txN r.ctl + 2) need r.got with
        | .upTo bs => upd (keep { r with got := bs })
        | .fault sub va => upd (finish sub va r)
        | .all bs =>
          match ← txRead ag needW 1024 r.dst (oldBytes r) [] with
          | .upTo _ => upd (keep { r with got := bs })
          | .fault _ va => upd (finish 0x04 va r)
          | .all old =>
            let w := work r bs old
            match ← txCheck ag u (w.bytes.length / u - r.homes.length) (r.dst + wordOfNat (u * r.homes.length)) r.homes with
            | .upTo hs => upd (keep { r with got := bs, homes := hs })
            | .fault sub va => upd (finish sub va r)
            | .all hs =>
              match w.bad with
              | some (sub, va) => upd (finish sub va r)
              | none =>
                let r1 := { r with got := [], out := some (w.bytes, wordOfNat w.result), homes := hs, flags := w.flags }
                writeAll ag keep finish u w.bytes r1
      | some (bytes, _) => writeAll ag keep finish u bytes r) s
where
  /-- Reads the source as far as `need` asks, by fuel. -/
  readAll (ag : Agent) (r : TxReq) : Nat → (TxReq → List Byte → Nat) → List Byte → Act (VProg (List Byte))
    | 0, _, acc => return .all acc
    | f + 1, need, acc => do
      let n := need r acc
      if n ≤ acc.length then return .all acc
      match ← txRead ag needR 8192 (r.src + wordOfNat acc.length) (n - acc.length) acc with
      | .all bs => readAll ag r f need bs
      | x => return x
  /-- Writes the destination from where it stands; the last byte executes the request. -/
  writeAll (ag : Agent) (keep : TxReq → State → State) (finish : BitVec 8 → Word → TxReq → State → State) (u : Nat)
      (bytes : List Byte) (r : TxReq) : Act Unit := do
    match ← txWrite ag u (r.homes.drop (r.put / u)) (r.dst + wordOfNat r.put) (bytes.drop r.put) r.put with
    | .upTo k => upd (keep { r with put := k })
    | .fault sub va => upd (finish sub va r)
    | .all k => upd (finish 0 (match r.out with | some x => x.2 | none => 0) { r with put := k })

/-! ## The operations (R311) -/

/-- Values of 4 bytes from bytes. -/
def words32 (bs : List Byte) : List Nat := (List.range (bs.length / 4)).map fun i => bytesVal (sliceL bs (4 * i) 4)

/-- Encodes values sixteen to a block with the exponent that `pick` gives each block. -/
def encodeBlocks (f : Nat) (rtz : Bool) (pick : List FVal → Nat) : Nat → List FVal → List Byte × FlagSet
  | 0, _ => ([], 0)
  | k + 1, vs =>
    let b := vs.take 16
    let x := sxEncodeAt f rtz (pick b) b
    let r := encodeBlocks f rtz pick k (vs.drop 16)
    (bytesOf (sxBytes f) (sxPack f x.1) ++ r.1, x.2 ||| r.2)

/-- FP32 to SX. -/
def fp32ToSxWork (r : TxReq) (bs _old : List Byte) : TxOut :=
  let vs := (words32 bs).map (fmtOf .f32).unpack
  let f := txFmt r.ctl
  let pick := if txMode r.ctl = 0 then sxExponent else if txMode r.ctl = 1 then (fun _ => txFix r.ctl) else (fun _ => sxExponent vs)
  let x := encodeBlocks f (rtzOf r.rm) pick (txN r.ctl / 16) vs
  { bytes := x.1, result := txN r.ctl, flags := x.2 }

def execFp32ToSx (octet : Nat) (s : State) :=
  txExecute octet 0 (fun r _ => txSrcBytes r.ctl) (fun _ => 0) fp32ToSxWork s

/-- SX to FP32: exact, with no flag; a block exponent 0xFF is reserved (R236). -/
def sxToFp32Work (r : TxReq) (bs _old : List Byte) : TxOut :=
  let f := txFmt r.ctl
  let n := txN r.ctl / 16
  let blocks := (List.range n).map fun i => bytesVal (sliceL bs (i * sxBytes f) (sxBytes f))
  { bytes := blocks.flatMap fun v => (SxBlock.values f (sxUnpack f v)).flatMap fun x => bytesOf 4 ((fmtOf .f32).ofVal false x).1
    result := txN r.ctl
    bad := ((List.range n).find? fun i => blocks.getD i 0 % 256 == 255).map fun i => (0x20, r.src + wordOfNat (i * sxBytes f)) }

def execSxToFp32 (octet : Nat) (s : State) :=
  txExecute octet 1 (fun r _ => txSrcBytes r.ctl) (fun _ => 0) sxToFp32Work s

/-- True when key a ranks before key b of a higher index: by value, NaN below −∞. -/
def keyBefore (a b : FVal) : Bool := !a.isNan && (b.isNan || valLt b a)

/-- Enters a key with its index behind every key that it does not rank before. -/
def insertKey (x : FVal × Nat × Nat) : List (FVal × Nat × Nat) → List (FVal × Nat × Nat)
  | [] => [x]
  | y :: r => if keyBefore x.1 y.1 then x :: y :: r else y :: insertKey x r

/-- Top-k. -/
def topKWork (r : TxReq) (bs _old : List Byte) : TxOut :=
  let ks := words32 bs
  let xs := ((List.range ks.length).zip ks).map fun x => ((fmtOf .f32).unpack x.2, x.2, x.1)
  let sorted := (xs.foldl (fun l x => insertKey x l) []).take (bitsOf r.k 8 0)
  { bytes := sorted.flatMap fun x => bytesOf 8 (x.2.1 * 2 ^ 32 + x.2.2)
    result := bitsOf r.k 8 0, flags := snanNV (xs.map fun x => x.1) }

def execTopK (octet : Nat) (s : State) :=
  txExecute octet 2 (fun r _ => txSrcBytes r.ctl) (fun _ => 0) topKWork s

/-- Block compression (R166). -/
def compressWork (r : TxReq) (bs _old : List Byte) : TxOut :=
  let out := (List.range (txN r.ctl)).flatMap fun i => encodeBlock (wordsOfBytes 64 (sliceL bs (512 * i) 512))
  { bytes := out, result := out.length }

def execBlockCompression (octet : Nat) (s : State) :=
  txExecute octet 3 (fun r _ => txSrcBytes r.ctl) (fun _ => 0) compressWork s

/-- Source bytes that k coded blocks need, as far as the bytes read tell (R166). -/
def codedNeed : Nat → List Byte → Nat
  | 0, _ => 0
  | k + 1, bs =>
    if bs.length < 16 then 16
    else
      let size := (16 + payloadSize 64 (bytesVal (bs.take 16)) + 7) / 8 * 8
      if bs.length < size then size else size + codedNeed k (bs.drop size)

/-- Block expansion (R166). -/
def expandWork (r : TxReq) (bs _old : List Byte) : TxOut :=
  { bytes := (decodeChunks (txN r.ctl) bs).getD [], result := bs.length }

def execBlockExpansion (octet : Nat) (s : State) :=
  txExecute octet 4 (fun r bs => codedNeed (txN r.ctl) bs) (fun _ => 0) expandWork s

/-- Exponent histogram: 256 counts, added to those at DST with ACC = 1. -/
def histogramWork (r : TxReq) (bs old : List Byte) : TxOut :=
  let bins := (words32 bs).map fun v => v / 2 ^ 23 % 256
  let olds := if txAcc r.ctl then words32 old else []
  { bytes := (List.range 256).flatMap fun b => bytesOf 4 ((olds.getD b 0 + (bins.filter fun x => x == b).length) % 2 ^ 32)
    result := txN r.ctl }

def execExponentHistogram (octet : Nat) (s : State) :=
  txExecute octet 5 (fun r _ => txSrcBytes r.ctl) (fun r => if txAcc r.ctl then 1024 else 0) histogramWork s

/-- The completion of the request at the head of the queue: its slot is freed, its flags reach FRM unless it faulted, and its
thread's record takes the outcome (R241, R312, R316). -/
def execTxComplete (octet : Nat) (s : State) :=
  runEvent (do
    match ← look fun s => (s.octet octet).txq with
    | [] => return ()
    | r :: rest =>
      match r.outcome with
      | none => return ()
      | some (sub, v) =>
        upd fun s => spend 5 1 (some r.deal)
          ((noteNow 0x300 octet (putAt 1 24) s).modOctet octet fun y => { y with txq := rest, txDone := (y.txDone + 1) % 2 ^ 24 })
        if !r.dead then
          let x : TxRec := if sub = 0 then { state := 3, result := v, dst := r.dst.toNat, bytes := r.put }
            else { state := 4, fault := sub, addr := v }
          upd fun s => s.modThr r.tid fun th => { th with tx := x, waiting := false }
          if sub = 0 then upd (raiseFlags r.tid r.flags)) s

end Sys2Proof.Machine
end

