-- ==== Sys2Proof/Machine/Threads.lean ====
section
/-! DEFINITION. The events of a thread's life (R62 to R64, R70 to R74, R78): the end of its part in a hand, the commands of
RUNCTL, stops that take effect, and the save and restore of its context. -/

namespace Sys2Proof.Machine

/-! ## Thread-held registers as words (R82, R95, R195, R220) -/

/-- XSTAT of thread t (Table 3.9). -/
def Thread.xstat (th : Thread) (t : Nat) : Word :=
  wordOfNat (putAt (seatIndex (th.seat.getD 0)) 20 + putAt (b2n th.sys) 15 + putAt (b2n th.inTrap) 14 + putAt (b2n th.kn5) 13
    + putAt (b2n th.gang) 12 + putAt (b2n th.leader) 11 + t % 4)
/-- GANG_STAT (Table 4.4). -/
def Thread.gangStat (th : Thread) : Word :=
  wordOfNat (putAt (b2n th.fused) 15 + putAt th.gfirst.toNat 12 + putAt th.gsize.toNat 8 + putAt th.gindex.toNat 4
    + putAt th.gend.toNat 2)
/-- DOM_MEMB, HAND_ID and TRICK (Table 9.14). -/
def Thread.domMemb (th : Thread) : Word := wordOfNat (putAt th.plevel.toNat 12 + th.memb.toNat)
def Thread.handId (th : Thread) : Word := wordOfNat (putAt th.nthr.toNat 32 + putAt th.hand.toNat 16 + th.rank.toNat)
def Thread.trick (th : Thread) : Word := wordOfNat (putAt th.phase.toNat 32 + th.tricks.toNat)
/-- The transform request record as the save writes it (R316). -/
def TxRec.word (x : TxRec) : Word :=
  wordOfNat (putAt x.state.toNat 61 + (if x.state = 4 then putAt x.fault.toNat 48 + bitsOf x.addr 47 0 else bitsOf x.result 55 0))
/-- The record that a doubleword restores (R316). It names no destination: tx.res acquires every byte, as those written are among them
(R313). -/
def txRecOf (w : Word) : TxRec :=
  match bitsOf w 63 61 with
  | 3 => { state := 3, result := wordOfNat (bitsOf w 55 0), bytes := 2 ^ 64 }
  | 4 => { state := 4, fault := BitVec.ofNat 8 (bitsOf w 55 48), addr := wordOfNat (bitsOf w 47 0) }
  | _ => {}

/-! ## The end of a thread's part in its hand (R62, R131, R195, R204, R249, R316) -/

/-- Requests of thread t leave the semaphores of its octet: all of them, or those that are not registered. -/
def dropSemRequests (t : Nat) (all : Bool) (s : State) : State :=
  s.modOctet (octetOf (coreOf t)) fun y =>
    { y with sems := y.sems.mapVals fun _ x => { x with queue := x.queue.filter fun r => r.tid != t || (r.registered && !all) } }

/-- The claim of thread t's core ends where t owns it, with its vector context. -/
def dropClaim (t : Nat) (s : State) : State :=
  let n := coreOf t
  let s1 := if (s.claim n).owner = some t then endClaim n s else s
  s1.modCore n fun c => { c with vctx := c.vctx.filter fun v => v.tid != t }

/-- The counts of a deal and its domains fall by a killed thread (R197 to R199). -/
def countKill (t : Nat) (s : State) : State :=
  let th := s.thr t
  match th.deal with
  | none => s
  | some d =>
    let ks := (List.range 9).filter fun k => th.memb.getLsbD k
    let s1 := s.modDeal d fun x => { x with killed := x.killed + 1 }
    ks.foldl (fun s k =>
      let key := domKey k (coreOf t)
      let x := s.domain d key
      let arrived := match th.domArr with
        | some a => a.level.toNat == k && a.phase == x.phase
        | none => false
      s.setDomain d key { x with living := x.living - 1, arrived := x.arrived - b2n arrived, kills := x.kills + 1 }) s1

/-- A seat without threads left on core n has no issue bucket there (R66). -/
def dropBucket (n seat : Nat) (s : State) : State :=
  if isDealer n || (threadsOf n).any fun t => (s.thr t).seat == some seat then s
  else s.modArb n fun a => { a with buckets := a.buckets.erase seat }

/-- True while some thread of hand h of deal d is not EMPTY. -/
def State.handLives (s : State) (d h : Nat) : Bool :=
  s.threads.anyVal fun _ th => th.st != .empty && th.deal == some d && th.hand.toNat == h

/-- The end of a hand reclaims the barriers it configured last (Table 9.1). -/
def endHandBarriers (d h : Nat) (s : State) : State :=
  { s with cores := s.cores.mapVals fun _ c =>
      { c with bars := ⟨c.bars.cells.filter fun b => !(b.2.configured && b.2.deal == d && b.2.hand == h)⟩ } }

/-- A thread becomes EMPTY: its part in its hand ends (Table 3.1). -/
def endThread (t : Nat) (killed : Bool) (s : State) : State :=
  let th := s.thr t
  let n := coreOf t
  if th.st = .empty then s
  else
    let s1 := withdrawRows t (dropClaim t (dropSemRequests t true (unbindMailboxes t (unbindHeads t s))))
    let s2 := s1.modOctet (octetOf n) fun y =>
      { y with txq := y.txq.map fun r => if r.tid = t then { r with dead := true } else r }
    let s3 := if killed then countKill t (if th.fused then dissolveGang t 3 s2 else s2) else s2
    let s4 := dropBucket n (th.seat.getD 0) (s3.setThr t { ares := th.ares })
    match th.deal with
    | some d =>
      let h := th.hand.toNat
      if s4.handLives d h then s4 else endHandBarriers d h (endHandRuns d h (endHandRows d h s4))
    | none => s4

/-! ## Boundaries and stops (R63, R64, R94, R271) -/

/-- True at a boundary at which a stop or a kill may take effect: no open packet, no unit that has issued and whose wait no stop abandons, no
access performed whose unit has yet to complete, and no unit that a gang's leader has sent to its followers (R63, R94). -/
def State.atBoundary (s : State) (t : Nat) : Bool :=
  let th := s.thr t
  let m := s.mx (coreOf t)
  th.msg.isNone && !(th.issued && (th.firm || (th.leader && th.sent))) && th.wakeR.isNone && th.fuseAns.isNone && th.cpAns.isNone && th.objAns.isNone
    && (m.go.all fun g => g.tid != t || g.ans == .waits) && (m.enter.all fun g => g.tid != t || g.ans == .waits)
    && th.heads.toList.all fun h => h.2.acc.isNone

/-- True when a gang's follower has completed every unit it is to receive (R94). -/
def State.unitsDone (s : State) (t : Nat) : Bool :=
  let th := s.thr t
  !th.fused || th.leader || (th.flight.isEmpty && th.fq.isEmpty && (th.gend != 0 ||
    match (s.gangMembers t).head? with
    | some l => (s.thr l).saving || ((s.thr l).st != .running && (s.thr l).st != .stopping && (s.thr l).st != .idle)
    | none => true))

/-- The waits that a stop abandons (R195, R196, R200, R291): a vclaim below its MIN that holds nothing ends its claim. -/
def abandonWaits (t : Nat) (s : State) : State :=
  let n := coreOf t
  let c := s.claim n
  let s1 :=
    if c.owner = some t ∧ c.waiting then
      (if c.groups.isEmpty ∧ c.moves.isEmpty then endClaim n s else s.modClaim n fun c => { c with waiting := false })
    else s
  withdrawRows t (dropSemRequests t false s1)

/-- A stop takes effect at a unit boundary: the thread's save starts, and it stays STOPPING until the save is done (Table 3.1). -/
def stopThread (t : Nat) (s : State) : State := beginSave t (abandonWaits t s)

/-- True when a stop request of thread t may take effect: at a boundary, once a follower has completed what it received
(R94), and in KN5 mode at a safe point only (R271), which neither a gang that has been dissolved (R94) nor the wait of a fuse (R90) waits for. -/
def State.stopDue (s : State) (t : Nat) : Bool :=
  let th := s.thr t
  th.st == .stopping && !th.saving && s.atBoundary t && s.unitsDone t && (!th.kn5 || th.safeStop || th.fuseWait.isSome || (th.fused && th.gend != 0))

/-- True when a kill of a running thread may take effect. -/
def State.killDue (s : State) (t : Nat) : Bool :=
  let th := s.thr t
  (th.st == .running || th.st == .stopping) && th.killPend && s.atBoundary t

/-- A stop or a kill of a running thread takes effect (R62, R63). -/
def execStopTakesEffect (tid : Nat) (s : State) :=
  runEvent (upd fun s =>
    if s.killDue tid then endThread tid true s
    else if s.stopDue tid then stopThread tid s
    else s) s

/-! ## The commands of RUNCTL (R73, Table 3.1) -/

/-- A RESUME command: a parked thread is restored, a stopped one is too or returns to PARKED; while its save runs, that of a running thread's
stop too, the command takes effect when the save is done (R72, R225). -/
def resumeThread (t : Nat) (s : State) : State :=
  let th := s.thr t
  match th.st with
  | .parked | .stopped =>
    if th.saving then s.setThr t { th with resumePend := true }
    else if th.st = .stopped ∧ th.pmark then s.setThr t { th with st := .parked, resumePend := false }
    else s.setThr t { th with st := .resuming, restoring := true, resumePend := false }
  | .stopping => if th.saving then s.setThr t { th with resumePend := true } else s
  | _ => s

def execResume (tid : Nat) (s : State) := runEvent (upd (resumeThread tid)) s

/-- A KILL command: at the next boundary of a running thread, once a parked thread's save is done, else at once. -/
def killThread (t : Nat) (s : State) : State :=
  let th := s.thr t
  match th.st with
  | .empty => s
  | .running => s.setThr t { th with killPend := true, waiting := false }
  | .stopping => if th.saving then endThread t true s else s.setThr t { th with killPend := true, waiting := false }
  | .parked => if th.saving then s.setThr t { th with killPend := true } else endThread t true s
  | .idle | .stopped | .resuming => endThread t true s

def execKill (tid : Nat) (s : State) := runEvent (upd (killThread tid)) s

/-- A STOP command; one to a member of a gang applies to the whole gang (R94). -/
def stopAll (t : Nat) (s : State) : State :=
  (s.gangOthers t).foldl (fun s m => stopRequest m s) (stopRequest t s)

def execStop (tid : Nat) (s : State) := runEvent (upd (stopAll tid)) s

/-- A WAKE command (R76). -/
def execWake (tid : Nat) (s : State) := runEvent (upd (wakeThread tid 1 true)) s

/-- True when ADOPT may move the context of thread `source` to thread `target` (R74). That the writer may access both save
areas holds of every writer whose store reached the RUNCTL of an EMPTY thread: a dealer core or the management function. -/
def State.canAdopt (s : State) (target source : Nat) : Bool :=
  let x := s.thr source
  let n := coreOf target
  let m := coreOf source
  let memb := wordOfNat (s.load (bankAddr m (0x60000 + source % 4 * 0x800 + 0x150)) 8)
  let k := lowestBit (memb.truncate 9)
  (s.thr target).st == .empty && (s.thr target).deal.isNone && !isDealer n && !isDealer m && (s.partOfCore n).isSome && s.partOfCore n == s.partOfCore m
    && (x.st == .stopped || x.st == .parked) && x.saved && (k == 9 || domNode k n == domNode k m)
    && (s.claim m).owner != some source && x.regWait.isNone && !x.fused
    && !(s.cluster (clusterOf m)).mailboxes.anyVal fun _ b => b.tid == source

/-- True while a thread has a remote store that is not acknowledged. -/
def State.storesOut (s : State) (t : Nat) : Bool := (s.core (coreOf t)).rstores.any fun r => r.tid == t

/-- The context moves: the save area, and the thread's record with its membership of hand and deal (R74). -/
def moveContext (target source : Nat) (s : State) : State :=
  let x := s.thr source
  let area := fun (t : Nat) => bankAddr (coreOf t) (0x60000 + t % 4 * 0x800)
  let s1 := s.storeAll (area target) (readCells s.mem (area source) 0x800)
  let s2 := (s1.setThr source { ares := x.ares }).setThr target { x with ares := 1, adopt := none }
  let seat := x.seat.getD 0
  let s3 := dropBucket (coreOf source) seat (match x.deal with | some d => s2.modDeal d fun y => { y with ran := y.ran ++ [target] } | none => s2)
  if (s3.arb (coreOf target)).buckets.anyVal fun k _ => k == seat then s3
  else s3.modArb (coreOf target) fun a => a.setBucket seat (Bucket.fresh (s.seat seat).cfg.issue)

/-- An ADOPT command (R74): it waits until the source's remote stores have been acknowledged. -/
def execAdopt (target source : Nat) (s : State) :=
  runEvent (upd fun s =>
    if !s.canAdopt target source then s.modThr target fun th => { th with ares := 2, adopt := none }
    else if s.storesOut source then s.modThr target fun th => { th with adopt := some source }
    else moveContext target source s) s

/-- A START command (R78): an EMPTY thread t1 to t3 of a dealer core is restored from its save area. -/
def execStart (tid : Nat) (s : State) :=
  runEvent (upd fun s =>
    let n := coreOf tid
    let th := s.thr tid
    if isDealer n && n < Config.cores + Config.dealers && tid % 4 != 0 && th.st == .empty then
      s.setThr tid { st := .resuming, restoring := true, saved := true, seat := some (n - Config.cores + 1024), sys := true, ares := th.ares }
    else s) s

/-! ## The save (R72, R120, R138, R153, R191, R240, R269, R270, R316) -/

/-- The home address of a doubleword of thread t's save area. -/
def saveAddr (t off : Nat) : Nat := bankAddr (coreOf t) (0x60000 + t % 4 * 0x800 + off)

/-- The doublewords that the save writes, with their offsets (Tables 3.5, 5.11, 7.5, R139): base part, heads that were
bound, circular-buffer handles, and bound stream slots. -/
def State.saveWords (s : State) (t : Nat) : List (Nat × Word) :=
  let th := s.thr t
  let sig := (s.core (coreOf t)).sigs.get 0 (th.seat.getD 0)
  let regs := (List.range 32).map fun i => (8 * i, if i = 0 then 0 else th.regs.get 0 i)
  let ctl := [(0x100, th.pc), (0x108, th.xstat t), (0x110, th.xcause), (0x118, th.xval), (0x120, th.xpc), (0x128, th.xtvec),
    (0x130, th.xdeleg.zeroExtend 64), (0x138, th.xscratch), (0x140, th.gangStat), (0x148, th.l1pol.zeroExtend 64),
    (0x150, th.domMemb), (0x158, th.domPol.zeroExtend 64), (0x160, th.dealSeq.zeroExtend 64), (0x168, th.handId),
    (0x170, th.trick), (0x178, th.syncWord), (0x1C0, th.frm), (0x1C8, 0), (0x1D0, th.tx.word)]
  let sigs := (List.range 8).map fun i => (0x180 + 8 * i, wordOfNat (sig.toNat / 2 ^ (64 * i)))
  let heads := (th.heads.toList.filter fun h => h.2.hs != .unbound).flatMap fun h =>
    let d0 := (if h.2.errSaved then { h.2 with hs := .error } else h.2).dw0
    (List.range 8).map fun i => (0x200 + 64 * h.1 + 8 * i, if i = 0 then wordOfNat d0 else if i = 1 then wordOfNat h.2.dw1 else 0)
  let cbs := (List.range 16).flatMap fun h =>
    let c := th.cbs.get {} h
    let g := wordOfNat (putAt (b2n c.valid) 63 + putAt c.grantC.toNat 16 + c.grantP.toNat)
    [(0x400 + 32 * h, c.base), (0x408 + 32 * h, c.ctrl), (0x410 + 32 * h, c.geom), (0x418 + 32 * h, g)]
  let binds := th.binds.toList.flatMap fun e =>
    let b := e.2
    let a := 0x600 + 64 * e.1
    let st := putAt 1 7 + putAt (b2n (decide (b.reg.toNat < 28))) 6 + putAt (b2n b.exh) 5 + (b.reg.toNat - 24)
    [(a, b.base), (a + 8, b.strides), (a + 16, b.counts), (a + 24, b.fmt), (a + 32, wordOfNat b.next), (a + 40, wordOfNat st),
      (a + 48, b.last), (a + 56, 0)]
  regs ++ ctl ++ sigs ++ heads ++ cbs ++ binds

/-- Writes a save area. -/
def writeSave (t : Nat) (s : State) : State :=
  (s.saveWords t).foldl (fun s w => s.store (saveAddr t w.1) 8 w.2.toNat) s

/-- The bytes of a core's vector context, and the CRC-32C in its last doubleword. -/
def vctxAddr (n : Nat) : Nat := bankAddr n 0x62000
def State.vctxGood (s : State) (n : Nat) : Bool := s.load (vctxAddr n + 4088) 8 == crc32c (readCells s.mem (vctxAddr n) 4088)

/-- The save of a claim's owner, or of a thread that has spilled at a safe point, writes the core's vector context (R269,
R271), whose layout the spec leaves open (DESIGN CHOICE, log 7). -/
def saveVector (t : Nat) (s : State) : State :=
  let n := coreOf t
  if (s.claim n).owner = some t ∨ (s.thr t).spill.isSome then
    let bs := (List.range 511).flatMap fun i => bytesOf 8 (Config.freeWord (s.free + i)).toNat
    let s1 := s.storeAll (vctxAddr n) (bs ++ bytesOf 8 (crc32c bs))
    { s1 with free := s.free + 511 }.modCore n fun c => { c with vctx := some { mark := s.free, tid := t } }
  else s

/-- Values of read bindings that a save discards are counted (R153). -/
def dropArrived (t : Nat) (s : State) : State :=
  let k := ((s.thr t).binds.toList.map fun b => b.2.values).foldl (· + ·) 0
  let s1 := if k = 0 then s else addPf (clusterOf (coreOf t)) 1 16 k s
  s1.modThr t fun th => { th with binds := th.binds.mapVals fun _ b => { b with arrived := [] } }

/-- A save is done (R69, R72): it waits for the thread's accepted transform request, writes back the blocks its stores have
dirtied, and writes the context. A thread on its way to STOPPED reaches it; the fault record due is posted; commands held
meanwhile then act. -/
def execContextSaveDone (tid : Nat) (s : State) :=
  runEvent (do
    let th ← look fun s => s.thr tid
    if !th.saving then return ()
    if th.tx.state = 1 ∨ th.tx.state = 2 then return ()
    let ag ← look fun s => s.agent tid
    cleanWhere ag fun b => b.dirtiedBy [tid]
    upd fun s => writeSave tid (saveVector tid (dropArrived tid s))
    upd fun s => s.modThr tid fun th => { th with
      saving := false, saved := true, postDue := false, stopPend := false
      st := if th.st = .stopping ∨ th.stopPend then .stopped else th.st }
    if th.postDue then upd (reportFault tid)
    upd fun s =>
      let th := s.thr tid
      if th.killPend then endThread tid true s
      else if th.resumePend then resumeThread tid s
      else s) s

/-! ## The restore (R70, R72, R74, R78) -/

/-- The control registers and handles of a thread as its save area gives them. `r` reads a doubleword of it. A
stream's EXH follows from the NEXT restored (R153: DESIGN CHOICE, log 22). -/
def restoreThread (r : Nat → Word) (th : Thread) : Thread :=
  let regs := ⟨(List.range 31).map fun i => (i + 1, r (8 * (i + 1)))⟩
  let cbs := ⟨(List.range 16).map fun h =>
    let g := r (0x418 + 32 * h)
    (h, { base := r (0x400 + 32 * h), ctrl := r (0x408 + 32 * h), geom := r (0x410 + 32 * h), valid := bitOf g 63,
          grantC := BitVec.ofNat 13 (bitsOf g 28 16), grantP := BitVec.ofNat 13 (bitsOf g 12 0) })⟩
  let binds := ⟨th.binds.cells.filterMap fun e =>
    let a := 0x600 + 64 * e.1
    let st := r (a + 40)
    let b : Binding := { base := r a, strides := r (a + 8), counts := r (a + 16), fmt := r (a + 24),
                         reg := BitVec.ofNat 5 (24 + bitsOf st 2 0), next := (r (a + 32)).toNat, last := r (a + 48) }
    if bitOf st 7 then some (e.1, { b with exh := decide (b.count ≤ b.next) }) else none⟩
  Thread.setFrm (r 0x1C0)
    { th with
      regs := regs, cbs := cbs, binds := binds, pc := r 0x100, inTrap := bitOf (r 0x108) 14
      nested := bitOf (r 0x110) 16, causeSub := BitVec.ofNat 8 (bitsOf (r 0x110) 15 8), cause := BitVec.ofNat 8 (bitsOf (r 0x110) 7 0)
      xval := r 0x118, xpc := r 0x120, xtvec := r 0x128 &&& ~~~3, xdeleg := (r 0x130).truncate 9 &&& 0x116, xscratch := r 0x138
      l1pol := (r 0x148).truncate 8 &&& 0xE3, memb := (r 0x150).truncate 9, domPol := (r 0x158).truncate 20
      phase := BitVec.ofNat 9 (bitsOf (r 0x170) 40 32), tricks := BitVec.ofNat 32 (bitsOf (r 0x170) 31 0)
      vdisp := r 0x1C8, tx := txRecOf (r 0x1D0) }

/-- The heads that the save left SAVED enter REACQ as their records say (Table 6.3); a record that names no track of the
seat's window leaves its handle unbound. -/
def restoreHeads (t : Nat) (s : State) : State :=
  let c := clusterOf (coreOf t)
  let w := s.seatTracks ((s.thr t).seat.getD 0) c
  let cmb := s.cmBaseOf c
  ((s.thr t).heads.toList.filter fun e => e.2.hs == .saved).foldl (fun s e =>
    let a := wordOfNat (s.load (saveAddr t (0x200 + 64 * e.1)) 8)
    let b := wordOfNat (s.load (saveAddr t (0x208 + 64 * e.1)) 8)
    if recordGood w cmb a then
      let y := headOfRecord a b
      enterQueue c y.track.toNat { tid := t, h := BitVec.ofNat 3 e.1 } (s.setHead t e.1 y)
    else s.setHead t e.1 {}) s

/-- A context whose CRC fails is discarded with the contents of the claim's registers (R270). -/
def corruptContext (n : Nat) (s : State) : State :=
  (s.modClaim n fun c => { c with queue := [], vregs := {}, moves := c.moves.map fun m => { m with ahead := 0 }, fault := some (0x06, 0, 0) }).modCore n fun c =>
    { c with vsub := 0x06, vpc := 0 }

/-- The restore of a claim's owner (R269, R270): a context whose CRC fails is discarded with the registers' contents, and
VDISP 1 discards the held command with those behind it, also where a later safe point of another thread has written the core's context. -/
def restoreVector (t : Nat) (s : State) : State :=
  let n := coreOf t
  if (s.claim n).owner ≠ some t then s
  else
    let mine := ((s.core n).vctx.map fun v => v.tid) == some t
    let s1 := if mine then s.modCore n fun c => { c with vctx := none } else s
    if mine && !s.vctxGood n then corruptContext n s1
    else
      s1.modClaim n fun c =>
        match c.fault with
        | some _ => if (s.thr t).vdisp = 1 then
            { c with queue := [], moves := c.moves.map fun m => { m with ahead := 0 }, fault := none } else { c with fault := none }
        | none => c

/-- Reloads the live registers of a spilled claim from their addresses, in pieces of 8 bytes (R271). -/
def reloadRegs (ag : Agent) (n : Nat) : List (Nat × Nat × Word) → Act Unit
  | [] => pure ()
  | (i, k, va) :: r => do
    match ← engineRead ag va 8 with
    | .ok v => upd fun s => s.modClaim n fun c => c.setElem i k 8 v
    | .error _ =>
      upd fun s => (s.modClaim n fun c => { c with fault := some (0x04, va, 0) }).modCore n fun c => { c with vsub := 0x04, vpc := 0 }
    reloadRegs ag n r

/-- The claim that ended at a safe point is made anew with MIN = MAX = g, waiting under R250 if needed (R271). -/
def remakeClaim (t : Nat) : Act Unit := do
  let n := coreOf t
  match (← look fun s => s.thr t).spill with
  | none => return ()
  | some x =>
    let owner ← look fun s => (s.claim n).owner
    if owner.isSome ∧ owner ≠ some t then hold
    upd fun s => s.modClaim n fun c => { c with owner := some t, minG := x.g, maxG := x.g, waiting := true }
    let new ← look fun s => rebalance n (s.claim n).decided s
    upd (moveGroups n new)
    if new.length < x.g then holdAll
    upd fun s => (s.modClaim n fun c => { c with waiting := false, vregs := {}, vl := x.vl }).modThr t fun th => { th with spill := none }
    let mine := ((← look fun s => (s.core n).vctx).map fun v => v.tid) == some t
    let good ← look fun s => s.vctxGood n
    upd fun s => if mine then s.modCore n fun c => { c with vctx := none } else s
    if mine && !good then
      upd (corruptContext n)
      return ()
    let live := (List.range 32).filter fun i => x.mask.getLsbD i
    let parts := ((List.range live.length).zip live).flatMap fun p => (List.range (64 * x.g)).map fun k =>
      (p.2, k, x.addr + wordOfNat (512 * x.g * p.1 + 8 * k))
    reloadRegs (← look fun s => s.agent t) n parts

/-- A restore is done (Table 3.1): the thread takes what its save area holds and runs, which ends its parked mark; or it is STOPPED
where a stop request came meanwhile, with the mark kept and a new save begun (both DESIGN CHOICE, log 42). A safe point's claim is
remade first, unless the save's context has been damaged (R270; log 7). -/
def execContextRestoreDone (tid : Nat) (s : State) :=
  runEvent (do
    let th ← look fun s => s.thr tid
    if th.st ≠ .resuming ∨ !th.restoring then return ()
    remakeClaim tid
    let n := coreOf tid
    let seat := th.seat.getD 0
    let sig ← look fun s => (List.range 8).foldl (fun a i => a + s.load (saveAddr tid (0x180 + 8 * i)) 8 * 2 ^ (64 * i)) 0
    upd fun s => s.setThr tid (restoreThread (fun off => wordOfNat (s.load (saveAddr tid off) 8)) (s.thr tid))
    upd fun s => orSig n seat (BitVec.ofNat 512 sig) (restoreVector tid (restoreHeads tid s))
    upd fun s =>
      let r := { (s.thr tid).unitEnds with restoring := false, stopPend := false, resv := none, ahead := [] }
      if (s.thr tid).stopPend then beginSave tid (s.setThr tid { r with st := .stopped })
      else s.setThr tid { r with st := .running, pmark := false, saved := false }) s

end Sys2Proof.Machine
end

