-- ==== Sys2Proof/Machine/Deals.lean ====
section
/-! DEFINITION. Deals (R102 to R104, R208 to R215, R222, R224, R382, R383): records and their checks, acceptance, placement,
footprints, launch, retirement; hand.exit; and byte rings (R216, R217). -/

namespace Sys2Proof.Machine

/-! ## Records (R208) -/

/-- A deal record as read: doublewords 0x00 to 0xB8, those of its hands, and its footprint list. -/
structure DealRecord where
  w : List Word
  hw : List Word
  fp : List (Word × Word)
deriving DecidableEq, Repr

def DealRecord.dw (r : DealRecord) (i : Nat) : Word := r.w.getD i 0
def DealRecord.seatField (r : DealRecord) : Nat := bitsOf (r.dw 0) 51 48
def DealRecord.nh (r : DealRecord) : Nat := bitsOf (r.dw 0) 38 36 + 1
def DealRecord.seq (r : DealRecord) : BitVec 32 := (r.dw 0).truncate 32
def DealRecord.memb (r : DealRecord) : BitVec 9 := BitVec.ofNat 9 (bitsOf (r.dw 2) 40 32)
/-- Footprint entries and the list's address, of doubleword 0x18. -/
def fpCount (w : Word) : Nat := bitsOf w 63 56
def fpList (w : Word) : Word := wordOfNat (bitsOf w 55 0)
/-- Valid ranges with START below END: those to be read, and those to be written. -/
def DealRecord.ranges (r : DealRecord) (first : Nat) : List (Nat × Nat) :=
  (List.range 4).filterMap fun i =>
    if bitOf (r.dw 5) (first + i) then some ((r.dw (8 + 2 * (first + i))).toNat, (r.dw (9 + 2 * (first + i))).toNat) else none

/-- Hand h of a record. -/
def DealRecord.hand (r : DealRecord) (h : Nat) : HandRec :=
  let c := r.hw.getD (4 * h + 1) 0
  let x := r.hw.getD (4 * h + 2) 0
  { entry := r.hw.getD (4 * h) 0, any := bitOf c 43, first := bitsOf c 42 32, ncores := bitsOf c 29 24 + 1
    tmask := BitVec.ofNat 4 (bitsOf c 19 16), gang := bitOf c 8, spBytes := bitsOf x 63 32, lanes := bitsOf x 27 24 }
def DealRecord.hands (r : DealRecord) : List HandRec := (List.range r.nh).map r.hand
/-- The home cluster: FIRST[10:4] of hand 0 (R211). -/
def DealRecord.home (r : DealRecord) : Nat := (r.hand 0).first / 16

/-- Banks of the group that a request rounds to, 0 for an empty request (R102). -/
def groupBanks (bytes : Nat) : Nat :=
  let b := ceilDiv bytes 0x2000
  if b = 0 then 0 else if b = 1 then 1 else 2 ^ (log2Fuel 64 (b - 1) + 1)

/-- Bits of a footprint entry's doubleword 1 (Table 9.8). -/
def fpMask (d : Word) : Nat := bitsOf d 63 56
def fpDst (d : Word) : Nat := bitsOf d 49 32
def fpLen (d : Word) : Nat := bitsOf d 23 0

/-- True when a word has no bit outside a mask. -/
def within (w : Word) (mask : Nat) : Bool := (w.toNat ||| mask) == mask

/-- A hand's doublewords break Table 9.7. -/
def badHand (e c x z : Word) : Bool :=
  e.toNat % 4 != 0 || !within c 0x00000FFF3F0F0100 || bitsOf c 19 16 == 0 || !within x 0xFFFFFFFF0F000000
    || decide (8 < bitsOf x 27 24) || z != 0

/-- A footprint entry breaks Table 9.8. -/
def badEntry (hands : List HandRec) (e : Word × Word) : Bool :=
  e.1.toNat % 8 != 0 || !within e.2 0xFF03FFFF00FFFFFF || fpMask e.2 / 2 ^ hands.length != 0
    || fpDst e.2 % 8 != 0 || fpLen e.2 == 0 || fpLen e.2 % 8 != 0
    || ((List.range hands.length).zip hands).any fun h =>
      (fpMask e.2).testBit h.1 && decide (groupBanks h.2.spBytes * 0x2000 < fpDst e.2 + fpLen e.2)

/-- Check 1 of R209, an invalid record; `level` is the partition's, `ring` marks a record of a host ring, which must carry
its number (R382). -/
def DealRecord.invalid (r : DealRecord) (level : Nat) (ring : Bool) : Bool :=
  bitsOf (r.dw 0) 63 56 != 1 || bitsOf (r.dw 0) 55 52 != 0 || bitsOf (r.dw 0) 43 39 != 0 || bitsOf (r.dw 0) 35 32 != 0
    || (r.dw 1).toNat % 32 != 0 || !within (r.dw 2) 0x1FF000FFFFF || r.memb.toNat / 2 ^ (level + 1) != 0
    || decide (32 < fpCount (r.dw 3)) || (fpList (r.dw 3)).toNat % 16 != 0
    || !within (r.dw 5) 0xFF || r.dw 6 != 0 || r.dw 7 != 0 || (ring && r.seq == 0)
    || ((r.ranges 0) ++ (r.ranges 4)).any (fun x => decide (x.2 ≤ x.1) || decide (2 ^ 56 ≤ x.1) || decide (2 ^ 56 ≤ x.2))
    || (List.range r.nh).any (fun h => badHand (r.hw.getD (4 * h) 0) (r.hw.getD (4 * h + 1) 0) (r.hw.getD (4 * h + 2) 0) (r.hw.getD (4 * h + 3) 0))
    || r.fp.any (badEntry r.hands)

/-- Reads a record with a reader of doublewords. A footprint list is read where its count and address are sound. -/
def readRecord (rd : Word → Nat → Act (List Word)) (a : Word) : Act DealRecord := do
  let w ← rd a 24
  let nh := bitsOf (w.getD 0 0) 38 36 + 1
  let hw ← rd (a + 0xC0) (4 * nh)
  let d := w.getD 3 0
  let sound := decide (fpCount d ≤ 32) && (fpList d).toNat % 16 == 0
  let l ← rd (fpList d) (if sound then 2 * fpCount d else 0)
  return { w := w, hw := hw, fp := (List.range (l.length / 2)).map fun i => (l.getD (2 * i) 0, l.getD (2 * i + 1) 0) }

/-! ## Completion records (R203, R209, R215, R222) -/

/-- The completion record (Table 9.10). -/
def complRecord (status : Nat) (seat killed : Nat) (seq : BitVec 32) (cycle energy : Nat) (rec_ : Word) : Word × Word × Word × Word :=
  (wordOfNat (putAt status 56 + putAt seat 48 + putAt (min killed 255) 40 + seq.toNat), wordOfNat cycle, wordOfNat (energy / 1024), rec_)

/-- Writes a completion record at COMPL for an agent: an arrival of kind 4 where a mailbox is bound there, else a homed
write of its 32 bytes, byte by byte where COMPL is not 32-byte aligned, and nothing where the checks of a store fail (log 20). `now` enters it at
once in a mailbox that has room. -/
def writeCompl (ag : Agent) (a : Word) (r : Word × Word × Word × Word) (now : Bool := false) : Act Unit := do
  if a = 0 then return ()
  let ws := [r.1, r.2.1, r.2.2.1, r.2.2.2]
  let bs := ws.flatMap fun w => bytesOf 8 w.toNat
  let whole := a.toNat % 32 == 0
  match ← engineWriteCheck ag a (if whole then 32 else 1) with
  | .error _ => return ()
  | .ok home =>
    if (← look fun s => s.mailboxAt home).isSome then upd (if now then arriveNow home 4 0xFFFF ws else postArrival home 4 0xFFFF ws)
    else if whole then
      let _ ← engineWrite ag a 32 (bytesVal bs)
    else
      for x in (List.range 32).zip bs do
        let _ ← engineWrite ag (a + wordOfNat x.1) 1 x.2.toNat

/-- A completion record written where a poster waits for the answer: the copies that its core holds go, and it enters a mailbox that has room at
once, so that a later load of the poster sees the record (R222). -/
def answerCompl (ag : Agent) (a : Word) (r : Word × Word × Word × Word) : Act Unit := do
  if a ≠ 0 then dropWhere ag (fun b => b.overlaps a.toNat 32) false
  writeCompl ag a r true

/-! ## Acceptance (R209 to R211, R383) -/

/-- Who posts a record: whether a system poster, whether a compute core, its seat and partition, and the agent of its
accesses; `tail` is TAIL where the record lies on a host ring. -/
structure Poster where
  system : Bool
  compute : Bool
  seat : Option Nat
  part : Option Nat
  ag : Agent
  tail : Option Word := none
deriving DecidableEq, Repr

/-- Doubleword 3 of the completion record. -/
def Poster.recAddr (p : Poster) (a : Word) : Word := p.tail.getD a

/-- How many numbers back from NEXTSEQ a SEQ lies in the cycle of nonzero numbers (R209). -/
def seqBack (next seq : BitVec 32) : Nat := (next.toNat + (2 ^ 32 - 1) - seq.toNat) % (2 ^ 32 - 1)

/-- True when two lists of ranges share a byte. -/
def rangesShare (a b : List (Nat × Nat)) : Bool := a.any fun x => b.any fun y => decide (x.1 < y.2) && decide (y.1 < x.2)

/-- Accepted deals of a seat that have not retired. -/
def State.unretired (s : State) (seat : Nat) : List (Nat × Deal) :=
  s.deals.toList.filter fun d => d.2.seat == seat && d.2.st != .retired

/-- The earlier deals of a seat on which ranges depend (R210). -/
def State.dependsOn (s : State) (seat : Nat) (reads writes : List (Nat × Nat)) : List Nat :=
  (s.unretired seat).filterMap fun d =>
    if rangesShare writes (d.2.reads ++ d.2.writes) || rangesShare reads d.2.writes then some d.1 else none

/-- A hand's cores lie in the partition and on one die (check 4 of R209): from its FIRST, or from some FIRST of the home
cluster where the queue chooses it. -/
def State.handPlaceable (s : State) (f home : Nat) (h : HandRec) : Bool :=
  let fits := fun (a : Nat) => s.covers f a && s.covers f (a + h.ncores - 1) && a / 256 == (a + h.ncores - 1) / 256
  if h.any then h.first / 16 == home && (List.range 16).any fun i => fits (16 * home + i) else fits h.first

/-- The threads that a hand names from its FIRST. -/
def HandRec.threads (h : HandRec) : List Nat :=
  (List.range h.ncores).flatMap fun i => ((List.range 4).filter fun t => h.tmask.getLsbD t).map fun t => 4 * (h.first + i) + t

/-- The octets of a hand's cores. -/
def HandRec.octets (h : HandRec) : List Nat := ((List.range h.ncores).map fun i => octetOf (h.first + i)).eraseDups

/-- Check 4 of R209, an unplaceable deal. -/
def State.unplaceable (s : State) (f home : Nat) (hands : List HandRec) : Bool :=
  let named := hands.filter fun h => !h.any
  let ts := named.flatMap HandRec.threads
  hands.any (fun h => !s.handPlaceable f home h) || ts.eraseDups.length != ts.length
    || (named.flatMap HandRec.octets).any fun o =>
      decide (8 < ((named.filter fun h => h.octets.contains o).map fun h => h.lanes).foldl (· + ·) 0)

/-- True while the task queues of a cluster's partition accept and place nothing (R354). -/
def State.queueHeld (s : State) (c : Nat) : Bool := s.clusterHeld c

/-- A rejection: the completion record is written, deal.stat answers 6 for its number, and the poster gets −STATUS (R209,
R222). -/
def rejectDeal (p : Poster) (a : Word) (r : DealRecord) (seat : Option Nat) (status : Nat) : Act Word := do
  let cycle ← look fun s => s.cycle
  answerCompl p.ag (rewriteOwn p.ag.core (r.dw 1)) (complRecord status r.seatField 0 r.seq cycle 0 (p.recAddr a))
  match seat with
  | some k => if r.seq ≠ 0 then upd fun s => s.modSeat k fun x => { x with rejected := x.rejected ++ [r.seq] }
  | none => pure ()
  return -(wordOfNat status)

/-- A duplicate: its record is the original's, written once that has retired (R209). -/
def duplicateDeal (p : Poster) (r : DealRecord) (j : Journal) : Act Word := do
  let compl := rewriteOwn p.ag.core (r.dw 1)
  match j.compl with
  | some c => answerCompl p.ag compl c
  | none => upd fun s => s.modDeal j.deal fun d => { d with duplicates := d.duplicates ++ [compl] }
  return -8

/-- Enters an accepted deal in its queue and its seat's journal. -/
def enterDeal (p : Poster) (a : Word) (r : DealRecord) (seat : Nat) (seq : BitVec 32) (s : State) : State :=
  let reads := r.ranges 0
  let writes := r.ranges 4
  let deps := s.dependsOn seat reads writes
  let next := (s.seat seat).nextSeq
  let d : Deal :=
    { seat := seat, seq := seq, prio := bitsOf (r.dw 0) 47 45, sys := bitOf (r.dw 0) 44
      compl := rewriteOwn p.ag.core (r.dw 1), memb := r.memb, pol := BitVec.ofNat 20 (bitsOf (r.dw 2) 19 0), arg := r.dw 4
      recAddr := p.recAddr a, reads := reads, writes := writes, footprint := r.fp, hands := r.hands, home := r.home
      st := if deps.isEmpty then .ready else .waiting, deps := deps }
  let k := s.nextDeal
  let s1 := { s.setDeal k d with nextDeal := k + 1 }
  let s2 := s1.modSeat seat fun x => { x with
    nextSeq := if next = BitVec.allOnes 32 then 1 else next + 1
    journal := x.journal ++ [{ seq := seq, recAddr := p.recAddr a, deal := k }]
    rejected := x.rejected.filter fun q => q != seq }
  s2.modCluster r.home fun c => { c with queue := c.queue ++ [k] }

/-- True when the removal of a seat has been accepted and takes effect at the next tick (R341, R342). -/
def State.removing (s : State) (f k : Nat) : Bool :=
  ((s.part f).pending.reverse.find? fun x => x.1 == k).any fun x => x.2.isNone

/-- Acceptance at the home queue, in the order of R209; answers what deal.post writes. -/
def acceptDeal (p : Poster) (a : Word) (r : DealRecord) : Act Word := do
  let home := r.home
  match ← look fun s => s.partOfCluster home with
  | none => rejectDeal p a r none 6
  | some f =>
    if p.compute ∧ p.part ≠ some f then return ← rejectDeal p a r none 6
    let seat := 16 * f + r.seatField
    let exists_ ← look fun s => (s.seatsOf f).contains seat && !s.removing f seat
    let x ← look fun s => s.seat seat
    if 64 ≤ (← look fun s => (s.cluster home).queue.length) ∨ (exists_ ∧ 1024 ≤ x.journal.length)
        ∨ (← look fun s => s.queueHeld home) then return -1
    let dseat := if exists_ then some seat else none
    if r.invalid (← look fun s => (s.part f).level) p.tail.isSome then return ← rejectDeal p a r dseat 4
    if !exists_ || (!p.system && (p.seat != some seat || bitOf (r.dw 0) 44)) then return ← rejectDeal p a r dseat 5
    let seq := if r.seq = 0 then x.nextSeq else r.seq
    if seq ≠ x.nextSeq then
      let back := seqBack x.nextSeq seq
      if 2 ^ 31 - 1 < back then return ← rejectDeal p a r dseat 9
      match x.journal.find? fun j => j.seq == seq with
      | some j => return ← duplicateDeal p r j
      | none => return -9
    if ← look fun s => s.unplaceable f home r.hands then return ← rejectDeal p a r dseat 6
    if r.hands.any fun h => decide (32 < groupBanks h.spBytes) then return ← rejectDeal p a r dseat 3
    upd (enterDeal p a r seat seq)
    return seq.zeroExtend 64

/-- LEN and T of a ring record's header, and a header of kind skip (R216). -/
def recLen (h : Word) : Nat := bitsOf h 31 0
def recSize (h : Word) : Nat := 8 + (recLen h + 7) / 8 * 8
def recSkip (h : Word) : Bool := bitsOf h 63 62 == 1

/-- Doublewords of a byte ring as an agent reads them at their homes, and none once one cannot be read. -/
def ringWords (ag : Agent) (a : Word) : Nat → Act (Option (List Word))
  | 0 => return some []
  | n + 1 => do
    match ← engineRead ag a 8 with
    | .error _ => return none
    | .ok v => return (← ringWords ag (a + 8) n).map fun l => wordOfNat v :: l

/-- True when the record at TAIL of a byte ring, behind a skip record where one stands there, is the one that has been read (R216, R382). -/
def ringHolds (ag : Agent) (base : Word) (size : Nat) (tail : Word) (r : DealRecord) : Act Bool := do
  let at_ := fun (t : Word) => base + wordOfNat (t.toNat % size)
  match ← ringWords ag (at_ tail) 1 with
  | some (h :: _) =>
    let t := if recSkip h then tail + wordOfNat (recSize h) else tail
    return (← ringWords ag (at_ t + 8) 24) == some r.w
  | _ => return false

/-- TAIL of the host ring of the record's seat, where a dealer core posts a record that lies in it, or a copy of the record at its TAIL (R382; DESIGN
CHOICE, log 20). -/
def ringTail (ag : Agent) (r : DealRecord) (a : Word) : Act (Option Word) := do
  if !isDealer ag.core then return none
  let cb ← look fun s => match s.partOfCluster r.home with
    | some f => (s.func f).rings.get 0 r.seatField
    | none => 0
  if cb = 0 then return none
  match ← ringWords ag cb 5 with
  | some [head, tail, _, base, log] =>
    let size := 2 ^ (log.toNat % 64)
    if base.toNat ≤ a.toNat ∧ a.toNat < base.toNat + size then return some tail
    if head = tail then return none
    return if ← ringHolds ag base size tail r then some tail else none
  | _ => return none

/-- deal.post (R218). -/
def execDealPost (rd rs1 : Reg) (s : State) :=
  runPlain (.dealPost rd rs1) (do
    let a ← readX rs1
    trapIf (a.toNat % 64 != 0) 16 0x01 a
    release .part
    let th ← me
    let ag ← meAgent
    let r ← readRecord readDoublewords a
    let tail ← ringTail ag r a
    let part ← look fun s => s.partOfCore ag.core
    let ans ← acceptDeal { system := isDealer ag.core || th.sys, compute := !isDealer ag.core, seat := th.seat, part := part
                           ag := ag, tail := tail } a r
    writeX rd ans) s

/-- deal.stat's code (Table 9.12). -/
def DealState.code : DealState → Nat
  | .waiting => 1 | .ready => 2 | .launching => 3 | .running => 4 | .retired => 5

/-- What deal.stat answers for a number of a seat. -/
def State.dealStat (s : State) (seat : Nat) (seq : BitVec 32) : Nat :=
  match (s.unretired seat).find? fun d => d.2.seq == seq with
  | some d => d.2.st.code
  | none =>
    if (s.seat seat).journal.any fun j => j.seq == seq then 5
    else if (s.seat seat).rejected.contains seq then 6 else 0

/-- deal.stat (R218). -/
def execDealStat (rd rs1 : Reg) (s : State) :=
  runPlain (.dealStat rd rs1) (do
    let v ← readX rs1
    let seat ← mySeat
    writeX rd (wordOfNat (← look fun s => s.dealStat seat (v.truncate 32)))) s

/-- hand.exit (R218, R258): the claim's owner first acts as vrel; then the thread's part in its hand ends. -/
def execHandExit (s : State) : Host.Outcome State Fault Refusal :=
  match runPlain .handExit (do
    let t ← cur
    let n ← myCore
    if (← look fun s => (s.claim n).owner) = some t then
      reportHeld
      vdrain
      upd (endClaim n)
    modMe fun th => { th with exits := true }) s with
  | .next s1 => if (s1.thr s.cur).exits then .next (endThread s.cur false s1) else .next s1
  | r => r

/-! ## Placement (R102, R103, R211, R249) -/

/-- The lowest place of a group of k banks on a core (R102). -/
def Core.groupPlace (c : Core) (k : Nat) : Option Nat :=
  ((List.range (48 / k)).map fun i => k * i).find? fun b => (List.range k).all fun j => c.freeBanks.contains (b + j)

/-- The lowest-numbered lane groups of an octet that no hand has reserved (R249). -/
def State.laneGroups (s : State) (o k : Nat) : Option (List Nat) :=
  let taken := (s.octet o).lanes.flatMap fun r => r.groups
  let gs := ((List.range 8).filter fun g => !taken.contains g).take k
  if gs.length = k then some gs else none

/-- True when a thread can be taken by a hand: EMPTY, on a die in service, and neither reserved nor the target of an ADOPT (R211, R379). -/
def State.threadFree (s : State) (t : Nat) : Bool :=
  let th := s.thr t
  s.serves (dieOf (coreOf t)) && th.st == .empty && th.deal.isNone && th.adopt.isNone

/-- Reserves a hand's threads, groups and lane groups from its FIRST, or fails. -/
def takeHand (d seat i : Nat) (h : HandRec) (s : State) : Option State := do
  let ts := h.threads
  if !(ts.all fun t => s.threadFree t) then none
  let s1 := ts.foldl (fun s t => s.modThr t fun th => { th with deal := some d, hand := BitVec.ofNat 3 i }) s
  let k := groupBanks h.spBytes
  let s2 ← (List.range h.ncores).foldlM (fun s j =>
    let n := h.first + j
    if k = 0 then some s
    else (s.core n).groupPlace k |>.map fun b => s.modCore n fun c =>
      { c with groups := c.groups ++ [{ base := b, size := k, seat := seat, deal := d, hand := i, mapped := false }] }) s1
  h.octets.foldlM (fun s o =>
    if h.lanes = 0 then some s
    else (s.laneGroups o h.lanes).map fun gs => s.modOctet o fun y =>
      { y with lanes := y.lanes ++ [{ deal := d, hand := i, groups := gs }] }) s2

/-- Reserves one hand of a deal: from its FIRST, or from the lowest FIRST of the home cluster that fits (R211). -/
def fitHand (d f i : Nat) (s : State) : Option State :=
  let x := s.deal d
  let h := x.hands.getD i {}
  let try_ := fun (a : Nat) =>
    let h1 := { h with first := a }
    (takeHand d x.seat i h1 s).map fun s1 => s1.modDeal d fun y => { y with hands := setL y.hands i h1 }
  if h.any then
    ((List.range 16).map fun j => 16 * x.home + j).findSome? fun a =>
      if s.handPlaceable f x.home { h with first := a, any := false } then try_ a else none
  else try_ h.first

/-- Reserves every hand of a deal together, or nothing: the hands that name their cores first. -/
def fitDeal (d f : Nat) (s : State) : Option State :=
  let hs := (s.deal d).hands
  let ix := List.range hs.length
  let order := (ix.filter fun i => !(hs.getD i {}).any) ++ ix.filter fun i => (hs.getD i {}).any
  order.foldlM (fun s i => fitHand d f i s) s

/-- The ready deals of a queue in the order of consideration: by PRIO, then acceptance. -/
def insertReady (s : State) (d : Nat) : List Nat → List Nat
  | [] => [d]
  | x :: r => if (s.deal x).prio < (s.deal d).prio then d :: x :: r else x :: insertReady s d r
def State.readyDeals (s : State) (c : Nat) : List Nat :=
  ((s.cluster c).queue.filter fun d => (s.deal d).st == .ready).foldl (fun l d => insertReady s d l) []

/-- The first deal that fits, with the deals passed over for it; a deal passed over 16 times bars those of equal or lower
priority behind it (R211). -/
def choose (f : Nat) (s : State) : List Nat → List Nat → List Nat → Option (Nat × State × List Nat)
  | [], _, _ => none
  | d :: r, passed, bars =>
    if bars.any fun b => (s.deal d).prio ≤ (s.deal b).prio then choose f s r passed bars
    else
      match fitDeal d f s with
      | some s1 => some (d, s1, passed)
      | none => choose f s r (passed ++ [d]) (if 16 ≤ (s.deal d).passed then bars ++ [d] else bars)

/-- Drains the victim blocks that have a word in a new group's banks, whole, in ascending set order and the oldest of a set first: a dirty one is
written back under the launching seat's bucket, and each leaves (R103, R223). -/
def drainGroup (n : Nat) (g : Group) : Act Unit := do
  let ag : Agent := { core := n, tid := 4 * n, seat := g.seat, deal := some g.deal, hand := g.hand }
  for e in ← look fun s => (s.core n).l1.toList do
    for v in e.2.victims.filter g.hits do
      progress (writeBack ag { v.blk with seat := g.seat })
      upd fun s => s.modSet n e.1 fun z => { z with victims := z.victims.filter fun o => o != v }

/-- The banks of a drained group read as zero, and its entry stands in the bank maps (R103). -/
def openGroup (n : Nat) (g : Group) (s : State) : State :=
  let s1 := s.modCore n fun c => { c with groups := c.groups.map fun x => if x = g then { x with mapped := true } else x }
  s1.zeroBytes (bankAddr n (0x2000 * g.base)) (0x2000 * g.size)

/-- The groups of a deal, by core. -/
def State.dealGroups (s : State) (d : Nat) : List (Nat × Group) :=
  s.cores.toList.flatMap fun c => (c.2.groups.filter fun g => g.deal == d).map fun g => (c.1, g)

/-- True while some group of a placed deal is not open yet. -/
def State.unopened (s : State) (d : Nat) : Bool := (s.dealGroups d).any fun g => !g.2.mapped

/-- The footprint entry in hand, and how far its copy has come: its next piece lies in one sector. -/
def Deal.fpNext (d : Deal) : Option (Word × Word) := d.footprint[d.fpItem]?

/-- Pins a line of the footprint in a way that its seat owns and that holds no other pinned line of its set, which may lie there already;
a line that would exceed those ways is not pinned (R212, R348). -/
def pinLine (d seat pa : Nat) : Act Unit := do
  let n := pa / Config.channelBytes
  let ix := pa / 64 % 16384
  let line := pa / 64 * 64
  let z ← look fun s => s.slice n
  let lines := z.sets.get [] ix
  let owned := fun (w : Nat) => z.owners.get 9999 w == seat
  let put := fun (ls : List L2Line) => upd fun s => s.modSlice n fun z => { z with sets := z.sets.set ix ls }
  let pin := fun (l : L2Line) => if l.pinned.contains d then l else { l with pinned := l.pinned ++ [d] }
  let way := (List.range 16).find? fun w => owned w && lines.all fun y => y.way != w || y.pinned.isEmpty
  match lines.find? fun l => l.addr == line, way with
  | some l, w =>
    if owned l.way then put (lines.map fun y => if y.addr = line then pin y else y)
    else
      match w with
      | none => return ()
      | some w => put (lines.map fun y => if y.addr = line then pin { y with way := w } else if y.way = w then { y with way := l.way } else y)
  | none, none => return ()
  | none, some w =>
    let dirty := (lines.find? fun y => y.way == w).bind fun v => if v.dirty then some v else none
    charges (← look fun s => (dirty.map fun v => s.lineRequest { core := 0, tid := 99999, seat := seat, deal := some d } n v.seat v.addr 2).toList)
    put ((lines.filter fun y => y.way != w) ++ [pin { addr := line, way := w, seat := seat }])

/-- Unpins the lines of a deal. -/
def unpin (d : Nat) (s : State) : State :=
  { s with slices := s.slices.mapVals fun _ z =>
      { z with sets := z.sets.mapVals fun _ ls => ls.map fun l => { l with pinned := l.pinned.filter fun x => x != d } } }

/-- The agent of a home queue's accesses for a deal. -/
def State.queueAgent (s : State) (d : Nat) : Agent :=
  { core := 16 * (s.deal d).home, tid := 99999, seat := (s.deal d).seat, deal := some d }

/-! ## Retirement (R104, R154, R215, R224) -/

/-- True for the groups of a hand. -/
def Group.ofHand (g : Group) (d h : Nat) : Bool := g.deal == d && g.hand == h

/-- Ends a hand's hold on its threads and lane groups, and changes each of its groups, or takes it away. -/
def endHand (d h : Nat) (f : Group → Option Group) (s : State) : State :=
  let s2 := s.cores.toList.foldl (fun s c =>
    if c.2.groups.any fun g => g.ofHand d h then
      s.modCore c.1 fun k => { k with groups := k.groups.filterMap fun g => if g.ofHand d h then f g else some g }
    else s) s
  let s3 := { s2 with octets := s2.octets.mapVals fun _ y => { y with lanes := y.lanes.filter fun r => !(r.deal == d && r.hand == h) } }
  s3.mapThr fun _ th => if th.st = .empty ∧ th.deal = some d ∧ th.hand.toNat = h then { ares := th.ares } else th

/-- Frees what a hand holds: its groups, whose banks rejoin victim space empty, its reserved threads and lane groups. -/
def freeHand (d h : Nat) (s : State) : State := endHand d h (fun _ => none) s

/-- The home addresses that vector commands and transform requests of a seat have checked and have yet to write (R255, R312). -/
def State.checkedHomes (s : State) (seat : Nat) : List Nat :=
  let mine := fun (t : Nat) => (s.thr t).seat == some seat
  (s.cores.toList.flatMap fun c => (c.2.claim.queue.filter fun q => mine q.tid).flatMap fun q => q.homes.drop q.prog)
    ++ s.octets.toList.flatMap fun o => (o.2.txq.filter fun r => r.seat == seat && r.outcome.isNone).flatMap fun r => r.homes

/-- True while a store that was checked against a group's entry of core n's banks has not performed: one in flight, or one of an engine (R104). -/
def State.storesTo (s : State) (n : Nat) (g : Group) : Bool :=
  let a := bankAddr n (0x2000 * g.base)
  (s.cores.anyVal fun _ c => c.rstores.any fun r => !r.performed && r.seat == g.seat && r.overlaps a (0x2000 * g.size))
    || (s.checkedHomes g.seat).any fun h => decide (a ≤ h) && decide (h < a + 0x2000 * g.size)

/-- The groups of a retired hand whose banks may rejoin victim space, empty (R104). -/
def releaseGroups (d h : Nat) (s : State) : State :=
  s.cores.toList.foldl (fun s0 c =>
    if c.2.groups.any fun g => g.ofHand d h then
      s0.modCore c.1 fun k => { k with groups := k.groups.filter fun g => !(g.ofHand d h) || s.storesTo c.1 g }
    else s0) s

/-- The status of a deal that retires (R199, R384): preset, killed, or with threads killed. -/
def Deal.endStatus (d : Deal) : Nat :=
  if d.status ≠ 0 then d.status.toNat else if d.dead then 2 else if 0 < d.killed then 1 else 0

/-- A deal retires: its completion record, its duplicates', then its dependents are freed and its footprint unpinned
(R215). -/
def completeDeal (d : Nat) : Act Unit := do
  let x ← look fun s => s.deal d
  let ag ← look fun s => s.queueAgent d
  let cycle ← look fun s => s.cycle
  let energy := if x.ran.isEmpty then 0 else x.energy
  let r := complRecord x.endStatus (seatIndex x.seat) x.killed x.seq cycle energy x.recAddr
  writeCompl ag x.compl r
  for a in x.duplicates do writeCompl ag a r
  upd fun s => s.modSeat x.seat fun y => { y with journal := y.journal.map fun j => if j.deal = d then { j with compl := some r } else j }
  upd fun s => (s.modDeal d fun y => { y with st := .retired }).modCluster x.home fun c => { c with queue := c.queue.filter fun k => k != d }
  upd fun s => unpin d { s with deals := s.deals.mapVals fun _ y =>
    let deps := y.deps.filter fun k => k != d
    { y with deps := deps, st := if y.st = .waiting ∧ deps.isEmpty then .ready else y.st } }

/-- True while something of a hand is outstanding: a thread, a remote store, a transform request (R215). -/
def State.handBusy (s : State) (d h : Nat) : Bool :=
  s.handLives d h
    || (s.cores.anyVal fun _ c => c.rstores.any fun r => r.deal == some d && r.hand == h)
    || s.octets.anyVal fun _ y => y.txq.any fun r => r.deal == d && r.hand == h

/-- The engines that a hand's threads started: cluster and engine. -/
def State.handEngines (s : State) (d h : Nat) : List (Nat × Nat) :=
  s.clusters.toList.flatMap fun c => (c.2.engines.toList.filter fun e => e.2.st != .free && e.2.deal == d && e.2.hand == h).map fun e => (c.1, e.1)

/-- A hand that has nothing outstanding retires: its engines are stopped, its lane groups and threads freed and its groups withdrawn from the
bank maps (R104, R154, R215). -/
def retireHand (d i : Nat) (h : HandRec) : Act Unit := do
  for e in ← look fun s => s.handEngines d i do
    if (← look fun s => (s.engine e.1 e.2).st) = .active then stopEngine e.1 e.2
    else upd (freeEngine e.1 e.2)
  upd (endHand d i fun g => some { g with mapped := false })
  upd fun s => s.modDeal d fun y => { y with hands := setL y.hands i { h with retired := true } }

/-- A deal all of whose hands have retired: the release of its stores, then its completion (R215, R224). -/
def retireDeal (d : Nat) : Act Unit := do
  let x ← look fun s => s.deal d
  let ag ← look fun s => s.queueAgent d
  for n in (x.ran.map coreOf).eraseDups do
    cleanWhere { ag with core := n } fun b => b.dirtiedBy (x.ran.filter fun t => coreOf t == n)
  completeDeal d

/-- A hand retires; then, once the stores checked against its groups have performed, their banks rejoin victim space (R104, R215); and with
the last hand the deal retires (R224). -/
def execHandRetire (deal hand : Nat) (s : State) :=
  runEvent (do
    let x ← look fun s => s.deal deal
    match x.hands[hand]? with
    | none => return ()
    | some h =>
      if !h.retired then
        if x.st = .running ∧ !(← look fun s => s.handBusy deal hand) then retireHand deal hand h
      else if x.st = .running ∧ x.hands.all (fun y => y.retired) then retireDeal deal
      else upd (releaseGroups deal hand)) s

/-! ## The launch path (R211 to R214) -/

/-- A footprint that fails: the deal completes with status 0x07 and no hand starts (R212). Its groups are withdrawn, and leave as those of a
hand that retires do (R104). -/
def failFootprint (d : Nat) : Act Unit := do
  let k ← look fun s => (s.deal d).hands.length
  upd fun s => (List.range k).foldl (fun s h => endHand d h (fun g => if g.mapped then some { g with mapped := false } else none) s)
    (s.modDeal d fun y => { y with status := 7, hands := y.hands.map fun h => { h with retired := true } })
  completeDeal d

/-- Copies the next piece of a footprint, of one sector at most, through the home cluster's copy unit (R162, R212). -/
def copyFootprint (d : Nat) : Act Unit := do
  let x ← look fun s => s.deal d
  match x.fpNext with
  | none => return ()
  | some e =>
    let ag ← look fun s => s.queueAgent d
    let va := e.1 + wordOfNat x.fpOff
    let n := min (fpLen e.2 - x.fpOff) (64 - va.toNat % 64)
    match ← translate ag va.toNat needR with
    | .error _ => failFootprint d
    | .ok t =>
      if Config.hostBit ≤ t.pa then failFootprint d
      else
        match ← metered { arb := copyArb x.home, bucket := x.seat, cost := ceilDiv n 32, line := t.pa + 1, who := copyWho d 22 } (readHome ag t.pa n) with
        | .error b =>
          match b with
          | .data sub =>
            let r : Report := { cls := 2, source := sourceOfCluster x.home, cause := 7, sub := sub.toNat, addr := va }
            upd (fun s => report [(s.partOfCluster x.home).getD 0] r s)
          | _ => pure ()
          failFootprint d
        | .ok v =>
          pinLine d x.seat t.pa
          upd fun s => s.cores.toList.foldl (fun s c => c.2.groups.foldl (fun s g =>
            if g.deal = d ∧ (fpMask e.2).testBit g.hand then
              s.storeAll (bankAddr c.1 (0x2000 * g.base + fpDst e.2 + x.fpOff)) (bytesOf n v) else s) s) s
          let done := decide (fpLen e.2 ≤ x.fpOff + n)
          upd fun s => spend 9 n (some d) (s.modDeal d fun y =>
            { y with fpItem := if done then y.fpItem + 1 else y.fpItem, fpOff := if done then 0 else y.fpOff + n })

/-- The groups of a placed deal are drained, then zeroed and entered in the bank maps (R103). -/
def openGroups (d : Nat) : Act Unit := do
  let gs ← look fun s => (s.dealGroups d).filter fun g => !g.2.mapped
  for g in gs do drainGroup g.1 g.2
  upd fun s => gs.foldl (fun s g => openGroup g.1 g.2 s) s

/-- The home queue of a cluster works: a placed deal's groups are opened and its footprint goes on, or the first deal that fits is placed
(R103, R211, R212). -/
def execDealPlacement (cluster : Nat) (s : State) :=
  runEvent (do
    match ← look fun s => s.partOfCluster cluster with
    | none => return ()
    | some f =>
      if ← look fun s => s.queueHeld cluster then return ()
      match ← look fun s => (s.cluster cluster).queue.find? fun d => (s.deal d).st == .launching with
      | some d => if ← look fun s => s.unopened d then openGroups d else copyFootprint d
      | none =>
        match ← look fun s => choose f s (s.readyDeals cluster) [] [] with
        | none => return ()
        | some (d, s1, passed) =>
          upd fun _ => passed.foldl (fun s p => s.modDeal p fun y => { y with passed := y.passed + 1 }) s1
          upd fun s => s.modDeal d fun y => { y with st := .launching }) s

/-- A thread as its hand starts it (R40, R81, R213). -/
def launchThread (d level : Nat) (x : Deal) (i : Nat) (h : HandRec) (kn5 : Bool) (t : Nat) : Thread :=
  let per := popCount 4 h.tmask.toNat
  let rank := (coreOf t - h.first) * per + popCount (t % 4) h.tmask.toNat
  let nthr := h.ncores * per
  { st := .running, pc := h.entry, seat := some x.seat, sys := x.sys, kn5 := kn5, deal := some d
    regs := ⟨[(10, x.arg), (11, wordOfNat i), (12, wordOfNat rank), (13, wordOfNat nthr), (14, x.seq.zeroExtend 64)]⟩
    plevel := BitVec.ofNat 4 level, memb := x.memb, domPol := x.pol, dealSeq := x.seq, nthr := BitVec.ofNat 9 nthr
    hand := BitVec.ofNat 3 i, rank := BitVec.ofNat 8 rank }

/-- The threads of a gang hand start fused within each octet, the lowest core leading (Table 9.7). -/
def fuseHand (h : HandRec) (s : State) : State :=
  if !h.gang then s
  else h.threads.foldl (fun s t =>
    let ms := ((List.range h.ncores).map fun i => h.first + i).filter fun n => octetOf n == octetOf (coreOf t)
    let first := ms.headD 0
    if ms.length < 2 then s
    else s.modThr t fun th => { th with
      gang := true, leader := coreOf t == first, fused := true, gfirst := BitVec.ofNat 3 (first % 8)
      gsize := BitVec.ofNat 4 ms.length, gindex := BitVec.ofNat 3 (coreOf t - first), gend := 0 }) s

/-- The launch acquire of a seat on a core of its hand, and its issue bucket there (R66, R177, R211). -/
def launchAcquire (deal seat : Nat) (issue : Rate) (n : Nat) : Act Unit := do
  let ag : Agent := { core := n, tid := 4 * n, seat := seat, deal := some deal }
  cleanWhere ag fun _ => true
  dropWhere ag (fun _ => true) true
  upd (orSig n seat (BitVec.allOnes 512))
  upd fun s => if (s.arb n).buckets.anyVal fun k _ => k == seat then s
    else s.modArb n fun a => a.setBucket seat (Bucket.fresh issue)

/-- Every hand of a placed deal starts (R211, R213): the seat's launch acquire on each core, its issue bucket, the threads,
and the counts of the deal's domains (R197). -/
def execHandLaunch (deal : Nat) (s : State) :=
  runEvent (do
    let x ← look fun s => s.deal deal
    if x.st ≠ .launching ∨ x.fpNext.isSome ∨ (← look fun s => s.unopened deal) then return ()
    if ← look fun s => s.queueHeld x.home then return ()
    let cfg ← look fun s => (s.seat x.seat).cfg
    let level ← look fun s => ((partOfSeat x.seat).map fun f => (s.part f).level).getD 3
    let ts := x.hands.flatMap HandRec.threads
    for n in (ts.map coreOf).eraseDups do launchAcquire deal x.seat cfg.issue n
    upd fun s => ((List.range x.hands.length).zip x.hands).foldl (fun s h =>
      fuseHand h.2 (h.2.threads.foldl (fun s t => s.setThr t (launchThread deal level x h.1 h.2 cfg.kn5 t)) s)) s
    upd fun s => ts.foldl (fun s t => ((List.range 9).filter fun k => x.memb.getLsbD k).foldl (fun s k =>
      let key := domKey k (coreOf t)
      let y := s.domain deal key
      s.setDomain deal key { y with living := y.living + 1 }) s) s
    upd fun s => s.modDeal deal fun y => { y with st := .running, ran := ts }) s

/-! ## Byte rings (R216, R217) -/

/-- A doubleword of a ring, read at its home. -/
def ringRead (va : Word) : Act Word := do return wordOfNat (← memRead va 8 { scope := .part, pol := .noAlloc })

/-- A doubleword of a ring, written at its home; the core's copy of it is dropped (R114, R217). -/
def ringWrite (va v : Word) : Act Unit := do
  let ag ← meAgent
  let a := rewriteOwn ag.core va
  aligned va 8
  match ← watermark ag a.toNat 8 with
  | .error b => raise 6 va (.bad b)
  | .ok _ => pure ()
  match ← engineWriteCheck ag a 8 with
  | .error f => raise 6 va f
  | .ok home =>
    if home < Config.hostBit then
      dropWhere ag (fun b => b.overlaps a.toNat 8) false
      noteSector ag a.toNat
    match ← engineWrite ag a 8 v.toNat with
    | .error f => raise 6 va f
    | .ok _ => ownResv ag home 8

/-- A ring's control block: HEAD, TAIL, RES, BASE, and SIZE (Table 9.11). -/
structure RingBlock where
  head : Word
  tail : Word
  res : Word
  base : Word
  size : Nat
deriving DecidableEq, Repr

/-- Reads and checks a control block. -/
def ringBlock (c : Word) : Act RingBlock := do
  trapIf (c.toNat % 64 != 0) 16 0x01 c
  match ← homeCheck (← meAgent) c needR with
  | .error f => raise 5 c f
  | .ok h =>
    match h with
    | .cm _ _ => trap 16 0x02 c
    | _ => trapIf (decide (Config.hostBit ≤ h.addr) && decide (h.addr < scratchBase)) 16 0x02 c
  let w ← (List.range 8).mapM fun i => ringRead (c + wordOfNat (8 * i))
  let d := fun (i : Nat) => w.getD i 0
  let log := bitsOf (d 4) 5 0
  trapIf (decide (log < 12) || decide (30 < log) || bitsOf (d 4) 63 6 != 0 || d 5 != 0 || d 6 != 0 || d 7 != 0
    || (d 3).toNat % 2 ^ log != 0) 16 0x02 c
  return { head := d 0, tail := d 1, res := d 2, base := d 3, size := 2 ^ log }

/-- A header of a reserved kind. -/
def recReserved (h : Word) : Bool := decide (2 ≤ bitsOf h 63 62)

/-- rng.push (R217): it reserves once its turn has come, so that its whole effect is one. -/
def execRngPush (rd rs1 rs2 : Reg) (s : State) :=
  runPlain (.rngPush rd rs1 rs2) (do
    let c ← readX rs1
    let a ← readX rs2
    let b ← ringBlock c
    let att ← plainAtt
    let h := wordOfNat (← memRead a 8 att)
    let t := recSize h
    trapIf (decide (4096 < t) || decide (b.size / 2 < t)) 16 0x03 c
    let body ← readDoublewords (a + 8) ((t - 8) / 8)
    release .part
    let r := b.res
    let off := r.toNat % b.size
    let skip := if b.size - off < t then b.size - off else 0
    let need := wordOfNat (t + skip)
    if b.size < (r + need - b.tail).toNat then writeX rd (-1)
    else
      if b.head ≠ r then hold
      let at_ := (off + skip) % b.size
      ringWrite (c + 0x10) (r + need)
      if skip ≠ 0 then ringWrite (b.base + wordOfNat off) (wordOfNat (putAt 1 62 + (skip - 8)))
      for x in (List.range (t / 8)).zip (h :: body) do
        ringWrite (b.base + wordOfNat (at_ + 8 * x.1)) x.2
      ringWrite c (r + need)
      writeX rd (wordOfNat at_)) s

/-- What stands at TAIL once the skip records before it have been passed. -/
inductive RingNext where
  | empty (tail : Word)
  | record (tail : Word) (h : Word)
  | corrupt (tail : Word)

/-- Passes skip records, by fuel: each takes 8 bytes or more of those published. -/
def passSkips (b : RingBlock) : Nat → Word → Act RingNext
  | 0, tail => return .corrupt tail
  | f + 1, tail => do
    if tail = b.head then return .empty tail
    let off := tail.toNat % b.size
    let h ← ringRead (b.base + wordOfNat off)
    if recReserved h ∨ b.size < off + recSize h then return .corrupt tail
    if recSkip h then passSkips b f (tail + wordOfNat (recSize h))
    else return .record tail h

/-- The effect of rng.pop, which copies the record to `dst`, and of rng.skip (R217). -/
def ringPop (rd : Reg) (c : Word) (dst : Option Word) : Act Unit := do
  let b ← ringBlock c
  let next ← passSkips b ((b.head - b.tail).toNat / 8 + 1) b.tail
  match next with
  | .empty t =>
    if t ≠ b.tail then
      release .part
      ringWrite (c + 8) t
    writeX rd (-1)
  | .corrupt t =>
    if t ≠ b.tail then
      release .part
      ringWrite (c + 8) t
    trapAll 16 0x04 c
  | .record t h =>
    release .part
    match dst with
    | some a =>
      for i in List.range (recSize h / 8) do
        ringWrite (a + wordOfNat (8 * i)) (← ringRead (b.base + wordOfNat (t.toNat % b.size + 8 * i)))
    | none => pure ()
    ringWrite (c + 8) (t + wordOfNat (recSize h))
    writeX rd (wordOfNat (recLen h))

def execRngPop (rd rs1 rs2 : Reg) (s : State) :=
  runPlain (.rngPop rd rs1 rs2) (do
    let c ← readX rs1
    let a ← readX rs2
    ringPop rd c (some a)) s

def execRngSkip (rd rs1 : Reg) (s : State) :=
  runPlain (.rngSkip rd rs1) (do
    let c ← readX rs1
    ringPop rd c none) s

end Sys2Proof.Machine
end

