-- ==== Sys2Proof/Machine/System.lean ====
section
/-! DEFINITION. The system forms trap, xret, idle and yield (R75, R76), gangs (R89 to R95), and the traps of words that do not
decode or cannot be fetched (R26, R27, R329). -/

namespace Sys2Proof.Machine

/-- trap (R76): the software trap with the code as subcause and rs1 as XVAL. -/
def execTrap (code : BitVec 5) (rs1 : Reg) (s : State) :=
  runInstr (.trap code rs1) (do
    let v ← readX rs1
    trap 8 (code.zeroExtend 8) v) s

/-- xret (R76). -/
def execXret (s : State) := runInstr .xret (trapReturn (encode .xret)) s

/-- idle (R76): a pending wake completes it at once with reason 0; otherwise the thread is IDLE, for rs1 cycles at most
where that is nonzero, until a wake event gives the reason; a thread that is STOPPING stops at once instead (Table 3.1). A follower's
idle writes its leader's reason (R92). -/
def execIdle (rd rs1 : Reg) (s : State) :=
  runPlain (.idle rd rs1) (do
    let th ← me
    if th.follows then writeX rd ((th.fq.head?.map fun u => u.val).getD 0)
    else
      let v ← readX rs1
      match th.wakeR with
      | some r =>
        modMe fun th => { th with wake := false }
        writeX rd (r.zeroExtend 64)
      | none =>
        if th.wake then
          modMe fun th => { th with wake := false }
          writeX rd 0
        else
          holdKeep fun s =>
            if (s.thr s.cur).st = .stopping then beginSave s.cur (s.modThr s.cur fun th => { th with st := .stopped })
            else s.modThr s.cur fun th =>
              { th with st := .idle, deadline := if v = 0 then none else some (s.cycle + v.toNat) }) s

/-- yield (R76): for eight cycles, or until another thread of the core has issued, those that are eligible go first. It acts
only in a gang's leader (R92). -/
def execYield (s : State) :=
  runPlain .yield (modMe fun th => if th.follows then th else { th with defer := s.cycle + 8 }) s

/-- The limit of an idle has passed (R76). -/
def execIdleTimeout (tid : Nat) (s : State) :=
  runEvent (do
    match (← look fun s => (s.thr tid).st), (← look fun s => (s.thr tid).deadline) with
    | .idle, some d => upd fun s => if d ≤ s.cycle then wakeThread tid 4 false s else s
    | _, _ => pure ()) s

/-- The octet core numbers of a fuse descriptor: FIRST and SIZE (R90). -/
def fuseFirst (d : BitVec 7) : Nat := (d.extractLsb' 4 3).toNat
def fuseSize (d : BitVec 7) : Nat := (d.extractLsb' 0 4).toNat

/-- The threads a fuse of thread t with a descriptor names (R90). -/
def fuseMembers (t : Nat) (d : BitVec 7) : List Nat :=
  (List.range (fuseSize d)).map fun i => 4 * (8 * octetOf (coreOf t) + fuseFirst d + i) + t % 4

/-- fuse (R90): refused inside a gang (−3) and for an invalid descriptor (−2); otherwise it waits until it resolves, which
its event makes, and then writes its index, −1 or −4. A dealer core lies in no octet: no descriptor is valid there. -/
def execFuse (rd rs1 rs2 : Reg) (s : State) :=
  runPlain (.fuse rd rs1 rs2) (do
    let v ← readX rs1
    let l ← readX rs2
    let th ← me
    let c := coreOf (← cur) % 8
    let d : BitVec 7 := v.truncate 7
    match th.fuseAns with
    | some a => writeX rd a
    | none =>
      if th.gang then writeX rd (-3)
      else if isDealer (coreOf (← cur)) ∨ fuseSize d < 2 ∨ 8 < fuseSize d ∨ 8 < fuseFirst d + fuseSize d ∨ c < fuseFirst d
          ∨ fuseFirst d + fuseSize d ≤ c then writeX rd (-2)
      else
        holdKeep fun s => s.modThr s.cur fun th =>
          match th.fuseWait with
          | some _ => th
          | none => { th with fuseWait := some (d, if l = 0 then 0 else s.cycle + l.toNat) }) s

/-- True once a fuse's limit has passed; 0 sets none (R90). -/
def State.fuseLate (s : State) (limit : Nat) : Bool := limit != 0 && decide (limit ≤ s.cycle)

/-- True when every member that a fuse of thread t names waits with the same descriptor, within its limit (R90). -/
def State.fuseMet (s : State) (t : Nat) (d : BitVec 7) : Bool :=
  (fuseMembers t d).all fun m =>
    (s.thr m).st == .running && (s.thr m).fuseAns.isNone && match (s.thr m).fuseWait with
      | some w => w.1 == d && !s.fuseLate w.2
      | none => false

/-- Resolves the fuse of thread tid (R90): once its limit has passed it is refused; else, when every member waits with the same
descriptor, all of them join or, where one runs another hand, all are refused. -/
def execFuseResolve (tid : Nat) (s : State) :=
  runEvent (do
    let th ← look fun s => s.thr tid
    match th.fuseWait, th.fuseAns with
    | some (d, limit), none =>
      let ms := fuseMembers tid d
      if ← look fun s => s.fuseLate limit then
        upd fun s => s.modThr tid fun x => { x with fuseAns := some (-1), waiting := false }
      else if ← look fun s => s.fuseMet tid d then
        let same ← look fun s => ms.all fun m =>
          (s.thr m).deal == th.deal && (s.thr m).hand == th.hand && (s.thr m).seat == th.seat
        if same then
          upd fun s => ms.foldl (fun s m => s.modThr m fun x =>
            let i := coreOf m % 8 - fuseFirst d
            { x with
              gang := true, leader := i == 0, fused := true, gfirst := d.extractLsb' 4 3, gsize := d.extractLsb' 0 4
              gindex := BitVec.ofNat 3 i, gend := 0, fuseAns := some (wordOfNat i), waiting := false }) s
        else
          upd fun s => ms.foldl (fun s m => s.modThr m fun x => { x with fuseAns := some (-4), waiting := false }) s
    | _, _ => pure ()) s

/-- split (R93): the member leaves its gang; a leader's split is forwarded like any unit. Outside a gang it does nothing. -/
def execSplit (s : State) :=
  runPlain .split (do
    let th ← me
    let t ← cur
    if th.gang then
      upd fun s => forwardUnit t { pc := th.pc, next := th.pc + 4, words := [encode .split], val := 0 } s
      modMe (leaveGang 1)) s

/-- The next unit in flight reaches follower tid, when its queue of 8 words has room (R91). -/
def execGangUnitArrival (tid : Nat) (s : State) :=
  runEvent (do
    let th ← look fun s => s.thr tid
    match th.flight with
    | u :: r =>
      if (th.fq.map fun x => x.words.length).foldl (· + ·) 0 + u.words.length ≤ 8 then
        upd fun s => s.setThr tid { th with flight := r, fq := th.fq ++ [u], waiting := false }
    | [] => pure ()) s

/-- A core wakes (R77): one marked STALE flushes its protection lookaside buffer before it issues again (R333). -/
def wakeCore (n : Nat) (s : State) : State :=
  if (s.core n).stale then s.modCore n fun c => { c with plb := [], stale := false } else s

/-- True when some thread of the core is RUNNING or STOPPING: the core does not sleep (R77). -/
def State.awake (s : State) (n : Nat) : Bool :=
  (threadsOf n).any fun t => (s.thr t).st == .running || (s.thr t).st == .stopping || (s.thr t).st == .resuming

def execCoreWake (core : Nat) (s : State) :=
  runEvent (do if ← look fun s => s.awake core then upd (wakeCore core)) s

/-- A word that fails its decoding checks traps and has no other effect (R26, R27): XINST is the word. -/
def execIllegalInstruction (sub : BitVec 8) (val : Word) (s : State) : Host.Outcome State Fault Refusal :=
  .next (takeTrap s.cur (val.truncate 32) 1 sub val s)

/-- A word that cannot be fetched traps (R27, R329); XINST, whose word is not known, takes a free value (DESIGN CHOICE, log 3). -/
def execFetchFault (cause sub : BitVec 8) (va : Word) (s : State) : Host.Outcome State Fault Refusal :=
  let inst : IWord := (Config.freeWord s.free).truncate 32
  let s1 := takeTrap s.cur inst cause sub va { s with free := s.free + 1 }
  .next (if cause = 7 then reportTrap s.cur 7 sub va s1 else s1)

end Sys2Proof.Machine
end

