-- ==== Sys2Proof/Machine/Shootdown.lean ====
section
/-! DEFINITION. The requests of XLAT_REQ (R331 to R333): what a page, rights or flush request drops when it starts, and
what it waits for before it completes. -/

namespace Sys2Proof.Machine

/-- log2 of the page size of a SIZE code (Table 18.6). -/
def reqBits (size : BitVec 2) : Nat := if size = 0 then 16 else if size = 1 then 21 else 30
/-- First address and bytes of the page that a page request names. -/
def reqPage (vpage : BitVec 40) (size : BitVec 2) : Nat × Nat :=
  let n := 2 ^ reqBits size
  (vpage.toNat * 65536 / n * n, n)

/-- True when an access of core n is outstanding (R333): a remote store on its way, or a command that its threads have pushed to an
engine: the lane pool, the row array with its operations and runs, a read binding's refill, a transform or a copy; or a post on its behalf. -/
def State.outstanding (s : State) (n : Nat) : Bool :=
  let c := s.core n
  !c.rstores.isEmpty || (s.posts.any fun p => p.core == n) || !c.claim.queue.isEmpty || !c.mx.ldbs.isEmpty || !c.mx.go.isEmpty || !c.mx.enter.isEmpty
    || (!isDealer n && (s.runOctet (octetOf n)).isSome)
    || ((s.octet (octetOf n)).ops.any fun p => p.reqs.any fun g => coreOf g.tid == n)
    || ((threadsOf n).any fun t => (s.thr t).refills && (s.thr t).binds.anyVal fun _ b =>
      decide (28 ≤ b.reg.toNat) && !b.exh && decide (b.next + b.arrived.length < b.count) && decide (b.arrived.length < 32))
    || ((s.octet (octetOf n)).loads.any fun l => coreOf l.tid == n) || ((s.octet (octetOf n)).txq.any fun r => coreOf r.tid == n)
    || (s.cluster (clusterOf n)).engines.anyVal fun _ e => e.st == .active && coreOf e.tid == n

/-- The cores with state that a partition covers, and its translation units. -/
def State.coresOf (s : State) (f : Nat) : List Nat := (s.cores.toList.map fun c => c.1).filter fun n => s.covers f n
def State.clustersOf (s : State) (f : Nat) : List Nat :=
  (s.clusters.toList.map fun c => c.1).filter fun c => decide (c < 128) && s.covers f (16 * c)

/-- Every core that a partition covers. -/
def State.allCores (s : State) (f : Nat) : List Nat := (List.range ((s.part f).nodes * 64)).map fun i => (f - 1) * 64 + i

/-- A request starts at a core's doorbell: it is busy until the request completes. -/
def startReq (n : Nat) (c : Command) (s : State) : State :=
  s.modCore n fun x => { x with xreqBusy := true, xreq := some c }

/-- A vector command in execution starts its checks anew (R332); one that has stored elements first stores the others, unless its owner is stopped. -/
def VCmd.restart (q : VCmd) (runs : Bool) : VCmd :=
  if q.homes.isEmpty then q
  else if q.prog = 0 then { q with homes := [], data := [] }
  else if runs then q
  else { q with homes := q.homes.take q.prog }

/-- A transform request in execution starts anew, unless it has written bytes (R332). -/
def TxReq.restart (r : TxReq) : TxReq :=
  if r.outcome.isSome ∨ r.put ≠ 0 then r else { r with got := [], homes := [], out := none }

/-- The vector commands in execution on some cores start their checks anew. -/
def restartVector (reach : List Nat) (s : State) : State :=
  { s with cores := s.cores.mapVals fun n c =>
      if reach.contains n then { c with claim := { c.claim with queue := c.claim.queue.map fun q => q.restart (s.poolRuns n) } } else c }

/-- The accesses that engines have checked for the threads of some cores, and have not made, start anew (R332). -/
def restartChecks (reach : List Nat) (s : State) : State :=
  let s1 := restartVector reach s
  { s1 with octets := s1.octets.mapVals fun _ y =>
      { y with txq := y.txq.map fun r => if reach.contains (coreOf r.tid) then r.restart else r } }

/-- True while an engine has stores to make for a thread of core n under checks made before. -/
def State.writesUnderWay (s : State) (n : Nat) : Bool :=
  ((s.claim n).queue.any fun q => decide (0 < q.prog) && decide (q.prog < q.homes.length))
    || (!isDealer n && (s.octet (octetOf n)).txq.any fun r => coreOf r.tid == n && decide (0 < r.put) && r.outcome.isNone)

/-- Drops the translations of a page in every unit, whose walks for it restart, its lines in every instruction cache, and the run-ahead
buffers that reach into it (R85, R86, R332). -/
def dropPage (base size : Nat) (s : State) : State :=
  let overlaps := fun (a n : Nat) => decide (a < base + size) && decide (base < a + n)
  { s with
    clusters := s.clusters.mapVals fun _ c => { c with
      xlat := c.xlat.filter fun e => !overlaps e.page e.size
      walkq := c.walkq.map fun w => if overlaps w.page w.size then { w with running := false } else w }
    threads := s.threads.mapVals fun _ th =>
      if overlaps th.aheadAt.toNat (4 * th.ahead.length) then { th with ahead := [] } else th
    cores := s.cores.mapVals fun _ c => { c with icache := c.icache.mapVals fun _ ls => ls.filter fun l => !overlaps l.va 64 } }

/-- A page request starts (R332): entries and code lines of the page go at once; its blocks go before it completes. -/
def execXlatReqPage (core : Nat) (vpage : BitVec 40) (size : BitVec 2) (s : State) :=
  runEvent (upd fun s =>
    if (s.core core).xreq.isSome ∨ isDealer core ∨ size = 3 then s
    else
      let p := reqPage vpage size
      startReq core (.xlatPage core vpage size) (restartChecks (s.cores.toList.map fun c => c.1) (dropPage p.1 p.2 s))) s

/-- A core's buffer entries for a domain and a seat, or every seat where `all`, go (R332). -/
def dropRights (n f : Nat) (dom : BitVec 16) (all : Bool) (seat : BitVec 4) (s : State) : State :=
  s.modCore n fun c =>
    { c with
      plb := c.plb.filter fun e => !(e.dom == dom && e.seat / 16 == f && (all || e.seat % 16 == seat.toNat))
      plbShoots := (c.plbShoots + 1) % 65536 }

/-- A rights request starts (R332): it reaches every core of the requesting partition; a sleeping core with nothing
outstanding is marked STALE instead (R333). -/
def execXlatReqRights (core : Nat) (dom : BitVec 16) (all : Bool) (seat : BitVec 4) (s : State) :=
  runEvent (upd fun s =>
    if (s.core core).xreq.isSome ∨ isDealer core then s
    else
      let s1 := match s.partOfCore core with
        | none => s
        | some f => restartChecks (s.coresOf f) ((s.coresOf f).foldl (fun s n =>
            if s.awake n || s.outstanding n then dropRights n f dom all seat s
            else s.modCore n fun c => { c with stale := true }) s)
      startReq core (.xlatRights core dom all seat) s1) s

/-- A partition flush starts (R332): every entry of the partition's translation units and buffers goes. -/
def execXlatReqFlush (core : Nat) (s : State) :=
  runEvent (upd fun s =>
    if (s.core core).xreq.isSome ∨ isDealer core then s
    else
      let s1 := match s.partOfCore core with
        | none => s
        | some f =>
          let s1 := (s.clustersOf f).foldl (fun s c => s.modCluster c fun x => { x with xlat := [] }) s
          restartChecks (s.coresOf f)
            ((s.allCores f).foldl (fun s n => s.modCore n fun c => { c with plb := [], plbShoots := (c.plbShoots + 1) % 65536 }) s1)
      startReq core (.xlatFlush core) s1) s

/-- True while a core has a store that was checked under a page's domain, cluster memory's included, and has yet to perform. An open
packet is translated anew when it closes. -/
def Core.pageStores (c : Core) : Bool :=
  c.rstores.any fun r => !r.performed && (decide (r.addr < ownBase) || (decide (cmBase ≤ r.addr) && decide (r.addr < dealerBase)))

/-- Writes back and drops the blocks of a page on every core, without waking it (R332). -/
def dropPageBlocks (base size : Nat) : List Nat → Act Unit
  | [] => pure ()
  | n :: r => do
    let ag : Agent := { core := n, tid := 4 * n, seat := 0, deal := none }
    cleanWhere ag fun b => b.overlaps base size
    dropWhere ag (fun b => b.overlaps base size) false
    dropPageBlocks base size r

/-- A request completes (R331, R332): every core has acted and every access made under a dropped entry has performed; BUSY
clears and the count rises. -/
def execShootdownComplete (core : Nat) (s : State) :=
  runEvent (do
    match ← look fun s => (s.core core).xreq with
    | none => return ()
    | some r =>
      let cores ← look fun s => s.cores.toList.map fun c => c.1
      let reach ← match r with
        | .xlatPage _ vpage size => do
          let p := reqPage vpage size
          dropPageBlocks p.1 p.2 cores
          pure cores
        | _ => look fun s => ((s.partOfCore core).map s.coresOf).getD []
      upd fun s => restartVector (reach.filter fun n => !s.poolRuns n) s
      if ← look fun s => reach.any fun n => (s.core n).pageStores || s.writesUnderWay n then return ()
      upd fun s => s.modCore core fun c =>
        { c with xreq := none, xreqBusy := false, xreqCount := (c.xreqCount + 1) % 2 ^ 32 }) s

end Sys2Proof.Machine
end

