-- ==== Sys2Proof/Machine/Sharing.lean ====
section
/-! DEFINITION. The tick (R342, R345, R348): configurations that take effect, the refill of every bucket, the lending and
reclaim of slice ways; aged requests (R351), the scrub of released frames and late write-backs (R334), and uncorrectable
errors (R353). -/

namespace Sys2Proof.Machine

/-! ## Refill (R345) -/

/-- One bucket at the first cycle of a tick, with the kitty's count: it repays, takes RATE, and its excess goes to the kitty
where it showed no demand in the tick just ended. -/
def Bucket.refill (x : Bucket) (k : Nat) : Bucket × Nat :=
  let pay := min x.debt (ceilDiv x.rate 2)
  let tok := x.tok + x.rate - pay
  let excess := tok - x.depth
  ({ x with
      debt := x.debt - pay, tok := min tok x.depth, demand := false, lastDemand := x.demand
      waited := false, waits := (x.waits + b2n x.waited) % 65536 },
   k + pay + (if x.demand then 0 else excess))

/-- The refill of an arbiter of capacity `cap`, its buckets in ascending order. -/
def Arb.refill (cap : Nat) (a : Arb) : Arb :=
  let r := a.buckets.toList.foldl (fun (acc : List (Nat × Bucket) × Nat) p =>
    let y := p.2.refill acc.2
    (acc.1 ++ [(p.1, y.1)], y.2)) ([], a.kitty)
  { a with buckets := ⟨r.1⟩, kitty := min r.2 cap, moved := 0, aged := 0 }

/-! ## Slice ways (R348) -/

/-- The seat that owns, and that holds, a way; 9999 stands for the kitty. -/
def Slice.owner (z : Slice) (w : Nat) : Nat := z.owners.get 9999 w
def Slice.holder (z : Slice) (w : Nat) : Nat := z.holders.get 9999 w

/-- A lent way whose owner showed demand is marked for reclaim; a way already marked is not marked anew. -/
def Slice.marks (z : Slice) (w : Nat) : Bool :=
  !z.reclaim.contains w && z.owner w != 9999 && z.holder w != z.owner w && z.demand.contains (z.owner w)
/-- True for a way in which a line is pinned: it counts as held by its owner (R212). -/
def Slice.holdsPinned (z : Slice) (w : Nat) : Bool := z.sets.anyVal fun _ ls => ls.any fun l => l.way == w && !l.pinned.isEmpty
/-- Ways of the kitty at a boundary: its own, and those of owners without demand that are not marked. -/
def Slice.inKitty (z : Slice) (w : Nat) : Bool :=
  !z.reclaim.contains w && !z.holdsPinned w && (z.owner w == 9999 || !z.demand.contains (z.owner w))

/-- Numbers in ascending order. -/
def insertNat (n : Nat) : List Nat → List Nat
  | [] => [n]
  | x :: r => if n ≤ x then n :: x :: r else x :: insertNat n r
def sortNat (l : List Nat) : List Nat := l.foldl (fun a n => insertNat n a) []
/-- A list of seats turned so that it starts after seat `k`. -/
def turnAfter (k : Nat) (l : List Nat) : List Nat := (l.filter fun x => k < x) ++ l.filter fun x => x ≤ k

/-- A slice at a tick boundary: reclaimed ways return, lent ways that their owner wants are marked, and the kitty's ways
are given one at a time to the seats that showed demand. -/
def Slice.boundary (z : Slice) : Slice :=
  let takers := turnAfter z.lastGiven (sortNat z.demand)
  let kitty := (List.range 16).filter z.inKitty
  let given := ((List.range kitty.length).zip kitty).map fun x => (x.2, takers.getD (x.1 % takers.length) 9999)
  let holder := fun (w : Nat) =>
    if z.reclaim.contains w || z.holdsPinned w then z.owner w
    else if z.inKitty w then lookupCells 9999 w given
    else z.holder w
  { z with
    holders := ⟨((List.range 16).filter fun w => holder w != 9999).map fun w => (w, holder w)⟩
    reclaim := (List.range 16).filter z.marks
    demand := []
    lastGiven := (given.getLast?.map fun x => x.2).getD z.lastGiven }

/-- The lines that other seats hold in a slice's ways marked for reclaim. -/
def Slice.reclaimed (z : Slice) (l : L2Line) : Bool := z.reclaim.contains l.way && l.seat != z.owner l.way && l.pinned.isEmpty

/-- Takes lines out of slice n. -/
def dropLines (n : Nat) (p : L2Line → Bool) (s : State) : State :=
  s.modSlice n fun z => { z with sets := z.sets.mapVals fun _ ls => ls.filter fun l => !p l }

/-- A slice's reclaim in the tick after the mark: it drops the clean lines that other seats hold in the way, and writes a dirty one back under the channel
bucket of the seat that dirtied it, one that can pay where there is one (R348). -/
def reclaimLines (n : Nat) (s : State) : Host.Outcome State Fault Refusal :=
  runEvent (do
    upd fun s => dropLines n (fun l => !l.dirty && (s.slice n).reclaimed l) s
    let z ← look fun s => s.slice n
    let dirty := (z.sets.toList.flatMap fun x => x.2).filter z.reclaimed
    let req := fun (s : State) (l : L2Line) => s.lineRequest { core := 0, tid := 99998, seat := l.seat, deal := none } n l.seat l.addr 2
    let pays ← look fun s => dirty.find? fun l => s.grants (req s l)
    match (match pays with | some l => some l | none => dirty.head?) with
    | none => return ()
    | some l =>
      charges [← look fun s => req s l]
      upd (dropLines n (fun x => x.addr == l.addr))) s

/-! ## Configurations that take effect (R128, R342) -/

/-- A bucket under a RATE and DEPTH: a new one is full, another keeps min(TOK, DEPTH). -/
def Arb.configure (b : Nat) (r : Rate) (a : Arb) : Arb :=
  if a.buckets.anyVal fun k _ => k == b then
    let x := a.bucket b
    a.setBucket b { x with rate := r.rate, depth := r.depth, tok := min x.tok r.depth }
  else a.setBucket b (Bucket.fresh r)

/-- The level-3 nodes of partition f. -/
def State.nodesOf (s : State) (f : Nat) : List Nat := (List.range (s.part f).nodes).map fun i => f - 1 + i

/-- Ownership of node index i's ways: the seats' WAYS from the lowest, in seat order. -/
def State.wayOwners (s : State) (f i : Nat) : NMap Nat :=
  let seq := (s.seatsOf f).flatMap fun k => List.replicate ((s.seat k).cfg.ways.getD i 0) k
  ⟨(List.range 16).zip seq⟩

/-- The slices of partition f take the ownership that its seats' configurations give; a way whose owner changes is held
by the new one. -/
def ownWays (f : Nat) (s : State) : State :=
  (List.range (s.part f).nodes).foldl (fun s i =>
    let o := s.wayOwners f i
    s.modSlice (f - 1 + i) fun z =>
      let hold := fun (w : Nat) => if o.get 9999 w = z.owner w then z.holder w else o.get 9999 w
      { z with
        owners := o, holders := ⟨((List.range 16).filter fun w => hold w != 9999).map fun w => (w, hold w)⟩
        reclaim := z.reclaim.filter fun w => o.get 9999 w == z.owner w }) s

/-- The tracks that enter a seat's window from another's await formatting (R128). -/
def claimTracks (k c : Nat) (w : Span) (s : State) : State :=
  s.modCluster c fun x => { x with tracks := (List.range w.count).foldl (fun m i =>
    let t := m.get {} (w.base + i)
    m.set (w.base + i) { t with win := some k, formatting := t.formatting || (t.win.isSome && t.win != some k) }) x.tracks }

/-- The tracks of a seat that ends: whichever seat has them next, they are formatted for it. -/
def leaveTracks (k : Nat) (s : State) : State :=
  { s with clusters := s.clusters.mapVals fun _ x =>
      { x with tracks := x.tracks.mapVals fun _ t => if t.win = some k then { t with win := some 9999 } else t } }

/-- A seat's configuration takes effect: its buckets, its tracks; none removes the seat. -/
def applySeat (f k : Nat) (cfg : Option SeatCfg) (s : State) : State :=
  match cfg with
  | none =>
    leaveTracks k { s with
      seats := s.seats.erase k
      arbs := s.arbs.mapVals fun _ a => { a with buckets := a.buckets.erase k } }
  | some c =>
    let n := (s.part f).nodes
    let s1 := s.modSeat k fun x => { x with cfg := c }
    let s2 := { s1 with arbs := s1.arbs.mapVals fun i a =>
      if i < Config.cores ∧ s.covers f i ∧ a.buckets.anyVal fun j _ => j == k then a.configure k c.issue else a }
    let s3 := (List.range n).foldl (fun s i => s.modArb (channelArb (f - 1 + i)) (Arb.configure k (c.channel.getD i {}))) s2
    let s4 := (List.range (4 * n)).foldl (fun s i =>
      claimTracks k (4 * (f - 1) + i) (c.tracks.getD i {})
        ((s.modArb (injectArb (4 * (f - 1) + i)) (Arb.configure k c.injection)).modArb (copyArb (4 * (f - 1) + i))
          (Arb.configure k (c.copy.getD i {})))) s3
    (s4.modArb hostInArb (Arb.configure k c.hostIn)).modArb hostOutArb (Arb.configure k c.hostOut)

/-- The channels of a range of frames. -/
def spanChannels (w : Span) : List Nat :=
  (List.range 32).filter fun n => decide (w.base * 65536 < (n + 1) * Config.channelBytes) &&
    decide (n * Config.channelBytes < (w.base + w.count) * 65536) && w.count != 0

/-- A window that has been closed takes its borrower's buckets with it, at the channels to which no other window leads the borrower. -/
def closeWindow (w : RoWindow) (s : State) : State :=
  (spanChannels w.frames).foldl (fun s n =>
    if (s.borrows w.borrower).any fun v => (spanChannels v.frames).contains n then s
    else s.modArb (channelArb n) fun a => { a with buckets := a.buckets.erase (2000 + w.borrower) }) s

/-- A partition's configuration takes effect: CMBASE and CMSIZE by cluster, its windows and their borrower buckets. -/
def applyPart (f : Nat) (cs : List Span) (ws : List RoWindow) (s : State) : State :=
  let num := fun (g : Span → Nat) => ((List.range cs.length).zip cs).map fun x => (4 * (f - 1) + x.1, g x.2)
  let old := (s.part f).windows
  let s1 := s.modPart f fun p => { p with cmbase := ⟨num fun x => x.base⟩, cmsize := ⟨num fun x => x.count⟩, windows := ws }
  let s2 := old.foldl (fun s w => closeWindow w s) s1
  ws.foldl (fun s w => (spanChannels w.frames).foldl (fun s n => s.modArb (channelArb n) (Arb.configure (2000 + w.borrower) w.bucket)) s) s2

/-- The seat to which octet o's row array is allotted. -/
def State.arrayHolder (s : State) (o : Nat) : Option Nat :=
  (s.seats.toList.find? fun k => s.holdsArray k.1 o).map fun k => k.1

/-- A row array that is allotted to a seat (R273, R274, R307): its halves and entries are empty, half 0 is active, and the registers of the
octet's reset domain are reset, TX_STAT's counts among them (R318). What a core holds, its context and PASSES, stays (R275, R292). -/
def freshArray (o : Nat) (s : State) : State :=
  let s1 := s.modOctet o fun y =>
    { lanes := y.lanes, sems := y.sems, txq := y.txq, rampAt := s.cycle, frame := s.cycle / 8 }
  (List.range 8).foldl (fun s i => s.modCore (8 * o + i) fun c => { c with mx := { ctx := c.mx.ctx, passes := c.mx.passes } }) s1

/-- The configurations accepted for a partition in the tick just ended take effect. A seat that was removed and configured anew in one tick is
another seat, to which its arrays are allotted anew. -/
def applyConfigs (f : Nat) (s : State) : State :=
  let p := s.part f
  let s1 := s.modPart f fun p => { p with pending := [], pendingCfg := none }
  let s2 := match p.pendingCfg with
    | some (cs, ws) => applyPart f cs ws s1
    | none => s1
  if p.pending.isEmpty then s2
  else
    let s3 := ownWays f (p.pending.foldl (fun s x => applySeat f x.1 x.2 s) s2)
    ((List.range (8 * p.nodes)).map fun i => 8 * (f - 1) + i).foldl (fun s o =>
      match s.arrayHolder o with
      | some k => if s2.arrayHolder o != some k || p.pending.contains (k, none) then freshArray o s else s
      | none => s) s3

/-! ## The tick -/

/-- True from the first cycle of the next tick on. -/
def State.tickDue (s : State) : Bool := decide (Config.tick * (s.ticks + 1) ≤ s.cycle)

/-- Tokens that the scrub under way at channel n has had in the tick just ended: of the 48 beyond C what aged grants and refresh left, and of the 336
what the tick moved else (R334, R343). -/
def State.scrubDraw (s : State) (n : Nat) : Nat :=
  let a := s.arb (channelArb n)
  min (48 - a.aged - s.refreshOf n) (336 - a.aged - s.refreshOf n - a.moved)

/-- The scrubs of the tick just ended: 2,048 tokens make the 1,024 lines of a frame (R334). -/
def scrubTick (s : State) : State :=
  { s with scrubLeft := s.scrubs.toList.foldl (fun m c => if c.2.isEmpty then m else m.set c.1 (m.get 2048 c.1 - s.scrubDraw c.1)) s.scrubLeft }

/-- The first cycle of the next tick: the scrubs of the last one, configurations, the refill of every arbiter, the slices, the energy shown, and static
power, which no deal is charged (R334, R342, R345, R348, R376). -/
def tickStep (s : State) : State :=
  let s1 := { scrubTick s with ticks := s.ticks + 1 }
  let s2 := s1.parts.toList.foldl (fun s p => applyConfigs p.1 s) s1
  spend 10 1 none { s2 with
    arbs := s2.arbs.mapVals fun k a => a.refill (arbCapacity k)
    slices := s2.slices.mapVals fun _ z => z.boundary
    deals := s2.deals.mapVals fun _ d => { d with energyTick := d.energy } }

def execTickRefill (s : State) := runEvent (upd fun s => if s.tickDue then tickStep s else s) s

/-- A request of a seat's bucket that has waited 4,096 cycles at a channel is granted beyond C (R351): its two tokens come from TOK and, for what TOK lacks,
from DEBT, up to 65,535; its transfer goes on when it is looked at again. -/
def execAgedRequest (channel seat : Nat) (s : State) :=
  runEvent (upd fun s =>
    let a := s.arb (channelArb channel)
    match a.queue.find? fun w => w.req.bucket == seat && a.agedDue w s.cycle with
    | none => s
    | some w =>
      { spendUnits w.req.energy w.req.deal (s.setArb (channelArb channel) (a.grantAged w.req)) with paid := s.paid ++ [{ req := w.req, asked := s.cycle }] }) s

/-! ## Frames (R334) -/

/-- The lines of a frame leave their slice without write-back (R350). -/
def dropFrame (f : Nat) (s : State) : State :=
  let n := f * 65536 / Config.channelBytes
  s.modSlice n fun z => { z with sets := z.sets.mapVals fun _ ls => ls.filter fun l => l.addr / 65536 != f }

/-- True when the scrub under way at a channel has had its tokens (R334). -/
def State.scrubOver (s : State) (channel : Nat) : Bool := s.scrubLeft.get 2048 channel == 0

/-- The scrub of a channel's oldest released frame ends: it reads as zero and is FREE; the next one starts. -/
def execFrameScrubDone (channel : Nat) (s : State) :=
  runEvent (upd fun s =>
    match s.scrubs.get [] channel with
    | [] => s
    | f :: r =>
      if !s.scrubOver channel then s
      else
        ({ s with scrubs := s.scrubs.set channel r, scrubLeft := s.scrubLeft.erase channel }.zeroBytes (f * 65536) 65536).setFrame f .free) s

/-- A write-back reaches a frame that is not HELD: it is discarded and reported (R334). -/
def execLateWriteback (pa : Nat) (s : State) :=
  runEvent (upd fun s =>
    match s.frame (pa / 65536) with
    | .held _ => s
    | _ => if pa < Config.gddrTop then lateReport s pa else s) s

/-! ## Uncorrectable errors (R353) -/

/-- The report of a clean copy that an error dropped (Table 24.7). -/
def cleanReport (fs : List Nat) (source pa : Nat) (s : State) : State :=
  report fs { cls := 1, source := source, sub := 6, addr := wordOfNat (pa / 64 * 64) } s

/-- Poisons the sector of a location. -/
def poisonSector (a : Nat) (s : State) : State := { s with poison := s.poison.set (a / 64) 0 }

/-- An error in a block of a core's cache or victim space that holds a virtual address: a clean copy is dropped, a dirty
one is poisoned. -/
def strikeBlock (n va : Nat) (s : State) : State :=
  let ix := setOf va
  let z := (s.core n).set ix
  match (z.blocks ++ z.victims.map fun v => v.blk).find? fun b => b.holds va with
  | none => s
  | some b =>
    if b.dirty = 0 then
      cleanReport (s.funcOfCore n) (sourceOfCore n) (b.home + (va - b.va))
        (((z.blocks ++ z.victims.map fun v => v.blk).filter fun x => x.holds va).foldl (fun s x => dropBlock n ix x false s) s)
    else
      let f := fun (x : Block) => if x.holds va then { x with poisoned := true } else x
      s.modSet n ix fun z => { blocks := z.blocks.map f, victims := z.victims.map fun v => { v with blk := f v.blk } }

/-- The report of poison that a channel or slice detects, to the owner of the channel. -/
def poisonReport (pa sub : Nat) (s : State) : State :=
  let n := pa / Config.channelBytes
  report [(s.partOfNode n).getD 0] { cls := 2, source := sourceOfChannel n, cause := 7, sub := sub, addr := wordOfNat (pa / 64 * 64) } s

/-- An error in a slice's line: a clean copy is dropped, a dirty one is poisoned. -/
def strikeLine (n pa : Nat) (s : State) : State :=
  match s.lineAt pa with
  | none => s
  | some l =>
    if !l.dirty then
      cleanReport [(s.partOfNode n).getD 0] (sourceOfChannel n) pa (dropLines n (fun x => x.addr == pa / 64 * 64) s)
    else poisonReport pa 2 (poisonSector pa (s.modLine pa fun x => { x with poisoned := true }))

/-- True when a slice holds a dirty line of an address, whose write-back replaces what the channel holds. -/
def State.dirtyLine (s : State) (pa : Nat) : Bool := (s.lineAt pa).any fun l => l.dirty

/-- An error in GDDR data: where the slice holds a dirty line, its write-back replaces what the channel holds; a clean line stays good (R353; DESIGN
CHOICE, log 14). -/
def strikeGddr (pa : Nat) (s : State) : State :=
  if s.dirtyLine pa then s
  else poisonReport pa 1 (poisonSector pa (if s.poisoned pa then s else s.modLine pa fun x => { x with good := true }))

/-- Where a soft error strikes (R353): `loc` is the address of the place struck, virtual for a first-level block. -/
def strike (place : ErrPlace) (loc : Nat) (s : State) : State :=
  match place with
  | .firstLevel n => strikeBlock n loc s
  | .slice n => if loc / Config.channelBytes = n then strikeLine n loc s else s
  | .gddr =>
    if Config.gddrTop ≤ loc then (if Config.hostBit ≤ loc ∧ loc < 2 * Config.hostBit then poisonSector loc s else s)
    else strikeGddr loc s
  | .scratchpad => match placeOf 0 loc with | .bank n off => poisonSector (bankAddr n off) s | _ => s
  | .clusterMemory => match placeOf 0 loc with
    | .cm _ _ => (List.range 8).foldl (fun s i => poisonSector (loc / 512 * 512 + 64 * i) s) s
    | _ => s

def execUncorrectableError (place : ErrPlace) (loc : Nat) (s : State) := runEvent (upd (strike place loc)) s

end Sys2Proof.Machine
end

