-- ==== Sys2Proof/Machine/Partitions.lean ====
section
/-! DEFINITION. The management function's commands over partitions, seats, frames and memory (R334, R337 to R342, R378), and
the synchronised stop (R354 to R357). -/

namespace Sys2Proof.Machine

/-! ## The hub's accesses and the results of commands (R378) -/

/-- A homed write of bytes at a physical address by the hub or the host (R368): a line its slice holds becomes dirty, and poison beneath a good one
ends (R353). -/
def hubStore (a : Nat) (bs : List Byte) (s : State) : State :=
  let s1 := s.storeAll a bs
  if Config.gddrTop ≤ a then s1
  else
    let meets := fun (b : Nat) => decide (b < a + bs.length) && decide (a < b + 64)
    { s1 with poison := ⟨s1.poison.cells.filter fun c => !(meets (64 * c.1) && (s.lineAt (64 * c.1)).any L2Line.good)⟩ }.modSlice
      (a / Config.channelBytes) fun z =>
        { z with sets := z.sets.mapVals fun _ ls => ls.map fun (l : L2Line) => if meets l.addr then { l with dirty := true, good := false } else l }

/-- True for the physical addresses that exist (R322). -/
def physical (a : Nat) : Bool := decide (a < Config.gddrTop) || (decide (Config.hostBit ≤ a) && decide (a < 2 * Config.hostBit))

/-- A command's result doubleword, at the address its record gives; none is written for 0. -/
def answer (result v : Word) (s : State) : State :=
  if result = 0 ∨ !physical result.toNat then s else hubStore result.toNat (bytesOf 8 v.toNat) s

/-- A refusal whose value the spec does not state: a free negative value (DESIGN CHOICE, log 3). -/
def refuse (result : Word) (s : State) : State :=
  answer result (Config.freeWord s.free ||| 0x8000000000000000) { s with free := s.free + 1 }

/-- A command that is done, or refused with nothing changed. -/
def command (ok : Bool) (f : State → State) (result : Word) (s : State) : State :=
  if ok then answer result 0 (f s) else refuse result s

/-- The hub's read of doublewords at a physical address, none where one does not exist or is poisoned. -/
def State.hubWords (s : State) (a : Nat) : Nat → Option (List Word)
  | 0 => some []
  | n + 1 =>
    if a % 8 = 0 ∧ physical a ∧ (s.poisonAt a).isNone then (s.hubWords (a + 8) n).map fun r => wordOfNat (s.load a 8) :: r
    else none

/-! ## Idle partitions, merges and splits (R339, R340) -/

/-- True while a partition function is present. -/
def State.partAt (s : State) (f : Nat) : Bool := s.parts.anyVal fun k _ => k == f

/-- A partition is idle (R339). -/
def State.partIdle (s : State) (f : Nat) : Bool :=
  s.partAt f && (s.part f).phase == .none
    && (s.deals.toList.all fun d => d.2.st == .retired || d.2.seat / 16 != f)
    && (s.threads.toList.all fun t => t.2.st == .empty || !s.covers f (coreOf t.1))
    && (s.octets.toList.all fun o => o.2.run.st == .off || !s.covers f (8 * o.1))
    && s.clusters.toList.all fun c => !(decide (c.1 < 128) && s.covers f (16 * c.1)) || c.2.engines.toList.all fun e => e.2.st == .free

/-- True for an arbiter of the partition's own: its cores', channels', injection ports' and copy units' (R340). -/
def State.ownArb (s : State) (f k : Nat) : Bool :=
  if k < Config.cores then s.covers f k
  else if 10000 ≤ k ∧ k < 10032 then s.covers f (64 * (k - 10000))
  else if 11000 ≤ k ∧ k < 13000 then s.covers f (16 * (k % 1000))
  else false

/-- Closes the windows of every configuration that meet p (R352). -/
def closeWindows (p : RoWindow → Bool) (s : State) : State :=
  let shut := s.parts.toList.flatMap fun x => x.2.windows.filter p
  shut.foldl (fun s w => closeWindow w s) { s with parts := s.parts.mapVals fun _ x => { x with windows := x.windows.filter fun w => !p w } }

/-- Removes every seat of a partition with the partition's buckets, its own as a borrower with its windows, and empties the kitties of
its own arbiters (R339). -/
def discardSeats (f : Nat) (s : State) : State :=
  let ks := s.seatsOf f
  let s1 := ks.foldl (fun s k => leaveTracks k s) s
  let s2 := { s1 with
    seats := ⟨s1.seats.cells.filter fun x => !ks.contains x.1⟩
    arbs := s1.arbs.mapVals fun i a =>
      { a with
        buckets := ⟨a.buckets.cells.filter fun b => !ks.contains b.1 && b.1 != 2000 + f⟩
        kitty := if s.ownArb f i then 0 else a.kitty } }
  let s3 := (s2.nodesOf f).foldl (fun s n => s.modSlice n fun z => { z with owners := {}, holders := {}, reclaim := [], demand := [] }) s2
  closeWindows (fun w => w.borrower == f || (s.part f).windows.contains w) s3

/-- A channel moves to another partition (R334): each frame that partition f held there passes to SCRUB, its slice is invalidated, and
the windows on its frames are closed. -/
def moveChannel (f n : Nat) (s : State) : State :=
  let mine := s.frames.keysWhere (fun x => x == .held f) |>.filter fun k => k * 65536 / Config.channelBytes == n
  let s1 := mine.foldl (fun s k => s.setFrame k .scrub) s
  let q := s.scrubs.get [] n
  let s2 := { s1.setSlice n {} with
    scrubs := s1.scrubs.set n (q ++ mine) }
  closeWindows (fun w => w.owner == f && (spanChannels w.frames).contains n) s2

/-- Two tables as one. -/
def NMap.union {V : Type} (a b : NMap V) : NMap V := b.cells.foldl (fun m x => m.set x.1 x.2) a

/-- The lower of a partition and its sibling, which a merge joins. -/
def State.mergeLow (s : State) (f : Nat) : Nat :=
  let n := (s.part f).nodes
  (f - 1) / (2 * n) * (2 * n) + 1

/-- True when the management function may merge the node of function f with its sibling. -/
def State.canMerge (s : State) (f : Nat) : Bool :=
  let lo := s.mergeLow f
  let hi := lo + (s.part f).nodes
  decide (0 < f) && decide ((s.part f).level < 8) && s.partIdle lo && s.partIdle hi
    && (s.part lo).level == (s.part f).level && (s.part hi).level == (s.part f).level

/-- Renames the owner of windows. -/
def renameOwner (g : RoWindow → Nat) (s : State) : State :=
  { s with parts := s.parts.mapVals fun _ p => { p with windows := p.windows.map fun w => { w with owner := g w } } }

/-- A merge (R339, R340): the lower function keeps the parent, to which the higher one's channels move; tracks stay. -/
def merge (f : Nat) (s : State) : State :=
  let lo := s.mergeLow f
  let hi := lo + (s.part f).nodes
  let a := s.part lo
  let b := s.part hi
  let s1 := (s.nodesOf hi).foldl (fun s n => moveChannel hi n s) (discardSeats hi (discardSeats lo s))
  let s2 := renameOwner (fun w => if w.owner = hi then lo else w.owner) { s1 with parts := s1.parts.erase hi, funcs := s1.funcs.erase hi }
  s2.setPart lo { level := a.level + 1, windows := (s2.part lo).windows, cmbase := a.cmbase.union b.cmbase, cmsize := a.cmsize.union b.cmsize }

/-- A split (R339, R340): the higher child's function becomes present, and the channels of its nodes move to it; tracks stay. -/
def split (f : Nat) (s : State) : State :=
  let p := s.part f
  let hi := f + p.nodes / 2
  let high := fun (node : Nat) => decide (hi - 1 ≤ node)
  let cut := fun {V : Type} (m : NMap V) (up : Bool) => (⟨m.cells.filter fun x => high (x.1 / 4) == up⟩ : NMap V)
  let s1 := ((s.nodesOf f).filter high).foldl (fun s n => moveChannel f n s) (discardSeats f s)
  let s2 := s1.setPart f { level := p.level - 1, cmbase := cut p.cmbase false, cmsize := cut p.cmsize false }
  (s2.setPart hi { level := p.level - 1, cmbase := cut p.cmbase true, cmsize := cut p.cmsize true }).setFunc hi {}

/-! ## Configurations (R127, R165, R341, R342, R352) -/

/-- A rate within the limits of any arbiter (R342). -/
def goodRate (r : Rate) : Bool := decide (r.rate ≤ r.depth) && decide (r.depth ≤ 65535)
/-- Two windows of one kind that overlap; an empty one overlaps none. -/
def spansMeet (a b : Span) : Bool :=
  a.count != 0 && b.count != 0 && decide (a.base < b.base + b.count) && decide (b.base < a.base + a.count)
def sumNat (l : List Nat) : Nat := l.foldl (· + ·) 0

/-- The seat configurations of a partition as they stand once those accepted have taken effect. -/
def State.seatCfgs (s : State) (f : Nat) : List (Nat × SeatCfg) :=
  ((s.part f).pending.foldl (fun (m : NMap SeatCfg) x => match x.2 with | some c => m.set x.1 c | none => m.erase x.1)
    (⟨(s.seatsOf f).map fun k => (k, (s.seat k).cfg)⟩ : NMap SeatCfg)).toList

/-- DEPTH of the dealer seats' buckets at an arbiter. -/
def State.dealerDepth (s : State) (k : Nat) : Nat :=
  sumNat (((s.arb k).buckets.toList.filter fun b => decide (1024 ≤ b.1) && decide (b.1 < 2000)).map fun b => b.2.depth)

/-- Windows of a partition once its accepted configuration has taken effect. -/
def State.windowsOf (s : State) (f : Nat) : List RoWindow :=
  match (s.part f).pendingCfg with
  | some (_, ws) => ws
  | none => (s.part f).windows

/-- DEPTH of the borrower buckets at channel n, but for those of partition f. -/
def State.borrowDepth (s : State) (n f : Nat) : Nat :=
  sumNat (s.parts.toList.map fun p => if p.1 = f then 0
    else sumNat (((s.windowsOf p.1).filter fun w => (spanChannels w.frames).contains n).map fun w => w.bucket.depth))

/-- DEPTH of the seats at channel n of the partition that owns it. -/
def State.seatDepth (s : State) (n : Nat) : Nat :=
  match s.partOfNode n with
  | none => 0
  | some f => sumNat ((s.seatCfgs f).map fun c => (c.2.channel.getD (n - (f - 1)) {}).depth)

/-- CMBASE of a cluster of partition f once its accepted configuration has taken effect. -/
def State.nextCmBase (s : State) (f i : Nat) : Nat :=
  match (s.part f).pendingCfg with
  | some (cs, _) => (cs.getD i { base := 2048, count := 0 }).base
  | none => (s.part f).cmbase.get 2048 (4 * (f - 1) + i)

/-- A seat's configuration within the limits of Table 19.1, by itself. -/
def State.goodSeat (s : State) (f : Nat) (c : SeatCfg) : Bool :=
  let n := (s.part f).nodes
  c.rtbase.toNat % 0x8000 == 0 && s.frame (c.rtbase.toNat / 65536) == .held f
    && goodRate c.issue && goodRate c.injection && goodRate c.hostIn && goodRate c.hostOut
    && c.channel.all goodRate && c.copy.all goodRate
    && decide (c.ways.length ≤ n) && c.ways.all (fun w => decide (w ≤ 16)) && decide (c.channel.length ≤ n)
    && decide (c.copy.length ≤ 4 * n) && decide (c.cpmax.length ≤ 4 * n) && c.cpmax.all (fun x => decide (x ≤ 16))
    && decide (c.slots.length ≤ 4 * n) && c.slots.all (fun x => decide (x ≤ 64))
    && decide (c.tracks.length ≤ 4 * n)
    && ((List.range c.tracks.length).zip c.tracks).all (fun w => decide (w.2.base + w.2.count ≤ s.nextCmBase f w.1))
    && decide (c.sems.length ≤ 8 * n) && c.sems.all (fun w => decide (w.base + w.count ≤ 64))
    && decide (c.mailboxes.length ≤ 4 * n) && c.mailboxes.all (fun w => decide (w.base + w.count ≤ 256))
    && decide (c.rowOctets.length ≤ 8 * n)

/-- Two seats' configurations that may not stand together: windows that overlap, or a row array given twice. -/
def seatsClash (a b : SeatCfg) : Bool :=
  (a.tracks.zip b.tracks).any (fun w => spansMeet w.1 w.2) || (a.sems.zip b.sems).any (fun w => spansMeet w.1 w.2)
    || (a.mailboxes.zip b.mailboxes).any (fun w => spansMeet w.1 w.2) || (a.rowOctets.zip b.rowOctets).any fun w => w.1 && w.2

/-- The sums of R342 for the seats of partition f under configurations `cs`. -/
def State.goodSums (s : State) (f : Nat) (cs : List SeatCfg) : Bool :=
  let n := (s.part f).nodes
  let others := s.parts.toList.flatMap fun p => if p.1 = f then [] else (s.seatCfgs p.1).map fun c => c.2
  decide (sumNat (cs.map fun c => c.issue.depth) ≤ 128)
    && (List.range n).all (fun i => decide (sumNat (cs.map fun c => c.ways.getD i 0) ≤ 16)
        && decide (sumNat (cs.map fun c => (c.channel.getD i {}).depth) + s.borrowDepth (f - 1 + i) 0
          + s.dealerDepth (channelArb (f - 1 + i)) ≤ 288))
    && (List.range (4 * n)).all (fun i =>
        decide (sumNat (cs.map fun c => c.injection.depth) + s.dealerDepth (injectArb (4 * (f - 1) + i)) ≤ 128)
          && decide (sumNat (cs.map fun c => (c.copy.getD i {}).depth) ≤ 256))
    && decide (sumNat ((cs ++ others).map fun c => c.hostIn.depth) + s.dealerDepth hostInArb ≤ 512)
    && decide (sumNat ((cs ++ others).map fun c => c.hostOut.depth) + s.dealerDepth hostOutArb ≤ 512)

/-- True when a seat's configuration, or its removal, is accepted (R341, R342). -/
def State.acceptsSeat (s : State) (f k : Nat) (cfg : Option SeatCfg) : Bool :=
  s.partAt f && match cfg with
    | none => (s.seatsOf f).contains k && (s.unretired k).isEmpty
    | some c =>
      let others := ((s.seatCfgs f).filter fun x => x.1 != k).map fun x => x.2
      s.goodSeat f c && others.all (fun o => !seatsClash c o) && s.goodSums f (c :: others)

/-- True when a partition's configuration is accepted (R127, R165, R342, R352). -/
def State.acceptsPart (s : State) (f : Nat) (cs : List Span) (ws : List RoWindow) : Bool :=
  s.partAt f && cs.length == 4 * (s.part f).nodes
    && cs.all (fun c => c.base % 64 == 0 && decide (c.base ≤ 2048) && c.count % 512 == 0 && decide (c.count ≤ 2 ^ 32))
    && (s.seatCfgs f).all (fun k => ((List.range k.2.tracks.length).zip k.2.tracks).all fun w =>
        decide (w.2.base + w.2.count ≤ (cs.getD w.1 {}).base))
    && ws.all (fun w => (w.borrower == f || w.owner == f) && w.owner != w.borrower && s.partAt w.owner && s.partAt w.borrower && goodRate w.bucket
        && (List.range w.frames.count).all fun i => s.frame (w.frames.base + i) == .held w.owner)
    && (List.range 32).all fun n =>
      let mine := sumNat ((ws.filter fun w => (spanChannels w.frames).contains n).map fun w => w.bucket.depth)
      mine == 0 || decide (mine + s.borrowDepth n f + s.seatDepth n + s.dealerDepth (channelArb n) ≤ 288)

/-- PARTCFG (R339, R341, R352). -/
def execPartcfg (act : PartAct) (result : Word) (s : State) :=
  runEvent (upd fun s =>
    match act with
    | .merge f => command (s.canMerge f) (merge f) result s
    | .split f => command (s.partIdle f && decide (3 < (s.part f).level)) (split f) result s
    | .config f cs ws =>
      command (s.acceptsPart f cs ws) (fun s => s.modPart f fun p => { p with pendingCfg := some (cs, ws) }) result s) s

/-- SEATCFG (R341): a seat exists once its configuration is accepted, which takes effect at the next tick (R342). -/
def execSeatcfg (fn : Nat) (seat : BitVec 4) (cfg : Option SeatCfg) (result : Word) (s : State) :=
  runEvent (upd fun s =>
    let k := 16 * fn + seat.toNat
    command (s.acceptsSeat fn k cfg)
      (fun s => (if cfg.isSome && !(s.seatsOf fn).contains k then s.setSeat k {} else s).modPart fn fun p =>
        { p with pending := p.pending ++ [(k, cfg)] }) result s) s

/-- DEPTH of the buckets at arbiter k that belong to no dealer seat, once what has been accepted has taken effect (R342). -/
def State.seatedDepth (s : State) (k : Nat) : Nat :=
  let all := s.parts.toList.flatMap fun p => (s.seatCfgs p.1).map fun c => c.2
  if 10000 ≤ k ∧ k < 10032 then s.seatDepth (k - 10000) + s.borrowDepth (k - 10000) 0
  else if 11000 ≤ k ∧ k < 12000 then
    match s.partOfCluster (k - 11000) with
    | some f => sumNat ((s.seatCfgs f).map fun c => c.2.injection.depth)
    | none => 0
  else if k = hostInArb then sumNat (all.map fun c => c.hostIn.depth)
  else if k = hostOutArb then sumNat (all.map fun c => c.hostOut.depth)
  else arbCapacity k

/-- True for an arbiter of Table 19.2 whose buckets are per partition: a peer or die-to-die port in a direction, the hub's copy engines or its crypto
engine. -/
def isPartArb (k : Nat) : Bool :=
  (decide (14000 ≤ k) && decide (k < 14032)) || (decide (15000 ≤ k) && decide (k < 15064)) || k == hubCopyArb || k == cryptoArb

/-- The management function sets a bucket that no configuration gives, within the sum of DEPTH: a dealer seat's at a channel, an injection port or the
host link (R78), or a partition's where buckets are per partition (R343, R364; DESIGN CHOICE, log 15). Another request changes nothing. -/
def setDealerBucket (k b : Nat) (r : Rate) (s : State) : State :=
  let depths := fun (own : Nat → Bool) => sumNat (((s.arb k).buckets.toList.filter fun x => own x.1 && x.1 != b).map fun x => x.2.depth)
  let dealers := depths fun x => decide (1024 ≤ x) && decide (x < 2000)
  let good :=
    if isPartArb k then decide (2000 ≤ b) && s.partAt (b - 2000) && decide (depths (fun _ => true) + r.depth ≤ arbCapacity k)
    else decide (1024 ≤ b) && decide (b < 1024 + Config.dealers) && decide (s.seatedDepth k + dealers + r.depth ≤ arbCapacity k)
  if goodRate r && good then s.modArb k (Arb.configure b r) else s

/-! ## Memory, tracks and buckets -/

/-- PTWRITE (R321, R378): a doubleword of a frame that the management function holds. -/
def execPtwrite (addr v result : Word) (s : State) :=
  runEvent (upd fun s =>
    command (addr.toNat % 8 == 0 && decide (addr.toNat < Config.gddrTop) && s.frame (addr.toNat / 65536) == .held 0)
      (hubStore addr.toNat (bytesOf 8 v.toNat)) result s) s

/-- Key of an arbiter of Table 19.2; the way allocator is no arbiter with buckets of tokens. -/
def Arbiter.key : Arbiter → Option Nat
  | .issue n => some n
  | .ways _ => none
  | .channel n => some (channelArb n)
  | .injection c => some (injectArb c)
  | .copy c => some (copyArb c)
  | .host inward => some (if inward then hostInArb else hostOutArb)
  | .peer p inward => some (peerArb p (b2n inward))
  | .d2d die p inward => some (dieArb (4 * die + p) (b2n inward))
  | .hubCopy => some hubCopyArb
  | .crypto => some cryptoArb

/-- TOK, DEBT and K as BKTREAD writes them: at a way allocator, the ways that a seat and the kitty hold. -/
def State.bucketWords (s : State) (arb : Arbiter) (b : Nat) : List Nat :=
  match arb, Arbiter.key arb with
  | _, some k => [((s.arb k).bucket b).tok, ((s.arb k).bucket b).debt, (s.arb k).kitty]
  | .ways n, none =>
    let held := fun (x : Nat) => ((List.range 16).filter fun w => (s.slice n).holder w == x).length
    [held b, 0, held 9999]
  | _, none => []

/-- BKTREAD (R378): three doublewords at the destination. -/
def execBktread (arb : Arbiter) (bucket : Nat) (dest result : Word) (s : State) :=
  runEvent (upd fun s =>
    command (dest.toNat % 8 == 0 && physical dest.toNat)
      (fun s => hubStore dest.toNat ((s.bucketWords arb bucket).flatMap (bytesOf 8)) s) result s) s

/-- TRKIMG (R144, R378): words of a raw track from a position, with fresh tags, markers and check bits. -/
def execTrkimg (cluster track pos src count : Nat) (result : Word) (s : State) :=
  runEvent (upd fun s =>
    match (if cluster < 128 ∧ track < s.cmBaseOf cluster ∧ pos < 4096 ∧ count ≤ 4096 then s.hubWords src count else none) with
    | none => refuse result s
    | some ws =>
      answer result 0 (s.modTrack cluster track fun k =>
        ((List.range count).zip ws).foldl (fun k w =>
          let p := (pos + w.1) % 4096
          { k with words := k.words.set p (trackWord p w.2) }) { k with disp := 0 })) s

/-- POSTSYS (R378): deal.post of a system deal; a record that cannot be read gives −4 and no completion record. -/
def execPostsys (fn : Nat) (record result : Word) (s : State) : Host.Outcome State Fault Refusal :=
  let rd := fun (a : Word) (n : Nat) => (do
    match ← look fun s => s.hubWords a.toNat n with
    | some ws => return ws
    | none => trap 16 0x01 a : Act (List Word))
  let metered := (s.arbs, s.paid)
  let post : Act Word := do
    trapIf (record.toNat % 64 != 0) 16 0x01 record
    let r ← readRecord rd record
    let ag : Agent := { core := 16 * r.home, tid := 99999, seat := 16 * fn + r.seatField, deal := none }
    acceptDeal { system := true, compute := false, seat := none, part := none, ag := ag } record r
  match post { s with arbs := {} } with
  | .ok (v, s1) => .next (answer result v { s1 with arbs := metered.1, paid := metered.2 })
  | .error _ => .next (answer result (-4) s)

/-! ## Frames (R334) -/

/-- Frames from `first`, none where one lies beyond the memory. -/
def frameRange (first count : Nat) : Option (List Nat) :=
  if (first + count) * 65536 ≤ Config.gddrTop then some ((List.range count).map fun i => first + i) else none

/-- True when a holder may be given a frame: the management function any, a partition those of its own channels. -/
def State.mayHold (s : State) (holder f : Nat) : Bool :=
  holder == 0 || (s.partAt holder && s.partOfNode (f * 65536 / Config.channelBytes) == some holder)

/-- A FRAMES command: refused with −2 unless it can act on every frame it names. -/
def framesCommand (first count : Nat) (can : State → Nat → Bool) (act : Nat → State → State) (result : Word) (s : State) : State :=
  match frameRange first count with
  | some fs => if fs.all (can s) then answer result 0 (fs.foldl (fun s f => act f s) s) else answer result (-2) s
  | none => answer result (-2) s

def execFramesAllot (holder first count : Nat) (result : Word) (s : State) :=
  runEvent (upd (framesCommand first count (fun s f => s.frame f == .free && s.mayHold holder f)
    (fun f s => s.setFrame f (.held holder)) result)) s

/-- A frame released by its holder joins its channel's scrubs, and its lines leave the slice. -/
def releaseFrame (f : Nat) (s : State) : State :=
  let n := f * 65536 / Config.channelBytes
  let q := s.scrubs.get [] n
  { (dropFrame f s).setFrame f .scrub with
    scrubs := s.scrubs.set n (q ++ [f]) }

def execFramesRelease (holder first count : Nat) (result : Word) (s : State) :=
  runEvent (upd (framesCommand first count (fun s f => s.frame f == .held holder) releaseFrame result)) s

/-- Only FREE frames can be retired; no holder has them, so the command's holder plays no part. -/
def execFramesRetire (_holder first count : Nat) (result : Word) (s : State) :=
  runEvent (upd (framesCommand first count (fun s f => s.frame f == .free) (fun f s => s.setFrame f .retired) result)) s

/-! ## The synchronised stop (R354 to R357) -/

/-- SSTOP (R354): a G earlier than CYCLE + 2,048 is refused. -/
def execSstop (fn g : Nat) (result : Word) (s : State) :=
  runEvent (upd fun s =>
    command (s.partAt fn && (s.part fn).phase == .none && decide (s.cycle + 2048 ≤ g))
      (fun s => s.modPart fn fun p => { p with phase := .asked, atCycle := g }) result s) s

/-- The listed threads, and octets, of a partition. -/
def State.threadsIn (s : State) (f : Nat) : List Nat := (s.threads.toList.map fun t => t.1).filter fun t => s.covers f (coreOf t)
def State.octetsIn (s : State) (f : Nat) : List Nat :=
  (s.octets.toList.map fun o => o.1).filter fun o => decide (o < 256) && s.covers f (8 * o)

/-- Cycle G (Table 19.6): every running, idle or parked thread receives a stop request, and running runs are halted; the
other parts are held from now on. -/
def execSyncStopStart (fn : Nat) (s : State) :=
  runEvent (upd fun s =>
    if (s.part fn).phase ≠ .asked ∨ s.cycle < (s.part fn).atCycle then s
    else
      let ts := (s.threadsIn fn).filter fun t =>
        match (s.thr t).st with | .running | .idle | .parked | .resuming => true | _ => false
      let s1 := s.modPart fn fun p =>
        { p with phase := .stopping, stopped := ts, tokens := [], flying := [] }
      (s1.octetsIn fn).foldl (fun s o => haltRun o s) (ts.foldl (fun s t => stopRequest t s) s1)) s

/-- Every source of a partition is quiet (Table 19.6): threads STOPPED with their save done or EMPTY, no accepted transform request left, and no pass
in progress or row of one on its way. -/
def State.quietPart (s : State) (f : Nat) : Bool :=
  ((s.threadsIn f).all fun t => (s.thr t).st == .empty || ((s.thr t).st == .stopped && (s.thr t).saved))
    && (s.octetsIn f).all fun o => (s.octet o).txq.isEmpty && (s.octet o).left == 0 && (s.octet o).pipe.isEmpty

/-- Moves the packets of a partition that routers hold into their save buffers, or injects the saved ones again, each in its place among those that have
left its core (R355, R357). -/
def savePackets (f : Nat) (save : Bool) (s : State) : State :=
  { s with cores := s.cores.mapVals fun n c =>
      if !isDealer n && s.covers f n then { c with rstores := c.rstores.map fun r => { r with saved := save && r.sent && !r.performed } } else c }

/-- The input links of router c of a die's mesh: from its north, south, west and east neighbours (R362). -/
def meshLinks (c : Nat) : List Nat :=
  let row := c % 16 / 4
  let col := c % 4
  (if 0 < row then [0] else []) ++ (if row < 3 then [1] else []) ++ (if 0 < col then [2] else []) ++ (if col < 3 then [3] else [])

/-- The die-to-die ports of a die that face another die of the 2 × 4 mesh. -/
def diePorts (d : Nat) : List Nat :=
  (if 4 ≤ d then [0] else []) ++ (if d < 4 then [1] else []) ++ (if 0 < d % 4 then [2] else []) ++ (if d % 4 < 3 then [3] else [])

/-- Every input link of the module's routers, die-to-die ports (128 + 4 × die + port), host link (160) and peer ports
(161 + p), with each virtual channel (R355). -/
def inputPairs : List (Nat × Nat × Nat) :=
  let links := ((List.range 128).flatMap fun c => (meshLinks c).map fun l => (c, l))
    ++ ((List.range 8).flatMap fun d => (diePorts d).map fun p => (128 + 4 * d + p, 0))
    ++ (List.range 17).map fun p => (160 + p, 0)
  links.flatMap fun x => (List.range 3).map fun v => (x.1, x.2, v)

/-- Cycle Q (R355): routers and hub ports save the packets of the partition, and each sends a flush token on each of its output links and virtual
channels, which are the input pairs of its neighbours. -/
def execQuietAgreed (fn : Nat) (s : State) :=
  runEvent (upd fun s =>
    if (s.part fn).phase = .stopping ∧ s.quietPart fn then
      savePackets fn true (s.modPart fn fun p => { p with phase := .agreed, tokens := [], flying := inputPairs })
    else s) s

/-- A flush token that is on its way arrives on an input link and virtual channel. -/
def execFlushTokenArrival (fn router link vc : Nat) (s : State) :=
  runEvent (upd fun s =>
    if (s.part fn).phase = .agreed ∧ (s.part fn).flying.contains (router, link, vc) then
      s.modPart fn fun p => { p with
        tokens := p.tokens ++ [(router, link, vc)], flying := p.flying.filter fun x => x != (router, link, vc) }
    else s) s

/-- True when tokens have arrived on every input pair. -/
def Part.flushed (p : Part) : Bool := inputPairs.all fun x => p.tokens.contains x

/-- True when every thread of a partition is STOPPED or EMPTY (R356). -/
def State.threadsStopped (s : State) (f : Nat) : Bool := (s.threadsIn f).all fun t => (s.thr t).st == .empty || (s.thr t).st == .stopped

/-- The stop is complete (R356). -/
def execSyncStopComplete (fn : Nat) (s : State) :=
  runEvent (upd fun s =>
    if (s.part fn).phase = .agreed ∧ (s.part fn).flushed ∧ s.threadsStopped fn then s.modPart fn fun p => { p with phase := .stopped } else s) s

/-- SRESUME (R357): the same bound holds for G′. -/
def execSresume (fn g : Nat) (result : Word) (s : State) :=
  runEvent (upd fun s =>
    command (s.partAt fn && (s.part fn).phase == .stopped && decide (s.cycle + 2048 ≤ g))
      (fun s => s.modPart fn fun p => { p with phase := .resuming, atCycle := g }) result s) s

/-- Cycle G′ (R357): routers inject what they saved, ahead of what their cores send from then on; the threads that the stop
put in STOPPED receive RESUME, halted runs restart, and the other parts go on from where they were held. -/
def execSyncResume (fn : Nat) (s : State) :=
  runEvent (upd fun s =>
    if (s.part fn).phase ≠ .resuming ∨ s.cycle < (s.part fn).atCycle then s
    else
      let ts := (s.part fn).stopped
      let s1 := s.modPart fn fun p =>
        { p with phase := .none, stopped := [], tokens := [], flying := [] }
      let s2 := ts.foldl (fun s t => if (s.thr t).st = .stopped then resumeThread t s else s) (savePackets fn false s1)
      ((s2.octetsIn fn).foldl (fun s o => restartRun o s) s2).mapThr fun _ th => { th with waiting := false }) s

end Sys2Proof.Machine
end

