-- ==== Sys2Proof/Machine/Links.lean ====
section
/-! DEFINITION. The host link's functions (R367, R368, R380), the coding of peer-port flits (R370), and link retry (R371). -/

namespace Sys2Proof.Machine

/-! ## Functions on the host link (R340, R367, R368) -/

/-- True when a function is present: the management function once the host link is up, another while its partition exists. -/
def State.funcAt (s : State) (f : Nat) : Bool := if f = 0 then s.hub.up else s.partAt f
/-- The physical address that an offset of a function's BAR2 maps: the first 6 GiB of each node's 8 GiB. -/
def State.bar2 (s : State) (f off : Nat) : Option Nat :=
  let node := off / 2 ^ 33
  let x := off % 2 ^ 33
  if 0 < f ∧ s.partAt f ∧ node < (s.part f).nodes ∧ x < Config.channelBytes then some ((f - 1 + node) * Config.channelBytes + x) else none

/-- A host write into BAR2: homed writes of the bytes that map memory; the others are discarded. -/
def execHostBar2Write (fn off : Nat) (bytes : List Byte) (s : State) :=
  runEvent (upd fun s =>
    ((List.range bytes.length).zip bytes).foldl (fun s b =>
      match s.bar2 fn (off + b.1) with
      | some a => hubStore a [b.2] s
      | none => s) s) s

/-- A host read of BAR2: homed reads; bytes that map no memory are zero, an absent function answers all ones, and poisoned
bytes are not delivered (R353). -/
def execHostBar2Read (fn off n : Nat) (s : State) :=
  runEvent (upd fun s =>
    let at_ := (List.range n).map fun i => s.bar2 fn (off + i)
    let poisoned := at_.any fun a => match a with | some a => (s.poisonAt a).isSome | none => false
    let bytes := at_.map fun a => match a with | some a => readCell s.mem a | none => 0
    s.modFunc fn fun x => { x with
      hostRead := if !s.funcAt fn then List.replicate n 0xFF else if poisoned then [] else bytes }) s

/-- The size of a function's BAR2: 8 GiB for each node of its partition; the management function has none. -/
def State.bar2Size (s : State) (fn : Nat) : Nat := if fn = 0 then 0 else 2 ^ 33 * (s.part fn).nodes

/-- What a base address register reads: the bits that its size leaves to the host, with its type. -/
def barWord (size kind : Nat) (v : Word) : Nat := if size = 0 then 0 else v.toNat / size * size + kind

/-- Doubleword `off` of a present function's configuration space (R367): a type 0 header with a 64-bit BAR0 of 64 KiB and a 64-bit prefetchable BAR2, no
interrupt pin, a PCI Express capability at 0x40 with a maximum payload of 256 bytes, and a DOE capability at 0x100 (PRESUMED, log 37: the places and
codes are PCI Express's). -/
def State.configWord (s : State) (fn off : Nat) : BitVec 32 :=
  let x := s.func fn
  let b0 := barWord 0x10000 0x4 x.bar0
  let b2 := barWord (s.bar2Size fn) 0xC x.bar2
  match off with
  | 0x00 | 0x08 | 0x2C => Config.pciId fn off
  | 0x04 => 0x00100000 ||| x.cmd.zeroExtend 32
  | 0x0C => 0x00800000
  | 0x10 => BitVec.ofNat 32 b0
  | 0x14 => BitVec.ofNat 32 (b0 / 2 ^ 32)
  | 0x18 => BitVec.ofNat 32 b2
  | 0x1C => BitVec.ofNat 32 (b2 / 2 ^ 32)
  | 0x34 => 0x40
  | 0x40 => 0x00020010
  | 0x44 => 1
  | 0x48 => x.devctl.zeroExtend 32
  | 0x100 => 0x0001002E
  | _ => 0

/-- A read of the configuration space; an absent function completes it as Unsupported Request and reads all ones. -/
def configRead (fn off : Nat) (s : State) : State :=
  s.modFunc fn fun x =>
    if s.funcAt fn then { x with unsupported := false, hostRead := bytesOf 4 (s.configWord fn off).toNat }
    else { x with unsupported := true, hostRead := [0xFF, 0xFF, 0xFF, 0xFF] }

/-- A write of the configuration space reaches the command register, the base addresses and the device control register of a present function; an
absent one completes it as Unsupported Request. -/
def configWrite (fn off : Nat) (v : BitVec 32) (s : State) : State :=
  s.modFunc fn fun x =>
    if !s.funcAt fn then { x with unsupported := true }
    else
      let x := { x with unsupported := false }
      let low := fun (w : Word) => (w.extractLsb' 32 32 ++ v : Word)
      let high := fun (w : Word) => (v ++ w.extractLsb' 0 32 : Word)
      match off with
      | 0x04 => { x with cmd := v.truncate 16 &&& 0x0006 }
      | 0x10 => { x with bar0 := low x.bar0 }
      | 0x14 => { x with bar0 := high x.bar0 }
      | 0x18 => { x with bar2 := low x.bar2 }
      | 0x1C => { x with bar2 := high x.bar2 }
      | 0x48 => { x with devctl := v.truncate 16 }
      | _ => x

/-- A configuration request to a function: that for its identity. -/
def execConfigRequest (fn : Nat) (s : State) := runEvent (upd (configRead fn 0)) s

/-- SERVICE and the dies in service (Table 24.2, R379). -/
def State.serviceWord (s : State) : Nat :=
  putAt (if s.hub.fullService then 2 else if s.hub.trained.isEmpty then 0 else 1) 56 + sumNat ((List.range 8).map fun d => putAt (b2n (s.serves d)) d)

/-- Doubleword `off` of a function's control page (Table 24.2; 0x300 of function 0, R378). What the table does not name reads zero (DESIGN CHOICE, log
37). -/
def State.controlWord (s : State) (fn off : Nat) : Nat :=
  let x := s.func fn
  if off = 0 then s.serviceWord
  else if off = 0x08 then putAt (x.corrected % 2 ^ 32) 32 + x.uncorrectable % 2 ^ 32
  else if off = 0x10 then x.elogHead.toNat
  else if off = 0x18 then x.elogTail.toNat
  else if off = 0x20 then x.lost.toNat
  else if 0x100 ≤ off ∧ off < 0x180 then (s.seat (16 * fn + (off - 0x100) / 8)).ackSeq.toNat
  else if 0x200 ≤ off ∧ off < 0x280 then (x.rings.get 0 ((off - 0x200) / 8)).toNat
  else if off = 0x300 then x.mgmtRing.toNat
  else if 0x1000 ≤ off ∧ off < 0x3000 then (x.elog.get 0 ((off - 0x1000) / 8)).toNat
  else 0

/-- A host read of an aligned doubleword of a function's control page; an absent function's reads are all ones. -/
def controlRead (fn off : Nat) (s : State) : State :=
  s.modFunc fn fun x => { x with hostRead := if s.funcAt fn then bytesOf 8 (s.controlWord fn (off / 8 * 8)) else List.replicate 8 0xFF }

/-- ACKSEQ of a seat (R383): the entries at or below it, counted back from NEXTSEQ, are released. -/
def ackSeat (k : Nat) (v : BitVec 32) (s : State) : State :=
  s.modSeat k fun x => { x with
    ackSeq := v, journal := x.journal.filter fun j => decide ((x.nextSeq - j.seq).toNat < (x.nextSeq - v).toNat) }

def execAckseqWrite (fn : Nat) (seat : BitVec 4) (v : BitVec 32) (s : State) :=
  runEvent (upd fun s => if (s.seatsOf fn).contains (16 * fn + seat.toNat) then ackSeat (16 * fn + seat.toNat) v s else s) s

/-- A host write of a doubleword of a function's control page (Table 24.2): ELOG_TAIL, a seat's ACKSEQ or deal ring control
block, and on function 0 the management ring's control block (R378); any other offset ignores it. -/
def execControlPageWrite (fn off : Nat) (v : Word) (s : State) :=
  runEvent (upd fun s =>
    if !s.funcAt fn then s
    else if off = 0x18 then s.modFunc fn fun x => { x with elogTail := v }
    else if 0x100 ≤ off ∧ off < 0x180 ∧ off % 8 = 0 then
      (if (s.seatsOf fn).contains (16 * fn + (off - 0x100) / 8) then ackSeat (16 * fn + (off - 0x100) / 8) (v.truncate 32) s else s)
    else if 0x200 ≤ off ∧ off < 0x280 ∧ off % 8 = 0 then s.modFunc fn fun x => { x with rings := x.rings.set ((off - 0x200) / 8) v }
    else if off = 0x300 ∧ fn = 0 then s.modFunc fn fun x => { x with mgmtRing := v }
    else s) s

/-! ## Flit coding (R370) -/

/-- The exponent table of a freshly trained link. -/
def trainedTable : List (BitVec 8) := [127, 126, 128, 125]

/-- An exponent moves to the front; on a miss the last entry leaves. -/
def moveFront (e : BitVec 8) (t : List (BitVec 8)) : List (BitVec 8) :=
  if t.contains e then e :: t.erase e else e :: t.take 3

/-- The code of one word under a table: its bits and their number. -/
def codeWord (t : List (BitVec 8)) (w : BitVec 32) : Nat × Nat :=
  let e := w.extractLsb' 23 8
  let r := (w.extractLsb' 31 1).toNat * 2 ^ 23 + (w.extractLsb' 0 23).toNat
  match t.findIdx? fun x => x == e with
  | some i => (2 * i + 8 * r, 27)
  | none => (1 + 2 * e.toNat + 512 * r, 33)

/-- The code of a payload, filled from its least significant bit, with its length and the table after it. -/
def codeWords (t : List (BitVec 8)) (ws : List (BitVec 32)) : Nat × Nat × List (BitVec 8) :=
  ws.foldl (fun a w =>
    let c := codeWord a.2.2 w
    (a.1 + c.1 * 2 ^ a.2.1, a.2.1 + c.2, moveFront (w.extractLsb' 23 8) a.2.2)) (0, 0, t)

/-- The words that a coded payload stands for, with the table after them: the steps of the code reversed. -/
def decodeFlits : Nat → Nat → List (BitVec 8) → List (BitVec 32) × List (BitVec 8)
  | 0, _, t => ([], t)
  | n + 1, b, t =>
    let hit := b % 2 == 0
    let e := if hit then t.getD (b / 2 % 4) 0 else BitVec.ofNat 8 (b / 2)
    let rest := b / (if hit then 8 else 512)
    let r := rest % 2 ^ 24
    let x := decodeFlits n (rest / 2 ^ 24) (moveFront e t)
    (BitVec.ofNat 32 (r / 2 ^ 23 * 2 ^ 31 + e.toNat * 2 ^ 23 + r % 2 ^ 23) :: x.1, x.2)

/-- Keys of the table of a peer port's virtual channel, outward and inward, and of a link: its SOURCE number (Table 24.6). -/
def expKey (port vc : Nat) : Nat := 4 * port + vc
def inKey (port vc : Nat) : Nat := 64 + 4 * port + vc
def peerLink (port : Nat) : Nat := 0x970 + port
def isLink (k : Nat) : Bool := (decide (0x940 ≤ k) && decide (k ≤ 0x960)) || (decide (0x970 ≤ k) && decide (k < 0x980))

def State.expTable (s : State) (k : Nat) : ExpTable := s.expTables.get {} k
def State.setExp (s : State) (k : Nat) (x : ExpTable) : State := { s with expTables := s.expTables.set k x }

/-- The bytes of a peer packet, over which its CRC-32C is taken: the header flit, with the sequence number, the virtual channel, EXP, RAW and the number
of words from bit 0 on, and the payload (DESIGN CHOICE, log 41: the spec gives no layout). -/
def peerBytes (seq : BitVec 12) (vc : Nat) (raw : Bool) (n : Nat) (payload : List Byte) : List Byte :=
  bytesOf 32 (seq.toNat + 2 ^ 12 * vc + 2 ^ 14 + 2 ^ 15 * b2n raw + 2 ^ 16 * n) ++ payload

/-- The oldest packet of a link is acknowledged; at a peer port the receiver has updated its table for it (R371). -/
def ackOldest (k : Nat) (s : State) : State :=
  match (s.link k).unacked with
  | [] => s
  | p :: _ =>
    let s1 := acceptOldest k s
    if k < 0x970 then s1
    else
      let x := s1.expTable (expKey (k - 0x970) p.vc)
      s1.setExp (expKey (k - 0x970) p.vc) { x with ackT := (codeWords x.ackT p.words).2.2 }

/-- The payload of a peer packet as it is sent: the words' bits, or the words themselves where the code is not shorter (R370). -/
def peerPayload (code bits : Nat) (words : List (BitVec 32)) : List Byte :=
  if 32 * words.length ≤ bits then words.flatMap fun w => bytesOf 4 w.toNat else bytesOf (32 * ceilDiv bits 256) code

/-- A packet of FP32 words of a function leaves a peer port (R370): it is coded flit by flit, sent raw where that is not longer, and kept
among the last 64 that are not acknowledged (R371). -/
def sendPeer (fn port vc : Nat) (words : List (BitVec 32)) (s : State) : State :=
  let s1 := if 64 ≤ (s.link (peerLink port)).unacked.length then ackOldest (peerLink port) s else s
  let x := s1.expTable (expKey port vc)
  let c := codeWords x.t words
  let raw := decide (32 * words.length ≤ c.2.1)
  let crc := crc32c (peerBytes (s1.link (peerLink port)).seq vc raw words.length (peerPayload c.1 c.2.1 words))
  sendOn (peerLink port) { vc := vc, fn := fn, words := words }
    (s1.setExp (expKey port vc) { x with t := c.2.2, bits := c.2.1, code := c.1, raw := raw, crc := crc })

/-- A packet that the management function itself sends leaves a peer port; it holds no bucket there, so the packet is not metered (DESIGN CHOICE, log
41). -/
def execPeerFlitCoding (port vc : Nat) (words : List (BitVec 32)) (s : State) :=
  runEvent (upd fun s =>
    if 16 ≤ port ∨ 3 ≤ vc ∨ words.isEmpty ∨ words.length % 8 ≠ 0 ∨ 64 < words.length ∨ (s.link (peerLink port)).failed then s
    else sendPeer 0 port vc words s) s

/-! ## Transfers of the hub's copy engines between modules (R369) -/

/-- The management function sets up a transfer: FP32 words of the module's memory for a peer port, whole flits of them; another request changes
nothing. -/
def setTransfer (x : PeerTransfer) (s : State) : State :=
  if x.port < 16 ∧ x.vc < 3 ∧ x.words % 8 = 0 ∧ x.src % 32 = 0 ∧ x.src + 4 * x.words ≤ Config.gddrTop ∧ s.funcAt x.fn then
    { s with hub := { s.hub with transfers := s.hub.transfers ++ [x] } }
  else s

/-- The next packet of transfer number i: its bytes at the hub's copy engines, then its flits at the port, each from the bucket of the partition that
it is metered for. Transfers of one port and virtual channel go one after another. -/
def transferTurn (i : Nat) (s : State) : Host.Outcome State Fault Refusal :=
  match s.hub.transfers[i]? with
  | none => .next s
  | some x =>
    if (s.hub.transfers.take i).any (fun y => y.port == x.port && y.vc == x.vc) || (s.link (peerLink x.port)).failed then .next s
    else
      runEvent (do
        let n := min 64 x.words
        let words := (List.range n).map fun j => BitVec.ofNat 32 (s.load (x.src + 4 * j) 4)
        let bits := (codeWords (s.expTable (expKey x.port x.vc)).t words).2.1
        let req := fun (a k : Nat) => ({ arb := a, bucket := 2000 + x.fn, cost := k, line := x.src + 1, who := 100000 + i, vc := x.vc } : Req)
        charges [req hubCopyArb (n / 8), req (peerArb x.port 0) (1 + min (n / 8) (ceilDiv bits 256))]
        let y := { x with src := x.src + 4 * n, words := x.words - n }
        upd fun s => sendPeer x.fn x.port x.vc words { s with hub := { s.hub with
          transfers := s.hub.transfers.take i ++ (if y.words = 0 then [] else [y]) ++ s.hub.transfers.drop (i + 1) } }) s

/-- A packet arrives at a peer port (R370, R371): it is accepted in sequence where its CRC fits, and its payload decoded with the port's inward table;
after a failure every other packet is discarded. -/
def peerReceive (port vc : Nat) (seq : BitVec 12) (raw : Bool) (n : Nat) (payload : List Byte) (crc : Nat) (s : State) : State :=
  let k := peerLink port
  let l := s.link k
  if 16 ≤ port ∨ 3 ≤ vc then s
  else if crc ≠ crc32c (peerBytes seq vc raw n payload) then s.setLink k { l with discards := true }
  else if seq ≠ l.next then s
  else
    let x := s.expTable (inKey port vc)
    let words := if raw then (List.range n).map fun i => BitVec.ofNat 32 (bytesVal ((payload.drop (4 * i)).take 4))
      else (decodeFlits n (bytesVal payload) x.t).1
    (s.setExp (inKey port vc) { x with t := (codeWords x.t words).2.2 }).setLink k
      { l with next := l.next + 1, discards := false, got := l.got ++ words }

/-! ## Retry (R371) -/

/-- A replay of a peer port's packets from the oldest that is not acknowledged: the sender's tables start at the receiver's
and are updated anew. -/
def replay (port : Nat) (s : State) : State :=
  let ps := (s.link (peerLink port)).unacked
  (List.range 3).foldl (fun s vc =>
    let x := s.expTable (expKey port vc)
    s.setExp (expKey port vc) { x with
      t := (ps.filter fun p => p.vc == vc).foldl (fun t p => (codeWords t p.words).2.2) x.ackT }) s

/-- The oldest packet of a link that is not acknowledged fails its CRC (R371): it and the packets after it are replayed, and one that fails again is a
failed replay. A link that has retrained and fails eight replays again is reported failed to the functions whose packets it holds. -/
def execLinkCrcFailure (link : Nat) (s : State) :=
  runEvent (upd fun s =>
    let l := s.link link
    if !isLink link || l.failed || l.unacked.isEmpty then s
    else
      let n := l.replays + b2n l.replaying
      let fails := l.retrained && decide (8 ≤ n)
      let s1 := s.setLink link { l with replaying := true, replays := n, failed := fails }
      let s2 := if 0x970 ≤ link then replay (link - 0x970) s1 else s1
      if fails then report (l.unacked.map fun p => p.fn).eraseDups { cls := 3, source := link, sub := 4 } s2 else s2) s

/-- After eight failed replays the link retrains (R371): both ends reset their tables, and the sender replays. -/
def execLinkRetrain (link : Nat) (s : State) :=
  runEvent (upd fun s =>
    let l := s.link link
    if !isLink link || l.failed || decide (l.replays < 8) then s
    else
      let s1 := s.setLink link { l with replays := 0, retrained := true }
      if 0x970 ≤ link then
        replay (link - 0x970) ((List.range 3).foldl (fun s vc =>
          [expKey (link - 0x970) vc, inKey (link - 0x970) vc].foldl (fun s k =>
            s.setExp k { s.expTable k with t := trainedTable, ackT := trainedTable }) s) s1)
      else s1) s

/-- A link's turn: it retrains after eight failed replays, and else its oldest packet arrives intact and is acknowledged. -/
def linkTurn (link : Nat) (s : State) : Host.Outcome State Fault Refusal :=
  if 8 ≤ (s.link link).replays then execLinkRetrain link s
  else if (s.link link).failed then .next s else runEvent (upd (ackOldest link)) s

end Sys2Proof.Machine
end

