-- ==== Sys2Proof/Machine/Power.lean ====
section
/-! DEFINITION. Issue frames, the throttle step and the current ramp of an octet's row array (R372, R373), and the decisions of the
module's power arbiter (R374, R375). -/

namespace Sys2Proof.Machine

/-- True when the octet has demand: a pass is in progress or may start (R373). -/
def State.demand (s : State) (o : Nat) : Bool := decide (0 < (s.octet o).left) || s.runReady o || s.opReady o

/-- True when octet o has an issue frame to begin: the cycle is a frame's first, and the octet has not begun it (R372). -/
def State.frameDue (s : State) (o : Nat) : Bool := decide (s.cycle % 8 = 0) && decide ((s.octet o).frame < s.cycle / 8)

/-- A frame boundary (R372, R375): arrived decisions are applied in order, and the positions that the frame may use follow the step and the level. -/
def execFrameBoundary (octet : Nat) (s : State) :=
  runEvent (upd fun s =>
    if !s.frameDue octet then s else
    s.modOctet octet fun y =>
      let m := y.decisions.getLast?.getD { step := y.step, plim := y.plim, dseq := y.dseq }
      { y with step := m.step, plim := m.plim, dseq := m.dseq, decisions := [], frame := s.cycle / 8, usable := min (8 - m.step) y.level }) s

/-- The positions of a frame follow the level that its first cycle leaves (R372, R373). -/
def frameLevel (o : Nat) (s : State) : State :=
  let y := s.octet o
  let u := min (8 - y.step) y.level
  if y.usable = u then s else s.modOctet o fun y => { y with usable := u }

/-- True when the cycle is an allowed position of octet o's frame, the last `usable` ones, and not spent yet (R372). -/
def State.positionDue (s : State) (o : Nat) : Bool :=
  decide ((s.octet o).issued ≤ s.cycle) && decide (8 ≤ s.cycle % 8 + (s.octet o).usable)

/-- Broadcast cycles of a pass, W, by the code of its A format (R275). -/
def passWidth (fmt : Nat) : Nat := if fmt = 0 then 6 else if fmt = 1 then 8 else 11

/-- W of the pass that may start in octet o. -/
def State.nextWidth (s : State) (o : Nat) : Nat :=
  match s.runOf o with
  | some (_, h) => passWidth h.fmt
  | none => passWidth (ctxA (((s.octet o).ops.headD {}).reqs.headD {}).ctx)

/-- The broadcast of octet o's pass in progress ends. -/
def endPass (o : Nat) (s : State) : State :=
  match s.runOf o, (s.octet o).ops with
  | some (ro, h), _ => endRunPass o ro h s
  | none, p :: r => endOpPass o p r s
  | none, [] => s

/-- A dummy broadcast (R373), charged to the deal of what ended last on the octet while it is unretired, else to none (R376). -/
def dummyCast (o : Nat) (s : State) : State :=
  let own := (s.octet o).energyDeal.bind fun k => if (s.deal k).st = .retired then none else some k
  spend 8 1 own (s.modOctet o fun y => { y with dummy := (y.dummy + 1) % 2 ^ 24 })

/-- An issue opportunity of octet o (R281, R372, R373): the pass in progress broadcasts, or the next one starts; else, while the level is above 0, the
position carries a dummy broadcast. -/
def usePosition (o : Nat) (s : State) : State :=
  if !s.positionDue o then s else
  let y := s.octet o
  let s1 := s.modOctet o fun y => { y with issued := s.cycle + 1 }
  if y.left = 1 then endPass o (s1.modOctet o fun y => { y with left := 0 })
  else if 1 < y.left then s1.modOctet o fun y => { y with left := y.left - 1 }
  else if s.runReady o || s.opReady o then s1.modOctet o fun y => { y with left := s.nextWidth o - 1 }
  else if 0 < y.level then dummyCast o s1
  else s

/-- Demand appears (R373): a level of 0 becomes 1, and the ramp timer restarts. -/
def execDemandAppears (octet : Nat) (s : State) :=
  runEvent (upd fun s =>
    if s.demand octet ∧ !(s.octet octet).rising then
      s.modOctet octet fun y => { y with level := max 1 y.level, rampAt := s.cycle, rising := true }
    else s) s

/-- Demand that has gone: should it come again, that is an appearance (R373). -/
def noteDemand (o : Nat) (s : State) : State :=
  if (s.octet o).rising && !s.demand o then s.modOctet o fun y => { y with rising := false } else s

/-- The ramp timer expires (R373): the level moves by one, up with demand and down without. Demand that
appears is applied first. -/
def execRampTimerExpiry (octet : Nat) (s : State) :=
  runEvent (upd fun s =>
    let y := s.octet octet
    let d := s.demand octet
    if y.level = 0 ∨ s.cycle < y.rampAt + 32 ∨ (d ∧ !y.rising) then s
    else
      s.setOctet octet { y with
        rampAt := y.rampAt + 32, rising := d, level := if d then min 8 (y.level + 1) else y.level - 1 }) s

/-- True when some seat of a partition holds the octet's row array (R274). -/
def State.arrayAllotted (s : State) (o : Nat) : Bool :=
  s.seats.anyVal fun k x => decide (k < 1024) && decide ((k / 16 - 1) * 8 ≤ o) && x.cfg.rowOctets.getD (o - (k / 16 - 1) * 8) false

/-- The step that a decision gives (Table 23.1), from the power measured in milliwatts and the limit in watts. -/
def decideStep (mw plim step : Nat) : Nat :=
  if 1000 * plim < mw then min (step + 1) 7
  else if 100 * mw < 95 * (1000 * plim) then step - 1
  else step

/-- True from the end of the window of 16 ticks on for which the next decision is due. -/
def State.windowOver (s : State) : Bool := decide (16 * Config.tick * (s.hub.windows + 1) ≤ s.cycle)

/-- The decision at the end of a window of 16 ticks: the module's one step moves, and is sent to every octet with an allotted row array, which applies
it at its next frame boundary (R374, R375). -/
def execPowerDecision (milliwatts : Nat) (s : State) :=
  runEvent (upd fun s =>
    let h := s.hub
    let dseq := (h.dseq + 1) % 65536
    let step := decideStep milliwatts h.plim h.step
    if !s.windowOver then s else
    { s with
      hub := { h with dseq := dseq, windows := h.windows + 1, step := step }
      octets := (List.range 256).foldl (fun m o =>
        if s.arrayAllotted o then
          let y := s.octet o
          m.set o { y with decisions := y.decisions ++ [{ step := step, plim := h.plim, dseq := dseq }], frame := s.cycle / 8 }
        else m) s.octets }) s

/-- PLIM (R374). -/
def execPlim (watts : Nat) (result : Word) (s : State) :=
  runEvent (upd fun s =>
    command (decide (1200 ≤ watts) && decide (watts ≤ 2000)) (fun s => { s with hub := { s.hub with plim := watts } }) result s) s

end Sys2Proof.Machine
end

