-- ==== Sys2Proof/Machine/Firmware.lean ====
section
/-! DEFINITION. Bring-up (R379), the firmware slots and the live update (R385, R387 to R392), resets (R340, R384), and
attestation (R386). -/

namespace Sys2Proof.Machine

/-! ## Parts of the hub -/

def State.modHub (s : State) (f : Hub → Hub) : State := { s with hub := f s.hub }
def Hub.active (h : Hub) : FwSlot := if h.activeB then h.slotB else h.slotA
def Hub.inactive (h : Hub) : FwSlot := if h.activeB then h.slotA else h.slotB

/-- SOURCE of the hub's own reports (Table 24.6). -/
def sourceHub : Nat := 0xFFF

/-- The bytes of a 256-bit value, least significant first. -/
def digestBytes (d : BitVec 256) : List Byte := bytesOf 32 d.toNat

/-- The update chain takes the digest of the image that becomes active (R386). -/
def extendChain (s : State) : State :=
  s.modHub fun h => { h with block5 := Config.sha256 (digestBytes h.block5 ++ digestBytes h.active.digest) }

/-! ## Dealer cores (R379, R387, R388) -/

/-- HOADDR of dealer core k. -/
def hoAddr (k : Nat) : Word := 0x00EFFFFFFF000000 + 0x1000 * wordOfNat k

/-- Ends the threads of dealer core k. -/
def killDealer (k : Nat) (s : State) : State :=
  (threadsOf (Config.cores + k)).foldl (fun s t => (endThread t false s).setThr t {}) s

/-- Starts thread t0 of dealer core k at the active image's entry, told of the version that ran before. -/
def startDealer (old : BitVec 16) (k : Nat) (s : State) : State :=
  s.setThr (4 * (Config.cores + k))
    { st := .running, pc := s.hub.active.entry, seat := some (1024 + k), sys := true
      regs := ⟨[(10, hoAddr k), (11, old.zeroExtend 64), (12, wordOfNat k)]⟩ }

/-- The dealer cores of the dies in service. -/
def State.dealersUp (s : State) : List Nat := (List.range Config.dealers).filter fun k => s.serves (k / 2)

/-- Every dealer core restarts t0 at the active image (step 4 of R387); QACK is cleared. -/
def restartDealers (old : BitVec 16) (s : State) : State :=
  (s.dealersUp.foldl (fun s k => startDealer old k s) s).modHub fun h => { h with qacks := [] }

/-- The home of dealer core k's handover page, where the page tables map it to a held frame (R388). -/
def State.handover (s : State) (k : Nat) : Option Nat :=
  match s.leafOf (hoAddr k).toNat false with
  | some (b, pte) =>
    let pa := bitsOf pte 47 16 * 65536 + (hoAddr k).toNat % 2 ^ b
    match s.frame (pa / 65536) with
    | .held _ => some pa
    | _ => none
  | none => none

/-- The hub copies the handover structure of dealer core k, LEN bytes of it, with reads at its home (R388, R390). -/
def copyHandover (k : Nat) (s : State) : State :=
  match s.handover k with
  | some a => s.modHub fun h => { h with copies := h.copies.set k (readCells s.mem a (min 0x1000 (s.load a 4))) }
  | none => s

/-- Dealer core k's own copies of n bytes from a home address leave its first-level cache. -/
def forgetHome (k a n : Nat) (s : State) : State :=
  (s.core (Config.cores + k)).l1.toList.foldl (fun s e =>
    (e.2.blocks.filter fun b => decide (b.home < a + n) && decide (a < b.home + 8 * b.words)).foldl
      (fun s b => dropBlock (Config.cores + k) e.1 b false s) s) s

/-- Writes the copied structure back (R392), and what the trial image has cached of its page is gone. -/
def restoreHandover (k : Nat) (s : State) : State :=
  match s.handover k with
  | some a => hubStore a (s.hub.copies.get [] k) (forgetHome k a 0x1000 s)
  | none => s

/-! ## Bring-up (R379, R385) -/

/-- True for an address of host memory, which is not the module's. -/
def onHost (a : Nat) : Bool := decide (Config.hostBit ≤ a) && decide (a < 2 * Config.hostBit)

/-- A module that loses power while it runs: everything but the flash is as after reset (R9), and so every frame is FREE and reads as zero (R334). What
is outside, and the count of free values, go on. -/
def powerLost (s : State) : State :=
  { State.reset with
    mem := s.mem.filter fun c => onHost c.1
    poison := ⟨s.poison.cells.filter fun c => onHost (64 * c.1)⟩
    hub := { State.reset.hub with slotA := s.hub.slotA, slotB := s.hub.slotB, activeB := s.hub.activeB }
    agenda := s.agenda, free := s.free }

/-- Power-on: a valid slot is booted, the other one where the active one is invalid; then the host link comes up. -/
def execPowerOn (s : State) :=
  runEvent (upd fun s =>
    let s := if s.hub.up then powerLost s else s
    let other := !s.hub.active.valid && s.hub.inactive.valid
    let s1 := s.modHub fun h => { h with activeB := if other then !h.activeB else h.activeB, up := true }
    let s2 := if other then report [0] { cls := 4, source := sourceHub, sub := 2 } s1 else s1
    if s2.hub.active.valid then restartDealers 0 s2 else s2) s

/-- A die's training ends (R379): it enters reduced service and its dealer cores start, or it stays out and is logged; full
service is declared with the last die. -/
def execMemoryTrainingDone (die : Nat) (ok : Bool) (s : State) :=
  runEvent (upd fun s =>
    if 8 ≤ die ∨ s.serves die ∨ s.hub.failedDies.contains die then s
    else
      let s1 := s.modHub fun h =>
        { h with
          trained := if ok then h.trained ++ [die] else h.trained
          failedDies := if ok then h.failedDies else h.failedDies ++ [die]
          fullService := decide (h.trained.length + h.failedDies.length = 7), fullTick := s.ticks }
      if !ok then report [0] { cls := 5, source := sourceHub, sub := 5 } s1
      else if s1.hub.up ∧ s1.hub.active.valid then startDealer 0 (2 * die + 1) (startDealer 0 (2 * die) s1)
      else s1) s

/-! ## Live update (R385, R387, R391, R392) -/

/-- The slot that an image's bytes make, with the signature that comes with them (R385). -/
def stagedSlot (bs : List Byte) : FwSlot :=
  { full := true, valid := Config.ecdsaValid (Config.sha256 bs) (Config.imageSig bs), version := Config.imageVersion bs
    digest := Config.sha256 bs, entry := Config.imageEntry bs, image := bs, sig := Config.imageSig bs }

/-- FWSTAGE (R391): an image of GDDR goes into the inactive slot; the active one is refused with −5. -/
def execFwstage (slot src : Word) (len : Nat) (result : Word) (s : State) :=
  runEvent (upd fun s =>
    if slot = (if s.hub.activeB then 1 else 0) then answer result (-5) s
    else if 1 < slot.toNat ∨ Config.gddrTop < src.toNat + len then refuse result s
    else
      let x := stagedSlot (readCells s.mem src.toNat len)
      answer result 0 (s.modHub fun h => if slot = 0 then { h with slotA := x } else { h with slotB := x })) s

/-- Cycles of 1 ms and of 2 ms at full speed (R387). -/
def msCycles : Nat := 1900000

/-- FWACT, steps 1 and 2 (R387): refused with −6 while an update runs, and with −2 for an invalid image. -/
def execFwact (result : Word) (s : State) :=
  runEvent (upd fun s =>
    if s.hub.state = 1 ∨ s.hub.state = 2 then answer result (-6) s
    else if !s.hub.inactive.valid then answer result (-2) s
    else s.modHub fun h => { h with state := 1, deadline := s.cycle + msCycles, result := result }) s

/-- True when every dealer core has set QACK. -/
def Hub.quiesced (h : Hub) : Bool := (List.range Config.dealers).all fun k => h.qacks.contains k

/-- Steps 3 and 4 of R387, where every QACK has come within the limit: the hub measures and hands over; STATE 2 arms the heartbeat. -/
def execFwQuiesceAck (s : State) :=
  runEvent (upd fun s =>
    if s.hub.state ≠ 1 ∨ !s.hub.quiesced ∨ s.hub.deadline < s.cycle then s
    else
      let old := s.hub.active.version
      let ks := List.range Config.dealers
      let s1 := ks.foldl (fun s k => copyHandover k (killDealer k s)) s
      let s2 := extendChain (s1.modHub fun h => { h with activeB := !h.activeB })
      (restartDealers old s2).modHub fun h => { h with state := 2, deadline := s.cycle + 2 * msCycles }) s

/-- 1 ms without every QACK, or a last one after it: STATE is cleared and FWACT gives −3. -/
def execQuiesceTimeout (s : State) :=
  runEvent (upd fun s =>
    if s.hub.state ≠ 1 ∨ s.cycle < s.hub.deadline + b2n s.hub.quiesced then s
    else answer s.hub.result (-3) (s.modHub fun h => { h with state := 0 })) s

/-- A write of FW_BEAT with BEAT 1 by a dealer core (R387, R389): with the trial version within 2 ms it commits the image. -/
def beat (ver : BitVec 16) (s : State) : State :=
  let s1 := s.modHub fun h => { h with beatVer := ver }
  if s.hub.state = 2 ∧ ver = s.hub.active.version ∧ s.cycle ≤ s.hub.deadline then
    answer s.hub.result 0 (s1.modHub fun h => { h with state := 0 })
  else s1

/-- Dealer core k's QACK bit takes a value. -/
def setQack (k : Nat) (v : Bool) (s : State) : State :=
  s.modHub fun h => { h with qacks := if v then (h.qacks.filter fun x => x != k) ++ [k] else h.qacks.filter fun x => x != k }

def execHeartbeat (k : Nat) (ver : BitVec 16) (s : State) :=
  runEvent (upd fun s => if k < Config.dealers then beat ver s else s) s

def execQack (k : Nat) (s : State) := runEvent (upd fun s => if k < Config.dealers then setQack k true s else s) s

/-- The limit passes without a heartbeat (R387, R392): the old image is restored and restarted, with the handover bytes
copied at the measure step; the rollback is logged with the cycle at which the limit passed. -/
def execHeartbeatMissed (s : State) :=
  runEvent (upd fun s =>
    if s.hub.state ≠ 2 ∨ s.cycle ≤ s.hub.deadline then s
    else
      let trial := s.hub.active.version
      let ks := List.range Config.dealers
      let s1 := ks.foldl (fun s k => restoreHandover k (killDealer k s)) { s with cycle := s.hub.deadline }
      let s2 := extendChain (s1.modHub fun h => { h with activeB := !h.activeB, state := 3 })
      let s3 := report [0] { cls := 4, source := sourceHub, sub := 1 } (restartDealers trial s2)
      answer s.hub.result (-4) { s3 with cycle := s.cycle }) s

/-! ## Resets (R340, R356, R384) -/

/-- A core after a reset: its caches, buffers, claims and groups are gone, its threads EMPTY, its buckets with them. -/
def resetCore (n : Nat) (s : State) : State :=
  let s1 := (threadsOf n).foldl (fun s t => s.setThr t {}) (s.setCore n {})
  if isDealer n then s1 else s1.setArb n {}

/-- A cluster after a reset: track contents with their fault flags (R135), coded blocks and the task queue stay; what the expander held is
lost. -/
def resetCluster (c : Nat) (s : State) : State :=
  ((s.cluster c).cmBlocks.foldl (fun s b => s.zeroBytes (cmAddr c (512 * b.1)) 512) s).modCluster c fun x =>
    { tracks := x.tracks.mapVals fun _ k => { k with owner := none, queue := [], shifts := [] }
      cmCoded := x.cmCoded, queue := x.queue }

/-- A deal that had started and lost a part is not run again (R384): its threads end, and its hands and then the deal retire under R215, with
status 0x0A. -/
def interruptDeal (d : Nat) (s : State) : State :=
  let ts := s.threads.toList.filterMap fun c => if c.2.st ≠ .empty ∧ c.2.deal = some d then some c.1 else none
  (ts.foldl (fun s t => endThread t false s) s).modDeal d fun x => { x with status := 0x0A }

/-- A placed deal whose hands had not started is placed again (R384). -/
def requeueDeal (d : Nat) (s : State) : State :=
  ((List.range (s.deal d).hands.length).foldl (fun s h => freeHand d h s) (unpin d s)).modDeal d fun x =>
    { x with st := .ready, fpItem := 0, fpOff := 0 }

/-- What a reset does to the accepted deals that have a part on the cores it covers. -/
def resetDeals (hit : Nat → Bool) (s : State) : State :=
  s.deals.toList.foldl (fun s d =>
    let touched := d.2.hands.any fun h => h.threads.any fun t => hit (coreOf t)
    if d.2.st = .running ∧ touched then interruptDeal d.1 s
    else if d.2.st = .launching ∧ touched then requeueDeal d.1 s
    else s) s

/-- Resets cores with their octets and clusters. -/
def resetCores (ns : List Nat) (s : State) : State :=
  let s1 := ns.foldl (fun s n => resetCore n s) s
  let s2 := (ns.map octetOf).eraseDups.foldl (fun s o => s.setOctet o { rampAt := s.cycle, frame := s.cycle / 8 }) s1
  (ns.map clusterOf).eraseDups.foldl (fun s c => resetCluster c s) s2

/-- A dealer core's reset (R384): nothing accepted is touched, and the firmware restarts where the core's die serves. -/
def execDealerCoreReset (k : Nat) (s : State) :=
  runEvent (upd fun s =>
    if Config.dealers ≤ k then s
    else
      let s1 := setQack k false (resetCore (Config.cores + k) (killDealer k s))
      if s1.dealersUp.contains k ∧ s1.hub.active.valid then startDealer 0 k s1 else s1) s

/-- A die's reset (R384): the cores listed on it and its dealer cores. -/
def execDieReset (die : Nat) (s : State) :=
  runEvent (upd fun s =>
    if 8 ≤ die then s
    else
      let s1 := resetDeals (fun n => !isDealer n && dieOf n == die) s
      let s2 := resetCores ((List.range 256).map fun i => 256 * die + i) s1
      [2 * die, 2 * die + 1].foldl (fun s k =>
        let s3 := setQack k false (resetCore (Config.cores + k) s)
        if s3.dealersUp.contains k ∧ s3.hub.active.valid then startDealer 0 k s3 else s3) s2) s

/-- The buckets of a partition are full again at every arbiter, with every bucket of its own arbiters, whose kitties are empty (R340). -/
def resetBuckets (f : Nat) (s : State) : State :=
  { s with arbs := s.arbs.mapVals fun i a =>
      let mine := fun (b : Nat) => (b / 16 == f && decide (b < 1024)) || b == 2000 + f || s.ownArb f i
      { a with
        buckets := a.buckets.mapVals fun b x => if mine b then Bucket.fresh { rate := x.rate, depth := x.depth } else x
        kitty := if s.ownArb f i then 0 else a.kitty } }

/-- The reset of a partition function (R340, R380, R384): a stop in progress or stopped is discarded, and the function's registers, ACKSEQ among them, are
reset; frame and track contents, journals and task queues stay. That of the management function resets its own registers. -/
def execFunctionReset (fn : Nat) (s : State) :=
  runEvent (upd fun s =>
    if !s.funcAt fn then s
    else if fn = 0 then s.setFunc 0 {}
    else
      let s1 := resetDeals (fun n => s.covers fn n) s
      let s2 := resetCores (s1.allCores fn) s1
      let s3 := (s2.nodesOf fn).foldl (fun s n => s.setSlice n {}) s2
      let s4 := s3.modPart fn fun p => { p with phase := .none, stopped := [], tokens := [], flying := [] }
      let s5 := (s4.seatsOf fn).foldl (fun s k => s.modSeat k fun x => { x with ackSeq := 0 }) s4
      resetBuckets fn (ownWays fn (s5.setFunc fn {}))) s

/-! ## Attestation (R386) -/

/-- The numbers that make up the current partition and seat configuration. -/
def State.configNumbers (s : State) : List Nat :=
  let rate := fun (r : Rate) => [r.rate, r.depth]
  let span := fun (w : Span) => [w.base, w.count]
  (s.parts.toList.flatMap fun p => [p.1, p.2.level] ++ (p.2.cmbase.toList ++ p.2.cmsize.toList).flatMap (fun c => [c.1, c.2])
      ++ p.2.windows.flatMap fun w => [w.owner, w.borrower] ++ span w.frames ++ rate w.bucket)
    ++ s.seats.toList.flatMap fun k =>
      let c := k.2.cfg
      [k.1, c.rtbase.toNat, b2n c.kn5] ++ rate c.issue ++ c.ways ++ c.channel.flatMap rate ++ rate c.injection ++ c.copy.flatMap rate
        ++ c.cpmax ++ rate c.hostIn ++ rate c.hostOut ++ c.tracks.flatMap span ++ c.slots ++ c.sems.flatMap span
        ++ c.mailboxes.flatMap span ++ c.rowOctets.map b2n

/-- The measurement blocks. -/
def State.blocks (s : State) : List (Nat × BitVec 256) :=
  [(1, Config.hubDigest), (2, s.hub.active.digest), (3, s.hub.inactive.digest), (4, Config.configDigest s.configNumbers), (5, s.hub.block5)]

/-- The hub answers a request over a present function's DOE capability. The exchange must have come to step `need` at least and to `step` at most; it
then stands at `step`. A request out of this order gets an error (PRESUMED, log 36: SPDM 1.2). -/
def spdmReply (fn need step : Nat) (a : SpdmAnswer) (s : State) : State :=
  if !s.funcAt fn then s
  else if need ≤ s.hub.spdm.get 0 fn ∧ s.hub.spdm.get 0 fn ≤ step then s.modHub fun h => { h with spdm := h.spdm.set fn step, spdmAns := a }
  else s.modHub fun h => { h with spdmAns := .error }

/-- An answer that moves no exchange on. -/
def spdmError (fn : Nat) (s : State) : State := if s.funcAt fn then s.modHub fun h => { h with spdmAns := .error } else s

/-- GET_VERSION begins an exchange anew. -/
def execGetVersion (fn : Nat) (s : State) :=
  runEvent (upd fun s => spdmReply fn 0 1 (.version 0x12) (s.modHub fun h => { h with spdm := if s.funcAt fn then h.spdm.erase fn else h.spdm })) s
def execGetCapabilities (fn : Nat) (s : State) := runEvent (upd (spdmReply fn 1 2 (.capabilities false))) s
/-- The hub selects P-256 and SHA-256 where the requester offers both, and has no other algorithms to select. -/
def execNegotiateAlgorithms (fn : Nat) (p256 sha256 : Bool) (s : State) :=
  runEvent (upd (if p256 && sha256 then spdmReply fn 2 3 (.algorithms true true) else spdmError fn)) s
def execGetDigests (fn : Nat) (s : State) := runEvent (upd (spdmReply fn 3 3 (.digests [Config.sha256 Config.certChain]))) s
/-- Certificate slot 0 only. -/
def execGetCertificate (fn slot : Nat) (s : State) :=
  runEvent (upd (if slot = 0 then spdmReply fn 3 3 (.certificate 0 Config.certChain) else spdmError fn)) s
/-- What a challenge signs: the nonce and the digest of the measurement blocks (DESIGN CHOICE, log 36). -/
def State.challenged (s : State) (nonce : BitVec 256) : BitVec 256 × List Byte :=
  let d := Config.sha256 (s.blocks.flatMap fun b => digestBytes b.2)
  (d, Config.ecdsaSign (digestBytes nonce ++ digestBytes d))
def execChallenge (fn slot : Nat) (nonce : BitVec 256) (s : State) :=
  runEvent (upd fun s =>
    if slot = 0 then spdmReply fn 3 3 (.challengeAuth 0 nonce (s.challenged nonce).1 (s.challenged nonce).2) s else spdmError fn s) s
def execGetMeasurements (fn index : Nat) (s : State) :=
  runEvent (upd fun s =>
    if index = 0 then spdmReply fn 3 3 (.measurements s.blocks) s
    else if index ≤ 5 then spdmReply fn 3 3 (.measurements (s.blocks.filter fun b => b.1 == index)) s
    else spdmError fn s) s

end Sys2Proof.Machine
end

