-- ==== Sys2Proof/Machine/Csr.lean ====
section
/-! DEFINITION. Control registers: the map of Table 3.8 with who may read and write each (R79, R81), what a read gives (R82 and the
field maps of the owning chapters), what a write does to each field (R8), and the six access forms (R79). -/

namespace Sys2Proof.Machine

/-! ## The map (Table 3.8) -/

/-- Read and Write entries of Table 3.8. -/
inductive CsrAccess where
  | all | system | none
deriving DecidableEq, Repr

/-- The Read and Write entries of a control-register number; none for a number that is not assigned. -/
def csrEntry (n : Nat) : Option (CsrAccess × CsrAccess) :=
  if n ≤ 0x006 then some (.all, .all)
  else if n = 0x007 then some (.all, .none)
  else if 0x010 ≤ n ∧ n ≤ 0x015 then some (.all, .none)
  else if n = 0x016 then some (.all, .all)
  else if n = 0x040 ∨ n = 0x041 ∨ n = 0x080 ∨ n = 0x082 then some (.all, .none)
  else if n = 0x081 then some (.all, .all)
  else if 0x0C0 ≤ n ∧ n ≤ 0x0C8 then some (.all, .none)
  else if n = 0x0C9 then some (.all, .all)
  else if 0x100 ≤ n ∧ n ≤ 0x110 then some (.all, .none)
  else if 0x111 ≤ n ∧ n ≤ 0x113 then some (.all, .all)
  else if n = 0x140 then some (.all, .none)
  else if n = 0x180 ∨ n = 0x181 ∨ n = 0x184 then some (.all, .system)
  else if n = 0x182 ∨ n = 0x183 ∨ n = 0x185 then some (.all, .none)
  else if n = 0x200 ∨ n = 0x201 ∨ n = 0x241 ∨ n = 0x281 ∨ n = 0x2C2 ∨ n = 0x300 then some (.all, .all)
  else if n = 0x240 ∨ n = 0x280 ∨ n = 0x2C0 ∨ n = 0x2C1 then some (.all, .none)
  else if n = 0x340 ∨ n = 0x341 ∨ n = 0x380 ∨ n = 0x3C0 ∨ n = 0x400 ∨ n = 0x401 ∨ n = 0x402 then some (.all, .none)
  else if n = 0x440 then some (.system, .none)
  else if n = 0x441 then some (.system, .system)
  else none

/-- True when the entry denies the access to a thread with this SYS bit (R79). -/
def csrDenied (e : CsrAccess × CsrAccess) (sys reads writes : Bool) : Bool :=
  (writes && (e.2 == .none || (e.2 == .system && !sys))) || (reads && e.1 == .system && !sys)

/-! ## What a read gives -/

/-- The group of banks that the thread's hand holds on its core (R106). -/
def Thread.ownGroup (th : Thread) (c : Core) : Option Group :=
  match th.deal with
  | some d => c.groups.find? fun g => g.deal == d && g.hand == th.hand.toNat
  | none => none

/-- SP_ALLOT (Table 5.2). -/
def spAllot (th : Thread) (c : Core) : Nat :=
  let banks := (List.range 48).foldl
    (fun a b => a + b2n (c.groups.any fun g => decide (g.base ≤ b) && decide (b < g.base + g.size)) * 2 ^ b) 0
  match th.ownGroup c with
  | some g => putAt (log2Fuel 6 g.size + 1) 60 + putAt g.base 54 + banks
  | none => banks

/-- The byte of a binding slot in ST_STAT (R163). -/
def Binding.statByte (b : Binding) : Nat :=
  if b.reg = 0 then 0
  else putAt 1 7 + putAt (b2n b.exh) 6 + putAt (b2n (decide (b.reg.toNat < 28))) 5 + b.reg.toNat % 8

/-- The watermark of a copy channel while it is held (Table 7.8). -/
def Engine.watermark (x : Engine) : Nat := if x.st = .free then 0 else x.dst.toNat + x.landed

/-- PF_LATE, PF_DROP and PF_STALL, kinds 0 to 2 (Table 7.11). -/
def Cluster.pf (c : Cluster) (kind : Nat) : Nat :=
  let sel := (c.pfSel.get 0 kind).toNat
  putAt sel 59 + (if 18 < sel then 0 else c.pfCount.get 0 (pfKey kind sel))

/-- Bits set in the signature of a thread's seat (Table 8.9). -/
def sigPop (s : State) (n i : Nat) : Nat :=
  match (s.thr (4 * n + i)).seat with
  | some k => popCount 512 ((s.core n).sigs.get 0 k).toNat
  | none => 0

/-- SIG_STAT (Table 8.9). -/
def sigStat (s : State) (n : Nat) : Nat :=
  putAt ((s.core n).drops % 2 ^ 16) 48 + putAt (sigPop s n 3) 30 + putAt (sigPop s n 2) 20 + putAt (sigPop s n 1) 10 + sigPop s n 0

/-- MX_STAT (Table 14.7). -/
def mxStat (s : State) (n : Nat) : Nat :=
  let m := s.mx n
  let y := if isDealer n then {} else s.octet (octetOf n)
  let ops := y.ops
  putAt m.queue.length 32 + putAt (b2n (!ops.isEmpty || (!y.pipe.isEmpty && (s.runOctet (octetOf n)).isNone))) 31
    + putAt (b2n (ops.any fun p => !p.started && bitOf (p.reqs.getD (n % 8) {}).desc 6)) 30
    + putAt (b2n m.active) 29 + putAt (b2n m.shadow.loaded) 28 + m.passes % 2 ^ 24

/-- WD_STAT's code of a run's state (Table 15.4). -/
def RunState.code : RunState → Nat
  | .off => 0 | .running => 1 | .faulted => 2 | .halted => 3

/-- WD_STAT (Table 15.9): of the run that covers the octet, or of the last one. -/
def wdStat (s : State) (o : Nat) : Nat :=
  let h := (s.runOctet o).getD o
  let r := s.run h
  let covered := (s.runOctet o).isSome
  putAt (if covered then r.st.code else 0) 62 + putAt (s.octet o).endc.toNat 60 + putAt (b2n (covered && r.ret.isSome)) 59
    + putAt (b2n (covered && r.pair)) 58 + putAt (if covered then o - h else 0) 57 + putAt (bitsOf r.paddr 55 5) 5

/-- TX_STAT (Table 16.7). -/
def txStatWord (y : Octet) : Nat :=
  let op := match y.txq.find? fun q => q.started with
    | some q => txOp q.ctl % 8
    | none => 0
  putAt (y.txBusy % 2 ^ 16) 48 + putAt (y.txDone % 2 ^ 24) 24 + putAt op 4 + y.txq.length

/-- BKT_STAT (Table 19.4). -/
def bktStat (s : State) (n seat : Nat) : Nat :=
  if isDealer n then 0
  else
    let b := (s.arb (channelArb (nodeOf n))).bucket seat
    let l := s.slice (nodeOf n)
    let mine := fun (m : NMap Nat) => (m.toList.filter fun c => c.2 == seat).length
    putAt b.tok 48 + putAt b.debt 32 + putAt (mine l.owners) 27 + putAt (mine l.holders) 22 + putAt (b2n b.lastDemand) 21
      + b.waits % 2 ^ 16

/-- INJ_BKT (Table 22.1): its tokens are those of the start of the cycle. -/
def injBkt (s : State) (n seat : Nat) : Nat :=
  if isDealer n then 0
  else
    let b := (s.arb (injectArb (clusterOf n))).bucket seat
    let tok := b.tok + (if b.spentAt = s.cycle then b.spent else 0)
    putAt tok 48 + putAt b.debt 32 + putAt b.depth 16 + putAt b.rate 8

/-- FW_SLOT (Table 24.3). -/
def fwSlot (h : Hub) : Nat :=
  putAt h.slotB.version.toNat 48 + putAt h.slotA.version.toNat 32 + putAt (b2n (h.state == 1)) 7 + putAt h.state.toNat 5
    + putAt (b2n h.activeB) 4

/-- What thread t reads of control register n. The registers held per octet or cluster read zero on a dealer core, which
lies in none (DESIGN CHOICE, log 8). -/
def csrRead (s : State) (t n : Nat) : Nat :=
  let th := s.thr t
  let core := coreOf t
  let c := s.core core
  let d := isDealer core
  let o := octetOf core
  let cl := clusterOf core
  let seat := th.seat.getD 0
  let issue := (s.arb core).bucket seat
  if n = 0x000 then (th.xstat t).toNat
  else if n = 0x001 then th.xcause.toNat
  else if n = 0x002 then th.xval.toNat
  else if n = 0x003 then th.xpc.toNat
  else if n = 0x004 then th.xtvec.toNat
  else if n = 0x005 then th.xdeleg.toNat
  else if n = 0x006 then th.xscratch.toNat
  else if n = 0x007 then th.xinst.toNat
  else if n = 0x010 then (if d then putAt 1 15 + coreField core else core)
  else if n = 0x011 then s.cycle
  else if n = 0x012 then s.cycle / Config.tick
  else if n = 0x013 then (th.instret + (if th.issued then 0 else 1)).toNat
  else if n = 0x014 then (if d then 0 else putAt issue.depth 32 + issue.rate)
  else if n = 0x015 then (if d then 0 else putAt issue.debt 32 + issue.tok)
  else if n = 0x016 then th.issStall.toNat
  else if n = 0x040 then th.gangStat.toNat
  else if n = 0x041 then putAt (c.imiss % 2 ^ 24) 24 + c.pgwait % 2 ^ 24
  else if n = 0x080 then spAllot th c
  else if n = 0x081 then th.l1pol.toNat
  else if n = 0x082 then putAt (c.writeCounter seat 3) 16 + putAt (c.writeCounter seat 2) 8 + c.writeCounter seat 1
  else if 0x0C0 ≤ n ∧ n < 0x0C8 then (th.head (n - 0x0C0)).dw0
  else if n = 0x0C8 then
    (if d then 0 else putAt (s.seatTracks seat cl).base 48 + putAt (s.seatTracks seat cl).count 32
      + putAt (s.seatSlots seat cl) 16 + s.tracksHeld seat cl)
  else if n = 0x0C9 then putAt c.hdSlips 16 + c.hdBits
  else if 0x100 ≤ n ∧ n < 0x110 then (if d then 0 else (s.engine cl (n - 0x100)).watermark)
  else if n = 0x110 then
    (if d then 0 else putAt (s.cpMax seat cl) 40 + putAt (s.channelsHeld seat cl) 32
      + (List.range 4).foldl (fun a b => a + putAt (th.binds.get {} b).statByte (8 * b)) 0)
  else if 0x111 ≤ n ∧ n ≤ 0x113 then (if d then 0 else (s.cluster cl).pf (n - 0x111))
  else if n = 0x140 then sigStat s core
  else if n = 0x180 then th.domMemb.toNat
  else if n = 0x181 then th.domPol.toNat
  else if n = 0x182 then th.dealSeq.toNat
  else if n = 0x183 then th.handId.toNat
  else if n = 0x184 then putAt (b2n (s.seat seat).mbxValid) 63 + putAt (s.seat seat).mbxMa.toNat 4
  else if n = 0x185 then th.trick.toNat
  else if n = 0x200 then th.frm.toNat
  else if n = 0x201 then putAt c.lossWin 16 + putAt c.lossB 1 + c.lossA
  else if n = 0x240 then (s.vgrant core).toNat
  else if n = 0x241 then putAt c.vsub.toNat 56 + putAt (bitsOf c.vpc 55 2) 2
  else if n = 0x280 then c.mx.ctx.toNat
  else if n = 0x281 then mxStat s core
  else if n = 0x2C0 then (if d then 0 else wdStat s o)
  else if n = 0x2C1 then (if d then 0 else (s.octet o).wdFault.toNat)
  else if n = 0x2C2 then (if d then 0 else putAt (b2n (s.octet o).cflag) 16 + (s.octet o).cnt.toNat)
  else if n = 0x300 then (if d then 0 else txStatWord (s.octet o))
  else if n = 0x340 then
    putAt (c.plbMiss % 2 ^ 16) 32 + putAt (c.plbShoots % 2 ^ 16) 16 + putAt (b2n c.stale) 7 + c.plb.length
  else if n = 0x341 then
    (let u := s.cluster (xlatOf core)
     let running := (u.walkq.filter fun w => w.running).length
     putAt (u.walks % 2 ^ 16) 48 + putAt (u.xfaults % 2 ^ 16) 32 + putAt (u.walkq.length - running) 12 + running)
  else if n = 0x380 then bktStat s core seat
  else if n = 0x3C0 then injBkt s core seat
  else if n = 0x400 then
    (if d then 0 else putAt (s.octet o).plim 32 + putAt ((s.octet o).dseq % 2 ^ 16) 16 + (s.octet o).step)
  else if n = 0x401 then
    (match th.deal with
      | some k => (s.deal k).energyTick / 1024 % 2 ^ 48
      | none => 0)
  else if n = 0x402 then
    (if d then 0 else putAt (s.octet o).dummy 16 + putAt ((s.cycle - (s.octet o).rampAt) % 32) 4 + (s.octet o).level)
  else if n = 0x440 then fwSlot s.hub
  else if n = 0x441 then
    putAt s.hub.beatVer.toNat 32 + putAt (b2n (d && s.hub.qacks.contains (core - Config.cores))) 1
  else 0

/-- What a read also does: the RC field of ISS_STALL clears (Table 0.3). -/
def csrClear (t n : Nat) (s : State) : State := if n = 0x016 then s.modThr t fun th => { th with issStall := 0 } else s

/-! ## What a write does -/

/-- A write of FW_BEAT (Table 24.3): VER, the writing dealer core's QACK, and with BEAT 1 a heartbeat. -/
def writeBeat (core : Nat) (v : Word) (s : State) : State :=
  let ver := BitVec.ofNat 16 (bitsOf v 47 32)
  let s1 := s.modHub fun h => { h with beatVer := ver }
  if isDealer core then
    let s2 := setQack (core - Config.cores) (bitOf v 1) s1
    if bitOf v 0 then beat ver s2 else s2
  else s1

/-- A write of one of PF_LATE, PF_DROP and PF_STALL (R164). -/
def writePf (kind : Nat) (v : Word) (c : Cluster) : Cluster :=
  let sel := bitsOf v 63 59
  { c with
    pfSel := c.pfSel.set kind (BitVec.ofNat 5 sel)
    pfCount := if 18 < sel then c.pfCount else c.pfCount.set (pfKey kind sel) (bitsOf v 47 0) }

/-- A write by thread t to control register n: each RW field takes its bits, every other field stays (R8). Flags raised, loss noted and transform
counts added in the same cycle stay in it (R241, R244, R318). -/
def csrWrite (t n : Nat) (v : Word) (s : State) : State :=
  let core := coreOf t
  let d := isDealer core
  let o := octetOf core
  let cl := clusterOf core
  if n = 0x000 then s.modThr t fun th => { th with inTrap := bitOf v 14 }
  else if n = 0x001 then
    s.modThr t fun th => { th with causeSub := BitVec.ofNat 8 (bitsOf v 15 8), cause := BitVec.ofNat 8 (bitsOf v 7 0) }
  else if n = 0x002 then s.modThr t fun th => { th with xval := v }
  else if n = 0x003 then s.modThr t fun th => { th with xpc := v }
  else if n = 0x004 then s.modThr t fun th => { th with xtvec := v &&& ~~~3 }
  else if n = 0x005 then s.modThr t fun th => { th with xdeleg := v.truncate 9 &&& 0x116 }
  else if n = 0x006 then s.modThr t fun th => { th with xscratch := v }
  else if n = 0x081 then s.modThr t fun th => { th with l1pol := v.truncate 8 &&& 0xE3 }
  else if n = 0x0C9 then
    noteWrote n core (s.modCore core fun c => { c with hdSlips := bitsOf v 31 16, hdBits := bitsOf v 15 0 })
  else if 0x111 ≤ n ∧ n ≤ 0x113 then (if d then s else s.modCluster cl (writePf (n - 0x111) v))
  else if n = 0x180 then s.modThr t fun th => { th with memb := v.truncate 9 }
  else if n = 0x181 then s.modThr t fun th => { th with domPol := v.truncate 20 }
  else if n = 0x184 then
    match (s.thr t).seat with
    | some k => s.modSeat k fun x => { x with mbxValid := bitOf v 63, mbxMa := v.extractLsb' 4 52 }
    | none => s
  else if n = 0x200 then s.modThr t fun th => { th.setFrm v with flags := (th.setFrm v).flags ||| s.flagsNow t }
  else if n = 0x201 then
    let k := s.nowOf 0x201 core
    s.modCore core fun c => { c with
      lossWin := min (2 ^ 32 - 1) (bitsOf v 47 16 + (k.map fun x => bitsOf (wordOfNat x) 47 16).sum)
      lossB := if bitOf v 1 || k.any fun x => bitOf (wordOfNat x) 1 then 1 else 0
      lossA := if bitOf v 0 || k.any fun x => bitOf (wordOfNat x) 0 then 1 else 0 }
  else if n = 0x241 then
    s.modCore core fun c => { c with vsub := v.extractLsb' 56 8, vpc := v &&& 0x00FFFFFFFFFFFFFC }
  else if n = 0x281 then s.modCore core fun c => { c with mx := { c.mx with passes := bitsOf v 23 0 } }
  else if n = 0x2C2 then
    (if d then s else s.modOctet o fun y => { y with cflag := bitOf v 16, cnt := v.truncate 16 })
  else if n = 0x300 then
    let k := s.nowOf 0x300 o
    (if d then s else s.modOctet o fun y => { y with
      txBusy := (bitsOf v 63 48 + (k.map fun x => bitsOf (wordOfNat x) 63 48).sum) % 2 ^ 16
      txDone := (bitsOf v 47 24 + (k.map fun x => bitsOf (wordOfNat x) 47 24).sum) % 2 ^ 24 })
  else if n = 0x441 then writeBeat core v s
  else s

/-! ## The access forms (R79) -/

/-- Which of w, s and c a form is. -/
inductive CsrForm where
  | w | s | c
deriving DecidableEq, Repr

/-- What a form writes, from the old value and the source. -/
def CsrForm.value (f : CsrForm) (old src : Word) : Word :=
  match f with
  | .w => src
  | .s => old ||| src
  | .c => old &&& ~~~src

/-- The access: `field` is inst[19:15]. -/
def csrAccess (f : CsrForm) (word : IWord) (rd : Reg) (csr : BitVec 12) (field : BitVec 5) (src : Word) : Act Unit := do
  let t ← cur
  let reads := f != .w || rd != 0
  let writes := f == .w || field != 0
  match csrEntry csr.toNat with
  | none => trap 1 4 (word.zeroExtend 64)
  | some e =>
    trapIf (csrDenied e (← me).sys reads writes) 1 5 (word.zeroExtend 64)
    let old ← look fun s => wordOfNat (csrRead s t csr.toNat)
    if reads then upd (csrClear t csr.toNat)
    if writes then upd (csrWrite t csr.toNat (f.value old src))
    if reads then writeX rd old

def execCsrrw (rd : Reg) (csr : BitVec 12) (rs1 : Reg) (s : State) :=
  runPlain (.csrrw rd csr rs1) (do csrAccess .w (encode (.csrrw rd csr rs1)) rd csr rs1 (← readX rs1)) s

def execCsrrs (rd : Reg) (csr : BitVec 12) (rs1 : Reg) (s : State) :=
  runPlain (.csrrs rd csr rs1) (do csrAccess .s (encode (.csrrs rd csr rs1)) rd csr rs1 (← readX rs1)) s

def execCsrrc (rd : Reg) (csr : BitVec 12) (rs1 : Reg) (s : State) :=
  runPlain (.csrrc rd csr rs1) (do csrAccess .c (encode (.csrrc rd csr rs1)) rd csr rs1 (← readX rs1)) s

def execCsrrwi (rd : Reg) (csr : BitVec 12) (zimm : BitVec 5) (s : State) :=
  runPlain (.csrrwi rd csr zimm) (csrAccess .w (encode (.csrrwi rd csr zimm)) rd csr zimm (zimm.zeroExtend 64)) s

def execCsrrsi (rd : Reg) (csr : BitVec 12) (zimm : BitVec 5) (s : State) :=
  runPlain (.csrrsi rd csr zimm) (csrAccess .s (encode (.csrrsi rd csr zimm)) rd csr zimm (zimm.zeroExtend 64)) s

def execCsrrci (rd : Reg) (csr : BitVec 12) (zimm : BitVec 5) (s : State) :=
  runPlain (.csrrci rd csr zimm) (csrAccess .c (encode (.csrrci rd csr zimm)) rd csr zimm (zimm.zeroExtend 64)) s

/-- The write of a control register in the view of thread tid: its writable fields take the value by their access codes
(R8); a number that is not assigned, or that the thread may not write, is left. -/
def execRegisterWrite (tid : Nat) (csr : BitVec 12) (v : Word) (s : State) :=
  runEvent (upd fun s =>
    match csrEntry csr.toNat with
    | some e => if csrDenied e (s.thr tid).sys false true then s else csrWrite tid csr.toNat v s
    | none => s) s

end Sys2Proof.Machine
end

