-- ==== Sys2Proof/Machine/Dispatch.lean ====
section
/-! DEFINITION. Dispatch: one arm per constructor of Instr, each one call of its meaning. -/

namespace Sys2Proof.Machine

def exec (i : Instr) (s : State) : Host.Outcome State Fault Refusal :=
  match i with
  | .lb rd rs1 imm => Sys2Proof.Machine.execLb rd rs1 imm s
  | .lh rd rs1 imm => Sys2Proof.Machine.execLh rd rs1 imm s
  | .lw rd rs1 imm => Sys2Proof.Machine.execLw rd rs1 imm s
  | .ld rd rs1 imm => Sys2Proof.Machine.execLd rd rs1 imm s
  | .lbu rd rs1 imm => Sys2Proof.Machine.execLbu rd rs1 imm s
  | .lhu rd rs1 imm => Sys2Proof.Machine.execLhu rd rs1 imm s
  | .lwu rd rs1 imm => Sys2Proof.Machine.execLwu rd rs1 imm s
  | .sb rs2 rs1 imm => Sys2Proof.Machine.execSb rs2 rs1 imm s
  | .sh rs2 rs1 imm => Sys2Proof.Machine.execSh rs2 rs1 imm s
  | .sw rs2 rs1 imm => Sys2Proof.Machine.execSw rs2 rs1 imm s
  | .sd rs2 rs1 imm => Sys2Proof.Machine.execSd rs2 rs1 imm s
  | .addi rd rs1 imm => Sys2Proof.Machine.execAddi rd rs1 imm s
  | .slti rd rs1 imm => Sys2Proof.Machine.execSlti rd rs1 imm s
  | .sltiu rd rs1 imm => Sys2Proof.Machine.execSltiu rd rs1 imm s
  | .xori rd rs1 imm => Sys2Proof.Machine.execXori rd rs1 imm s
  | .ori rd rs1 imm => Sys2Proof.Machine.execOri rd rs1 imm s
  | .andi rd rs1 imm => Sys2Proof.Machine.execAndi rd rs1 imm s
  | .slli rd rs1 sh => Sys2Proof.Machine.execSlli rd rs1 sh s
  | .srli rd rs1 sh => Sys2Proof.Machine.execSrli rd rs1 sh s
  | .srai rd rs1 sh => Sys2Proof.Machine.execSrai rd rs1 sh s
  | .addiw rd rs1 imm => Sys2Proof.Machine.execAddiw rd rs1 imm s
  | .slliw rd rs1 sh => Sys2Proof.Machine.execSlliw rd rs1 sh s
  | .srliw rd rs1 sh => Sys2Proof.Machine.execSrliw rd rs1 sh s
  | .sraiw rd rs1 sh => Sys2Proof.Machine.execSraiw rd rs1 sh s
  | .add rd rs1 rs2 => Sys2Proof.Machine.execAdd rd rs1 rs2 s
  | .sub rd rs1 rs2 => Sys2Proof.Machine.execSub rd rs1 rs2 s
  | .sll rd rs1 rs2 => Sys2Proof.Machine.execSll rd rs1 rs2 s
  | .slt rd rs1 rs2 => Sys2Proof.Machine.execSlt rd rs1 rs2 s
  | .sltu rd rs1 rs2 => Sys2Proof.Machine.execSltu rd rs1 rs2 s
  | .xor rd rs1 rs2 => Sys2Proof.Machine.execXor rd rs1 rs2 s
  | .srl rd rs1 rs2 => Sys2Proof.Machine.execSrl rd rs1 rs2 s
  | .sra rd rs1 rs2 => Sys2Proof.Machine.execSra rd rs1 rs2 s
  | .or rd rs1 rs2 => Sys2Proof.Machine.execOr rd rs1 rs2 s
  | .and rd rs1 rs2 => Sys2Proof.Machine.execAnd rd rs1 rs2 s
  | .mul rd rs1 rs2 => Sys2Proof.Machine.execMul rd rs1 rs2 s
  | .mulh rd rs1 rs2 => Sys2Proof.Machine.execMulh rd rs1 rs2 s
  | .mulhsu rd rs1 rs2 => Sys2Proof.Machine.execMulhsu rd rs1 rs2 s
  | .mulhu rd rs1 rs2 => Sys2Proof.Machine.execMulhu rd rs1 rs2 s
  | .div rd rs1 rs2 => Sys2Proof.Machine.execDiv rd rs1 rs2 s
  | .divu rd rs1 rs2 => Sys2Proof.Machine.execDivu rd rs1 rs2 s
  | .rem rd rs1 rs2 => Sys2Proof.Machine.execRem rd rs1 rs2 s
  | .remu rd rs1 rs2 => Sys2Proof.Machine.execRemu rd rs1 rs2 s
  | .addw rd rs1 rs2 => Sys2Proof.Machine.execAddw rd rs1 rs2 s
  | .subw rd rs1 rs2 => Sys2Proof.Machine.execSubw rd rs1 rs2 s
  | .sllw rd rs1 rs2 => Sys2Proof.Machine.execSllw rd rs1 rs2 s
  | .srlw rd rs1 rs2 => Sys2Proof.Machine.execSrlw rd rs1 rs2 s
  | .sraw rd rs1 rs2 => Sys2Proof.Machine.execSraw rd rs1 rs2 s
  | .mulw rd rs1 rs2 => Sys2Proof.Machine.execMulw rd rs1 rs2 s
  | .divw rd rs1 rs2 => Sys2Proof.Machine.execDivw rd rs1 rs2 s
  | .divuw rd rs1 rs2 => Sys2Proof.Machine.execDivuw rd rs1 rs2 s
  | .remw rd rs1 rs2 => Sys2Proof.Machine.execRemw rd rs1 rs2 s
  | .remuw rd rs1 rs2 => Sys2Proof.Machine.execRemuw rd rs1 rs2 s
  | .lui rd imm => Sys2Proof.Machine.execLui rd imm s
  | .auipc rd imm => Sys2Proof.Machine.execAuipc rd imm s
  | .jal rd off => Sys2Proof.Machine.execJal rd off s
  | .jalr rd rs1 imm => Sys2Proof.Machine.execJalr rd rs1 imm s
  | .beq rs1 rs2 off => Sys2Proof.Machine.execBeq rs1 rs2 off s
  | .bne rs1 rs2 off => Sys2Proof.Machine.execBne rs1 rs2 off s
  | .blt rs1 rs2 off => Sys2Proof.Machine.execBlt rs1 rs2 off s
  | .bge rs1 rs2 off => Sys2Proof.Machine.execBge rs1 rs2 off s
  | .bltu rs1 rs2 off => Sys2Proof.Machine.execBltu rs1 rs2 off s
  | .bgeu rs1 rs2 off => Sys2Proof.Machine.execBgeu rs1 rs2 off s
  | .csrrw rd csr rs1 => Sys2Proof.Machine.execCsrrw rd csr rs1 s
  | .csrrs rd csr rs1 => Sys2Proof.Machine.execCsrrs rd csr rs1 s
  | .csrrc rd csr rs1 => Sys2Proof.Machine.execCsrrc rd csr rs1 s
  | .csrrwi rd csr zimm => Sys2Proof.Machine.execCsrrwi rd csr zimm s
  | .csrrsi rd csr zimm => Sys2Proof.Machine.execCsrrsi rd csr zimm s
  | .csrrci rd csr zimm => Sys2Proof.Machine.execCsrrci rd csr zimm s
  | .bfx rd rs1 rs2 => Sys2Proof.Machine.execBfx rd rs1 rs2 s
  | .bfxs rd rs1 rs2 => Sys2Proof.Machine.execBfxs rd rs1 rs2 s
  | .bfi rd rs1 rs2 => Sys2Proof.Machine.execBfi rd rs1 rs2 s
  | .clz rd rs1 => Sys2Proof.Machine.execClz rd rs1 s
  | .ctz rd rs1 => Sys2Proof.Machine.execCtz rd rs1 s
  | .cpop rd rs1 => Sys2Proof.Machine.execCpop rd rs1 s
  | .rev8 rd rs1 => Sys2Proof.Machine.execRev8 rd rs1 s
  | .ldo rd rs1 scope wait pol off => Sys2Proof.Machine.execLdo rd rs1 scope wait pol off s
  | .lwo rd rs1 scope wait pol off => Sys2Proof.Machine.execLwo rd rs1 scope wait pol off s
  | .sdo rs2 rs1 scope wait pol off => Sys2Proof.Machine.execSdo rs2 rs1 scope wait pol off s
  | .swo rs2 rs1 scope wait pol off => Sys2Proof.Machine.execSwo rs2 rs1 scope wait pol off s
  | .rst rs2 rs1 off => Sys2Proof.Machine.execRst rs2 rs1 off s
  | .rsa rs2 rs1 off => Sys2Proof.Machine.execRsa rs2 rs1 off s
  | .wcwait mask => Sys2Proof.Machine.execWcwait mask s
  | .wcread rd c => Sys2Proof.Machine.execWcread rd c s
  | .cbCfg h rs1 => Sys2Proof.Machine.execCbCfg h rs1 s
  | .cbWfill rd h rs1 => Sys2Proof.Machine.execCbWfill rd h rs1 s
  | .cbWfree rd h rs1 => Sys2Proof.Machine.execCbWfree rd h rs1 s
  | .cbAdvp h rs1 => Sys2Proof.Machine.execCbAdvp h rs1 s
  | .cbAdvc h rs1 => Sys2Proof.Machine.execCbAdvc h rs1 s
  | .pfxImm p => Sys2Proof.Machine.execPfxImm p s
  | .pfxOrd wait => Sys2Proof.Machine.execPfxOrd wait s
  | .trap code rs1 => Sys2Proof.Machine.execTrap code rs1 s
  | .xret => Sys2Proof.Machine.execXret s
  | .idle rd rs1 => Sys2Proof.Machine.execIdle rd rs1 s
  | .yield => Sys2Proof.Machine.execYield s
  | .fuse rd rs1 rs2 => Sys2Proof.Machine.execFuse rd rs1 rs2 s
  | .split => Sys2Proof.Machine.execSplit s
  | .hdAcq rd h rs1 => Sys2Proof.Machine.execHdAcq rd h rs1 s
  | .hdRel h keep => Sys2Proof.Machine.execHdRel h keep s
  | .hdSeek h rs1 rs2 => Sys2Proof.Machine.execHdSeek h rs1 rs2 s
  | .hdRds rd h => Sys2Proof.Machine.execHdRds rd h s
  | .hdWrs h rs1 => Sys2Proof.Machine.execHdWrs h rs1 s
  | .hdRew h => Sys2Proof.Machine.execHdRew h s
  | .hdPos rd h => Sys2Proof.Machine.execHdPos rd h s
  | .hdChk rd h resync => Sys2Proof.Machine.execHdChk rd h resync s
  | .hdSave h rs1 => Sys2Proof.Machine.execHdSave h rs1 s
  | .hdLoad h rs1 => Sys2Proof.Machine.execHdLoad h rs1 s
  | .stBind xs rs1 => Sys2Proof.Machine.execStBind xs rs1 s
  | .stRel xs => Sys2Proof.Machine.execStRel xs s
  | .stPos rd xs => Sys2Proof.Machine.execStPos rd xs s
  | .cpGo rd rs1 rs2 => Sys2Proof.Machine.execCpGo rd rs1 rs2 s
  | .gtGo rd rs1 rs2 => Sys2Proof.Machine.execGtGo rd rs1 rs2 s
  | .cpWait rd rs1 => Sys2Proof.Machine.execCpWait rd rs1 s
  | .cpStop rs1 => Sys2Proof.Machine.execCpStop rs1 s
  | .cpStat rd rs1 => Sys2Proof.Machine.execCpStat rd rs1 s
  | .fenceS scope pred succ => Sys2Proof.Machine.execFenceS scope pred succ s
  | .acq full scope => Sys2Proof.Machine.execAcq full scope s
  | .rel scope => Sys2Proof.Machine.execRel scope s
  | .sigPub add scope rs1 rs2 => Sys2Proof.Machine.execSigPub add scope rs1 rs2 s
  | .sigInv scope rd rs1 => Sys2Proof.Machine.execSigInv scope rd rs1 s
  | .fenceEng mask => Sys2Proof.Machine.execFenceEng mask s
  | .amoAdd aq rl scx rd rs1 rs2 => Sys2Proof.Machine.execAmoAdd aq rl scx rd rs1 rs2 s
  | .amoSwap aq rl scx rd rs1 rs2 => Sys2Proof.Machine.execAmoSwap aq rl scx rd rs1 rs2 s
  | .amoAnd aq rl scx rd rs1 rs2 => Sys2Proof.Machine.execAmoAnd aq rl scx rd rs1 rs2 s
  | .amoOr aq rl scx rd rs1 rs2 => Sys2Proof.Machine.execAmoOr aq rl scx rd rs1 rs2 s
  | .amoXor aq rl scx rd rs1 rs2 => Sys2Proof.Machine.execAmoXor aq rl scx rd rs1 rs2 s
  | .amoMin aq rl scx rd rs1 rs2 => Sys2Proof.Machine.execAmoMin aq rl scx rd rs1 rs2 s
  | .amoMax aq rl scx rd rs1 rs2 => Sys2Proof.Machine.execAmoMax aq rl scx rd rs1 rs2 s
  | .amoMinn aq rl scx rd rs1 rs2 => Sys2Proof.Machine.execAmoMinn aq rl scx rd rs1 rs2 s
  | .amoMaxn aq rl scx rd rs1 rs2 => Sys2Proof.Machine.execAmoMaxn aq rl scx rd rs1 rs2 s
  | .amoCas aq rl scx rd rs1 rs2 => Sys2Proof.Machine.execAmoCas aq rl scx rd rs1 rs2 s
  | .lr aq rl scx rd rs1 => Sys2Proof.Machine.execLr aq rl scx rd rs1 s
  | .sc aq rl scx rd rs1 rs2 => Sys2Proof.Machine.execSc aq rl scx rd rs1 rs2 s
  | .barCfg rs1 rs2 => Sys2Proof.Machine.execBarCfg rs1 rs2 s
  | .barArr rd rs1 => Sys2Proof.Machine.execBarArr rd rs1 s
  | .barWait rd rs1 rs2 => Sys2Proof.Machine.execBarWait rd rs1 rs2 s
  | .barWaitN rd rs1 rs2 => Sys2Proof.Machine.execBarWaitN rd rs1 rs2 s
  | .domSync rd k => Sys2Proof.Machine.execDomSync rd k s
  | .semPost rs1 rs2 => Sys2Proof.Machine.execSemPost rs1 rs2 s
  | .semWait rd rs1 rs2 => Sys2Proof.Machine.execSemWait rd rs1 rs2 s
  | .semWaitN rd rs1 rs2 => Sys2Proof.Machine.execSemWaitN rd rs1 rs2 s
  | .mbxBind rd rs1 => Sys2Proof.Machine.execMbxBind rd rs1 s
  | .mbxRel rd rs1 => Sys2Proof.Machine.execMbxRel rd rs1 s
  | .mbxPeek rd => Sys2Proof.Machine.execMbxPeek rd s
  | .mbxTake rd rs1 => Sys2Proof.Machine.execMbxTake rd rs1 s
  | .mbxDone rs1 => Sys2Proof.Machine.execMbxDone rs1 s
  | .msgSend last rs1 rs2 => Sys2Proof.Machine.execMsgSend last rs1 rs2 s
  | .msgAbort => Sys2Proof.Machine.execMsgAbort s
  | .dealPost rd rs1 => Sys2Proof.Machine.execDealPost rd rs1 s
  | .dealStat rd rs1 => Sys2Proof.Machine.execDealStat rd rs1 s
  | .handExit => Sys2Proof.Machine.execHandExit s
  | .rngPush rd rs1 rs2 => Sys2Proof.Machine.execRngPush rd rs1 rs2 s
  | .rngPop rd rs1 rs2 => Sys2Proof.Machine.execRngPop rd rs1 rs2 s
  | .rngSkip rd rs1 => Sys2Proof.Machine.execRngSkip rd rs1 s
  | .vclaim rd rs1 => Sys2Proof.Machine.execVclaim rd rs1 s
  | .vrel => Sys2Proof.Machine.execVrel s
  | .vlen rd rs1 => Sys2Proof.Machine.execVlen rd rs1 s
  | .vfence r sp rs1 rs2 => Sys2Proof.Machine.execVfence r sp rs1 rs2 s
  | .vfadd t vd vs1 vs2 => Sys2Proof.Machine.execVfadd t vd vs1 vs2 s
  | .vfsub t vd vs1 vs2 => Sys2Proof.Machine.execVfsub t vd vs1 vs2 s
  | .vfmul t vd vs1 vs2 => Sys2Proof.Machine.execVfmul t vd vs1 vs2 s
  | .vfma t vd vs1 vs2 => Sys2Proof.Machine.execVfma t vd vs1 vs2 s
  | .vfms t vd vs1 vs2 => Sys2Proof.Machine.execVfms t vd vs1 vs2 s
  | .vfnms t vd vs1 vs2 => Sys2Proof.Machine.execVfnms t vd vs1 vs2 s
  | .vfmin t vd vs1 vs2 => Sys2Proof.Machine.execVfmin t vd vs1 vs2 s
  | .vfmax t vd vs1 vs2 => Sys2Proof.Machine.execVfmax t vd vs1 vs2 s
  | .vfeq t vd vs1 vs2 => Sys2Proof.Machine.execVfeq t vd vs1 vs2 s
  | .vflt t vd vs1 vs2 => Sys2Proof.Machine.execVflt t vd vs1 vs2 s
  | .vfle t vd vs1 vs2 => Sys2Proof.Machine.execVfle t vd vs1 vs2 s
  | .vfsel t vd vs1 vs2 => Sys2Proof.Machine.execVfsel t vd vs1 vs2 s
  | .vadd z n vd vs1 vs2 => Sys2Proof.Machine.execVadd z n vd vs1 vs2 s
  | .vsub z n vd vs1 vs2 => Sys2Proof.Machine.execVsub z n vd vs1 vs2 s
  | .vmul z n vd vs1 vs2 => Sys2Proof.Machine.execVmul z n vd vs1 vs2 s
  | .vadds z n vd vs1 vs2 => Sys2Proof.Machine.execVadds z n vd vs1 vs2 s
  | .vsubs z n vd vs1 vs2 => Sys2Proof.Machine.execVsubs z n vd vs1 vs2 s
  | .vmin z n vd vs1 vs2 => Sys2Proof.Machine.execVmin z n vd vs1 vs2 s
  | .vmax z n vd vs1 vs2 => Sys2Proof.Machine.execVmax z n vd vs1 vs2 s
  | .vand z n vd vs1 vs2 => Sys2Proof.Machine.execVand z n vd vs1 vs2 s
  | .vor z n vd vs1 vs2 => Sys2Proof.Machine.execVor z n vd vs1 vs2 s
  | .vxor z n vd vs1 vs2 => Sys2Proof.Machine.execVxor z n vd vs1 vs2 s
  | .vsll z n vd vs1 vs2 => Sys2Proof.Machine.execVsll z n vd vs1 vs2 s
  | .vsr z n vd vs1 vs2 => Sys2Proof.Machine.execVsr z n vd vs1 vs2 s
  | .veq z n vd vs1 vs2 => Sys2Proof.Machine.execVeq z n vd vs1 vs2 s
  | .vlt z n vd vs1 vs2 => Sys2Proof.Machine.execVlt z n vd vs1 vs2 s
  | .vcvt dst rtz src vd vs1 => Sys2Proof.Machine.execVcvt dst rtz src vd vs1 s
  | .vscale t vd vs1 rs2 => Sys2Proof.Machine.execVscale t vd vs1 rs2 s
  | .vscalea t vd vs1 rs2 => Sys2Proof.Machine.execVscalea t vd vs1 rs2 s
  | .vexp2 t vd vs1 => Sys2Proof.Machine.execVexp2 t vd vs1 s
  | .vlog2 t vd vs1 => Sys2Proof.Machine.execVlog2 t vd vs1 s
  | .vrcp t vd vs1 => Sys2Proof.Machine.execVrcp t vd vs1 s
  | .vrsqrt t vd vs1 => Sys2Proof.Machine.execVrsqrt t vd vs1 s
  | .vredsum t vd vs1 => Sys2Proof.Machine.execVredsum t vd vs1 s
  | .vredmax t vd vs1 => Sys2Proof.Machine.execVredmax t vd vs1 s
  | .vredmin t vd vs1 => Sys2Proof.Machine.execVredmin t vd vs1 s
  | .vdot t vd vs1 vs2 => Sys2Proof.Machine.execVdot t vd vs1 vs2 s
  | .vopa t vd vs1 vs2 => Sys2Proof.Machine.execVopa t vd vs1 vs2 s
  | .vld z vd rs1 => Sys2Proof.Machine.execVld z vd rs1 s
  | .vlds z vd rs1 rs2 => Sys2Proof.Machine.execVlds z vd rs1 rs2 s
  | .vldx z vd rs1 vs2 => Sys2Proof.Machine.execVldx z vd rs1 vs2 s
  | .vst z vs3 rs1 => Sys2Proof.Machine.execVst z vs3 rs1 s
  | .vsts z vs3 rs1 rs2 => Sys2Proof.Machine.execVsts z vs3 rs1 rs2 s
  | .vbcast z n vd rs1 => Sys2Proof.Machine.execVbcast z n vd rs1 s
  | .vperm z n vd vs1 vs2 => Sys2Proof.Machine.execVperm z n vd vs1 vs2 s
  | .vmv z n vd vs1 => Sys2Proof.Machine.execVmv z n vd vs1 s
  | .vmvx z n rd vs1 rs2 => Sys2Proof.Machine.execVmvx z n rd vs1 rs2 s
  | .vins z n vd rs1 rs2 => Sys2Proof.Machine.execVins z n vd rs1 rs2 s
  | .vmpop z n rd vs1 => Sys2Proof.Machine.execVmpop z n rd vs1 s
  | .vmfirst z n rd vs1 => Sys2Proof.Machine.execVmfirst z n rd vs1 s
  | .mxCfg rs1 => Sys2Proof.Machine.execMxCfg rs1 s
  | .mxLda rs1 rs2 => Sys2Proof.Machine.execMxLda rs1 rs2 s
  | .mxLdb rs1 => Sys2Proof.Machine.execMxLdb rs1 s
  | .mxGo rs1 => Sys2Proof.Machine.execMxGo rs1 s
  | .mxPop vd rd => Sys2Proof.Machine.execMxPop vd rd s
  | .mxDrop => Sys2Proof.Machine.execMxDrop s
  | .mxAbort => Sys2Proof.Machine.execMxAbort s
  | .wdEnter rd rs1 rs2 => Sys2Proof.Machine.execWdEnter rd rs1 rs2 s
  | .wdExit => Sys2Proof.Machine.execWdExit s
  | .wdResume rd rs1 => Sys2Proof.Machine.execWdResume rd rs1 s
  | .wdWait rd => Sys2Proof.Machine.execWdWait rd s
  | .txReq rd rs1 => Sys2Proof.Machine.execTxReq rd rs1 s
  | .txRes rd => Sys2Proof.Machine.execTxRes rd s
  | .txStat rd => Sys2Proof.Machine.execTxStat rd s
  | .registerWrite tid csr v => Sys2Proof.Machine.execRegisterWrite tid csr v s
  | .idleTimeout tid => Sys2Proof.Machine.execIdleTimeout tid s
  | .fuseResolve tid => Sys2Proof.Machine.execFuseResolve tid s
  | .gangUnitArrival tid => Sys2Proof.Machine.execGangUnitArrival tid s
  | .headGrant cluster track => Sys2Proof.Machine.execHeadGrant cluster track s
  | .trackShiftEnd cluster track slip => Sys2Proof.Machine.execTrackShiftEnd cluster track slip s
  | .shiftSlotGrant cluster track => Sys2Proof.Machine.execShiftSlotGrant cluster track s
  | .realignReread tid h => Sys2Proof.Machine.execRealignReread tid h s
  | .trackFormat cluster first count => Sys2Proof.Machine.execTrackFormat cluster first count s
  | .streamElementArrival tid slot => Sys2Proof.Machine.execStreamElementArrival tid slot s
  | .streamPushSend tid slot => Sys2Proof.Machine.execStreamPushSend tid slot s
  | .copyPacketLanded cluster engine => Sys2Proof.Machine.execCopyPacketLanded cluster engine s
  | .cmBlockFill cluster block => Sys2Proof.Machine.execCmBlockFill cluster block s
  | .reservationTimeout tid => Sys2Proof.Machine.execReservationTimeout tid s
  | .barrierRelease core b => Sys2Proof.Machine.execBarrierRelease core b s
  | .domainFlip deal level node => Sys2Proof.Machine.execDomainFlip deal level node s
  | .semRequestArrival octet sem => Sys2Proof.Machine.execSemRequestArrival octet sem s
  | .registeredWaitRelease tid => Sys2Proof.Machine.execRegisteredWaitRelease tid s
  | .mailboxArrival cluster m => Sys2Proof.Machine.execMailboxArrival cluster m s
  | .dealPlacement cluster => Sys2Proof.Machine.execDealPlacement cluster s
  | .handLaunch deal => Sys2Proof.Machine.execHandLaunch deal s
  | .handRetire deal hand => Sys2Proof.Machine.execHandRetire deal hand s
  | .vectorCommandComplete core => Sys2Proof.Machine.execVectorCommandComplete core s
  | .laneGroupMove core => Sys2Proof.Machine.execLaneGroupMove core s
  | .mxJoin octet => Sys2Proof.Machine.execMxJoin octet s
  | .mxOpStart octet => Sys2Proof.Machine.execMxOpStart octet s
  | .mxRowQueued octet => Sys2Proof.Machine.execMxRowQueued octet s
  | .wdJoin octet => Sys2Proof.Machine.execWdJoin octet s
  | .parisonHeader octet => Sys2Proof.Machine.execParisonHeader octet s
  | .parNop octet => Sys2Proof.Machine.execParNop octet s
  | .parLoadb octet => Sys2Proof.Machine.execParLoadb octet s
  | .parRun octet => Sys2Proof.Machine.execParRun octet s
  | .parEmit octet => Sys2Proof.Machine.execParEmit octet s
  | .parBranch octet => Sys2Proof.Machine.execParBranch octet s
  | .parCall octet => Sys2Proof.Machine.execParCall octet s
  | .parReturn octet => Sys2Proof.Machine.execParReturn octet s
  | .parSignal octet => Sys2Proof.Machine.execParSignal octet s
  | .parWaitsig octet => Sys2Proof.Machine.execParWaitsig octet s
  | .parEnd octet => Sys2Proof.Machine.execParEnd octet s
  | .fp32ToSx octet => Sys2Proof.Machine.execFp32ToSx octet s
  | .sxToFp32 octet => Sys2Proof.Machine.execSxToFp32 octet s
  | .topK octet => Sys2Proof.Machine.execTopK octet s
  | .blockCompression octet => Sys2Proof.Machine.execBlockCompression octet s
  | .blockExpansion octet => Sys2Proof.Machine.execBlockExpansion octet s
  | .exponentHistogram octet => Sys2Proof.Machine.execExponentHistogram octet s
  | .txComplete octet => Sys2Proof.Machine.execTxComplete octet s
  | .resume tid => Sys2Proof.Machine.execResume tid s
  | .kill tid => Sys2Proof.Machine.execKill tid s
  | .stop tid => Sys2Proof.Machine.execStop tid s
  | .wake tid => Sys2Proof.Machine.execWake tid s
  | .adopt target source => Sys2Proof.Machine.execAdopt target source s
  | .start tid => Sys2Proof.Machine.execStart tid s
  | .stopTakesEffect tid => Sys2Proof.Machine.execStopTakesEffect tid s
  | .contextSaveDone tid => Sys2Proof.Machine.execContextSaveDone tid s
  | .contextRestoreDone tid => Sys2Proof.Machine.execContextRestoreDone tid s
  | .coreWake core => Sys2Proof.Machine.execCoreWake core s
  | .icacheFill tid va => Sys2Proof.Machine.execIcacheFill tid va s
  | .l1Fill tid va => Sys2Proof.Machine.execL1Fill tid va s
  | .remoteStoreAck core index => Sys2Proof.Machine.execRemoteStoreAck core index s
  | .plbFill tid dom => Sys2Proof.Machine.execPlbFill tid dom s
  | .pageWalk tid va acc => Sys2Proof.Machine.execPageWalk tid va acc s
  | .xlatReqPage core vpage size => Sys2Proof.Machine.execXlatReqPage core vpage size s
  | .xlatReqRights core dom all seat => Sys2Proof.Machine.execXlatReqRights core dom all seat s
  | .xlatReqFlush core => Sys2Proof.Machine.execXlatReqFlush core s
  | .shootdownComplete core => Sys2Proof.Machine.execShootdownComplete core s
  | .tickRefill => Sys2Proof.Machine.execTickRefill s
  | .agedRequest channel seat => Sys2Proof.Machine.execAgedRequest channel seat s
  | .frameScrubDone channel => Sys2Proof.Machine.execFrameScrubDone channel s
  | .lateWriteback pa => Sys2Proof.Machine.execLateWriteback pa s
  | .uncorrectableError place loc => Sys2Proof.Machine.execUncorrectableError place loc s
  | .syncStopStart fn => Sys2Proof.Machine.execSyncStopStart fn s
  | .quietAgreed fn => Sys2Proof.Machine.execQuietAgreed fn s
  | .flushTokenArrival fn router link vc => Sys2Proof.Machine.execFlushTokenArrival fn router link vc s
  | .syncStopComplete fn => Sys2Proof.Machine.execSyncStopComplete fn s
  | .syncResume fn => Sys2Proof.Machine.execSyncResume fn s
  | .linkCrcFailure link => Sys2Proof.Machine.execLinkCrcFailure link s
  | .linkRetrain link => Sys2Proof.Machine.execLinkRetrain link s
  | .peerFlitCoding port vc words => Sys2Proof.Machine.execPeerFlitCoding port vc words s
  | .hostBar2Write fn off bytes => Sys2Proof.Machine.execHostBar2Write fn off bytes s
  | .hostBar2Read fn off n => Sys2Proof.Machine.execHostBar2Read fn off n s
  | .configRequest fn => Sys2Proof.Machine.execConfigRequest fn s
  | .rampTimerExpiry octet => Sys2Proof.Machine.execRampTimerExpiry octet s
  | .demandAppears octet => Sys2Proof.Machine.execDemandAppears octet s
  | .powerDecision milliwatts => Sys2Proof.Machine.execPowerDecision milliwatts s
  | .partcfg act result => Sys2Proof.Machine.execPartcfg act result s
  | .seatcfg fn seat cfg result => Sys2Proof.Machine.execSeatcfg fn seat cfg result s
  | .ptwrite addr v result => Sys2Proof.Machine.execPtwrite addr v result s
  | .sstop fn g result => Sys2Proof.Machine.execSstop fn g result s
  | .postsys fn record result => Sys2Proof.Machine.execPostsys fn record result s
  | .plim watts result => Sys2Proof.Machine.execPlim watts result s
  | .bktread arb bucket dest result => Sys2Proof.Machine.execBktread arb bucket dest result s
  | .trkimg cluster track pos src count result => Sys2Proof.Machine.execTrkimg cluster track pos src count result s
  | .fwstage slot src len result => Sys2Proof.Machine.execFwstage slot src len result s
  | .fwact result => Sys2Proof.Machine.execFwact result s
  | .sresume fn g result => Sys2Proof.Machine.execSresume fn g result s
  | .framesAllot holder first count result => Sys2Proof.Machine.execFramesAllot holder first count result s
  | .framesRelease holder first count result => Sys2Proof.Machine.execFramesRelease holder first count result s
  | .framesRetire holder first count result => Sys2Proof.Machine.execFramesRetire holder first count result s
  | .ackseqWrite fn seat v => Sys2Proof.Machine.execAckseqWrite fn seat v s
  | .fwQuiesceAck => Sys2Proof.Machine.execFwQuiesceAck s
  | .quiesceTimeout => Sys2Proof.Machine.execQuiesceTimeout s
  | .heartbeat k ver => Sys2Proof.Machine.execHeartbeat k ver s
  | .qack k => Sys2Proof.Machine.execQack k s
  | .heartbeatMissed => Sys2Proof.Machine.execHeartbeatMissed s
  | .powerOn => Sys2Proof.Machine.execPowerOn s
  | .memoryTrainingDone die ok => Sys2Proof.Machine.execMemoryTrainingDone die ok s
  | .dealerCoreReset k => Sys2Proof.Machine.execDealerCoreReset k s
  | .dieReset die => Sys2Proof.Machine.execDieReset die s
  | .functionReset fn => Sys2Proof.Machine.execFunctionReset fn s
  | .getVersion fn => Sys2Proof.Machine.execGetVersion fn s
  | .getCapabilities fn => Sys2Proof.Machine.execGetCapabilities fn s
  | .negotiateAlgorithms fn p256 sha256 => Sys2Proof.Machine.execNegotiateAlgorithms fn p256 sha256 s
  | .getDigests fn => Sys2Proof.Machine.execGetDigests fn s
  | .getCertificate fn slot => Sys2Proof.Machine.execGetCertificate fn slot s
  | .challenge fn slot nonce => Sys2Proof.Machine.execChallenge fn slot nonce s
  | .getMeasurements fn index => Sys2Proof.Machine.execGetMeasurements fn index s
  | .illegalInstruction sub val => Sys2Proof.Machine.execIllegalInstruction sub val s
  | .fetchFault cause sub va => Sys2Proof.Machine.execFetchFault cause sub va s
  | .frameBoundary octet => Sys2Proof.Machine.execFrameBoundary octet s
  | .controlPageWrite fn off v => Sys2Proof.Machine.execControlPageWrite fn off v s

end Sys2Proof.Machine
end

