-- ==== Sys2Proof/Machine/Ring.lean ====
section
/-! DEFINITION. The management command ring (R216, R378, R391): the record at its TAIL, and the command that a record's body stands for. -/

namespace Sys2Proof.Machine

/-- The record at the TAIL of the management ring: its body, none for a skip record, and TAIL after it. None where the ring is empty, or its control
block or record is not sound. The ring's addresses are physical (DESIGN CHOICE, log 28). -/
def State.ringRecord (s : State) : Option (Option (List Word) × Word) :=
  let cb := (s.func 0).mgmtRing.toNat
  if !s.hub.up || cb == 0 || cb % 64 != 0 then none
  else
    match s.hubWords cb 5 with
    | some [head, tail, _, base, log] =>
      let size := 2 ^ (log.toNat % 64)
      let off := tail.toNat % size
      if head = tail ∨ log.toNat % 64 < 12 ∨ 30 < log.toNat % 64 ∨ base.toNat % size ≠ 0 then none
      else
        match s.hubWords (base.toNat + off) 1 with
        | some [h] =>
          let n := ceilDiv (bitsOf h 31 0) 8
          if (head - tail).toNat < 8 + 8 * n ∨ size < off + 8 + 8 * n then none
          else if bitsOf h 63 62 = 0 then
            (s.hubWords (base.toNat + off + 8) n).map fun ws => (some ws, tail + wordOfNat (8 + 8 * n))
          else if bitsOf h 63 62 = 1 then some (none, tail + wordOfNat (8 + 8 * n))
          else none
        | _ => none
    | _ => none

/-- The partition in which a posted record's home queue lies, by the FIRST of its hand 0 (R211). -/
def State.recordPart (s : State) (record : Word) : Nat :=
  match s.hubWords (record.toNat + 0xC8) 1 with
  | some [c] => (s.partOfCluster (bitsOf c 42 36)).getD 0
  | _ => 0

/-- A management command whose arguments stand for something; refused where they do not. -/
def refuseNone {α : Type} (x : Option α) (r : Word) (f : α → State → Host.Outcome State Fault Refusal) (s : State) : Host.Outcome State Fault Refusal :=
  match x with
  | some a => f a s
  | none => .next (refuse r s)

/-- True when the management processor takes a command of a code now: every one but FWACT waits for the end of a firmware update (R387, R391). -/
def State.takesCommand (s : State) (code : Nat) : Bool := code == 0x0A || !(s.hub.state == 1 || s.hub.state == 2)

/-- True for a command code of Table 24.1. -/
def isCommandCode (n : Nat) : Bool := decide (1 ≤ n) && decide (n ≤ 12)

/-- Applies a record's body (Table 24.1): the code in doubleword 0, the result's address in 1, and the arguments from 2 on, one in each doubleword in the
table's order, as R391 has them for FWSTAGE (DEDUCED, log 28). Another code is answered −1. -/
def applyRecord (ws : List Word) (s : State) : Host.Outcome State Fault Refusal :=
  let a := fun (i : Nat) => ws.getD i 0
  let n := fun (i : Nat) => (ws.getD i 0).toNat
  let r := a 1
  match n 0 with
  | 0x01 => refuseNone (Config.partcfgArgs (ws.drop 2)) r (fun x => execPartcfg x r) s
  | 0x02 => refuseNone (Config.seatcfgArgs (ws.drop 2)) r (fun x => execSeatcfg x.1 x.2.1 x.2.2 r) s
  | 0x03 => execPtwrite (a 2) (a 3) r s
  | 0x04 => execSstop (n 2) (n 3) r s
  | 0x05 => execPostsys (s.recordPart (a 2)) (a 2) r s
  | 0x06 => execPlim (n 2) r s
  | 0x07 => refuseNone (Config.arbiterArg (a 2)) r (fun x => execBktread x (n 3) (a 4) r) s
  | 0x08 => execTrkimg (n 2) (n 3) (n 4) (n 5) (n 6) r s
  | 0x09 => execFwstage (a 2) (a 3) (n 4) r s
  | 0x0A => execFwact r s
  | 0x0B => execSresume (n 2) (n 3) r s
  | 0x0C =>
    match n 2 with
    | 0 => execFramesAllot (n 3) (n 4) (n 5) r s
    | 1 => execFramesRelease (n 3) (n 4) (n 5) r s
    | 2 => execFramesRetire (n 3) (n 4) (n 5) r s
    | _ => .next (refuse r s)
  | _ => .next (answer r (-1) s)

/-- The management processor takes the record at the TAIL of its ring, which moves past it, once the command before it has written its result (R378,
R391). -/
def ringTurn (s : State) : Host.Outcome State Fault Refusal :=
  match s.ringRecord with
  | none => .next s
  | some (body, tail) =>
    let s1 := hubStore ((s.func 0).mgmtRing.toNat + 8) (bytesOf 8 tail.toNat) s
    match body with
    | none => .next s1
    | some ws => if s.takesCommand (ws.getD 0 0).toNat then applyRecord ws s1 else .next s

end Sys2Proof.Machine
end

