-- ==== Sys2Proof/Machine/Schedule.lean ====
section
/-! DEFINITION. Whose turn it is: the commands and inputs that come next (DESIGN CHOICE, log 4), the thread that issues (R65), and the events
of the hardware in the fixed order in which the model looks at them (DESIGN CHOICE, log 5). -/

namespace Sys2Proof.Machine

/-! ## Commands and inputs -/

/-- Carries out a command of RUNCTL or XLAT_REQ (R73, R331). -/
def runCommand (c : Command) (s : State) : Host.Outcome State Fault Refusal :=
  match c with
  | .resume t => execResume t s
  | .kill t => execKill t s
  | .stop t => execStop t s
  | .wake t => execWake t s
  | .adopt t u => execAdopt t u s
  | .start t w => if w.isNone ∨ w = some (coreOf t) then execStart t s else .next s
  | .xlatPage n p z => execXlatReqPage n p z s
  | .xlatRights n d a k => execXlatReqRights n d a k s
  | .xlatFlush n => execXlatReqFlush n s

/-- True for a step that the agenda may name: an event of the hardware or an input from outside, but not the traps of a
word, which only a fetch makes, nor the events whose place in the cycle the spec fixes (R283, R289, R373). -/
def isInput (i : Instr) : Bool :=
  match i with
  | .illegalInstruction _ _ | .fetchFault _ _ _ | .mxJoin _ | .wdJoin _ | .mxRowQueued _ | .rampTimerExpiry _ => false
  | _ => encode i == 0

/-- True for a command of the management ring other than FWACT (Table 24.2). -/
def isManagement (i : Instr) : Bool :=
  match i with
  | .partcfg _ _ | .seatcfg _ _ _ _ | .ptwrite _ _ _ | .sstop _ _ _ | .sresume _ _ _ | .postsys _ _ _ | .plim _ _
  | .bktread _ _ _ _ | .trkimg _ _ _ _ _ _ | .fwstage _ _ _ _ | .framesAllot _ _ _ _ | .framesRelease _ _ _ _
  | .framesRetire _ _ _ _ => true
  | _ => false

/-- True when the machine takes an input now: a request of an XLAT_REQ waits for the one before it (R331), and a
management command for the end of a firmware update (R387). -/
def State.admits (s : State) (i : Input) : Bool :=
  match i with
  | .step (.xlatReqPage n _ _) | .step (.xlatReqFlush n) => !(s.core n).xreqBusy
  | .step (.xlatReqRights n _ _ _) => !(s.core n).xreqBusy
  | .step i => !(isManagement i && (s.hub.state == 1 || s.hub.state == 2))
  | .otherCommand _ _ => !(s.hub.state == 1 || s.hub.state == 2)
  | _ => true

/-! ## Threads -/

/-- True when thread t may be looked at in this cycle: its die serves (R379), it runs, nothing is known that it waits for, and its last unit's result is there
(R65). A follower runs what its leader forwards (R91), and the leader of a gang that has been dissolved completes the unit that it has issued and
then only stops (R94). -/
def State.canRun (s : State) (t : Nat) : Bool :=
  let th := s.thr t
  s.serves (dieOf (coreOf t)) && (th.st == .running || th.st == .stopping) && !th.saving && !th.waiting && decide (th.ready ≤ s.cycle)
    && !(th.fused && (if th.leader then th.gend != 0 && !th.issued else th.fq.isEmpty && th.fuseWait.isNone))

/-- How early in a core's cycle a thread is looked at: a unit that needs no token now, or whose seat's bucket lacks one, by itself;
then one whose bucket holds a token, then one that borrows (R65, R344); last, in the same order, a thread that has yielded (R76). -/
def State.issueClass (s : State) (t : Nat) : Nat :=
  let th := s.thr t
  let own := isDealer (coreOf t) || decide (1 ≤ ((s.arb (coreOf t)).bucket (th.seat.getD 0)).tok)
  (if th.issued || !issueReady s t then 0 else if own then 1 else 2) + (if s.cycle ≤ th.defer then 3 else 0)

/-- The threads of core n in round-robin order, after the one that issued last (R65). -/
def State.roundRobin (s : State) (n : Nat) : List Nat :=
  (List.range 4).map fun i => 4 * n + ((s.core n).lastIssued + 1 + i) % 4

/-- The thread of core n that is looked at next in this cycle. -/
def State.turnOf (s : State) (n : Nat) : Option Nat :=
  let ts := (s.roundRobin n).filter s.canRun
  (List.range 6).findSome? fun k => ts.find? fun t => s.issueClass t == k

/-- The thread whose turn it is: one of the first core, from `coreAt` on, on which one can be looked at. -/
def State.nextThread (s : State) : Option Nat :=
  match s.threads.toList.find? fun e => decide (s.coreAt ≤ coreOf e.1) && s.canRun e.1 with
  | some e => s.turnOf (coreOf e.1)
  | none => none

/-- Runs the unit of the current thread: the word at its PC is fetched, decoded and executed (R27, R36). A follower's PC is its
leader's (R92). -/
def runThread (s : State) : Host.Outcome State Fault Refusal :=
  let t := s.cur
  let s0 := if (s.thr t).follows then s.modThr t fun th => { th with pc := (th.fq.headD {}).pc } else s
  match unitWord 0 s0 with
  | .ok (.ok w, s1) =>
    match decodeOn (coreOf t) w with
    | .ok i => exec i s1
    | .error e => execIllegalInstruction e.sub (w.zeroExtend 64) s1
  | .ok (.error f, s1) => execFetchFault f.cause f.sub f.va s1
  | .error (.trap c sub v keep) => execFetchFault c sub v (keep s0)
  | .error (.stall keep) => .next ((keep s0).modThr t fun th => { th with waiting := true })
  | .error (.hold keep) => .next ((keep s0).modThr t fun th => { th with waiting := true })

/-! ## The events of the hardware -/

/-- An event as a function of the state. -/
abbrev Event := State → Host.Outcome State Fault Refusal

/-- The events of thread t that come before any other turn once their conditions hold: a stop or a kill at its boundary (R63), and a
fuse that resolves (R90). -/
def threadUrgent (s : State) (t : Nat) (th : Thread) : List Event :=
  (if s.stopDue t || s.killDue t then [execStopTakesEffect t] else [])
  ++ match th.fuseWait with
    | some (d, limit) => if th.fuseAns.isNone && (decide (limit ≤ s.cycle) || s.fuseMet t d) then [execFuseResolve t] else []
    | none => []

/-- An event that changes the state and nothing else. -/
def plainEvent (f : State → State) : Event := fun s => .next (f s)

/-- Those of octet o: a semaphore's queue that can be served (R200), and a frame's boundary, before any read of the cycle (R372, R375). -/
def octetUrgent (s : State) (o : Nat) (y : Octet) : List Event :=
  (y.sems.toList.map fun m => execSemRequestArrival o m.1)
  ++ (if s.frameDue o ∧ (0 < y.level ∨ 0 < y.usable ∨ !y.decisions.isEmpty) then [execFrameBoundary o] else [])

/-- The events of octet o that end a cycle, once every thread and the rest of the hardware have had their turns: a join whose last part has arrived,
after the loads and aborts of its cycle (R280, R283, R289, R306), a row that reaches the queues, after an mx.drop (R281, R289), an operation's start,
and the ramp, demand before expiry, and the issue opportunity of the cycle, in the order of R372 and R373. -/
def octetEnds (s : State) (o : Nat) (y : Octet) : List Event :=
  (if (s.joining o).isSome then [execMxJoin o] else []) ++ (if (s.entering o).isSome then [execWdJoin o] else [])
  ++ (if y.pipe.isEmpty then [] else [execMxRowQueued o])
  ++ (if s.startDue o then [execMxOpStart o] else [])
  ++ (if y.rising = s.demand o then [] else [execDemandAppears o, plainEvent (noteDemand o)])
  ++ (if 0 < y.level ∧ y.rampAt + 32 ≤ s.cycle then [execRampTimerExpiry o] else [])
  ++ (if s.cycle % 8 = 0 then [plainEvent (frameLevel o)] else [])
  ++ (if s.positionDue o then [plainEvent (usePosition o)] else [])

/-- The events that thread t may have next. -/
def threadEvents (s : State) (t : Nat) (th : Thread) : List Event :=
  (match th.deadline with
    | some d => if d ≤ s.cycle then [execIdleTimeout t] else []
    | none => [])
  ++ (match th.adopt with
    | some u => if s.storesOut u then [] else [execAdopt t u]
    | none => [])
  ++ [execGangUnitArrival t, runAhead t, execContextSaveDone t, execContextRestoreDone t, execReservationTimeout t,
      execRegisteredWaitRelease t]
  ++ ((List.range 4).flatMap fun b => [execStreamElementArrival t b, execStreamPushSend t b])
  ++ ((List.range 8).map fun h => execRealignReread t (BitVec.ofNat 3 h))

/-- The events that core n may have next: an acknowledgement of the oldest remote store that can have one, and those of its
barriers, its claim and its XLAT_REQ. -/
def coreEvents (n : Nat) (c : Core) : List Event :=
  ((List.range c.rstores.length).map fun i => execRemoteStoreAck n i)
  ++ (c.bars.toList.map fun b => execBarrierRelease n b.1)
  ++ [execCoreWake n, execVectorCommandComplete n, execLaneGroupMove n, execShootdownComplete n]

/-- The shift of a track ends, with whatever slip it suffered (R126, R133; DESIGN CHOICE, log 3). -/
def shiftEnd (c k : Nat) : Event := fun s =>
  if (s.track c k).shifts.any fun x => x.granted then
    execTrackShiftEnd c k (Config.shiftSlip s.free) { s with free := s.free + 1 }
  else .next s

/-- The events that cluster c may have next. -/
def clusterEvents (c : Nat) (x : Cluster) : List Event :=
  (x.tracks.toList.flatMap fun k => [execHeadGrant c k.1, shiftEnd c k.1, execShiftSlotGrant c k.1, execTrackFormat c k.1 1])
  ++ (x.engines.toList.map fun e => execCopyPacketLanded c e.1)
  ++ (x.mailboxes.toList.map fun m => execMailboxArrival c m.1)
  ++ (match x.cmJob with
    | some j => [execCmBlockFill c j.block]
    | none => [])
  ++ [execDealPlacement c, fun s => .next (startWalk c s)]

/-- The events that octet o may have next: those of a run and of the transform coprocessor. -/
def octetEvents (o : Nat) : List Event :=
  [execParisonHeader o, execParNop o, execParLoadb o, execParRun o, execParEmit o, execParBranch o, execParCall o, execParReturn o,
   execParSignal o, execParWaitsig o, execParEnd o, execFp32ToSx o, execSxToFp32 o, execTopK o, execBlockCompression o,
   execBlockExpansion o, execExponentHistogram o, execTxComplete o]

/-- The events that a deal may have next. -/
def dealEvents (d : Nat) (x : Deal) : List Event :=
  execHandLaunch d
    :: (x.domains.toList.map fun k => execDomainFlip d (k.1 / 4096) (k.1 % 4096))
    ++ ((List.range x.hands.length).map fun h => execHandRetire d h)

/-- The events of a partition's synchronised stop (R354 to R357). -/
def partEvents (s : State) (f : Nat) (p : Part) : List Event :=
  (if p.atCycle ≤ s.cycle then [execSyncStopStart f, execSyncResume f] else [])
  ++ [execQuietAgreed f]
  ++ (match p.flying.head? with
    | some q => [execFlushTokenArrival f q.1 q.2.1 q.2.2]
    | none => [])
  ++ [execSyncStopComplete f]

/-- The events of the channels: a scrub done (R334), a line of a way that its owner reclaims (R348), a request that has waited 4,096 cycles (R351). -/
def channelEvents (s : State) : List Event :=
  (s.scrubs.toList.map fun c => execFrameScrubDone c.1)
  ++ (s.slices.toList.flatMap fun z => if z.2.reclaim.isEmpty then [] else [reclaimLines z.1])
  ++ (List.range 32).flatMap fun n => (s.arb (channelArb n)).buckets.toList.flatMap fun b =>
    if (s.arb (channelArb n)).queue.any fun w => w.req.bucket == b.1 && (s.arb (channelArb n)).agedDue w s.cycle then [execAgedRequest n b.1] else []

/-- The power arbiter's decision at a window's end, on a measured power that the agenda has given or that the spec leaves to the machine (R374;
DESIGN CHOICE, log 3). -/
def powerWindow : Event := fun s =>
  match s.hub.measured with
  | some mw => execPowerDecision mw { s with hub := { s.hub with measured := none } }
  | none => execPowerDecision (Config.freeWord s.free).toNat { s with free := s.free + 1 }

/-- The events of the hub (R369, R374, R387) and of the links (R371), and fault records on their way as ordinary stores (R207). -/
def hubEvents (s : State) : List Event :=
  ((List.range s.posts.length).map performPost) ++ ((List.range s.hub.transfers.length).map transferTurn)
    ++ (s.links.toList.map fun l => linkTurn l.1) ++ [ringTurn, execFwQuiesceAck] ++ (if s.hub.deadline ≤ s.cycle then [execQuiesceTimeout] else [])
    ++ (if s.hub.deadline < s.cycle then [execHeartbeatMissed] else [])

/-- The octets that hold something, or a core of which does. -/
def State.octetsInUse (s : State) : List Nat :=
  (s.octets.toList.map (fun o => o.1) ++ (s.cores.toList.map fun c => octetOf c.1)).eraseDups

/-- The events that may come next, in a fixed order. -/
def State.allEvents (s : State) : List Event :=
  hubEvents s
  ++ (s.parts.toList.flatMap fun p => partEvents s p.1 p.2)
  ++ (s.threads.toList.flatMap fun t => threadEvents s t.1 t.2)
  ++ (s.cores.toList.flatMap fun c => coreEvents c.1 c.2)
  ++ (s.clusters.toList.flatMap fun c => clusterEvents c.1 c.2)
  ++ (s.octetsInUse.flatMap octetEvents)
  ++ (s.deals.toList.flatMap fun d => dealEvents d.1 d.2)
  ++ channelEvents s

/-- The events that come before any turn: a tick that is due, and what takes effect in the cycle in which its conditions
come to hold. -/
def State.urgent (s : State) : List Event :=
  (if Config.tick * (s.ticks + 1) ≤ s.cycle then [execTickRefill] else [])
  ++ (s.threads.toList.flatMap fun t => threadUrgent s t.1 t.2)
  ++ (s.octetsInUse.flatMap fun o => octetUrgent s o (s.octet o))

/-- The events that end a cycle: those of the octets, and the power arbiter's decision, after a PLIM of its cycle (R375). -/
def State.cycleEnds (s : State) : List Event :=
  (s.octetsInUse.flatMap fun o => octetEnds s o (s.octet o)) ++ (if s.windowOver then [powerWindow] else [])

/-- The first event of a list whose conditions hold: the first that changes the state. -/
def firstEvent (s : State) : List Event → Option (Host.Outcome State Fault Refusal)
  | [] => none
  | e :: r =>
    match e s with
    | .next s1 => if s1 = s then firstEvent s r else some (.next s1)
    | x => some x

/-- Goes on from the state that an outcome gives. -/
def thenNext (r : Host.Outcome State Fault Refusal) (f : State → State) : Host.Outcome State Fault Refusal :=
  match r with
  | .next s => .next (f s)
  | x => x

/-- True when a thread's run-ahead waits at a page boundary on core n (R88). -/
def State.coreWaitsAtPage (s : State) (n : Nat) : Bool := (threadsOf n).any s.waitsAtPage

/-- The next cycle begins: every thread is looked at again, counters at zero have been noted, and cycles of a wait at a page boundary
counted. Grants whose transfer has not met them for 256 cycles are forgotten (log 31). -/
def nextCycle (s : State) : State :=
  { s with
    threads := s.threads.mapVals fun t th => { s.noteZeros t th with waiting := false }
    cores := s.cores.mapVals fun n c => if s.coreWaitsAtPage n then { c with pgwait := (c.pgwait + 1) % 2 ^ 24 } else c
    cycle := s.cycle + 1, coreAt := 0, slotUsed := false, evTurn := false, evLeft := 0, evCur := s.evCur + 1, now := [], wrote := []
    paid := s.paid.filter fun p => decide (s.cycle ≤ p.asked + 256) }

/-- The first event of a list that changes the state, with how many of the list come behind it. -/
def firstOf (s : State) : List Event → Option (Host.Outcome State Fault Refusal × Nat)
  | [] => none
  | e :: r =>
    match e s with
    | .next s1 => if s1 = s then firstOf s r else some (.next s1, r.length)
    | x => some (x, r.length)

/-- The hardware's turn, once the cores have had theirs: each event in turn, once in a cycle, from a place in their order that moves on from cycle to
cycle; then the events that end the cycle, and the next cycle (DESIGN CHOICE, log 5). -/
def hardwareTurn (s : State) : Host.Outcome State Fault Refusal :=
  let l := s.allEvents
  let left := if s.evTurn then s.evLeft else l.length
  let k := s.evCur % (l.length + 1)
  match firstOf s ((l.drop k ++ l.take k).drop (l.length - left)) with
  | some (r, n) => thenNext r fun x => { x.settled with evTurn := true, evLeft := n }
  | none =>
    match firstEvent s s.cycleEnds with
    | some r => thenNext r fun x => { x.settled with evTurn := true, evLeft := 0 }
    | none => .next (nextCycle s)

/-- After a thread's turn: what it has been granted and has used is settled (R344); a word it has issued ends the deferral of
the core's other threads (R76), and the thread goes on from the cycle in which its result is there, at a latency that the
spec leaves open (DESIGN CHOICE, log 3). -/
def afterThread (t : Nat) (s s0 : State) : State :=
  let s1 := s0.settled
  let s2 := if s1.slotUsed && !s.slotUsed then
      s1.mapThr fun u th => if coreOf u = coreOf t ∧ u ≠ t then { th with defer := 0 } else th
    else s1
  if (s2.thr t).waiting then s2
  else { s2.modThr t fun th => { th with ready := s.cycle + 1 + Config.extraCycles s.free } with free := s2.free + 1 }

/-- A thread's turn. A core whose thread runs is awake (R77). -/
def threadTurn (t : Nat) (s : State) : Host.Outcome State Fault Refusal :=
  let n := coreOf t
  let s0 := wakeCore n { s with cur := t, coreAt := n, slotUsed := s.slotUsed && s.coreAt == n }
  thenNext (runThread s0) (afterThread t s0)

/-- A turn: that of the next thread in the cycle, else the hardware's. -/
def turn (s : State) : Host.Outcome State Fault Refusal :=
  match (if s.evTurn then none else s.nextThread) with
  | some t => threadTurn t s
  | none => hardwareTurn s

/-! ## A word placed for the first step (DESIGN CHOICE, log 9) -/

/-- The partition, the seat and the thread for which the word is placed: seat 1 of partition 1 on thread 0 of core 0. -/
def loadSeat : Nat := 16
/-- Where the page tables of the placed word stand. -/
def loadTables : Nat := 0x10000

/-- Page tables that map the first 2^30 virtual addresses to the first 2^30 bytes of GDDR in domain 1, and a rights table
that grants the domain R, W, X and D (R321 to R326). -/
def loadMap (s : State) : State :=
  let s1 := s.store loadTables 8 (loadTables + 0x1000 + 1)
  let s2 := s1.store (loadTables + 0x1000) 8 (loadTables + 0x2000 + 1)
  let s3 := s2.store (loadTables + 0x2000) 8 (putAt 1 48 + 11)
  let s4 := s3.store (loadTables + 0x3000) 8 0xF0
  { s4 with root := wordOfNat loadTables, frames := s4.frames.set 0 (.held 1) |>.set 1 (.held 1) }

/-- Seat 1 of partition 1 with its rights table and a full issue bucket on core 0 (R341, R345). -/
def loadSeatOn (s : State) : State :=
  let s1 := s.modSeat loadSeat fun k => { k with cfg := { k.cfg with rtbase := wordOfNat (loadTables + 0x3000) } }
  s1.modArb 0 fun a => a.setBucket loadSeat { rate := 128, depth := 128, tok := 128 }

/-- The bytes at address 0, which core 0 has not cached, and the mapping's leaf in its translation unit. -/
def loadBytes (bs : List Byte) (s : State) : State :=
  let s1 := s.storeAll 0 bs
  let s2 := s1.modCore 0 fun c => { c with icache := {}, plb := [] }
  s2.modCluster 0 fun c => { c with xlat := [{ leaf := loadTables + 0x2000, size := 2 ^ 30, dom := 1 }] }

/-- Thread 0 RUNNING at address 0 for the seat, on a die in service, and its turn next. -/
def loadThread (s : State) : State :=
  let s1 := s.modThr 0 fun th =>
    { th.unitEnds with
      st := .running, seat := some loadSeat, pc := 0, ready := 0, ahead := [], saving := false, killPend := false, fused := false
      leader := false, fq := [], msg := none }
  { s1 with
    hub := { s1.hub with trained := if s1.serves 0 then s1.hub.trained else 0 :: s1.hub.trained }
    cur := 0, coreAt := 0, slotUsed := false, evTurn := false, evLeft := 0, pend := [], agenda := [] }

end Sys2Proof.Machine
end

