-- ==== Sys2Proof/Machine/Step.lean ====
section
/-! DEFINITION. The step of the machine: a command that a store has made, an input that the agenda names, or a turn of a
thread or of the hardware; and the placing of a word for the first step. -/

namespace Sys2Proof.Machine

/-- An input comes: a step of the opcode table, or what the host, the management function or another module does, within the limits that the spec gives it
(R78, R321, R342, R367, R369). A measured power serves the decision at the end of its window (R375). -/
def takeInput (i : Input) (s : State) : Host.Outcome State Fault Refusal :=
  match i with
  | .step (.powerDecision mw) => .next { s with hub := { s.hub with measured := some mw } }
  | .step i => if isInput i then exec i s else .next s
  | .otherCommand c r => .next (if isCommandCode c.toNat then s else answer r (-1) s)
  | .root a => .next (if a.toNat % 2048 = 0 then { s with root := a } else s)
  | .dealerRights a => .next (if a.toNat % 0x8000 = 0 then { s with dealerRt := a } else s)
  | .dealerBucket k b r => .next (setDealerBucket k b r s)
  | .trackError c k p bits => .next (s.modTrack c k fun t =>
      { t with words := t.words.set (p % 4096) { t.word p with flips := (t.word p).flips ^^^ bits } })
  | .configRead fn off => .next (configRead fn off s)
  | .configWrite fn off v => .next (configWrite fn off v s)
  | .controlRead fn off => .next (controlRead fn off s)
  | .peerTransfer x => .next (setTransfer x s)
  | .peerReceive port vc seq raw n payload crc => .next (peerReceive port vc seq raw n payload crc s)

/-- A step: what is due at once, a command that a store has made, an input that the agenda names, or a turn of a thread or of the
hardware (DESIGN CHOICE, log 5). -/
def step (s : State) : Host.Outcome State Fault Refusal :=
  match firstEvent s s.urgent with
  | some r => thenNext r State.settled
  | none =>
    match s.pend, s.agenda with
    | c :: r, _ => thenNext (runCommand c { s with pend := r }) State.settled
    | [], [] => turn s
    | [], i :: r => if s.admits i then thenNext (takeInput i { s with agenda := r }) State.settled else turn s

/-- s with an instruction stored at the address at which thread 0 of core 0 fetches next (DESIGN CHOICE, log 9). -/
def State.withFetchWord (s : State) (nbits w : Nat) : State :=
  loadThread (loadBytes (bytesOf 12 (w % 2 ^ nbits)) (loadSeatOn (loadMap s)))

end Sys2Proof.Machine
end

