-- ==== Sys2Proof/WellFormed.lean ====
section
/-! DEFINITION. The checks an instruction term must pass beyond its fields' widths: the field values that the encoding
tables leave unassigned or reserved (R25). Every other value of every field is an encoding. -/

namespace Sys2Proof

/-- A term that some word encodes. A step without a word has no such check. -/
def Instr.wf : Instr → Bool
  | .wcwait mask => mask != 0                                          -- R118: MASK 000 is unassigned
  | .wcread _ c => c != 0                                              -- R118: C 00 is unassigned
  | .pfxOrd wait => wait != 0                                          -- R30: WAIT 00 is unassigned
  | .fenceS _ pred succ => pred != 0 && succ != 0                      -- R181
  | .fenceEng mask => mask != 0                                        -- R181
  | .acq full scope => !(full && (scope == .thr || scope == .core))    -- R181
  | .domSync _ k => decide (k.toNat ≤ 8)                               -- R198: k 9 to 15 are unassigned
  | .vfence _ sp rs1 rs2 => sp || (rs1 == 0 && rs2 == 0)               -- R257: reserved when S = 0
  | .vscale t _ _ _ => t == .f64 || t == .f32                          -- Table 13.8
  | .vscalea t _ _ _ => t == .f64 || t == .f32                         -- Table 13.8
  | .vdot t _ _ _ => t == .i8 || t == .i16 || t == .n8 || t == .n16    -- Table 13.9
  | _ => true

end Sys2Proof
end

