-- ==== Sys2Proof/Safety.lean ====
section
/-! DEFINITION. The terms in which the statements speak of a run: when a unit may issue, the state in which an instruction has
completed or trapped, and what a thread sees. The module has no stop: a safe run is one whose every step answers a next
state with its memory in the canonical form. -/

namespace Sys2Proof.Machine

/-- The last word of the unit with words `ws` of the current thread may issue: its followers can take the unit (R91), the words
before it have issued (R28), its seat's bucket grants it a token (R66), the core has not issued its word of this cycle (R65; a
unit whose target has issued and waited needs no slot), and no open packet bars it (R205). -/
structure UnitReady (ws : List IWord) (s : State) : Prop where
  followers : followersReady s s.cur ws.length = true
  prefixes : ws.length ≤ (s.thr s.cur).paid + 1
  token : issueReady s s.cur = true
  slot : s.slotUsed = false ∨ (s.thr s.cur).issued = true
  packet : (s.thr s.cur).packetBars ws = false

/-- The unit of the one word of `i` may issue. -/
def Ready (i : Instr) (s : State) : Prop := UnitReady [encode i] s

/-- A unit of several words, begun in `s`, completes with the effects `s1` (R28). -/
def UnitDone (ws : List IWord) (s : State) (target : Option Word) (s1 : State) : State :=
  retire s.cur ws target (issueCharge s.cur s1)

/-- The state in which `i`, begun in `s`, has completed: `s1` holds its effects, and the unit is charged and retired
(R28, R36). -/
def completed (i : Instr) (s : State) (target : Option Word) (s1 : State) : State :=
  retire s.cur [encode i] target (issueCharge s.cur s1)

/-- The state in which `i`, begun in `s`, has trapped: `s1` holds the effects it keeps (R35, R69). -/
def trapped (i : Instr) (s : State) (cause sub : BitVec 8) (val : Word) (s1 : State) : State :=
  trapUnit s.cur [encode i] cause sub val (issueCharge s.cur s1)

/-- `i` completes from `s` with the effects `s1` and goes on at `target`, or at the next unit. -/
def Does (i : Instr) (s : State) (target : Option Word) (s1 : State) : Prop :=
  exec i s = .next (completed i s target s1)

/-- `i` traps from `s`, keeping the effects `s1`. -/
def Traps (i : Instr) (s : State) (cause sub : BitVec 8) (val : Word) (s1 : State) : Prop :=
  exec i s = .next (trapped i s cause sub val s1)

/-- An action answers `a` and goes from `s` to `t`. -/
def Gives {α : Type} (act : Act α) (s : State) (a : α) (t : State) : Prop := act s = .ok (a, t)

/-- A safe state: memory is in its canonical form. -/
def State.Safe (s : State) : Prop := Memory.wf s.mem

/-! ## Shapes of results -/

/-- SignExtend of the low 32 bits of an integer, as a register value (R35). -/
def sext32 (v : Int) : Word := (BitVec.ofInt 32 v).signExtend 64

/-- A form that reads rs1, then rs2, and writes f of them to rd, whatever mode the three registers are in (R35, R42). -/
def Binary (mk : Reg → Reg → Reg → Instr) (f : Word → Word → Word) : Prop :=
  ∀ rd rs1 rs2 s s1 s2 s3 a b, Ready (mk rd rs1 rs2) s → Gives (readX rs1) s a s1 → Gives (readX rs2) s1 b s2 →
    Gives (writeX rd (f a b)) s2 () s3 → Does (mk rd rs1 rs2) s none s3

/-- R-format forms of one opcode with their funct7 and funct3: the word of each, operands included (Table 1.1). -/
def EncodedAs (opcode : BitVec 7) (forms : List ((Reg → Reg → Reg → Instr) × BitVec 7 × BitVec 3)) : Prop :=
  ∀ f ∈ forms, ∀ rd rs1 rs2, encode (f.1 rd rs1 rs2) = f.2.1 ++ rs2 ++ rs1 ++ f.2.2 ++ rd ++ opcode

/-- An R-format opcode decodes exactly where its funct7 and funct3 pass `p`, whatever the operands. -/
def AssignedOn (opcode : BitVec 7) (p : BitVec 7 → BitVec 3 → Prop) : Prop :=
  ∀ funct7 rs2 rs1 funct3 rd, ((decode (funct7 ++ (rs2 : Reg) ++ (rs1 : Reg) ++ funct3 ++ (rd : Reg) ++ opcode)).toBool = true ↔
    p funct7 funct3)

/-- A form that reads rs1 and writes f of it to rd. -/
def Unary (mk : Reg → Reg → Instr) (f : Word → Word) : Prop :=
  ∀ rd rs1 s s1 s2 a, Ready (mk rd rs1) s → Gives (readX rs1) s a s1 → Gives (writeX rd (f a)) s1 () s2 →
    Does (mk rd rs1) s none s2

/-- A form that reads rs1 and writes f of it and its immediate field to rd. -/
def WithImm {n : Nat} (mk : Reg → Reg → BitVec n → Instr) (f : Word → BitVec n → Word) : Prop :=
  ∀ rd rs1 imm s s1 s2 a, Ready (mk rd rs1 imm) s → Gives (readX rs1) s a s1 → Gives (writeX rd (f a imm)) s1 () s2 →
    Does (mk rd rs1 imm) s none s2

/-- The attributes of a plain access of the current thread (R53). -/
def State.plainAtt (s : State) : Att := { scope := .core, pol := Policy.ofCode ((s.thr s.cur).l1pol.extractLsb' 0 2) }

/-- A base load of n bytes whose value, as an unsigned number, ext turns into what rd receives (R52). -/
def LoadsBytes (mk : Reg → Reg → BitVec 12 → Instr) (n : Nat) (ext : Nat → Word) : Prop :=
  ∀ rd rs1 imm s s1 s2 s3 a v, Ready (mk rd rs1 imm) s → Gives (readX rs1) s a s1 →
    Gives (memRead (a + imm.signExtend 64) n s1.plainAtt) s1 v s2 → Gives (writeX rd (ext v)) s2 () s3 →
    Does (mk rd rs1 imm) s none s3

/-- A base store of the low n bytes of rs2 (R52). -/
def StoresBytes (mk : Reg → Reg → BitVec 12 → Instr) (n : Nat) : Prop :=
  ∀ rs2 rs1 imm s s1 s2 s3 a v, Ready (mk rs2 rs1 imm) s → Gives (readX rs1) s a s1 → Gives (readX rs2) s1 v s2 →
    Gives (memWrite (a + imm.signExtend 64) n v.toNat s2.plainAtt) s2 () s3 → Does (mk rs2 rs1 imm) s none s3

/-- A word of the unit `ws` that is not its last may issue (R28): as `UnitReady`, with words still to come behind it. -/
structure PrefixReady (ws : List IWord) (s : State) : Prop where
  followers : followersReady s s.cur ws.length = true
  prefixes : (s.thr s.cur).paid + 1 < ws.length
  token : issueReady s s.cur = true
  slot : s.slotUsed = false ∨ (s.thr s.cur).issued = true
  packet : (s.thr s.cur).packetBars ws = false

/-- The unit of a prefix `i` and the words `ws` behind it, which `s1` has fetched from `s`, completes with the effects `s2`. -/
def DoesUnit (i : Instr) (ws : List IWord) (s s1 : State) (target : Option Word) (s2 : State) : Prop :=
  exec i s = .next (UnitDone (encode i :: ws) s1 target s2)

/-- The words behind a prefix, from place k of the unit on, are fetched one after the other (R28). -/
def Fetches : Nat → List IWord → State → State → Prop
  | _, [], s, t => t = s
  | k, w :: ws, s, t => ∃ u, Gives (unitWord k) s (.ok w) u ∧ Fetches (k + 1) ws u t

/-- The units that the prefixes of R29 and R30 make with a target: the prefix that heads each, the words behind it, the bits that
stand above the target's 12-bit immediate, and the counter that its access waits for. -/
inductive HasPrefixes (target : IWord) : Instr → List IWord → Option (BitVec 22) → Option (BitVec 2) → Prop
  | imm (p) : HasPrefixes target (.pfxImm p) [target] (some p) none
  | ord (c) (h : c ≠ 0) : HasPrefixes target (.pfxOrd c) [target] none (some c)
  | immOrd (p c) (h : c ≠ 0) : HasPrefixes target (.pfxImm p) [encode (.pfxOrd c), target] (some p) (some c)
  | ordImm (p c) (h : c ≠ 0) : HasPrefixes target (.pfxOrd c) [encode (.pfxImm p), target] (some p) (some c)

/-- The immediate of a target (R19, R29): 34 bits where pfx.imm gives the upper ones, 12 else, sign-extended. -/
def widened (p : Option (BitVec 22)) (i : BitVec 12) : Word :=
  match p with
  | some p => (p ++ i).signExtend 64
  | none => i.signExtend 64

/-- A base load of n bytes as the target of any prefixes (R29 to R31): it executes as it does alone, with the widened immediate,
once the counter that pfx.ord names has been seen at zero. -/
def PrefixedLoad (mk : Reg → Reg → BitVec 12 → Instr) (n : Nat) (ext : Nat → Word) : Prop :=
  ∀ head ws p c rd rs1 i s s1 s2 s3 s4 a v, HasPrefixes (encode (mk rd rs1 i)) head ws p c → Fetches 1 ws s s1 →
    UnitReady (encode head :: ws) s1 → Gives (readX rs1) s1 a s2 → Gives (counterSeen (c.getD 0)) s2 true s2 →
    Gives (memRead (a + widened p i) n s2.plainAtt) s2 v s3 → Gives (writeX rd (ext v)) s3 () s4 →
    DoesUnit head ws s s1 none s4

/-- A base store of the low n bytes of rs2 as the target of any prefixes (R29 to R31). -/
def PrefixedStore (mk : Reg → Reg → BitVec 12 → Instr) (n : Nat) : Prop :=
  ∀ head ws p c rs2 rs1 i s s1 s2 s3 s4 a v, HasPrefixes (encode (mk rs2 rs1 i)) head ws p c → Fetches 1 ws s s1 →
    UnitReady (encode head :: ws) s1 → Gives (readX rs1) s1 a s2 → Gives (readX rs2) s2 v s3 →
    Gives (counterSeen (c.getD 0)) s3 true s3 → Gives (memWrite (a + widened p i) n v.toNat s3.plainAtt) s3 () s4 →
    DoesUnit head ws s s1 none s4

/-- An immediate form as the target of pfx.imm (R29): it writes f of rs1 and the widened immediate. -/
def PrefixedImm (mk : Reg → Reg → BitVec 12 → Instr) (f : Word → Word → Word) : Prop :=
  ∀ p rd rs1 i s s1 s2 s3 a, Fetches 1 [encode (mk rd rs1 i)] s s1 →
    UnitReady [encode (.pfxImm p), encode (mk rd rs1 i)] s1 → Gives (readX rs1) s1 a s2 →
    Gives (writeX rd (f a ((p ++ i).signExtend 64))) s2 () s3 → DoesUnit (.pfxImm p) [encode (mk rd rs1 i)] s s1 none s3

/-- The base loads and stores: the targets that pfx.ord permits (R30). -/
def takesOrd : Instr → Bool
  | .lb _ _ _ | .lh _ _ _ | .lw _ _ _ | .ld _ _ _ | .lbu _ _ _ | .lhu _ _ _ | .lwu _ _ _ => true
  | .sb _ _ _ | .sh _ _ _ | .sw _ _ _ | .sd _ _ _ => true
  | _ => false

/-- The targets that pfx.imm permits (R29); no custom form accepts it. -/
def takesImm : Instr → Bool
  | .addi _ _ _ | .slti _ _ _ | .sltiu _ _ _ | .xori _ _ _ | .ori _ _ _ | .andi _ _ _ | .jalr _ _ _ => true
  | i => takesOrd i

/-- The prefix that heads the unit of `head` and `ws`, fetched from `s` to `s1`, is misused (R31): no word of the unit issues. -/
def Misused (head : Instr) (ws : List IWord) : Prop :=
  ∀ s s1, Fetches 1 ws s s1 →
    exec head s = .next (takeTrap s1.cur (encode head) 1 2 ((encode head).zeroExtend 64) s1)

/-- A branch, in a thread that follows no leader, goes to PC + imm where `taken` holds and else to the next unit; where
the target has bit 1 set it traps at its own address with the target as XVAL (R17, R54). -/
def Branches (mk : Reg → Reg → BitVec 12 → Instr) (taken : Word → Word → Prop) : Prop :=
  ∀ rs1 rs2 off s s1 s2 a b, Ready (mk rs1 rs2 off) s → (s.thr s.cur).fq = [] → Gives (readX rs1) s a s1 →
    Gives (readX rs2) s1 b s2 →
    let target := (s.thr s.cur).pc + (off ++ (0 : BitVec 1)).signExtend 64
    (¬ taken a b → Does (mk rs1 rs2 off) s none s2) ∧
    (taken a b → target.getLsbD 1 = false → Does (mk rs1 rs2 off) s (some target) s2) ∧
    (taken a b → target.getLsbD 1 = true → Traps (mk rs1 rs2 off) s 2 0 target s)

/-- An atomic of Table 8.8 (R187, R188): its doubleword is checked, released to where RL says, read at its home, and written
there with what f answers of the old value, rs2 and the value compared, if anything; rd receives the old value. -/
def Atomically (mk : Bool → Bool → Bool → Reg → Reg → Reg → Instr) (compares : Bool) (f : Word → Word → Word → Option Word) :
    Prop :=
  ∀ aq rl scx rd rs1 rs2 s s1 s2 s3 s4 s5 s6 s7 s8 s9 a v e h old, Ready (mk aq rl scx rd rs1 rs2) s →
    Gives (readX rs1) s a s1 → Gives (readX rs2) s1 v s2 →
    (if compares then Gives (readX rd) s2 e s3 else e = 0 ∧ s3 = s2) → a.toNat % 8 = 0 →
    Gives (homeOrTrap 6 a needRW) s3 h s4 → Gives settleRelease s4 () s5 →
    (if rl then Gives (release (if scx then .host else .part)) s5 () s6 else s6 = s5) →
    Gives (atomicOld 6 a h) s6 old s7 →
    (match f old v e with | some w => Gives (atomicWrite h w) s7 () s8 | none => s8 = s7) →
    Gives (writeX rd old) s8 () s9 → Does (mk aq rl scx rd rs1 rs2) s none s9

/-- The current thread waits at its PC. -/
def Waits (i : Instr) (s : State) : Prop :=
  ∃ t, exec i s = .next t ∧ (t.thr s.cur).waiting = true ∧ (t.thr s.cur).pc = (s.thr s.cur).pc

/-- A vector form on a compute core that needs the claim (R252, R255): without it the form traps with 0x01, and with a held fault as
that fault. -/
def NeedsClaim (i : Instr) : Prop :=
  ∀ s, Ready i s → coreOf s.cur < 2048 →
    let c := s.claim (coreOf s.cur)
    (c.owner ≠ some s.cur → Traps i s 11 0x01 (s.vgrant (coreOf s.cur)) s) ∧
    ∀ sub va pc, c.owner = some s.cur → c.fault = some (sub, va, pc) → Traps i s 11 sub va s

/-- A vector form that the lane pool's queue takes (R252, R253), with what it reads of its x operands at its issue, and that needs
the claim. -/
def Pushes (i : Instr) (x1 x2 : Option Reg) : Prop :=
  NeedsClaim i ∧ ∀ s s1 s2 s3 a b, Ready i s → coreOf s.cur < 2048 →
    let n := coreOf s.cur
    (s.claim n).owner = some s.cur → (s.claim n).fault = none → (s.claim n).queue.length < 16 →
    Gives (optX x1) s a s1 → Gives (optX x2) s1 b s2 → Gives pushRelease s2 () s3 →
    Does i s none (s3.modClaim n fun c => { c with
      queue := c.queue ++ [{ instr := i, tid := s.cur, pc := (s2.thr s2.cur).pc, x1 := a, x2 := b, vl := c.vl,
                             rm := (s2.thr s2.cur).rm, data := [], prog := 0 }] })

/-- The command `i` at the head of a queue completes (R253, R259): elements e of z bytes of register vd become `f c q e`
of the registers as they were, no other byte of the claim's registers changes, and the queue goes on. -/
def Computes (i : Instr) (vd : Reg) (z : Nat) (f : Claim → VCmd → Nat → Nat) : Prop :=
  ∀ s core q rest, s.poolRuns core = true → (s.claim core).queue = q :: rest → q.instr = i → (s.claim core).moves = [] →
    q.vl ≤ 4096 → ∃ t, exec (.vectorCommandComplete core) s = .next t ∧ (t.claim core).queue = rest ∧
      (∀ e, e < q.vl / z → (t.claim core).elem vd.toNat e z = f (s.claim core) q e) ∧
      ∀ r k, k < 4096 → (r ≠ vd.toNat ∨ q.vl / z * z ≤ k) → (t.claim core).byte r k = (s.claim core).byte r k

/-- The command `i` at the head of a queue completes with the flags `fl` and leaves registers that `P` relates to those before (R241, R253). -/
def CompletesAs (i : Instr) (fl : Claim → VCmd → FlagSet) (P : Claim → VCmd → Claim → Prop) : Prop :=
  ∀ s core q rest, s.poolRuns core = true → (s.claim core).queue = q :: rest → q.instr = i → (s.claim core).moves = [] →
    q.vl ≤ 4096 → ∃ t, exec (.vectorCommandComplete core) s = .next t ∧ (t.claim core).queue = rest ∧
      (t.thr q.tid).flags = (s.thr q.tid).flags ||| fl (s.claim core) q ∧ P (s.claim core) q (t.claim core)

/-- The first n elements of z bytes of register vd become `f` of the registers as they were, and no other byte changes. -/
def FillsElems (vd z : Nat) (n : VCmd → Nat) (f : Claim → VCmd → Nat → Nat) (c : Claim) (q : VCmd) (d : Claim) : Prop :=
  (∀ e, e < n q → d.elem vd e z = f c q e % 2 ^ (8 * z)) ∧
    ∀ r k, k < 4096 → (r ≠ vd ∨ n q * z ≤ k) → d.byte r k = c.byte r k

/-- The first n mask bits of register vd become `f` of the registers as they were; its other bits and the other registers stay. -/
def FillsMask (vd : Nat) (n : VCmd → Nat) (f : Claim → VCmd → Nat → Bool) (c : Claim) (q : VCmd) (d : Claim) : Prop :=
  (∀ e, e < n q → d.bit vd e = f c q e) ∧ (∀ e, n q ≤ e → e < 8 * 4096 → d.bit vd e = c.bit vd e) ∧
    ∀ r k, k < 4096 → r ≠ vd → d.byte r k = c.byte r k

/-- A command whose elements of z bytes are `f`'s values, with the flags of all of them. -/
def ElemsWithFlags (i : Instr) (vd : Reg) (z : Nat) (n : VCmd → Nat) (f : Claim → VCmd → Nat → Nat × FlagSet) : Prop :=
  CompletesAs i (fun c q => allFlags ((List.range (n q)).map (f c q))) (FillsElems vd.toNat z n fun c q e => (f c q e).1)

/-- A compare whose mask bits are `f`'s, with the flags of all of them. -/
def MaskWithFlags (i : Instr) (vd : Reg) (n : VCmd → Nat) (f : Claim → VCmd → Nat → Bool × FlagSet) : Prop :=
  CompletesAs i (fun c q => allFlags ((List.range (n q)).map (f c q))) (FillsMask vd.toNat n fun c q e => (f c q e).1)

/-- A reduction of the elements of z bytes of register a into element 0 of vd; with no element nothing is written (R264). -/
def Reduces (i : Instr) (vd a : Reg) (z : Nat) (f : VCmd → List Nat → Nat × FlagSet) : Prop :=
  let l := fun (c : Claim) (q : VCmd) => (List.range (q.vl / z)).map fun e => c.elem a.toNat e z
  CompletesAs i (fun c q => if q.vl / z = 0 then 0 else (f q (l c q)).2)
    (FillsElems vd.toNat z (fun q => min 1 (q.vl / z)) fun c q _ => (f q (l c q)).1)

/-- A vector load (R254, R255, R267): once every element has passed its checks and has been read, and no bucket makes it wait, the bytes stand in register
vd and the command is done. -/
def VectorLoads (i : Instr) (vd : Reg) (z : Nat) (addr : Claim → VCmd → Nat → Word) : Prop :=
  ∀ s core q rest hs s1 bs s2, s.poolRuns core = true → (s.claim core).queue = q :: rest → q.instr = i → (s.claim core).moves = [] →
    q.homes = [] → q.data = [] →
    let as := (List.range (q.vl / z)).map (addr (s.claim core) q)
    Gives (vectorCheck (s.agent q.tid) false z as []) s (.all hs) s1 → Gives (vectorRead (s.agent q.tid) z (as.zip hs) []) s1 (.all bs) s2 →
    ∃ t, exec (.vectorCommandComplete core) s = .next t ∧ (t.claim core).queue = (s2.claim core).queue.tail ∧
      (t.claim core).vregs = ((s2.claim core).putBytes vd.toNat 0 bs).vregs ∧ t.mem = s2.mem

/-- A vector store: once every element has passed its checks, register vs's elements are stored in ascending order and the command is done. -/
def VectorStores (i : Instr) (vs : Reg) (z : Nat) (addr : Claim → VCmd → Nat → Word) : Prop :=
  ∀ s core q rest hs s1 k s2, s.poolRuns core = true → (s.claim core).queue = q :: rest → q.instr = i → (s.claim core).moves = [] →
    q.homes = [] → q.prog = 0 →
    let as := (List.range (q.vl / z)).map (addr (s.claim core) q)
    Gives (vectorCheck (s.agent q.tid) true z as []) s (.all hs) s1 →
    let xs := as.zip hs
    Gives (vectorWrite (s.agent q.tid) z (((List.range xs.length).zip xs).map fun x => (x.2, (s.claim core).elem vs.toNat x.1 z)) 0) s1 (.all k) s2 →
    ∃ t, exec (.vectorCommandComplete core) s = .next t ∧ (t.claim core).queue = (s2.claim core).queue.tail ∧
      (t.claim core).vregs = (s2.claim core).vregs ∧ t.mem = s2.mem

/-- The run of octet o has parison `h` of opcode `op` in hand, and its partition is not held (R299, R304). -/
def State.atParison (s : State) (o op : Nat) (h : Header) : Prop :=
  (s.run o).header = some h ∧ (s.run o).st = .running ∧ h.op = op ∧ s.clusterHeld (o / 2) = false

/-- A transform operation (R311, R312): the request at the head of the queue reads its source, works, checks and writes its
destination, and is executed, where no access fails and no bucket makes it wait. -/
def Transforms (mk : Nat → Instr) (op : Nat) (need : TxReq → List Byte → Nat) (oldBytes : TxReq → Nat)
    (work : TxReq → List Byte → List Byte → TxOut) : Prop :=
  ∀ s o r rest s1 s2 s3 s4 bs old hs k, (s.octet o).txq = r :: rest → txOp r.ctl = op → r.outcome = none → r.out = none →
    r.dead = false → r.put = 0 → r.homes = [] →
    Gives (txExecute.readAll r.agent r (2 * txN r.ctl + 2) need r.got)
      (s.modThr r.tid fun th => { th with tx := { th.tx with state := 2 } }) (.all bs) s1 →
    Gives (txRead r.agent needW 1024 r.dst (oldBytes r) []) s1 (.all old) s2 →
    let w := work r bs old
    let u := txDstAlign r.ctl
    Gives (txCheck r.agent u (w.bytes.length / u) r.dst []) s2 (.all hs) s3 → w.bad = none →
    Gives (txWrite r.agent u hs r.dst w.bytes 0) s3 (.all k) s4 →
    ∃ t, exec (mk o) s = .next t ∧ t = s4.modOctet o fun y => { y with
      txq := { r with started := true, got := [], out := some (w.bytes, BitVec.ofNat 64 w.result), homes := hs, flags := w.flags,
                      put := k, outcome := some (0, BitVec.ofNat 64 w.result) } :: rest }

/-- A transform operation whose request fails (R312, R316): its record is told the subcause and the address, of a source that cannot be read, of a destination
that cannot be written, or of a block with a reserved exponent, and the request is executed. -/
def TransformFails (mk : Nat → Instr) (op : Nat) (need : TxReq → List Byte → Nat) (oldBytes : TxReq → Nat)
    (work : TxReq → List Byte → List Byte → TxOut) : Prop :=
  ∀ s o r rest, (s.octet o).txq = r :: rest → txOp r.ctl = op → r.outcome = none → r.out = none → r.dead = false → r.put = 0 → r.homes = [] →
    let s0 := s.modThr r.tid fun th => { th with tx := { th.tx with state := 2 } }
    let failed := fun (sub : BitVec 8) (va : Word) (u : State) => exec (mk o) s = .next (u.modOctet o fun y => { y with
      txq := { r with started := true, outcome := some (sub, va) } :: rest })
    (∀ s1 sub va, Gives (txExecute.readAll r.agent r (2 * txN r.ctl + 2) need r.got) s0 (.fault sub va) s1 → failed sub va s1) ∧
    ∀ s1 s2 bs, Gives (txExecute.readAll r.agent r (2 * txN r.ctl + 2) need r.got) s0 (.all bs) s1 →
      (∀ sub va, Gives (txRead r.agent needW 1024 r.dst (oldBytes r) []) s1 (.fault sub va) s2 → failed 0x04 va s2) ∧
      ∀ old, Gives (txRead r.agent needW 1024 r.dst (oldBytes r) []) s1 (.all old) s2 →
        let w := work r bs old
        let n := w.bytes.length / txDstAlign r.ctl
        ∀ s3, (∀ sub va, Gives (txCheck r.agent (txDstAlign r.ctl) n r.dst []) s2 (.fault sub va) s3 → failed sub va s3) ∧
          ∀ hs sub va, Gives (txCheck r.agent (txDstAlign r.ctl) n r.dst []) s2 (.all hs) s3 → w.bad = some (sub, va) → failed sub va s3

/-- The register that a form writes whose whole effect is on registers: the register-register, immediate, multiply, divide and
bit-field forms, lui and auipc. -/
def plainDest (i : Instr) : Option Reg :=
  match i with
  | .add rd _ _ | .sub rd _ _ | .sll rd _ _ | .slt rd _ _ | .sltu rd _ _ | .xor rd _ _ | .srl rd _ _ | .sra rd _ _
  | .or rd _ _ | .and rd _ _ | .addw rd _ _ | .subw rd _ _ | .sllw rd _ _ | .srlw rd _ _ | .sraw rd _ _ => some rd
  | .mul rd _ _ | .mulh rd _ _ | .mulhsu rd _ _ | .mulhu rd _ _ | .div rd _ _ | .divu rd _ _ | .rem rd _ _ | .remu rd _ _
  | .mulw rd _ _ | .divw rd _ _ | .divuw rd _ _ | .remw rd _ _ | .remuw rd _ _ => some rd
  | .addi rd _ _ | .slti rd _ _ | .sltiu rd _ _ | .xori rd _ _ | .ori rd _ _ | .andi rd _ _ | .addiw rd _ _ => some rd
  | .slli rd _ _ | .srli rd _ _ | .srai rd _ _ | .slliw rd _ _ | .srliw rd _ _ | .sraiw rd _ _ => some rd
  | .bfx rd _ _ | .bfxs rd _ _ | .bfi rd _ _ | .clz rd _ | .ctz rd _ | .cpop rd _ | .rev8 rd _ => some rd
  | .lui rd _ | .auipc rd _ => some rd
  | _ => none

/-- The thread `th` once a unit of one word has completed that leaves it the registers `r` and goes on at the next unit: nothing
but its registers, its PC, INSTRET, the words counted in an open packet, the deal levels its unit has retried and the marks of the unit in
progress changes. -/
def Thread.afterPlain (th : Thread) (r : NMap Word) : Thread :=
  { th.unitEnds with
    regs := r, pc := th.pc + 4, instret := if th.issued then th.instret else th.instret + 1, retried := []
    msg := th.msg.map fun m => { m with issued := m.issued + 1 } }

/-- Everything but the threads is as before, up to what issuing a word charges: the issue arbiter of the thread's core,
the core's record of the thread that issued last and of the slot it used, and energy (R65, R66, R376). -/
def State.onlyIssue (s t : State) : Prop :=
  t.mem = s.mem ∧ t.poison = s.poison ∧ t.octets = s.octets ∧ t.clusters = s.clusters ∧ t.parts = s.parts ∧
  t.seats = s.seats ∧ t.nextDeal = s.nextDeal ∧ t.frames = s.frames ∧ t.scrubs = s.scrubs ∧ t.scrubLeft = s.scrubLeft ∧ t.paid = s.paid ∧
  t.slices = s.slices ∧ t.links = s.links ∧ t.expTables = s.expTables ∧ t.funcs = s.funcs ∧ t.hub = s.hub ∧ t.root = s.root ∧
  t.dealerRt = s.dealerRt ∧ t.cycle = s.cycle ∧ t.ticks = s.ticks ∧ t.free = s.free ∧ t.cur = s.cur ∧ t.pend = s.pend ∧ t.now = s.now ∧ t.wrote = s.wrote ∧
  t.agenda = s.agenda ∧ t.posts = s.posts ∧ t.coreAt = s.coreAt ∧ t.evTurn = s.evTurn ∧ t.evLeft = s.evLeft ∧
  t.evCur = s.evCur ∧ (t.slotUsed = true ∨ t.slotUsed = s.slotUsed) ∧
  (∀ k, k ≠ coreOf s.cur → t.arb k = s.arb k ∧ t.core k = s.core k) ∧
  t.core (coreOf s.cur) = { s.core (coreOf s.cur) with lastIssued := (t.core (coreOf s.cur)).lastIssued } ∧
  ∀ d, t.deal d = { s.deal d with energy := (t.deal d).energy }

/-- A control-register access by form `f` (R79): `field` is inst[19:15], `src` what the source gives, `s1` the state once it
has been read. A permitted access reads, clears what a read clears, writes, and then writes the old value to rd; an
unassigned number and a denied access trap. -/
def AccessesCsr (i : Instr) (f : CsrForm) (rd : Reg) (csr : BitVec 12) (field : BitVec 5) (src : Word) (s s1 : State) : Prop :=
  let reads := f ≠ .w ∨ rd ≠ 0
  let writes := f = .w ∨ field ≠ 0
  let old := wordOfNat (csrRead s1 s1.cur csr.toNat)
  let s2 := if reads then csrClear s1.cur csr.toNat s1 else s1
  let s3 := if writes then csrWrite s1.cur csr.toNat
      (match f with | .w => src | .s => old ||| src | .c => old &&& ~~~src) s2 else s2
  match csrEntry csr.toNat with
  | none => Traps i s 1 4 ((encode i).zeroExtend 64) s
  | some e =>
    let sys := (s1.thr s1.cur).sys
    if (writes ∧ (e.2 = .none ∨ (e.2 = .system ∧ sys = false))) ∨ (reads ∧ e.1 = .system ∧ sys = false) then
      Traps i s 1 5 ((encode i).zeroExtend 64) s
    else if reads then ∀ s4, Gives (writeX rd old) s3 () s4 → Does i s none s4
    else Does i s none s3

end Sys2Proof.Machine
end

