-- ==== Sys2Proof/Certificates/Slice0/Obligations.lean ====
section
/-! DEFINITION. The statements for the provers. -/

open Sys2Proof Sys2Proof.Machine

/-! ## Words and instructions -/

/-- R18, R25: for every well-formed instruction with a word, decoding its word gives it back, at every value of every
operand field. -/
def Obligations.DecodeOfEncode : Prop :=
  ∀ i : Instr, i.isEvent = false → i.wf = true → decode (encode i) = .ok i

/-- R18, R25: a word that decodes is the word of the instruction that it decodes to, which is well-formed: decoding drops
no bit. -/
def Obligations.EncodeOfDecode : Prop :=
  ∀ (w : IWord) (i : Instr), decode w = .ok i → i.isEvent = false ∧ i.wf = true ∧ encode i = w

/-- R45: the register-register forms on OP write the results of Table 2.4, reduced modulo 2^64, with the words of Table 2.3,
and no other pairing of funct7 and funct3 is assigned but those of funct7 0000001. -/
def Obligations.RegisterRegister : Prop :=
  Binary .add (fun a b => BitVec.ofNat 64 (a.toNat + b.toNat)) ∧
  Binary .sub (fun a b => BitVec.ofInt 64 (a.toNat - b.toNat)) ∧
  Binary .sll (fun a b => BitVec.ofNat 64 (a.toNat * 2 ^ (b.toNat % 64))) ∧
  Binary .slt (fun a b => if a.toInt < b.toInt then 1 else 0) ∧
  Binary .sltu (fun a b => if a.toNat < b.toNat then 1 else 0) ∧
  Binary .xor (fun a b => a ^^^ b) ∧
  Binary .srl (fun a b => BitVec.ofNat 64 (a.toNat / 2 ^ (b.toNat % 64))) ∧
  Binary .sra (fun a b => BitVec.ofInt 64 (a.toInt.fdiv (2 ^ (b.toNat % 64)))) ∧
  Binary .or (fun a b => a ||| b) ∧
  Binary .and (fun a b => a &&& b) ∧
  EncodedAs 0b0110011#7 [(.add, 0#7, 0#3), (.sub, 0b0100000#7, 0#3), (.sll, 0#7, 0b001#3), (.slt, 0#7, 0b010#3),
    (.sltu, 0#7, 0b011#3), (.xor, 0#7, 0b100#3), (.srl, 0#7, 0b101#3), (.sra, 0b0100000#7, 0b101#3), (.or, 0#7, 0b110#3),
    (.and, 0#7, 0b111#3)] ∧
  AssignedOn 0b0110011#7 (fun funct7 funct3 => funct7 = 0 ∨ funct7 = 1 ∨ funct7 = 0b0100000 ∧ (funct3 = 0 ∨ funct3 = 0b101))

/-- R50: the multiply and divide forms, 64-bit and 32-bit, write the results of Table 2.10, those of a zero divisor and of the
overflow cases among them, and complete whatever the operands; their words have funct7 0000001, and funct3 001, 010 and 011
are unassigned on OP-32. -/
def Obligations.MultiplyDivide : Prop :=
  Binary .mul (fun a b => BitVec.ofNat 64 (a.toNat * b.toNat)) ∧
  Binary .mulh (fun a b => BitVec.ofInt 64 ((a.toInt * b.toInt).fdiv (2 ^ 64))) ∧
  Binary .mulhsu (fun a b => BitVec.ofInt 64 ((a.toInt * b.toNat).fdiv (2 ^ 64))) ∧
  Binary .mulhu (fun a b => BitVec.ofNat 64 (a.toNat * b.toNat / 2 ^ 64)) ∧
  Binary .div (fun a b => if b.toNat = 0 then BitVec.ofInt 64 (-1)
    else if a.toInt = -2 ^ 63 ∧ b.toInt = -1 then BitVec.ofInt 64 (-2 ^ 63) else BitVec.ofInt 64 (a.toInt.tdiv b.toInt)) ∧
  Binary .divu (fun a b => if b.toNat = 0 then BitVec.ofNat 64 (2 ^ 64 - 1) else BitVec.ofNat 64 (a.toNat / b.toNat)) ∧
  Binary .rem (fun a b => if b.toNat = 0 then a
    else if a.toInt = -2 ^ 63 ∧ b.toInt = -1 then 0
    else BitVec.ofInt 64 (a.toInt - b.toInt * a.toInt.tdiv b.toInt)) ∧
  Binary .remu (fun a b => if b.toNat = 0 then a else BitVec.ofNat 64 (a.toNat - b.toNat * (a.toNat / b.toNat))) ∧
  Binary .mulw (fun a b => sext32 (a.toNat * b.toNat)) ∧
  Binary .divw (fun a b => if b.toNat % 2 ^ 32 = 0 then BitVec.ofInt 64 (-1)
    else if (sext32 a.toNat).toInt = -2 ^ 31 ∧ (sext32 b.toNat).toInt = -1 then BitVec.ofInt 64 (-2 ^ 31)
    else sext32 ((sext32 a.toNat).toInt.tdiv (sext32 b.toNat).toInt)) ∧
  Binary .divuw (fun a b => if b.toNat % 2 ^ 32 = 0 then BitVec.ofInt 64 (-1)
    else sext32 ((a.toNat % 2 ^ 32) / (b.toNat % 2 ^ 32) : Nat)) ∧
  Binary .remw (fun a b => if b.toNat % 2 ^ 32 = 0 then sext32 a.toNat
    else if (sext32 a.toNat).toInt = -2 ^ 31 ∧ (sext32 b.toNat).toInt = -1 then 0
    else sext32 ((sext32 a.toNat).toInt - (sext32 b.toNat).toInt * (sext32 a.toNat).toInt.tdiv (sext32 b.toNat).toInt)) ∧
  Binary .remuw (fun a b => if b.toNat % 2 ^ 32 = 0 then sext32 a.toNat
    else sext32 (a.toNat % 2 ^ 32 - b.toNat % 2 ^ 32 * ((a.toNat % 2 ^ 32) / (b.toNat % 2 ^ 32)) : Nat)) ∧
  EncodedAs 0b0110011#7 [(.mul, 1#7, 0#3), (.mulh, 1#7, 0b001#3), (.mulhsu, 1#7, 0b010#3), (.mulhu, 1#7, 0b011#3),
    (.div, 1#7, 0b100#3), (.divu, 1#7, 0b101#3), (.rem, 1#7, 0b110#3), (.remu, 1#7, 0b111#3)] ∧
  EncodedAs 0b0111011#7 [(.mulw, 1#7, 0#3), (.divw, 1#7, 0b100#3), (.divuw, 1#7, 0b101#3), (.remw, 1#7, 0b110#3),
    (.remuw, 1#7, 0b111#3)] ∧
  ∀ rs2 rs1 rd : Reg, ∀ funct3 ∈ [0b001#3, 0b010#3, 0b011#3],
    (decode (1#7 ++ rs2 ++ rs1 ++ funct3 ++ rd ++ 0b0111011#7)).toBool = false

/-- R46: the 32-bit register-register forms on OP-32 compute on the low 32 bits and write the 32-bit result of Table 2.5,
sign-extended, with the words of Table 2.3; funct7 0000001 there holds the multiply and divide forms, and every other
pairing is unassigned. -/
def Obligations.RegisterRegister32 : Prop :=
  Binary .addw (fun a b => sext32 (a.toNat + b.toNat)) ∧
  Binary .subw (fun a b => sext32 (a.toNat - b.toNat)) ∧
  Binary .sllw (fun a b => sext32 (a.toNat % 2 ^ 32 * 2 ^ (b.toNat % 32))) ∧
  Binary .srlw (fun a b => sext32 (a.toNat % 2 ^ 32 / 2 ^ (b.toNat % 32))) ∧
  Binary .sraw (fun a b => sext32 ((sext32 a.toNat).toInt.fdiv (2 ^ (b.toNat % 32)))) ∧
  EncodedAs 0b0111011#7 [(.addw, 0#7, 0#3), (.subw, 0b0100000#7, 0#3), (.sllw, 0#7, 0b001#3), (.srlw, 0#7, 0b101#3),
    (.sraw, 0b0100000#7, 0b101#3), (.mulw, 1#7, 0#3), (.divw, 1#7, 0b100#3), (.divuw, 1#7, 0b101#3), (.remw, 1#7, 0b110#3),
    (.remuw, 1#7, 0b111#3)] ∧
  AssignedOn 0b0111011#7 (fun funct7 funct3 => funct7 = 0 ∧ (funct3 = 0 ∨ funct3 = 0b001 ∨ funct3 = 0b101) ∨
    funct7 = 0b0100000 ∧ (funct3 = 0 ∨ funct3 = 0b101) ∨ funct7 = 1 ∧ (funct3 = 0 ∨ 0b100 ≤ funct3))

/-- Tables 2.7 and 2.8, R49: the immediate forms; a 12-bit immediate is sign-extended, a U immediate stands at bits 31 to
12 and is sign-extended, and auipc adds to its own address. -/
def Obligations.Immediates : Prop :=
  WithImm .addi (fun a i => BitVec.ofInt 64 (a.toNat + i.toInt)) ∧
  WithImm .slti (fun a i => if a.toInt < i.toInt then 1 else 0) ∧
  WithImm .sltiu (fun a i => if a.toNat < (BitVec.ofInt 64 i.toInt).toNat then 1 else 0) ∧
  WithImm .xori (fun a i => a ^^^ BitVec.ofInt 64 i.toInt) ∧
  WithImm .ori (fun a i => a ||| BitVec.ofInt 64 i.toInt) ∧
  WithImm .andi (fun a i => a &&& BitVec.ofInt 64 i.toInt) ∧
  WithImm .slli (fun a sh => BitVec.ofNat 64 (a.toNat * 2 ^ sh.toNat)) ∧
  WithImm .srli (fun a sh => BitVec.ofNat 64 (a.toNat / 2 ^ sh.toNat)) ∧
  WithImm .srai (fun a sh => BitVec.ofInt 64 (a.toInt.fdiv (2 ^ sh.toNat))) ∧
  WithImm .addiw (fun a i => sext32 (a.toNat + i.toInt)) ∧
  WithImm .slliw (fun a sh => sext32 (a.toNat % 2 ^ 32 * 2 ^ sh.toNat)) ∧
  WithImm .srliw (fun a sh => sext32 (a.toNat % 2 ^ 32 / 2 ^ sh.toNat)) ∧
  WithImm .sraiw (fun a sh => sext32 ((sext32 a.toNat).toInt.fdiv (2 ^ sh.toNat))) ∧
  (∀ rd imm s s1, Ready (.lui rd imm) s → Gives (writeX rd (BitVec.ofInt 64 (imm.toInt * 2 ^ 12))) s () s1 →
    Does (.lui rd imm) s none s1) ∧
  (∀ rd imm s s1, Ready (.auipc rd imm) s →
    Gives (writeX rd (BitVec.ofInt 64 ((s.thr s.cur).pc.toNat + imm.toInt * 2 ^ 12))) s () s1 →
    Does (.auipc rd imm) s none s1)

/-- R58 to R60: the bit-field and bit-count forms. -/
def Obligations.BitFields : Prop :=
  Binary .bfx (fun a c => BitVec.ofNat 64 (a.toNat / 2 ^ (c.toNat % 256) % 2 ^ (c.toNat / 256 % 256))) ∧
  Binary .bfxs (fun a c =>
    let off := c.toNat % 256
    let wid := c.toNat / 256 % 256
    let f := a.toNat / 2 ^ off % 2 ^ wid
    if 0 < wid ∧ off + wid ≤ 64 ∧ 2 ^ (wid - 1) ≤ f then BitVec.ofInt 64 ((f : Int) - 2 ^ wid) else BitVec.ofNat 64 f) ∧
  (∀ rd rs1 rs2 s s1 s2 s3 s4 v c d r, Ready (.bfi rd rs1 rs2) s → Gives (readX rs1) s v s1 → Gives (readX rs2) s1 c s2 →
    Gives (readX rd) s2 d s3 →
    (∀ j, j < 64 → r.getLsbD j = if c.toNat % 256 ≤ j ∧ j < c.toNat % 256 + c.toNat / 256 % 256
      then v.getLsbD (j - c.toNat % 256) else d.getLsbD j) →
    Gives (writeX rd r) s3 () s4 → Does (.bfi rd rs1 rs2) s none s4) ∧
  Unary .clz (fun a => BitVec.ofNat 64 (((List.range 64).reverse.takeWhile fun j => !a.getLsbD j).length)) ∧
  Unary .ctz (fun a => BitVec.ofNat 64 (((List.range 64).takeWhile fun j => !a.getLsbD j).length)) ∧
  Unary .cpop (fun a => BitVec.ofNat 64 (((List.range 64).filter fun j => a.getLsbD j).length)) ∧
  (∀ rd rs1 s s1 s2 a r, Ready (.rev8 rd rs1) s → Gives (readX rs1) s a s1 →
    (∀ i j, i < 8 → j < 8 → r.getLsbD (8 * i + j) = a.getLsbD (8 * (7 - i) + j)) →
    Gives (writeX rd r) s1 () s2 → Does (.rev8 rd rs1) s none s2)

/-- R52, R53, R111, R165, R168, R320: the base loads, for every place the address leads to that can be read; and what such a read gives where nothing makes
it wait: the bytes of the thread's own scratchpad, of an expanded block of cluster memory, of a block that the core's cache holds, and of GDDR at the home
for a load that allocates nothing. -/
def Obligations.Loads : Prop :=
  LoadsBytes .lb 1 (fun v => BitVec.ofInt 64 (BitVec.ofNat 8 v).toInt) ∧
  LoadsBytes .lh 2 (fun v => BitVec.ofInt 64 (BitVec.ofNat 16 v).toInt) ∧
  LoadsBytes .lw 4 (fun v => BitVec.ofInt 64 (BitVec.ofNat 32 v).toInt) ∧
  LoadsBytes .ld 8 (fun v => BitVec.ofNat 64 v) ∧
  LoadsBytes .lbu 1 (fun v => BitVec.ofNat 64 v) ∧
  LoadsBytes .lhu 2 (fun v => BitVec.ofNat 64 v) ∧
  LoadsBytes .lwu 4 (fun v => BitVec.ofNat 64 v) ∧
  (∀ s (va : Word) n att, n ∈ [1, 2, 4, 8] → coreOf s.cur < 2048 → va.toNat % n = 0 →
    let c := coreOf s.cur
    let a := (rewriteOwn c va).toNat
    s.heldBy (clusterOf c) a n = none → (s.core c).rstores = [] →
    (∀ off, placeOf c a = .bank c off → off < 0x60000 → s.bankOwned ((s.thr s.cur).seat.getD 0) c off = true →
      s.poisoned (bankAddr c off) = false → Gives (memRead va n att) s (s.load (bankAddr c off) n) s) ∧
    (∀ k off s1, placeOf c a = .cm k off → Gives (cmCheck (s.agent s.cur) k off n needR) s (.ok true) s1 → s1.arbs = {} →
      (s1.core c).rstores = [] → (s1.cluster k).cmQueue = [] → ((s1.cluster k).cmBlocks.find? fun y => y.1 == off / 512) ≠ none →
      s1.poisoned (cmAddr k off) = false → ∃ t, Gives (memRead va n att) s (s1.load (cmAddr k off) n) t ∧ t.mem = s1.mem) ∧
    (∀ b e, placeOf c a = .page → ((s.core c).set (setOf a)).blocks.find? (fun x => x.holds a) = some b → scopeCached att.scope = true →
      att.pol ≠ .lastUse → b.poisoned = false → b.dom ≠ 0 → (s.core c).stale = false →
      (s.core c).plb.find? (fun x => x.seat == (s.thr s.cur).seat.getD 0 && x.dom == b.dom) = some e → e.nib &&& 1 = 1 →
      ∃ t, Gives (memRead va n att) s (b.read a n) t ∧ t.mem = s.mem) ∧
    (∀ x s1, placeOf c a = .page → ((s.core c).set (setOf a)).blocks.find? (fun x => x.holds a) = none →
      ((s.core c).set (setOf a)).victims.find? (fun v => v.blk.holds a) = none → att.pol = .noAlloc →
      Gives (translate (s.agent s.cur) a needR) s (.ok x) s1 → x.pa < 192 * 2 ^ 30 → s1.arbs = {} → (s1.core c).rstores = [] →
      s1.poisoned x.pa = false → ∃ t, Gives (memRead va n att) s (s1.load x.pa n) t ∧ t.mem = s1.mem))

/-- R52, R53: the base stores, for every place the address leads to that can be written. -/
def Obligations.Stores : Prop :=
  StoresBytes .sb 1 ∧ StoresBytes .sh 2 ∧ StoresBytes .sw 4 ∧ StoresBytes .sd 8

/-- R17, R54: the branches of a thread that follows no leader, with the conditions of Table 2.15 and the words of Table 2.14: a
taken branch goes to PC + imm, and traps where the target has bit 1 set (R17), with subcause 0, which is the model's choice (log 42); one that
is not taken never does; funct3 010 and 011 are unassigned. -/
def Obligations.BranchForms : Prop :=
  Branches .beq (fun a b => a.toNat = b.toNat) ∧
  Branches .bne (fun a b => a.toNat ≠ b.toNat) ∧
  Branches .blt (fun a b => a.toInt < b.toInt) ∧
  Branches .bge (fun a b => b.toInt ≤ a.toInt) ∧
  Branches .bltu (fun a b => a.toNat < b.toNat) ∧
  Branches .bgeu (fun a b => b.toNat ≤ a.toNat) ∧
  (∀ f ∈ [(Instr.beq, 0#3), (.bne, 0b001#3), (.blt, 0b100#3), (.bge, 0b101#3), (.bltu, 0b110#3), (.bgeu, 0b111#3)],
    ∀ (rs1 rs2 : Reg) (sign : BitVec 1) (bit11 : BitVec 1) (high : BitVec 6) (low : BitVec 4),
      encode (f.1 rs1 rs2 (sign ++ bit11 ++ high ++ low)) =
        sign ++ high ++ rs2 ++ rs1 ++ f.2 ++ low ++ bit11 ++ 0b1100011#7) ∧
  ∀ (h : BitVec 7) (rs2 rs1 : Reg) (l : BitVec 5), ∀ funct3 ∈ [0b010#3, 0b011#3],
    (decode (h ++ rs2 ++ rs1 ++ funct3 ++ l ++ 0b1100011#7)).toBool = false

/-- R17, R55: jal and jalr of a thread that follows no leader: the link is written, the target is the next PC with bit 0
cleared for jalr, and a target with bit 1 set traps with no link written and subcause 0, which is the model's choice (log 42). -/
def Obligations.Jumps : Prop :=
  (∀ rd off s s1, Ready (.jal rd off) s → (s.thr s.cur).fq = [] →
    let target := (s.thr s.cur).pc + (off ++ (0 : BitVec 1)).signExtend 64
    (target.getLsbD 1 = false → Gives (writeX rd ((s.thr s.cur).pc + 4)) s () s1 → Does (.jal rd off) s (some target) s1) ∧
    (target.getLsbD 1 = true → Traps (.jal rd off) s 2 0 target s)) ∧
  (∀ rd rs1 imm s s1 s2 a, Ready (.jalr rd rs1 imm) s → (s.thr s.cur).fq = [] → Gives (readX rs1) s a s1 →
    let sum := a.toNat + (imm.signExtend 64).toNat
    let target := BitVec.ofNat 64 (sum - sum % 2)
    (target.getLsbD 1 = false → Gives (writeX rd ((s.thr s.cur).pc + 4)) s1 () s2 →
      Does (.jalr rd rs1 imm) s (some target) s2) ∧
    (target.getLsbD 1 = true → Traps (.jalr rd rs1 imm) s 2 0 target s))

/-- R79, R8: the six access forms of the control registers. -/
def Obligations.ControlRegisters : Prop :=
  (∀ rd csr rs1 s s1 v, Ready (.csrrw rd csr rs1) s → Gives (readX rs1) s v s1 →
    AccessesCsr (.csrrw rd csr rs1) .w rd csr rs1 v s s1) ∧
  (∀ rd csr rs1 s s1 v, Ready (.csrrs rd csr rs1) s → Gives (readX rs1) s v s1 →
    AccessesCsr (.csrrs rd csr rs1) .s rd csr rs1 v s s1) ∧
  (∀ rd csr rs1 s s1 v, Ready (.csrrc rd csr rs1) s → Gives (readX rs1) s v s1 →
    AccessesCsr (.csrrc rd csr rs1) .c rd csr rs1 v s s1) ∧
  (∀ rd csr z s, Ready (.csrrwi rd csr z) s →
    AccessesCsr (.csrrwi rd csr z) .w rd csr z (BitVec.ofNat 64 z.toNat) s s) ∧
  (∀ rd csr z s, Ready (.csrrsi rd csr z) s →
    AccessesCsr (.csrrsi rd csr z) .s rd csr z (BitVec.ofNat 64 z.toNat) s s) ∧
  (∀ rd csr z s, Ready (.csrrci rd csr z) s →
    AccessesCsr (.csrrci rd csr z) .c rd csr z (BitVec.ofNat 64 z.toNat) s s)

/-- R8, R82: what some registers of Tables 3.9 and 3.10 give to a read, and where a write of some goes. -/
def Obligations.ControlRegisterFields : Prop :=
  ∀ (s : State) (t : Nat) (v : Word),
    csrRead (csrWrite t 0x006 v s) t 0x006 = v.toNat ∧
    csrRead (csrWrite t 0x003 v s) t 0x003 = v.toNat ∧
    csrRead (csrWrite t 0x002 v s) t 0x002 = v.toNat ∧
    csrRead (csrWrite t 0x004 v s) t 0x004 = v.toNat - v.toNat % 4 ∧
    csrRead s t 0x011 = s.cycle ∧
    csrRead s t 0x012 = s.cycle / 128 ∧
    csrRead (csrClear t 0x016 s) t 0x016 = 0 ∧
    (coreOf t < 2048 → csrRead s t 0x010 = coreOf t) ∧
    (csrWrite t 0x007 v s = s ∧ csrWrite t 0x011 v s = s ∧ csrWrite t 0x182 v s = s)

/-- R29 to R31: units of prefixes and a target. A base load, base store, immediate form or jalr under pfx.imm executes with the
34-bit immediate; a base load or store under pfx.ord accesses once its counter has been seen at zero; under both, in either
order, it does both; a prefix word that has a target behind it issues alone, with the unit unfinished. A word that is no
target of the prefixes before it, a second prefix of the same kind, and a word that does not decode are misuse: the unit traps
with subcause 2 and none of its words issues. -/
def Obligations.PrefixedUnits : Prop :=
  PrefixedLoad .lb 1 (fun v => BitVec.ofInt 64 (BitVec.ofNat 8 v).toInt) ∧
  PrefixedLoad .lh 2 (fun v => BitVec.ofInt 64 (BitVec.ofNat 16 v).toInt) ∧
  PrefixedLoad .lw 4 (fun v => BitVec.ofInt 64 (BitVec.ofNat 32 v).toInt) ∧
  PrefixedLoad .ld 8 (fun v => BitVec.ofNat 64 v) ∧
  PrefixedLoad .lbu 1 (fun v => BitVec.ofNat 64 v) ∧
  PrefixedLoad .lhu 2 (fun v => BitVec.ofNat 64 v) ∧
  PrefixedLoad .lwu 4 (fun v => BitVec.ofNat 64 v) ∧
  PrefixedStore .sb 1 ∧ PrefixedStore .sh 2 ∧ PrefixedStore .sw 4 ∧ PrefixedStore .sd 8 ∧
  PrefixedImm .addi (fun a i => BitVec.ofNat 64 (a.toNat + i.toNat)) ∧
  PrefixedImm .slti (fun a i => if a.toInt < i.toInt then 1 else 0) ∧
  PrefixedImm .sltiu (fun a i => if a.toNat < i.toNat then 1 else 0) ∧
  PrefixedImm .xori (fun a i => a ^^^ i) ∧ PrefixedImm .ori (fun a i => a ||| i) ∧ PrefixedImm .andi (fun a i => a &&& i) ∧
  (∀ p rd rs1 i s s1 s2 s3 a, Fetches 1 [encode (.jalr rd rs1 i)] s s1 →
    UnitReady [encode (.pfxImm p), encode (.jalr rd rs1 i)] s1 → (s1.thr s1.cur).fq = [] → Gives (readX rs1) s1 a s2 →
    let sum := a.toNat + ((p ++ i).signExtend 64).toNat
    let target := BitVec.ofNat 64 (sum - sum % 2)
    target.getLsbD 1 = false → Gives (writeX rd ((s1.thr s1.cur).pc + 8)) s2 () s3 →
    DoesUnit (.pfxImm p) [encode (.jalr rd rs1 i)] s s1 (some target) s3) ∧
  (∀ p rd rs1 i s s1, Fetches 1 [encode (.addi rd rs1 i)] s s1 →
    PrefixReady [encode (.pfxImm p), encode (.addi rd rs1 i)] s1 → (s1.thr s1.cur).boundSlot rs1 = none →
    (s1.thr s1.cur).boundSlot rd = none → ∃ t, exec (.pfxImm p) s = .next t ∧
      (t.thr s1.cur).paid = (s1.thr s1.cur).paid + 1 ∧ (t.thr s1.cur).pc = (s1.thr s1.cur).pc ∧
      (t.thr s1.cur).instret = (s1.thr s1.cur).instret + 1 ∧ (t.thr s1.cur).regs = (s1.thr s1.cur).regs) ∧
  (∀ c rd rs1 i s s1, c ≠ 0 → Fetches 1 [encode (.ld rd rs1 i)] s s1 →
    PrefixReady [encode (.pfxOrd c), encode (.ld rd rs1 i)] s1 → (s1.thr s1.cur).boundSlot rs1 = none →
    (s1.thr s1.cur).boundSlot rd = none → ((s1.thr s1.cur).regs.get 0 rs1.toNat + i.signExtend 64).toNat % 8 ≠ 0 → rs1 ≠ 0 →
    ∃ t, exec (.pfxOrd c) s = .next t ∧ (t.thr s1.cur).paid = (s1.thr s1.cur).paid + 1 ∧
      (t.thr s1.cur).pc = (s1.thr s1.cur).pc ∧ (t.thr s1.cur).seen = 0) ∧
  (∀ p w t, decode w = .ok t → takesImm t = false → (∀ c, t ≠ .pfxOrd c) → Misused (.pfxImm p) [w]) ∧
  (∀ c w t, c ≠ 0 → decode w = .ok t → takesOrd t = false → (∀ p, t ≠ .pfxImm p) → Misused (.pfxOrd c) [w]) ∧
  (∀ p c w t, c ≠ 0 → decode w = .ok t → takesOrd t = false → Misused (.pfxImm p) [encode (.pfxOrd c), w]) ∧
  (∀ p c w t, c ≠ 0 → decode w = .ok t → takesOrd t = false → Misused (.pfxOrd c) [encode (.pfxImm p), w]) ∧
  (∀ p w e, decode w = .error e → Misused (.pfxImm p) [w]) ∧
  (∀ c w e, decode w = .error e → Misused (.pfxOrd c) [w]) ∧
  (∀ p c w e, c ≠ 0 → decode w = .error e → Misused (.pfxImm p) [encode (.pfxOrd c), w]) ∧
  (∀ p c w e, decode w = .error e → Misused (.pfxOrd c) [encode (.pfxImm p), w])

/-- R69: a trap that the thread delegates, which needs it outside a handler and outside a gang: XCAUSE, XVAL, XPC and XINST are
written, INTRAP is set, and the thread goes on at XTVEC; its registers, XTVEC, XDELEG, XSCRATCH, rounding mode and flags, heads
and stream bindings, every other thread, every core and octet, and memory stay. -/
def Obligations.DelegatedTrap : Prop :=
  ∀ (t : Nat) (inst : IWord) (cause sub : BitVec 8) (val : Word) (s : State),
    (s.thr t).inTrap = false → (s.thr t).gang = false → cause.toNat < 9 → (s.thr t).xdeleg.getLsbD cause.toNat = true →
    let u := takeTrap t inst cause sub val s
    let old := s.thr t
    let new := u.thr t
    new.cause = cause ∧ new.causeSub = sub ∧ new.nested = false ∧ new.xval = val ∧ new.xpc = old.pc ∧ new.xinst = inst ∧
    new.inTrap = true ∧ new.pc = old.xtvec ∧ new.st = old.st ∧
    new.regs = old.regs ∧ new.xtvec = old.xtvec ∧ new.xdeleg = old.xdeleg ∧ new.xscratch = old.xscratch ∧
    new.rm = old.rm ∧ new.flags = old.flags ∧ new.heads = old.heads ∧ new.binds = old.binds ∧
    (∀ k, k ≠ t → u.thr k = s.thr k) ∧ u.mem = s.mem ∧ u.poison = s.poison ∧ u.cores = s.cores ∧ u.octets = s.octets

/-- R69, R94, R131: a trap that is not delegated, of a thread outside a gang: XCAUSE with NESTED, XVAL, XPC and XINST are written and
it parks with its PC at the unit; its save begins, its bound heads are SAVED, and its fault record is due; a thread that was
STOPPING is STOPPED once its save is done. Its registers, XTVEC, XDELEG and XSCRATCH, every other thread, every core and octet,
and memory stay; its cluster's tracks lose its heads. -/
def Obligations.ParkingTrap : Prop :=
  ∀ (t : Nat) (inst : IWord) (cause sub : BitVec 8) (val : Word) (s : State),
    (s.thr t).fused = false → (s.thr t).delegates cause = false →
    let u := takeTrap t inst cause sub val s
    let old := s.thr t
    let new := u.thr t
    new.cause = cause ∧ new.causeSub = sub ∧ new.nested = old.inTrap ∧ new.xval = val ∧ new.xpc = old.pc ∧ new.xinst = inst ∧
    new.st = .parked ∧ new.stopPend = decide (old.st = .stopping) ∧ new.pmark = true ∧ new.saving = true ∧
    new.saved = false ∧ new.postDue = true ∧ new.pc = old.pc ∧ new.inTrap = old.inTrap ∧
    (∀ h, (old.head h).hs ≠ .unbound → (new.head h).hs = .saved) ∧
    new.regs = old.regs ∧ new.xtvec = old.xtvec ∧ new.xdeleg = old.xdeleg ∧ new.xscratch = old.xscratch ∧
    (∀ k, k ≠ t → u.thr k = s.thr k) ∧ u.mem = s.mem ∧ u.poison = s.poison ∧ u.cores = s.cores ∧ u.octets = s.octets

/-- R17, R76, R77, R90, R93, R91: trap takes the software trap; xret goes to XPC with INTRAP cleared, traps where XPC has bit 1 set
(with subcause 0, the model's choice, log 42), and outside a trap it traps; idle answers the reason that woke it or a pending wake, and else idles, for rs1 cycles at most; yield lets the core's other
threads go first for eight cycles and goes on; fuse answers −3 in a gang,
−2 for a descriptor whose SIZE or cores are not valid or that does not name the core, waits for any other, and answers what it
has resolved to; split does nothing outside a gang, a follower leaves its gang by it and goes on behind its leader's unit, and a leader's is forwarded to its
followers and leaves the gang. The forms of a thread that follows no leader, but for a follower's split. -/
def Obligations.SystemForms : Prop :=
  (∀ code rs1 s s1 v, Ready (.trap code rs1) s → Gives (readX rs1) s v s1 →
    Traps (.trap code rs1) s 8 (BitVec.ofNat 8 code.toNat) v s) ∧
  (∀ s, Ready .xret s → (s.thr s.cur).fq = [] → (s.thr s.cur).inTrap = true → (s.thr s.cur).xpc.getLsbD 1 = false →
    Does .xret s (some (s.thr s.cur).xpc) (s.modThr s.cur fun th => { th with inTrap := false })) ∧
  (∀ s, Ready .xret s → (s.thr s.cur).inTrap = false → Traps .xret s 1 6 ((encode .xret).zeroExtend 64) s) ∧
  (∀ rd rs1 s s1 s2 v r, Ready (.idle rd rs1) s → (s.thr s.cur).fq = [] → Gives (readX rs1) s v s1 →
    (s1.thr s.cur).wakeR = some r →
    Gives (writeX rd (r.zeroExtend 64)) (s1.modThr s.cur fun th => { th with wake := false }) () s2 →
    Does (.idle rd rs1) s none s2) ∧
  (∀ rd rs1 s s1 s2 v, Ready (.idle rd rs1) s → (s.thr s.cur).fq = [] → Gives (readX rs1) s v s1 →
    (s1.thr s.cur).wakeR = none → (s1.thr s.cur).wake = true →
    Gives (writeX rd 0) (s1.modThr s.cur fun th => { th with wake := false }) () s2 → Does (.idle rd rs1) s none s2) ∧
  (∀ rd rs1 s s1 v, Ready (.idle rd rs1) s → (s.thr s.cur).fq = [] → Gives (readX rs1) s v s1 →
    (s1.thr s.cur).wakeR = none → (s1.thr s.cur).wake = false → (s.thr s.cur).st = .running →
    ∃ u, exec (.idle rd rs1) s = .next u ∧
      (u.thr s.cur).st = .idle ∧ (u.thr s.cur).pc = (s.thr s.cur).pc ∧
      (u.thr s.cur).deadline = if v = 0 then none else some (s.cycle + v.toNat)) ∧
  (∀ s, Ready .yield s → (s.thr s.cur).fq = [] →
    Does .yield s none (s.modThr s.cur fun th => { th with defer := s.cycle + 8 })) ∧
  (∀ rd rs1 rs2 s s1 s2 s3 a b v, Ready (.fuse rd rs1 rs2) s → Gives (readX rs1) s a s1 → Gives (readX rs2) s1 b s2 →
    (s2.thr s.cur).fuseAns = some v → Gives (writeX rd v) s2 () s3 → Does (.fuse rd rs1 rs2) s none s3) ∧
  (∀ rd rs1 rs2 s s1 s2 s3 a b, Ready (.fuse rd rs1 rs2) s → Gives (readX rs1) s a s1 → Gives (readX rs2) s1 b s2 →
    (s2.thr s.cur).fuseAns = none → (s2.thr s.cur).gang = true → Gives (writeX rd (BitVec.ofInt 64 (-3))) s2 () s3 →
    Does (.fuse rd rs1 rs2) s none s3) ∧
  (∀ rd rs1 rs2 s s1 s2 s3 a b, Ready (.fuse rd rs1 rs2) s → Gives (readX rs1) s a s1 → Gives (readX rs2) s1 b s2 →
    (s2.thr s.cur).fuseAns = none → (s2.thr s.cur).gang = false →
    (a.toNat % 16 < 2 ∨ 8 < a.toNat % 16 ∨ 8 < a.toNat / 16 % 8 + a.toNat % 16 ∨ coreOf s.cur % 8 < a.toNat / 16 % 8 ∨
      a.toNat / 16 % 8 + a.toNat % 16 ≤ coreOf s.cur % 8) →
    Gives (writeX rd (BitVec.ofInt 64 (-2))) s2 () s3 → Does (.fuse rd rs1 rs2) s none s3) ∧
  (∀ rd rs1 rs2 s s1 s2 a b, Ready (.fuse rd rs1 rs2) s → coreOf s.cur < 2048 → Gives (readX rs1) s a s1 →
    Gives (readX rs2) s1 b s2 → (s2.thr s.cur).fuseAns = none → (s2.thr s.cur).gang = false →
    2 ≤ a.toNat % 16 → a.toNat / 16 % 8 + a.toNat % 16 ≤ 8 → a.toNat / 16 % 8 ≤ coreOf s.cur % 8 →
    coreOf s.cur % 8 < a.toNat / 16 % 8 + a.toNat % 16 → (s.thr s.cur).fuseWait = none →
    ∃ u, exec (.fuse rd rs1 rs2) s = .next u ∧ (u.thr s.cur).pc = (s.thr s.cur).pc ∧
      (u.thr s.cur).fuseWait = some (BitVec.ofNat 7 a.toNat, if b = 0 then 0 else s.cycle + b.toNat)) ∧
  (∀ s, Ready .split s → (s.thr s.cur).gang = false → Does .split s none s) ∧
  (∀ s, Ready .split s → (s.thr s.cur).gang = true → (s.thr s.cur).leader = false →
    Does .split s none (s.modThr s.cur (leaveGang 1))) ∧
  (∀ s, Ready .xret s → (s.thr s.cur).fq = [] → (s.thr s.cur).inTrap = true → (s.thr s.cur).xpc.getLsbD 1 = true →
    Traps .xret s 2 0 (s.thr s.cur).xpc (keepAccesses s s)) ∧
  (∀ s, Ready .split s → (s.thr s.cur).gang = true → (s.thr s.cur).leader = true → (s.thr s.cur).sent = false →
    let u : GUnit := { pc := (s.thr s.cur).pc, next := (s.thr s.cur).pc + 4, words := [encode .split], val := 0 }
    let to_ := fun (s : State) (m : Nat) => s.modThr m fun th => { th with flight := th.flight ++ [u] }
    Does .split s none
      ((((s.gangOthers s.cur).foldl to_ s).modThr s.cur fun th => { th with sent := true }).modThr s.cur (leaveGang 1)))

/-- R35, R42, R149, R151, R152: what an operand gives and where a result goes: x0 reads zero and discards; a register that is not
bound is read and written in the register file; a read-bound register pops its oldest value and discards a result; a
write-bound register reads as the value pushed last, and a write of it pushes the binding's next element: into the own scratchpad at once, and to
another core's bank as a remote store; a pop of an exhausted binding and a push to one trap and change nothing. -/
def Obligations.RegisterOperands : Prop :=
  (∀ s, Gives (readX 0) s 0 s) ∧
  (∀ s v, Gives (writeX 0 v) s () s) ∧
  (∀ r s, r ≠ 0 → (s.thr s.cur).boundSlot r = none → Gives (readX r) s ((s.thr s.cur).regs.get 0 r.toNat) s) ∧
  (∀ r v s, r ≠ 0 → (s.thr s.cur).boundSlot r = none →
    Gives (writeX r v) s () (s.setThr s.cur { s.thr s.cur with regs := (s.thr s.cur).regs.set r.toNat v })) ∧
  (∀ r s k b v l, (s.thr s.cur).boundSlot r = some (k, b) → 28 ≤ r.toNat → b.exh = false → b.arrived = .value v :: l →
    ∃ t b1, Gives (readX r) s v t ∧ t = setBind s.cur k b1 s ∧ b1.arrived = l ∧ b1.next = b.next + 1 ∧ b1.base = b.base) ∧
  (∀ r s v k b, (s.thr s.cur).boundSlot r = some (k, b) → 28 ≤ r.toNat → Gives (writeX r v) s () s) ∧
  (∀ r s k b, r ≠ 0 → (s.thr s.cur).boundSlot r = some (k, b) → r.toNat < 28 → Gives (readX r) s b.last s) ∧
  (∀ r s k b, (s.thr s.cur).boundSlot r = some (k, b) → 28 ≤ r.toNat → b.exh = true →
    ∃ keep, readX r s = .error (.trap 10 0x04 (r.zeroExtend 64) keep) ∧ keep s = s) ∧
  (∀ r v s k b, r ≠ 0 → (s.thr s.cur).boundSlot r = some (k, b) → r.toNat < 28 → b.exh = true →
    ∃ keep, writeX r v s = .error (.trap 10 0x04 (r.zeroExtend 64) keep) ∧ keep s = s) ∧
  (∀ r v s s1 s2 s3 k b a off, r ≠ 0 → (s.thr s.cur).boundSlot r = some (k, b) → r.toNat < 28 → b.exh = false →
    ((s.core (coreOf s.cur)).rstores.filter fun q => q.tid == s.cur && q.slot == some k && !q.sent).length < 32 →
    Gives (pushTarget (b.addr b.next) b.esz) s a s1 → Gives settleRelease s1 () s2 →
    placeOf (coreOf s.cur) a = .bank (coreOf s.cur) off → off < 0x60000 →
    Gives (drainCost (s.agent s.cur) k (b2n (b.next * b.esz % 32 == 0))) s2 () s3 →
    ∃ t, Gives (writeX r v) s () t ∧ t.mem = (s3.store a b.esz v.toNat).mem ∧
      ((t.thr s.cur).binds.get {} k).next = b.next + 1 ∧ ((t.thr s.cur).binds.get {} k).last = v) ∧
  (∀ r v s s1 s2 k b a m off, r ≠ 0 → (s.thr s.cur).boundSlot r = some (k, b) → r.toNat < 28 → b.exh = false →
    ((s.core (coreOf s.cur)).rstores.filter fun q => q.tid == s.cur && q.slot == some k && !q.sent).length < 32 →
    Gives (pushTarget (b.addr b.next) b.esz) s a s1 → Gives settleRelease s1 () s2 →
    placeOf (coreOf s.cur) a = .bank m off → m ≠ coreOf s.cur → (s2.core (coreOf s.cur)).rstores.length < 64 →
    ∃ t q, Gives (writeX r v) s () t ∧ t.mem = s2.mem ∧
      (t.core (coreOf s.cur)).rstores = (s2.core (coreOf s.cur)).rstores ++ [q] ∧ q.addr = a ∧ q.kind = .store b.esz v.toNat ∧
      q.sent = false ∧ q.performed = false ∧ ((t.thr s.cur).binds.get {} k).next = b.next + 1 ∧
      ((t.thr s.cur).binds.get {} k).last = v)

/-- The steps without a word that the traps of a word make: a word that does not decode takes the illegal-instruction trap
with the word as XINST and XVAL (R26, R27), and a failed fetch of a thread in no gang takes its fault with its cause, its
subcause, the address as XVAL and the PC as XPC (R27, R329; XINST is then the model's free value, log 3). -/
def Obligations.WordTraps : Prop :=
  (∀ sub (w : IWord) s, exec (.illegalInstruction sub (w.zeroExtend 64)) s =
    .next (takeTrap s.cur w 1 sub (w.zeroExtend 64) s)) ∧
  (∀ cause sub va s, (s.thr s.cur).fused = false → ∃ u, exec (.fetchFault cause sub va) s = .next u ∧
    (u.thr s.cur).cause = cause ∧ (u.thr s.cur).causeSub = sub ∧ (u.thr s.cur).xval = va ∧
    (u.thr s.cur).xpc = (s.thr s.cur).pc)

/-- R27, R36, R65: where nothing is due at once, no command or input comes first and it is the turn of thread t, which runs what it
fetches itself and whose word decodes to i, the step is i's execution on the state after the fetch, and then the end of the
thread's turn (the turns are the model's, log 5). -/
def Obligations.StepRunsDecoded : Prop :=
  ∀ (s s1 : State) (t : Nat) (w : IWord) (i : Instr),
    firstEvent s s.urgent = none → s.pend = [] → s.agenda = [] → s.evTurn = false → s.nextThread = some t →
    let s0 := wakeCore (coreOf t) { s with cur := t, coreAt := coreOf t, slotUsed := s.slotUsed && s.coreAt == coreOf t }
    (s0.thr t).fq = [] → Gives (unitWord 0) s0 (.ok w) s1 → decodeOn (coreOf t) w = .ok i →
    step s = thenNext (exec i s1) (afterThread t s0)

/-! ## Near storage -/

/-- R110: the own loads and stores; the offset counts elements, the access carries its scope and policy, and it waits until
its counter has been seen at zero. -/
def Obligations.OwnAccesses : Prop :=
  (∀ rd rs1 scope wait pol off s s1 s2 s3 a v, Ready (.ldo rd rs1 scope wait pol off) s → Gives (readX rs1) s a s1 →
    Gives (counterSeen wait) s1 true s1 →
    Gives (memRead (a + BitVec.ofNat 64 (8 * off.toNat)) 8 { scope := scope, pol := pol }) s1 v s2 →
    Gives (writeX rd (BitVec.ofNat 64 v)) s2 () s3 → Does (.ldo rd rs1 scope wait pol off) s none s3) ∧
  (∀ rd rs1 scope wait pol off s s1 s2 s3 a v, Ready (.lwo rd rs1 scope wait pol off) s → Gives (readX rs1) s a s1 →
    Gives (counterSeen wait) s1 true s1 →
    Gives (memRead (a + BitVec.ofNat 64 (4 * off.toNat)) 4 { scope := scope, pol := pol }) s1 v s2 →
    Gives (writeX rd (sext32 v)) s2 () s3 → Does (.lwo rd rs1 scope wait pol off) s none s3) ∧
  (∀ rs2 rs1 scope wait pol off s s1 s2 s3 a v, Ready (.sdo rs2 rs1 scope wait pol off) s → Gives (readX rs1) s a s1 →
    Gives (readX rs2) s1 v s2 → Gives (counterSeen wait) s2 true s2 →
    Gives (memWrite (a + BitVec.ofNat 64 (8 * off.toNat)) 8 v.toNat { scope := scope, pol := pol }) s2 () s3 →
    Does (.sdo rs2 rs1 scope wait pol off) s none s3) ∧
  (∀ rs2 rs1 scope wait pol off s s1 s2 s3 a v, Ready (.swo rs2 rs1 scope wait pol off) s → Gives (readX rs1) s a s1 →
    Gives (readX rs2) s1 v s2 → Gives (counterSeen wait) s2 true s2 →
    Gives (memWrite (a + BitVec.ofNat 64 (4 * off.toNat)) 4 v.toNat { scope := scope, pol := pol }) s2 () s3 →
    Does (.swo rs2 rs1 scope wait pol off) s none s3)

/-- R114, R116, R117, R118: remote stores and write counters. rst and rsa make their homed write at the doubleword that their offset
names, and trap at an address that is not a multiple of 8. A store to a doubleword of another core's scratchpad that the seat
owns takes an entry of the core's table, so that its write counter rises by one, and memory stays. An entry that stands alone
leaves the core; once it has, it performs, is acknowledged and is freed. wcwait completes once its counters are zero, and
wcread gives a counter. -/
def Obligations.RemoteStores : Prop :=
  (∀ rs2 rs1 off s s1 s2 s3 a v, Ready (.rst rs2 rs1 off) s → Gives (readX rs1) s a s1 → Gives (readX rs2) s1 v s2 →
    let va := a + BitVec.ofNat 64 (8 * off.toNat)
    va.toNat % 8 = 0 → Gives (homedWrite va (.store 8 v.toNat) needW false) s2 () s3 → Does (.rst rs2 rs1 off) s none s3) ∧
  (∀ rs2 rs1 off s s1 s2 s3 a v, Ready (.rsa rs2 rs1 off) s → Gives (readX rs1) s a s1 → Gives (readX rs2) s1 v s2 →
    let va := a + BitVec.ofNat 64 (8 * off.toNat)
    va.toNat % 8 = 0 → Gives (homedWrite va (.add v) needRW true) s2 () s3 → Does (.rsa rs2 rs1 off) s none s3) ∧
  (∀ mk ∈ [Instr.rst, Instr.rsa], ∀ (rs2 rs1 : Reg) (off : BitVec 5) s s1 s2 a v, Ready (mk rs2 rs1 off) s →
    Gives (readX rs1) s a s1 → Gives (readX rs2) s1 v s2 → (a + BitVec.ofNat 64 (8 * off.toNat)).toNat % 8 ≠ 0 →
    Traps (mk rs2 rs1 off) s 4 0 (a + BitVec.ofNat 64 (8 * off.toNat)) s) ∧
  (∀ (s : State) (m off v : Nat), m < 2048 → m ≠ coreOf s.cur → off < 0x60000 → off % 8 = 0 →
    (s.thr s.cur).relMark = none → s.bankOwned ((s.thr s.cur).seat.getD 0) m off = true →
    (∀ x ∈ (s.cluster (clusterOf (coreOf s.cur))).engines.cells, x.2.st = .free) →
    (s.core (coreOf s.cur)).rstores.length < 64 →
    ∃ t, Gives (homedWrite (BitVec.ofNat 64 (scratchBase + m * 0x80000 + off)) (.store 8 v) needW false) s () t ∧
      t.mem = s.mem ∧ (t.core (coreOf s.cur)).rstores.length = (s.core (coreOf s.cur)).rstores.length + 1 ∧
      (t.core (coreOf s.cur)).writeCounter ((s.thr s.cur).seat.getD 0) (classOfCore (coreOf s.cur) m) =
        (s.core (coreOf s.cur)).writeCounter ((s.thr s.cur).seat.getD 0) (classOfCore (coreOf s.cur) m) + 1) ∧
  (∀ (s s1 : State) (n : Nat) (r : RStore), (s.core n).rstores = [r] → r.performed = false → r.sent = false →
    ((s.partOfCore n).map fun f => (s.part f).swept) ≠ some true → Gives (sendStore n 0 r) s () s1 →
    exec (.remoteStoreAck n 0) s = .next s1) ∧
  (∀ (s s1 s2 : State) (n : Nat) (r : RStore), (s.core n).rstores = [r] → r.performed = false → r.sent = true →
    ((s.partOfCore n).map fun f => (s.part f).swept) ≠ some true → Gives (performStore n r) s () s1 →
    Gives (charges (placeAnswers (r.agent n) r.addr 0)) (markPerformed n 0 s1).settled () s2 →
    ∃ t, exec (.remoteStoreAck n 0) s = .next t ∧ t.mem = s1.mem ∧
      (t.core n).rstores.length = (s1.core n).rstores.length - 1) ∧
  (∀ mask s, Ready (.wcwait mask) s → (∀ c : BitVec 2, c ≠ 0 → mask.getLsbD (c.toNat - 1) = true →
      (s.core (coreOf s.cur)).writeCounter ((s.thr s.cur).seat.getD 0) c = 0) →
    Does (.wcwait mask) s none s) ∧
  (∀ rd c s s1, Ready (.wcread rd c) s →
    Gives (writeX rd (BitVec.ofNat 64 ((s.core (coreOf s.cur)).writeCounter ((s.thr s.cur).seat.getD 0) c))) s () s1 →
    Does (.wcread rd c) s none s1)

/-- R121, R122: circular buffers. cb.cfg takes a descriptor that passes the checks of Table 5.10 and R105, with grants of 0, and traps with
subcause 0x40 on one that does not. A wait whose slots are there gives the grant and the slot's address, and one whose slots are not there holds
its thread at the unit, which keeps its grants and registers; an advance lowers the
grant and adds at the control block. An invalid handle traps with 0x41, more slots than the buffer or the grant has with
0x42, and a buffer that is filled beyond its slots with 0x43. -/
def Obligations.CircularBuffers : Prop :=
  (∀ h rs1 s s1 s2 a b c g, Ready (.cbCfg h rs1) s → Gives (readX rs1) s a s1 → Gives (readDoublewords a 3) s1 [b, c, g] s2 →
    let n := coreOf s2.cur
    let seat := (s2.thr s2.cur).seat.getD 0
    let base := rewriteOwn n b
    let ctrl := rewriteOwn n c
    let good := base.toNat % 8 = 0 ∧ ctrl.toNat % 16 = 0 ∧ g.toNat < 2 ^ 32 ∧ isPow2 (cbSlots g) = true ∧ cbSlots g ≤ 4096 ∧
      cbSize g % 8 = 0 ∧ 8 ≤ cbSize g ∧ cbSize g ≤ 32768 ∧ (bankCore n base.toNat).isSome = true ∧
      bankCore n base.toNat = bankCore n ctrl.toNat ∧ s2.banksOwned seat n base.toNat (cbSlots g * cbSize g) = true ∧
      s2.banksOwned seat n ctrl.toNat 16 = true
    (good → Does (.cbCfg h rs1) s none (s2.modThr s2.cur fun th =>
      { th with cbs := th.cbs.set h.toNat { base := base, ctrl := ctrl, geom := g, valid := true } })) ∧
    (¬ good → Traps (.cbCfg h rs1) s 15 0x40 (h.zeroExtend 64) (keepAccesses s2 s))) ∧
  (∀ rd h rs1 s s1 s2 s3 n p q, Ready (.cbWfill rd h rs1) s → Gives (readX rs1) s n s1 →
    let c := (s1.thr s1.cur).cbs.get {} h.toNat
    c.valid = true → Gives (cbCounts c) s1 (p, q) s2 → n.toNat ≤ (p - q).toNat → (p - q).toNat ≤ cbSlots c.geom →
    Gives (writeX rd (c.base + BitVec.ofNat 64 (q.toNat % cbSlots c.geom * cbSize c.geom)))
      (s2.modThr s2.cur fun th => { th with cbs := th.cbs.set h.toNat { c with grantC := BitVec.ofNat 13 (p - q).toNat } }) () s3 →
    Does (.cbWfill rd h rs1) s none s3) ∧
  (∀ rd h rs1 s s1 s2 s3 n p q, Ready (.cbWfree rd h rs1) s → Gives (readX rs1) s n s1 →
    let c := (s1.thr s1.cur).cbs.get {} h.toNat
    c.valid = true → Gives (cbCounts c) s1 (p, q) s2 → n.toNat + (p - q).toNat ≤ cbSlots c.geom →
    Gives (writeX rd (c.base + BitVec.ofNat 64 (p.toNat % cbSlots c.geom * cbSize c.geom)))
      (s2.modThr s2.cur fun th => { th with
        cbs := th.cbs.set h.toNat { c with grantP := BitVec.ofNat 13 (cbSlots c.geom - (p - q).toNat) } }) () s3 →
    Does (.cbWfree rd h rs1) s none s3) ∧
  (∀ h rs1 s s1 s2 n, Ready (.cbAdvp h rs1) s → Gives (readX rs1) s n s1 →
    let c := (s1.thr s1.cur).cbs.get {} h.toNat
    c.valid = true → n.toNat ≤ c.grantP.toNat →
    Gives (homedWrite c.ctrl (.add n) needRW true) (s1.modThr s1.cur fun th =>
      { th with cbs := th.cbs.set h.toNat { c with grantP := BitVec.ofNat 13 (c.grantP.toNat - n.toNat) } }) () s2 →
    Does (.cbAdvp h rs1) s none s2) ∧
  (∀ h rs1 s s1 s2 n, Ready (.cbAdvc h rs1) s → Gives (readX rs1) s n s1 →
    let c := (s1.thr s1.cur).cbs.get {} h.toNat
    c.valid = true → n.toNat ≤ c.grantC.toNat →
    Gives (homedWrite (c.ctrl + 8) (.add n) needRW true) (s1.modThr s1.cur fun th =>
      { th with cbs := th.cbs.set h.toNat { c with grantC := BitVec.ofNat 13 (c.grantC.toNat - n.toNat) } }) () s2 →
    Does (.cbAdvc h rs1) s none s2) ∧
  (∀ rd h rs1 s s1 n, ∀ i ∈ [Instr.cbWfill rd h rs1, .cbWfree rd h rs1, .cbAdvp h rs1, .cbAdvc h rs1],
    Ready i s → Gives (readX rs1) s n s1 → ((s1.thr s1.cur).cbs.get {} h.toNat).valid = false →
    Traps i s 15 0x41 (h.zeroExtend 64) s) ∧
  (∀ rd h rs1 s s1 n, ∀ mk ∈ [Instr.cbWfill, Instr.cbWfree], Ready (mk rd h rs1) s → Gives (readX rs1) s n s1 →
    let c := (s1.thr s1.cur).cbs.get {} h.toNat
    c.valid = true → cbSlots c.geom < n.toNat → Traps (mk rd h rs1) s 15 0x42 (h.zeroExtend 64) s) ∧
  (∀ rd h rs1 s s1 s2 n p q, ∀ mk ∈ [Instr.cbWfill, Instr.cbWfree], Ready (mk rd h rs1) s → Gives (readX rs1) s n s1 →
    let c := (s1.thr s1.cur).cbs.get {} h.toNat
    c.valid = true → n.toNat ≤ cbSlots c.geom → Gives (cbCounts c) s1 (p, q) s2 → cbSlots c.geom < (p - q).toNat →
    Traps (mk rd h rs1) s 15 0x43 (h.zeroExtend 64) (keepAccesses s2 s)) ∧
  (∀ h rs1 s s1 n, Ready (.cbAdvp h rs1) s → Gives (readX rs1) s n s1 →
    ((s1.thr s1.cur).cbs.get {} h.toNat).valid = true → ((s1.thr s1.cur).cbs.get {} h.toNat).grantP.toNat < n.toNat →
    Traps (.cbAdvp h rs1) s 15 0x42 (h.zeroExtend 64) s) ∧
  (∀ h rs1 s s1 n, Ready (.cbAdvc h rs1) s → Gives (readX rs1) s n s1 →
    ((s1.thr s1.cur).cbs.get {} h.toNat).valid = true → ((s1.thr s1.cur).cbs.get {} h.toNat).grantC.toNat < n.toNat →
    Traps (.cbAdvc h rs1) s 15 0x42 (h.zeroExtend 64) s) ∧
  (∀ rd h rs1 s s1 s2 n p q, Ready (.cbWfill rd h rs1) s → Gives (readX rs1) s n s1 →
    let c := (s1.thr s1.cur).cbs.get {} h.toNat
    c.valid = true → Gives (cbCounts c) s1 (p, q) s2 → n.toNat ≤ cbSlots c.geom → (p - q).toNat < n.toNat →
    ∃ t, exec (.cbWfill rd h rs1) s = .next t ∧ (t.thr s.cur).waiting = true ∧ (t.thr s.cur).pc = (s.thr s.cur).pc ∧
      (t.thr s.cur).cbs = (s.thr s.cur).cbs ∧ (t.thr s.cur).regs = (s.thr s.cur).regs) ∧
  (∀ rd h rs1 s s1 s2 n p q, Ready (.cbWfree rd h rs1) s → Gives (readX rs1) s n s1 →
    let c := (s1.thr s1.cur).cbs.get {} h.toNat
    c.valid = true → Gives (cbCounts c) s1 (p, q) s2 → n.toNat ≤ cbSlots c.geom → (p - q).toNat ≤ cbSlots c.geom →
    cbSlots c.geom < n.toNat + (p - q).toNat →
    ∃ t, exec (.cbWfree rd h rs1) s = .next t ∧ (t.thr s.cur).waiting = true ∧ (t.thr s.cur).pc = (s.thr s.cur).pc ∧
      (t.thr s.cur).cbs = (s.thr s.cur).cbs ∧ (t.thr s.cur).regs = (s.thr s.cur).regs)

/-- R84, R98, R323, R327: the fills of caches and buffers as steps of their own, for a thread that is not EMPTY and an address of a
page that the cache or buffer does not hold (these guards are the model's, log 26): an instruction line that the fetch of the thread's next unit or its
run-ahead reaches stands in its set, and none else is filled; a block is filled as fillBlock does for a load and stands in its set, a rights nibble as
rightsOf reads it and stands in the core's buffer, and a walk that passes its checks is counted and its leaf stands in the translation unit. -/
def Obligations.Fills : Prop :=
  (∀ (s s1 : State) tid (va : Word) l, s.mayFill tid va.toNat = true → placeOf (coreOf tid) va.toNat = .page →
    (∀ x ∈ (s.core (coreOf tid)).icache.get [] (isetOf va.toNat), x.va ≠ va.toNat / 64 * 64) →
    Gives (fillICache (s.agent tid) va.toNat) s l s1 →
    exec (.icacheFill tid va) s = .next s1 ∧ l.va = va.toNat / 64 * 64 ∧
      ∃ w, { l with way := w } ∈ (s1.core (coreOf tid)).icache.get [] (isetOf va.toNat)) ∧
  (∀ (s s1 s2 s3 : State) tid (va : Word) x b, (s.thr tid).st ≠ .empty → placeOf (coreOf tid) va.toNat = .page →
    Gives (heldBlock (s.agent tid) va.toNat) s none s1 → Gives (translate (s.agent tid) va.toNat needR) s1 (.ok x) s2 →
    x.pa < 2 ^ 47 → Gives (fillBlock (s.agent tid) va.toNat x .default) s2 (.ok b) s3 → exec (.l1Fill tid va) s = .next s3 ∧
      b ∈ ((s3.core (coreOf tid)).set (setOf va.toNat)).blocks ∧ b.holds va.toNat = true) ∧
  (∀ (s : State) tid dom, (s.thr tid).st ≠ .empty → ∀ r s1, Gives (rightsOf (s.agent tid) (BitVec.ofNat 16 dom)) s r s1 →
    exec (.plbFill tid dom) s = .next s1 ∧ ∀ nib, r = .ok nib → BitVec.ofNat 16 dom ≠ 0 →
      { seat := (s.agent tid).seat, dom := BitVec.ofNat 16 dom, nib := nib } ∈ (s1.core (coreOf tid)).plb) ∧
  (∀ (s s1 : State) tid (va : Word) acc x, (s.thr tid).st ≠ .empty → placeOf (coreOf tid) va.toNat = .page →
    (∀ e ∈ (s.cluster (xlatOf (coreOf tid))).xlat, ¬ (e.page ≤ va.toNat ∧ va.toNat < e.page + e.size)) →
    Gives (walk (s.agent tid) va.toNat (accessNeed acc) false) s (.ok x) s1 →
    exec (.pageWalk tid va acc) s = .next s1 ∧
      (s1.cluster (xlatOf (coreOf tid))).walks = (s.cluster (xlatOf (coreOf tid))).walks + 1 ∧
      ∃ e ∈ (s1.cluster (xlatOf (coreOf tid))).xlat, e.page ≤ va.toNat ∧ va.toNat < e.page + e.size ∧ e.dom = x.dom) ∧
  (∀ (s : State) tid (va : Word), s.mayFill tid va.toNat = false → exec (.icacheFill tid va) s = .next s)

/-! ## Heads -/

/-- R131, R142, R143, R145, R146: binding and releasing of heads on a compute core. hd.acq of a track in the seat's window that no
head is bound to owns it; an exclusive one of a bound track answers −1; one shared within the seat and group waits in the
track's queue and answers 1; a bound handle and a track outside the window trap. hd.rel unbinds the handle and frees the
track; with K = 1 an exclusive head stays as it is, and a shared owner goes behind the others that wait. hd.pos and hd.chk
give the position and the check doubleword, or the correction that a sweep has found; hd.save stores the record and
releases; hd.load binds a record that passes, in REACQ and in the track's queue, and traps on another. An unbound handle traps
in hd.rel, hd.pos, hd.chk and hd.save. What XVAL shows of a handle that no head is bound to (the track asked for and POS 0 at hd.acq, the record's at
hd.load, the handle's reset values elsewhere) is the model's choice, log 14. -/
def Obligations.HeadBinding : Prop :=
  (∀ rd h rs1 s s1 s2 a, Ready (.hdAcq rd h rs1) s → coreOf s.cur < 2048 → Gives (readX rs1) s a s1 →
    let c := clusterOf (coreOf s1.cur)
    let k := a.toNat % 2048
    let w := s1.seatTracks ((s1.thr s1.cur).seat.getD 0) c
    ((s1.thr s1.cur).head h.toNat).hs = .unbound → w.base ≤ k → k < w.base + w.count → k < s1.cmBaseOf c →
    (s1.track c k).formatting = false → s1.boundHeads c k = [] →
    Gives (writeX rd 0) ((s1.setHead s1.cur h.toNat {
        hs := .owned, sh := a.getLsbD 11, grp := if a.getLsbD 11 then a.extractLsb' 12 8 else 0, track := BitVec.ofNat 11 k }).modTrack c k fun y =>
      { y with owner := some { tid := s1.cur, h := h } }) () s2 → Does (.hdAcq rd h rs1) s none s2) ∧
  (∀ rd h rs1 s s1 s2 a, Ready (.hdAcq rd h rs1) s → coreOf s.cur < 2048 → Gives (readX rs1) s a s1 →
    let c := clusterOf (coreOf s1.cur)
    let k := a.toNat % 2048
    let w := s1.seatTracks ((s1.thr s1.cur).seat.getD 0) c
    ((s1.thr s1.cur).head h.toNat).hs = .unbound → w.base ≤ k → k < w.base + w.count → k < s1.cmBaseOf c →
    a.getLsbD 11 = false → s1.boundHeads c k ≠ [] → Gives (writeX rd (BitVec.ofInt 64 (-1))) s1 () s2 →
    Does (.hdAcq rd h rs1) s none s2) ∧
  (∀ rd h rs1 s s1 s2 a, Ready (.hdAcq rd h rs1) s → coreOf s.cur < 2048 → Gives (readX rs1) s a s1 →
    let c := clusterOf (coreOf s1.cur)
    let k := a.toNat % 2048
    let seat := (s1.thr s1.cur).seat.getD 0
    let w := s1.seatTracks seat c
    ((s1.thr s1.cur).head h.toNat).hs = .unbound → w.base ≤ k → k < w.base + w.count → k < s1.cmBaseOf c →
    a.getLsbD 11 = true → (s1.track c k).formatting = false → s1.boundHeads c k ≠ [] →
    (∀ b ∈ s1.boundHeads c k, b.2.sh = true ∧ b.2.grp = a.extractLsb' 12 8 ∧ (s1.thr b.1.tid).seat = some seat) →
    Gives (writeX rd 1) (enterQueue c k { tid := s1.cur, h := h } (s1.setHead s1.cur h.toNat
      { hs := .sharedWait, sh := true, grp := a.extractLsb' 12 8, track := BitVec.ofNat 11 k })) () s2 →
    Does (.hdAcq rd h rs1) s none s2) ∧
  (∀ rd h rs1 s s1 a, Ready (.hdAcq rd h rs1) s → coreOf s.cur < 2048 → Gives (readX rs1) s a s1 →
    let x := (s1.thr s1.cur).head h.toNat
    let k := a.toNat % 2048
    let w := s1.seatTracks ((s1.thr s1.cur).seat.getD 0) (clusterOf (coreOf s1.cur))
    (x.hs ≠ .unbound → Traps (.hdAcq rd h rs1) s 9 0x01 (headXval x.pos x.track h) s) ∧
    (x.hs = .unbound → (k < w.base ∨ w.base + w.count ≤ k ∨ s1.cmBaseOf (clusterOf (coreOf s1.cur)) ≤ k) →
      Traps (.hdAcq rd h rs1) s 9 0x03 (headXval x.pos (BitVec.ofNat 11 k) h) s)) ∧
  (∀ h s, Ready (.hdRel h false) s → coreOf s.cur < 2048 → ((s.thr s.cur).head h.toNat).hs ≠ .unbound →
    ∃ t, Does (.hdRel h false) s none t ∧ ((t.thr s.cur).head h.toNat).hs = .unbound ∧
      (t.track (clusterOf (coreOf s.cur)) ((s.thr s.cur).head h.toNat).track.toNat).owner ≠ some { tid := s.cur, h := h }) ∧
  (∀ h s, Ready (.hdRel h true) s → coreOf s.cur < 2048 → ((s.thr s.cur).head h.toNat).hs = .owned →
    let x := (s.thr s.cur).head h.toNat
    let c := clusterOf (coreOf s.cur)
    (x.sh = false → Does (.hdRel h true) s none s) ∧
    (x.sh = true → (s.track c x.track.toNat).queue ≠ [] → Does (.hdRel h true) s none
      (enterQueue c x.track.toNat { tid := s.cur, h := h }
        ((s.setHead s.cur h.toNat { x with hs := .sharedWait }).modTrack c x.track.toNat fun k => { k with owner := none })))) ∧
  (∀ rd h s s1, Ready (.hdPos rd h) s → coreOf s.cur < 2048 → ((s.thr s.cur).head h.toNat).hs ≠ .unbound →
    Gives (writeX rd (BitVec.ofNat 64 ((s.thr s.cur).head h.toNat).pos.toNat)) s () s1 → Does (.hdPos rd h) s none s1) ∧
  (∀ rd h s s1, Ready (.hdChk rd h false) s → coreOf s.cur < 2048 → ((s.thr s.cur).head h.toNat).hs ≠ .unbound →
    Gives (writeX rd (BitVec.ofNat 64 ((s.thr s.cur).head h.toNat).dw1)) s () s1 → Does (.hdChk rd h false) s none s1) ∧
  (∀ rd h s s1 a c, Ready (.hdChk rd h true) s → coreOf s.cur < 2048 →
    let x := (s.thr s.cur).head h.toNat
    (x.hs = .owned ∨ x.hs = .error) → x.acc = some a → a.fatal = none → a.result = some c →
    Gives (writeX rd c) (s.setHead s.cur h.toNat { x with hs := .owned, tflag := false, acc := none }) () s1 →
    Does (.hdChk rd h true) s none s1) ∧
  (∀ h rs1 s s1 s2 a, Ready (.hdSave h rs1) s → coreOf s.cur < 2048 → Gives (readX rs1) s a s1 →
    let x := (s1.thr s1.cur).head h.toNat
    x.hs ≠ .unbound → a.toNat % 64 = 0 →
    Gives (do
      for i in List.range 8 do
        memWrite (a + BitVec.ofNat 64 (8 * i)) 8 (if i = 0 then x.dw0 else if i = 1 then x.dw1 else 0) {}) s1 () s2 →
    Does (.hdSave h rs1) s none (unbindHead s1.cur h s2)) ∧
  (∀ h rs1 s s1 s2 a ws, Ready (.hdLoad h rs1) s → coreOf s.cur < 2048 → Gives (readX rs1) s a s1 →
    ((s1.thr s1.cur).head h.toNat).hs = .unbound → a.toNat % 64 = 0 →
    Gives ((List.range 8).mapM fun i => memRead (a + BitVec.ofNat 64 (8 * i)) 8 {}) s1 ws s2 →
    let d0 := BitVec.ofNat 64 (ws.getD 0 0)
    let y := headOfRecord d0 (BitVec.ofNat 64 (ws.getD 1 0))
    let c := clusterOf (coreOf s.cur)
    let good := recordGood (s2.seatTracks ((s1.thr s1.cur).seat.getD 0) c) (s2.cmBaseOf c) d0 = true
    (good → Does (.hdLoad h rs1) s none
      (enterQueue c y.track.toNat { tid := s.cur, h := h } (s2.setHead s.cur h.toNat y))) ∧
    (¬ good → Traps (.hdLoad h rs1) s 9 0x05 (headXval y.pos y.track h) (keepAccesses s2 s))) ∧
  (∀ rd h s, ∀ i ∈ [Instr.hdRel h false, .hdRel h true, .hdPos rd h, .hdChk rd h false, .hdChk rd h true], Ready i s →
    coreOf s.cur < 2048 → ((s.thr s.cur).head h.toNat).hs = .unbound →
    Traps i s 9 0x02 (headXval ((s.thr s.cur).head h.toNat).pos ((s.thr s.cur).head h.toNat).track h) s) ∧
  (∀ h rs1 s s1 a, Ready (.hdSave h rs1) s → coreOf s.cur < 2048 → Gives (readX rs1) s a s1 →
    ((s1.thr s1.cur).head h.toNat).hs = .unbound →
    Traps (.hdSave h rs1) s 9 0x02 (headXval ((s1.thr s1.cur).head h.toNat).pos ((s1.thr s1.cur).head h.toNat).track h) s)

/-- R126, R133, R136, R144: the moves of a head that is OWNED on a track that is not flagged, on a compute core. hd.seek takes position
and mark, and step and direction where its second operand gives them, and asks for the shift that brings the position
under a port; a position or a step out of range traps. hd.rew does so for the mark. hd.rds gives the word under its position and
hd.wrs replaces it, where no shift is under way, the position stands under a port and the word passes its check; both step the
head and ask for the step's shift. On a flagged track each of the four traps with 0x13. -/
def Obligations.HeadMoves : Prop :=
  (∀ h rs1 rs2 s s1 s2 p c, Ready (.hdSeek h rs1 rs2) s → coreOf s.cur < 2048 → Gives (readX rs1) s p s1 →
    Gives (readX rs2) s1 c s2 →
    let x := (s2.thr s2.cur).head h.toNat
    let k := s2.track (clusterOf (coreOf s2.cur)) x.track.toNat
    let ok := c.toNat % 32 = 0 ∨ 1 ≤ c.toNat % 16 ∧ c.toNat % 16 ≤ 8
    let d := shiftToward k.finalOff p.toNat
    x.hs = .owned → k.flag = false →
    (p.toNat ≤ 4095 → ok → ∃ t, Does (.hdSeek h rs1 rs2) s none t ∧
      (t.thr s2.cur).head h.toNat = { x with
        step := if c.toNat % 32 = 0 then x.step else BitVec.ofNat 4 (c.toNat % 16)
        dir := if c.toNat % 32 = 0 then x.dir else c.getLsbD 4, mark := BitVec.ofNat 12 p.toNat
        pos := BitVec.ofNat 12 p.toNat, pend := decide (d ≠ 0) || x.pend } ∧
      (t.track (clusterOf (coreOf s2.cur)) x.track.toNat).shifts = k.shifts ++ (if d = 0 then [] else
          [{ by_ := d, kind := .seek, seat := (s2.thr s2.cur).seat.getD 0, asked := s2.cycle, head := ⟨s2.cur, h⟩ }])) ∧
    (¬ (p.toNat ≤ 4095 ∧ ok) → Traps (.hdSeek h rs1 rs2) s 9 0x04 (headXval x.pos x.track h) s)) ∧
  (∀ h s, Ready (.hdRew h) s → coreOf s.cur < 2048 →
    let x := (s.thr s.cur).head h.toNat
    let k := s.track (clusterOf (coreOf s.cur)) x.track.toNat
    let d := shiftToward k.finalOff x.mark.toNat
    x.hs = .owned → k.flag = false →
    ∃ t, Does (.hdRew h) s none t ∧ (t.thr s.cur).head h.toNat = { x with pos := x.mark, pend := decide (d ≠ 0) || x.pend } ∧
      (t.track (clusterOf (coreOf s.cur)) x.track.toNat).shifts = k.shifts ++ (if d = 0 then [] else
          [{ by_ := d, kind := .seek, seat := (s.thr s.cur).seat.getD 0, asked := s.cycle, head := ⟨s.cur, h⟩ }])) ∧
  (∀ rd h s s1, Ready (.hdRds rd h) s → coreOf s.cur < 2048 →
    let c := clusterOf (coreOf s.cur)
    let x := (s.thr s.cur).head h.toNat
    let k := s.track c x.track.toNat
    let w := k.shown x.pos.toNat
    x.hs = .owned → x.acc = none → k.flag = false → k.shifts = [] → shiftToward k.off.toNat x.pos.toNat = 0 →
    checkWord w x.pos.toNat false = .pass → w.errs = 0 →
    Gives (writeX rd w.data)
      (askShift c x.track.toNat
        { by_ := if x.dir then -(x.step.toNat : Int) else x.step.toNat, kind := .step, seat := (s.thr s.cur).seat.getD 0,
          head := { tid := s.cur, h := h } }
        (s.setHead s.cur h.toNat { x with
          lastTag := w.tag, acc := none,
          pos := if x.dir then x.pos - x.step.zeroExtend 12 else x.pos + x.step.zeroExtend 12 })) () s1 →
    Does (.hdRds rd h) s none s1) ∧
  (∀ h rs1 s s1 v, Ready (.hdWrs h rs1) s → coreOf s.cur < 2048 → Gives (readX rs1) s v s1 →
    let c := clusterOf (coreOf s1.cur)
    let x := (s1.thr s1.cur).head h.toNat
    let k := s1.track c x.track.toNat
    let w := k.shown x.pos.toNat
    x.hs = .owned → x.acc = none → k.flag = false → k.shifts = [] → shiftToward k.off.toNat x.pos.toNat = 0 →
    checkWord w x.pos.toNat true = .pass →
    ∃ t, Does (.hdWrs h rs1) s none t ∧ (t.track c x.track.toNat).shown x.pos.toNat = trackWord x.pos.toNat v ∧
      ((t.thr s1.cur).head h.toNat).pos = (if x.dir then x.pos - x.step.zeroExtend 12 else x.pos + x.step.zeroExtend 12) ∧
      (t.track c x.track.toNat).shifts =
        [{ by_ := if x.dir then -(x.step.toNat : Int) else x.step.toNat, kind := .step, seat := (s1.thr s1.cur).seat.getD 0,
           asked := s1.cycle, head := ⟨s1.cur, h⟩ }]) ∧
  (∀ rd h rs1 rs2 s s1 s2 a b, coreOf s.cur < 2048 → Gives (readX rs1) s a s1 → Gives (readX rs2) s1 b s2 →
    let x := (s.thr s.cur).head h.toNat
    x.hs = .owned → x.acc = none → (s.track (clusterOf (coreOf s.cur)) x.track.toNat).flag = true →
    ∀ i ∈ [Instr.hdSeek h rs1 rs2, .hdRew h, .hdRds rd h, .hdWrs h rs1], Ready i s → (s.thr s.cur).fused = false →
      ∃ t, exec i s = .next t ∧ (t.thr s.cur).cause = 9 ∧ (t.thr s.cur).causeSub = 0x13 ∧
        (t.thr s.cur).xval = headXval x.pos x.track h ∧ (t.thr s.cur).xpc = (s.thr s.cur).pc)

/-- R126, R128, R130, R133, R136: the track store's own steps. A queued head that waits becomes OWNED, and one in REACQ that stands
away from its position seeks back first; the shift of a step that is granted ends with the offset moved by it, and that of a
seek back makes its head OWNED; the first shift of a track is granted a slot where no other that can be granted one was asked
for before it, and none is while 64 are taken; the word of a realigned head that passes is counted as a slip and the head is
OWNED again; formatting resets the tracks of its range that await it and no other (the slip of a shift is free, log 3). -/
def Obligations.TrackEvents : Prop :=
  (∀ (s : State) c k r, (s.track c k).owner = none → s.nextOwner c k = some r →
    ((s.thr r.tid).head r.h.toNat).hs = .sharedWait →
    ∃ t, exec (.headGrant c k) s = .next t ∧ (t.track c k).owner = some r ∧
      ((t.thr r.tid).head r.h.toNat).hs = .owned ∧ (t.track c k).queue = (s.track c k).queue.filter (fun q => q.2 != r)) ∧
  (∀ (s : State) c k r, (s.track c k).owner = none → s.nextOwner c k = some r →
    let x := (s.thr r.tid).head r.h.toNat
    let d := shiftToward (s.track c k).finalOff x.pos.toNat
    x.hs = .reacq → d ≠ 0 →
    ∃ t, exec (.headGrant c k) s = .next t ∧ (t.track c k).owner = some r ∧ (t.thr r.tid).head r.h.toNat = x ∧
      (t.track c k).shifts = (s.track c k).shifts ++
        [{ by_ := d, kind := .back, seat := (s.thr r.tid).seat.getD 0, head := r, asked := s.cycle }]) ∧
  (∀ (s : State) c k slip x l, (s.track c k).shifts = x :: l → x.granted = true → x.kind = .step →
    ∃ t, exec (.trackShiftEnd c k slip) s = .next t ∧ (t.track c k).shifts = l ∧
      (t.track c k).off = BitVec.ofNat 12 (movePos (s.track c k).off.toNat x.by_) ∧
      (t.track c k).disp = (s.track c k).disp + slip ∧ (t.track c k).words = (s.track c k).words) ∧
  (∀ (s : State) c k slip x, (s.track c k).shifts = [x] → x.granted = true → x.kind = .back →
    (s.track c k).owner = some x.head → ((s.thr x.head.tid).head x.head.h.toNat).hs = .reacq →
    ((s.thr x.head.tid).head x.head.h.toNat).track.toNat = k →
    ∃ t, exec (.trackShiftEnd c k slip) s = .next t ∧ ((t.thr x.head.tid).head x.head.h.toNat).hs = .owned) ∧
  (∀ (s : State) c k x, (s.grantable c).find? (fun e => e.1 == k) = some (k, x) →
    (∀ e ∈ s.grantable c, e.2.before x = false) →
    ∃ t, exec (.shiftSlotGrant c k) s = .next t ∧
      (t.track c k).shifts = { x with granted := true } :: (s.track c k).shifts.tail) ∧
  (∀ (s : State) c k, 64 ≤ s.slotsGranted c (fun _ => true) → exec (.shiftSlotGrant c k) s = .next s) ∧
  (∀ (s : State) tid (h : BitVec 3),
    let x := (s.thr tid).head h.toNat
    let k := s.track (clusterOf (coreOf tid)) x.track.toNat
    x.hs = .realign → k.shifts = [] → (x.acc.getD {}).fatal = none →
    checkWord (k.shown x.pos.toNat) x.pos.toNat (x.acc.getD {}).write = .pass →
    ∃ t, exec (.realignReread tid h) s = .next t ∧ ((t.thr tid).head h.toNat).hs = .owned ∧
      ((t.thr tid).head h.toNat).slips.toNat = min 255 (x.slips.toNat + 1) ∧
      (s.wroteNow 0x0C9 (coreOf tid) = false → (t.core (coreOf tid)).hdSlips = min 0xFFFF ((s.core (coreOf tid)).hdSlips + 1))) ∧
  (∀ (s : State) c first count k x, (s.cluster c).tracks.cells.find? (fun e => e.1 == k) = some (k, x) →
    x.formatting = true → first ≤ k → k < first + count →
    ∃ t, exec (.trackFormat c first count) s = .next t ∧ (t.track c k).off = 0 ∧ (t.track c k).words = {} ∧
      (t.track c k).flag = false ∧ (t.track c k).formatting = false ∧
      ∀ j, ¬ (first ≤ j ∧ j < first + count) → t.track c j = s.track c j)

/-! ## Ordering and atomics -/

/-- R176 to R178, R182 to R184: the fences: fence.s releases at its scope where W precedes and its scope is wider than thr,
and else only goes on; acq.full at a scope oct or wider makes the full acquire, which leaves the seat's signature all ones, and an acq of a
narrower scope only goes on (that both only go on is the model's reading, log 38); rel marks the thread's next store as a release; sig.pub notes the sectors of its record, releases, takes the
seat's signature and makes both updates at the home; sig.inv gives the flag of the record and acquires with its field;
fence.eng acquires with what the named engines keep, once none of them has a command of the thread. -/
def Obligations.Fences : Prop :=
  (∀ scope pred succ s, Ready (.fenceS scope pred succ) s → (pred.getLsbD 0 = false ∨ scope = .thr) →
    Does (.fenceS scope pred succ) s none s) ∧
  (∀ scope pred succ s s1, Ready (.fenceS scope pred succ) s → pred.getLsbD 0 = true → scope ≠ .thr →
    Gives (release scope) s () s1 → Does (.fenceS scope pred succ) s none s1) ∧
  (∀ full scope s, Ready (.acq full scope) s → (full = false ∨ scopeCached scope = true) → Does (.acq full scope) s none s) ∧
  (∀ scope s s1, Ready (.acq true scope) s → scopeCached scope = false → Gives acquireFull s () s1 →
    Does (.acq true scope) s none s1 ∧
      (s1.core (coreOf s.cur)).sigs.get 0 ((s.thr s.cur).seat.getD 0) = BitVec.allOnes 512) ∧
  (∀ scope s, Ready (.rel scope) s → Does (.rel scope) s none (s.modThr s.cur fun th => { th with relMark := some scope })) ∧
  (∀ add scope rs1 rs2 s s1 s2 s3 s4 s5 s6 s7 a v h, Ready (.sigPub add scope rs1 rs2) s → Gives (readX rs1) s a s1 →
    Gives (readX rs2) s1 v s2 → a.toNat % 128 = 0 → Gives (homeOrTrap 6 a needRW 128) s2 h s3 → Gives settleRelease s3 () s4 →
    (match h with
      | .page va _ => Gives (do noteSector (s4.agent s4.cur) va; noteSector (s4.agent s4.cur) (va + 64)) s4 () s5
      | _ => s5 = s4) →
    Gives (release scope) s5 () s6 →
    let n := coreOf s6.cur
    let seat := (s6.thr s6.cur).seat.getD 0
    Gives (publish h (.pub add v ((s6.core n).sigs.get 0 seat)))
      (s6.modCore n fun c => { c with sigs := c.sigs.set seat 0 }) () s7 →
    Does (.sigPub add scope rs1 rs2) s none s7) ∧
  (∀ scope rd rs1 s s1 s2 s3 s4 s5 a h, Ready (.sigInv scope rd rs1) s → Gives (readX rs1) s a s1 → a.toNat % 128 = 0 →
    Gives (homeOrTrap 5 a needR 128) s1 h s2 → (∃ m off, h = .bank m off ∧
      Gives (do waitOwnStores (s1.agent s1.cur) h.addr 128; performSent (coreOf s1.cur) m
                request (s1.agent s1.cur) h.addr 0 128) s2 () s3) → s3.poisonAt h.addr = none →
    s3.poisonAt (h.addr + 64) = none → Gives (acquireSig scope (BitVec.ofNat 512 (s3.load (h.addr + 64) 64))) s3 () s4 →
    Gives (writeX rd (BitVec.ofNat 64 (s3.load h.addr 8))) s4 () s5 →
    Does (.sigInv scope rd rs1) s none s5) ∧
  (∀ scope rd rs1 s s1 s2 s3 s4 s5 s6 a c off, Ready (.sigInv scope rd rs1) s → Gives (readX rs1) s a s1 →
    a.toNat % 128 = 0 → Gives (homeOrTrap 5 a needR 128) s1 (.cm c off) s2 →
    Gives (do waitOwnStores (s1.agent s1.cur) (cmAddr c off) 128; performSent (coreOf s1.cur) (8192 + c)
              request (s1.agent s1.cur) (cmAddr c off) 0 128) s2 () s3 →
    Gives (cmExpand (s1.agent s1.cur) c (off / 512)) s3 (.ok ()) s4 → s4.poisonAt (cmAddr c off) = none →
    s4.poisonAt (cmAddr c off + 64) = none →
    Gives (acquireSig scope (BitVec.ofNat 512 (s4.load (cmAddr c off + 64) 64))) s4 () s5 →
    Gives (writeX rd (BitVec.ofNat 64 (s4.load (cmAddr c off) 8))) s5 () s6 →
    Does (.sigInv scope rd rs1) s none s6) ∧
  (∀ scope rd rs1 s s1 s2 s3 s4 s5 s6 s7 s8 s9 a va x v w, Ready (.sigInv scope rd rs1) s → Gives (readX rs1) s a s1 →
    a.toNat % 128 = 0 → Gives (homeOrTrap 5 a needR 128) s1 (.page va x) s2 →
    let ag := s1.agent s1.cur
    Gives (waitOwnStores ag x.pa 128) s2 () s3 → Gives (cleanWhere ag (fun b => b.overlaps va 128)) s3 () s4 →
    Gives (performBefore ag.core x.pa 128) s4 () s5 → Gives (readHome ag x.pa 64) s5 (.ok v) s6 →
    Gives (readHome ag (x.pa + 64) 64) s6 (.ok w) s7 →
    s7.poisonAt x.pa = none → s7.poisonAt (x.pa + 64) = none →
    Gives (do acquireSig scope (BitVec.ofNat 512 (s7.load (x.pa + 64) 64))
              dropWhere ag (fun b => b.overlaps va 128) false) s7 () s8 →
    Gives (writeX rd (BitVec.ofNat 64 (s7.load x.pa 8))) s8 () s9 →
    Does (.sigInv scope rd rs1) s none s9) ∧
  (∀ mask s s1 s2, Ready (.fenceEng mask) s → (if mask.getLsbD 0 then Gives reportHeld s () s1 else s1 = s) →
    (∀ e, e < 4 → mask.getLsbD e = true → s1.enginePending s.cur e = false) →
    Gives (acquireSig .oct ((List.range 4).foldl (fun x e =>
      if mask.getLsbD e then x ||| (s1.thr s1.cur).engSigs.get 0 e else x) 0)) s1 () s2 →
    Does (.fenceEng mask) s none s2)

/-- R187, R188: the ten atomics, and what a doubleword of a scratchpad bank that is not poisoned gives them and receives. -/
def Obligations.Atomics : Prop :=
  Atomically .amoAdd false (fun old v _ => some (BitVec.ofNat 64 (old.toNat + v.toNat))) ∧
  Atomically .amoSwap false (fun _ v _ => some v) ∧
  Atomically .amoAnd false (fun old v _ => some (old &&& v)) ∧
  Atomically .amoOr false (fun old v _ => some (old ||| v)) ∧
  Atomically .amoXor false (fun old v _ => some (old ^^^ v)) ∧
  Atomically .amoMin false (fun old v _ => some (if old.toInt < v.toInt then old else v)) ∧
  Atomically .amoMax false (fun old v _ => some (if old.toInt < v.toInt then v else old)) ∧
  Atomically .amoMinn false (fun old v _ => some (if old.toNat < v.toNat then old else v)) ∧
  Atomically .amoMaxn false (fun old v _ => some (if old.toNat < v.toNat then v else old)) ∧
  Atomically .amoCas true (fun old v e => if old = e then some v else none) ∧
  (∀ s s1 a m off, off < 0x60000 → (s.core (coreOf s.cur)).rstores = [] →
    Gives (request (s.agent s.cur) (bankAddr m off) 8 8) s () s1 → s1.poisonAt (bankAddr m off) = none →
    Gives (atomicOld 6 a (.bank m off)) s (BitVec.ofNat 64 (s1.load (bankAddr m off) 8)) s1) ∧
  (∀ s m off v, off < 0x60000 → Memory.wf s.mem → ∃ t, Gives (atomicWrite (.bank m off) v) s () t ∧ t.load (bankAddr m off) 8 = v.toNat ∧
    ∀ a, (a < bankAddr m off ∨ bankAddr m off + 8 ≤ a) → readCell t.mem a = readCell s.mem a)

/-- R188, R189: lr gives the doubleword and takes the reservation; sc writes and answers 0 while the reservation on its
doubleword is younger than 1,024 cycles, answers 1 without a write otherwise, and ends it; a reservation ends after
1,024 cycles, and by a write of some of its bytes. -/
def Obligations.Reservations : Prop :=
  (∀ aq rl scx rd rs1 s s1 s2 s3 s4 s5 a h old, Ready (.lr aq rl scx rd rs1) s → Gives (readX rs1) s a s1 → a.toNat % 8 = 0 →
    Gives (homeOrTrap 5 a needR) s1 h s2 → (if rl then Gives (release (if scx then .host else .part)) s2 () s3 else s3 = s2) →
    Gives (atomicOld 5 a h) s3 old s4 →
    Gives (writeX rd old) (s4.modThr s4.cur fun th => { th with resv := some { addr := h.addr, cycle := s4.cycle } }) () s5 →
    Does (.lr aq rl scx rd rs1) s none s5) ∧
  (∀ aq rl scx rd rs1 rs2 s s1 s2 s3 s4 s5 s6 s7 s8 a v h old r, Ready (.sc aq rl scx rd rs1 rs2) s →
    Gives (readX rs1) s a s1 → Gives (readX rs2) s1 v s2 → a.toNat % 8 = 0 → Gives (homeOrTrap 6 a needRW) s2 h s3 →
    Gives settleRelease s3 () s4 → (if rl then Gives (release (if scx then .host else .part)) s4 () s5 else s5 = s4) →
    Gives (atomicOld 6 a h) s5 old s6 → (s6.thr s6.cur).resv = some r → r.addr = h.addr → s6.cycle < r.cycle + 1024 →
    Gives (atomicWrite h v) s6 () s7 → Gives (writeX rd 0) (s7.modThr s7.cur fun th => { th with resv := none }) () s8 →
    Does (.sc aq rl scx rd rs1 rs2) s none s8) ∧
  (∀ aq rl scx rd rs1 rs2 s s1 s2 s3 s4 s5 s6 s8 a v h old, Ready (.sc aq rl scx rd rs1 rs2) s →
    Gives (readX rs1) s a s1 → Gives (readX rs2) s1 v s2 → a.toNat % 8 = 0 → Gives (homeOrTrap 6 a needRW) s2 h s3 →
    Gives settleRelease s3 () s4 → (if rl then Gives (release (if scx then .host else .part)) s4 () s5 else s5 = s4) →
    Gives (atomicOld 6 a h) s5 old s6 →
    (∀ r, (s6.thr s6.cur).resv = some r → r.addr ≠ h.addr ∨ r.cycle + 1024 ≤ s6.cycle) →
    Gives (writeX rd 1) (s6.modThr s6.cur fun th => { th with resv := none }) () s8 →
    Does (.sc aq rl scx rd rs1 rs2) s none s8) ∧
  (∀ tid s r, (s.thr tid).resv = some r → r.cycle + 1024 ≤ s.cycle →
    exec (.reservationTimeout tid) s = .next (s.modThr tid fun th => { th with resv := none })) ∧
  (∀ (s : State) a bs t r, (s.thr t).resv = some r → r.addr < a + bs.length → a < r.addr + 8 →
    ((s.storeBytes a bs).thr t).resv = none)

/-! ## Synchronisation objects -/

/-- R194 to R196: barriers. bar.cfg sets a barrier of its own core for its seat and hand, with nothing arrived and phase 0; on
another core's barrier it traps with 0x01, on one of another seat with 0x02, where a thread has arrived with 0x0C and with a
count out of range with 0x03. bar.arr releases, takes the sender's share of the fabric where the home is another core, joins its
signature, counts one more arrival and gives the phase. bar.wait gives a changed phase with the barrier's signature acquired, or
the phase and signature that its release left it; a phase that has not changed makes it wait. bar.wait.n answers 0 where bar.wait
answers at once, else registers and answers 1, and traps with 0x06 where a registered wait is pending. The three trap with 0x02
on a barrier that is not the seat's. The last arrival clears count and signature, adds one to the phase and releases the
waiters. -/
def Obligations.Barriers : Prop :=
  (∀ rs1 rs2 s s1 s2 i n, Ready (.barCfg rs1 rs2) s → Gives (readX rs1) s i s1 → Gives (readX rs2) s1 n s2 →
    let core := i.toNat % 2048
    let b := i.toNat / 65536 % 32
    let u := flipBarrier core b s2
    let th := s2.thr s2.cur
    core = coreOf s2.cur → ((u.bar core b).configured = false ∨ (u.bar core b).seat = th.seat.getD 0) → (u.bar core b).arr = 0 →
    (∀ e ∈ u.threads.cells, ∀ w, e.2.regWait = some w → w.sem = true ∨ w.obj ≠ barObj core b ∨ w.done = true) →
    1 ≤ n.toNat → n.toNat ≤ 65535 →
    Does (.barCfg rs1 rs2) s none (releaseWaiters core b 0 0 (u.setBar core b {
      configured := true, seat := th.seat.getD 0, deal := th.deal.getD 0, hand := th.hand.toNat,
      count := BitVec.ofNat 16 n.toNat, arr := 0, phase := 0, sig := 0 }))) ∧
  (∀ rs1 rs2 s s1 s2 i n, Ready (.barCfg rs1 rs2) s → Gives (readX rs1) s i s1 → Gives (readX rs2) s1 n s2 →
    let core := i.toNat % 2048
    let u := flipBarrier core (i.toNat / 65536 % 32) s2
    let x := u.bar core (i.toNat / 65536 % 32)
    let other := x.configured = true ∧ x.seat ≠ (s2.thr s2.cur).seat.getD 0
    (core ≠ coreOf s2.cur → Traps (.barCfg rs1 rs2) s 15 0x01 i s) ∧
    (core = coreOf s2.cur → other → Traps (.barCfg rs1 rs2) s 15 0x02 i (keepAccesses u s)) ∧
    (core = coreOf s2.cur → ¬ other → x.arr ≠ 0 → Traps (.barCfg rs1 rs2) s 15 0x0C i (keepAccesses u s)) ∧
    (core = coreOf s2.cur → ¬ other → x.arr = 0 → (∀ e ∈ u.threads.cells, e.2.regWait = none) →
      (n = 0 ∨ 65535 < n.toNat) → Traps (.barCfg rs1 rs2) s 15 0x03 n (keepAccesses u s))) ∧
  (∀ rd rs1 s s1 s2 s3 s4 i sig, Ready (.barArr rd rs1) s → Gives (readX rs1) s i s1 → Gives (barName i) s1 () s1 →
    let core := i.toNat % 2048
    let b := i.toNat / 65536 % 32
    Gives (releaseSig (coverScope (coreOf s1.cur) core)) s1 sig s2 →
    (if core = coreOf s2.cur then s3 = s2 else Gives (sendArrival (dieOf core)) s2 () s3) →
    let u := flipBarrier core b s3
    let x := u.bar core b
    x.configured = true → x.seat = (u.thr u.cur).seat.getD 0 →
    Gives (writeX rd (x.phase.zeroExtend 64)) (u.setBar core b { x with arr := x.arr + 1, sig := x.sig ||| sig }) () s4 →
    Does (.barArr rd rs1) s none s4) ∧
  (∀ rd rs1 s s1 s2 s3 i sig, Ready (.barArr rd rs1) s → Gives (readX rs1) s i s1 → Gives (barName i) s1 () s1 →
    let core := i.toNat % 2048
    Gives (releaseSig (coverScope (coreOf s1.cur) core)) s1 sig s2 →
    (if core = coreOf s2.cur then s3 = s2 else Gives (sendArrival (dieOf core)) s2 () s3) →
    let u := flipBarrier core (i.toNat / 65536 % 32) s3
    let x := u.bar core (i.toNat / 65536 % 32)
    (x.configured = false ∨ x.seat ≠ (u.thr u.cur).seat.getD 0) →
    Traps (.barArr rd rs1) s 15 0x02 i (keepAccesses u s)) ∧
  (∀ rd rs1 rs2 s s1 s2 i p, ∀ mk ∈ [Instr.barWait, Instr.barWaitN], Ready (mk rd rs1 rs2) s → Gives (readX rs1) s i s1 →
    Gives (readX rs2) s1 p s2 → Gives (barName i) s2 () s2 → (s2.thr s2.cur).objAns = none →
    let core := i.toNat % 2048
    let u := flipBarrier core (i.toNat / 65536 % 32) s2
    let x := u.bar core (i.toNat / 65536 % 32)
    (x.configured = false ∨ x.seat ≠ (u.thr u.cur).seat.getD 0) →
    Traps (mk rd rs1 rs2) s 15 0x02 i (keepAccesses u s)) ∧
  (∀ rd rs1 rs2 s s1 s2 i p, Ready (.barWait rd rs1 rs2) s → Gives (readX rs1) s i s1 → Gives (readX rs2) s1 p s2 →
    Gives (barName i) s2 () s2 → (s2.thr s2.cur).objAns = none →
    let core := i.toNat % 2048
    let b := i.toNat / 65536 % 32
    let u := flipBarrier core b s2
    let x := u.bar core b
    x.configured = true → x.seat = (u.thr u.cur).seat.getD 0 → x.phase.toNat = p.toNat % 65536 →
    ∃ t, exec (.barWait rd rs1 rs2) s = .next t ∧ (t.thr u.cur).pc = (u.thr u.cur).pc ∧
      (t.thr u.cur).barWait = some (barObj core b, x.phase)) ∧
  (∀ rd rs1 rs2 s s1 s2 s3 s4 i p, Ready (.barWait rd rs1 rs2) s → Gives (readX rs1) s i s1 → Gives (readX rs2) s1 p s2 →
    Gives (barName i) s2 () s2 → (s2.thr s2.cur).objAns = none →
    let core := i.toNat % 2048
    let b := i.toNat / 65536 % 32
    let u := flipBarrier core b s2
    let x := u.bar core b
    x.configured = true → x.seat = (u.thr u.cur).seat.getD 0 → x.phase.toNat ≠ p.toNat % 65536 →
    Gives (acquireSig (coverScope (coreOf s2.cur) core) x.sig) u () s3 → Gives (writeX rd (x.phase.zeroExtend 64)) s3 () s4 →
    Does (.barWait rd rs1 rs2) s none s4) ∧
  (∀ rd rs1 rs2 s s1 s2 s3 s4 i p phase sig, Ready (.barWait rd rs1 rs2) s → Gives (readX rs1) s i s1 →
    Gives (readX rs2) s1 p s2 → Gives (barName i) s2 () s2 → (s2.thr s2.cur).objAns = some (phase, sig) →
    Gives (acquireSig (coverScope (coreOf s2.cur) (i.toNat % 2048)) sig) s2 () s3 →
    Gives (writeX rd (phase.zeroExtend 64)) s3 () s4 → Does (.barWait rd rs1 rs2) s none s4) ∧
  (∀ rd rs1 rs2 s s1 s2 s3 s4 i p, Ready (.barWaitN rd rs1 rs2) s → Gives (readX rs1) s i s1 → Gives (readX rs2) s1 p s2 →
    Gives (barName i) s2 () s2 →
    let core := i.toNat % 2048
    let b := i.toNat / 65536 % 32
    let u := flipBarrier core b s2
    let x := u.bar core b
    x.configured = true → x.seat = (u.thr u.cur).seat.getD 0 → x.phase.toNat ≠ p.toNat % 65536 →
    Gives (acquireSig (coverScope (coreOf u.cur) core) x.sig) u () s3 → Gives (writeX rd 0) s3 () s4 →
    Does (.barWaitN rd rs1 rs2) s none s4) ∧
  (∀ rd rs1 rs2 s s1 s2 s3 i p, Ready (.barWaitN rd rs1 rs2) s → Gives (readX rs1) s i s1 → Gives (readX rs2) s1 p s2 →
    Gives (barName i) s2 () s2 →
    let core := i.toNat % 2048
    let b := i.toNat / 65536 % 32
    let u := flipBarrier core b s2
    let x := u.bar core b
    x.configured = true → x.seat = (u.thr u.cur).seat.getD 0 → x.phase.toNat = p.toNat % 65536 →
    (u.thr u.cur).regWait = none →
    Gives (writeX rd 1) (u.modThr u.cur fun th => { th with
      regWait := some { obj := BitVec.ofNat 16 (2048 * b + core), arg := x.phase } }) () s3 →
    Does (.barWaitN rd rs1 rs2) s none s3) ∧
  (∀ rd rs1 rs2 s s1 s2 i p, Ready (.barWaitN rd rs1 rs2) s → Gives (readX rs1) s i s1 → Gives (readX rs2) s1 p s2 →
    Gives (barName i) s2 () s2 →
    let core := i.toNat % 2048
    let u := flipBarrier core (i.toNat / 65536 % 32) s2
    let x := u.bar core (i.toNat / 65536 % 32)
    x.configured = true → x.seat = (u.thr u.cur).seat.getD 0 → x.phase.toNat = p.toNat % 65536 →
    (u.thr u.cur).regWait ≠ none → Traps (.barWaitN rd rs1 rs2) s 15 0x06 0 (keepAccesses u s)) ∧
  (∀ s core b, (s.bar core b).configured = true → (s.bar core b).arr = (s.bar core b).count →
    ∃ t, exec (.barrierRelease core b) s = .next t ∧ (t.bar core b).arr = 0 ∧
      (t.bar core b).phase = (s.bar core b).phase + 1 ∧ (t.bar core b).sig = 0 ∧
      ∀ tid p, (s.thr tid).barWait = some (barObj core b, p) → p ≠ (s.bar core b).phase + 1 →
        (t.thr tid).objAns = some ((s.bar core b).phase + 1, (s.bar core b).sig) ∧ (t.thr tid).barWait = none) ∧
  (∀ s i, (∀ f, partOfSeat ((s.thr s.cur).seat.getD 0) = some f → s.covers f (i.toNat % 2048) = true) →
    partOfSeat ((s.thr s.cur).seat.getD 0) ≠ none → Gives (barName i) s () s)

/-- R194, R197, R198: domains. dom.sync of a level that is no bit of MEMB traps with 0x04. An arrival releases, takes its share of
the fabric, is counted, joins its signature and waits at its PC; it completes once the phase has flipped, with the new PHASE
bit, TRICKS counted where the lowest level of MEMB flips to 0, which is also the trick boundary of the thread's claim, the signature
acquired, and an answer of −1 where a member was killed meanwhile, else 0. The flip comes once as many have arrived as live, and
not before. -/
def Obligations.Domains : Prop :=
  (∀ rd k s, Ready (.domSync rd k) s → (s.thr s.cur).memb.getLsbD k.toNat = false →
    Traps (.domSync rd k) s 15 0x04 (k.zeroExtend 64) s) ∧
  (∀ rd k s s1 s2 sig, Ready (.domSync rd k) s → (s.thr s.cur).memb.getLsbD k.toNat = true → (s.thr s.cur).domArr = none →
    Gives (releaseSig (domScope k.toNat)) s sig s1 →
    let d := (s.thr s.cur).deal.getD 0
    let key := domKey k.toNat (coreOf s.cur)
    Gives (sendArrival (domDie k.toNat (coreOf s.cur))) s1 () s2 → s2.cur = s.cur →
    ∃ t, exec (.domSync rd k) s = .next t ∧ (t.thr s.cur).pc = (s2.thr s.cur).pc ∧
      (t.thr s.cur).domArr = some { phase := (s2.domain d key).phase, level := k } ∧
      (t.domain d key).arrived = (s2.domain d key).arrived + 1 ∧
      (t.domain d key).sig = (s2.domain d key).sig ||| sig) ∧
  (∀ rd k s s1 s2 a, Ready (.domSync rd k) s → (s.thr s.cur).memb.getLsbD k.toNat = true →
    (s.thr s.cur).domArr = some a → a.level = k →
    let d := (s.thr s.cur).deal.getD 0
    let x := s.domain d (domKey k.toNat (coreOf s.cur))
    let boundary := x.phase = false ∧ lowestBit (s.thr s.cur).memb = k.toNat
    x.phase ≠ a.phase →
    Gives (acquireSig (domScope k.toNat) x.lastSig) (s.modThr s.cur fun th => { th with
      domArr := none, domKills := th.domKills.set k.toNat x.kills,
      phase := if x.phase then th.phase ||| BitVec.ofNat 9 (2 ^ k.toNat) else th.phase &&& ~~~(BitVec.ofNat 9 (2 ^ k.toNat)),
      tricks := if boundary then th.tricks + 1 else th.tricks }) () s1 →
    Gives (writeX rd (if (s.thr s.cur).domKills.get 0 k.toNat = x.kills then 0 else BitVec.ofInt 64 (-1)))
      (if boundary ∧ (s1.claim (coreOf s1.cur)).owner = some s1.cur then trickBoundary (coreOf s1.cur) s1 else s1) () s2 →
    Does (.domSync rd k) s none s2) ∧
  (∀ s deal level node, 0 < (s.domain deal (4096 * level + node)).living →
    (s.domain deal (4096 * level + node)).living ≤ (s.domain deal (4096 * level + node)).arrived →
    let x := s.domain deal (4096 * level + node)
    ∃ t, exec (.domainFlip deal level node) s = .next t ∧ t.domain deal (4096 * level + node) =
      { x with arrived := x.arrived - x.living, phase := !x.phase, lastSig := x.sig, sig := 0 }) ∧
  (∀ s deal level node, (s.domain deal (4096 * level + node)).arrived < (s.domain deal (4096 * level + node)).living →
    exec (.domainFlip deal level node) s = .next s)

/-- R193 to R195, R200: semaphores. A semaphore outside the seat's window traps with 0x05 and a count above 65,535 with 0x03. sem.post
releases, takes its share of the fabric, and after the requests before it have been served adds n and joins its signature, or
traps with 0x03 where the value would pass 65,535. sem.wait takes n at once where no request waits any more and the value
suffices, and answers the value left; it completes with the answer that serving left it, and else joins the queue's tail.
sem.wait.n takes as sem.wait does, or registers, joins the tail and answers −1; it traps with 0x06 where a registered wait is
pending. The head of the queue is served where the value suffices, and where it does not nothing is. A registered wait that is
done acquires and wakes its idle thread with reason 3. -/
def Obligations.Semaphores : Prop :=
  (∀ rs1 rs2 s s1 s2 i n, Gives (readX rs1) s i s1 → Gives (readX rs2) s1 n s2 →
    let o := octetOf (coreOf s2.cur)
    let w := s2.semWindow ((s2.thr s2.cur).seat.getD 0) o
    (i.toNat ≤ 63 → w.base ≤ i.toNat → i.toNat < w.base + w.count → n.toNat ≤ 65535 →
      Gives (semOperands rs1 rs2) s (o, i.toNat, n.toNat) s2) ∧
    ((63 < i.toNat ∨ i.toNat < w.base ∨ w.base + w.count ≤ i.toNat) →
      semOperands rs1 rs2 s = .error (.trap 15 0x05 i (keepAccesses s2))) ∧
    (i.toNat ≤ 63 → w.base ≤ i.toNat → i.toNat < w.base + w.count → 65535 < n.toNat →
      semOperands rs1 rs2 s = .error (.trap 15 0x03 n (keepAccesses s2)))) ∧
  (∀ rd rs1 rs2 s c v keep, semOperands rs1 rs2 s = .error (.trap 15 c v keep) →
    ∀ i ∈ [Instr.semPost rs1 rs2, .semWait rd rs1 rs2, .semWaitN rd rs1 rs2], Ready i s → Traps i s 15 c v (keep s)) ∧
  (∀ rs1 rs2 s s1 s2 s3 o i n sig, Ready (.semPost rs1 rs2) s → Gives (semOperands rs1 rs2) s (o, i, n) s1 →
    Gives (releaseSig .oct) s1 sig s2 → Gives (sendArrival (dieOf (coreOf s2.cur))) s2 () s3 →
    let u := serveQueue o i s3
    let x := u.sem o i
    (x.val + n ≤ 65535 → Does (.semPost rs1 rs2) s none (u.setSem o i { x with val := x.val + n, sig := x.sig ||| sig })) ∧
    (65535 < x.val + n → Traps (.semPost rs1 rs2) s 15 0x03 (BitVec.ofNat 64 n) (keepAccesses u s))) ∧
  (∀ rd rs1 rs2 s s1 s2 s3 o i n, Ready (.semWait rd rs1 rs2) s → Gives (semOperands rs1 rs2) s (o, i, n) s1 →
    (s1.thr s1.cur).objAns = none → (∀ r ∈ (s1.sem o i).queue, r.tid = s1.cur → r.registered = true) →
    let u := serveQueue o i s1
    let x := u.sem o i
    x.queue = [] → n ≤ x.val → Gives (acquireSig .oct x.sig) (u.setSem o i { x with
      val := x.val - n, sig := if x.val = n then 0 else x.sig }) () s2 →
    Gives (writeX rd (BitVec.ofNat 64 (x.val - n))) s2 () s3 → Does (.semWait rd rs1 rs2) s none s3) ∧
  (∀ rd rs1 rs2 s s1 s2 s3 o i n v sig, Ready (.semWait rd rs1 rs2) s → Gives (semOperands rs1 rs2) s (o, i, n) s1 →
    (s1.thr s1.cur).objAns = some (v, sig) → Gives (acquireSig .oct sig) s1 () s2 →
    Gives (writeX rd (v.zeroExtend 64)) s2 () s3 → Does (.semWait rd rs1 rs2) s none s3) ∧
  (∀ rd rs1 rs2 s s1 o i n, Ready (.semWait rd rs1 rs2) s → Gives (semOperands rs1 rs2) s (o, i, n) s1 →
    (s1.thr s1.cur).objAns = none → (∀ r ∈ (s1.sem o i).queue, r.tid = s1.cur → r.registered = true) →
    let u := serveQueue o i s1
    let x := u.sem o i
    (x.queue ≠ [] ∨ x.val < n) →
    ∃ t, exec (.semWait rd rs1 rs2) s = .next t ∧ (t.sem o i).queue = x.queue ++ [{ tid := s1.cur, n := n }] ∧
      (t.sem o i).val = x.val) ∧
  (∀ rd rs1 rs2 s s1 s2 s3 o i n, Ready (.semWaitN rd rs1 rs2) s → Gives (semOperands rs1 rs2) s (o, i, n) s1 →
    let u := serveQueue o i s1
    let x := u.sem o i
    x.queue = [] → n ≤ x.val → Gives (acquireSig .oct x.sig) (u.setSem o i { x with
      val := x.val - n, sig := if x.val = n then 0 else x.sig }) () s2 →
    Gives (writeX rd (BitVec.ofNat 64 (x.val - n))) s2 () s3 → Does (.semWaitN rd rs1 rs2) s none s3) ∧
  (∀ rd rs1 rs2 s s1 s2 o i n, Ready (.semWaitN rd rs1 rs2) s → Gives (semOperands rs1 rs2) s (o, i, n) s1 →
    let u := serveQueue o i s1
    let x := u.sem o i
    (x.queue ≠ [] ∨ x.val < n) → (u.thr u.cur).regWait = none →
    Gives (writeX rd (BitVec.ofInt 64 (-1)))
      ((u.setSem o i { x with queue := x.queue ++ [{ tid := s1.cur, n := n, registered := true }] }).modThr u.cur fun th =>
        { th with regWait := some { sem := true, obj := BitVec.ofNat 16 i, arg := BitVec.ofNat 16 n } }) () s2 →
    Does (.semWaitN rd rs1 rs2) s none s2) ∧
  (∀ rd rs1 rs2 s s1 o i n, Ready (.semWaitN rd rs1 rs2) s → Gives (semOperands rs1 rs2) s (o, i, n) s1 →
    let u := serveQueue o i s1
    ((u.sem o i).queue ≠ [] ∨ (u.sem o i).val < n) → (u.thr u.cur).regWait ≠ none →
    Traps (.semWaitN rd rs1 rs2) s 15 0x06 0 (keepAccesses u s)) ∧
  (∀ s o i r rest, (s.sem o i).queue = r :: rest → r.n ≤ (s.sem o i).val → r.tid < 100000 →
    ∃ t, exec (.semRequestArrival o i) s = .next t ∧ (t.sem o i).queue = rest ∧
      (t.sem o i).val = (s.sem o i).val - r.n ∧
      (r.registered = false → (t.thr r.tid).objAns =
        some (BitVec.ofNat 16 ((s.sem o i).val - r.n), (s.sem o i).sig)) ∧
      (r.registered = true → ∃ w, (t.thr r.tid).regWait = some w ∧ w.done = true ∧ w.sig = (s.sem o i).sig)) ∧
  (∀ s o i r rest, (s.sem o i).queue = r :: rest → (s.sem o i).val < r.n → exec (.semRequestArrival o i) s = .next s) ∧
  (∀ s s1 tid w, (s.thr tid).regWait = some w → w.done = true → (s.thr tid).st = .idle →
    Gives (acquireAt (s.agent tid) (regScope tid w) w.sig) s () s1 → (s1.thr tid).st = .idle →
    ∃ t, exec (.registeredWaitRelease tid) s = .next t ∧ (t.thr tid).regWait = none ∧ (t.thr tid).st = .running ∧
      (t.thr tid).wakeR = some 3)

/-- R202 to R205: mailboxes and messages. mbx.bind of a descriptor that passes takes the first free mailbox of the window, or
answers −1. mbx.peek gives the thread's first mailbox with an unread record, or −1; mbx.take gives its oldest record's address,
or 0; mbx.done adds one to OUT, and traps with 0x09 where nothing is unread; mbx.rel unbinds a mailbox that is empty and has no arrival
waiting, and answers −1 of one with unread records. The last three trap with 0x07 on a mailbox that is not the thread's. An arrival that
waits for a slot is delivered once there is one: IN rises and an idle thread wakes with reason 2. msg.send opens a packet whose
destination passes a store's checks, or appends to the open one, and its .e form closes the packet; another
destination, or a 32nd doubleword, traps with 0x0B, and a first destination that is not 16-byte aligned traps as misaligned. msg.abort
drops an open packet. -/
def Obligations.Mailboxes : Prop :=
  (∀ rd rs1 s s1 s2 s3 a b c f, Ready (.mbxBind rd rs1) s → Gives (readX rs1) s a s1 →
    Gives (readDoublewords a 4) s1 [b, c, f, 0] s2 →
    let n := coreOf s2.cur
    let seat := (s2.thr s2.cur).seat.getD 0
    let ma := (rewriteOwn n b).toNat
    let rb := (rewriteOwn n c).toNat
    ma % 16 = 0 → rb % 256 = 0 → f.toNat ≤ 256 → isPow2 f.toNat = true → bankCore n ma = some n → bankCore n rb = some n →
    s2.banksOwned seat n ma 16 = true → s2.banksOwned seat n rb (256 * f.toNat) = true →
    (ma < rb ∨ rb + 256 * f.toNat ≤ ma) → s2.mailboxAt ma = none →
    let w := s2.mbxWindow seat (clusterOf n)
    (∀ i, i < w.count → s2.mailbox (clusterOf n) (w.base + i) = none →
      (∀ j, j < i → s2.mailbox (clusterOf n) (w.base + j) ≠ none) →
      Gives (writeX rd (BitVec.ofNat 64 (w.base + i))) (s2.setMailbox (clusterOf n) (w.base + i)
        { tid := s2.cur, seat := seat, ma := ma, rbase := rb, nrec := f.toNat }) () s3 →
      Does (.mbxBind rd rs1) s none s3) ∧
    ((∀ i, i < w.count → s2.mailbox (clusterOf n) (w.base + i) ≠ none) →
      Gives (writeX rd (BitVec.ofInt 64 (-1))) s2 () s3 → Does (.mbxBind rd rs1) s none s3)) ∧
  (∀ rd s s1 v, Ready (.mbxPeek rd) s →
    let boxes := (s.cluster (clusterOf (coreOf s.cur))).mailboxes.cells
    (((∀ e ∈ boxes, e.2.tid = s.cur → e.2.inn = e.2.out) ∧ v = BitVec.ofInt 64 (-1)) ∨
      (∃ l e r, boxes = l ++ e :: r ∧ (∀ d ∈ l, d.2.tid = s.cur → d.2.inn = d.2.out) ∧ e.2.tid = s.cur ∧ e.2.inn ≠ e.2.out ∧
        v = BitVec.ofNat 64 e.1)) →
    Gives (writeX rd v) s () s1 → Does (.mbxPeek rd) s none s1) ∧
  (∀ rd rs1 s s1 s2 m x, Ready (.mbxTake rd rs1) s → Gives (readX rs1) s m s1 →
    s1.mailbox (clusterOf (coreOf s1.cur)) m.toNat = some x → x.tid = s1.cur →
    Gives (writeX rd (if x.inn = x.out then 0 else BitVec.ofNat 64 (x.rbase + 256 * (x.out % x.nrec)))) s1 () s2 →
    Does (.mbxTake rd rs1) s none s2) ∧
  (∀ rs1 s s1 m x, Ready (.mbxDone rs1) s → Gives (readX rs1) s m s1 →
    s1.mailbox (clusterOf (coreOf s1.cur)) m.toNat = some x → x.tid = s1.cur → x.inn ≠ x.out →
    Does (.mbxDone rs1) s none (s1.setMailbox (clusterOf (coreOf s1.cur)) m.toNat { x with out := x.out + 1 })) ∧
  (∀ rs1 s s1 m x, Ready (.mbxDone rs1) s → Gives (readX rs1) s m s1 →
    s1.mailbox (clusterOf (coreOf s1.cur)) m.toNat = some x → x.tid = s1.cur → x.inn = x.out →
    Traps (.mbxDone rs1) s 15 0x09 (BitVec.ofNat 64 m.toNat) s) ∧
  (∀ rd rs1 s s1 m, ∀ i ∈ [Instr.mbxTake rd rs1, .mbxDone rs1, .mbxRel rd rs1], Ready i s → Gives (readX rs1) s m s1 →
    (∀ x, s1.mailbox (clusterOf (coreOf s1.cur)) m.toNat = some x → x.tid ≠ s1.cur) →
    Traps i s 15 0x07 m s) ∧
  (∀ rd rs1 s s1 s2 m x, Ready (.mbxRel rd rs1) s → Gives (readX rs1) s m s1 →
    let c := clusterOf (coreOf s1.cur)
    s1.mailbox c m.toNat = some x → x.tid = s1.cur →
    (x.inn = x.out → (∀ e ∈ (s1.cluster c).arrivals, e.ma ≠ x.ma) →
      Gives (writeX rd 0) (unbindMailbox c m.toNat s1) () s2 → Does (.mbxRel rd rs1) s none s2) ∧
    (x.inn ≠ x.out → Gives (writeX rd (BitVec.ofInt 64 (-1))) s1 () s2 → Does (.mbxRel rd rs1) s none s2)) ∧
  (∀ s c m x a, s.mailbox c m = some x → x.room = true →
    (s.cluster c).arrivals.find? (fun e => e.ma == x.ma) = some a →
    ∃ t y, exec (.mailboxArrival c m) s = .next t ∧ t.mailbox c m = some y ∧ y.inn = x.inn + 1 ∧ y.out = x.out ∧
      (t.cluster c).arrivals = (s.cluster c).arrivals.erase a ∧
      ((s.thr x.tid).st = .idle → (t.thr x.tid).st = .running ∧ (t.thr x.tid).wakeR = some 2)) ∧
  (∀ rs1 rs2 s s1 s2 s3 s4 d v h, Ready (.msgSend false rs1 rs2) s → Gives (readX rs1) s d s1 → Gives (readX rs2) s1 v s2 →
    (s2.thr s2.cur).msg = none → d.toNat % 16 = 0 → Gives settleRelease s2 () s3 →
    Gives (homeCheck (s3.agent s3.cur) d needW 8 true) s3 (.ok h) s4 →
    Does (.msgSend false rs1 rs2) s none (s4.modThr s4.cur fun th => { th with
      msg := some { dest := d, home := h.addr, words := [v], issued := 0 } })) ∧
  (∀ rs1 rs2 s s1 s2 s3 s4 s5 d v h, Ready (.msgSend true rs1 rs2) s → Gives (readX rs1) s d s1 → Gives (readX rs2) s1 v s2 →
    (s2.thr s2.cur).msg = none → d.toNat % 16 = 0 → Gives settleRelease s2 () s3 →
    Gives (homeCheck (s3.agent s3.cur) d needW 8 true) s3 (.ok h) s4 →
    Gives (sendPacket { dest := d, home := h.addr, words := [v], issued := 0 }) s4 () s5 →
    Does (.msgSend true rs1 rs2) s none s5) ∧
  (∀ rs1 rs2 s s1 s2 v m, Ready (.msgSend false rs1 rs2) s → (s2.thr s2.cur).msg = some m →
    Gives (readX rs1) s m.dest s1 → Gives (readX rs2) s1 v s2 → m.words.length ≠ 31 →
    Does (.msgSend false rs1 rs2) s none (s2.modThr s2.cur fun th => { th with
      msg := some { m with words := m.words ++ [v] } })) ∧
  (∀ rs1 rs2 s s1 s2 s3 v m, Ready (.msgSend true rs1 rs2) s → (s2.thr s2.cur).msg = some m →
    Gives (readX rs1) s m.dest s1 → Gives (readX rs2) s1 v s2 → m.words.length ≠ 31 →
    Gives (sendPacket { m with words := m.words ++ [v] }) s2 () s3 → Does (.msgSend true rs1 rs2) s none s3) ∧
  (∀ e rs1 rs2 s s1 s2 d v m, Ready (.msgSend e rs1 rs2) s → Gives (readX rs1) s d s1 → Gives (readX rs2) s1 v s2 →
    (s2.thr s2.cur).msg = some m → (d ≠ m.dest ∨ m.words.length = 31) → Traps (.msgSend e rs1 rs2) s 15 0x0B d s) ∧
  (∀ e rs1 rs2 s s1 s2 d v, Ready (.msgSend e rs1 rs2) s → Gives (readX rs1) s d s1 → Gives (readX rs2) s1 v s2 →
    (s2.thr s2.cur).msg = none → d.toNat % 16 ≠ 0 → Traps (.msgSend e rs1 rs2) s 4 0 d s) ∧
  (∀ s, Ready .msgAbort s → Does .msgAbort s none (s.modThr s.cur fun th => { th with msg := none }))

/-! ## Streams and copies -/

/-- R147 to R153, R162: stream bindings, on a compute core. st.bind of a descriptor that passes releases, takes the first free slot
with nothing arrived and leaves zero in the register; it traps with 0x01 where the register is no stream register or is bound, with
0x02 where no slot is free and with 0x03 on a descriptor that does not pass. st.rel frees the slot and leaves zero in the
register; st.pos gives the element number; both trap with 0x01 where the register is no stream register or is not bound. The next
element of a read binding arrives, its value extended as the format says, and pays a token for every 32 bytes; the first element
that a slot has pushed and not sent is sent, once the thread's earlier stores to its destination have been. -/
def Obligations.Streams : Prop :=
  (∀ xs rs1 s s1 s2 a slot b strides counts fmt, Ready (.stBind xs rs1) s → coreOf s.cur < 2048 → 24 ≤ xs.toNat →
    Gives (readX rs1) s a s1 → (s1.thr s1.cur).boundSlot xs = none → slot < 4 →
    ((s1.thr s1.cur).binds.get {} slot).reg = 0 → (∀ j, j < slot → ((s1.thr s1.cur).binds.get {} j).reg ≠ 0) →
    Gives (readDoublewords a 4) s1 [b, strides, counts, fmt] s2 →
    let esz := 2 ^ (fmt.toNat % 4)
    let base := rewriteOwn (coreOf s2.cur) b
    let good := fmt.toNat < 8 ∧ (fmt.toNat % 4 = 3 → fmt.toNat < 4) ∧ base.toNat % esz = 0 ∧ strides.toNat % 2 ^ 32 % esz = 0 ∧
      strides.toNat / 2 ^ 32 % esz = 0 ∧ counts.toNat % 2 ^ 32 * (counts.toNat / 2 ^ 32) ≠ 0
    (good → ∀ s3, Gives pushRelease s2 () s3 → Does (.stBind xs rs1) s none (s3.modThr s3.cur fun th => { th with
      binds := th.binds.set slot
        { base := base, strides := strides, counts := counts, fmt := fmt, reg := xs, next := 0, arrived := [] }
      regs := th.regs.set xs.toNat 0 })) ∧
    (¬ good → Traps (.stBind xs rs1) s 10 0x03 a (keepAccesses s2 s))) ∧
  (∀ xs rs1 s, Ready (.stBind xs rs1) s → coreOf s.cur < 2048 → xs.toNat < 24 →
    Traps (.stBind xs rs1) s 10 0x01 (xs.zeroExtend 64) s) ∧
  (∀ xs rs1 s s1 a, Ready (.stBind xs rs1) s → coreOf s.cur < 2048 → 24 ≤ xs.toNat → Gives (readX rs1) s a s1 →
    ((s1.thr s1.cur).boundSlot xs ≠ none → Traps (.stBind xs rs1) s 10 0x01 (xs.zeroExtend 64) s) ∧
    ((s1.thr s1.cur).boundSlot xs = none → (∀ j, j < 4 → ((s1.thr s1.cur).binds.get {} j).reg ≠ 0) →
      Traps (.stBind xs rs1) s 10 0x02 (xs.zeroExtend 64) s)) ∧
  (∀ xs s slot b, Ready (.stRel xs) s → coreOf s.cur < 2048 → 24 ≤ xs.toNat → (s.thr s.cur).boundSlot xs = some (slot, b) →
    Does (.stRel xs) s none ((addPf (clusterOf (coreOf s.cur)) 1 16 b.values s).modThr s.cur fun th =>
      { th with binds := th.binds.erase slot, regs := th.regs.set xs.toNat 0 })) ∧
  (∀ rd xs s s1 slot b, Ready (.stPos rd xs) s → coreOf s.cur < 2048 → 24 ≤ xs.toNat →
    (s.thr s.cur).boundSlot xs = some (slot, b) → Gives (writeX rd (BitVec.ofNat 64 b.next)) s () s1 →
    Does (.stPos rd xs) s none s1) ∧
  (∀ rd xs s, ∀ i ∈ [Instr.stRel xs, .stPos rd xs], Ready i s → coreOf s.cur < 2048 →
    (xs.toNat < 24 ∨ (s.thr s.cur).boundSlot xs = none) → Traps i s 10 0x01 (xs.zeroExtend 64) s) ∧
  (∀ s s1 tid slot b v, (s.thr tid).binds.get {} slot = b → 28 ≤ b.reg.toNat → b.exh = false → coreOf tid < 2048 →
    (∀ e ∈ b.arrived, ∃ w, e = .value w) → b.arrived.length < 32 → (s.thr tid).refills = true →
    let k := b.next + b.arrived.length
    let c := clusterOf (coreOf tid)
    k < b.counts.toNat % 2 ^ 32 * (b.counts.toNat / 2 ^ 32) → s.clusterHeld c = false →
    s.heldBy c (b.addr k).toNat b.esz = none →
    Gives (metered { arb := copyArb c, bucket := (s.agent tid).seat, cost := if k * b.esz % 32 = 0 then 1 else 0,
                     line := (b.addr k).toNat + 1, who := copyWho tid (18 + slot) }
      (engineRead (s.agent tid) (b.addr k) b.esz)) s (.ok v) s1 →
    exec (.streamElementArrival tid slot) s = .next (s1.modThr tid fun th => { th with
      binds := th.binds.set slot { b with arrived := b.arrived ++
        [.value (if b.fmt.getLsbD 2 then BitVec.ofInt 64 (signExtend v (8 * b.esz)) else BitVec.ofNat 64 v)] },
      waiting := false })) ∧
  (∀ s s1 tid slot l r rest, (s.core (coreOf tid)).rstores = l ++ r :: rest →
    r.tid = tid → r.slot = some slot → r.sent = false → (∀ q ∈ l, q.tid = tid → q.slot = some slot → q.sent = true) →
    (∀ q ∈ l, q.tid = tid → q.dest = r.dest → q.sent = true) → Gives (sendStore (coreOf tid) l.length r) s () s1 →
    exec (.streamPushSend tid slot) s = .next s1) ∧
  (∀ s tid slot l r q l' rest, (s.core (coreOf tid)).rstores = l ++ q :: l' ++ r :: rest →
    r.tid = tid → r.slot = some slot → r.sent = false →
    (∀ p ∈ l ++ q :: l', p.tid = tid → p.slot = some slot → p.sent = true) →
    q.tid = tid → q.dest = r.dest → q.sent = false → exec (.streamPushSend tid slot) s = .next s)

/-- R154 to R159, R162, R167: copy channels and gather engines, on a compute core. cp.go and gt.go of a descriptor that passes release
and start a free engine, a channel within the seat's count, and give 0; a busy one gives −1, as does a channel beyond the
count. cp.wait drops the destination's blocks, frees an engine that is done or stopped and gives the bytes landed, or gives what the
engine's end left it; it gives −1 of an engine that is not the seat's, traps with 0x08 of a faulted one and waits for an active
one. cp.stop stops and frees an engine of the seat, and does nothing to another; cp.stat gives its status. The three trap with
0x06 on a number above 17. The next packet of a channel, or element of a gather engine, lands element by element; the last or a
faulting one leaves the engine ending, and an ending engine writes its completion record and is then in its last state. The
expander's work on a block ends with the block in the expander. -/
def Obligations.Copies : Prop :=
  (∀ rd rs1 rs2 s s1 s2 s3 a e b d l m, Ready (.cpGo rd rs1 rs2) s → coreOf s.cur < 2048 → Gives (readX rs1) s a s1 →
    Gives (readX rs2) s1 e s2 → e.toNat ≤ 15 → Gives (readDoublewords a 4) s2 [b, d, l, m] s3 →
    let n := coreOf s3.cur
    let c := clusterOf n
    let seat := (s3.thr s3.cur).seat.getD 0
    let src := rewriteOwn n b
    let dst := rewriteOwn n d
    let mbx := rewriteOwn n m
    src.toNat % 8 = 0 → dst.toNat % 8 = 0 → l.toNat < 2 ^ 32 → l ≠ 0 → l.toNat % 8 = 0 → mbx.toNat % 16 = 0 →
    s3.badBanks seat n dst.toNat l.toNat = false →
    ((s3.engine c e.toNat).st = .free → s3.channelsHeld seat c < s3.cpMax seat c → ∀ s4 s5, Gives pushRelease s3 () s4 →
      Gives (writeX rd 0) (s4.setEngine c e.toNat {
        src := src, dst := dst, len := l.toNat, mbx := mbx, st := .active,
        seat := seat, tid := s4.cur, deal := (s4.thr s4.cur).deal.getD 0, hand := (s4.thr s4.cur).hand.toNat }) () s5 →
      Does (.cpGo rd rs1 rs2) s none s5) ∧
    (((s3.engine c e.toNat).st ≠ .free ∨ s3.cpMax seat c ≤ s3.channelsHeld seat c) → ∀ s4,
      Gives (writeX rd (BitVec.ofInt 64 (-1))) s3 () s4 → Does (.cpGo rd rs1 rs2) s none s4)) ∧
  (∀ rd rs1 rs2 s s1 s2 s3 a g b t d f m, Ready (.gtGo rd rs1 rs2) s → coreOf s.cur < 2048 → Gives (readX rs1) s a s1 →
    Gives (readX rs2) s1 g s2 → g.toNat ≤ 1 → Gives (readDoublewords a 6) s2 [b, t, d, f, m, 0] s3 →
    let n := coreOf s3.cur
    let c := clusterOf n
    let seat := (s3.thr s3.cur).seat.getD 0
    let idx := rewriteOwn n b
    let dst := rewriteOwn n d
    let mbx := rewriteOwn n m
    let esz := 2 ^ (f.toNat / 2 ^ 32 % 4)
    let len := f.toNat % 2 ^ 32
    idx.toNat % (if f.getLsbD 34 then 8 else 4) = 0 → dst.toNat % esz = 0 → f.toNat < 2 ^ 35 → len ≠ 0 → mbx.toNat % 16 = 0 →
    s3.badBanks seat n dst.toNat (len * esz) = false →
    ((s3.engine c (16 + g.toNat)).st = .free → ∀ s4 s5, Gives pushRelease s3 () s4 →
      Gives (writeX rd 0) (s4.setEngine c (16 + g.toNat) {
        src := idx, tbl := rewriteOwn n t, dst := dst, len := len,
        esz := esz, iw64 := f.getLsbD 34, mbx := mbx, st := .active, seat := seat, tid := s4.cur,
        deal := (s4.thr s4.cur).deal.getD 0, hand := (s4.thr s4.cur).hand.toNat }) () s5 →
      Does (.gtGo rd rs1 rs2) s none s5) ∧
    ((s3.engine c (16 + g.toNat)).st ≠ .free → ∀ s4, Gives (writeX rd (BitVec.ofInt 64 (-1))) s3 () s4 →
      Does (.gtGo rd rs1 rs2) s none s4)) ∧
  (∀ rd rs1 s s1 e, Ready (.cpWait rd rs1) s → coreOf s.cur < 2048 → Gives (readX rs1) s e s1 → e.toNat ≤ 17 →
    let c := clusterOf (coreOf s1.cur)
    let x := s1.engine c e.toNat
    let mine := x.st ≠ .free ∧ x.seat = (s1.thr s1.cur).seat.getD 0
    (∀ v dst bytes s2 s3, (s1.thr s1.cur).cpAns = some (v, dst, bytes) → Gives (dropRange dst bytes) s1 () s2 →
      Gives (writeX rd v) s2 () s3 → Does (.cpWait rd rs1) s none s3) ∧
    ((s1.thr s1.cur).cpAns = none → ¬ mine → ∀ s2, Gives (writeX rd (BitVec.ofInt 64 (-1))) s1 () s2 →
      Does (.cpWait rd rs1) s none s2) ∧
    ((s1.thr s1.cur).cpAns = none → mine → (x.st = .done ∨ x.st = .stopped) → ∀ s2 s3,
      Gives (dropRange x.dst.toNat (x.bytes e.toNat)) s1 () s2 →
      Gives (writeX rd (BitVec.ofNat 64 x.landed)) (freeEngine c e.toNat s2) () s3 → Does (.cpWait rd rs1) s none s3) ∧
    ((s1.thr s1.cur).cpAns = none → mine → x.st = .faulted → Traps (.cpWait rd rs1) s 10 0x08 e s) ∧
    ((s1.thr s1.cur).cpAns = none → mine → x.st = .active → ∃ t, exec (.cpWait rd rs1) s = .next t ∧
      (t.thr s.cur).cpWait = some e.toNat ∧ (t.thr s.cur).pc = (s.thr s.cur).pc ∧ (t.thr s.cur).waiting = true)) ∧
  (∀ rs1 s s1 e, Ready (.cpStop rs1) s → coreOf s.cur < 2048 → Gives (readX rs1) s e s1 → e.toNat ≤ 17 →
    let c := clusterOf (coreOf s1.cur)
    let x := s1.engine c e.toNat
    (¬ (x.st ≠ .free ∧ x.seat = (s1.thr s1.cur).seat.getD 0) → Does (.cpStop rs1) s none s1) ∧
    (x.st ≠ .free → x.seat = (s1.thr s1.cur).seat.getD 0 → ∀ s2,
      Gives (completeEngine c e.toNat { x with st := .stopped }) (s1.setEngine c e.toNat { x with st := .stopped }) () s2 →
      Does (.cpStop rs1) s none (freeEngine c e.toNat s2) ∧ ((freeEngine c e.toNat s2).engine c e.toNat).st = .free)) ∧
  (∀ rd rs1 s s1 s2 e, Ready (.cpStat rd rs1) s → coreOf s.cur < 2048 → Gives (readX rs1) s e s1 → e.toNat ≤ 17 →
    let x := s1.engine (clusterOf (coreOf s1.cur)) e.toNat
    Gives (writeX rd (BitVec.ofNat 64 (if x.st = .free then 0 else if x.seat = (s1.thr s1.cur).seat.getD 0 then
      x.landed * 2 ^ 32 + (if x.side then 2 ^ 16 else 0) + x.sub.toNat * 2 ^ 8 + x.st.code else 5))) s1 () s2 →
    Does (.cpStat rd rs1) s none s2) ∧
  (∀ rd rs1 s s1 e, ∀ i ∈ [Instr.cpWait rd rs1, .cpStop rs1, .cpStat rd rs1], Ready i s → coreOf s.cur < 2048 →
    Gives (readX rs1) s e s1 → 17 < e.toNat → Traps i s 10 0x06 e s) ∧
  (∀ s s1 c e r,
    let x := s.engine c e
    let ag := { s.agent x.tid with seat := x.seat }
    let esz := if e < 16 then 8 else x.esz
    let n := if e < 16 then min (256 - x.landed % 256) (x.bytes e - x.landed) else x.esz
    x.st = .active → e ≤ 17 → s.clusterHeld c = false → x.ending = none →
    Gives (landAll (fun k => if e < 16 then
        copyElement { ag with packet := some (if k % 32 = 0 then min 256 (x.bytes e - 8 * k) else 0) } c e (8 * k)
      else gatherElement ag c e k) x.seat c e esz
      ((List.range (n / esz)).map fun i => x.landed / esz + i)) s r s1 →
    let y := s1.engine c e
    let z : Engine := match r with
      | .fault side sub va => { y with ending := some .faulted, side := side, sub := sub, faddr := va }
      | .ok => if y.landed = y.bytes e then { y with ending := some .done } else y
    exec (.copyPacketLanded c e) s = .next (recheckCluster c (s1.setEngine c e z))) ∧
  (∀ s s1 c e st,
    let x := s.engine c e
    let y : Engine := { x with st := st, ending := none }
    x.st = .active → e ≤ 17 → s.clusterHeld c = false → x.ending = some st → Gives (completeEngine c e y) s () s1 →
    exec (.copyPacketLanded c e) s = .next (recheckCluster c (s1.setEngine c e y))) ∧
  (∀ (s : State) c j, (s.cluster c).cmJob = some j → j.failed = none → j.writes = [] → j.reads = [] →
    ∃ t d, exec (.cmBlockFill c j.block) s = .next t ∧ (t.cluster c).cmJob = none ∧ (j.block, d) ∈ (t.cluster c).cmBlocks)

/-! ## The lane pool -/

/-- R249 to R252, R258, R271: claims, on a compute core. vclaim answers −2 for a bad request, −3 while another thread holds the
claim, −1 where the reservation is below MIN, and else how many groups the renegotiation gives once they reach MIN, with VL at their
full length, and 0 without a claim where they are none; below MIN it waits with the groups it has got. vrel of the owner ends the
claim, of no claim does nothing, and of another's traps with 0x01. vlen sets and gives VL, rounded down to 8 within the grant.
vfence goes on once the owner's commands have completed, with its r flag after a renegotiation, and at a safe point with a stop
pending stores the live registers and ends the claim. vrel and vfence wait while a command of the owner's queue is not complete. A
move decided at a trick boundary is made once the commands before it have completed: the bytes of positions that stayed in the
claim stay, and all others are zero. -/
def Obligations.VectorClaims : Prop :=
  (∀ rd rs1 s s1 q, Ready (.vclaim rd rs1) s → coreOf s.cur < 2048 → Gives (readX rs1) s q s1 →
    let t := s1.cur
    let n := coreOf t
    let hi := q.toNat % 16
    let lo := q.toNat / 16 % 16
    let c := s1.claim n
    let rsv := s1.reserved (octetOf n) (s1.thr t).deal (s1.thr t).hand.toNat
    let u := s1.modClaim n fun c => { c with owner := some t, minG := lo, maxG := hi, waiting := true }
    let new := rebalance n (c.decided.take hi) u
    let moves := new ≠ c.decided
    ((8 < hi ∨ hi < lo) → ∀ s2, Gives (writeX rd (BitVec.ofInt 64 (-2))) s1 () s2 → Does (.vclaim rd rs1) s none s2) ∧
    (hi ≤ 8 → lo ≤ hi → (∃ o, c.owner = some o ∧ o ≠ t) → ∀ s2, Gives (writeX rd (BitVec.ofInt 64 (-3))) s1 () s2 →
      Does (.vclaim rd rs1) s none s2) ∧
    (hi ≤ 8 → lo ≤ hi → (c.owner = none ∨ c.owner = some t) → rsv.length < lo → ∀ s2,
      Gives (writeX rd (BitVec.ofInt 64 (-1))) s1 () s2 → Does (.vclaim rd rs1) s none s2) ∧
    (hi ≤ 8 → lo ≤ hi → (c.owner = none ∨ c.owner = some t) → lo ≤ rsv.length → c.fault = none →
      (moves → c.queue = []) → lo ≤ new.length → new ≠ [] → ∀ s2, Gives (writeX rd (BitVec.ofNat 64 new.length))
        ((if moves then moveGroups n new u else u).modClaim n fun c => { c with
          waiting := false, vl := 512 * new.length }) () s2 → Does (.vclaim rd rs1) s none s2) ∧
    (hi ≤ 8 → lo = 0 → (c.owner = none ∨ c.owner = some t) → c.fault = none → (moves → c.queue = []) → new = [] →
      c.queue = [] → ∀ s2, Gives (writeX rd 0) (endClaim n (if moves then moveGroups n new u else u)) () s2 →
      Does (.vclaim rd rs1) s none s2) ∧
    (hi ≤ 8 → lo ≤ hi → (c.owner = none ∨ c.owner = some t) → lo ≤ rsv.length → c.fault = none →
      (moves → c.queue = []) → new.length < lo → (new = [] → c.queue = []) → ∃ x, exec (.vclaim rd rs1) s = .next x ∧ (x.claim n).waiting = true ∧ (x.claim n).minG = lo ∧
        (x.claim n).maxG = hi ∧ (x.claim n).decided = new ∧ (x.thr t).pc = (s1.thr t).pc)) ∧
  (∀ s, Ready .vrel s → coreOf s.cur < 2048 → (s.claim (coreOf s.cur)).owner = none → Does .vrel s none s) ∧
  (∀ s, Ready .vrel s → coreOf s.cur < 2048 → (s.claim (coreOf s.cur)).owner = some s.cur →
    (s.claim (coreOf s.cur)).fault = none → (s.claim (coreOf s.cur)).queue = [] →
    Does .vrel s none (s.modCore (coreOf s.cur) fun c => { c with claim := {} })) ∧
  (∀ s o, Ready .vrel s → coreOf s.cur < 2048 → (s.claim (coreOf s.cur)).owner = some o → o ≠ s.cur →
    Traps .vrel s 11 0x01 (s.vgrant (coreOf s.cur)) s) ∧
  (∀ rd rs1 s s1 s2 v, Ready (.vlen rd rs1) s → coreOf s.cur < 2048 → (s.claim (coreOf s.cur)).owner = some s.cur →
    (s.claim (coreOf s.cur)).fault = none → Gives (readX rs1) s v s1 →
    let n := coreOf s1.cur
    let l := min v.toNat (512 * (s1.claim n).decided.length)
    Gives (writeX rd (BitVec.ofNat 64 (l - l % 8))) (s1.modClaim n fun c => { c with vl := l - l % 8 }) () s2 →
    Does (.vlen rd rs1) s none s2) ∧
  (∀ r sp rs1 rs2 s s1 s2 mask a, Ready (.vfence r sp rs1 rs2) s → coreOf s.cur < 2048 →
    (if sp then Gives (readX rs1) s mask s1 ∧ Gives (readX rs2) s1 a s2 else s2 = s) →
    let n := coreOf s2.cur
    let c := s2.claim n
    let th := s2.thr s2.cur
    let stopping := sp = true ∧ th.kn5 = true ∧ th.st = .stopping
    let new := rebalance n c.decided s2
    let u := if r = true then (if new = c.decided then settleMoves n s2 else moveGroups n new s2) else s2
    (c.owner ≠ some s2.cur → ¬ stopping → Does (.vfence r sp rs1 rs2) s none s2) ∧
    (c.owner ≠ some s2.cur → stopping →
      Does (.vfence r sp rs1 rs2) s none (s2.modThr s2.cur fun th => { th with safeStop := true })) ∧
    (c.owner = some s2.cur → c.fault = none → c.queue = [] → ¬ stopping → Does (.vfence r sp rs1 rs2) s none u) ∧
    (c.owner = some s2.cur → c.fault = none → c.queue = [] → stopping → ∀ s3, Gives (safePoint mask a) u () s3 →
      Does (.vfence r sp rs1 rs2) s none (s3.modThr s3.cur fun th => { th with safeStop := true })) ∧
    (c.owner = some s2.cur → c.fault = none → c.queue ≠ [] → Waits (.vfence r sp rs1 rs2) s)) ∧
  (∀ s, Ready .vrel s → coreOf s.cur < 2048 → (s.claim (coreOf s.cur)).owner = some s.cur →
    (s.claim (coreOf s.cur)).fault = none → (s.claim (coreOf s.cur)).queue ≠ [] → Waits .vrel s) ∧
  (∀ s core m l, (s.claim core).moves = m :: l → m.ahead = 0 →
    ∃ t, exec (.laneGroupMove core) s = .next t ∧ (t.claim core).groups = m.groups ∧ (t.claim core).moves = l ∧
      (t.claim core).vl = (s.claim core).vl ∧ ∀ r k, k < 4096 → (t.claim core).byte r k =
        if k < 512 * samePositions (s.claim core).groups m.groups then (s.claim core).byte r k else 0) ∧
  (∀ s core m l, (s.claim core).moves = m :: l → m.ahead ≠ 0 → exec (.laneGroupMove core) s = .next s)

/-- R252, R253, R255, R266, R268: the vector forms on a compute core. Each that pushes a command takes the queue's next place with
its operands, VL and rounding mode, where the thread holds the claim and the queue has room; vopa traps with 0x02 where its group of
eight registers is not aligned or holds a source. vmvx gives an element or 0, vmpop the number of set mask bits and vmfirst the
first of them or −1, once the queue is empty; while it is not they wait. Every one of the forms traps with 0x01 without the
claim, and with a held fault as that fault. -/
def Obligations.VectorCommands : Prop :=
  (∀ t vd a b, Pushes (.vfadd t vd a b) none none ∧ Pushes (.vfsub t vd a b) none none ∧ Pushes (.vfmul t vd a b) none none ∧
    Pushes (.vfma t vd a b) none none ∧ Pushes (.vfms t vd a b) none none ∧ Pushes (.vfnms t vd a b) none none ∧
    Pushes (.vfmin t vd a b) none none ∧ Pushes (.vfmax t vd a b) none none ∧ Pushes (.vfeq t vd a b) none none ∧
    Pushes (.vflt t vd a b) none none ∧ Pushes (.vfle t vd a b) none none ∧ Pushes (.vfsel t vd a b) none none) ∧
  (∀ z n vd a b, Pushes (.vadd z n vd a b) none none ∧ Pushes (.vsub z n vd a b) none none ∧
    Pushes (.vmul z n vd a b) none none ∧ Pushes (.vadds z n vd a b) none none ∧ Pushes (.vsubs z n vd a b) none none ∧
    Pushes (.vmin z n vd a b) none none ∧ Pushes (.vmax z n vd a b) none none ∧ Pushes (.vand z n vd a b) none none ∧
    Pushes (.vor z n vd a b) none none ∧ Pushes (.vxor z n vd a b) none none ∧ Pushes (.vsll z n vd a b) none none ∧
    Pushes (.vsr z n vd a b) none none ∧ Pushes (.veq z n vd a b) none none ∧ Pushes (.vlt z n vd a b) none none ∧
    Pushes (.vperm z n vd a b) none none ∧ Pushes (.vmv z n vd a) none none) ∧
  (∀ dst rtz src vd a, Pushes (.vcvt dst rtz src vd a) none none) ∧
  (∀ t vd a rs2, Pushes (.vscale t vd a rs2) none (some rs2) ∧ Pushes (.vscalea t vd a rs2) none (some rs2) ∧
    Pushes (.vexp2 t vd a) none none ∧ Pushes (.vlog2 t vd a) none none ∧ Pushes (.vrcp t vd a) none none ∧
    Pushes (.vrsqrt t vd a) none none) ∧
  (∀ t vd a b, Pushes (.vredsum t vd a) none none ∧ Pushes (.vredmax t vd a) none none ∧
    Pushes (.vredmin t vd a) none none ∧ Pushes (.vdot t vd a b) none none) ∧
  (∀ t vd a b, vd.toNat % 8 = 0 → (a.toNat < vd.toNat ∨ vd.toNat + 8 ≤ a.toNat) →
    (b.toNat < vd.toNat ∨ vd.toNat + 8 ≤ b.toNat) → Pushes (.vopa t vd a b) none none) ∧
  (∀ t vd a b s, Ready (.vopa t vd a b) s → coreOf s.cur < 2048 → (s.claim (coreOf s.cur)).owner = some s.cur →
    (s.claim (coreOf s.cur)).fault = none →
    (vd.toNat % 8 ≠ 0 ∨ vd.toNat ≤ a.toNat ∧ a.toNat < vd.toNat + 8 ∨ vd.toNat ≤ b.toNat ∧ b.toNat < vd.toNat + 8) →
    Traps (.vopa t vd a b) s 11 0x02 (vd.zeroExtend 64) s) ∧
  (∀ z vd rs1 rs2, Pushes (.vld z vd rs1) (some rs1) none ∧ Pushes (.vlds z vd rs1 rs2) (some rs1) (some rs2) ∧
    Pushes (.vldx z vd rs1 rs2) (some rs1) none ∧ Pushes (.vst z vd rs1) (some rs1) none ∧
    Pushes (.vsts z vd rs1 rs2) (some rs1) (some rs2)) ∧
  (∀ z n vd rs1 rs2, Pushes (.vbcast z n vd rs1) (some rs1) none ∧ Pushes (.vins z n vd rs1 rs2) (some rs1) (some rs2)) ∧
  (∀ z n rd vs1 rs2 s s1 s2 i, Ready (.vmvx z n rd vs1 rs2) s → coreOf s.cur < 2048 →
    (s.claim (coreOf s.cur)).owner = some s.cur → (s.claim (coreOf s.cur)).fault = none → Gives (readX rs2) s i s1 →
    let c := s1.claim (coreOf s1.cur)
    let w := szSize z
    let v := if i.toNat < c.vl / w then c.elem vs1.toNat i.toNat w else 0
    c.queue = [] → Gives (writeX rd (if n then BitVec.ofNat 64 v else BitVec.ofInt 64 (signExtend v (8 * w)))) s1 () s2 →
    Does (.vmvx z n rd vs1 rs2) s none s2) ∧
  (∀ z n rd vs1 s s1, Ready (.vmpop z n rd vs1) s → coreOf s.cur < 2048 →
    let c := s.claim (coreOf s.cur)
    c.owner = some s.cur → c.fault = none → c.queue = [] →
    Gives (writeX rd (BitVec.ofNat 64 ((List.range (c.vl / szSize z)).countP fun e => c.bit vs1.toNat e))) s () s1 →
    Does (.vmpop z n rd vs1) s none s1) ∧
  (∀ z n rd vs1 s s1 v, Ready (.vmfirst z n rd vs1) s → coreOf s.cur < 2048 →
    let c := s.claim (coreOf s.cur)
    c.owner = some s.cur → c.fault = none → c.queue = [] →
    (((∀ e, e < c.vl / szSize z → c.bit vs1.toNat e = false) ∧ v = BitVec.ofInt 64 (-1)) ∨
      ∃ e, e < c.vl / szSize z ∧ c.bit vs1.toNat e = true ∧ (∀ d, d < e → c.bit vs1.toNat d = false) ∧ v = BitVec.ofNat 64 e) →
    Gives (writeX rd v) s () s1 → Does (.vmfirst z n rd vs1) s none s1) ∧
  (∀ z n rd vs1 rs2, NeedsClaim (.vmvx z n rd vs1 rs2) ∧ NeedsClaim (.vmpop z n rd vs1) ∧ NeedsClaim (.vmfirst z n rd vs1)) ∧
  (∀ z n rd vs1 rs2 s s1 i, ∀ f ∈ [Instr.vmvx z n rd vs1 rs2, .vmpop z n rd vs1, .vmfirst z n rd vs1], Ready f s →
    coreOf s.cur < 2048 → Gives (readX rs2) s i s1 → (s.claim (coreOf s.cur)).owner = some s.cur →
    (s.claim (coreOf s.cur)).fault = none → (s.claim (coreOf s.cur)).queue ≠ [] → Waits f s)

/-- R241, R253 to R255, R259, R260, R262, R264 to R268: what a completed command leaves in the vector registers of the claim: in its destination, element by
element up to VL, what the form computes of the registers as they were, and every other byte as it was, with the flags of all its elements; a compare
leaves mask bits, a reduction element 0, vopa eight registers; a load the bytes that its elements' checked reads give, in ascending order, and a store
writes its register's elements where theirs lead. -/
def Obligations.VectorResults : Prop :=
  (∀ z n (vd a b : Reg),
    let w := szSize z
    let bits := 8 * szSize z
    Computes (.vadd z n vd a b) vd w (fun c _ e => (c.elem a.toNat e w + c.elem b.toNat e w) % 2 ^ bits) ∧
    Computes (.vsub z n vd a b) vd w (fun c _ e => (c.elem a.toNat e w + 2 ^ bits - c.elem b.toNat e w) % 2 ^ bits) ∧
    Computes (.vmul z n vd a b) vd w (fun c _ e => c.elem a.toNat e w * c.elem b.toNat e w % 2 ^ bits) ∧
    Computes (.vand z n vd a b) vd w (fun c _ e => c.elem a.toNat e w &&& c.elem b.toNat e w) ∧
    Computes (.vor z n vd a b) vd w (fun c _ e => c.elem a.toNat e w ||| c.elem b.toNat e w) ∧
    Computes (.vxor z n vd a b) vd w (fun c _ e => c.elem a.toNat e w ^^^ c.elem b.toNat e w) ∧
    Computes (.vsll z n vd a b) vd w (fun c _ e => c.elem a.toNat e w * 2 ^ (c.elem b.toNat e w % bits) % 2 ^ bits) ∧
    Computes (.vperm z n vd a b) vd w
      (fun c q e => if c.elem b.toNat e w < q.vl / w then c.elem a.toNat (c.elem b.toNat e w) w else 0) ∧
    Computes (.vmv z n vd a) vd w (fun c _ e => c.elem a.toNat e w) ∧
    Computes (.vbcast z n vd a) vd w (fun _ q _ => q.x1.toNat % 2 ^ bits)) ∧
  (∀ z n (vd a b : Reg),
    let w := szSize z
    let bits := 8 * szSize z
    let x := fun (c : Claim) (e : Nat) => intVal (!n) bits (c.elem a.toNat e w)
    let y := fun (c : Claim) (e : Nat) => intVal (!n) bits (c.elem b.toNat e w)
    let m := fun (q : VCmd) => q.vl / w
    ElemsWithFlags (.vadds z n vd a b) vd w m (fun c _ e => saturateTo (!n) bits (x c e + y c e)) ∧
    ElemsWithFlags (.vsubs z n vd a b) vd w m (fun c _ e => saturateTo (!n) bits (x c e - y c e)) ∧
    Computes (.vmin z n vd a b) vd w (fun c _ e => if x c e ≤ y c e then c.elem a.toNat e w else c.elem b.toNat e w) ∧
    Computes (.vmax z n vd a b) vd w (fun c _ e => if y c e < x c e then c.elem a.toNat e w else c.elem b.toNat e w) ∧
    Computes (.vsr z n vd a b) vd w (fun c _ e => intEnc bits (x c e / ((2 ^ (c.elem b.toNat e w % bits) : Nat) : Int))) ∧
    MaskWithFlags (.veq z n vd a b) vd m (fun c _ e => (c.elem a.toNat e w == c.elem b.toNat e w, 0)) ∧
    MaskWithFlags (.vlt z n vd a b) vd m (fun c _ e => (decide (x c e < y c e), 0)) ∧
    CompletesAs (.vins z n vd a b) (fun _ _ => 0) (fun c q d =>
      (q.x2.toNat < q.vl / w → d.elem vd.toNat q.x2.toNat w = q.x1.toNat % 2 ^ bits ∧
        ∀ r k, k < 4096 → (r ≠ vd.toNat ∨ k < q.x2.toNat * w ∨ (q.x2.toNat + 1) * w ≤ k) → d.byte r k = c.byte r k) ∧
      (q.vl / w ≤ q.x2.toNat → d.vregs = c.vregs)) ∧
    VectorLoads (.vld z vd a) vd w (fun _ q e => rewriteOwn (coreOf q.tid) q.x1 + BitVec.ofNat 64 (e * w)) ∧
    VectorLoads (.vlds z vd a b) vd w (fun _ q e => rewriteOwn (coreOf q.tid) q.x1 + BitVec.ofNat 64 e * q.x2) ∧
    VectorLoads (.vldx z vd a b) vd w (fun c q e => rewriteOwn (coreOf q.tid) q.x1 +
      BitVec.ofInt 64 (signExtend (c.elem b.toNat e w) bits * (w : Int))) ∧
    VectorStores (.vst z vd a) vd w (fun _ q e => rewriteOwn (coreOf q.tid) q.x1 + BitVec.ofNat 64 (e * w)) ∧
    VectorStores (.vsts z vd a b) vd w (fun _ q e => rewriteOwn (coreOf q.tid) q.x1 + BitVec.ofNat 64 e * q.x2)) ∧
  (∀ t (vd a b : Reg),
    let w := ftySize t
    let m := fun (q : VCmd) => q.vl / w
    let x := fun (c : Claim) (e : Nat) => c.elem a.toNat e w
    let y := fun (c : Claim) (e : Nat) => c.elem b.toNat e w
    let z := fun (c : Claim) (e : Nat) => c.elem vd.toNat e w
    let i := fun (c : Claim) (e : Nat) => intVal true 32 (c.elem a.toNat e 4)
    ElemsWithFlags (.vfadd t vd a b) vd w m (fun c q e => (fmtOf t).add (rtzOf q.rm) (x c e) (y c e)) ∧
    ElemsWithFlags (.vfsub t vd a b) vd w m (fun c q e => (fmtOf t).sub (rtzOf q.rm) (x c e) (y c e)) ∧
    ElemsWithFlags (.vfmul t vd a b) vd w m (fun c q e => (fmtOf t).mul (rtzOf q.rm) (x c e) (y c e)) ∧
    ElemsWithFlags (.vfma t vd a b) vd w m (fun c q e => (fmtOf t).fma (rtzOf q.rm) false false (x c e) (y c e) (z c e)) ∧
    ElemsWithFlags (.vfms t vd a b) vd w m (fun c q e => (fmtOf t).fma (rtzOf q.rm) false true (x c e) (y c e) (z c e)) ∧
    ElemsWithFlags (.vfnms t vd a b) vd w m (fun c q e => (fmtOf t).fma (rtzOf q.rm) true false (x c e) (y c e) (z c e)) ∧
    ElemsWithFlags (.vfmin t vd a b) vd w m (fun c _ e => (fmtOf t).minMax false (x c e) (y c e)) ∧
    ElemsWithFlags (.vfmax t vd a b) vd w m (fun c _ e => (fmtOf t).minMax true (x c e) (y c e)) ∧
    MaskWithFlags (.vfeq t vd a b) vd m (fun c _ e => (fmtOf t).eq (x c e) (y c e)) ∧
    MaskWithFlags (.vflt t vd a b) vd m (fun c _ e => (fmtOf t).lt (x c e) (y c e)) ∧
    MaskWithFlags (.vfle t vd a b) vd m (fun c _ e => (fmtOf t).le (x c e) (y c e)) ∧
    Computes (.vfsel t vd a b) vd w (fun c _ e => if c.bit 0 e then x c e else y c e) ∧
    ElemsWithFlags (.vscale t vd a b) vd w m (fun c q e => (fmtOf t).scale (rtzOf q.rm) (i c e) q.x2.toInt) ∧
    ElemsWithFlags (.vscalea t vd a b) vd w m (fun c q e => (fmtOf t).scaleAdd (rtzOf q.rm) (z c e) (i c e) q.x2.toInt) ∧
    ElemsWithFlags (.vexp2 t vd a) vd w m (fun c q e => (fmtOf t).exp2 (rtzOf q.rm) (x c e)) ∧
    ElemsWithFlags (.vlog2 t vd a) vd w m (fun c q e => (fmtOf t).log2 (rtzOf q.rm) (x c e)) ∧
    ElemsWithFlags (.vrcp t vd a) vd w m (fun c q e => (fmtOf t).rcp (rtzOf q.rm) (x c e)) ∧
    ElemsWithFlags (.vrsqrt t vd a) vd w m (fun c q e => (fmtOf t).rsqrt (rtzOf q.rm) (x c e)) ∧
    (vd.toNat % 8 = 0 →
      let r := fun (c : Claim) (q : VCmd) (j e : Nat) =>
        (fmtOf t).fma (rtzOf q.rm) false false (x c j) (y c e) (c.elem (vd.toNat + j) e w)
      CompletesAs (.vopa t vd a b) (fun c q => allFlags ((List.range 8).flatMap fun j => (List.range (m q)).map (r c q j))) (fun c q d =>
        (∀ j e, j < 8 → e < m q → d.elem (vd.toNat + j) e w = (r c q j e).1 % 2 ^ (8 * w)) ∧
        ∀ g k, k < 4096 → (g < vd.toNat ∨ vd.toNat + 8 ≤ g ∨ m q * w ≤ k) → d.byte g k = c.byte g k))) ∧
  (∀ t u r (vd a b : Reg),
    let w := ntySize t
    let bits := 8 * ntySize t
    ElemsWithFlags (.vcvt t r u vd a) vd w (fun q => q.vl / max (ntySize u) w)
      (fun c q e => convert t u (r || rtzOf q.rm) (c.elem a.toNat e (ntySize u))) ∧
    ElemsWithFlags (.vdot t vd a b) vd 4 (fun q => q.vl / 4) (fun c _ e => saturateTo (ntySigned t) 32 (intVal (ntySigned t) 32 (c.elem vd.toNat e 4) +
      ((List.range (4 / w)).map fun p => intVal (ntySigned t) bits (c.elem a.toNat (4 / w * e + p) w) *
        intVal (ntySigned t) bits (c.elem b.toNat (4 / w * e + p) w)).sum)) ∧
    (∀ f, ntyFloat t = some f →
      Reduces (.vredsum t vd a) vd a w (fun q l => floatReduce (fmtOf f) ((fmtOf f).add (rtzOf q.rm)) l) ∧
      Reduces (.vredmax t vd a) vd a w (fun _ l => floatReduce (fmtOf f) ((fmtOf f).minMax true) l) ∧
      Reduces (.vredmin t vd a) vd a w (fun _ l => floatReduce (fmtOf f) ((fmtOf f).minMax false) l)) ∧
    (ntyFloat t = none →
      Reduces (.vredsum t vd a) vd a w (fun _ l => (l.sum % 2 ^ bits, 0)) ∧
      Reduces (.vredmax t vd a) vd a w (fun _ l =>
        (l.tail.foldl (fun x y => if intVal (ntySigned t) bits y < intVal (ntySigned t) bits x then x else y) (l.headD 0), 0)) ∧
      Reduces (.vredmin t vd a) vd a w (fun _ l =>
        (l.tail.foldl (fun x y => if intVal (ntySigned t) bits y < intVal (ntySigned t) bits x then y else x) (l.headD 0), 0))))

/-! ## The row arrays -/

/-- R274, R275, R283, R285 to R290, R298: the row-array forms, on a compute core whose seat holds the octet's array. mx.cfg sets a
context without a reserved combination, and traps with 0x01 on one with. mx.lda and mx.ldb take their place in the order of arrival
as they issue, with the format that the context names then, release, and read their vectors into the row buffer, entry by entry,
or their tile into the shadow half; one that has begun goes on where it stood. An invalid descriptor of mx.lda or mx.go traps with 0x07, a
misaligned operand with 0x04. mx.go captures the context as it issues, releases and
waits for the join, and ends or traps as the join answers. mx.pop traps with 0x06 without the core's claim, pushes the next half-row to the lane
pool and gives its word, and gives −1 where no row is queued or on its way and no operation is joined or in flight, a run's included. mx.drop empties
the partial queue; mx.abort ends the octet's
operations after the pass in progress and leaves every core as it was. A form traps with 0x03 where the seat does not hold the array, and those that
need the array undriven with 0x08 where a run drives it. -/
def Obligations.RowArray : Prop :=
  (∀ rs1 s s1 c, Ready (.mxCfg rs1) s → coreOf s.cur < 2048 → Gives (readX rs1) s c s1 → Gives (mxHeld true) s1 () s1 →
    c.toNat % 4 ≠ 3 → c.toNat / 4 % 4 ≠ 3 → c.toNat / 16 % 4 ≠ 3 → c.toNat / 64 % 4 ≠ 3 → c.toNat < 2 ^ 32 →
    c.toNat / 2 ^ 8 % 2 ^ 8 = 0 → (c.toNat / 16 % 4 ≠ 0 → c.toNat / 2 ^ 16 % 2 ^ 16 ≠ 0) →
    (s1.reduced (dieOf (coreOf s1.cur)) = true → c.toNat % 4 ≠ 2 ∧ c.toNat / 4 % 4 ≠ 2) →
    Does (.mxCfg rs1) s none (s1.modMx (coreOf s1.cur) fun m => { m with ctx := c })) ∧
  (∀ rs1 s s1 c, Ready (.mxCfg rs1) s → coreOf s.cur < 2048 → Gives (readX rs1) s c s1 → Gives (mxHeld true) s1 () s1 →
    (c.toNat % 4 = 3 ∨ c.toNat / 4 % 4 = 3 ∨ c.toNat / 16 % 4 = 3 ∨ c.toNat / 64 % 4 = 3 ∨ 2 ^ 32 ≤ c.toNat ∨
      c.toNat / 2 ^ 8 % 2 ^ 8 ≠ 0 ∨ c.toNat / 16 % 4 ≠ 0 ∧ c.toNat / 2 ^ 16 % 2 ^ 16 = 0 ∨
      s1.reduced (dieOf (coreOf s1.cur)) = true ∧ (c.toNat % 4 = 2 ∨ c.toNat / 4 % 4 = 2)) →
    Traps (.mxCfg rs1) s 12 0x01 c (keepAccesses s1 s)) ∧
  (∀ s b,
    let holds := s.holdsArray ((s.thr s.cur).seat.getD 0) (octetOf (coreOf s.cur)) = true
    let driven := b = true ∧ s.runOctet (octetOf (coreOf s.cur)) ≠ none
    (holds → ¬ driven → Gives (mxHeld b) s () s) ∧
    (¬ holds → mxHeld b s = .error (.trap 12 0x03 (s.mx (coreOf s.cur)).ctx (keepAccesses s))) ∧
    (holds → driven → mxHeld b s = .error (.trap 12 0x08 (s.mx (coreOf s.cur)).ctx (keepAccesses s)))) ∧
  (∀ rs1 rs2 s s1 s2 s3 s4 a d, Ready (.mxLda rs1 rs2) s → coreOf s.cur < 2048 → Gives (readX rs1) s a s1 →
    Gives (readX rs2) s1 d s2 →
    let n := coreOf s.cur
    let o := octetOf n
    let ctx := (s2.mx n).ctx
    let count := d.toNat / 256 % 128
    (∀ l ∈ (s2.octet o).loads, l.tid ≠ s.cur) → Gives (mxHeld false) s2 () s2 → d.toNat < 2 ^ 15 → d.toNat / 64 % 4 = 0 →
    1 ≤ count → count ≤ 64 → a.toNat % sxAlign (ctx.toNat % 4) = 0 →
    let l : MxLoad := { tid := s.cur, arr := (s2.octet o).arrivals, addr := rewriteOwn n a, first := d.toNat % 64,
                        count := count, fmt := BitVec.ofNat 2 (ctx.toNat % 4), g := spG (ctx.toNat / 16 % 4) }
    Gives (progress pushRelease) (keepLoad o l (s2.modOctet o fun y => { y with arrivals := y.arrivals + 1 })) () s3 →
    Gives (ldaVectors (s.agent s.cur) o count l) s3 () s4 →
    Does (.mxLda rs1 rs2) s none s4) ∧
  (∀ rs1 rs2 s s1 s2 s3 s4 a d l, Ready (.mxLda rs1 rs2) s → coreOf s.cur < 2048 → Gives (readX rs1) s a s1 →
    Gives (readX rs2) s1 d s2 → (s2.octet (octetOf (coreOf s.cur))).loads.find? (fun x => x.tid == s.cur) = some l →
    Gives (progress pushRelease) s2 () s3 →
    Gives (ldaVectors (s.agent s.cur) (octetOf (coreOf s.cur)) (l.count - l.done) l) s3 () s4 →
    Does (.mxLda rs1 rs2) s none s4) ∧
  (∀ ag o k l s s1 bs, s.loadWaits o l ((l.first + l.done) % 64) = false →
    Gives (readBlocks ag l.fmt.toNat (8 * l.g - l.got.length)
      (l.addr + BitVec.ofNat 64 ((8 * l.g * l.done + l.got.length) * sxBytes l.fmt.toNat)) l.got) s (.all bs) s1 →
    ldaVectors ag o (k + 1) l s = ldaVectors ag o k { l with done := l.done + 1, got := [] }
      (completeEntry o ((l.first + l.done) % 64) (vectorEntry l.fmt l.g bs) s1)) ∧
  (∀ rs1 s s1 s2 s3 a, Ready (.mxLdb rs1) s → coreOf s.cur < 2048 → Gives (readX rs1) s a s1 →
    let n := coreOf s.cur
    let o := octetOf n
    let ctx := (s1.mx n).ctx
    (∀ l ∈ (s1.mx n).ldbs, l.tid ≠ s.cur) → Gives (mxHeld true) s1 () s1 → a.toNat % sxAlign (ctx.toNat / 4 % 4) = 0 →
    let l : MxLoad := { tid := s.cur, arr := (s1.octet o).arrivals, addr := rewriteOwn n a,
                        fmt := BitVec.ofNat 2 (ctx.toNat / 4 % 4), ncol := shapeCols (ctx.toNat / 64 % 4),
                        seed := BitVec.ofNat 16 (ctx.toNat / 2 ^ 16 % 2 ^ 16) }
    Gives (progress pushRelease) (keepTile n l (s1.modOctet o fun y => { y with arrivals := y.arrivals + 1 })) () s2 →
    Gives (ldbTile (s.agent s.cur) n l) s2 () s3 →
    Does (.mxLdb rs1) s none s3) ∧
  (∀ rs1 s s1 s2 s3 a l, Ready (.mxLdb rs1) s → coreOf s.cur < 2048 → Gives (readX rs1) s a s1 →
    (s1.mx (coreOf s.cur)).ldbs.find? (fun x => x.tid == s.cur) = some l →
    Gives (progress pushRelease) s1 () s2 → Gives (ldbTile (s.agent s.cur) (coreOf s.cur) l) s2 () s3 →
    Does (.mxLdb rs1) s none s3) ∧
  (∀ ag n l s s1 bs, s.tileWaits n l = false →
    Gives (readBlocks ag l.fmt.toNat (8 * l.ncol - l.got.length)
      (l.addr + BitVec.ofNat 64 (l.got.length * sxBytes l.fmt.toNat)) l.got) s (.all bs) s1 →
    ∃ t, Gives (ldbTile ag n l) s () t ∧ (t.mx n).shadow = tileHalf l.fmt l.ncol l.seed bs ∧
      (t.mx n).activeHalf = (s1.mx n).activeHalf) ∧
  (∀ rs1 s s1 s2 d, Ready (.mxGo rs1) s → coreOf s.cur < 2048 → Gives (readX rs1) s d s1 →
    let n := coreOf s.cur
    (∀ g ∈ (s1.mx n).go, g.tid ≠ s.cur) → Gives (mxHeld true) s1 () s1 → d.toNat < 2 ^ 15 → d.getLsbD 7 = false →
    1 ≤ d.toNat / 256 % 128 → d.toNat / 256 % 128 ≤ 64 → Gives (progress pushRelease) (s1.modMx n fun m => { m with
      go := m.go ++ [{ tid := s.cur, ctx := (s1.mx n).ctx, desc := d, ans := .waits }] }) () s2 →
    ∃ t, exec (.mxGo rs1) s = .next t ∧ (t.mx n).go = (s2.mx n).go ∧ (t.thr s.cur).waiting = true) ∧
  (∀ rs1 s s1 d g, Ready (.mxGo rs1) s → coreOf s.cur < 2048 → Gives (readX rs1) s d s1 →
    (s1.mx (coreOf s.cur)).go.find? (fun g => g.tid == s.cur) = some g →
    let u := s1.modMx (coreOf s.cur) fun m => { m with go := m.go.filter fun g => g.tid != s.cur }
    (g.ans = .joined → Does (.mxGo rs1) s none u) ∧
    (∀ sub v, g.ans = .traps sub v → Traps (.mxGo rs1) s 12 sub v (keepBut u s))) ∧
  (∀ vd rd s s1 s2 p r, Ready (.mxPop vd rd) s → coreOf s.cur < 2048 → Gives (mxHeld false) s () s →
    let n := coreOf s.cur
    let h := if (s.mx n).popHalf then 1 else 0
    let leaves := p.sums.length ≠ 256 ∨ (s.mx n).popHalf = true
    (s.claim n).owner = some s.cur → (s.claim n).queue.length < 16 → (s.mx n).queue = p :: r → Gives pushRelease s () s1 →
    Gives (writeX rd (BitVec.ofNat 64 (p.ea + 256 * h + (if p.last then 512 else 0) + (if p.loss then 1024 else 0) +
        65536 * (p.row % 65536))))
      (recheckOctet (octetOf n) ((s1.modClaim n fun c => { c with
        queue := c.queue ++ [{ instr := .mxPop vd rd, tid := s.cur, pc := (s.thr s.cur).pc, vl := c.vl,
                               data := halfRow p h }] }).modMx n fun m => { m with
          queue := if leaves then r else p :: r, popHalf := !decide leaves })) () s2 →
    Does (.mxPop vd rd) s none s2) ∧
  (∀ vd rd s s1, Ready (.mxPop vd rd) s → coreOf s.cur < 2048 → Gives (mxHeld false) s () s →
    (s.claim (coreOf s.cur)).owner = some s.cur → (s.mx (coreOf s.cur)).queue = [] →
    (s.octet (octetOf (coreOf s.cur))).ops = [] → (s.octet (octetOf (coreOf s.cur))).pipe = [] →
    s.runOctet (octetOf (coreOf s.cur)) = none →
    Gives (writeX rd (BitVec.ofInt 64 (-1))) s () s1 → Does (.mxPop vd rd) s none s1) ∧
  (∀ s, Ready .mxDrop s → coreOf s.cur < 2048 → Gives (mxHeld false) s () s →
    Does .mxDrop s none (recheckOctet (octetOf (coreOf s.cur))
      (s.modMx (coreOf s.cur) fun m => { m with queue := [], popHalf := false }))) ∧
  (∀ s, Ready .mxAbort s → coreOf s.cur < 2048 → Gives (mxHeld true) s () s →
    let y := s.octet (octetOf (coreOf s.cur))
    ∃ t, Does .mxAbort s none t ∧ t.cores = s.cores ∧ (t.octet (octetOf (coreOf s.cur))).pipe = y.pipe ∧
      (y.left = 0 → (t.octet (octetOf (coreOf s.cur))).ops = []) ∧
      (∀ p r, y.left ≠ 0 → y.ops = p :: r → (t.octet (octetOf (coreOf s.cur))).ops = [{ p with cut := some (p.pass + 1) }])) ∧
  (∀ rs1 rs2 s s1 s2 a d, Ready (.mxLda rs1 rs2) s → coreOf s.cur < 2048 → Gives (readX rs1) s a s1 → Gives (readX rs2) s1 d s2 →
    (∀ l ∈ (s2.octet (octetOf (coreOf s.cur))).loads, l.tid ≠ s.cur) → Gives (mxHeld false) s2 () s2 →
    let bad := 2 ^ 15 ≤ d.toNat ∨ d.toNat / 64 % 4 ≠ 0 ∨ d.toNat / 256 % 128 = 0 ∨ 64 < d.toNat / 256 % 128
    (bad → Traps (.mxLda rs1 rs2) s 12 0x07 d (keepAccesses s2 s)) ∧
    (¬ bad → a.toNat % sxAlign ((s2.mx (coreOf s.cur)).ctx.toNat % 4) ≠ 0 →
      Traps (.mxLda rs1 rs2) s 12 0x04 a (keepAccesses s2 s))) ∧
  (∀ rs1 s s1 a, Ready (.mxLdb rs1) s → coreOf s.cur < 2048 → Gives (readX rs1) s a s1 →
    (∀ l ∈ (s1.mx (coreOf s.cur)).ldbs, l.tid ≠ s.cur) → Gives (mxHeld true) s1 () s1 →
    a.toNat % sxAlign ((s1.mx (coreOf s.cur)).ctx.toNat / 4 % 4) ≠ 0 → Traps (.mxLdb rs1) s 12 0x04 a (keepAccesses s1 s)) ∧
  (∀ rs1 s s1 d, Ready (.mxGo rs1) s → coreOf s.cur < 2048 → Gives (readX rs1) s d s1 →
    (∀ g ∈ (s1.mx (coreOf s.cur)).go, g.tid ≠ s.cur) → Gives (mxHeld true) s1 () s1 →
    (2 ^ 15 ≤ d.toNat ∨ d.getLsbD 7 = true ∨ d.toNat / 256 % 128 = 0 ∨ 64 < d.toNat / 256 % 128) →
    Traps (.mxGo rs1) s 12 0x07 d (keepAccesses s1 s)) ∧
  (∀ vd rd s, Ready (.mxPop vd rd) s → coreOf s.cur < 2048 → Gives (mxHeld false) s () s →
    (s.claim (coreOf s.cur)).owner ≠ some s.cur → Traps (.mxPop vd rd) s 12 0x06 (s.vgrant (coreOf s.cur)) (keepAccesses s s))

/-- R279 to R283: the row array's own steps. Requests of all eight cores that pass the checks of a join become one operation, the last to arrive, and
are answered; those that do not pass are answered with a trap; without eight nothing joins. The next operation starts from 4 cycles after its join on, once
the cores' earlier mx.ldb have ended and while no synchronised stop holds the array, and not before; it exchanges the halves of the slices with S = 1 and of no
other. The last broadcast cycle of a pass sends one row of its entry on to every slice, and the last pass, or the one in progress at an abort, ends the
operation. From 6 cycles after it on the row enters every slice's queue, and not before. -/
def Obligations.RowEvents : Prop :=
  (∀ s o, s.joining o = none → exec (.mxJoin o) s = .next s) ∧
  (∀ s o rs, s.joining o = some rs → s.joinFault o rs = none →
    let r0 := rs.headD {}
    ∃ t, exec (.mxJoin o) s = .next t ∧ (t.octet o).arrivals = (s.octet o).arrivals + 1 ∧
      (t.octet o).ops = (s.octet o).ops ++
        [{ arr := (s.octet o).arrivals, reqs := rs, deal := (s.thr r0.tid).deal.getD 0, hand := (s.thr r0.tid).hand.toNat,
           first := r0.desc.toNat % 64, count := r0.desc.toNat / 256 % 128, pass := 0, started := false, holes := [], joinAt := s.cycle, cut := none }] ∧
      ∀ r ∈ rs, ∀ g ∈ (t.mx (coreOf r.tid)).go, g.tid = r.tid → g.ans = .joined) ∧
  (∀ s o rs sub, s.joining o = some rs → s.joinFault o rs = some sub →
    ∃ t, exec (.mxJoin o) s = .next t ∧ (t.octet o).ops = (s.octet o).ops ∧
      ∀ r ∈ rs, ∀ g ∈ (t.mx (coreOf r.tid)).go, g.tid = r.tid → ∃ v, g.ans = .traps sub v) ∧
  (∀ s o p r, (s.octet o).ops = p :: r → p.started = true ∨ s.clusterHeld (o / 2) = true ∨ s.cycle < p.joinAt + 4 →
    exec (.mxOpStart o) s = .next s) ∧
  (∀ s o p r, (s.octet o).ops = p :: r → p.started = false → p.reqs.length = 8 → s.clusterHeld (o / 2) = false → p.joinAt + 4 ≤ s.cycle →
    (∀ i, i < 8 → (p.reqs.getD i {}).desc.getLsbD 6 = true → ∀ l ∈ (s.mx (8 * o + i)).ldbs, p.arr ≤ l.arr) →
    ∃ t, exec (.mxOpStart o) s = .next t ∧ (t.octet o).ops = { p with started := true } :: r ∧
      ∀ i, i < 8 → (t.mx (8 * o + i)).active = ((s.mx (8 * o + i)).active ^^ (p.reqs.getD i {}).desc.getLsbD 6)) ∧
  (∀ s o p r, s.runOf o = none → (s.octet o).ops = p :: r → (s.octet o).left = 1 → s.positionDue o = true → p.reqs.length = 8 →
    let e := s.entry o ((p.first + p.pass) % 64)
    let t := usePosition o s
    (t.octet o).left = 0 ∧ (t.octet o).ops = (if p.cut.getD p.count ≤ p.pass + 1 then r else { p with pass := p.pass + 1 } :: r) ∧
      ∃ x, (t.octet o).pipe = (s.octet o).pipe ++ [x] ∧ x.ended = s.cycle ∧ x.rows = (List.range 8).map fun i =>
        formRow e (s.mx (8 * o + i)).activeHalf (p.reqs.getD i {}).ctx p.pass (decide (p.pass + 1 = p.count))) ∧
  (∀ s o x r, (s.octet o).pipe = x :: r → s.runOctet o = none → x.ended + 6 ≤ s.cycle → x.rows.length = 8 →
    ∃ t, exec (.mxRowQueued o) s = .next t ∧ (t.octet o).pipe = r ∧
      ∀ i, i < 8 → (t.mx (8 * o + i)).queue = (s.mx (8 * o + i)).queue ++ [x.rows.getD i {}]) ∧
  (∀ s o x r, (s.octet o).pipe = x :: r → s.cycle < x.ended + 6 → exec (.mxRowQueued o) s = .next s)

/-- R293 to R306: weight-driven mode. On a compute core wd.enter of free arrays of the seat releases and waits for the join, and ends
or traps as the join answers; wd.exit ends the run with code 2, and without one does nothing; wd.resume starts a faulted run of the
seat again with 0, and answers −1 of a core outside the seat's arrays and −2 where no run is faulted; wd.wait gives the end code,
or 4 of a faulted run, and waits on a running one. The join of requests that agree starts the run. A header that passes its checks
begins its parison, a RUN with its arrival, and one that does not pass faults. NOP goes on at SUCC. LOADB loads the routed shadows with
the tile of its payload, or faults. RUN stages the rows of its passes from the cycle after the last is there on, and exchanges
the halves with S = 1; it faults with 0x08 where a routed slice has no room for them or a pass does not find its operands. EMIT empties the staged rows into the queues once there
is room. BRANCH goes to ALT where its condition holds, and counts CNT down; CALL goes to ALT and holds SUCC, RETURN goes there;
CALL while RET is held, and RETURN while it is empty, fault with 0x09. SIGNAL posts and WAITSIG takes or waits, after the requests
before them have been served; outside the seat's window, and SIGNAL beyond 65,535, they fault with 0x0B. END ends the run with code 1. -/
def Obligations.WeightDriven : Prop :=
  (∀ rd rs1 rs2 s s1 s2 s3 a d, Ready (.wdEnter rd rs1 rs2) s → coreOf s.cur < 2048 → Gives (readX rs1) s a s1 →
    Gives (readX rs2) s1 d s2 → s2.cur = s.cur →
    let n := coreOf s.cur
    (∀ g ∈ (s2.mx n).enter, g.tid ≠ s.cur) → d.toNat < 2 → a.toNat % 32 = 0 → a.toNat < 2 ^ 56 →
    (∀ o ∈ coveredOctets (octetOf n) (d.getLsbD 0),
      s2.holdsArray ((s2.thr s.cur).seat.getD 0) o = true ∧ s2.arrayBusy o = false) → Gives engineRelease s2 () s3 →
    ∃ t, exec (.wdEnter rd rs1 rs2) s = .next t ∧
      (t.mx n).enter = (s3.mx n).enter ++ [{ tid := s.cur, a := a, d := d, ans := .waits }]) ∧
  (∀ rd rs1 rs2 s s1 s2 a d g, Ready (.wdEnter rd rs1 rs2) s → coreOf s.cur < 2048 → Gives (readX rs1) s a s1 →
    Gives (readX rs2) s1 d s2 → s2.cur = s.cur → (s2.mx (coreOf s.cur)).enter.find? (fun g => g.tid == s.cur) = some g →
    let u := s2.modMx (coreOf s.cur) fun m => { m with enter := m.enter.filter fun g => g.tid != s.cur }
    (g.ans = .joined → ∀ s3, Gives (writeX rd 0) u () s3 → Does (.wdEnter rd rs1 rs2) s none s3) ∧
    (∀ sub v, g.ans = .traps sub v → Traps (.wdEnter rd rs1 rs2) s 13 sub v (keepBut u s))) ∧
  (∀ s, Ready .wdExit s → coreOf s.cur < 2048 → s.runOctet (octetOf (coreOf s.cur)) = none → Does .wdExit s none s) ∧
  (∀ s o, Ready .wdExit s → coreOf s.cur < 2048 → s.runOctet (octetOf (coreOf s.cur)) = some o →
    ∃ t, Does .wdExit s none t ∧ (t.run o).st = .off ∧ (t.octet o).endc = 2) ∧
  (∀ rd rs1 s s1 c, Ready (.wdResume rd rs1) s → coreOf s.cur < 2048 → Gives (readX rs1) s c s1 →
    let seat := (s1.thr s1.cur).seat.getD 0
    let inside := c.toNat < 2048 ∧ (∃ f, partOfSeat seat = some f ∧ s1.covers f c.toNat = true) ∧
      s1.holdsArray seat (octetOf c.toNat) = true
    (¬ inside → ∀ s2, Gives (writeX rd (BitVec.ofInt 64 (-1))) s1 () s2 → Does (.wdResume rd rs1) s none s2) ∧
    (inside → (∀ o, s1.runOctet (octetOf c.toNat) = some o → (s1.run o).st ≠ .faulted) → ∀ s2,
      Gives (writeX rd (BitVec.ofInt 64 (-2))) s1 () s2 → Does (.wdResume rd rs1) s none s2) ∧
    (∀ o s2, inside → s1.runOctet (octetOf c.toNat) = some o → (s1.run o).st = .faulted →
      Gives (writeX rd 0) (s1.modRun o fun r => { r with st := .running, header := none, got := [] }) () s2 →
      Does (.wdResume rd rs1) s none s2)) ∧
  (∀ rd s s1, Ready (.wdWait rd) s → coreOf s.cur < 2048 → s.runOctet (octetOf (coreOf s.cur)) = none →
    Gives (writeX rd ((s.octet (octetOf (coreOf s.cur))).endc.zeroExtend 64)) s () s1 → Does (.wdWait rd) s none s1) ∧
  (∀ rd s s1 o, Ready (.wdWait rd) s → coreOf s.cur < 2048 → s.runOctet (octetOf (coreOf s.cur)) = some o →
    (s.run o).st = .faulted → Gives (writeX rd 4) s () s1 → Does (.wdWait rd) s none s1) ∧
  (∀ rd s o, Ready (.wdWait rd) s → coreOf s.cur < 2048 → s.runOctet (octetOf (coreOf s.cur)) = some o →
    (s.run o).st ≠ .faulted → Waits (.wdWait rd) s) ∧
  (∀ s o own, s.entering o = some own →
    let pair := own.any fun r => r.d.getLsbD 0
    let sib := s.entering (o / 2 * 2 + (1 - o % 2))
    let rs := if pair then (if o % 2 = 0 then own ++ sib.getD [] else sib.getD [] ++ own) else own
    let r0 := rs.headD {}
    let t0 := s.thr r0.tid
    let o0 := if pair then o / 2 * 2 else o
    (pair = true → sib ≠ none) →
    (∀ r ∈ rs, r.a = r0.a ∧ r.d = r0.d ∧ (s.thr r.tid).deal = t0.deal ∧ (s.thr r.tid).hand = t0.hand) →
    (∀ x ∈ coveredOctets o pair, s.arrayBusy x = false) →
    ∃ t, exec (.wdJoin o) s = .next t ∧ (t.octet o0).wdFault = 0 ∧
      t.run o0 = { st := .running, paddr := r0.a, pair := pair, seat := t0.seat.getD 0, deal := t0.deal.getD 0,
                   hand := t0.hand.toNat, tid := r0.tid, ret := none, header := none, got := [], waiting := false, arr := 0,
                   retried := [], ident := s.faultIdent r0.tid, pol := t0.domPol, memb := t0.memb }) ∧
  (∀ s s1 o a b c d, (s.run o).st = .running → (s.run o).header = none → s.clusterHeld (o / 2) = false →
    Gives (parisonWords (s.run o).agent 4 (s.run o).paddr []) s (.all [a, b, c, d]) s1 →
    let h : Header := { w0 := a, succ := b, alt := c, w3 := d }
    (∀ sub, h.check (s.run o).pair (s1.reduced (dieOf (8 * o))) = some sub →
      exec (.parisonHeader o) s = .next (faultRun o sub 0 s1)) ∧
    (h.check (s.run o).pair (s1.reduced (dieOf (8 * o))) = none → h.op ≠ 2 →
      exec (.parisonHeader o) s = .next (s1.modRun o fun r => { r with header := some h, got := [], arr := 0 })) ∧
    (h.check (s.run o).pair (s1.reduced (dieOf (8 * o))) = none → h.op = 2 →
      exec (.parisonHeader o) s = .next ((s1.modOctet (h.octet o) fun y => { y with
        arrivals := y.arrivals + 1 }).modRun o fun r => { r with
          header := some h, got := [], arr := (s1.octet (h.octet o)).arrivals }))) ∧
  (∀ s o h, s.atParison o 0 h → exec (.parNop o) s = .next (s.modRun o fun r => r.next h.succ)) ∧
  (∀ s s1 o h ws, s.atParison o 1 h → h.plen % 8 = 0 →
    let r := s.run o
    Gives (parisonWords r.agent (h.plen / 8 - r.got.length) (r.paddr + 32 + BitVec.ofNat 64 (8 * r.got.length)) r.got) s
      (.all ws) s1 →
    (∀ x, payloadHalf h (ws.flatMap wordBytes) = .ok x → ∃ t, exec (.parLoadb o) s = .next t ∧
      (t.run o).paddr = h.succ ∧ (t.run o).header = none ∧ ∀ n ∈ h.cores o, (t.mx n).shadow = x) ∧
    (∀ sub, payloadHalf h (ws.flatMap wordBytes) = .error sub → exec (.parLoadb o) s = .next (faultRun o sub 1 s1))) ∧
  (∀ s o h, s.atParison o 2 h → s.runFull o h = false → h.count ≤ (s.octet (h.octet o)).pipe.length →
    ((s.octet (h.octet o)).pipe.getLastD {}).ended + 7 ≤ s.cycle →
    (h.swap = true → ∀ n ∈ h.cores o, ∀ l ∈ (s.mx n).ldbs, (s.run o).arr ≤ l.arr) →
    ∃ t, exec (.parRun o) s = .next t ∧ (t.run o).paddr = h.succ ∧ (t.octet (h.octet o)).pipe = [] ∧
      ∀ n ∈ h.cores o, (t.mx n).active = ((s.mx n).active ^^ h.swap) ∧ (t.mx n).staged = (s.mx n).staged ++
        (s.octet (h.octet o)).pipe.map fun x => x.rows.getD (n % 8) {}) ∧
  (∀ s o h, s.atParison o 2 h → (∃ n ∈ h.cores o, 8 - h.count < (s.mx n).staged.length) → exec (.parRun o) s = .next (faultRun o 0x08 1 s)) ∧
  (∀ s o h, s.atParison o 2 h → s.runFull o h = false → (s.octet (h.octet o)).pipe.length < h.count → (s.octet (h.octet o)).left = 0 →
    s.runPass o (s.run o) h (s.octet (h.octet o)).pipe.length = .fault →
    exec (.parRun o) s = .next (faultRun o 0x08 (if (s.run o).waiting then 2 else 1) s)) ∧
  (∀ s o h, s.atParison o 3 h → (∀ n ∈ h.cores o, (s.mx n).queue.length + (s.mx n).staged.length ≤ 8) →
    ∃ t, exec (.parEmit o) s = .next t ∧ (t.run o).paddr = h.succ ∧ ∀ n ∈ h.cores o, (t.mx n).staged = [] ∧
      (t.mx n).queue.length = (s.mx n).queue.length + (s.mx n).staged.length) ∧
  (∀ s o h, s.atParison o 4 h →
    let y := s.octet o
    let holds := h.cond = 0 ∨ (h.cond = 1 ∧ y.cnt ≠ 0) ∨ (h.cond = 2 ∧ y.cnt = 0) ∨ (h.cond = 3 ∧ y.cflag = true) ∨
      (h.cond = 4 ∧ y.cflag = false)
    ∃ t, exec (.parBranch o) s = .next t ∧ (t.run o).paddr = (if holds then h.alt else h.succ) ∧
      (t.octet o).cnt = if h.cond = 1 ∧ y.cnt ≠ 0 then y.cnt - 1 else y.cnt) ∧
  (∀ s o h, s.atParison o 5 h → (s.run o).ret = none →
    ∃ t, exec (.parCall o) s = .next t ∧ (t.run o).paddr = h.alt ∧ (t.run o).ret = some h.succ) ∧
  (∀ s o h a, s.atParison o 5 h → (s.run o).ret = some a → exec (.parCall o) s = .next (faultRun o 0x09 1 s)) ∧
  (∀ s o h a, s.atParison o 6 h → (s.run o).ret = some a →
    ∃ t, exec (.parReturn o) s = .next t ∧ (t.run o).paddr = a ∧ (t.run o).ret = none) ∧
  (∀ s o h, s.atParison o 6 h → (s.run o).ret = none → exec (.parReturn o) s = .next (faultRun o 0x09 1 s)) ∧
  (∀ s o h, s.atParison o 7 h →
    let u := serveQueue (h.octet o) h.sem s
    let fits := spanHas (u.semWindow (s.run o).seat (h.octet o)) h.sem = true ∧ (u.sem (h.octet o) h.sem).val + h.n ≤ 65535
    (fits → ∃ t, exec (.parSignal o) s = .next t ∧ (t.run o).paddr = h.succ ∧
      (t.sem (h.octet o) h.sem).val = (u.sem (h.octet o) h.sem).val + h.n) ∧
    (¬ fits → exec (.parSignal o) s = .next (faultRun o 0x0B 1 u))) ∧
  (∀ s o h, s.atParison o 8 h → (s.run o).waiting = false →
    spanHas (s.semWindow (s.run o).seat (h.octet o)) h.sem = true →
    let u := serveQueue (h.octet o) h.sem s
    let x := u.sem (h.octet o) h.sem
    (x.queue = [] → h.n ≤ x.val → ∃ t, exec (.parWaitsig o) s = .next t ∧ (t.run o).paddr = h.succ ∧
      (t.sem (h.octet o) h.sem).val = x.val - h.n) ∧
    ((x.queue ≠ [] ∨ x.val < h.n) → ∃ t, exec (.parWaitsig o) s = .next t ∧ (t.run o).waiting = true ∧
      (t.run o).paddr = (u.run o).paddr)) ∧
  (∀ s o h, s.atParison o 8 h → (s.run o).waiting = false →
    spanHas (s.semWindow (s.run o).seat (h.octet o)) h.sem = false → exec (.parWaitsig o) s = .next (faultRun o 0x0B 2 s)) ∧
  (∀ s o h, s.atParison o 9 h → ∃ t, exec (.parEnd o) s = .next t ∧ (t.run o).st = .off ∧ (t.octet o).endc = 1)

/-! ## The transform coprocessor -/

/-- R309 to R316: the transform coprocessor, for a compute core. tx.req of a valid, aligned descriptor answers −2 while the thread's
record is held, −1 and counts while no slot is open, and else releases, enters the request and gives 0. tx.res gives −1 of no
request, the result of an executed one after dropping the blocks over its destination, and traps of a faulted one as its record
says, either freeing the record; it waits for another. tx.stat gives the record's state. The request of each of the six
operations, where no access fails or waits, is executed: its destination holds what the operation makes of its source, all of it
checked before any is written. A misaligned descriptor traps with cause 4, an invalid one with 0x01, one of a misaligned address with 0x02; a request whose source
cannot be read, whose destination cannot be written, or which meets a reserved exponent is executed with that fault. The completion of an executed request frees the slot, counts, and hands its result and flags, or its
fault, to the record. -/
def Obligations.Transform : Prop :=
  (∀ rd rs1 s s1 s2 a b d ctl k, Ready (.txReq rd rs1) s → coreOf s.cur < 2048 → Gives (readX rs1) s a s1 →
    a.toNat % 32 = 0 → Gives (readDoublewords a 4) s1 [b, d, ctl, k] s2 →
    let n := coreOf s2.cur
    let o := octetOf n
    let th := s2.thr s2.cur
    let seat := th.seat.getD 0
    let src := rewriteOwn n b
    let dst := rewriteOwn n d
    txInvalid src dst ctl k = false → src.toNat % txSrcAlign ctl = 0 → dst.toNat % txDstAlign ctl = 0 →
    (th.tx.state ≠ 0 → ∀ s3, Gives (writeX rd (BitVec.ofInt 64 (-2))) s2 () s3 → Does (.txReq rd rs1) s none s3) ∧
    (th.tx.state = 0 → th.txSlot = false → s2.slotOpen o seat = false → ∀ s3, Gives (writeX rd (BitVec.ofInt 64 (-1)))
      ((noteNow 0x300 o (2 ^ 48) s2).modOctet o fun y => { y with txBusy := (y.txBusy + 1) % 2 ^ 16 }) () s3 →
      Does (.txReq rd rs1) s none s3) ∧
    (th.tx.state = 0 → (th.txSlot = true ∨ s2.slotOpen o seat = true) → ∀ s3 s4,
      Gives (progress pushRelease) (s2.modThr s2.cur fun th => { th with txSlot := true }) () s3 →
      Gives (writeX rd 0) ((s3.modOctet o fun y => { y with
        txq := y.txq ++ [{ tid := s2.cur, seat := seat, deal := th.deal.getD 0, hand := th.hand.toNat, src := src, dst := dst,
                           ctl := ctl, k := k,
                           rm := if ctl.toNat / 2 ^ 58 % 4 = 0 then th.rm
                             else if ctl.toNat / 2 ^ 58 % 4 = 1 then 0 else 1 }] }).modThr s3.cur fun th => { th with
          tx := { state := 1 }, txSlot := false }) () s4 → Does (.txReq rd rs1) s none s4)) ∧
  (∀ rd s, Ready (.txRes rd) s → coreOf s.cur < 2048 →
    let x := (s.thr s.cur).tx
    let u := s.modThr s.cur fun th => { th with tx := {} }
    (x.state = 0 → ∀ s1, Gives (writeX rd (BitVec.ofInt 64 (-1))) s () s1 → Does (.txRes rd) s none s1) ∧
    (x.state = 3 → ∀ s1 s2, Gives (dropWhere (u.agent u.cur) (fun b => b.overlaps x.dst x.bytes) false) u () s1 →
      Gives (writeX rd x.result) s1 () s2 → Does (.txRes rd) s none s2) ∧
    (x.state = 4 → Traps (.txRes rd) s 14 x.fault x.addr (keepBut u s)) ∧
    (x.state ≠ 0 → x.state ≠ 3 → x.state ≠ 4 → Waits (.txRes rd) s)) ∧
  (∀ rd s s1, Ready (.txStat rd) s → coreOf s.cur < 2048 → Gives (writeX rd ((s.thr s.cur).tx.state.zeroExtend 64)) s () s1 →
    Does (.txStat rd) s none s1) ∧
  Transforms .fp32ToSx 0 (fun r _ => txSrcBytes r.ctl) (fun _ => 0) fp32ToSxWork ∧
  Transforms .sxToFp32 1 (fun r _ => txSrcBytes r.ctl) (fun _ => 0) sxToFp32Work ∧
  Transforms .topK 2 (fun r _ => txSrcBytes r.ctl) (fun _ => 0) topKWork ∧
  Transforms .blockCompression 3 (fun r _ => txSrcBytes r.ctl) (fun _ => 0) compressWork ∧
  Transforms .blockExpansion 4 (fun r bs => codedNeed (txN r.ctl) bs) (fun _ => 0) expandWork ∧
  Transforms .exponentHistogram 5 (fun r _ => txSrcBytes r.ctl) (fun r => if txAcc r.ctl then 1024 else 0) histogramWork ∧
  (∀ s o r rest sub v, (s.octet o).txq = r :: rest → r.outcome = some (sub, v) → r.dead = false →
    ∃ t, exec (.txComplete o) s = .next t ∧ (t.octet o).txq = rest ∧
      (t.octet o).txDone = ((s.octet o).txDone + 1) % 2 ^ 24 ∧
      (sub = 0 → (t.thr r.tid).tx = { state := 3, result := v, dst := r.dst.toNat, bytes := r.put } ∧
        (t.thr r.tid).flags = (s.thr r.tid).flags ||| r.flags) ∧
      (sub ≠ 0 → (t.thr r.tid).tx = { state := 4, fault := sub, addr := v } ∧ (t.thr r.tid).flags = (s.thr r.tid).flags)) ∧
  (∀ rd rs1 s s1 a, Ready (.txReq rd rs1) s → coreOf s.cur < 2048 → Gives (readX rs1) s a s1 → a.toNat % 32 ≠ 0 →
    Traps (.txReq rd rs1) s 4 0 a (keepAccesses s1 s)) ∧
  (∀ rd rs1 s s1 s2 a b d ctl k, Ready (.txReq rd rs1) s → coreOf s.cur < 2048 → Gives (readX rs1) s a s1 →
    a.toNat % 32 = 0 → Gives (readDoublewords a 4) s1 [b, d, ctl, k] s2 →
    let src := rewriteOwn (coreOf s.cur) b
    let dst := rewriteOwn (coreOf s.cur) d
    (txInvalid src dst ctl k = true → Traps (.txReq rd rs1) s 14 0x01 a (keepAccesses s2 s)) ∧
    (txInvalid src dst ctl k = false → src.toNat % txSrcAlign ctl ≠ 0 → Traps (.txReq rd rs1) s 14 0x02 b (keepAccesses s2 s)) ∧
    (txInvalid src dst ctl k = false → src.toNat % txSrcAlign ctl = 0 → dst.toNat % txDstAlign ctl ≠ 0 →
      Traps (.txReq rd rs1) s 14 0x02 d (keepAccesses s2 s))) ∧
  TransformFails .fp32ToSx 0 (fun r _ => txSrcBytes r.ctl) (fun _ => 0) fp32ToSxWork ∧
  TransformFails .sxToFp32 1 (fun r _ => txSrcBytes r.ctl) (fun _ => 0) sxToFp32Work ∧
  TransformFails .topK 2 (fun r _ => txSrcBytes r.ctl) (fun _ => 0) topKWork ∧
  TransformFails .blockCompression 3 (fun r _ => txSrcBytes r.ctl) (fun _ => 0) compressWork ∧
  TransformFails .blockExpansion 4 (fun r bs => codedNeed (txN r.ctl) bs) (fun _ => 0) expandWork ∧
  TransformFails .exponentHistogram 5 (fun r _ => txSrcBytes r.ctl) (fun r => if txAcc r.ctl then 1024 else 0) histogramWork

/-! ## Threads, gangs, and requests to the translation units -/

/-- R62 to R64, R69 to R74, R76, R78, R131: the commands to a thread and its stops, saves and restores, by Table 3.1. RESUME, KILL,
STOP (of a thread in no gang), WAKE, ADOPT and START act in the states that the table gives them, are held while a save or restore
runs, and else do nothing; ADOPT of a context that may not be moved answers 2, and one that may moves the thread's record, once its
remote stores have been acknowledged. A kill takes effect at a boundary and leaves the thread EMPTY; a stop takes effect at one,
once a follower has completed what it received, and in KN5 mode at a safe point: the save begins. As a save begins the reservation
is lost, every bound head is SAVED and its track released; when it is done the registers and the PC stand in the save area, and
the thread is STOPPED where a stop was asked for. A restore takes PC, XPC, INTRAP and registers from the save area, and leaves the
thread RUNNING, or STOPPED where a stop came meanwhile (that a new save then begins is the model's choice, log 42). -/
def Obligations.Threads : Prop :=
  (∀ s tid,
    let th := s.thr tid
    ((th.st = .parked ∨ th.st = .stopped) → th.saving = true →
      exec (.resume tid) s = .next (s.modThr tid fun th => { th with resumePend := true })) ∧
    (th.st = .stopped → th.saving = false → th.pmark = true →
      exec (.resume tid) s = .next (s.modThr tid fun th => { th with st := .parked, resumePend := false })) ∧
    ((th.st = .parked ∨ (th.st = .stopped ∧ th.pmark = false)) → th.saving = false →
      exec (.resume tid) s = .next (s.modThr tid fun th =>
        { th with st := .resuming, restoring := true, resumePend := false })) ∧
    (th.st = .stopping → th.saving = true →
      exec (.resume tid) s = .next (s.modThr tid fun th => { th with resumePend := true })) ∧
    (th.st ≠ .parked → th.st ≠ .stopped → (th.st = .stopping → th.saving = false) → exec (.resume tid) s = .next s)) ∧
  (∀ s tid,
    let th := s.thr tid
    ((th.st = .running ∨ th.st = .stopping ∧ th.saving = false) →
      exec (.kill tid) s = .next (s.modThr tid fun th => { th with killPend := true, waiting := false })) ∧
    ((th.st = .idle ∨ th.st = .stopped ∨ th.st = .resuming ∨ th.st = .parked ∧ th.saving = false ∨
        th.st = .stopping ∧ th.saving = true) →
      ∃ t, exec (.kill tid) s = .next t ∧ (t.thr tid).st = .empty) ∧
    (th.st = .parked → th.saving = true →
      exec (.kill tid) s = .next (s.modThr tid fun th => { th with killPend := true })) ∧
    (th.st = .empty → exec (.kill tid) s = .next s)) ∧
  (∀ s tid, (s.thr tid).fused = false →
    let th := s.thr tid
    (th.st = .running → exec (.stop tid) s = .next (s.modThr tid fun th => { th with st := .stopping, waiting := false })) ∧
    (th.st = .idle → exec (.stop tid) s = .next (beginSave tid (s.modThr tid fun th => { th with st := .stopped }))) ∧
    (th.st = .parked → exec (.stop tid) s = .next (s.modThr tid fun th => { th with st := .stopped, pmark := true })) ∧
    (th.st = .resuming → exec (.stop tid) s = .next (s.modThr tid fun th => { th with stopPend := true })) ∧
    ((th.st = .empty ∨ th.st = .stopping ∨ th.st = .stopped) → exec (.stop tid) s = .next s)) ∧
  (∀ s tid,
    let th := s.thr tid
    (th.st = .idle → exec (.wake tid) s = .next (s.modThr tid fun th =>
      { th with st := .running, waiting := false, wakeR := some 1, wakeAt := s.cycle,
                ready := max th.ready (s.cycle + 1), deadline := none })) ∧
    (∀ r, th.st = .running → th.wakeR = some r → th.wakeAt = s.cycle → 1 ≤ r.toNat →
      exec (.wake tid) s = .next (s.modThr tid fun th => { th with wakeR := some 1 })) ∧
    (th.st ≠ .idle → th.st ≠ .empty → (th.st = .running → th.wakeR ≠ none → th.wakeAt ≠ s.cycle) → exec (.wake tid) s = .next (s.modThr tid fun th => { th with wake := true })) ∧
    (th.st = .empty → exec (.wake tid) s = .next s)) ∧
  (∀ s target source,
    (s.canAdopt target source = false → exec (.adopt target source) s =
      .next (s.modThr target fun th => { th with ares := 2, adopt := none })) ∧
    (s.canAdopt target source = true → s.storesOut source = true → exec (.adopt target source) s =
      .next (s.modThr target fun th => { th with adopt := some source })) ∧
    (s.canAdopt target source = true → s.storesOut source = false → ∃ t, exec (.adopt target source) s = .next t ∧
      t.thr target = { s.thr source with ares := 1, adopt := none } ∧
      t.thr source = { ares := (s.thr source).ares })) ∧
  (∀ s tid,
    let n := coreOf tid
    (2048 ≤ n → n < 2064 → tid % 4 ≠ 0 → (s.thr tid).st = .empty → exec (.start tid) s = .next (s.setThr tid
      { st := .resuming, restoring := true, saved := true, seat := some (n - 2048 + 1024), sys := true,
        ares := (s.thr tid).ares })) ∧
    ((n < 2048 ∨ tid % 4 = 0 ∨ (s.thr tid).st ≠ .empty) → exec (.start tid) s = .next s)) ∧
  (∀ s tid,
    let th := s.thr tid
    (s.atBoundary tid = false → exec (.stopTakesEffect tid) s = .next s) ∧
    (s.atBoundary tid = true → (th.st = .running ∨ th.st = .stopping) → th.killPend = true →
      ∃ t, exec (.stopTakesEffect tid) s = .next t ∧ (t.thr tid).st = .empty) ∧
    (s.atBoundary tid = true → th.st = .stopping → th.saving = false → th.killPend = false → s.unitsDone tid = true →
      (th.kn5 = false ∨ th.safeStop = true) → ∃ t, exec (.stopTakesEffect tid) s = .next t ∧ (t.thr tid).st = .stopping ∧
        (t.thr tid).saving = true ∧ (t.thr tid).pc = th.pc ∧ (t.thr tid).regs = th.regs)) ∧
  (∀ s tid,
    let t := beginSave tid s
    (t.thr tid).saving = true ∧ (t.thr tid).saved = false ∧ (t.thr tid).resv = none ∧
      ∀ h, h < 8 → ((s.thr tid).head h).hs ≠ .unbound → ((t.thr tid).head h).hs = .saved ∧
        (t.track (clusterOf (coreOf tid)) ((s.thr tid).head h).track.toNat).owner ≠ some { tid := tid, h := BitVec.ofNat 3 h }) ∧
  (∀ s s1 tid, (s.thr tid).saving = true → Memory.wf s1.mem → (s.thr tid).tx.state ≠ 1 → (s.thr tid).tx.state ≠ 2 → (s.thr tid).postDue = false →
    Gives (cleanWhere (s.agent tid) fun b => b.dirtiedBy [tid]) s () s1 → (s1.thr tid).killPend = false →
    (s1.thr tid).resumePend = false →
    ∃ t, exec (.contextSaveDone tid) s = .next t ∧ (t.thr tid).saved = true ∧ (t.thr tid).saving = false ∧
      (t.thr tid).st = (if (s1.thr tid).st = .stopping ∨ (s1.thr tid).stopPend = true then .stopped else (s1.thr tid).st) ∧
      t.load (saveAddr tid 0x100) 8 = (s1.thr tid).pc.toNat ∧
      ∀ i, 1 ≤ i → i < 32 → t.load (saveAddr tid (8 * i)) 8 = ((s1.thr tid).regs.get 0 i).toNat) ∧
  (∀ s s1 tid, (s.thr tid).st = .resuming → (s.thr tid).restoring = true → Gives (remakeClaim tid) s () s1 →
    ∃ t, exec (.contextRestoreDone tid) s = .next t ∧
      (t.thr tid).st = (if (s1.thr tid).stopPend then .stopped else .running) ∧ (t.thr tid).restoring = false ∧
      (t.thr tid).pc = BitVec.ofNat 64 (s1.load (saveAddr tid 0x100) 8) ∧
      (t.thr tid).xpc = BitVec.ofNat 64 (s1.load (saveAddr tid 0x120) 8) ∧
      (t.thr tid).inTrap = (BitVec.ofNat 64 (s1.load (saveAddr tid 0x108) 8)).getLsbD 14 ∧
      ∀ i, 1 ≤ i → i < 32 → (t.thr tid).regs.get 0 i = BitVec.ofNat 64 (s1.load (saveAddr tid (8 * i)) 8))

/-- R8, R76, R77, R90, R91, R333: an idle thread wakes with reason 4 once its limit has passed, and not before. A fuse whose limit has
passed is answered −1; one whose members all wait with its descriptor, within their limits, resolves for all of them: each joins
with its index in the gang, or is answered −4 and stays as it is where one runs another deal, hand or seat; any other waits on. The
next unit in flight enters a follower's queue while it has room for its words. A core that is awake and STALE drops its buffer. A
register write reaches the register that the thread may write, and no other. -/
def Obligations.WakesAndGangs : Prop :=
  (∀ s tid d, (s.thr tid).st = .idle → (s.thr tid).deadline = some d →
    (d ≤ s.cycle → ∃ t, exec (.idleTimeout tid) s = .next t ∧ (t.thr tid).st = .running ∧ (t.thr tid).wakeR = some 4) ∧
    (s.cycle < d → exec (.idleTimeout tid) s = .next s)) ∧
  (∀ s tid, (s.thr tid).st ≠ .idle → exec (.idleTimeout tid) s = .next s) ∧
  (∀ s tid d limit, (s.thr tid).fuseWait = some (d, limit) → (s.thr tid).fuseAns = none →
    (limit = 0 ∨ s.cycle < limit) → s.fuseMet tid d = true → ∃ t, exec (.fuseResolve tid) s = .next t ∧ ∀ m ∈ fuseMembers tid d,
      ((∀ k ∈ fuseMembers tid d, (s.thr k).deal = (s.thr tid).deal ∧ (s.thr k).hand = (s.thr tid).hand ∧
          (s.thr k).seat = (s.thr tid).seat) →
        (t.thr m).gang = true ∧ (t.thr m).leader = (coreOf m % 8 - fuseFirst d == 0) ∧
        (t.thr m).gindex = BitVec.ofNat 3 (coreOf m % 8 - fuseFirst d) ∧
        (t.thr m).fuseAns = some (BitVec.ofNat 64 (coreOf m % 8 - fuseFirst d))) ∧
      ((∃ k ∈ fuseMembers tid d, (s.thr k).deal ≠ (s.thr tid).deal ∨ (s.thr k).hand ≠ (s.thr tid).hand ∨
          (s.thr k).seat ≠ (s.thr tid).seat) → (t.thr m).gang = (s.thr m).gang ∧ (t.thr m).fuseAns = some (BitVec.ofInt 64 (-4)))) ∧
  (∀ s tid d limit, (s.thr tid).fuseWait = some (d, limit) → (s.thr tid).fuseAns = none →
    (limit ≠ 0 → limit ≤ s.cycle → ∃ t, exec (.fuseResolve tid) s = .next t ∧
      (t.thr tid).fuseAns = some (BitVec.ofInt 64 (-1)) ∧ (t.thr tid).gang = (s.thr tid).gang) ∧
    ((limit = 0 ∨ s.cycle < limit) → s.fuseMet tid d = false → exec (.fuseResolve tid) s = .next s)) ∧
  (∀ s tid u r, (s.thr tid).flight = u :: r →
    (((s.thr tid).fq.map fun x => x.words.length).sum + u.words.length ≤ 8 → exec (.gangUnitArrival tid) s =
      .next (s.modThr tid fun th => { th with flight := r, fq := th.fq ++ [u], waiting := false })) ∧
    (8 < ((s.thr tid).fq.map fun x => x.words.length).sum + u.words.length → exec (.gangUnitArrival tid) s = .next s)) ∧
  (∀ s n, s.awake n = true → (s.core n).stale = true →
    exec (.coreWake n) s = .next (s.modCore n fun c => { c with plb := [], stale := false })) ∧
  (∀ s n, (s.awake n = false ∨ (s.core n).stale = false) → exec (.coreWake n) s = .next s) ∧
  (∀ s tid (csr : BitVec 12) v e, csrEntry csr.toNat = some e →
    ((e.2 = .none ∨ (e.2 = .system ∧ (s.thr tid).sys = false)) → exec (.registerWrite tid csr v) s = .next s) ∧
    (e.2 ≠ .none → (e.2 = .system → (s.thr tid).sys = true) →
      exec (.registerWrite tid csr v) s = .next (csrWrite tid csr.toNat v s))) ∧
  (∀ s tid (csr : BitVec 12) v, csrEntry csr.toNat = none → exec (.registerWrite tid csr v) s = .next s)

/-- R331 to R333: the requests of XLAT_REQ of a compute core. A page request drops the page's translations and code lines at once, and what engines
have checked and not begun to write starts anew; one with SIZE 11 has no effect; a rights request drops the entries of the domain and seat in the
partition's cores that are awake or have an access outstanding, and marks the others STALE; a flush empties the partition's units and buffers. Each
leaves BUSY until it completes, and while it is none other starts. It completes once no store of a thread or an engine that was checked under a page
has yet to perform, a page request after its blocks have left the caches: BUSY clears and the count rises. -/
def Obligations.TranslationRequests : Prop :=
  (∀ s n vpage, exec (.xlatReqPage n vpage 3) s = .next s) ∧
  (∀ s n vpage size, (s.core n).xreq = none → n < 2048 → size ≠ 3 →
    let base := (reqPage vpage size).1
    let bytes := (reqPage vpage size).2
    ∃ t, exec (.xlatReqPage n vpage size) s = .next t ∧ (t.core n).xreqBusy = true ∧
      (t.core n).xreq = some (.xlatPage n vpage size) ∧
      (∀ c, ∀ e ∈ (t.cluster c).xlat, ¬ (e.page < base + bytes ∧ base < e.page + e.size)) ∧
      (∀ m ix, ∀ l ∈ (t.core m).icache.get [] ix, ¬ (l.va < base + bytes ∧ base < l.va + 64)) ∧
      (∀ m ∈ s.cores.cells.map (fun c => c.1), ∀ q ∈ (t.claim m).queue, q.prog = 0 → q.homes = []) ∧
      (∀ o, ∀ r ∈ (t.octet o).txq, coreOf r.tid ∈ s.cores.cells.map (fun c => c.1) → r.put = 0 → r.outcome = none → r.homes = [])) ∧
  (∀ s n f dom all seat, (s.core n).xreq = none → n < 2048 → s.partOfCore n = some f →
    ∃ t, exec (.xlatReqRights n dom all seat) s = .next t ∧ (t.core n).xreqBusy = true ∧
      (t.core n).xreq = some (.xlatRights n dom all seat) ∧ ∀ m ∈ s.coresOf f,
        ((s.awake m = true ∨ s.outstanding m = true) →
          ∀ e ∈ (t.core m).plb, ¬ (e.dom = dom ∧ e.seat / 16 = f ∧ (all = true ∨ e.seat % 16 = seat.toNat))) ∧
        (s.awake m = false → s.outstanding m = false → (t.core m).stale = true)) ∧
  (∀ s n f, (s.core n).xreq = none → n < 2048 → s.partOfCore n = some f →
    ∃ t, exec (.xlatReqFlush n) s = .next t ∧ (t.core n).xreqBusy = true ∧ (t.core n).xreq = some (.xlatFlush n) ∧
      (∀ c ∈ s.clustersOf f, (t.cluster c).xlat = []) ∧ ∀ m ∈ s.allCores f, (t.core m).plb = []) ∧
  (∀ s n c, (s.core n).xreq = some c →
    exec (.xlatReqFlush n) s = .next s ∧ (∀ vpage size, exec (.xlatReqPage n vpage size) s = .next s) ∧
      ∀ dom all seat, exec (.xlatReqRights n dom all seat) s = .next s) ∧
  (∀ s n f r, (s.core n).xreq = some r → (∀ m v z, r ≠ .xlatPage m v z) → s.partOfCore n = some f →
    let u := restartVector ((s.coresOf f).filter fun m => !s.poolRuns m) s
    (∀ m ∈ s.coresOf f, (u.core m).pageStores = false ∧ u.writesUnderWay m = false) →
    exec (.shootdownComplete n) s = .next (u.modCore n fun c =>
      { c with xreq := none, xreqBusy := false, xreqCount := (c.xreqCount + 1) % 2 ^ 32 })) ∧
  (∀ s s1 n m v z, (s.core n).xreq = some (.xlatPage m v z) →
    Gives (dropPageBlocks (reqPage v z).1 (reqPage v z).2 (s.cores.cells.map fun c => c.1)) s () s1 →
    let u := restartVector ((s.cores.cells.map fun c => c.1).filter fun m => !s1.poolRuns m) s1
    (∀ k ∈ s.cores.cells.map (fun c => c.1), (u.core k).pageStores = false ∧ u.writesUnderWay k = false) →
    exec (.shootdownComplete n) s = .next (u.modCore n fun c =>
      { c with xreq := none, xreqBusy := false, xreqCount := (c.xreqCount + 1) % 2 ^ 32 })) ∧
  (∀ s n, (s.core n).xreq = none → exec (.shootdownComplete n) s = .next s)

/-! ## Deals and rings -/

/-- R103, R104, R208 to R218, R224: deals. deal.post reads its record after a release and gives what the acceptance answers; a
misaligned record traps with 0x01. A record that passes every check is accepted under its seat's next number and enters the home
queue, ready where it depends on no other, and the number steps; a full queue or journal and a held queue answer −1 and change
nothing. deal.stat gives a number's state. hand.exit makes the thread EMPTY and ends its claim. The home queue places the first
deal that fits, and nothing where none does; it then opens the placed deal's groups and copies its footprint. A deal of one hand with its groups
open and its footprint copied launches every thread of the hand at the entry, with the argument, hand, rank, count and number in x10 to
x14. A hand with nothing outstanding retires, and one with something does not: its groups leave the bank maps and its engines
are stopped; the banks of a retired hand rejoin victim space once no store to them is on its way. The last hand retires its
deal, which leaves its queue, and nothing depends on it any more. -/
def Obligations.Deals : Prop :=
  (∀ rd rs1 s s1 a, Ready (.dealPost rd rs1) s → Gives (readX rs1) s a s1 → a.toNat % 64 ≠ 0 →
    Traps (.dealPost rd rs1) s 16 0x01 a s) ∧
  (∀ rd rs1 s s1 s2 s3 s4 s5 s6 a r tail ans, Ready (.dealPost rd rs1) s → Gives (readX rs1) s a s1 → a.toNat % 64 = 0 →
    Gives (release .part) s1 () s2 → Gives (readRecord readDoublewords a) s2 r s3 →
    let ag := s2.agent s2.cur
    let dealer := isDealer ag.core
    Gives (ringTail ag r a) s3 tail s4 →
    Gives (acceptDeal { system := dealer || (s2.thr s2.cur).sys, compute := !dealer, seat := (s2.thr s2.cur).seat,
                        part := s4.partOfCore ag.core, ag := ag, tail := tail } a r) s4 ans s5 →
    Gives (writeX rd ans) s5 () s6 → Does (.dealPost rd rs1) s none s6) ∧
  (∀ s p a r f, s.partOfCluster r.home = some f → (p.compute = true → p.part = some f) →
    let seat := 16 * f + r.seatField
    let x := s.seat seat
    (s.seatsOf f).contains seat = true → s.removing f seat = false → (s.cluster r.home).queue.length < 64 → x.journal.length < 1024 →
    s.queueHeld r.home = false → r.invalid (s.part f).level p.tail.isSome = false →
    (p.system = true ∨ (p.seat = some seat ∧ (r.dw 0).getLsbD 44 = false)) → (r.seq = 0 ∨ r.seq = x.nextSeq) →
    s.unplaceable f r.home r.hands = false → (∀ h ∈ r.hands, groupBanks h.spBytes ≤ 32) →
    Gives (acceptDeal p a r) s (x.nextSeq.zeroExtend 64) (enterDeal p a r seat x.nextSeq s)) ∧
  (∀ s p a r seat seq,
    let u := enterDeal p a r seat seq s
    u.nextDeal = s.nextDeal + 1 ∧ (u.cluster r.home).queue = (s.cluster r.home).queue ++ [s.nextDeal] ∧
    (u.deal s.nextDeal).seq = seq ∧ (u.deal s.nextDeal).seat = seat ∧ (u.deal s.nextDeal).hands = r.hands ∧
    ((u.deal s.nextDeal).st = .ready ↔ s.dependsOn seat (r.ranges 0) (r.ranges 4) = []) ∧
    (u.seat seat).nextSeq = if (s.seat seat).nextSeq = BitVec.allOnes 32 then 1 else (s.seat seat).nextSeq + 1) ∧
  (∀ s p a r f seat, s.partOfCluster r.home = some f → (p.compute = true → p.part = some f) →
    seat = 16 * f + r.seatField →
    (64 ≤ (s.cluster r.home).queue.length ∨
      ((s.seatsOf f).contains seat = true ∧ s.removing f seat = false ∧ 1024 ≤ (s.seat seat).journal.length) ∨ s.queueHeld r.home = true) →
    Gives (acceptDeal p a r) s (BitVec.ofInt 64 (-1)) s) ∧
  (∀ rd rs1 s s1 s2 v, Ready (.dealStat rd rs1) s → Gives (readX rs1) s v s1 →
    Gives (writeX rd (BitVec.ofNat 64 (s1.dealStat ((s1.thr s1.cur).seat.getD 0) (BitVec.ofNat 32 v.toNat)))) s1 () s2 →
    Does (.dealStat rd rs1) s none s2) ∧
  (∀ s, Ready .handExit s → (s.claim (coreOf s.cur)).owner ≠ some s.cur →
    ∃ t, exec .handExit s = .next t ∧ (t.thr s.cur).st = .empty) ∧
  (∀ s, Ready .handExit s → (s.claim (coreOf s.cur)).owner = some s.cur → (s.claim (coreOf s.cur)).fault = none →
    (s.claim (coreOf s.cur)).queue = [] → ∃ t, exec .handExit s = .next t ∧ (t.thr s.cur).st = .empty ∧
      (t.claim (coreOf s.cur)).owner = none) ∧
  (∀ s c d s1 f, s.partOfCluster c = some f → s.queueHeld c = false →
    (s.cluster c).queue.find? (fun d => (s.deal d).st == .launching) = some d →
    Gives (if s.unopened d then openGroups d else copyFootprint d) s () s1 →
    exec (.dealPlacement c) s = .next s1) ∧
  (∀ s d s1, Gives (do for g in (s.dealGroups d).filter (fun g => !g.2.mapped) do drainGroup g.1 g.2) s () s1 →
    Gives (openGroups d) s () (((s.dealGroups d).filter fun g => !g.2.mapped).foldl (fun s g => openGroup g.1 g.2 s) s1)) ∧
  (∀ s c d f s1 p, s.partOfCluster c = some f → s.queueHeld c = false →
    (∀ k ∈ (s.cluster c).queue, (s.deal k).st ≠ .launching) → choose f s (s.readyDeals c) [] [] = some (d, s1, p) →
    ∃ t, exec (.dealPlacement c) s = .next t ∧ (t.deal d).st = .launching ∧ t.threads = s1.threads ∧ t.cores = s1.cores ∧
      t.octets = s1.octets) ∧
  (∀ s c f, s.partOfCluster c = some f → (∀ k ∈ (s.cluster c).queue, (s.deal k).st ≠ .launching) →
    choose f s (s.readyDeals c) [] [] = none → exec (.dealPlacement c) s = .next s) ∧
  (∀ s s1 d h, (s.deal d).st = .launching → (s.deal d).fpNext = none → s.unopened d = false →
    s.queueHeld (s.deal d).home = false →
    let x := s.deal d
    x.hands = [h] →
    Gives (do for n in (h.threads.map coreOf).eraseDups do launchAcquire d x.seat (s.seat x.seat).cfg.issue n) s () s1 →
    ∃ t, exec (.handLaunch d) s = .next t ∧ (t.deal d).st = .running ∧ (t.deal d).ran = h.threads ∧
      ∀ k ∈ h.threads, (t.thr k).st = .running ∧ (t.thr k).pc = h.entry ∧ (t.thr k).seat = some x.seat ∧
        (t.thr k).sys = x.sys ∧ (t.thr k).deal = some d ∧ (t.thr k).regs.get 0 10 = x.arg ∧ (t.thr k).regs.get 0 11 = 0 ∧
        (t.thr k).regs.get 0 12 =
          BitVec.ofNat 64 ((coreOf k - h.first) * popCount 4 h.tmask.toNat + popCount (k % 4) h.tmask.toNat) ∧
        (t.thr k).regs.get 0 13 = BitVec.ofNat 64 (h.ncores * popCount 4 h.tmask.toNat) ∧
        (t.thr k).regs.get 0 14 = x.seq.zeroExtend 64) ∧
  (∀ s d i h, (s.deal d).hands[i]? = some h → (s.deal d).st = .running → h.retired = false →
    (s.handBusy d i = true → exec (.handRetire d i) s = .next s) ∧
    (s.handBusy d i = false → ∀ s1, Gives (retireHand d i h) s () s1 → exec (.handRetire d i) s = .next s1)) ∧
  (∀ s d i h, s.handEngines d i = [] → Gives (retireHand d i h) s ()
    ((endHand d i (fun g => some { g with mapped := false }) s).modDeal d fun y => { y with
      hands := setL y.hands i { h with retired := true } })) ∧
  (∀ s d i h, (s.deal d).hands[i]? = some h → h.retired = true →
    ((s.deal d).st = .running → (∀ k ∈ (s.deal d).hands, k.retired = true) → ∀ s1, Gives (retireDeal d) s () s1 →
      exec (.handRetire d i) s = .next s1) ∧
    (((s.deal d).st ≠ .running ∨ ∃ k ∈ (s.deal d).hands, k.retired = false) →
      exec (.handRetire d i) s = .next (releaseGroups d i s))) ∧
  (∀ s d h n, ∀ g ∈ ((releaseGroups d h s).core n).groups, g.ofHand d h = true → s.storesTo n g = true) ∧
  (∀ s s1 s2 d, let x := s.deal d
    Gives (do
      for n in (x.ran.map coreOf).eraseDups do
        cleanWhere { s.queueAgent d with core := n } fun b => b.dirtiedBy (x.ran.filter fun t => coreOf t == n)) s () s1 →
    Gives (completeDeal d) s1 () s2 → Gives (retireDeal d) s () s2) ∧
  (∀ s s1 d, Gives (completeDeal d) s () s1 → (s1.deal d).st = .retired ∧
    d ∉ (s1.cluster (s.deal d).home).queue ∧ ∀ k, d ∉ (s1.deal k).deps)

/-- R216, R217: byte rings: rng.push answers −1 where the record and its skip do not fit, and else reserves, writes the record
with a skip before it where it would cross the ring's end, and publishes it; rng.pop copies the oldest record, past skip
records, and rng.skip passes it; both give its length and advance TAIL, and answer −1 of an empty ring. -/
def Obligations.Rings : Prop :=
  (∀ rd rs1 rs2 s s1 s2 s3 s4 s5 s6 c a b v body, Ready (.rngPush rd rs1 rs2) s → Gives (readX rs1) s c s1 →
    Gives (readX rs2) s1 a s2 → Gives (ringBlock c) s2 b s3 → Gives (memRead a 8 s3.plainAtt) s3 v s4 →
    let h := BitVec.ofNat 64 v
    let t := recSize h
    t ≤ 4096 → t ≤ b.size / 2 → Gives (readDoublewords (a + 8) ((t - 8) / 8)) s4 body s5 → Gives (release .part) s5 () s6 →
    let off := b.res.toNat % b.size
    let skip := if b.size - off < t then b.size - off else 0
    let next := b.res + BitVec.ofNat 64 (t + skip)
    (b.size < (next - b.tail).toNat → ∀ s7, Gives (writeX rd (BitVec.ofInt 64 (-1))) s6 () s7 →
      Does (.rngPush rd rs1 rs2) s none s7) ∧
    ((next - b.tail).toNat ≤ b.size → b.head = b.res → ∀ s7 s8 s9 s10 s11,
      let at_ := (off + skip) % b.size
      Gives (ringWrite (c + 0x10) next) s6 () s7 →
      (if skip = 0 then s8 = s7
        else Gives (ringWrite (b.base + BitVec.ofNat 64 off) (BitVec.ofNat 64 (2 ^ 62 + (skip - 8)))) s7 () s8) →
      Gives (do
        for x in (List.range (t / 8)).zip (h :: body) do
          ringWrite (b.base + BitVec.ofNat 64 (at_ + 8 * x.1)) x.2) s8 () s9 →
      Gives (ringWrite c next) s9 () s10 → Gives (writeX rd (BitVec.ofNat 64 at_)) s10 () s11 →
      Does (.rngPush rd rs1 rs2) s none s11)) ∧
  (∀ rd rs1 rs2 s s1 s2 s3 c a, Ready (.rngPop rd rs1 rs2) s → Gives (readX rs1) s c s1 → Gives (readX rs2) s1 a s2 →
    Gives (ringPop rd c (some a)) s2 () s3 → Does (.rngPop rd rs1 rs2) s none s3) ∧
  (∀ rd rs1 s s1 s2 c, Ready (.rngSkip rd rs1) s → Gives (readX rs1) s c s1 → Gives (ringPop rd c none) s1 () s2 →
    Does (.rngSkip rd rs1) s none s2) ∧
  (∀ rd c dst s s1 s2 s3 b, Gives (ringBlock c) s b s1 →
    Gives (passSkips b ((b.head - b.tail).toNat / 8 + 1) b.tail) s1 (.empty b.tail) s2 →
    Gives (writeX rd (BitVec.ofInt 64 (-1))) s2 () s3 → Gives (ringPop rd c dst) s () s3) ∧
  (∀ rd c dst s s1 s2 s3 s4 s5 s6 b t h, Gives (ringBlock c) s b s1 →
    Gives (passSkips b ((b.head - b.tail).toNat / 8 + 1) b.tail) s1 (.record t h) s2 → Gives (release .part) s2 () s3 →
    (match dst with
      | none => s4 = s3
      | some a => Gives (do
          for i in List.range (recSize h / 8) do
            ringWrite (a + BitVec.ofNat 64 (8 * i))
              (← ringRead (b.base + BitVec.ofNat 64 (t.toNat % b.size + 8 * i)))) s3 () s4) →
    Gives (ringWrite (c + 8) (t + BitVec.ofNat 64 (recSize h))) s4 () s5 →
    Gives (writeX rd (BitVec.ofNat 64 (h.toNat % 2 ^ 32))) s5 () s6 → Gives (ringPop rd c dst) s () s6)

/-! ## Shared resources, errors, the synchronised stop, links, power, and the hub -/

/-- R334, R345, R351: shared resources. A refill before the first cycle of its tick does nothing; from then on it is the tick's one
refill, takes no cycle, and leaves no kitty above its capacity. Where no configuration is pending, it repays every bucket's debt, adds RATE up to DEPTH and ends the bucket's demand as R345's steps say, and what a
bucket repays, or has above DEPTH without demand, goes to the kitty. A request that has waited 4,096 cycles and still asks, while the tick has capacity
beyond C left and no other bucket has been granted from its tokens in this cycle, is granted: what TOK lacked becomes DEBT, and the grant is kept for
its transfer (log 31); a request that has waited less, that asks no more, for which the tick has no capacity left or whose DEBT would pass 65,535 is not. A
scrub that has had its 2,048 tokens leaves its frame zero, without poison and FREE, with every other byte as it was; one that has not does nothing. -/
def Obligations.SharedResources : Prop :=
  (∀ s, s.cycle < 128 * (s.ticks + 1) → exec .tickRefill s = .next s) ∧
  (∀ s, 128 * (s.ticks + 1) ≤ s.cycle → ∃ t, exec .tickRefill s = .next t ∧ t.ticks = s.ticks + 1 ∧ t.cycle = s.cycle ∧
    ∀ k, (t.arb k).kitty ≤ arbCapacity k) ∧
  (∀ s, 128 * (s.ticks + 1) ≤ s.cycle → (∀ p ∈ s.parts.toList, p.2.pending = [] ∧ p.2.pendingCfg = none) →
    ∃ t, exec .tickRefill s = .next t ∧ ∀ k b,
      let x := (s.arb k).bucket b
      let y := (t.arb k).bucket b
      let pay := min x.debt ((x.rate + 1) / 2)
      y.rate = x.rate ∧ y.depth = x.depth ∧ y.debt = x.debt - pay ∧ y.tok = min (x.tok + x.rate - pay) x.depth ∧
      y.demand = false) ∧
  (∀ (x : Bucket) k, let pay := min x.debt ((x.rate + 1) / 2)
    (x.refill k).2 = k + pay + (if x.demand = true then 0 else x.tok + x.rate - pay - x.depth)) ∧
  (∀ s c b l w r, let a := s.arb (channelArb c)
    let x := a.bucket b
    a.queue = l ++ w :: r → (∀ v ∈ l, v.req.bucket ≠ b) → w.req.bucket = b → w.since + 4096 ≤ s.cycle → s.cycle ≤ w.asked + 1 →
    x.debt + (w.req.cost - x.tok) ≤ 65535 → a.aged + w.req.cost ≤ 48 →
    (∀ p ∈ a.buckets.toList, p.1 ≠ b → p.2.spentAt ≠ s.cycle ∨ p.2.spent = 0) →
    ∃ t, exec (.agedRequest c b) s = .next t ∧ ((t.arb (channelArb c)).bucket b).tok = x.tok - w.req.cost ∧
      ((t.arb (channelArb c)).bucket b).debt = x.debt + (w.req.cost - x.tok) ∧ t.cycle = s.cycle ∧
      t.paid = s.paid ++ [{ req := w.req, asked := s.cycle }] ∧
      ∀ d, d ≠ b → (t.arb (channelArb c)).bucket d = (s.arb (channelArb c)).bucket d) ∧
  (∀ s c b, let a := s.arb (channelArb c)
    let x := a.bucket b
    (∀ w ∈ a.queue, w.req.bucket = b → s.cycle < w.since + 4096 ∨ w.asked + 1 < s.cycle ∨ 48 < a.aged + w.req.cost ∨
      65535 < x.debt + (w.req.cost - x.tok)) → exec (.agedRequest c b) s = .next s) ∧
  (∀ s c f r, s.scrubs.get [] c = f :: r → s.scrubOver c = true → ∃ t, exec (.frameScrubDone c) s = .next t ∧
    t.frame f = .free ∧ t.scrubs.get [] c = r ∧
    (∀ a, f * 65536 ≤ a → a < f * 65536 + 65536 → readCell t.mem a = 0 ∧ t.poisoned a = false) ∧
    ∀ a, a < f * 65536 ∨ f * 65536 + 65536 ≤ a → readCell t.mem a = readCell s.mem a) ∧
  (∀ s c, s.scrubOver c = false → exec (.frameScrubDone c) s = .next s)

/-- R334, R353, R381: errors. A report takes the next ESEQ, whose record of four doublewords enters its function's log while that has
room and is counted as lost while it is full; the counter of its class, 1 or 2, rises either way, and memory stays. A write-back to a frame that
is not HELD is reported and memory stays; to one that is HELD there is no report. An uncorrectable error drops a clean first-level block or
line of a slice with a report of class 1, and poisons a dirty one, of a slice with a report of class 2. In GDDR it poisons the
sector, with a report of class 2, and nothing where the slice holds the line dirty, whose write-back overwrites it (the model's choice, log 14); in a scratchpad it poisons the sector, and in cluster memory the
512-byte block. -/
def Obligations.Errors : Prop :=
  (∀ f r s, let x := s.func f
    let t := report [f] r s
    t.hub.eseq = s.hub.eseq + 1 ∧ t.mem = s.mem ∧
    (t.func f).corrected = (if r.cls = 1 then (x.corrected + 1) % 2 ^ 32 else x.corrected) ∧
    (t.func f).uncorrectable = (if r.cls = 2 then (x.uncorrectable + 1) % 2 ^ 32 else x.uncorrectable) ∧
    (x.elogHead - x.elogTail = 256 → (t.func f).lost = x.lost + 1 ∧ (t.func f).elog = x.elog ∧
      (t.func f).elogHead = x.elogHead) ∧
    (x.elogHead - x.elogTail ≠ 256 → r.cls < 16 → r.source < 4096 → r.cause < 256 → r.sub < 256 → r.core < 2048 →
      let k := 4 * (x.elogHead.toNat % 256)
      (t.func f).elogHead = x.elogHead + 1 ∧ (t.func f).lost = x.lost ∧
      (t.func f).elog.get 0 k =
        BitVec.ofNat 64 (s.hub.eseq.toNat * 2 ^ 32 + r.cls * 2 ^ 28 + r.source * 2 ^ 16 + r.cause * 2 ^ 8 + r.sub) ∧
      (t.func f).elog.get 0 (k + 1) = r.addr ∧ (t.func f).elog.get 0 (k + 2) = BitVec.ofNat 64 s.cycle ∧
      (t.func f).elog.get 0 (k + 3) = BitVec.ofNat 64 (r.core * 2 ^ 32 + r.seq.toNat))) ∧
  (∀ s pa, (∀ f, s.frame (pa / 65536) ≠ .held f) → pa < 192 * 2 ^ 30 → exec (.lateWriteback pa) s = .next (report
    [(s.partOfNode (pa / (6 * 2 ^ 30))).getD 0]
    { cls := 2, source := 0x900 + pa / (6 * 2 ^ 30), sub := 3, addr := BitVec.ofNat 64 (pa / 64 * 64) } s)) ∧
  (∀ s pa f, s.frame (pa / 65536) = .held f → exec (.lateWriteback pa) s = .next s) ∧
  (∀ s loc, loc < 192 * 2 ^ 30 → s.dirtyLine loc = false → ∃ t, exec (.uncorrectableError .gddr loc) s = .next t ∧
    t.poisoned loc = true ∧ t.mem = s.mem ∧
    (∀ a, a / 64 ≠ loc / 64 → t.poisoned a = s.poisoned a) ∧ t.hub.eseq = s.hub.eseq + 1 ∧
    let f := (s.partOfNode (loc / (6 * 2 ^ 30))).getD 0
    (t.func f).uncorrectable = ((s.func f).uncorrectable + 1) % 2 ^ 32) ∧
  (∀ s loc, loc < 192 * 2 ^ 30 → s.dirtyLine loc = true → exec (.uncorrectableError .gddr loc) s = .next s) ∧
  (∀ s loc n off, placeOf 0 loc = .bank n off → ∃ t, exec (.uncorrectableError .scratchpad loc) s = .next t ∧
    t.poisoned (bankAddr n off) = true ∧ t.mem = s.mem) ∧
  (∀ s loc c off i, placeOf 0 loc = .cm c off → i < 8 → ∃ t, exec (.uncorrectableError .clusterMemory loc) s = .next t ∧
    t.poisoned (loc / 512 * 512 + 64 * i) = true ∧ t.mem = s.mem) ∧
  (∀ s n loc l, loc / (6 * 2 ^ 30) = n →
    ((s.slice n).sets.get [] (loc / 64 % 16384)).find? (fun l => l.addr == loc / 64 * 64) = some l →
    ∃ t, exec (.uncorrectableError (.slice n) loc) s = .next t ∧ t.mem = s.mem ∧ t.hub.eseq = s.hub.eseq + 1 ∧
      let f := (s.partOfNode n).getD 0
      (l.dirty = false → (∀ x ∈ (t.slice n).sets.get [] (loc / 64 % 16384), x.addr ≠ loc / 64 * 64) ∧
        (t.func f).corrected = ((s.func f).corrected + 1) % 2 ^ 32) ∧
      (l.dirty = true → (∀ x ∈ (t.slice n).sets.get [] (loc / 64 % 16384), x.addr = loc / 64 * 64 → x.poisoned = true) ∧
        t.poisoned loc = true ∧ (t.func f).uncorrectable = ((s.func f).uncorrectable + 1) % 2 ^ 32)) ∧
  (∀ s n loc b, (((s.core n).set (setOf loc)).blocks ++ ((s.core n).set (setOf loc)).victims.map fun v => v.blk).find?
      (fun b => b.holds loc) = some b → b.dirty = 0 → ∃ t, exec (.uncorrectableError (.firstLevel n) loc) s = .next t ∧
    (∀ x ∈ ((t.core n).set (setOf loc)).blocks, x.holds loc = false) ∧
    (∀ v ∈ ((t.core n).set (setOf loc)).victims, v.blk.holds loc = false) ∧ t.mem = s.mem ∧ t.hub.eseq = s.hub.eseq + 1 ∧
    let f := (s.partOfCore n).getD 0
    (t.func f).corrected = ((s.func f).corrected + 1) % 2 ^ 32) ∧
  (∀ s n loc b, (((s.core n).set (setOf loc)).blocks ++ ((s.core n).set (setOf loc)).victims.map fun v => v.blk).find?
      (fun b => b.holds loc) = some b → b.dirty ≠ 0 → ∃ t, exec (.uncorrectableError (.firstLevel n) loc) s = .next t ∧
    (∀ x ∈ ((t.core n).set (setOf loc)).blocks, x.holds loc = true → x.poisoned = true) ∧
    (∀ v ∈ ((t.core n).set (setOf loc)).victims, v.blk.holds loc = true → v.blk.poisoned = true) ∧ t.mem = s.mem)

/-- R354 to R357: the synchronised stop. An SSTOP of a partition without one, or an SRESUME of a stopped one, is taken for a cycle at least
2,048 ahead and only that partition's stop changes; naming an earlier cycle it is refused with a negative result and the partition stays. Before cycle G nothing
happens; from G on the partition is stopping, its running, idle, parked and resuming threads are those that the stop stops (that a resuming one is among
them is the model's reading, log 33), and a running thread,
where it is the only one, is STOPPING. Once the partition is quiet, and not before, the packets that its routers hold are saved and a token is on its way to
every input pair; each arrives once, and with all of them and every thread STOPPED or EMPTY, and not before, the stop is complete. Before cycle G′ nothing
happens; from G′ on the stop is over, a thread that it stopped, where that is the only one, is RESUMING, and nothing stays in a save buffer. -/
def Obligations.SynchronisedStop : Prop :=
  (∀ s fn g, s.partAt fn = true → (s.part fn).phase = .none → s.cycle + 2048 ≤ g → ∃ t, exec (.sstop fn g 0) s = .next t ∧
    (t.part fn).phase = .asked ∧ (t.part fn).atCycle = g ∧ t.threads = s.threads) ∧
  (∀ s fn g result, g < s.cycle + 2048 → result ≠ 0 → result.toNat % 8 = 0 → result.toNat < 192 * 2 ^ 30 →
    memCanonical s.mem = true → ∃ t, exec (.sstop fn g result) s = .next t ∧ t.part fn = s.part fn ∧
      2 ^ 63 ≤ t.load result.toNat 8) ∧
  (∀ s fn g result, g < s.cycle + 2048 → result ≠ 0 → result.toNat % 8 = 0 → result.toNat < 192 * 2 ^ 30 →
    memCanonical s.mem = true → ∃ t, exec (.sresume fn g result) s = .next t ∧ t.part fn = s.part fn ∧
      2 ^ 63 ≤ t.load result.toNat 8) ∧
  (∀ s fn, s.cycle < (s.part fn).atCycle → exec (.syncStopStart fn) s = .next s ∧ exec (.syncResume fn) s = .next s) ∧
  (∀ s fn, (s.part fn).phase = .asked → (s.part fn).atCycle ≤ s.cycle → ∃ t, exec (.syncStopStart fn) s = .next t ∧
    (t.part fn).phase = .stopping ∧ t.cycle = s.cycle ∧ ∀ u, u ∈ (t.part fn).stopped ↔ u ∈ s.threadsIn fn ∧
      ((s.thr u).st = .running ∨ (s.thr u).st = .idle ∨ (s.thr u).st = .parked ∨ (s.thr u).st = .resuming)) ∧
  (∀ s fn u, (s.part fn).phase = .asked → (s.part fn).atCycle ≤ s.cycle → s.threads = ⟨[(u, s.thr u)]⟩ → s.covers fn (coreOf u) = true →
    (s.thr u).st = .running → ∃ t, exec (.syncStopStart fn) s = .next t ∧ (t.thr u).st = .stopping ∧
      (t.part fn).stopped = [u]) ∧
  (∀ s fn, (s.part fn).phase = .stopping → s.quietPart fn = true → ∃ t, exec (.quietAgreed fn) s = .next t ∧
    (t.part fn).phase = .agreed ∧ (t.part fn).tokens = [] ∧ (t.part fn).flying = inputPairs ∧ t.threads = s.threads ∧ t.mem = s.mem ∧
    ∀ n, isDealer n = false → s.covers fn n = true → ∀ r ∈ (t.core n).rstores, r.saved = (r.sent && !r.performed)) ∧
  (∀ s fn, s.quietPart fn = false → exec (.quietAgreed fn) s = .next s) ∧
  (∀ s fn router link vc, (router, link, vc) ∉ (s.part fn).flying → exec (.flushTokenArrival fn router link vc) s = .next s) ∧
  (∀ s fn router link vc, (s.part fn).phase = .agreed → (router, link, vc) ∈ (s.part fn).flying → ∃ t, exec (.flushTokenArrival fn router link vc) s = .next t ∧
      (router, link, vc) ∈ (t.part fn).tokens ∧ (t.part fn).phase = .agreed) ∧
  (∀ s fn, (s.part fn).phase = .agreed → (∀ x ∈ inputPairs, x ∈ (s.part fn).tokens) →
    (∀ u ∈ s.threadsIn fn, (s.thr u).st = .empty ∨ (s.thr u).st = .stopped) →
    ∃ t, exec (.syncStopComplete fn) s = .next t ∧ (t.part fn).phase = .stopped ∧ (t.part fn).stopped = (s.part fn).stopped) ∧
  (∀ s fn x, (s.part fn).phase = .agreed → x ∈ inputPairs → x ∉ (s.part fn).tokens →
    exec (.syncStopComplete fn) s = .next s) ∧
  (∀ s fn g, s.partAt fn = true → (s.part fn).phase = .stopped → s.cycle + 2048 ≤ g → ∃ t, exec (.sresume fn g 0) s = .next t ∧
    (t.part fn).phase = .resuming ∧ (t.part fn).atCycle = g ∧ t.threads = s.threads) ∧
  (∀ s fn, (s.part fn).phase = .resuming → (s.part fn).atCycle ≤ s.cycle → ∃ t, exec (.syncResume fn) s = .next t ∧
    (t.part fn).phase = .none ∧ (t.part fn).stopped = [] ∧ t.cycle = s.cycle) ∧
  (∀ s fn u, (s.part fn).phase = .resuming → (s.part fn).atCycle ≤ s.cycle → (s.part fn).stopped = [u] → (s.thr u).st = .stopped →
    (s.thr u).pmark = false → (s.thr u).saving = false → s.octets = {} →
    ∃ t, exec (.syncResume fn) s = .next t ∧ (t.thr u).st = .resuming) ∧
  (∀ s fn u, u ∈ s.threadsIn fn → (s.thr u).st ≠ .empty → (s.thr u).st ≠ .stopped → exec (.syncStopComplete fn) s = .next s) ∧
  (∀ s fn n, (s.part fn).phase = .resuming → (s.part fn).atCycle ≤ s.cycle → (s.part fn).stopped = [] → s.octets = {} →
    isDealer n = false → s.covers fn n = true → ∃ t, exec (.syncResume fn) s = .next t ∧ ∀ r ∈ (t.core n).rstores, r.saved = false)

/-- R367, R368, R370, R371, R380, R383: the links. A host write and read of a byte of BAR2 are homed accesses of the channels' first 6 GiB each; above
them a write is discarded and a read gives zero. An absent function answers a read and a configuration request with all ones, the latter as
Unsupported Request. The control page of a present function takes ELOG_TAIL, ACKSEQ of its seats, the deal rings and, on function 0, the management ring;
ACKSEQ keeps the journal's entries above it. A packet of one flit is coded word by word against the exponent table, which follows, is sent raw where
that is not longer, and is kept until acknowledged; the code of one flit is given, and what it decodes to. A packet that fails its CRC is replayed, and a
replay that fails counts; a link that has retrained and fails eight replays again is reported failed; after eight failures it retrains with the packets not
acknowledged kept, and the tables of a peer port's channel without such packets are those of a trained link at both ends. The oldest packet is acknowledged
else. A received packet is accepted only in sequence and intact (its header's layout, and configuration space: log 41, log 37). -/
def Obligations.LinksAndHost : Prop :=
  (∀ s fn off b, 0 < fn → s.partAt fn = true → memCanonical s.mem = true →
    off / 2 ^ 33 < (s.part fn).nodes → off % 2 ^ 33 < 6 * 2 ^ 30 →
    let a := (fn - 1 + off / 2 ^ 33) * (6 * 2 ^ 30) + off % 2 ^ 33
    ∃ t, exec (.hostBar2Write fn off [b]) s = .next t ∧ readCell t.mem a = b ∧
      ∀ x, x ≠ a → readCell t.mem x = readCell s.mem x) ∧
  (∀ s fn off b, 6 * 2 ^ 30 ≤ off % 2 ^ 33 → exec (.hostBar2Write fn off [b]) s = .next s) ∧
  (∀ s fn off, 0 < fn → s.partAt fn = true → off / 2 ^ 33 < (s.part fn).nodes → off % 2 ^ 33 < 6 * 2 ^ 30 →
    let a := (fn - 1 + off / 2 ^ 33) * (6 * 2 ^ 30) + off % 2 ^ 33
    s.poisoned a = false → ∃ t, exec (.hostBar2Read fn off 1) s = .next t ∧ (t.func fn).hostRead = [readCell s.mem a] ∧
      t.mem = s.mem) ∧
  (∀ s fn off, 0 < fn → s.partAt fn = true → 6 * 2 ^ 30 ≤ off % 2 ^ 33 → ∃ t, exec (.hostBar2Read fn off 1) s = .next t ∧
    (t.func fn).hostRead = [0]) ∧
  (∀ s fn off n, s.funcAt fn = false → ∃ t, exec (.hostBar2Read fn off n) s = .next t ∧
    (t.func fn).hostRead = List.replicate n 0xFF) ∧
  (∀ s fn, ∃ t, exec (.configRequest fn) s = .next t ∧ (t.func fn).unsupported = !s.funcAt fn ∧
    (s.funcAt fn = false → (t.func fn).hostRead = List.replicate 4 0xFF)) ∧
  (∀ s fn v, s.funcAt fn = true → ∃ t, exec (.controlPageWrite fn 0x18 v) s = .next t ∧ (t.func fn).elogTail = v) ∧
  (∀ s fn j v, s.funcAt fn = true → j < 16 → ∃ t, exec (.controlPageWrite fn (0x200 + 8 * j) v) s = .next t ∧
    (t.func fn).rings.get 0 j = v) ∧
  (∀ s v, s.funcAt 0 = true → ∃ t, exec (.controlPageWrite 0 0x300 v) s = .next t ∧ (t.func 0).mgmtRing = v) ∧
  (∀ s fn (seat : BitVec 4) v, let k := 16 * fn + seat.toNat
    (s.seatsOf fn).contains k = true → ∃ t, exec (.ackseqWrite fn seat v) s = .next t ∧ (t.seat k).ackSeq = v ∧
      (t.seat k).journal = (s.seat k).journal.filter fun j =>
        decide (((s.seat k).nextSeq - j.seq).toNat < ((s.seat k).nextSeq - v).toNat)) ∧
  (∀ s fn (seat : BitVec 4) v, s.funcAt fn = true → (s.seatsOf fn).contains (16 * fn + seat.toNat) = true →
    exec (.controlPageWrite fn (0x100 + 8 * seat.toNat) v) s = exec (.ackseqWrite fn seat (BitVec.ofNat 32 v.toNat)) s) ∧
  (∀ s port vc w0 w1 w2 w3 w4 w5 w6 w7, port < 16 → vc < 3 → (s.link (0x970 + port)).failed = false →
    (s.link (0x970 + port)).unacked.length < 64 →
    let ws : List (BitVec 32) := [w0, w1, w2, w3, w4, w5, w6, w7]
    let c := codeWords (s.expTable (4 * port + vc)).t ws
    ∃ t, exec (.peerFlitCoding port vc ws) s = .next t ∧ (t.expTable (4 * port + vc)).bits = c.2.1 ∧
      (t.expTable (4 * port + vc)).code = c.1 ∧ (t.expTable (4 * port + vc)).t = c.2.2 ∧
      ((t.expTable (4 * port + vc)).raw = true ↔ 256 ≤ c.2.1) ∧
      (t.link (0x970 + port)).unacked = (s.link (0x970 + port)).unacked ++
        [{ seq := (s.link (0x970 + port)).seq, vc := vc, words := ws }]) ∧
  ((codeWords [127, 126, 128, 125] [0x3F800000, 0x40000000, 0x3FC00000, 0x3F000000, 0x40400000, 0x3F800000, 0x43800000, 0]).2
    = (228, [0, 135, 127, 128])) ∧
  (∀ s link, isLink link = true → (s.link link).failed = false → (s.link link).retrained = false → (s.link link).unacked ≠ [] →
    ∃ t, exec (.linkCrcFailure link) s = .next t ∧ (t.link link).replaying = true ∧
      (t.link link).replays = (s.link link).replays + (if (s.link link).replaying then 1 else 0) ∧
      (t.link link).unacked = (s.link link).unacked ∧ (t.link link).failed = false) ∧
  (∀ s link, isLink link = true → (s.link link).failed = false → (s.link link).retrained = true → (s.link link).replaying = true →
    (s.link link).replays = 7 → (s.link link).unacked ≠ [] →
    ∃ t, exec (.linkCrcFailure link) s = .next t ∧ (t.link link).failed = true ∧ t.hub.eseq = s.hub.eseq + 1) ∧
  (∀ s link, isLink link = true → (s.link link).failed = false → 8 ≤ (s.link link).replays →
    ∃ t, exec (.linkRetrain link) s = .next t ∧ (t.link link).replays = 0 ∧ (t.link link).retrained = true ∧
      (t.link link).unacked = (s.link link).unacked ∧
      ∀ p vc, link = 0x970 + p → vc < 3 → (∀ q ∈ (s.link link).unacked, q.vc ≠ vc) →
        (t.expTable (4 * p + vc)).t = [127, 126, 128, 125] ∧ (t.expTable (4 * p + vc)).ackT = [127, 126, 128, 125]) ∧
  (∀ s link, (s.link link).unacked = [] → exec (.linkCrcFailure link) s = .next s) ∧
  (∀ s link p r, (s.link link).unacked = p :: r → (s.link link).failed = false → (s.link link).replays < 8 →
    ∃ t, linkTurn link s = .next t ∧ (t.link link).unacked = r ∧ (t.link link).replays = 0 ∧ (t.link link).replaying = false) ∧
  (∀ s port vc (seq : BitVec 12) raw n payload crc, port < 16 → vc < 3 →
    let k := 0x970 + port
    let t := peerReceive port vc seq raw n payload crc s
    (crc = crc32c (peerBytes seq vc raw n payload) → seq = (s.link k).next → (t.link k).next = (s.link k).next + 1 ∧ (t.link k).discards = false) ∧
    (crc = crc32c (peerBytes seq vc raw n payload) → seq ≠ (s.link k).next → t = s) ∧
    (crc ≠ crc32c (peerBytes seq vc raw n payload) → (t.link k).next = (s.link k).next ∧ (t.link k).got = (s.link k).got ∧
      (t.link k).discards = true)) ∧
  (decodeFlits 8 (codeWords [127, 126, 128, 125] [0x3F800000, 0x40000000, 0x3FC00000, 0x3F000000, 0x40400000, 0x3F800000, 0x43800000, 0]).1
    [127, 126, 128, 125] = ([0x3F800000, 0x40000000, 0x3FC00000, 0x3F000000, 0x40400000, 0x3F800000, 0x43800000, 0], [0, 135, 127, 128])) ∧
  (∀ s fn off, s.funcAt fn = true → (configRead fn off s).func fn = { s.func fn with
    unsupported := false, hostRead := bytesOf 4 (s.configWord fn off).toNat }) ∧
  (∀ (s : State) fn, s.configWord fn 0x44 = 1 ∧ s.configWord fn 0x100 = 0x1002E) ∧
  (∀ s fn j, s.funcAt fn = true → j < 16 → ((controlRead fn (0x200 + 8 * j) s).func fn).hostRead = bytesOf 8 ((s.func fn).rings.get 0 j).toNat)

/-- R372 to R375: power. A frame boundary, at a cycle that is a multiple of 8, applies the last decision that has arrived and leaves min(8 − STEP, LEVEL)
usable positions; in another cycle, or for a frame already begun, nothing happens. An allowed position, one of the last usable ones of the frame, takes a
broadcast cycle of the pass in progress, or the first of a pass that may start; where there is none, it carries one dummy broadcast while LEVEL is above 0. No other position
carries anything. Demand that appears at level 0 makes the level 1 and restarts the ramp timer; without demand, or with
demand that has been there, nothing happens. From the timer's 32nd cycle on the level moves by one, up with demand to 8 at most and down without, and the
timer restarts; before, nothing happens. A decision at the end of a window of 16 ticks numbers itself, moves the module's step and sends it to each octet with an
allotted array: one up where power is above PLIM, one down where it is below 95 % of it, else the same; before the window's end there is none. PLIM takes
1,200 W to 2,000 W and no other value. -/
def Obligations.Power : Prop :=
  (∀ s o, s.cycle % 8 ≠ 0 ∨ s.cycle / 8 ≤ (s.octet o).frame → exec (.frameBoundary o) s = .next s) ∧
  (∀ s o, s.cycle % 8 = 0 → (s.octet o).frame < s.cycle / 8 → ∃ t, exec (.frameBoundary o) s = .next t ∧ (t.octet o).decisions = [] ∧
    (t.octet o).usable = min (8 - (t.octet o).step) (s.octet o).level ∧ (t.octet o).level = (s.octet o).level ∧
    (t.octet o).step = (((s.octet o).decisions.getLast?.map fun d => d.step).getD (s.octet o).step) ∧
    (t.octet o).plim = (((s.octet o).decisions.getLast?.map fun d => d.plim).getD (s.octet o).plim) ∧
    (t.octet o).dseq = (((s.octet o).decisions.getLast?.map fun d => d.dseq).getD (s.octet o).dseq) ∧
    (t.octet o).frame = s.cycle / 8) ∧
  (∀ s o, s.cycle % 8 + (s.octet o).usable < 8 ∨ s.cycle < (s.octet o).issued → usePosition o s = s) ∧
  (∀ s o, 8 ≤ s.cycle % 8 + (s.octet o).usable → (s.octet o).issued ≤ s.cycle →
    let y := (usePosition o s).octet o
    (1 < (s.octet o).left → y.left = (s.octet o).left - 1 ∧ y.dummy = (s.octet o).dummy) ∧
    ((s.octet o).left = 0 → s.runReady o = true ∨ s.opReady o = true → y.left = s.nextWidth o - 1 ∧ y.dummy = (s.octet o).dummy) ∧
    ((s.octet o).left = 0 → s.runReady o = false → s.opReady o = false →
      y.left = 0 ∧ (0 < (s.octet o).level → y.dummy = ((s.octet o).dummy + 1) % 2 ^ 24) ∧ ((s.octet o).level = 0 → y.dummy = (s.octet o).dummy))) ∧
  (∀ s o, s.demand o = true → (s.octet o).rising = false → ∃ t, exec (.demandAppears o) s = .next t ∧
    (t.octet o).level = max 1 (s.octet o).level ∧ (t.octet o).rampAt = s.cycle ∧ (t.octet o).rising = true) ∧
  (∀ s o, s.demand o = false ∨ (s.octet o).rising = true → exec (.demandAppears o) s = .next s) ∧
  (∀ s o, 0 < (s.octet o).level → (s.octet o).level ≤ 8 → (s.octet o).rampAt + 32 ≤ s.cycle →
    (s.demand o = true → (s.octet o).rising = true) → ∃ t, exec (.rampTimerExpiry o) s = .next t ∧
    (t.octet o).rampAt = (s.octet o).rampAt + 32 ∧
    ((t.octet o).level : Int) = (if s.demand o = true then (if (s.octet o).level = 8 then 8 else ((s.octet o).level : Int) + 1)
      else ((s.octet o).level : Int) - 1)) ∧
  (∀ s o, (s.octet o).level = 0 ∨ s.cycle < (s.octet o).rampAt + 32 → exec (.rampTimerExpiry o) s = .next s) ∧
  (∀ s mw, s.cycle < 2048 * (s.hub.windows + 1) → exec (.powerDecision mw) s = .next s) ∧
  (∀ s mw, 2048 * (s.hub.windows + 1) ≤ s.cycle → ∃ t, exec (.powerDecision mw) s = .next t ∧
    t.hub.dseq = (s.hub.dseq + 1) % 65536 ∧
    (1000 * s.hub.plim < mw → t.hub.step = min (s.hub.step + 1) 7) ∧
    (100 * mw < 95 * (1000 * s.hub.plim) → t.hub.step = s.hub.step - 1) ∧
    (¬ 1000 * s.hub.plim < mw → ¬ 100 * mw < 95 * (1000 * s.hub.plim) → t.hub.step = s.hub.step) ∧
    ∀ o, o < 256 → (s.arrayAllotted o = true → (t.octet o).decisions = (s.octet o).decisions ++
        [{ step := t.hub.step, plim := s.hub.plim, dseq := (s.hub.dseq + 1) % 65536 }]) ∧
      (s.arrayAllotted o = false → t.octet o = s.octet o)) ∧
  (∀ s w, 1200 ≤ w → w ≤ 2000 → exec (.plim w 0) s = .next { s with hub := { s.hub with plim := w } }) ∧
  (∀ s w, w < 1200 ∨ 2000 < w → ∃ t, exec (.plim w 0) s = .next t ∧ t.hub = s.hub)

/-- R144, R334, R339 to R342, R378: the management commands. A merge of idle siblings makes their parent without seats, and the frames that the higher one
held pass to SCRUB; a split of an idle partition makes its two children; neither changes memory, and a split of one not idle is refused. An accepted
configuration of a partition waits for the tick; an accepted one of a seat does too, and the seat exists from then on. PTWRITE writes a doubleword of a
frame that the management function holds, and nothing else. POSTSYS gives what the acceptance gives, with accesses that no bucket meters, and −4 where the record is misaligned or cannot be read. BKTREAD
writes TOK, DEBT and K of a channel's bucket, three doublewords (that PTWRITE is refused elsewhere, that POSTSYS is not metered and how BKTREAD lays its words out are the model's
readings, log 30). TRKIMG writes a track word with its tag and marker, and no other. FRAMES, on one frame, allots a FREE one, releases one
that its holder has to its channel's scrubs, and retires a FREE one; an allotment or release that names a frame for which it may not act gives −2 and
changes nothing else. -/
def Obligations.Management : Prop :=
  (∀ s f, s.canMerge f = true → ∃ t, exec (.partcfg (.merge f) 0) s = .next t ∧
    (t.part (s.mergeLow f)).level = (s.part (s.mergeLow f)).level + 1 ∧ t.mem = s.mem ∧
    t.seatsOf (s.mergeLow f) = [] ∧
    let hi := s.mergeLow f + (s.part f).nodes
    ∀ k, s.frame k = .held hi → hi - 1 ≤ k * 65536 / (6 * 2 ^ 30) → k * 65536 / (6 * 2 ^ 30) < hi - 1 + (s.part hi).nodes →
      t.frame k = .scrub) ∧
  (∀ s f, s.partIdle f = true → 3 < (s.part f).level → (s.part f).level ≤ 8 → ∃ t, exec (.partcfg (.split f) 0) s = .next t ∧
    (t.part f).level = (s.part f).level - 1 ∧ (t.part (f + (s.part f).nodes / 2)).level = (s.part f).level - 1 ∧
    t.partAt (f + (s.part f).nodes / 2) = true ∧ t.mem = s.mem) ∧
  (∀ s f, s.partIdle f = false → ∃ t, exec (.partcfg (.split f) 0) s = .next t ∧ t = { s with free := s.free + 1 }) ∧
  (∀ s f cs ws, s.acceptsPart f cs ws = true → ∃ t, exec (.partcfg (.config f cs ws) 0) s = .next t ∧
    (t.part f).pendingCfg = some (cs, ws) ∧ (t.part f).cmbase = (s.part f).cmbase) ∧
  (∀ s fn (seat : BitVec 4) cfg, s.acceptsSeat fn (16 * fn + seat.toNat) cfg = true →
    ∃ t, exec (.seatcfg fn seat cfg 0) s = .next t ∧
      (t.part fn).pending = (s.part fn).pending ++ [(16 * fn + seat.toNat, cfg)] ∧
      (cfg ≠ none → fn < 64 → (t.seatsOf fn).contains (16 * fn + seat.toNat) = true) ∧
      (cfg = none ∨ (s.seatsOf fn).contains (16 * fn + seat.toNat) = true → t.seats = s.seats)) ∧
  (∀ s (addr v : Word), addr.toNat % 8 = 0 → addr.toNat < 192 * 2 ^ 30 → s.frame (addr.toNat / 65536) = .held 0 →
    memCanonical s.mem = true → ∃ t, exec (.ptwrite addr v 0) s = .next t ∧ t.load addr.toNat 8 = v.toNat ∧
      ∀ a, a < addr.toNat ∨ addr.toNat + 8 ≤ a → readCell t.mem a = readCell s.mem a) ∧
  (∀ s (addr v : Word), s.frame (addr.toNat / 65536) ≠ .held 0 → ∃ t, exec (.ptwrite addr v 0) s = .next t ∧ t.mem = s.mem) ∧
  (∀ s s1 fn (record : Word) r v, record.toNat % 64 = 0 →
    Gives (readRecord (fun (a : Word) n => do
      match ← look fun s => s.hubWords a.toNat n with
      | some ws => return ws
      | none => trap 16 0x01 a) record) { s with arbs := {} } r { s with arbs := {} } →
    Gives (acceptDeal { system := true, compute := false, seat := none, part := none,
                        ag := { core := 16 * r.home, tid := 99999, seat := 16 * fn + r.seatField, deal := none },
                        tail := none } record r) { s with arbs := {} } v s1 →
    exec (.postsys fn record 0) s = .next { s1 with arbs := s.arbs, paid := s.paid }) ∧
  (∀ s fn (record result : Word), record.toNat % 64 ≠ 0 → exec (.postsys fn record result) s = .next (answer result (-4) s)) ∧
  (∀ s fn (record result : Word), record.toNat % 64 = 0 →
    (readRecord (fun (a : Word) n => do
      match ← look fun s => s.hubWords a.toNat n with
      | some ws => return ws
      | none => trap 16 0x01 a) record { s with arbs := {} }).toOption = none →
    exec (.postsys fn record result) s = .next (answer result (-4) s)) ∧
  (∀ s c b (dest : Word), c < 32 → dest.toNat % 8 = 0 → dest.toNat < 192 * 2 ^ 30 → memCanonical s.mem = true →
    let x := (s.arb (channelArb c)).bucket b
    x.tok < 2 ^ 64 → x.debt < 2 ^ 64 → (s.arb (channelArb c)).kitty < 2 ^ 64 →
    ∃ t, exec (.bktread (.channel c) b dest 0) s = .next t ∧ t.load dest.toNat 8 = x.tok ∧
      t.load (dest.toNat + 8) 8 = x.debt ∧ t.load (dest.toNat + 16) 8 = (s.arb (channelArb c)).kitty) ∧
  (∀ s c k pos src w, c < 128 → k < s.cmBaseOf c → pos < 4096 → s.hubWords src 1 = some [w] →
    ∃ t, exec (.trkimg c k pos src 1 0) s = .next t ∧ (t.track c k).shown pos = trackWord pos w ∧ t.mem = s.mem ∧
      ∀ p, p ≠ pos → (t.track c k).words.get {} p = (s.track c k).words.get {} p) ∧
  (∀ s holder f, (f + 1) * 65536 ≤ 192 * 2 ^ 30 → s.frame f = .free → s.mayHold holder f = true →
    exec (.framesAllot holder f 1 0) s = .next (s.setFrame f (.held holder))) ∧
  (∀ s holder first count i result, i < count → (s.frame (first + i) ≠ .free ∨ s.mayHold holder (first + i) = false) →
    exec (.framesAllot holder first count result) s = .next (answer result (-2) s)) ∧
  (∀ s holder f, (f + 1) * 65536 ≤ 192 * 2 ^ 30 → s.frame f = .held holder → ∃ t, exec (.framesRelease holder f 1 0) s = .next t ∧
    t.frame f = .scrub ∧ t.scrubs.get [] (f * 65536 / (6 * 2 ^ 30)) = s.scrubs.get [] (f * 65536 / (6 * 2 ^ 30)) ++ [f] ∧
    t.mem = s.mem) ∧
  (∀ s holder first count i result, i < count → s.frame (first + i) ≠ .held holder →
    exec (.framesRelease holder first count result) s = .next (answer result (-2) s)) ∧
  (∀ s holder f, (f + 1) * 65536 ≤ 192 * 2 ^ 30 → s.frame f = .free →
    exec (.framesRetire holder f 1 0) s = .next (s.setFrame f .retired))

/-- R340, R379, R384 to R387, R389, R391, R392: the hub. Power-on brings the host link up and boots a valid slot, the other one with a report where the
active one is invalid; of a module that runs it leaves nothing but the flash (log 35). A die that trains enters service and its dealer cores start, one that does not is reported, and full service comes with the last. FWSTAGE writes the
inactive slot only, and gives −5 for the active one. FWACT starts the quiesce, and gives −2 for an invalid image and −6 during an update; with every QACK the hub hands over, extends the chain and
sets STATE 2; without one, from the deadline on, or with the last past it, STATE is 0 again, and before it nothing happens. A heartbeat of the trial version within the limit
commits; another version does not; past the limit, and not before, the old image is back with STATE 3. Resets of a dealer core, a die and, with no
deal accepted, a function leave seats and task queues; the reset cores' threads are EMPTY; a function's reset ends its stop and clears its registers with
ACKSEQ, and frames and GDDR stay. Each SPDM request to a present function gets its answer in the exchange's order and an error out of it (the order and what
is signed: log 36), and an absent one none. -/
def Obligations.FirmwareAndResets : Prop :=
  (∀ s, s.hub.up = false → s.hub.active.valid = true → ∃ t, exec .powerOn s = .next t ∧ t.hub.up = true ∧ t.hub.activeB = s.hub.activeB ∧
    ∀ k ∈ s.dealersUp, (t.thr (4 * (2048 + k))).st = .running ∧ (t.thr (4 * (2048 + k))).pc = s.hub.active.entry ∧
      (t.thr (4 * (2048 + k))).regs.get 0 11 = 0 ∧ (t.thr (4 * (2048 + k))).regs.get 0 12 = BitVec.ofNat 64 k) ∧
  (∀ s, s.hub.up = false → s.hub.active.valid = false → s.hub.inactive.valid = true → ∃ t, exec .powerOn s = .next t ∧
    t.hub.activeB = !s.hub.activeB ∧ t.hub.eseq = s.hub.eseq + 1) ∧
  (∀ s d, d < 8 → d ∉ s.hub.trained → d ∉ s.hub.failedDies → ∃ t, exec (.memoryTrainingDone d true) s = .next t ∧
    t.hub.trained = s.hub.trained ++ [d] ∧
    (t.hub.fullService = true ↔ s.hub.trained.length + s.hub.failedDies.length = 7) ∧
    (s.hub.up = true → s.hub.active.valid = true → ∀ k, k / 2 = d → (t.thr (4 * (2048 + k))).st = .running ∧
      (t.thr (4 * (2048 + k))).pc = s.hub.active.entry ∧ (t.thr (4 * (2048 + k))).regs.get 0 11 = 0)) ∧
  (∀ s d, d < 8 → d ∉ s.hub.trained → d ∉ s.hub.failedDies → ∃ t, exec (.memoryTrainingDone d false) s = .next t ∧
    t.hub.trained = s.hub.trained ∧ t.hub.failedDies = s.hub.failedDies ++ [d] ∧ t.hub.eseq = s.hub.eseq + 1) ∧
  (∀ s (src : Word) len, s.hub.activeB = false → src.toNat + len ≤ 192 * 2 ^ 30 → ∃ t, exec (.fwstage 1 src len 0) s = .next t ∧
    t.hub.slotA = s.hub.slotA ∧ t.hub.slotB.digest = Config.sha256 (readCells s.mem src.toNat len) ∧
    t.hub.slotB.valid = Config.ecdsaValid (Config.sha256 (readCells s.mem src.toNat len)) (Config.imageSig (readCells s.mem src.toNat len)) ∧
    t.hub.slotB.image = readCells s.mem src.toNat len) ∧
  (∀ s (src result : Word) len, exec (.fwstage (if s.hub.activeB then 1 else 0) src len result) s = .next (answer result (-5) s)) ∧
  (∀ s result, s.hub.state = 0 ∨ s.hub.state = 3 → s.hub.inactive.valid = true → ∃ t, exec (.fwact result) s = .next t ∧
    t.hub.state = 1 ∧ t.hub.activeB = s.hub.activeB) ∧
  (∀ s result, s.hub.state = 0 ∨ s.hub.state = 3 → s.hub.inactive.valid = false →
    exec (.fwact result) s = .next (answer result (-2) s)) ∧
  (∀ s result, s.hub.state = 1 ∨ s.hub.state = 2 → exec (.fwact result) s = .next (answer result (-6) s)) ∧
  (∀ s k, k < 16 → ∃ t, exec (.qack k) s = .next t ∧ k ∈ t.hub.qacks) ∧
  (∀ s, s.hub.state = 1 → (∀ k, k < 16 → k ∈ s.hub.qacks) → s.cycle ≤ s.hub.deadline → ∃ t, exec .fwQuiesceAck s = .next t ∧ t.hub.state = 2 ∧
    t.hub.activeB = !s.hub.activeB ∧ t.hub.qacks = [] ∧ t.hub.deadline = s.cycle + 3800000 ∧
    t.hub.block5 = Config.sha256 (bytesOf 32 s.hub.block5.toNat ++ bytesOf 32 s.hub.inactive.digest.toNat)) ∧
  (∀ s, s.cycle < s.hub.deadline → exec .quiesceTimeout s = .next s) ∧
  (∀ s k, s.hub.state = 1 → k < 16 → k ∉ s.hub.qacks → s.hub.deadline ≤ s.cycle → ∃ t, exec .quiesceTimeout s = .next t ∧ t.hub.state = 0 ∧
    t.hub.activeB = s.hub.activeB) ∧
  (∀ s k, s.hub.state = 2 → k < 16 → s.cycle ≤ s.hub.deadline → s.hub.result = 0 →
    ∃ t, exec (.heartbeat k s.hub.active.version) s = .next t ∧ t.hub.state = 0 ∧ t.hub.activeB = s.hub.activeB) ∧
  (∀ s k v, s.hub.state = 2 → k < 16 → v ≠ s.hub.active.version →
    ∃ t, exec (.heartbeat k v) s = .next t ∧ t.hub.state = 2) ∧
  (∀ s, s.cycle ≤ s.hub.deadline → exec .heartbeatMissed s = .next s) ∧
  (∀ s, s.hub.state = 2 → s.hub.result = 0 → s.hub.deadline < s.cycle → ∃ t, exec .heartbeatMissed s = .next t ∧ t.hub.state = 3 ∧
    t.hub.activeB = !s.hub.activeB ∧ t.hub.qacks = []) ∧
  (∀ s k, k < 16 → ∃ t, exec (.dealerCoreReset k) s = .next t ∧ t.hub.qacks = s.hub.qacks.filter (fun x => x != k) ∧
    t.seats = s.seats ∧ ∀ c, (t.cluster c).queue = (s.cluster c).queue) ∧
  (∀ s d, d < 8 → s.deals = {} → ∃ t, exec (.dieReset d) s = .next t ∧
    (∀ n, 256 * d ≤ n → n < 256 * (d + 1) → (∀ u ∈ threadsOf n, (t.thr u).st = .empty) ∧ t.core n = {}) ∧ t.seats = s.seats ∧
    ∀ c, (t.cluster c).queue = (s.cluster c).queue) ∧
  (∀ s f, 0 < f → s.partAt f = true → s.deals = {} → ∃ t, exec (.functionReset f) s = .next t ∧ (t.part f).phase = .none ∧
    t.func f = {} ∧ (∀ k, (t.seat k).nextSeq = (s.seat k).nextSeq ∧ (t.seat k).journal = (s.seat k).journal ∧ (t.seat k).cfg = (s.seat k).cfg ∧
      ((s.seatsOf f).contains k = true → (t.seat k).ackSeq = 0)) ∧ (∀ a, a < 192 * 2 ^ 30 → readCell t.mem a = readCell s.mem a) ∧ t.frames = s.frames ∧
    (∀ c, (t.cluster c).queue = (s.cluster c).queue) ∧ ∀ n ∈ s.allCores f, ∀ u ∈ threadsOf n, (t.thr u).st = .empty) ∧
  (∀ s fn, s.funcAt fn = true →
    (∃ t, exec (.getVersion fn) s = .next t ∧ t.hub.spdmAns = .version 0x12 ∧ t.hub.spdm.get 0 fn = 1) ∧
    (s.hub.spdm.get 0 fn = 1 → ∃ t, exec (.getCapabilities fn) s = .next t ∧ t.hub.spdmAns = .capabilities false ∧ t.hub.spdm.get 0 fn = 2) ∧
    (s.hub.spdm.get 0 fn = 2 → ∃ t, exec (.negotiateAlgorithms fn true true) s = .next t ∧ t.hub.spdmAns = .algorithms true true ∧
      t.hub.spdm.get 0 fn = 3) ∧
    (∀ p h, (p && h) = false → ∃ t, exec (.negotiateAlgorithms fn p h) s = .next t ∧ t.hub.spdmAns = .error ∧ t.hub.spdm = s.hub.spdm) ∧
    (s.hub.spdm.get 0 fn = 3 →
      (∃ t, exec (.getDigests fn) s = .next t ∧ t.hub.spdmAns = .digests [Config.sha256 Config.certChain]) ∧
      (∃ t, exec (.getCertificate fn 0) s = .next t ∧ t.hub.spdmAns = .certificate 0 Config.certChain) ∧
      (∀ nonce, ∃ t x, exec (.challenge fn 0 nonce) s = .next t ∧
        t.hub.spdmAns = .challengeAuth 0 nonce x (Config.ecdsaSign (bytesOf 32 nonce.toNat ++ bytesOf 32 x.toNat))) ∧
      (∃ t, exec (.getMeasurements fn 0) s = .next t ∧ t.hub.spdmAns = .measurements s.blocks) ∧
      ∃ t, exec (.getMeasurements fn 5) s = .next t ∧ t.hub.spdmAns = .measurements [(5, s.hub.block5)]) ∧
    (∀ slot nonce, slot ≠ 0 → ∃ t, exec (.challenge fn slot nonce) s = .next t ∧ t.hub.spdmAns = .error) ∧
    (∀ slot, slot ≠ 0 → ∃ t, exec (.getCertificate fn slot) s = .next t ∧ t.hub.spdmAns = .error) ∧
    (s.hub.spdm.get 0 fn < 3 → ∀ nonce, (∃ t, exec (.challenge fn 0 nonce) s = .next t ∧ t.hub.spdmAns = .error) ∧
      (∃ t, exec (.getDigests fn) s = .next t ∧ t.hub.spdmAns = .error) ∧ ∃ t, exec (.getMeasurements fn 0) s = .next t ∧ t.hub.spdmAns = .error) ∧
    ∀ n, 5 < n → ∃ t, exec (.getMeasurements fn n) s = .next t ∧ t.hub.spdmAns = .error) ∧
  (∀ s fn, s.funcAt fn = false → exec (.getVersion fn) s = .next s) ∧
  (∀ s, s.hub.up = true → ∃ t, exec .powerOn s = .next t ∧ t.hub.up = true ∧ t.hub.slotA = s.hub.slotA ∧ t.hub.slotB = s.hub.slotB ∧
    t.mem = s.mem.filter (fun c => onHost c.1) ∧ t.threads = {} ∧ t.cores = {} ∧ t.octets = {} ∧ t.clusters = {} ∧ t.frames = {} ∧ t.seats = {} ∧ t.deals = {} ∧ t.cycle = 0) ∧
  (∀ s, s.hub.state = 1 → (∀ k, k < 16 → k ∈ s.hub.qacks) → s.hub.deadline < s.cycle → exec .fwQuiesceAck s = .next s ∧
    ∃ t, exec .quiesceTimeout s = .next t ∧ t.hub.state = 0 ∧ t.hub.activeB = s.hub.activeB) ∧
  (∀ s, s.hub.up = true → exec (.functionReset 0) s = .next (s.setFunc 0 {}))

/-! ## Frames, the memory, reset, and words -/

/-- Table 2.4 to Table 2.10, R28, R36: the frame of the forms that write a register only, in a thread outside a gang with no
register in stream mode: the destination alone changes among the registers, x0 stays, the thread goes on at the next unit, every
other thread stays, and so does everything else but what the issue of a word charges. -/
def Obligations.RegisterFrame : Prop :=
  ∀ (i : Instr) (rd : Reg) (s : State), plainDest i = some rd → Ready i s → (s.thr s.cur).leader = false →
    (s.thr s.cur).fq = [] → (s.thr s.cur).binds = {} →
    ∃ t r, exec i s = .next t ∧ t.thr s.cur = (s.thr s.cur).afterPlain r ∧
      (rd = 0 → r = (s.thr s.cur).regs) ∧ (∀ x, x ≠ rd.toNat → r.get 0 x = (s.thr s.cur).regs.get 0 x) ∧
      (∀ k, k ≠ s.cur → t.thr k = s.thr k) ∧ s.onlyIssue t

/-- R52, R105, R108, R113: the base stores to the thread's own scratchpad, where the seat owns the bank and no channel's region
holds the bytes: the bytes at the address that the model's placement gives hold the low bytes of rs2, and every other byte
of memory, every register, and everything that the store does not touch stay as they were. -/
def Obligations.ScratchpadStores : Prop :=
  ∀ (mk : Reg → Reg → BitVec 12 → Instr) (n : Nat),
    (mk, n) ∈ [(Instr.sb, 1), (Instr.sh, 2), (Instr.sw, 4), (Instr.sd, 8)] →
    ∀ (rs2 rs1 : Reg) (imm : BitVec 12) (s : State) (a v : Word) (off : Nat), Ready (mk rs2 rs1 imm) s →
      memCanonical s.mem = true → coreOf s.cur < 2048 → (s.thr s.cur).relMark = none → (s.thr s.cur).leader = false →
      (s.thr s.cur).fq = [] → Gives (readX rs1) s a s → Gives (readX rs2) s v s →
      let c := coreOf s.cur
      let va := (rewriteOwn c (a + imm.signExtend 64)).toNat
      (a + imm.signExtend 64).toNat % n = 0 → s.heldBy (clusterOf c) va n = none → placeOf c va = .bank c off →
      off < 0x60000 → s.bankOwned ((s.thr s.cur).seat.getD 0) c off = true →
      let p := bankAddr c off
      ∃ t, exec (mk rs2 rs1 imm) s = .next t ∧ t.load p n = v.toNat % 2 ^ (8 * n) ∧
        (∀ x, x < p ∨ p + n ≤ x → readCell t.mem x = readCell s.mem x) ∧
        (t.thr s.cur).regs = (s.thr s.cur).regs ∧ (t.thr s.cur).pc = (s.thr s.cur).pc + 4 ∧
        (∀ k, k ≠ s.cur → (t.thr k).regs = (s.thr k).regs ∧ (t.thr k).pc = (s.thr k).pc ∧ (t.thr k).st = (s.thr k).st) ∧
        t.octets = s.octets ∧ t.clusters = s.clusters ∧ t.frames = s.frames ∧ t.seats = s.seats ∧ t.slices = s.slices ∧
        t.hub = s.hub

/-- The model's memory stays in its canonical form: whatever a step does, rising addresses and no entry that repeats what an
unlisted byte reads as (log 2). -/
def Obligations.MemoryStaysCanonical : Prop :=
  ∀ s t : State, memCanonical s.mem = true → step s = .next t → memCanonical t.mem = true

/-- The state after reset, where the field maps give a value (that registers are 0 then, and that the lists of commands and inputs are empty, are the
model's choices, logs 1 and 4): R63: every thread is EMPTY; R80, R377: PWR_STEP shows PLIM 2,000 and
step 0; R334: frames are FREE; R381: no report has been made; R386: the update chain is 32 zero bytes; R389: FW_SLOT.STATE is
0; the cycle count starts at 0; and memory is in its canonical form. -/
def Obligations.ResetState : Prop :=
  memCanonical State.reset.mem = true ∧
  (∀ t, (State.reset.thr t).st = .empty ∧ (State.reset.thr t).inTrap = false ∧ (State.reset.thr t).regs = {}) ∧
  (∀ t, coreOf t < 2048 → csrRead State.reset t 0x400 = 2000 * 2 ^ 32 ∧ csrRead State.reset t 0x402 = 0) ∧
  (∀ f, State.reset.frame f = .free) ∧
  State.reset.hub.eseq = 0 ∧ State.reset.hub.block5 = 0 ∧ State.reset.hub.state = 0 ∧ State.reset.cycle = 0 ∧
  State.reset.pend = [] ∧ State.reset.agenda = []

/-- R18 to R26: some words written out field by field from the encoding tables, with the instructions they stand for, and words
that no table assigns. -/
def Obligations.DecodedWords : Prop :=
  decode (0b0000000#7 ++ 0b00010#5 ++ 0b00001#5 ++ 0b000#3 ++ 0b00011#5 ++ 0b0110011#7) = .ok (.add 3 1 2) ∧
  decode (0b111111111110#12 ++ 0b00110#5 ++ 0b000#3 ++ 0b00101#5 ++ 0b0010011#7) = .ok (.addi 5 6 0xFFE) ∧
  decode (0b0000001#7 ++ 0b00010#5 ++ 0b00011#5 ++ 0b011#3 ++ 0b01000#5 ++ 0b0100011#7) = .ok (.sd 2 3 0x028) ∧
  decode (0b1000000#7 ++ 0b00010#5 ++ 0b00001#5 ++ 0b000#3 ++ 0b01001#5 ++ 0b1100011#7) = .ok (.beq 1 2 0xC04) ∧
  decode (0b000000000110#12 ++ 0b00010#5 ++ 0b001#3 ++ 0b00001#5 ++ 0b1110011#7) = .ok (.csrrw 1 0x006 2) ∧
  decode (0b010#3 ++ 0b01#2 ++ 0b11#2 ++ 0b0#1 ++ 0b0101#4 ++ 0b00010#5 ++ 0b001#3 ++ 0b00001#5 ++ 0b0001011#7) =
    .ok (.ldo 1 2 .oct 1 .lastUse 5) ∧
  decode (0b0010#4 ++ 0b011#3 ++ 0b00010#5 ++ 0b00001#5 ++ 0b000#3 ++ 0b00000#5 ++ 0b1011011#7) = .ok (.hdSeek 3 1 2) ∧
  decode (0b0000011#7 ++ 0b00011#5 ++ 0b00010#5 ++ 0b001#3 ++ 0b00001#5 ++ 0b1011011#7) = .ok (.cpGo 1 2 3) ∧
  decode (0b0000#4 ++ 0b1#1 ++ 0b1#1 ++ 0b0#1 ++ 0b00011#5 ++ 0b00010#5 ++ 0b000#3 ++ 0b00001#5 ++ 0b1111011#7) =
    .ok (.amoAdd true true false 1 2 3) ∧
  decode (0b1000010#7 ++ 0b00011#5 ++ 0b00010#5 ++ 0b010#3 ++ 0b00001#5 ++ 0b1111011#7) = .ok (.barWaitN 1 2 3) ∧
  decode (0b0000000#7 ++ 0b00000#5 ++ 0b00010#5 ++ 0b100#3 ++ 0b00001#5 ++ 0b1111011#7) = .ok (.dealPost 1 2) ∧
  decode (0b00000#5 ++ 0b01#2 ++ 0b00011#5 ++ 0b00010#5 ++ 0b001#3 ++ 0b00001#5 ++ 0b0101011#7) = .ok (.vfadd .f32 1 2 3) ∧
  decode (0b000#3 ++ 0b10#2 ++ 0b00#2 ++ 0b00000#5 ++ 0b00010#5 ++ 0b101#3 ++ 0b00001#5 ++ 0b0101011#7) = .ok (.vld .b32 1 2) ∧
  decode (0b0000011#7 ++ 0b00000#5 ++ 0b00010#5 ++ 0b010#3 ++ 0b00000#5 ++ 0b1011011#7) = .ok (.mxGo 2) ∧
  decode (0b0000000#7 ++ 0b00011#5 ++ 0b00010#5 ++ 0b011#3 ++ 0b00001#5 ++ 0b1011011#7) = .ok (.wdEnter 1 2 3) ∧
  decode (0b0000000#7 ++ 0b00000#5 ++ 0b00010#5 ++ 0b100#3 ++ 0b00001#5 ++ 0b1011011#7) = .ok (.txReq 1 2) ∧
  decode (0b10000000000000000#17 ++ 0b111#3 ++ 0b00001#5 ++ 0b1111011#7) = .ok (.pfxImm 0x200001) ∧
  decode (0b0000000#7 ++ 0b00100#5 ++ 0b00111#5 ++ 0b110#3 ++ 0b00000#5 ++ 0b1111011#7) = .ok (.trap 4 7) ∧
  (decode 0).toOption = none ∧ (decode (0b0000000#7 ++ 0b00000#5 ++ 0b00000#5 ++ 0b100#3 ++ 0b00000#5 ++ 0b0001011#7)).toOption = none
end

