-- ==== Sys2Proof/Laws/NMap.lean ====
section
/-! SUPPORT. Read after write for the numbered tables, for any list of cells. -/

namespace Sys2Proof.Machine

theorem lookupCells_insertCells {V : Type} (d v : V) (i j : Nat) (l : List (Nat × V)) :
    lookupCells d j (insertCells i v l) = if i = j then v else lookupCells d j l := by
  induction l with
  | nil => simp [insertCells, lookupCells]
  | cons c r ih =>
    obtain ⟨k, w⟩ := c
    simp only [insertCells]
    split
    · rename_i hk
      subst hk
      by_cases h : k = j <;> simp [lookupCells, h]
    · split
      · by_cases h : i = j
        · simp [lookupCells, h]
        · simp [lookupCells, h]
      · by_cases hk : k = j
        · have : i ≠ j := by omega
          simp [lookupCells, hk, this]
        · simp [lookupCells, hk, ih]

@[simp] theorem NMap.get_set_same {V : Type} (m : NMap V) (d v : V) (i : Nat) : (m.set i v).get d i = v := by
  simp [NMap.get, NMap.set, lookupCells_insertCells]

theorem NMap.get_set {V : Type} (m : NMap V) (d v : V) (i j : Nat) :
    (m.set i v).get d j = if i = j then v else m.get d j := by
  simp [NMap.get, NMap.set, lookupCells_insertCells]

theorem NMap.get_set_other {V : Type} (m : NMap V) (d v : V) {i j : Nat} (h : i ≠ j) :
    (m.set i v).get d j = m.get d j := by
  simp [NMap.get_set, h]

theorem insertCells_insertCells {V : Type} (i : Nat) (v w : V) (l : List (Nat × V)) :
    insertCells i w (insertCells i v l) = insertCells i w l := by
  induction l with
  | nil => simp [insertCells]
  | cons c r ih =>
    obtain ⟨k, x⟩ := c
    simp only [insertCells]
    split
    · simp [insertCells]
    · split
      · simp [insertCells]
      · rename_i h1 h2
        simp [insertCells, h1, h2, ih]

/-- The last of two writes to a key stands. -/
@[simp] theorem NMap.set_set {V : Type} (m : NMap V) (i : Nat) (v w : V) : (m.set i v).set i w = m.set i w := by
  simp [NMap.set, insertCells_insertCells]

@[simp] theorem NMap.get_empty {V : Type} (d : V) (i : Nat) : (({} : NMap V)).get d i = d := rfl

end Sys2Proof.Machine
end

