-- ==== Sys2Proof/Laws/State.lean ====
section
/-! SUPPORT. What each setter of a part of the state leaves and what is read back from it. -/

namespace Sys2Proof.Machine

/-! ## setThr -/

@[simp] theorem State.setThr_mem (s : State) (k : Nat) (x : Thread) : (s.setThr k x).mem = s.mem := rfl
@[simp] theorem State.setThr_poison (s : State) (k : Nat) (x : Thread) : (s.setThr k x).poison = s.poison := rfl
@[simp] theorem State.setThr_cores (s : State) (k : Nat) (x : Thread) : (s.setThr k x).cores = s.cores := rfl
@[simp] theorem State.setThr_octets (s : State) (k : Nat) (x : Thread) : (s.setThr k x).octets = s.octets := rfl
@[simp] theorem State.setThr_clusters (s : State) (k : Nat) (x : Thread) : (s.setThr k x).clusters = s.clusters := rfl
@[simp] theorem State.setThr_parts (s : State) (k : Nat) (x : Thread) : (s.setThr k x).parts = s.parts := rfl
@[simp] theorem State.setThr_seats (s : State) (k : Nat) (x : Thread) : (s.setThr k x).seats = s.seats := rfl
@[simp] theorem State.setThr_deals (s : State) (k : Nat) (x : Thread) : (s.setThr k x).deals = s.deals := rfl
@[simp] theorem State.setThr_nextDeal (s : State) (k : Nat) (x : Thread) : (s.setThr k x).nextDeal = s.nextDeal := rfl
@[simp] theorem State.setThr_frames (s : State) (k : Nat) (x : Thread) : (s.setThr k x).frames = s.frames := rfl
@[simp] theorem State.setThr_scrubs (s : State) (k : Nat) (x : Thread) : (s.setThr k x).scrubs = s.scrubs := rfl
@[simp] theorem State.setThr_scrubLeft (s : State) (k : Nat) (x : Thread) : (s.setThr k x).scrubLeft = s.scrubLeft := rfl
@[simp] theorem State.setThr_slices (s : State) (k : Nat) (x : Thread) : (s.setThr k x).slices = s.slices := rfl
@[simp] theorem State.setThr_arbs (s : State) (k : Nat) (x : Thread) : (s.setThr k x).arbs = s.arbs := rfl
@[simp] theorem State.setThr_paid (s : State) (k : Nat) (x : Thread) : (s.setThr k x).paid = s.paid := rfl
@[simp] theorem State.setThr_links (s : State) (k : Nat) (x : Thread) : (s.setThr k x).links = s.links := rfl
@[simp] theorem State.setThr_expTables (s : State) (k : Nat) (x : Thread) : (s.setThr k x).expTables = s.expTables := rfl
@[simp] theorem State.setThr_funcs (s : State) (k : Nat) (x : Thread) : (s.setThr k x).funcs = s.funcs := rfl
@[simp] theorem State.setThr_hub (s : State) (k : Nat) (x : Thread) : (s.setThr k x).hub = s.hub := rfl
@[simp] theorem State.setThr_root (s : State) (k : Nat) (x : Thread) : (s.setThr k x).root = s.root := rfl
@[simp] theorem State.setThr_dealerRt (s : State) (k : Nat) (x : Thread) : (s.setThr k x).dealerRt = s.dealerRt := rfl
@[simp] theorem State.setThr_cycle (s : State) (k : Nat) (x : Thread) : (s.setThr k x).cycle = s.cycle := rfl
@[simp] theorem State.setThr_ticks (s : State) (k : Nat) (x : Thread) : (s.setThr k x).ticks = s.ticks := rfl
@[simp] theorem State.setThr_energyNone (s : State) (k : Nat) (x : Thread) : (s.setThr k x).energyNone = s.energyNone := rfl
@[simp] theorem State.setThr_energyAll (s : State) (k : Nat) (x : Thread) : (s.setThr k x).energyAll = s.energyAll := rfl
@[simp] theorem State.setThr_free (s : State) (k : Nat) (x : Thread) : (s.setThr k x).free = s.free := rfl
@[simp] theorem State.setThr_cur (s : State) (k : Nat) (x : Thread) : (s.setThr k x).cur = s.cur := rfl
@[simp] theorem State.setThr_coreAt (s : State) (k : Nat) (x : Thread) : (s.setThr k x).coreAt = s.coreAt := rfl
@[simp] theorem State.setThr_slotUsed (s : State) (k : Nat) (x : Thread) : (s.setThr k x).slotUsed = s.slotUsed := rfl
@[simp] theorem State.setThr_evTurn (s : State) (k : Nat) (x : Thread) : (s.setThr k x).evTurn = s.evTurn := rfl
@[simp] theorem State.setThr_evLeft (s : State) (k : Nat) (x : Thread) : (s.setThr k x).evLeft = s.evLeft := rfl
@[simp] theorem State.setThr_evCur (s : State) (k : Nat) (x : Thread) : (s.setThr k x).evCur = s.evCur := rfl
@[simp] theorem State.setThr_now (s : State) (k : Nat) (x : Thread) : (s.setThr k x).now = s.now := rfl
@[simp] theorem State.setThr_wrote (s : State) (k : Nat) (x : Thread) : (s.setThr k x).wrote = s.wrote := rfl
@[simp] theorem State.setThr_posts (s : State) (k : Nat) (x : Thread) : (s.setThr k x).posts = s.posts := rfl
@[simp] theorem State.setThr_pend (s : State) (k : Nat) (x : Thread) : (s.setThr k x).pend = s.pend := rfl
@[simp] theorem State.setThr_agenda (s : State) (k : Nat) (x : Thread) : (s.setThr k x).agenda = s.agenda := rfl

@[simp] theorem State.setThr_thr (s : State) (k : Nat) (x : Thread) : (s.setThr k x).thr k = x := by
  simp [State.setThr, State.thr]

theorem State.setThr_thr_other (s : State) (x : Thread) {k j : Nat} (h : k ≠ j) : (s.setThr k x).thr j = s.thr j := by
  simp [State.setThr, State.thr, NMap.get_set_other, h]

@[simp] theorem State.setThr_setThr (s : State) (k : Nat) (x y : Thread) : (s.setThr k x).setThr k y = s.setThr k y := by
  simp [State.setThr]

@[simp] theorem State.setThr_core (s : State) (k j : Nat) (x : Thread) : (s.setThr k x).core j = s.core j := rfl
@[simp] theorem State.setThr_octet (s : State) (k j : Nat) (x : Thread) : (s.setThr k x).octet j = s.octet j := rfl
@[simp] theorem State.setThr_cluster (s : State) (k j : Nat) (x : Thread) : (s.setThr k x).cluster j = s.cluster j := rfl
@[simp] theorem State.setThr_part (s : State) (k j : Nat) (x : Thread) : (s.setThr k x).part j = s.part j := rfl
@[simp] theorem State.setThr_seat (s : State) (k j : Nat) (x : Thread) : (s.setThr k x).seat j = s.seat j := rfl
@[simp] theorem State.setThr_deal (s : State) (k j : Nat) (x : Thread) : (s.setThr k x).deal j = s.deal j := rfl
@[simp] theorem State.setThr_slice (s : State) (k j : Nat) (x : Thread) : (s.setThr k x).slice j = s.slice j := rfl
@[simp] theorem State.setThr_arb (s : State) (k j : Nat) (x : Thread) : (s.setThr k x).arb j = s.arb j := rfl
@[simp] theorem State.setThr_func (s : State) (k j : Nat) (x : Thread) : (s.setThr k x).func j = s.func j := rfl
@[simp] theorem State.setThr_frame (s : State) (k j : Nat) (x : Thread) : (s.setThr k x).frame j = s.frame j := rfl

/-! ## setCore -/

@[simp] theorem State.setCore_mem (s : State) (k : Nat) (x : Core) : (s.setCore k x).mem = s.mem := rfl
@[simp] theorem State.setCore_poison (s : State) (k : Nat) (x : Core) : (s.setCore k x).poison = s.poison := rfl
@[simp] theorem State.setCore_threads (s : State) (k : Nat) (x : Core) : (s.setCore k x).threads = s.threads := rfl
@[simp] theorem State.setCore_octets (s : State) (k : Nat) (x : Core) : (s.setCore k x).octets = s.octets := rfl
@[simp] theorem State.setCore_clusters (s : State) (k : Nat) (x : Core) : (s.setCore k x).clusters = s.clusters := rfl
@[simp] theorem State.setCore_parts (s : State) (k : Nat) (x : Core) : (s.setCore k x).parts = s.parts := rfl
@[simp] theorem State.setCore_seats (s : State) (k : Nat) (x : Core) : (s.setCore k x).seats = s.seats := rfl
@[simp] theorem State.setCore_deals (s : State) (k : Nat) (x : Core) : (s.setCore k x).deals = s.deals := rfl
@[simp] theorem State.setCore_nextDeal (s : State) (k : Nat) (x : Core) : (s.setCore k x).nextDeal = s.nextDeal := rfl
@[simp] theorem State.setCore_frames (s : State) (k : Nat) (x : Core) : (s.setCore k x).frames = s.frames := rfl
@[simp] theorem State.setCore_scrubs (s : State) (k : Nat) (x : Core) : (s.setCore k x).scrubs = s.scrubs := rfl
@[simp] theorem State.setCore_scrubLeft (s : State) (k : Nat) (x : Core) : (s.setCore k x).scrubLeft = s.scrubLeft := rfl
@[simp] theorem State.setCore_slices (s : State) (k : Nat) (x : Core) : (s.setCore k x).slices = s.slices := rfl
@[simp] theorem State.setCore_arbs (s : State) (k : Nat) (x : Core) : (s.setCore k x).arbs = s.arbs := rfl
@[simp] theorem State.setCore_paid (s : State) (k : Nat) (x : Core) : (s.setCore k x).paid = s.paid := rfl
@[simp] theorem State.setCore_links (s : State) (k : Nat) (x : Core) : (s.setCore k x).links = s.links := rfl
@[simp] theorem State.setCore_expTables (s : State) (k : Nat) (x : Core) : (s.setCore k x).expTables = s.expTables := rfl
@[simp] theorem State.setCore_funcs (s : State) (k : Nat) (x : Core) : (s.setCore k x).funcs = s.funcs := rfl
@[simp] theorem State.setCore_hub (s : State) (k : Nat) (x : Core) : (s.setCore k x).hub = s.hub := rfl
@[simp] theorem State.setCore_root (s : State) (k : Nat) (x : Core) : (s.setCore k x).root = s.root := rfl
@[simp] theorem State.setCore_dealerRt (s : State) (k : Nat) (x : Core) : (s.setCore k x).dealerRt = s.dealerRt := rfl
@[simp] theorem State.setCore_cycle (s : State) (k : Nat) (x : Core) : (s.setCore k x).cycle = s.cycle := rfl
@[simp] theorem State.setCore_ticks (s : State) (k : Nat) (x : Core) : (s.setCore k x).ticks = s.ticks := rfl
@[simp] theorem State.setCore_energyNone (s : State) (k : Nat) (x : Core) : (s.setCore k x).energyNone = s.energyNone := rfl
@[simp] theorem State.setCore_energyAll (s : State) (k : Nat) (x : Core) : (s.setCore k x).energyAll = s.energyAll := rfl
@[simp] theorem State.setCore_free (s : State) (k : Nat) (x : Core) : (s.setCore k x).free = s.free := rfl
@[simp] theorem State.setCore_cur (s : State) (k : Nat) (x : Core) : (s.setCore k x).cur = s.cur := rfl
@[simp] theorem State.setCore_coreAt (s : State) (k : Nat) (x : Core) : (s.setCore k x).coreAt = s.coreAt := rfl
@[simp] theorem State.setCore_slotUsed (s : State) (k : Nat) (x : Core) : (s.setCore k x).slotUsed = s.slotUsed := rfl
@[simp] theorem State.setCore_evTurn (s : State) (k : Nat) (x : Core) : (s.setCore k x).evTurn = s.evTurn := rfl
@[simp] theorem State.setCore_evLeft (s : State) (k : Nat) (x : Core) : (s.setCore k x).evLeft = s.evLeft := rfl
@[simp] theorem State.setCore_evCur (s : State) (k : Nat) (x : Core) : (s.setCore k x).evCur = s.evCur := rfl
@[simp] theorem State.setCore_now (s : State) (k : Nat) (x : Core) : (s.setCore k x).now = s.now := rfl
@[simp] theorem State.setCore_wrote (s : State) (k : Nat) (x : Core) : (s.setCore k x).wrote = s.wrote := rfl
@[simp] theorem State.setCore_posts (s : State) (k : Nat) (x : Core) : (s.setCore k x).posts = s.posts := rfl
@[simp] theorem State.setCore_pend (s : State) (k : Nat) (x : Core) : (s.setCore k x).pend = s.pend := rfl
@[simp] theorem State.setCore_agenda (s : State) (k : Nat) (x : Core) : (s.setCore k x).agenda = s.agenda := rfl

@[simp] theorem State.setCore_core (s : State) (k : Nat) (x : Core) : (s.setCore k x).core k = x := by
  simp [State.setCore, State.core]

theorem State.setCore_core_other (s : State) (x : Core) {k j : Nat} (h : k ≠ j) : (s.setCore k x).core j = s.core j := by
  simp [State.setCore, State.core, NMap.get_set_other, h]

@[simp] theorem State.setCore_setCore (s : State) (k : Nat) (x y : Core) : (s.setCore k x).setCore k y = s.setCore k y := by
  simp [State.setCore]

@[simp] theorem State.setCore_thr (s : State) (k j : Nat) (x : Core) : (s.setCore k x).thr j = s.thr j := rfl
@[simp] theorem State.setCore_octet (s : State) (k j : Nat) (x : Core) : (s.setCore k x).octet j = s.octet j := rfl
@[simp] theorem State.setCore_cluster (s : State) (k j : Nat) (x : Core) : (s.setCore k x).cluster j = s.cluster j := rfl
@[simp] theorem State.setCore_part (s : State) (k j : Nat) (x : Core) : (s.setCore k x).part j = s.part j := rfl
@[simp] theorem State.setCore_seat (s : State) (k j : Nat) (x : Core) : (s.setCore k x).seat j = s.seat j := rfl
@[simp] theorem State.setCore_deal (s : State) (k j : Nat) (x : Core) : (s.setCore k x).deal j = s.deal j := rfl
@[simp] theorem State.setCore_slice (s : State) (k j : Nat) (x : Core) : (s.setCore k x).slice j = s.slice j := rfl
@[simp] theorem State.setCore_arb (s : State) (k j : Nat) (x : Core) : (s.setCore k x).arb j = s.arb j := rfl
@[simp] theorem State.setCore_func (s : State) (k j : Nat) (x : Core) : (s.setCore k x).func j = s.func j := rfl
@[simp] theorem State.setCore_frame (s : State) (k j : Nat) (x : Core) : (s.setCore k x).frame j = s.frame j := rfl

/-! ## setOctet -/

@[simp] theorem State.setOctet_mem (s : State) (k : Nat) (x : Octet) : (s.setOctet k x).mem = s.mem := rfl
@[simp] theorem State.setOctet_poison (s : State) (k : Nat) (x : Octet) : (s.setOctet k x).poison = s.poison := rfl
@[simp] theorem State.setOctet_threads (s : State) (k : Nat) (x : Octet) : (s.setOctet k x).threads = s.threads := rfl
@[simp] theorem State.setOctet_cores (s : State) (k : Nat) (x : Octet) : (s.setOctet k x).cores = s.cores := rfl
@[simp] theorem State.setOctet_clusters (s : State) (k : Nat) (x : Octet) : (s.setOctet k x).clusters = s.clusters := rfl
@[simp] theorem State.setOctet_parts (s : State) (k : Nat) (x : Octet) : (s.setOctet k x).parts = s.parts := rfl
@[simp] theorem State.setOctet_seats (s : State) (k : Nat) (x : Octet) : (s.setOctet k x).seats = s.seats := rfl
@[simp] theorem State.setOctet_deals (s : State) (k : Nat) (x : Octet) : (s.setOctet k x).deals = s.deals := rfl
@[simp] theorem State.setOctet_nextDeal (s : State) (k : Nat) (x : Octet) : (s.setOctet k x).nextDeal = s.nextDeal := rfl
@[simp] theorem State.setOctet_frames (s : State) (k : Nat) (x : Octet) : (s.setOctet k x).frames = s.frames := rfl
@[simp] theorem State.setOctet_scrubs (s : State) (k : Nat) (x : Octet) : (s.setOctet k x).scrubs = s.scrubs := rfl
@[simp] theorem State.setOctet_scrubLeft (s : State) (k : Nat) (x : Octet) : (s.setOctet k x).scrubLeft = s.scrubLeft := rfl
@[simp] theorem State.setOctet_slices (s : State) (k : Nat) (x : Octet) : (s.setOctet k x).slices = s.slices := rfl
@[simp] theorem State.setOctet_arbs (s : State) (k : Nat) (x : Octet) : (s.setOctet k x).arbs = s.arbs := rfl
@[simp] theorem State.setOctet_paid (s : State) (k : Nat) (x : Octet) : (s.setOctet k x).paid = s.paid := rfl
@[simp] theorem State.setOctet_links (s : State) (k : Nat) (x : Octet) : (s.setOctet k x).links = s.links := rfl
@[simp] theorem State.setOctet_expTables (s : State) (k : Nat) (x : Octet) : (s.setOctet k x).expTables = s.expTables := rfl
@[simp] theorem State.setOctet_funcs (s : State) (k : Nat) (x : Octet) : (s.setOctet k x).funcs = s.funcs := rfl
@[simp] theorem State.setOctet_hub (s : State) (k : Nat) (x : Octet) : (s.setOctet k x).hub = s.hub := rfl
@[simp] theorem State.setOctet_root (s : State) (k : Nat) (x : Octet) : (s.setOctet k x).root = s.root := rfl
@[simp] theorem State.setOctet_dealerRt (s : State) (k : Nat) (x : Octet) : (s.setOctet k x).dealerRt = s.dealerRt := rfl
@[simp] theorem State.setOctet_cycle (s : State) (k : Nat) (x : Octet) : (s.setOctet k x).cycle = s.cycle := rfl
@[simp] theorem State.setOctet_ticks (s : State) (k : Nat) (x : Octet) : (s.setOctet k x).ticks = s.ticks := rfl
@[simp] theorem State.setOctet_energyNone (s : State) (k : Nat) (x : Octet) : (s.setOctet k x).energyNone = s.energyNone := rfl
@[simp] theorem State.setOctet_energyAll (s : State) (k : Nat) (x : Octet) : (s.setOctet k x).energyAll = s.energyAll := rfl
@[simp] theorem State.setOctet_free (s : State) (k : Nat) (x : Octet) : (s.setOctet k x).free = s.free := rfl
@[simp] theorem State.setOctet_cur (s : State) (k : Nat) (x : Octet) : (s.setOctet k x).cur = s.cur := rfl
@[simp] theorem State.setOctet_coreAt (s : State) (k : Nat) (x : Octet) : (s.setOctet k x).coreAt = s.coreAt := rfl
@[simp] theorem State.setOctet_slotUsed (s : State) (k : Nat) (x : Octet) : (s.setOctet k x).slotUsed = s.slotUsed := rfl
@[simp] theorem State.setOctet_evTurn (s : State) (k : Nat) (x : Octet) : (s.setOctet k x).evTurn = s.evTurn := rfl
@[simp] theorem State.setOctet_evLeft (s : State) (k : Nat) (x : Octet) : (s.setOctet k x).evLeft = s.evLeft := rfl
@[simp] theorem State.setOctet_evCur (s : State) (k : Nat) (x : Octet) : (s.setOctet k x).evCur = s.evCur := rfl
@[simp] theorem State.setOctet_now (s : State) (k : Nat) (x : Octet) : (s.setOctet k x).now = s.now := rfl
@[simp] theorem State.setOctet_wrote (s : State) (k : Nat) (x : Octet) : (s.setOctet k x).wrote = s.wrote := rfl
@[simp] theorem State.setOctet_posts (s : State) (k : Nat) (x : Octet) : (s.setOctet k x).posts = s.posts := rfl
@[simp] theorem State.setOctet_pend (s : State) (k : Nat) (x : Octet) : (s.setOctet k x).pend = s.pend := rfl
@[simp] theorem State.setOctet_agenda (s : State) (k : Nat) (x : Octet) : (s.setOctet k x).agenda = s.agenda := rfl

@[simp] theorem State.setOctet_octet (s : State) (k : Nat) (x : Octet) : (s.setOctet k x).octet k = x := by
  simp [State.setOctet, State.octet]

theorem State.setOctet_octet_other (s : State) (x : Octet) {k j : Nat} (h : k ≠ j) : (s.setOctet k x).octet j = s.octet j := by
  simp [State.setOctet, State.octet, NMap.get_set_other, h]

@[simp] theorem State.setOctet_setOctet (s : State) (k : Nat) (x y : Octet) : (s.setOctet k x).setOctet k y = s.setOctet k y := by
  simp [State.setOctet]

@[simp] theorem State.setOctet_thr (s : State) (k j : Nat) (x : Octet) : (s.setOctet k x).thr j = s.thr j := rfl
@[simp] theorem State.setOctet_core (s : State) (k j : Nat) (x : Octet) : (s.setOctet k x).core j = s.core j := rfl
@[simp] theorem State.setOctet_cluster (s : State) (k j : Nat) (x : Octet) : (s.setOctet k x).cluster j = s.cluster j := rfl
@[simp] theorem State.setOctet_part (s : State) (k j : Nat) (x : Octet) : (s.setOctet k x).part j = s.part j := rfl
@[simp] theorem State.setOctet_seat (s : State) (k j : Nat) (x : Octet) : (s.setOctet k x).seat j = s.seat j := rfl
@[simp] theorem State.setOctet_deal (s : State) (k j : Nat) (x : Octet) : (s.setOctet k x).deal j = s.deal j := rfl
@[simp] theorem State.setOctet_slice (s : State) (k j : Nat) (x : Octet) : (s.setOctet k x).slice j = s.slice j := rfl
@[simp] theorem State.setOctet_arb (s : State) (k j : Nat) (x : Octet) : (s.setOctet k x).arb j = s.arb j := rfl
@[simp] theorem State.setOctet_func (s : State) (k j : Nat) (x : Octet) : (s.setOctet k x).func j = s.func j := rfl
@[simp] theorem State.setOctet_frame (s : State) (k j : Nat) (x : Octet) : (s.setOctet k x).frame j = s.frame j := rfl

/-! ## setCluster -/

@[simp] theorem State.setCluster_mem (s : State) (k : Nat) (x : Cluster) : (s.setCluster k x).mem = s.mem := rfl
@[simp] theorem State.setCluster_poison (s : State) (k : Nat) (x : Cluster) : (s.setCluster k x).poison = s.poison := rfl
@[simp] theorem State.setCluster_threads (s : State) (k : Nat) (x : Cluster) : (s.setCluster k x).threads = s.threads := rfl
@[simp] theorem State.setCluster_cores (s : State) (k : Nat) (x : Cluster) : (s.setCluster k x).cores = s.cores := rfl
@[simp] theorem State.setCluster_octets (s : State) (k : Nat) (x : Cluster) : (s.setCluster k x).octets = s.octets := rfl
@[simp] theorem State.setCluster_parts (s : State) (k : Nat) (x : Cluster) : (s.setCluster k x).parts = s.parts := rfl
@[simp] theorem State.setCluster_seats (s : State) (k : Nat) (x : Cluster) : (s.setCluster k x).seats = s.seats := rfl
@[simp] theorem State.setCluster_deals (s : State) (k : Nat) (x : Cluster) : (s.setCluster k x).deals = s.deals := rfl
@[simp] theorem State.setCluster_nextDeal (s : State) (k : Nat) (x : Cluster) : (s.setCluster k x).nextDeal = s.nextDeal := rfl
@[simp] theorem State.setCluster_frames (s : State) (k : Nat) (x : Cluster) : (s.setCluster k x).frames = s.frames := rfl
@[simp] theorem State.setCluster_scrubs (s : State) (k : Nat) (x : Cluster) : (s.setCluster k x).scrubs = s.scrubs := rfl
@[simp] theorem State.setCluster_scrubLeft (s : State) (k : Nat) (x : Cluster) : (s.setCluster k x).scrubLeft = s.scrubLeft := rfl
@[simp] theorem State.setCluster_slices (s : State) (k : Nat) (x : Cluster) : (s.setCluster k x).slices = s.slices := rfl
@[simp] theorem State.setCluster_arbs (s : State) (k : Nat) (x : Cluster) : (s.setCluster k x).arbs = s.arbs := rfl
@[simp] theorem State.setCluster_paid (s : State) (k : Nat) (x : Cluster) : (s.setCluster k x).paid = s.paid := rfl
@[simp] theorem State.setCluster_links (s : State) (k : Nat) (x : Cluster) : (s.setCluster k x).links = s.links := rfl
@[simp] theorem State.setCluster_expTables (s : State) (k : Nat) (x : Cluster) : (s.setCluster k x).expTables = s.expTables := rfl
@[simp] theorem State.setCluster_funcs (s : State) (k : Nat) (x : Cluster) : (s.setCluster k x).funcs = s.funcs := rfl
@[simp] theorem State.setCluster_hub (s : State) (k : Nat) (x : Cluster) : (s.setCluster k x).hub = s.hub := rfl
@[simp] theorem State.setCluster_root (s : State) (k : Nat) (x : Cluster) : (s.setCluster k x).root = s.root := rfl
@[simp] theorem State.setCluster_dealerRt (s : State) (k : Nat) (x : Cluster) : (s.setCluster k x).dealerRt = s.dealerRt := rfl
@[simp] theorem State.setCluster_cycle (s : State) (k : Nat) (x : Cluster) : (s.setCluster k x).cycle = s.cycle := rfl
@[simp] theorem State.setCluster_ticks (s : State) (k : Nat) (x : Cluster) : (s.setCluster k x).ticks = s.ticks := rfl
@[simp] theorem State.setCluster_energyNone (s : State) (k : Nat) (x : Cluster) : (s.setCluster k x).energyNone = s.energyNone := rfl
@[simp] theorem State.setCluster_energyAll (s : State) (k : Nat) (x : Cluster) : (s.setCluster k x).energyAll = s.energyAll := rfl
@[simp] theorem State.setCluster_free (s : State) (k : Nat) (x : Cluster) : (s.setCluster k x).free = s.free := rfl
@[simp] theorem State.setCluster_cur (s : State) (k : Nat) (x : Cluster) : (s.setCluster k x).cur = s.cur := rfl
@[simp] theorem State.setCluster_coreAt (s : State) (k : Nat) (x : Cluster) : (s.setCluster k x).coreAt = s.coreAt := rfl
@[simp] theorem State.setCluster_slotUsed (s : State) (k : Nat) (x : Cluster) : (s.setCluster k x).slotUsed = s.slotUsed := rfl
@[simp] theorem State.setCluster_evTurn (s : State) (k : Nat) (x : Cluster) : (s.setCluster k x).evTurn = s.evTurn := rfl
@[simp] theorem State.setCluster_evLeft (s : State) (k : Nat) (x : Cluster) : (s.setCluster k x).evLeft = s.evLeft := rfl
@[simp] theorem State.setCluster_evCur (s : State) (k : Nat) (x : Cluster) : (s.setCluster k x).evCur = s.evCur := rfl
@[simp] theorem State.setCluster_now (s : State) (k : Nat) (x : Cluster) : (s.setCluster k x).now = s.now := rfl
@[simp] theorem State.setCluster_wrote (s : State) (k : Nat) (x : Cluster) : (s.setCluster k x).wrote = s.wrote := rfl
@[simp] theorem State.setCluster_posts (s : State) (k : Nat) (x : Cluster) : (s.setCluster k x).posts = s.posts := rfl
@[simp] theorem State.setCluster_pend (s : State) (k : Nat) (x : Cluster) : (s.setCluster k x).pend = s.pend := rfl
@[simp] theorem State.setCluster_agenda (s : State) (k : Nat) (x : Cluster) : (s.setCluster k x).agenda = s.agenda := rfl

@[simp] theorem State.setCluster_cluster (s : State) (k : Nat) (x : Cluster) : (s.setCluster k x).cluster k = x := by
  simp [State.setCluster, State.cluster]

theorem State.setCluster_cluster_other (s : State) (x : Cluster) {k j : Nat} (h : k ≠ j) : (s.setCluster k x).cluster j = s.cluster j := by
  simp [State.setCluster, State.cluster, NMap.get_set_other, h]

@[simp] theorem State.setCluster_setCluster (s : State) (k : Nat) (x y : Cluster) : (s.setCluster k x).setCluster k y = s.setCluster k y := by
  simp [State.setCluster]

@[simp] theorem State.setCluster_thr (s : State) (k j : Nat) (x : Cluster) : (s.setCluster k x).thr j = s.thr j := rfl
@[simp] theorem State.setCluster_core (s : State) (k j : Nat) (x : Cluster) : (s.setCluster k x).core j = s.core j := rfl
@[simp] theorem State.setCluster_octet (s : State) (k j : Nat) (x : Cluster) : (s.setCluster k x).octet j = s.octet j := rfl
@[simp] theorem State.setCluster_part (s : State) (k j : Nat) (x : Cluster) : (s.setCluster k x).part j = s.part j := rfl
@[simp] theorem State.setCluster_seat (s : State) (k j : Nat) (x : Cluster) : (s.setCluster k x).seat j = s.seat j := rfl
@[simp] theorem State.setCluster_deal (s : State) (k j : Nat) (x : Cluster) : (s.setCluster k x).deal j = s.deal j := rfl
@[simp] theorem State.setCluster_slice (s : State) (k j : Nat) (x : Cluster) : (s.setCluster k x).slice j = s.slice j := rfl
@[simp] theorem State.setCluster_arb (s : State) (k j : Nat) (x : Cluster) : (s.setCluster k x).arb j = s.arb j := rfl
@[simp] theorem State.setCluster_func (s : State) (k j : Nat) (x : Cluster) : (s.setCluster k x).func j = s.func j := rfl
@[simp] theorem State.setCluster_frame (s : State) (k j : Nat) (x : Cluster) : (s.setCluster k x).frame j = s.frame j := rfl

/-! ## setPart -/

@[simp] theorem State.setPart_mem (s : State) (k : Nat) (x : Part) : (s.setPart k x).mem = s.mem := rfl
@[simp] theorem State.setPart_poison (s : State) (k : Nat) (x : Part) : (s.setPart k x).poison = s.poison := rfl
@[simp] theorem State.setPart_threads (s : State) (k : Nat) (x : Part) : (s.setPart k x).threads = s.threads := rfl
@[simp] theorem State.setPart_cores (s : State) (k : Nat) (x : Part) : (s.setPart k x).cores = s.cores := rfl
@[simp] theorem State.setPart_octets (s : State) (k : Nat) (x : Part) : (s.setPart k x).octets = s.octets := rfl
@[simp] theorem State.setPart_clusters (s : State) (k : Nat) (x : Part) : (s.setPart k x).clusters = s.clusters := rfl
@[simp] theorem State.setPart_seats (s : State) (k : Nat) (x : Part) : (s.setPart k x).seats = s.seats := rfl
@[simp] theorem State.setPart_deals (s : State) (k : Nat) (x : Part) : (s.setPart k x).deals = s.deals := rfl
@[simp] theorem State.setPart_nextDeal (s : State) (k : Nat) (x : Part) : (s.setPart k x).nextDeal = s.nextDeal := rfl
@[simp] theorem State.setPart_frames (s : State) (k : Nat) (x : Part) : (s.setPart k x).frames = s.frames := rfl
@[simp] theorem State.setPart_scrubs (s : State) (k : Nat) (x : Part) : (s.setPart k x).scrubs = s.scrubs := rfl
@[simp] theorem State.setPart_scrubLeft (s : State) (k : Nat) (x : Part) : (s.setPart k x).scrubLeft = s.scrubLeft := rfl
@[simp] theorem State.setPart_slices (s : State) (k : Nat) (x : Part) : (s.setPart k x).slices = s.slices := rfl
@[simp] theorem State.setPart_arbs (s : State) (k : Nat) (x : Part) : (s.setPart k x).arbs = s.arbs := rfl
@[simp] theorem State.setPart_paid (s : State) (k : Nat) (x : Part) : (s.setPart k x).paid = s.paid := rfl
@[simp] theorem State.setPart_links (s : State) (k : Nat) (x : Part) : (s.setPart k x).links = s.links := rfl
@[simp] theorem State.setPart_expTables (s : State) (k : Nat) (x : Part) : (s.setPart k x).expTables = s.expTables := rfl
@[simp] theorem State.setPart_funcs (s : State) (k : Nat) (x : Part) : (s.setPart k x).funcs = s.funcs := rfl
@[simp] theorem State.setPart_hub (s : State) (k : Nat) (x : Part) : (s.setPart k x).hub = s.hub := rfl
@[simp] theorem State.setPart_root (s : State) (k : Nat) (x : Part) : (s.setPart k x).root = s.root := rfl
@[simp] theorem State.setPart_dealerRt (s : State) (k : Nat) (x : Part) : (s.setPart k x).dealerRt = s.dealerRt := rfl
@[simp] theorem State.setPart_cycle (s : State) (k : Nat) (x : Part) : (s.setPart k x).cycle = s.cycle := rfl
@[simp] theorem State.setPart_ticks (s : State) (k : Nat) (x : Part) : (s.setPart k x).ticks = s.ticks := rfl
@[simp] theorem State.setPart_energyNone (s : State) (k : Nat) (x : Part) : (s.setPart k x).energyNone = s.energyNone := rfl
@[simp] theorem State.setPart_energyAll (s : State) (k : Nat) (x : Part) : (s.setPart k x).energyAll = s.energyAll := rfl
@[simp] theorem State.setPart_free (s : State) (k : Nat) (x : Part) : (s.setPart k x).free = s.free := rfl
@[simp] theorem State.setPart_cur (s : State) (k : Nat) (x : Part) : (s.setPart k x).cur = s.cur := rfl
@[simp] theorem State.setPart_coreAt (s : State) (k : Nat) (x : Part) : (s.setPart k x).coreAt = s.coreAt := rfl
@[simp] theorem State.setPart_slotUsed (s : State) (k : Nat) (x : Part) : (s.setPart k x).slotUsed = s.slotUsed := rfl
@[simp] theorem State.setPart_evTurn (s : State) (k : Nat) (x : Part) : (s.setPart k x).evTurn = s.evTurn := rfl
@[simp] theorem State.setPart_evLeft (s : State) (k : Nat) (x : Part) : (s.setPart k x).evLeft = s.evLeft := rfl
@[simp] theorem State.setPart_evCur (s : State) (k : Nat) (x : Part) : (s.setPart k x).evCur = s.evCur := rfl
@[simp] theorem State.setPart_now (s : State) (k : Nat) (x : Part) : (s.setPart k x).now = s.now := rfl
@[simp] theorem State.setPart_wrote (s : State) (k : Nat) (x : Part) : (s.setPart k x).wrote = s.wrote := rfl
@[simp] theorem State.setPart_posts (s : State) (k : Nat) (x : Part) : (s.setPart k x).posts = s.posts := rfl
@[simp] theorem State.setPart_pend (s : State) (k : Nat) (x : Part) : (s.setPart k x).pend = s.pend := rfl
@[simp] theorem State.setPart_agenda (s : State) (k : Nat) (x : Part) : (s.setPart k x).agenda = s.agenda := rfl

@[simp] theorem State.setPart_part (s : State) (k : Nat) (x : Part) : (s.setPart k x).part k = x := by
  simp [State.setPart, State.part]

theorem State.setPart_part_other (s : State) (x : Part) {k j : Nat} (h : k ≠ j) : (s.setPart k x).part j = s.part j := by
  simp [State.setPart, State.part, NMap.get_set_other, h]

@[simp] theorem State.setPart_setPart (s : State) (k : Nat) (x y : Part) : (s.setPart k x).setPart k y = s.setPart k y := by
  simp [State.setPart]

@[simp] theorem State.setPart_thr (s : State) (k j : Nat) (x : Part) : (s.setPart k x).thr j = s.thr j := rfl
@[simp] theorem State.setPart_core (s : State) (k j : Nat) (x : Part) : (s.setPart k x).core j = s.core j := rfl
@[simp] theorem State.setPart_octet (s : State) (k j : Nat) (x : Part) : (s.setPart k x).octet j = s.octet j := rfl
@[simp] theorem State.setPart_cluster (s : State) (k j : Nat) (x : Part) : (s.setPart k x).cluster j = s.cluster j := rfl
@[simp] theorem State.setPart_seat (s : State) (k j : Nat) (x : Part) : (s.setPart k x).seat j = s.seat j := rfl
@[simp] theorem State.setPart_deal (s : State) (k j : Nat) (x : Part) : (s.setPart k x).deal j = s.deal j := rfl
@[simp] theorem State.setPart_slice (s : State) (k j : Nat) (x : Part) : (s.setPart k x).slice j = s.slice j := rfl
@[simp] theorem State.setPart_arb (s : State) (k j : Nat) (x : Part) : (s.setPart k x).arb j = s.arb j := rfl
@[simp] theorem State.setPart_func (s : State) (k j : Nat) (x : Part) : (s.setPart k x).func j = s.func j := rfl
@[simp] theorem State.setPart_frame (s : State) (k j : Nat) (x : Part) : (s.setPart k x).frame j = s.frame j := rfl

/-! ## setSeat -/

@[simp] theorem State.setSeat_mem (s : State) (k : Nat) (x : Seat) : (s.setSeat k x).mem = s.mem := rfl
@[simp] theorem State.setSeat_poison (s : State) (k : Nat) (x : Seat) : (s.setSeat k x).poison = s.poison := rfl
@[simp] theorem State.setSeat_threads (s : State) (k : Nat) (x : Seat) : (s.setSeat k x).threads = s.threads := rfl
@[simp] theorem State.setSeat_cores (s : State) (k : Nat) (x : Seat) : (s.setSeat k x).cores = s.cores := rfl
@[simp] theorem State.setSeat_octets (s : State) (k : Nat) (x : Seat) : (s.setSeat k x).octets = s.octets := rfl
@[simp] theorem State.setSeat_clusters (s : State) (k : Nat) (x : Seat) : (s.setSeat k x).clusters = s.clusters := rfl
@[simp] theorem State.setSeat_parts (s : State) (k : Nat) (x : Seat) : (s.setSeat k x).parts = s.parts := rfl
@[simp] theorem State.setSeat_deals (s : State) (k : Nat) (x : Seat) : (s.setSeat k x).deals = s.deals := rfl
@[simp] theorem State.setSeat_nextDeal (s : State) (k : Nat) (x : Seat) : (s.setSeat k x).nextDeal = s.nextDeal := rfl
@[simp] theorem State.setSeat_frames (s : State) (k : Nat) (x : Seat) : (s.setSeat k x).frames = s.frames := rfl
@[simp] theorem State.setSeat_scrubs (s : State) (k : Nat) (x : Seat) : (s.setSeat k x).scrubs = s.scrubs := rfl
@[simp] theorem State.setSeat_scrubLeft (s : State) (k : Nat) (x : Seat) : (s.setSeat k x).scrubLeft = s.scrubLeft := rfl
@[simp] theorem State.setSeat_slices (s : State) (k : Nat) (x : Seat) : (s.setSeat k x).slices = s.slices := rfl
@[simp] theorem State.setSeat_arbs (s : State) (k : Nat) (x : Seat) : (s.setSeat k x).arbs = s.arbs := rfl
@[simp] theorem State.setSeat_paid (s : State) (k : Nat) (x : Seat) : (s.setSeat k x).paid = s.paid := rfl
@[simp] theorem State.setSeat_links (s : State) (k : Nat) (x : Seat) : (s.setSeat k x).links = s.links := rfl
@[simp] theorem State.setSeat_expTables (s : State) (k : Nat) (x : Seat) : (s.setSeat k x).expTables = s.expTables := rfl
@[simp] theorem State.setSeat_funcs (s : State) (k : Nat) (x : Seat) : (s.setSeat k x).funcs = s.funcs := rfl
@[simp] theorem State.setSeat_hub (s : State) (k : Nat) (x : Seat) : (s.setSeat k x).hub = s.hub := rfl
@[simp] theorem State.setSeat_root (s : State) (k : Nat) (x : Seat) : (s.setSeat k x).root = s.root := rfl
@[simp] theorem State.setSeat_dealerRt (s : State) (k : Nat) (x : Seat) : (s.setSeat k x).dealerRt = s.dealerRt := rfl
@[simp] theorem State.setSeat_cycle (s : State) (k : Nat) (x : Seat) : (s.setSeat k x).cycle = s.cycle := rfl
@[simp] theorem State.setSeat_ticks (s : State) (k : Nat) (x : Seat) : (s.setSeat k x).ticks = s.ticks := rfl
@[simp] theorem State.setSeat_energyNone (s : State) (k : Nat) (x : Seat) : (s.setSeat k x).energyNone = s.energyNone := rfl
@[simp] theorem State.setSeat_energyAll (s : State) (k : Nat) (x : Seat) : (s.setSeat k x).energyAll = s.energyAll := rfl
@[simp] theorem State.setSeat_free (s : State) (k : Nat) (x : Seat) : (s.setSeat k x).free = s.free := rfl
@[simp] theorem State.setSeat_cur (s : State) (k : Nat) (x : Seat) : (s.setSeat k x).cur = s.cur := rfl
@[simp] theorem State.setSeat_coreAt (s : State) (k : Nat) (x : Seat) : (s.setSeat k x).coreAt = s.coreAt := rfl
@[simp] theorem State.setSeat_slotUsed (s : State) (k : Nat) (x : Seat) : (s.setSeat k x).slotUsed = s.slotUsed := rfl
@[simp] theorem State.setSeat_evTurn (s : State) (k : Nat) (x : Seat) : (s.setSeat k x).evTurn = s.evTurn := rfl
@[simp] theorem State.setSeat_evLeft (s : State) (k : Nat) (x : Seat) : (s.setSeat k x).evLeft = s.evLeft := rfl
@[simp] theorem State.setSeat_evCur (s : State) (k : Nat) (x : Seat) : (s.setSeat k x).evCur = s.evCur := rfl
@[simp] theorem State.setSeat_now (s : State) (k : Nat) (x : Seat) : (s.setSeat k x).now = s.now := rfl
@[simp] theorem State.setSeat_wrote (s : State) (k : Nat) (x : Seat) : (s.setSeat k x).wrote = s.wrote := rfl
@[simp] theorem State.setSeat_posts (s : State) (k : Nat) (x : Seat) : (s.setSeat k x).posts = s.posts := rfl
@[simp] theorem State.setSeat_pend (s : State) (k : Nat) (x : Seat) : (s.setSeat k x).pend = s.pend := rfl
@[simp] theorem State.setSeat_agenda (s : State) (k : Nat) (x : Seat) : (s.setSeat k x).agenda = s.agenda := rfl

@[simp] theorem State.setSeat_seat (s : State) (k : Nat) (x : Seat) : (s.setSeat k x).seat k = x := by
  simp [State.setSeat, State.seat]

theorem State.setSeat_seat_other (s : State) (x : Seat) {k j : Nat} (h : k ≠ j) : (s.setSeat k x).seat j = s.seat j := by
  simp [State.setSeat, State.seat, NMap.get_set_other, h]

@[simp] theorem State.setSeat_setSeat (s : State) (k : Nat) (x y : Seat) : (s.setSeat k x).setSeat k y = s.setSeat k y := by
  simp [State.setSeat]

@[simp] theorem State.setSeat_thr (s : State) (k j : Nat) (x : Seat) : (s.setSeat k x).thr j = s.thr j := rfl
@[simp] theorem State.setSeat_core (s : State) (k j : Nat) (x : Seat) : (s.setSeat k x).core j = s.core j := rfl
@[simp] theorem State.setSeat_octet (s : State) (k j : Nat) (x : Seat) : (s.setSeat k x).octet j = s.octet j := rfl
@[simp] theorem State.setSeat_cluster (s : State) (k j : Nat) (x : Seat) : (s.setSeat k x).cluster j = s.cluster j := rfl
@[simp] theorem State.setSeat_part (s : State) (k j : Nat) (x : Seat) : (s.setSeat k x).part j = s.part j := rfl
@[simp] theorem State.setSeat_deal (s : State) (k j : Nat) (x : Seat) : (s.setSeat k x).deal j = s.deal j := rfl
@[simp] theorem State.setSeat_slice (s : State) (k j : Nat) (x : Seat) : (s.setSeat k x).slice j = s.slice j := rfl
@[simp] theorem State.setSeat_arb (s : State) (k j : Nat) (x : Seat) : (s.setSeat k x).arb j = s.arb j := rfl
@[simp] theorem State.setSeat_func (s : State) (k j : Nat) (x : Seat) : (s.setSeat k x).func j = s.func j := rfl
@[simp] theorem State.setSeat_frame (s : State) (k j : Nat) (x : Seat) : (s.setSeat k x).frame j = s.frame j := rfl

/-! ## setDeal -/

@[simp] theorem State.setDeal_mem (s : State) (k : Nat) (x : Deal) : (s.setDeal k x).mem = s.mem := rfl
@[simp] theorem State.setDeal_poison (s : State) (k : Nat) (x : Deal) : (s.setDeal k x).poison = s.poison := rfl
@[simp] theorem State.setDeal_threads (s : State) (k : Nat) (x : Deal) : (s.setDeal k x).threads = s.threads := rfl
@[simp] theorem State.setDeal_cores (s : State) (k : Nat) (x : Deal) : (s.setDeal k x).cores = s.cores := rfl
@[simp] theorem State.setDeal_octets (s : State) (k : Nat) (x : Deal) : (s.setDeal k x).octets = s.octets := rfl
@[simp] theorem State.setDeal_clusters (s : State) (k : Nat) (x : Deal) : (s.setDeal k x).clusters = s.clusters := rfl
@[simp] theorem State.setDeal_parts (s : State) (k : Nat) (x : Deal) : (s.setDeal k x).parts = s.parts := rfl
@[simp] theorem State.setDeal_seats (s : State) (k : Nat) (x : Deal) : (s.setDeal k x).seats = s.seats := rfl
@[simp] theorem State.setDeal_nextDeal (s : State) (k : Nat) (x : Deal) : (s.setDeal k x).nextDeal = s.nextDeal := rfl
@[simp] theorem State.setDeal_frames (s : State) (k : Nat) (x : Deal) : (s.setDeal k x).frames = s.frames := rfl
@[simp] theorem State.setDeal_scrubs (s : State) (k : Nat) (x : Deal) : (s.setDeal k x).scrubs = s.scrubs := rfl
@[simp] theorem State.setDeal_scrubLeft (s : State) (k : Nat) (x : Deal) : (s.setDeal k x).scrubLeft = s.scrubLeft := rfl
@[simp] theorem State.setDeal_slices (s : State) (k : Nat) (x : Deal) : (s.setDeal k x).slices = s.slices := rfl
@[simp] theorem State.setDeal_arbs (s : State) (k : Nat) (x : Deal) : (s.setDeal k x).arbs = s.arbs := rfl
@[simp] theorem State.setDeal_paid (s : State) (k : Nat) (x : Deal) : (s.setDeal k x).paid = s.paid := rfl
@[simp] theorem State.setDeal_links (s : State) (k : Nat) (x : Deal) : (s.setDeal k x).links = s.links := rfl
@[simp] theorem State.setDeal_expTables (s : State) (k : Nat) (x : Deal) : (s.setDeal k x).expTables = s.expTables := rfl
@[simp] theorem State.setDeal_funcs (s : State) (k : Nat) (x : Deal) : (s.setDeal k x).funcs = s.funcs := rfl
@[simp] theorem State.setDeal_hub (s : State) (k : Nat) (x : Deal) : (s.setDeal k x).hub = s.hub := rfl
@[simp] theorem State.setDeal_root (s : State) (k : Nat) (x : Deal) : (s.setDeal k x).root = s.root := rfl
@[simp] theorem State.setDeal_dealerRt (s : State) (k : Nat) (x : Deal) : (s.setDeal k x).dealerRt = s.dealerRt := rfl
@[simp] theorem State.setDeal_cycle (s : State) (k : Nat) (x : Deal) : (s.setDeal k x).cycle = s.cycle := rfl
@[simp] theorem State.setDeal_ticks (s : State) (k : Nat) (x : Deal) : (s.setDeal k x).ticks = s.ticks := rfl
@[simp] theorem State.setDeal_energyNone (s : State) (k : Nat) (x : Deal) : (s.setDeal k x).energyNone = s.energyNone := rfl
@[simp] theorem State.setDeal_energyAll (s : State) (k : Nat) (x : Deal) : (s.setDeal k x).energyAll = s.energyAll := rfl
@[simp] theorem State.setDeal_free (s : State) (k : Nat) (x : Deal) : (s.setDeal k x).free = s.free := rfl
@[simp] theorem State.setDeal_cur (s : State) (k : Nat) (x : Deal) : (s.setDeal k x).cur = s.cur := rfl
@[simp] theorem State.setDeal_coreAt (s : State) (k : Nat) (x : Deal) : (s.setDeal k x).coreAt = s.coreAt := rfl
@[simp] theorem State.setDeal_slotUsed (s : State) (k : Nat) (x : Deal) : (s.setDeal k x).slotUsed = s.slotUsed := rfl
@[simp] theorem State.setDeal_evTurn (s : State) (k : Nat) (x : Deal) : (s.setDeal k x).evTurn = s.evTurn := rfl
@[simp] theorem State.setDeal_evLeft (s : State) (k : Nat) (x : Deal) : (s.setDeal k x).evLeft = s.evLeft := rfl
@[simp] theorem State.setDeal_evCur (s : State) (k : Nat) (x : Deal) : (s.setDeal k x).evCur = s.evCur := rfl
@[simp] theorem State.setDeal_now (s : State) (k : Nat) (x : Deal) : (s.setDeal k x).now = s.now := rfl
@[simp] theorem State.setDeal_wrote (s : State) (k : Nat) (x : Deal) : (s.setDeal k x).wrote = s.wrote := rfl
@[simp] theorem State.setDeal_posts (s : State) (k : Nat) (x : Deal) : (s.setDeal k x).posts = s.posts := rfl
@[simp] theorem State.setDeal_pend (s : State) (k : Nat) (x : Deal) : (s.setDeal k x).pend = s.pend := rfl
@[simp] theorem State.setDeal_agenda (s : State) (k : Nat) (x : Deal) : (s.setDeal k x).agenda = s.agenda := rfl

@[simp] theorem State.setDeal_deal (s : State) (k : Nat) (x : Deal) : (s.setDeal k x).deal k = x := by
  simp [State.setDeal, State.deal]

theorem State.setDeal_deal_other (s : State) (x : Deal) {k j : Nat} (h : k ≠ j) : (s.setDeal k x).deal j = s.deal j := by
  simp [State.setDeal, State.deal, NMap.get_set_other, h]

@[simp] theorem State.setDeal_setDeal (s : State) (k : Nat) (x y : Deal) : (s.setDeal k x).setDeal k y = s.setDeal k y := by
  simp [State.setDeal]

@[simp] theorem State.setDeal_thr (s : State) (k j : Nat) (x : Deal) : (s.setDeal k x).thr j = s.thr j := rfl
@[simp] theorem State.setDeal_core (s : State) (k j : Nat) (x : Deal) : (s.setDeal k x).core j = s.core j := rfl
@[simp] theorem State.setDeal_octet (s : State) (k j : Nat) (x : Deal) : (s.setDeal k x).octet j = s.octet j := rfl
@[simp] theorem State.setDeal_cluster (s : State) (k j : Nat) (x : Deal) : (s.setDeal k x).cluster j = s.cluster j := rfl
@[simp] theorem State.setDeal_part (s : State) (k j : Nat) (x : Deal) : (s.setDeal k x).part j = s.part j := rfl
@[simp] theorem State.setDeal_seat (s : State) (k j : Nat) (x : Deal) : (s.setDeal k x).seat j = s.seat j := rfl
@[simp] theorem State.setDeal_slice (s : State) (k j : Nat) (x : Deal) : (s.setDeal k x).slice j = s.slice j := rfl
@[simp] theorem State.setDeal_arb (s : State) (k j : Nat) (x : Deal) : (s.setDeal k x).arb j = s.arb j := rfl
@[simp] theorem State.setDeal_func (s : State) (k j : Nat) (x : Deal) : (s.setDeal k x).func j = s.func j := rfl
@[simp] theorem State.setDeal_frame (s : State) (k j : Nat) (x : Deal) : (s.setDeal k x).frame j = s.frame j := rfl

/-! ## setSlice -/

@[simp] theorem State.setSlice_mem (s : State) (k : Nat) (x : Slice) : (s.setSlice k x).mem = s.mem := rfl
@[simp] theorem State.setSlice_poison (s : State) (k : Nat) (x : Slice) : (s.setSlice k x).poison = s.poison := rfl
@[simp] theorem State.setSlice_threads (s : State) (k : Nat) (x : Slice) : (s.setSlice k x).threads = s.threads := rfl
@[simp] theorem State.setSlice_cores (s : State) (k : Nat) (x : Slice) : (s.setSlice k x).cores = s.cores := rfl
@[simp] theorem State.setSlice_octets (s : State) (k : Nat) (x : Slice) : (s.setSlice k x).octets = s.octets := rfl
@[simp] theorem State.setSlice_clusters (s : State) (k : Nat) (x : Slice) : (s.setSlice k x).clusters = s.clusters := rfl
@[simp] theorem State.setSlice_parts (s : State) (k : Nat) (x : Slice) : (s.setSlice k x).parts = s.parts := rfl
@[simp] theorem State.setSlice_seats (s : State) (k : Nat) (x : Slice) : (s.setSlice k x).seats = s.seats := rfl
@[simp] theorem State.setSlice_deals (s : State) (k : Nat) (x : Slice) : (s.setSlice k x).deals = s.deals := rfl
@[simp] theorem State.setSlice_nextDeal (s : State) (k : Nat) (x : Slice) : (s.setSlice k x).nextDeal = s.nextDeal := rfl
@[simp] theorem State.setSlice_frames (s : State) (k : Nat) (x : Slice) : (s.setSlice k x).frames = s.frames := rfl
@[simp] theorem State.setSlice_scrubs (s : State) (k : Nat) (x : Slice) : (s.setSlice k x).scrubs = s.scrubs := rfl
@[simp] theorem State.setSlice_scrubLeft (s : State) (k : Nat) (x : Slice) : (s.setSlice k x).scrubLeft = s.scrubLeft := rfl
@[simp] theorem State.setSlice_arbs (s : State) (k : Nat) (x : Slice) : (s.setSlice k x).arbs = s.arbs := rfl
@[simp] theorem State.setSlice_paid (s : State) (k : Nat) (x : Slice) : (s.setSlice k x).paid = s.paid := rfl
@[simp] theorem State.setSlice_links (s : State) (k : Nat) (x : Slice) : (s.setSlice k x).links = s.links := rfl
@[simp] theorem State.setSlice_expTables (s : State) (k : Nat) (x : Slice) : (s.setSlice k x).expTables = s.expTables := rfl
@[simp] theorem State.setSlice_funcs (s : State) (k : Nat) (x : Slice) : (s.setSlice k x).funcs = s.funcs := rfl
@[simp] theorem State.setSlice_hub (s : State) (k : Nat) (x : Slice) : (s.setSlice k x).hub = s.hub := rfl
@[simp] theorem State.setSlice_root (s : State) (k : Nat) (x : Slice) : (s.setSlice k x).root = s.root := rfl
@[simp] theorem State.setSlice_dealerRt (s : State) (k : Nat) (x : Slice) : (s.setSlice k x).dealerRt = s.dealerRt := rfl
@[simp] theorem State.setSlice_cycle (s : State) (k : Nat) (x : Slice) : (s.setSlice k x).cycle = s.cycle := rfl
@[simp] theorem State.setSlice_ticks (s : State) (k : Nat) (x : Slice) : (s.setSlice k x).ticks = s.ticks := rfl
@[simp] theorem State.setSlice_energyNone (s : State) (k : Nat) (x : Slice) : (s.setSlice k x).energyNone = s.energyNone := rfl
@[simp] theorem State.setSlice_energyAll (s : State) (k : Nat) (x : Slice) : (s.setSlice k x).energyAll = s.energyAll := rfl
@[simp] theorem State.setSlice_free (s : State) (k : Nat) (x : Slice) : (s.setSlice k x).free = s.free := rfl
@[simp] theorem State.setSlice_cur (s : State) (k : Nat) (x : Slice) : (s.setSlice k x).cur = s.cur := rfl
@[simp] theorem State.setSlice_coreAt (s : State) (k : Nat) (x : Slice) : (s.setSlice k x).coreAt = s.coreAt := rfl
@[simp] theorem State.setSlice_slotUsed (s : State) (k : Nat) (x : Slice) : (s.setSlice k x).slotUsed = s.slotUsed := rfl
@[simp] theorem State.setSlice_evTurn (s : State) (k : Nat) (x : Slice) : (s.setSlice k x).evTurn = s.evTurn := rfl
@[simp] theorem State.setSlice_evLeft (s : State) (k : Nat) (x : Slice) : (s.setSlice k x).evLeft = s.evLeft := rfl
@[simp] theorem State.setSlice_evCur (s : State) (k : Nat) (x : Slice) : (s.setSlice k x).evCur = s.evCur := rfl
@[simp] theorem State.setSlice_now (s : State) (k : Nat) (x : Slice) : (s.setSlice k x).now = s.now := rfl
@[simp] theorem State.setSlice_wrote (s : State) (k : Nat) (x : Slice) : (s.setSlice k x).wrote = s.wrote := rfl
@[simp] theorem State.setSlice_posts (s : State) (k : Nat) (x : Slice) : (s.setSlice k x).posts = s.posts := rfl
@[simp] theorem State.setSlice_pend (s : State) (k : Nat) (x : Slice) : (s.setSlice k x).pend = s.pend := rfl
@[simp] theorem State.setSlice_agenda (s : State) (k : Nat) (x : Slice) : (s.setSlice k x).agenda = s.agenda := rfl

@[simp] theorem State.setSlice_slice (s : State) (k : Nat) (x : Slice) : (s.setSlice k x).slice k = x := by
  simp [State.setSlice, State.slice]

theorem State.setSlice_slice_other (s : State) (x : Slice) {k j : Nat} (h : k ≠ j) : (s.setSlice k x).slice j = s.slice j := by
  simp [State.setSlice, State.slice, NMap.get_set_other, h]

@[simp] theorem State.setSlice_setSlice (s : State) (k : Nat) (x y : Slice) : (s.setSlice k x).setSlice k y = s.setSlice k y := by
  simp [State.setSlice]

@[simp] theorem State.setSlice_thr (s : State) (k j : Nat) (x : Slice) : (s.setSlice k x).thr j = s.thr j := rfl
@[simp] theorem State.setSlice_core (s : State) (k j : Nat) (x : Slice) : (s.setSlice k x).core j = s.core j := rfl
@[simp] theorem State.setSlice_octet (s : State) (k j : Nat) (x : Slice) : (s.setSlice k x).octet j = s.octet j := rfl
@[simp] theorem State.setSlice_cluster (s : State) (k j : Nat) (x : Slice) : (s.setSlice k x).cluster j = s.cluster j := rfl
@[simp] theorem State.setSlice_part (s : State) (k j : Nat) (x : Slice) : (s.setSlice k x).part j = s.part j := rfl
@[simp] theorem State.setSlice_seat (s : State) (k j : Nat) (x : Slice) : (s.setSlice k x).seat j = s.seat j := rfl
@[simp] theorem State.setSlice_deal (s : State) (k j : Nat) (x : Slice) : (s.setSlice k x).deal j = s.deal j := rfl
@[simp] theorem State.setSlice_arb (s : State) (k j : Nat) (x : Slice) : (s.setSlice k x).arb j = s.arb j := rfl
@[simp] theorem State.setSlice_func (s : State) (k j : Nat) (x : Slice) : (s.setSlice k x).func j = s.func j := rfl
@[simp] theorem State.setSlice_frame (s : State) (k j : Nat) (x : Slice) : (s.setSlice k x).frame j = s.frame j := rfl

/-! ## setArb -/

@[simp] theorem State.setArb_mem (s : State) (k : Nat) (x : Arb) : (s.setArb k x).mem = s.mem := rfl
@[simp] theorem State.setArb_poison (s : State) (k : Nat) (x : Arb) : (s.setArb k x).poison = s.poison := rfl
@[simp] theorem State.setArb_threads (s : State) (k : Nat) (x : Arb) : (s.setArb k x).threads = s.threads := rfl
@[simp] theorem State.setArb_cores (s : State) (k : Nat) (x : Arb) : (s.setArb k x).cores = s.cores := rfl
@[simp] theorem State.setArb_octets (s : State) (k : Nat) (x : Arb) : (s.setArb k x).octets = s.octets := rfl
@[simp] theorem State.setArb_clusters (s : State) (k : Nat) (x : Arb) : (s.setArb k x).clusters = s.clusters := rfl
@[simp] theorem State.setArb_parts (s : State) (k : Nat) (x : Arb) : (s.setArb k x).parts = s.parts := rfl
@[simp] theorem State.setArb_seats (s : State) (k : Nat) (x : Arb) : (s.setArb k x).seats = s.seats := rfl
@[simp] theorem State.setArb_deals (s : State) (k : Nat) (x : Arb) : (s.setArb k x).deals = s.deals := rfl
@[simp] theorem State.setArb_nextDeal (s : State) (k : Nat) (x : Arb) : (s.setArb k x).nextDeal = s.nextDeal := rfl
@[simp] theorem State.setArb_frames (s : State) (k : Nat) (x : Arb) : (s.setArb k x).frames = s.frames := rfl
@[simp] theorem State.setArb_scrubs (s : State) (k : Nat) (x : Arb) : (s.setArb k x).scrubs = s.scrubs := rfl
@[simp] theorem State.setArb_scrubLeft (s : State) (k : Nat) (x : Arb) : (s.setArb k x).scrubLeft = s.scrubLeft := rfl
@[simp] theorem State.setArb_slices (s : State) (k : Nat) (x : Arb) : (s.setArb k x).slices = s.slices := rfl
@[simp] theorem State.setArb_paid (s : State) (k : Nat) (x : Arb) : (s.setArb k x).paid = s.paid := rfl
@[simp] theorem State.setArb_links (s : State) (k : Nat) (x : Arb) : (s.setArb k x).links = s.links := rfl
@[simp] theorem State.setArb_expTables (s : State) (k : Nat) (x : Arb) : (s.setArb k x).expTables = s.expTables := rfl
@[simp] theorem State.setArb_funcs (s : State) (k : Nat) (x : Arb) : (s.setArb k x).funcs = s.funcs := rfl
@[simp] theorem State.setArb_hub (s : State) (k : Nat) (x : Arb) : (s.setArb k x).hub = s.hub := rfl
@[simp] theorem State.setArb_root (s : State) (k : Nat) (x : Arb) : (s.setArb k x).root = s.root := rfl
@[simp] theorem State.setArb_dealerRt (s : State) (k : Nat) (x : Arb) : (s.setArb k x).dealerRt = s.dealerRt := rfl
@[simp] theorem State.setArb_cycle (s : State) (k : Nat) (x : Arb) : (s.setArb k x).cycle = s.cycle := rfl
@[simp] theorem State.setArb_ticks (s : State) (k : Nat) (x : Arb) : (s.setArb k x).ticks = s.ticks := rfl
@[simp] theorem State.setArb_energyNone (s : State) (k : Nat) (x : Arb) : (s.setArb k x).energyNone = s.energyNone := rfl
@[simp] theorem State.setArb_energyAll (s : State) (k : Nat) (x : Arb) : (s.setArb k x).energyAll = s.energyAll := rfl
@[simp] theorem State.setArb_free (s : State) (k : Nat) (x : Arb) : (s.setArb k x).free = s.free := rfl
@[simp] theorem State.setArb_cur (s : State) (k : Nat) (x : Arb) : (s.setArb k x).cur = s.cur := rfl
@[simp] theorem State.setArb_coreAt (s : State) (k : Nat) (x : Arb) : (s.setArb k x).coreAt = s.coreAt := rfl
@[simp] theorem State.setArb_slotUsed (s : State) (k : Nat) (x : Arb) : (s.setArb k x).slotUsed = s.slotUsed := rfl
@[simp] theorem State.setArb_evTurn (s : State) (k : Nat) (x : Arb) : (s.setArb k x).evTurn = s.evTurn := rfl
@[simp] theorem State.setArb_evLeft (s : State) (k : Nat) (x : Arb) : (s.setArb k x).evLeft = s.evLeft := rfl
@[simp] theorem State.setArb_evCur (s : State) (k : Nat) (x : Arb) : (s.setArb k x).evCur = s.evCur := rfl
@[simp] theorem State.setArb_now (s : State) (k : Nat) (x : Arb) : (s.setArb k x).now = s.now := rfl
@[simp] theorem State.setArb_wrote (s : State) (k : Nat) (x : Arb) : (s.setArb k x).wrote = s.wrote := rfl
@[simp] theorem State.setArb_posts (s : State) (k : Nat) (x : Arb) : (s.setArb k x).posts = s.posts := rfl
@[simp] theorem State.setArb_pend (s : State) (k : Nat) (x : Arb) : (s.setArb k x).pend = s.pend := rfl
@[simp] theorem State.setArb_agenda (s : State) (k : Nat) (x : Arb) : (s.setArb k x).agenda = s.agenda := rfl

@[simp] theorem State.setArb_arb (s : State) (k : Nat) (x : Arb) : (s.setArb k x).arb k = x := by
  simp [State.setArb, State.arb]

theorem State.setArb_arb_other (s : State) (x : Arb) {k j : Nat} (h : k ≠ j) : (s.setArb k x).arb j = s.arb j := by
  simp [State.setArb, State.arb, NMap.get_set_other, h]

@[simp] theorem State.setArb_setArb (s : State) (k : Nat) (x y : Arb) : (s.setArb k x).setArb k y = s.setArb k y := by
  simp [State.setArb]

@[simp] theorem State.setArb_thr (s : State) (k j : Nat) (x : Arb) : (s.setArb k x).thr j = s.thr j := rfl
@[simp] theorem State.setArb_core (s : State) (k j : Nat) (x : Arb) : (s.setArb k x).core j = s.core j := rfl
@[simp] theorem State.setArb_octet (s : State) (k j : Nat) (x : Arb) : (s.setArb k x).octet j = s.octet j := rfl
@[simp] theorem State.setArb_cluster (s : State) (k j : Nat) (x : Arb) : (s.setArb k x).cluster j = s.cluster j := rfl
@[simp] theorem State.setArb_part (s : State) (k j : Nat) (x : Arb) : (s.setArb k x).part j = s.part j := rfl
@[simp] theorem State.setArb_seat (s : State) (k j : Nat) (x : Arb) : (s.setArb k x).seat j = s.seat j := rfl
@[simp] theorem State.setArb_deal (s : State) (k j : Nat) (x : Arb) : (s.setArb k x).deal j = s.deal j := rfl
@[simp] theorem State.setArb_slice (s : State) (k j : Nat) (x : Arb) : (s.setArb k x).slice j = s.slice j := rfl
@[simp] theorem State.setArb_func (s : State) (k j : Nat) (x : Arb) : (s.setArb k x).func j = s.func j := rfl
@[simp] theorem State.setArb_frame (s : State) (k j : Nat) (x : Arb) : (s.setArb k x).frame j = s.frame j := rfl

/-! ## setFunc -/

@[simp] theorem State.setFunc_mem (s : State) (k : Nat) (x : Func) : (s.setFunc k x).mem = s.mem := rfl
@[simp] theorem State.setFunc_poison (s : State) (k : Nat) (x : Func) : (s.setFunc k x).poison = s.poison := rfl
@[simp] theorem State.setFunc_threads (s : State) (k : Nat) (x : Func) : (s.setFunc k x).threads = s.threads := rfl
@[simp] theorem State.setFunc_cores (s : State) (k : Nat) (x : Func) : (s.setFunc k x).cores = s.cores := rfl
@[simp] theorem State.setFunc_octets (s : State) (k : Nat) (x : Func) : (s.setFunc k x).octets = s.octets := rfl
@[simp] theorem State.setFunc_clusters (s : State) (k : Nat) (x : Func) : (s.setFunc k x).clusters = s.clusters := rfl
@[simp] theorem State.setFunc_parts (s : State) (k : Nat) (x : Func) : (s.setFunc k x).parts = s.parts := rfl
@[simp] theorem State.setFunc_seats (s : State) (k : Nat) (x : Func) : (s.setFunc k x).seats = s.seats := rfl
@[simp] theorem State.setFunc_deals (s : State) (k : Nat) (x : Func) : (s.setFunc k x).deals = s.deals := rfl
@[simp] theorem State.setFunc_nextDeal (s : State) (k : Nat) (x : Func) : (s.setFunc k x).nextDeal = s.nextDeal := rfl
@[simp] theorem State.setFunc_frames (s : State) (k : Nat) (x : Func) : (s.setFunc k x).frames = s.frames := rfl
@[simp] theorem State.setFunc_scrubs (s : State) (k : Nat) (x : Func) : (s.setFunc k x).scrubs = s.scrubs := rfl
@[simp] theorem State.setFunc_scrubLeft (s : State) (k : Nat) (x : Func) : (s.setFunc k x).scrubLeft = s.scrubLeft := rfl
@[simp] theorem State.setFunc_slices (s : State) (k : Nat) (x : Func) : (s.setFunc k x).slices = s.slices := rfl
@[simp] theorem State.setFunc_arbs (s : State) (k : Nat) (x : Func) : (s.setFunc k x).arbs = s.arbs := rfl
@[simp] theorem State.setFunc_paid (s : State) (k : Nat) (x : Func) : (s.setFunc k x).paid = s.paid := rfl
@[simp] theorem State.setFunc_links (s : State) (k : Nat) (x : Func) : (s.setFunc k x).links = s.links := rfl
@[simp] theorem State.setFunc_expTables (s : State) (k : Nat) (x : Func) : (s.setFunc k x).expTables = s.expTables := rfl
@[simp] theorem State.setFunc_hub (s : State) (k : Nat) (x : Func) : (s.setFunc k x).hub = s.hub := rfl
@[simp] theorem State.setFunc_root (s : State) (k : Nat) (x : Func) : (s.setFunc k x).root = s.root := rfl
@[simp] theorem State.setFunc_dealerRt (s : State) (k : Nat) (x : Func) : (s.setFunc k x).dealerRt = s.dealerRt := rfl
@[simp] theorem State.setFunc_cycle (s : State) (k : Nat) (x : Func) : (s.setFunc k x).cycle = s.cycle := rfl
@[simp] theorem State.setFunc_ticks (s : State) (k : Nat) (x : Func) : (s.setFunc k x).ticks = s.ticks := rfl
@[simp] theorem State.setFunc_energyNone (s : State) (k : Nat) (x : Func) : (s.setFunc k x).energyNone = s.energyNone := rfl
@[simp] theorem State.setFunc_energyAll (s : State) (k : Nat) (x : Func) : (s.setFunc k x).energyAll = s.energyAll := rfl
@[simp] theorem State.setFunc_free (s : State) (k : Nat) (x : Func) : (s.setFunc k x).free = s.free := rfl
@[simp] theorem State.setFunc_cur (s : State) (k : Nat) (x : Func) : (s.setFunc k x).cur = s.cur := rfl
@[simp] theorem State.setFunc_coreAt (s : State) (k : Nat) (x : Func) : (s.setFunc k x).coreAt = s.coreAt := rfl
@[simp] theorem State.setFunc_slotUsed (s : State) (k : Nat) (x : Func) : (s.setFunc k x).slotUsed = s.slotUsed := rfl
@[simp] theorem State.setFunc_evTurn (s : State) (k : Nat) (x : Func) : (s.setFunc k x).evTurn = s.evTurn := rfl
@[simp] theorem State.setFunc_evLeft (s : State) (k : Nat) (x : Func) : (s.setFunc k x).evLeft = s.evLeft := rfl
@[simp] theorem State.setFunc_evCur (s : State) (k : Nat) (x : Func) : (s.setFunc k x).evCur = s.evCur := rfl
@[simp] theorem State.setFunc_now (s : State) (k : Nat) (x : Func) : (s.setFunc k x).now = s.now := rfl
@[simp] theorem State.setFunc_wrote (s : State) (k : Nat) (x : Func) : (s.setFunc k x).wrote = s.wrote := rfl
@[simp] theorem State.setFunc_posts (s : State) (k : Nat) (x : Func) : (s.setFunc k x).posts = s.posts := rfl
@[simp] theorem State.setFunc_pend (s : State) (k : Nat) (x : Func) : (s.setFunc k x).pend = s.pend := rfl
@[simp] theorem State.setFunc_agenda (s : State) (k : Nat) (x : Func) : (s.setFunc k x).agenda = s.agenda := rfl

@[simp] theorem State.setFunc_func (s : State) (k : Nat) (x : Func) : (s.setFunc k x).func k = x := by
  simp [State.setFunc, State.func]

theorem State.setFunc_func_other (s : State) (x : Func) {k j : Nat} (h : k ≠ j) : (s.setFunc k x).func j = s.func j := by
  simp [State.setFunc, State.func, NMap.get_set_other, h]

@[simp] theorem State.setFunc_setFunc (s : State) (k : Nat) (x y : Func) : (s.setFunc k x).setFunc k y = s.setFunc k y := by
  simp [State.setFunc]

@[simp] theorem State.setFunc_thr (s : State) (k j : Nat) (x : Func) : (s.setFunc k x).thr j = s.thr j := rfl
@[simp] theorem State.setFunc_core (s : State) (k j : Nat) (x : Func) : (s.setFunc k x).core j = s.core j := rfl
@[simp] theorem State.setFunc_octet (s : State) (k j : Nat) (x : Func) : (s.setFunc k x).octet j = s.octet j := rfl
@[simp] theorem State.setFunc_cluster (s : State) (k j : Nat) (x : Func) : (s.setFunc k x).cluster j = s.cluster j := rfl
@[simp] theorem State.setFunc_part (s : State) (k j : Nat) (x : Func) : (s.setFunc k x).part j = s.part j := rfl
@[simp] theorem State.setFunc_seat (s : State) (k j : Nat) (x : Func) : (s.setFunc k x).seat j = s.seat j := rfl
@[simp] theorem State.setFunc_deal (s : State) (k j : Nat) (x : Func) : (s.setFunc k x).deal j = s.deal j := rfl
@[simp] theorem State.setFunc_slice (s : State) (k j : Nat) (x : Func) : (s.setFunc k x).slice j = s.slice j := rfl
@[simp] theorem State.setFunc_arb (s : State) (k j : Nat) (x : Func) : (s.setFunc k x).arb j = s.arb j := rfl
@[simp] theorem State.setFunc_frame (s : State) (k j : Nat) (x : Func) : (s.setFunc k x).frame j = s.frame j := rfl

/-! ## setFrame -/

@[simp] theorem State.setFrame_mem (s : State) (k : Nat) (x : FrameState) : (s.setFrame k x).mem = s.mem := rfl
@[simp] theorem State.setFrame_poison (s : State) (k : Nat) (x : FrameState) : (s.setFrame k x).poison = s.poison := rfl
@[simp] theorem State.setFrame_threads (s : State) (k : Nat) (x : FrameState) : (s.setFrame k x).threads = s.threads := rfl
@[simp] theorem State.setFrame_cores (s : State) (k : Nat) (x : FrameState) : (s.setFrame k x).cores = s.cores := rfl
@[simp] theorem State.setFrame_octets (s : State) (k : Nat) (x : FrameState) : (s.setFrame k x).octets = s.octets := rfl
@[simp] theorem State.setFrame_clusters (s : State) (k : Nat) (x : FrameState) : (s.setFrame k x).clusters = s.clusters := rfl
@[simp] theorem State.setFrame_parts (s : State) (k : Nat) (x : FrameState) : (s.setFrame k x).parts = s.parts := rfl
@[simp] theorem State.setFrame_seats (s : State) (k : Nat) (x : FrameState) : (s.setFrame k x).seats = s.seats := rfl
@[simp] theorem State.setFrame_deals (s : State) (k : Nat) (x : FrameState) : (s.setFrame k x).deals = s.deals := rfl
@[simp] theorem State.setFrame_nextDeal (s : State) (k : Nat) (x : FrameState) : (s.setFrame k x).nextDeal = s.nextDeal := rfl
@[simp] theorem State.setFrame_scrubs (s : State) (k : Nat) (x : FrameState) : (s.setFrame k x).scrubs = s.scrubs := rfl
@[simp] theorem State.setFrame_scrubLeft (s : State) (k : Nat) (x : FrameState) : (s.setFrame k x).scrubLeft = s.scrubLeft := rfl
@[simp] theorem State.setFrame_slices (s : State) (k : Nat) (x : FrameState) : (s.setFrame k x).slices = s.slices := rfl
@[simp] theorem State.setFrame_arbs (s : State) (k : Nat) (x : FrameState) : (s.setFrame k x).arbs = s.arbs := rfl
@[simp] theorem State.setFrame_paid (s : State) (k : Nat) (x : FrameState) : (s.setFrame k x).paid = s.paid := rfl
@[simp] theorem State.setFrame_links (s : State) (k : Nat) (x : FrameState) : (s.setFrame k x).links = s.links := rfl
@[simp] theorem State.setFrame_expTables (s : State) (k : Nat) (x : FrameState) : (s.setFrame k x).expTables = s.expTables := rfl
@[simp] theorem State.setFrame_funcs (s : State) (k : Nat) (x : FrameState) : (s.setFrame k x).funcs = s.funcs := rfl
@[simp] theorem State.setFrame_hub (s : State) (k : Nat) (x : FrameState) : (s.setFrame k x).hub = s.hub := rfl
@[simp] theorem State.setFrame_root (s : State) (k : Nat) (x : FrameState) : (s.setFrame k x).root = s.root := rfl
@[simp] theorem State.setFrame_dealerRt (s : State) (k : Nat) (x : FrameState) : (s.setFrame k x).dealerRt = s.dealerRt := rfl
@[simp] theorem State.setFrame_cycle (s : State) (k : Nat) (x : FrameState) : (s.setFrame k x).cycle = s.cycle := rfl
@[simp] theorem State.setFrame_ticks (s : State) (k : Nat) (x : FrameState) : (s.setFrame k x).ticks = s.ticks := rfl
@[simp] theorem State.setFrame_energyNone (s : State) (k : Nat) (x : FrameState) : (s.setFrame k x).energyNone = s.energyNone := rfl
@[simp] theorem State.setFrame_energyAll (s : State) (k : Nat) (x : FrameState) : (s.setFrame k x).energyAll = s.energyAll := rfl
@[simp] theorem State.setFrame_free (s : State) (k : Nat) (x : FrameState) : (s.setFrame k x).free = s.free := rfl
@[simp] theorem State.setFrame_cur (s : State) (k : Nat) (x : FrameState) : (s.setFrame k x).cur = s.cur := rfl
@[simp] theorem State.setFrame_coreAt (s : State) (k : Nat) (x : FrameState) : (s.setFrame k x).coreAt = s.coreAt := rfl
@[simp] theorem State.setFrame_slotUsed (s : State) (k : Nat) (x : FrameState) : (s.setFrame k x).slotUsed = s.slotUsed := rfl
@[simp] theorem State.setFrame_evTurn (s : State) (k : Nat) (x : FrameState) : (s.setFrame k x).evTurn = s.evTurn := rfl
@[simp] theorem State.setFrame_evLeft (s : State) (k : Nat) (x : FrameState) : (s.setFrame k x).evLeft = s.evLeft := rfl
@[simp] theorem State.setFrame_evCur (s : State) (k : Nat) (x : FrameState) : (s.setFrame k x).evCur = s.evCur := rfl
@[simp] theorem State.setFrame_now (s : State) (k : Nat) (x : FrameState) : (s.setFrame k x).now = s.now := rfl
@[simp] theorem State.setFrame_wrote (s : State) (k : Nat) (x : FrameState) : (s.setFrame k x).wrote = s.wrote := rfl
@[simp] theorem State.setFrame_posts (s : State) (k : Nat) (x : FrameState) : (s.setFrame k x).posts = s.posts := rfl
@[simp] theorem State.setFrame_pend (s : State) (k : Nat) (x : FrameState) : (s.setFrame k x).pend = s.pend := rfl
@[simp] theorem State.setFrame_agenda (s : State) (k : Nat) (x : FrameState) : (s.setFrame k x).agenda = s.agenda := rfl

@[simp] theorem State.setFrame_frame (s : State) (k : Nat) (x : FrameState) : (s.setFrame k x).frame k = x := by
  simp [State.setFrame, State.frame]

theorem State.setFrame_frame_other (s : State) (x : FrameState) {k j : Nat} (h : k ≠ j) : (s.setFrame k x).frame j = s.frame j := by
  simp [State.setFrame, State.frame, NMap.get_set_other, h]

@[simp] theorem State.setFrame_setFrame (s : State) (k : Nat) (x y : FrameState) : (s.setFrame k x).setFrame k y = s.setFrame k y := by
  simp [State.setFrame]

@[simp] theorem State.setFrame_thr (s : State) (k j : Nat) (x : FrameState) : (s.setFrame k x).thr j = s.thr j := rfl
@[simp] theorem State.setFrame_core (s : State) (k j : Nat) (x : FrameState) : (s.setFrame k x).core j = s.core j := rfl
@[simp] theorem State.setFrame_octet (s : State) (k j : Nat) (x : FrameState) : (s.setFrame k x).octet j = s.octet j := rfl
@[simp] theorem State.setFrame_cluster (s : State) (k j : Nat) (x : FrameState) : (s.setFrame k x).cluster j = s.cluster j := rfl
@[simp] theorem State.setFrame_part (s : State) (k j : Nat) (x : FrameState) : (s.setFrame k x).part j = s.part j := rfl
@[simp] theorem State.setFrame_seat (s : State) (k j : Nat) (x : FrameState) : (s.setFrame k x).seat j = s.seat j := rfl
@[simp] theorem State.setFrame_deal (s : State) (k j : Nat) (x : FrameState) : (s.setFrame k x).deal j = s.deal j := rfl
@[simp] theorem State.setFrame_slice (s : State) (k j : Nat) (x : FrameState) : (s.setFrame k x).slice j = s.slice j := rfl
@[simp] theorem State.setFrame_arb (s : State) (k j : Nat) (x : FrameState) : (s.setFrame k x).arb j = s.arb j := rfl
@[simp] theorem State.setFrame_func (s : State) (k j : Nat) (x : FrameState) : (s.setFrame k x).func j = s.func j := rfl

end Sys2Proof.Machine
end

