-- ==== Sys2Proof/Laws/Memory.lean ====
section
/-! SUPPORT. Memory: read after write, and every memory operation keeps the canonical form. -/

namespace Sys2Proof.Machine

theorem memCanonical_cons {a : Nat} {b : Byte} {r : List Host.Cell} :
    memCanonical ((a, b) :: r) = true ↔ b ≠ unlistedByte ∧ (∀ c ∈ r, a < c.1) ∧ memCanonical r = true := by
  induction r generalizing a b with
  | nil => simp [memCanonical]
  | cons c r ih =>
    obtain ⟨k, v⟩ := c
    simp only [memCanonical, Bool.and_eq_true, bne_iff_ne, ne_eq, decide_eq_true_eq, List.mem_cons, forall_eq_or_imp, and_assoc]
    constructor
    · rintro ⟨hb, hk, hr⟩
      exact ⟨hb, hk, fun c hc => Nat.lt_trans hk ((ih.1 hr).2.1 c hc), hr⟩
    · rintro ⟨hb, hk, -, hr⟩
      exact ⟨hb, hk, hr⟩

theorem readCell_below {m : List Host.Cell} {x : Nat} (h : ∀ c ∈ m, x < c.1) : readCell m x = unlistedByte := by
  induction m with
  | nil => rfl
  | cons c r ih =>
    obtain ⟨k, v⟩ := c
    have hk : x < k := h (k, v) (by simp)
    have : k ≠ x := by omega
    simp only [readCell, lookupCells, this, if_false]
    exact ih fun c hc => h c (by simp [hc])

theorem readCell_cons (k x : Nat) (v : Byte) (r : List Host.Cell) :
    readCell ((k, v) :: r) x = if k = x then v else readCell r x := rfl

/-- A byte reads back as it was written, and every other byte as before. -/
theorem readCell_writeCell (a x : Nat) (b : Byte) (m : List Host.Cell) (h : memCanonical m = true) :
    readCell (writeCell a b m) x = if a = x then b else readCell m x := by
  induction m with
  | nil =>
    simp only [writeCell]
    split <;> simp_all [readCell, lookupCells]
  | cons c r ih =>
    obtain ⟨k, v⟩ := c
    obtain ⟨hv, hk, hr⟩ := memCanonical_cons.1 h
    simp only [writeCell]
    split
    · rename_i hka
      subst hka
      split
      · rename_i hb
        by_cases hx : k = x
        · subst hx
          simp [readCell_below hk, hb]
        · simp [readCell_cons, hx]
      · by_cases hx : k = x <;> simp [readCell_cons, hx]
    · rename_i hka
      split
      · rename_i hlt
        split
        · rename_i hb
          by_cases hx : a = x
          · subst hx
            have := readCell_below (m := (k, v) :: r) (x := a) (by
              intro c hc
              rcases List.mem_cons.1 hc with rfl | hc
              · exact hlt
              · exact Nat.lt_trans hlt (hk c hc))
            simp [this, hb]
          · simp [hx]
        · rw [readCell_cons]
      · by_cases hx : k = x
        · have : a ≠ x := by omega
          simp [readCell_cons, hx, this]
        · simp [readCell_cons, hx, ih hr]

theorem writeCell_above {a n : Nat} {b : Byte} {m : List Host.Cell} (hn : n < a) (h : ∀ c ∈ m, n < c.1) :
    ∀ c ∈ writeCell a b m, n < c.1 := by
  induction m with
  | nil =>
    simp only [writeCell]
    split <;> simp_all
  | cons c r ih =>
    obtain ⟨k, v⟩ := c
    have hk : n < k := h (k, v) (by simp)
    have hr : ∀ c ∈ r, n < c.1 := fun c hc => h c (by simp [hc])
    simp only [writeCell]
    split
    · split
      · exact hr
      · exact List.forall_mem_cons.2 ⟨hn, hr⟩
    · split
      · split
        · exact h
        · exact List.forall_mem_cons.2 ⟨hn, h⟩
      · intro c hc
        rcases List.mem_cons.1 hc with rfl | hc
        · exact hk
        · exact ih hr c hc

/-- A write keeps the canonical form. -/
theorem writeCell_canonical (a : Nat) (b : Byte) {m : List Host.Cell} (h : memCanonical m = true) :
    memCanonical (writeCell a b m) = true := by
  induction m with
  | nil =>
    simp only [writeCell]
    split
    · rfl
    · simp_all [memCanonical]
  | cons c r ih =>
    obtain ⟨k, v⟩ := c
    obtain ⟨hv, hk, hr⟩ := memCanonical_cons.1 h
    simp only [writeCell]
    split
    · rename_i hka
      subst hka
      split
      · exact hr
      · rename_i hb
        exact memCanonical_cons.2 ⟨hb, hk, hr⟩
    · split
      · rename_i hlt
        split
        · exact h
        · rename_i hb
          refine memCanonical_cons.2 ⟨hb, ?_, h⟩
          intro c hc
          rcases List.mem_cons.1 hc with rfl | hc
          · exact hlt
          · exact Nat.lt_trans hlt (hk c hc)
      · exact memCanonical_cons.2 ⟨hv, writeCell_above (by omega) hk, ih hr⟩

theorem writeCells_canonical (bs : List Byte) (a : Nat) {m : List Host.Cell} (h : memCanonical m = true) :
    memCanonical (writeCells a bs m) = true := by
  induction bs generalizing a m with
  | nil => exact h
  | cons b r ih => exact ih (a + 1) (writeCell_canonical a b h)

theorem filter_canonical (p : Host.Cell → Bool) {m : List Host.Cell} (h : memCanonical m = true) :
    memCanonical (m.filter p) = true := by
  induction m with
  | nil => rfl
  | cons c r ih =>
    obtain ⟨k, v⟩ := c
    obtain ⟨hv, hk, hr⟩ := memCanonical_cons.1 h
    simp only [List.filter]
    split
    · exact memCanonical_cons.2 ⟨hv, fun c hc => hk c (List.mem_filter.1 hc).1, ih hr⟩
    · exact ih hr

theorem readCell_writeCells_outside (bs : List Byte) (a x : Nat) {m : List Host.Cell} (h : memCanonical m = true)
    (hx : x < a ∨ a + bs.length ≤ x) : readCell (writeCells a bs m) x = readCell m x := by
  induction bs generalizing a m with
  | nil => rfl
  | cons b r ih =>
    simp only [List.length_cons] at hx
    have hne : a ≠ x := by omega
    rw [writeCells, ih (a + 1) (writeCell_canonical a b h) (by omega), readCell_writeCell a x b m h]
    simp [hne]

theorem readCell_writeCells_inside (bs : List Byte) (a i : Nat) {m : List Host.Cell} (h : memCanonical m = true)
    (hi : i < bs.length) : readCell (writeCells a bs m) (a + i) = bs.getD i 0 := by
  induction bs generalizing a m i with
  | nil => simp at hi
  | cons b r ih =>
    rw [writeCells]
    cases i with
    | zero =>
      rw [readCell_writeCells_outside r (a + 1) (a + 0) (writeCell_canonical a b h) (by omega), readCell_writeCell a _ b m h]
      simp
    | succ j =>
      have := ih (a + 1) j (writeCell_canonical a b h) (by simpa using hi)
      simpa [Nat.add_assoc, Nat.add_comm 1 j] using this

/-! ## The operations of the machine -/

theorem State.storeBytes_canonical (s : State) (a : Nat) (bs : List Byte) (h : memCanonical s.mem = true) :
    memCanonical (s.storeBytes a bs).mem = true := writeCells_canonical bs a h

theorem State.store_canonical (s : State) (a n v : Nat) (h : memCanonical s.mem = true) :
    memCanonical (s.store a n v).mem = true := writeCells_canonical _ a h

theorem State.storeAll_canonical (bs : List Byte) (s : State) (a : Nat) (h : memCanonical s.mem = true) :
    memCanonical (s.storeAll a bs).mem = true := by
  induction bs generalizing s a with
  | nil => exact h
  | cons b r ih => exact ih _ (a + 1) (State.storeBytes_canonical s a [b] h)

theorem State.zeroBytes_canonical (s : State) (a n : Nat) (h : memCanonical s.mem = true) :
    memCanonical (s.zeroBytes a n).mem = true := filter_canonical _ h

theorem State.reset_canonical : memCanonical State.reset.mem = true := rfl

end Sys2Proof.Machine
end

