-- ==== Sys2Proof/Laws/Act.lean ====
section
/-! SUPPORT. How actions run, what a unit does with its action's answer, and the register operations. -/

namespace Sys2Proof.Machine

/-! ## Actions -/

theorem Act.bind_apply {α β : Type} (x : Act α) (f : α → Act β) (s : State) :
    (x >>= f) s = match x s with | .ok (a, s1) => f a s1 | .error e => .error e := by
  show (StateT.bind x f) s = _
  unfold StateT.bind
  cases h : x s <;> simp [bind, Except.bind]

theorem Act.bind_ok {α β : Type} {x : Act α} {f : α → Act β} {s s1 : State} {a : α} (h : x s = .ok (a, s1)) :
    (x >>= f) s = f a s1 := by
  rw [Act.bind_apply, h]

theorem Act.bind_error {α β : Type} {x : Act α} {f : α → Act β} {s : State} {e : Stop} (h : x s = .error e) :
    (x >>= f) s = .error e := by
  rw [Act.bind_apply, h]

/-- A bind that answers comes from a first part that answers. -/
theorem Act.bind_inv {α β : Type} {x : Act α} {f : α → Act β} {s s2 : State} {b : β} (h : (x >>= f) s = .ok (b, s2)) :
    ∃ a s1, x s = .ok (a, s1) ∧ f a s1 = .ok (b, s2) := by
  rw [Act.bind_apply] at h
  cases hx : x s with
  | error e => simp [hx] at h
  | ok p => exact ⟨p.1, p.2, rfl, by simpa [hx] using h⟩

@[simp] theorem Act.pure_apply {α : Type} (a : α) (s : State) : (pure a : Act α) s = .ok (a, s) := rfl
@[simp] theorem look_apply {α : Type} (f : State → α) (s : State) : look f s = .ok (f s, s) := rfl
@[simp] theorem upd_apply (f : State → State) (s : State) : upd f s = .ok ((), f s) := rfl
@[simp] theorem me_apply (s : State) : me s = .ok (s.thr s.cur, s) := rfl
@[simp] theorem cur_apply (s : State) : cur s = .ok (s.cur, s) := rfl
@[simp] theorem myCore_apply (s : State) : myCore s = .ok (coreOf s.cur, s) := rfl
@[simp] theorem mySeat_apply (s : State) : mySeat s = .ok ((s.thr s.cur).seat.getD 0, s) := rfl
@[simp] theorem meAgent_apply (s : State) : meAgent s = .ok (s.agent s.cur, s) := rfl
@[simp] theorem modMe_apply (f : Thread → Thread) (s : State) : modMe f s = .ok ((), s.modThr s.cur f) := rfl
@[simp] theorem drawWord_apply (s : State) : drawWord s = .ok (Config.freeWord s.free, { s with free := s.free + 1 }) := rfl
@[simp] theorem trap_apply {α : Type} (c sub : BitVec 8) (v : Word) (s : State) :
    (trap c sub v : Act α) s = .error (.trap c sub v (keepAccesses s)) := rfl
@[simp] theorem hold_apply {α : Type} (s : State) : (hold : Act α) s = .error (.hold id) := rfl
@[simp] theorem stall_apply {α : Type} (s : State) : (stall : Act α) s = .error (.stall id) := rfl
@[simp] theorem trapIf_false (c sub : BitVec 8) (v : Word) (s : State) : trapIf false c sub v s = .ok ((), s) := rfl
@[simp] theorem trapIf_true (c sub : BitVec 8) (v : Word) (s : State) :
    trapIf true c sub v s = .error (.trap c sub v (keepAccesses s)) := rfl

/-! ## Units -/

/-- The slot test of R65 passes for a unit that is ready. -/
theorem UnitReady.slot_free {ws : List IWord} {s : State} (hr : UnitReady ws s) :
    (s.slotUsed && !(s.thr s.cur).issued) = false := by
  rcases hr.slot with h | h <;> simp [h]

/-- A unit that is ready and whose action answers completes. -/
theorem runUnit_ok {ws : List IWord} {act : Act (Option Word)} {s s1 : State} {target : Option Word} (hr : UnitReady ws s)
    (h : act s = .ok (target, s1)) : runUnit ws act s = .next (UnitDone ws s target s1) := by
  simp [runUnit, UnitDone, hr.followers, hr.prefixes, hr.token, hr.slot_free, hr.packet, h]

/-- A unit that is ready and whose action traps has issued and traps. -/
theorem runUnit_trap {ws : List IWord} {act : Act (Option Word)} {s : State} {c sub : BitVec 8} {v : Word}
    {keep : State → State} (hr : UnitReady ws s) (h : act s = .error (.trap c sub v keep)) :
    runUnit ws act s = .next (trapUnit s.cur ws c sub v (issueCharge s.cur (keep s))) := by
  simp [runUnit, hr.followers, hr.prefixes, hr.token, hr.slot_free, hr.packet, h]

/-- A unit that is ready and whose action waits has issued. -/
theorem runUnit_hold {ws : List IWord} {act : Act (Option Word)} {s : State} {keep : State → State} (hr : UnitReady ws s)
    (h : act s = .error (.hold keep)) :
    runUnit ws act s = .next (holdUnit s.cur ws (issueCharge s.cur (keep s))) := by
  simp [runUnit, hr.followers, hr.prefixes, hr.token, hr.slot_free, hr.packet, h]

theorem runInstr_ok {i : Instr} {act : Act (Option Word)} {s s1 : State} {target : Option Word} (hr : Ready i s)
    (h : act s = .ok (target, s1)) : runInstr i act s = .next (completed i s target s1) :=
  runUnit_ok hr h

theorem runInstr_trap {i : Instr} {act : Act (Option Word)} {s : State} {c sub : BitVec 8} {v : Word}
    {keep : State → State} (hr : Ready i s) (h : act s = .error (.trap c sub v keep)) :
    runInstr i act s = .next (trapped i s c sub v (keep s)) :=
  runUnit_trap hr h

theorem runPlain_ok {i : Instr} {act : Act Unit} {s s1 : State} (hr : Ready i s) (h : act s = .ok ((), s1)) :
    runPlain i act s = .next (completed i s none s1) :=
  runInstr_ok hr (by rw [Act.bind_ok h]; rfl)

theorem runPlain_trap {i : Instr} {act : Act Unit} {s : State} {c sub : BitVec 8} {v : Word} {keep : State → State}
    (hr : Ready i s) (h : act s = .error (.trap c sub v keep)) :
    runPlain i act s = .next (trapped i s c sub v (keep s)) :=
  runInstr_trap hr (Act.bind_error h)

theorem runEvent_ok {act : Act Unit} {s s1 : State} (h : act s = .ok ((), s1)) : runEvent act s = .next s1 := by
  simp [runEvent, h]

@[simp] theorem runEvent_upd (f : State → State) (s : State) : runEvent (upd f) s = .next (f s) := rfl

/-- An event answers a next state whatever its action answers. -/
theorem runEvent_next (act : Act Unit) (s : State) : ∃ t, runEvent act s = .next t := by
  unfold runEvent
  split <;> exact ⟨_, rfl⟩

theorem runUnit_next (ws : List IWord) (act : Act (Option Word)) (s : State) : ∃ t, runUnit ws act s = .next t := by
  unfold runUnit
  dsimp only
  repeat' split
  all_goals exact ⟨_, rfl⟩

/-! ## Registers -/

@[simp] theorem readX_zero (s : State) : readX 0 s = .ok (0, s) := by
  simp [readX, Act.bind_ok (me_apply s)]

theorem readX_plain {i : Reg} {s : State} (hi : i ≠ 0) (h : (s.thr s.cur).boundSlot i = none) :
    readX i s = .ok ((s.thr s.cur).regs.get 0 i.toNat, s) := by
  unfold readX
  rw [Act.bind_ok (me_apply s), if_neg hi, h]
  rfl

@[simp] theorem writeX_zero (v : Word) (s : State) : writeX 0 v s = .ok ((), s) := by
  simp [writeX, Act.bind_ok (me_apply s)]

theorem writeX_plain {i : Reg} {v : Word} {s : State} (hi : i ≠ 0) (h : (s.thr s.cur).boundSlot i = none) :
    writeX i v s = .ok ((), s.modThr s.cur fun th => { th with regs := th.regs.set i.toNat v }) := by
  unfold writeX
  rw [Act.bind_ok (me_apply s), if_neg hi, h]
  rfl

end Sys2Proof.Machine
end

