-- ==== Sys2Proof/Tests/Slice0.lean ====
section
/-! SUPPORT. The model's own tests: the words of every constructor written out from the opcode table, the terms and words that
are refused, single steps of the spec's worked examples, and a state and operands that meet the hypotheses of each statement. -/

set_option maxRecDepth 20000
set_option Elab.async false

namespace Sys2Proof.Tests

open Sys2Proof Sys2Proof.Machine

/-! ## States and lemmas for the witnesses -/

/-- True when an action answers in a state, what it answers, and the state after it. -/
def answers {α : Type} (act : Act α) (s : State) : Bool := match act s with | .ok _ => true | .error _ => false
def answerOf {α : Type} [Inhabited α] (act : Act α) (s : State) : α := match act s with | .ok (a, _) => a | .error _ => default
def after {α : Type} (act : Act α) (s : State) : State := match act s with | .ok (_, t) => t | .error _ => s
/-- True when an action answers `a`. -/
def answersWith {α : Type} [DecidableEq α] (act : Act α) (s : State) (a : α) : Bool :=
  match act s with | .ok (b, _) => decide (b = a) | .error _ => false
/-- True when an action that may fail answers a value, and the value. -/
def answersOk {ε α : Type} (act : Act (Except ε α)) (s : State) : Bool := match act s with | .ok (.ok _, _) => true | _ => false
def answersOkWith {ε α : Type} [DecidableEq α] (act : Act (Except ε α)) (s : State) (a : α) : Bool :=
  match act s with | .ok (.ok b, _) => decide (b = a) | _ => false
def okOf {ε α : Type} [Inhabited α] (act : Act (Except ε α)) (s : State) : α :=
  match act s with | .ok (.ok a, _) => a | _ => default

theorem gives {α : Type} [Inhabited α] {act : Act α} {s : State} (h : answers act s = true) :
    Gives act s (answerOf act s) (after act s) := by
  unfold Gives answerOf after
  unfold answers at h
  split at h <;> simp_all

theorem givesVal {α : Type} [DecidableEq α] {act : Act α} {s : State} {a : α} (h : answersWith act s a = true) :
    Gives act s a (after act s) := by
  unfold Gives after
  unfold answersWith at h
  split at h <;> simp_all

theorem givesOk {ε α : Type} [Inhabited α] {act : Act (Except ε α)} {s : State} (h : answersOk act s = true) :
    Gives act s (.ok (okOf act s)) (after act s) := by
  unfold Gives after okOf
  unfold answersOk at h
  split at h <;> simp_all

theorem givesOkVal {ε α : Type} [DecidableEq α] {act : Act (Except ε α)} {s : State} {a : α} (h : answersOkWith act s a = true) :
    Gives act s (.ok a) (after act s) := by
  unfold Gives after
  unfold answersOkWith at h
  split at h <;> simp_all

/-- What a run of accesses answers where it reads or writes everything. -/
def answersAll {α : Type} (act : Act (VProg α)) (s : State) : Bool := match act s with | .ok (.all _, _) => true | _ => false
def answersAllWith {α : Type} [DecidableEq α] (act : Act (VProg α)) (s : State) (a : α) : Bool :=
  match act s with | .ok (.all b, _) => decide (b = a) | _ => false
def allOf {α : Type} [Inhabited α] (act : Act (VProg α)) (s : State) : α := match act s with | .ok (.all a, _) => a | _ => default

theorem givesAll {α : Type} [Inhabited α] {act : Act (VProg α)} {s : State} (h : answersAll act s = true) :
    Gives act s (.all (allOf act s)) (after act s) := by
  unfold Gives after allOf
  unfold answersAll at h
  split at h <;> simp_all

theorem givesAllVal {α : Type} [DecidableEq α] {act : Act (VProg α)} {s : State} {a : α} (h : answersAllWith act s a = true) :
    Gives act s (.all a) (after act s) := by
  unfold Gives after
  unfold answersAllWith at h
  split at h <;> simp_all

theorem givesAt {α : Type} [DecidableEq α] {act : Act α} {s t : State} {a : α}
    (h : (answersWith act s a && decide (after act s = t)) = true) : Gives act s a t := by
  simp only [Bool.and_eq_true, decide_eq_true_eq] at h
  exact h.2 ▸ givesVal h.1

theorem uready {ws : List IWord} {s : State}
    (h : (followersReady s s.cur ws.length && decide (ws.length ≤ (s.thr s.cur).paid + 1) && issueReady s s.cur
      && (!s.slotUsed || (s.thr s.cur).issued) && !(s.thr s.cur).packetBars ws) = true) : UnitReady ws s := by
  simp only [Bool.and_eq_true, Bool.or_eq_true, Bool.not_eq_true', decide_eq_true_eq] at h
  exact ⟨h.1.1.1.1, h.1.1.1.2, h.1.1.2, h.1.2, h.2⟩

theorem ready {i : Instr} {s : State}
    (h : (followersReady s s.cur 1 && issueReady s s.cur && (!s.slotUsed || (s.thr s.cur).issued)
      && !(s.thr s.cur).packetBars [encode i]) = true) : Ready i s :=
  uready (by
    simp only [Bool.and_eq_true, List.length_singleton, decide_eq_true_eq] at h ⊢
    exact ⟨⟨⟨⟨h.1.1.1, by omega⟩, h.1.1.2⟩, h.1.2⟩, h.2⟩)

theorem readyAll {l : List Instr} {s : State}
    (h : l.all (fun i => followersReady s s.cur 1 && issueReady s s.cur && (!s.slotUsed || (s.thr s.cur).issued)
      && !(s.thr s.cur).packetBars [encode i]) = true) : ∀ i ∈ l, Ready i s :=
  fun i hi => ready (List.all_eq_true.1 h i hi)

theorem bothReady {α : Type} {x y : α} {f : α → Instr} {s : State} (hx : Ready (f x) s) (hy : Ready (f y) s) :
    ∀ m ∈ [x, y], Ready (f m) s := by
  intro m hm
  simp only [List.mem_cons, List.not_mem_nil, or_false] at hm
  rcases hm with rfl | rfl
  · exact hx
  · exact hy

/-- A word of the unit that is not its last may issue. -/
theorem pready {ws : List IWord} {s : State}
    (h : (followersReady s s.cur ws.length && decide ((s.thr s.cur).paid + 1 < ws.length) && issueReady s s.cur
      && (!s.slotUsed || (s.thr s.cur).issued) && !(s.thr s.cur).packetBars ws) = true) : PrefixReady ws s := by
  simp only [Bool.and_eq_true, Bool.or_eq_true, Bool.not_eq_true', decide_eq_true_eq] at h
  exact ⟨h.1.1.1.1, h.1.1.1.2, h.1.1.2, h.1.2, h.2⟩

theorem ofNone {α : Type} {o : Option α} {r : α} {P : Prop} (h : o.isNone = true) (hr : o = some r) : P := by
  rw [hr] at h; cases h

theorem ofSome {α : Type} {o : Option α} {a b : α} {P : α → Prop} (h : o = some a) (hb : o = some b) (hp : P a) : P b := by
  rw [h] at hb; cases hb; exact hp

/-- A seat's configuration with a window of each kind. -/
def seatCfg : SeatCfg :=
  { issue := { rate := 128, depth := 128 }, channel := [{ rate := 64, depth := 128 }], copy := [{ rate := 64, depth := 128 }],
    cpmax := [4], tracks := [{ base := 0, count := 16 }], slots := [8], sems := [{ base := 0, count := 64 }],
    mailboxes := [{ base := 0, count := 8 }], rowOctets := [true, true] }

/-- A full bucket of 128 tokens of seat 1 of partition 1. -/
def full : Arb := { buckets := ⟨[(16, { rate := 128, depth := 128, tok := 128 })]⟩ }

/-- Thread 0 of core 0 at a unit, RUNNING for seat 1 of partition 1 with registers `r`; the seat owns every scratchpad bank of
cores 0 and 1, and cluster 0 has 64 raw tracks and a megabyte of cluster memory. -/
def unitAt (r : List (Nat × Word)) : State :=
  { parts := ⟨[(1, { level := 8, cmbase := ⟨[(0, 64)]⟩, cmsize := ⟨[(0, 0x100000)]⟩ })]⟩
    threads := ⟨[(0, { st := .running, seat := some 16, regs := ⟨r⟩ })]⟩
    cores := ⟨[(0, { groups := [{ base := 0, size := 48, seat := 16 }] }), (1, { groups := [{ base := 0, size := 48, seat := 16 }] })]⟩
    seats := ⟨[(16, { cfg := seatCfg })]⟩
    arbs := ⟨[(0, full), (injectArb 0, full), (copyArb 0, full)]⟩ }

/-- That state with the page at 0 mapped for the seat, its leaf in the translation unit of cluster 0. -/
def mapped : State :=
  (loadSeatOn (loadMap (unitAt []))).modCluster 0 fun c => { c with xlat := [{ leaf := loadTables + 0x2000, size := 2 ^ 30, dom := 1 }] }

/-- An address in the own scratchpad. -/
def own : Word := 0x00F0000000000000


/-- The eight cores of octet 0, each changed. -/
def allCores (f : MxCore → MxCore) (s : State) : State := (List.range 8).foldl (fun s n => s.modMx n f) s

theorem isOk {ε α : Type} {e : Except ε α} (h : e.toBool = true) : ∃ a, e = .ok a := by
  cases e with
  | error _ => cases h
  | ok a => exact ⟨a, rfl⟩

theorem bytesVal_zeros (n : Nat) : bytesVal (List.replicate n (0 : Byte)) = 0 := by
  induction n with
  | zero => rfl
  | succ n ih =>
    show (0 : Byte).toNat + 256 * bytesVal (List.replicate n (0 : Byte)) = 0
    rw [ih]; rfl

theorem decodeWords_zeros (n : Nat) (bs : List Byte) : decodeWords n 0 0 bs = some (List.replicate n 0) := by
  induction n generalizing bs with
  | zero => rfl
  | succ n ih => simp [decodeWords, ih, List.replicate_succ]

theorem payloadSize_zero (n : Nat) : payloadSize n 0 = 0 := by
  induction n with
  | zero => rfl
  | succ n ih => simp [payloadSize, ih]

theorem decodeChunks_zeros (k : Nat) : decodeChunks k (List.replicate (16 * k) 0) = some (List.replicate (512 * k) 0) := by
  induction k with
  | zero => rfl
  | succ k ih =>
    have e : 16 * (k + 1) - 16 = 16 * k := by omega
    have m : min 16 (16 * (k + 1)) = 16 := by omega
    have f : (List.replicate 64 0).flatMap (bytesOf 8) = List.replicate 512 (0 : Byte) := by decide +kernel
    have l : 512 * (k + 1) = 512 + 512 * k := by omega
    rw [decodeChunks, if_neg (by simp <;> omega)]
    simp only [List.take_replicate, m, bytesVal_zeros, payloadSize_zero]
    rw [if_neg (by simp <;> omega)]
    simp only [List.drop_replicate, decodeWords_zeros]
    rw [show 16 * (k + 1) - (16 + 0 + 7) / 8 * 8 = 16 * k by omega, ih]
    dsimp only
    rw [f, l, List.replicate_append_replicate]

/-- A payload of 128 zero bytes is a tile of 64 zero columns. -/
theorem zeroPayload (h : Header) (hf : h.fmt = 0) (hs : h.shape = 2) :
    ∃ x, payloadHalf h ((List.replicate 16 0).flatMap wordBytes) = .ok x := by
  have hd : decodeChunks 8 ((List.replicate 16 0).flatMap wordBytes) = some (List.replicate 4096 0) := by
    rw [show (List.replicate 16 0).flatMap wordBytes = List.replicate (16 * 8) 0 by decide +kernel]
    exact decodeChunks_zeros 8
  apply isOk
  unfold payloadHalf
  dsimp only
  rw [hf, hs, show ceilDiv (shapeCols 2 * 8 * sxBytes 0) 512 = 8 by decide +kernel]
  simp only [hd, sliceL, List.drop_replicate, List.take_replicate, bytesVal_zeros]
  rw [if_neg (by simp)]
  rfl

/-- True when an action answers something that passes a test. -/
def answersIf {α : Type} (f : α → Bool) (act : Act α) (s : State) : Bool :=
  match act s with | .ok (x, _) => f x | .error _ => false

theorem givesBy {α : Type} {act : Act α} {s : State} {a : α} (f : α → Bool) (hf : ∀ x, f x = true → x = a)
    (h : answersIf f act s = true) : Gives act s a (after act s) := by
  unfold Gives after
  unfold answersIf at h
  split at h
  · next x t e => rw [e, hf x h]
  · cases h

def isEmptyAt (a : Word) : RingNext → Bool
  | .empty t => t == a
  | _ => false
def isRecord (a w : Word) : RingNext → Bool
  | .record t h => t == a && h == w
  | _ => false

theorem givesEmpty {act : Act RingNext} {s : State} {a : Word} (h : answersIf (isEmptyAt a) act s = true) :
    Gives act s (.empty a) (after act s) :=
  givesBy (isEmptyAt a) (fun x hx => by cases x <;> simp_all [isEmptyAt]) h

theorem givesRecord {act : Act RingNext} {s : State} {a w : Word} (h : answersIf (isRecord a w) act s = true) :
    Gives act s (.record a w) (after act s) :=
  givesBy (isRecord a w) (fun x hx => by cases x <;> simp_all [isRecord]) h

theorem chose {o : Option (Nat × State × List Nat)} (h : o.isSome = true) :
    o = some ((o.get h).1, (o.get h).2.1, (o.get h).2.2) := by
  cases o with
  | none => cases h
  | some x => rfl

/-- True when an outcome is a next state. -/
def isNext : Host.Outcome State Fault Refusal → Bool
  | .next _ => true
  | _ => false

theorem nextOf {o : Host.Outcome State Fault Refusal} (h : isNext o = true) : ∃ t, o = .next t := by
  cases o with
  | next t => exact ⟨t, rfl⟩
  | fault _ => cases h
  | refused _ => cases h

def isPassFault {α : Type} (sub : BitVec 8) (va : Word) : VProg α → Bool
  | .fault a b => a == sub && b == va
  | _ => false

theorem givesFault {α : Type} {act : Act (VProg α)} {s : State} {sub : BitVec 8} {va : Word}
    (h : answersIf (isPassFault sub va) act s = true) : Gives act s (.fault sub va) (after act s) :=
  givesBy (isPassFault sub va) (fun x hx => by cases x <;> simp_all [isPassFault]) h

theorem isNone_of {α : Type} {o : Option α} (h : o.isNone = true) : o = none := by
  cases o with
  | none => rfl
  | some _ => cases h

/-! ## Words written out from the opcode table -/

/-- True when a word decodes to an instruction. -/
def decodesTo (w : IWord) (i : Instr) : Bool :=
  match decode w with | .ok j => decide (j = i) | .error _ => false

theorem decodes_Loads : [
      (0b100000000001#12 ++ 0b00010#5 ++ 0b000#3 ++ 0b00001#5 ++ 0b0000011#7, .lb 1 2 0b100000000001),
      (0b100000000001#12 ++ 0b00010#5 ++ 0b001#3 ++ 0b00001#5 ++ 0b0000011#7, .lh 1 2 0b100000000001),
      (0b100000000001#12 ++ 0b00010#5 ++ 0b010#3 ++ 0b00001#5 ++ 0b0000011#7, .lw 1 2 0b100000000001),
      (0b100000000001#12 ++ 0b00010#5 ++ 0b011#3 ++ 0b00001#5 ++ 0b0000011#7, .ld 1 2 0b100000000001),
      (0b100000000001#12 ++ 0b00010#5 ++ 0b100#3 ++ 0b00001#5 ++ 0b0000011#7, .lbu 1 2 0b100000000001),
      (0b100000000001#12 ++ 0b00010#5 ++ 0b101#3 ++ 0b00001#5 ++ 0b0000011#7, .lhu 1 2 0b100000000001),
      (0b100000000001#12 ++ 0b00010#5 ++ 0b110#3 ++ 0b00001#5 ++ 0b0000011#7, .lwu 1 2 0b100000000001)].all (fun p => decodesTo p.1 p.2) = true := by decide +kernel

theorem decodes_Stores : [
      (0b1000001#7 ++ 0b00011#5 ++ 0b00010#5 ++ 0b000#3 ++ 0b00110#5 ++ 0b0100011#7, .sb 3 2 0b100000100110),
      (0b1000001#7 ++ 0b00011#5 ++ 0b00010#5 ++ 0b001#3 ++ 0b00110#5 ++ 0b0100011#7, .sh 3 2 0b100000100110),
      (0b1000001#7 ++ 0b00011#5 ++ 0b00010#5 ++ 0b010#3 ++ 0b00110#5 ++ 0b0100011#7, .sw 3 2 0b100000100110),
      (0b1000001#7 ++ 0b00011#5 ++ 0b00010#5 ++ 0b011#3 ++ 0b00110#5 ++ 0b0100011#7, .sd 3 2 0b100000100110)].all (fun p => decodesTo p.1 p.2) = true := by decide +kernel

theorem decodes_Immediates : [
      (0b100000000001#12 ++ 0b00010#5 ++ 0b000#3 ++ 0b00001#5 ++ 0b0010011#7, .addi 1 2 0b100000000001),
      (0b100000000001#12 ++ 0b00010#5 ++ 0b010#3 ++ 0b00001#5 ++ 0b0010011#7, .slti 1 2 0b100000000001),
      (0b100000000001#12 ++ 0b00010#5 ++ 0b011#3 ++ 0b00001#5 ++ 0b0010011#7, .sltiu 1 2 0b100000000001),
      (0b100000000001#12 ++ 0b00010#5 ++ 0b100#3 ++ 0b00001#5 ++ 0b0010011#7, .xori 1 2 0b100000000001),
      (0b100000000001#12 ++ 0b00010#5 ++ 0b110#3 ++ 0b00001#5 ++ 0b0010011#7, .ori 1 2 0b100000000001),
      (0b100000000001#12 ++ 0b00010#5 ++ 0b111#3 ++ 0b00001#5 ++ 0b0010011#7, .andi 1 2 0b100000000001),
      (0b000000#6 ++ 0b100001#6 ++ 0b00010#5 ++ 0b001#3 ++ 0b00001#5 ++ 0b0010011#7, .slli 1 2 0b100001),
      (0b000000#6 ++ 0b100001#6 ++ 0b00010#5 ++ 0b101#3 ++ 0b00001#5 ++ 0b0010011#7, .srli 1 2 0b100001),
      (0b010000#6 ++ 0b100001#6 ++ 0b00010#5 ++ 0b101#3 ++ 0b00001#5 ++ 0b0010011#7, .srai 1 2 0b100001),
      (0b100000000001#12 ++ 0b00010#5 ++ 0b000#3 ++ 0b00001#5 ++ 0b0011011#7, .addiw 1 2 0b100000000001),
      (0b0000000#7 ++ 0b10001#5 ++ 0b00010#5 ++ 0b001#3 ++ 0b00001#5 ++ 0b0011011#7, .slliw 1 2 0b10001),
      (0b0000000#7 ++ 0b10001#5 ++ 0b00010#5 ++ 0b101#3 ++ 0b00001#5 ++ 0b0011011#7, .srliw 1 2 0b10001),
      (0b0100000#7 ++ 0b10001#5 ++ 0b00010#5 ++ 0b101#3 ++ 0b00001#5 ++ 0b0011011#7, .sraiw 1 2 0b10001),
      (0b10000000000000000001#20 ++ 0b00001#5 ++ 0b0110111#7, .lui 1 0b10000000000000000001),
      (0b10000000000000000001#20 ++ 0b00001#5 ++ 0b0010111#7, .auipc 1 0b10000000000000000001)].all (fun p => decodesTo p.1 p.2) = true := by decide +kernel

theorem decodes_RegisterRegister : [
      (0b0000000#7 ++ 0b00011#5 ++ 0b00010#5 ++ 0b000#3 ++ 0b00001#5 ++ 0b0110011#7, .add 1 2 3),
      (0b0100000#7 ++ 0b00011#5 ++ 0b00010#5 ++ 0b000#3 ++ 0b00001#5 ++ 0b0110011#7, .sub 1 2 3),
      (0b0000000#7 ++ 0b00011#5 ++ 0b00010#5 ++ 0b001#3 ++ 0b00001#5 ++ 0b0110011#7, .sll 1 2 3),
      (0b0000000#7 ++ 0b00011#5 ++ 0b00010#5 ++ 0b010#3 ++ 0b00001#5 ++ 0b0110011#7, .slt 1 2 3),
      (0b0000000#7 ++ 0b00011#5 ++ 0b00010#5 ++ 0b011#3 ++ 0b00001#5 ++ 0b0110011#7, .sltu 1 2 3),
      (0b0000000#7 ++ 0b00011#5 ++ 0b00010#5 ++ 0b100#3 ++ 0b00001#5 ++ 0b0110011#7, .xor 1 2 3),
      (0b0000000#7 ++ 0b00011#5 ++ 0b00010#5 ++ 0b101#3 ++ 0b00001#5 ++ 0b0110011#7, .srl 1 2 3),
      (0b0100000#7 ++ 0b00011#5 ++ 0b00010#5 ++ 0b101#3 ++ 0b00001#5 ++ 0b0110011#7, .sra 1 2 3),
      (0b0000000#7 ++ 0b00011#5 ++ 0b00010#5 ++ 0b110#3 ++ 0b00001#5 ++ 0b0110011#7, .or 1 2 3),
      (0b0000000#7 ++ 0b00011#5 ++ 0b00010#5 ++ 0b111#3 ++ 0b00001#5 ++ 0b0110011#7, .and 1 2 3),
      (0b0000001#7 ++ 0b00011#5 ++ 0b00010#5 ++ 0b000#3 ++ 0b00001#5 ++ 0b0110011#7, .mul 1 2 3),
      (0b0000001#7 ++ 0b00011#5 ++ 0b00010#5 ++ 0b001#3 ++ 0b00001#5 ++ 0b0110011#7, .mulh 1 2 3),
      (0b0000001#7 ++ 0b00011#5 ++ 0b00010#5 ++ 0b010#3 ++ 0b00001#5 ++ 0b0110011#7, .mulhsu 1 2 3),
      (0b0000001#7 ++ 0b00011#5 ++ 0b00010#5 ++ 0b011#3 ++ 0b00001#5 ++ 0b0110011#7, .mulhu 1 2 3),
      (0b0000001#7 ++ 0b00011#5 ++ 0b00010#5 ++ 0b100#3 ++ 0b00001#5 ++ 0b0110011#7, .div 1 2 3),
      (0b0000001#7 ++ 0b00011#5 ++ 0b00010#5 ++ 0b101#3 ++ 0b00001#5 ++ 0b0110011#7, .divu 1 2 3),
      (0b0000001#7 ++ 0b00011#5 ++ 0b00010#5 ++ 0b110#3 ++ 0b00001#5 ++ 0b0110011#7, .rem 1 2 3),
      (0b0000001#7 ++ 0b00011#5 ++ 0b00010#5 ++ 0b111#3 ++ 0b00001#5 ++ 0b0110011#7, .remu 1 2 3)].all (fun p => decodesTo p.1 p.2) = true := by decide +kernel

theorem decodes_RegisterRegister32 : [
      (0b0000000#7 ++ 0b00011#5 ++ 0b00010#5 ++ 0b000#3 ++ 0b00001#5 ++ 0b0111011#7, .addw 1 2 3),
      (0b0100000#7 ++ 0b00011#5 ++ 0b00010#5 ++ 0b000#3 ++ 0b00001#5 ++ 0b0111011#7, .subw 1 2 3),
      (0b0000000#7 ++ 0b00011#5 ++ 0b00010#5 ++ 0b001#3 ++ 0b00001#5 ++ 0b0111011#7, .sllw 1 2 3),
      (0b0000000#7 ++ 0b00011#5 ++ 0b00010#5 ++ 0b101#3 ++ 0b00001#5 ++ 0b0111011#7, .srlw 1 2 3),
      (0b0100000#7 ++ 0b00011#5 ++ 0b00010#5 ++ 0b101#3 ++ 0b00001#5 ++ 0b0111011#7, .sraw 1 2 3),
      (0b0000001#7 ++ 0b00011#5 ++ 0b00010#5 ++ 0b000#3 ++ 0b00001#5 ++ 0b0111011#7, .mulw 1 2 3),
      (0b0000001#7 ++ 0b00011#5 ++ 0b00010#5 ++ 0b100#3 ++ 0b00001#5 ++ 0b0111011#7, .divw 1 2 3),
      (0b0000001#7 ++ 0b00011#5 ++ 0b00010#5 ++ 0b101#3 ++ 0b00001#5 ++ 0b0111011#7, .divuw 1 2 3),
      (0b0000001#7 ++ 0b00011#5 ++ 0b00010#5 ++ 0b110#3 ++ 0b00001#5 ++ 0b0111011#7, .remw 1 2 3),
      (0b0000001#7 ++ 0b00011#5 ++ 0b00010#5 ++ 0b111#3 ++ 0b00001#5 ++ 0b0111011#7, .remuw 1 2 3)].all (fun p => decodesTo p.1 p.2) = true := by decide +kernel

theorem decodes_BranchesAndJumps : [
      (0b10000000011100000101#20 ++ 0b00001#5 ++ 0b1101111#7, .jal 1 0b10000010110000000011),
      (0b100000000001#12 ++ 0b00010#5 ++ 0b000#3 ++ 0b00001#5 ++ 0b1100111#7, .jalr 1 2 0b100000000001),
      (0b1000001#7 ++ 0b00011#5 ++ 0b00010#5 ++ 0b000#3 ++ 0b00101#5 ++ 0b1100011#7, .beq 2 3 0b110000010010),
      (0b1000001#7 ++ 0b00011#5 ++ 0b00010#5 ++ 0b001#3 ++ 0b00101#5 ++ 0b1100011#7, .bne 2 3 0b110000010010),
      (0b1000001#7 ++ 0b00011#5 ++ 0b00010#5 ++ 0b100#3 ++ 0b00101#5 ++ 0b1100011#7, .blt 2 3 0b110000010010),
      (0b1000001#7 ++ 0b00011#5 ++ 0b00010#5 ++ 0b101#3 ++ 0b00101#5 ++ 0b1100011#7, .bge 2 3 0b110000010010),
      (0b1000001#7 ++ 0b00011#5 ++ 0b00010#5 ++ 0b110#3 ++ 0b00101#5 ++ 0b1100011#7, .bltu 2 3 0b110000010010),
      (0b1000001#7 ++ 0b00011#5 ++ 0b00010#5 ++ 0b111#3 ++ 0b00101#5 ++ 0b1100011#7, .bgeu 2 3 0b110000010010)].all (fun p => decodesTo p.1 p.2) = true := by decide +kernel

theorem decodes_ControlRegisters : [
      (0b100000000001#12 ++ 0b00010#5 ++ 0b001#3 ++ 0b00001#5 ++ 0b1110011#7, .csrrw 1 0b100000000001 2),
      (0b100000000001#12 ++ 0b00010#5 ++ 0b010#3 ++ 0b00001#5 ++ 0b1110011#7, .csrrs 1 0b100000000001 2),
      (0b100000000001#12 ++ 0b00010#5 ++ 0b011#3 ++ 0b00001#5 ++ 0b1110011#7, .csrrc 1 0b100000000001 2),
      (0b100000000001#12 ++ 0b10001#5 ++ 0b101#3 ++ 0b00001#5 ++ 0b1110011#7, .csrrwi 1 0b100000000001 0b10001),
      (0b100000000001#12 ++ 0b10001#5 ++ 0b110#3 ++ 0b00001#5 ++ 0b1110011#7, .csrrsi 1 0b100000000001 0b10001),
      (0b100000000001#12 ++ 0b10001#5 ++ 0b111#3 ++ 0b00001#5 ++ 0b1110011#7, .csrrci 1 0b100000000001 0b10001)].all (fun p => decodesTo p.1 p.2) = true := by decide +kernel

theorem decodes_Near0 : [
      (0b0000000#7 ++ 0b00011#5 ++ 0b00010#5 ++ 0b000#3 ++ 0b00001#5 ++ 0b0001011#7, .bfx 1 2 3),
      (0b0000001#7 ++ 0b00011#5 ++ 0b00010#5 ++ 0b000#3 ++ 0b00001#5 ++ 0b0001011#7, .bfxs 1 2 3),
      (0b0000010#7 ++ 0b00011#5 ++ 0b00010#5 ++ 0b000#3 ++ 0b00001#5 ++ 0b0001011#7, .bfi 1 2 3),
      (0b000001100000#12 ++ 0b00010#5 ++ 0b000#3 ++ 0b00001#5 ++ 0b0001011#7, .clz 1 2),
      (0b000010000000#12 ++ 0b00010#5 ++ 0b000#3 ++ 0b00001#5 ++ 0b0001011#7, .ctz 1 2),
      (0b000010100000#12 ++ 0b00010#5 ++ 0b000#3 ++ 0b00001#5 ++ 0b0001011#7, .cpop 1 2),
      (0b000011000000#12 ++ 0b00010#5 ++ 0b000#3 ++ 0b00001#5 ++ 0b0001011#7, .rev8 1 2)].all (fun p => decodesTo p.1 p.2) = true := by decide +kernel

theorem decodes_Near1 : [
      (0b101#3 ++ 0b10#2 ++ 0b10#2 ++ 0b0#1 ++ 0b1001#4 ++ 0b00010#5 ++ 0b001#3 ++ 0b00001#5 ++ 0b0001011#7, .ldo 1 2 .part 0b10 .noAlloc 0b1001),
      (0b101#3 ++ 0b10#2 ++ 0b10#2 ++ 0b1#1 ++ 0b1001#4 ++ 0b00010#5 ++ 0b001#3 ++ 0b00001#5 ++ 0b0001011#7, .lwo 1 2 .part 0b10 .noAlloc 0b1001)].all (fun p => decodesTo p.1 p.2) = true := by decide +kernel

theorem decodes_Near2 : [
      (0b101#3 ++ 0b10#2 ++ 0b10#2 ++ 0b00011#5 ++ 0b00010#5 ++ 0b010#3 ++ 0b1001#4 ++ 0b00001011#8, .sdo 3 2 .part 0b10 .noAlloc 0b1001),
      (0b101#3 ++ 0b10#2 ++ 0b10#2 ++ 0b00011#5 ++ 0b00010#5 ++ 0b010#3 ++ 0b1001#4 ++ 0b10001011#8, .swo 3 2 .part 0b10 .noAlloc 0b1001)].all (fun p => decodesTo p.1 p.2) = true := by decide +kernel

theorem decodes_Near3 : [
      (0b0000000#7 ++ 0b00011#5 ++ 0b00010#5 ++ 0b011#3 ++ 0b10001#5 ++ 0b0001011#7, .rst 3 2 0b10001),
      (0b0000001#7 ++ 0b00011#5 ++ 0b00010#5 ++ 0b011#3 ++ 0b10001#5 ++ 0b0001011#7, .rsa 3 2 0b10001)].all (fun p => decodesTo p.1 p.2) = true := by decide +kernel

theorem decodes_Near4 : [
      (0b000000000#9 ++ 0b101#3 ++ 0b00000100000000001011#20, .wcwait 0b101),
      (0b0000001000#10 ++ 0b10#2 ++ 0b00000100#8 ++ 0b00001#5 ++ 0b0001011#7, .wcread 1 0b10)].all (fun p => decodesTo p.1 p.2) = true := by decide +kernel

theorem decodes_Near5 : [
      (0b00000000#8 ++ 0b1001#4 ++ 0b00010#5 ++ 0b101000000001011#15, .cbCfg 0b1001 2),
      (0b00000010#8 ++ 0b1001#4 ++ 0b00010#5 ++ 0b101#3 ++ 0b00001#5 ++ 0b0001011#7, .cbWfill 1 0b1001 2),
      (0b00000100#8 ++ 0b1001#4 ++ 0b00010#5 ++ 0b101#3 ++ 0b00001#5 ++ 0b0001011#7, .cbWfree 1 0b1001 2),
      (0b00000110#8 ++ 0b1001#4 ++ 0b00010#5 ++ 0b101000000001011#15, .cbAdvp 0b1001 2),
      (0b00001000#8 ++ 0b1001#4 ++ 0b00010#5 ++ 0b101000000001011#15, .cbAdvc 0b1001 2)].all (fun p => decodesTo p.1 p.2) = true := by decide +kernel

theorem decodes_Control7 : [
      (0b10000000000000001#17 ++ 0b111#3 ++ 0b00110#5 ++ 0b1111011#7, .pfxImm 0b1000000000000000100110)].all (fun p => decodesTo p.1 p.2) = true := by decide +kernel

theorem decodes_Control6 : [
      (0b00000010000000000110000#23 ++ 0b10#2 ++ 0b1111011#7, .pfxOrd 0b10),
      (0b0000000#7 ++ 0b10001#5 ++ 0b00010#5 ++ 0b110000001111011#15, .trap 0b10001 2),
      (0b00000100000000000110000001111011#32, .xret),
      (0b000001100000#12 ++ 0b00010#5 ++ 0b110#3 ++ 0b00001#5 ++ 0b1111011#7, .idle 1 2),
      (0b00001000000000000110000001111011#32, .yield)].all (fun p => decodesTo p.1 p.2) = true := by decide +kernel

theorem decodes_Control5 : [
      (0b0000000#7 ++ 0b00011#5 ++ 0b00010#5 ++ 0b101#3 ++ 0b00001#5 ++ 0b1111011#7, .fuse 1 2 3),
      (0b00000010000000000101000001111011#32, .split)].all (fun p => decodesTo p.1 p.2) = true := by decide +kernel

theorem decodes_Engines0 : [
      (0b0000#4 ++ 0b101#3 ++ 0b00000#5 ++ 0b00010#5 ++ 0b000#3 ++ 0b00001#5 ++ 0b1011011#7, .hdAcq 1 0b101 2),
      (0b0001#4 ++ 0b101#3 ++ 0b0000#4 ++ 0b1#1 ++ 0b00000000000001011011#20, .hdRel 0b101 true),
      (0b0010#4 ++ 0b101#3 ++ 0b00011#5 ++ 0b00010#5 ++ 0b000000001011011#15, .hdSeek 0b101 2 3),
      (0b0011#4 ++ 0b101#3 ++ 0b0000000000000#13 ++ 0b00001#5 ++ 0b1011011#7, .hdRds 1 0b101),
      (0b0100#4 ++ 0b101#3 ++ 0b00000#5 ++ 0b00010#5 ++ 0b000000001011011#15, .hdWrs 0b101 2),
      (0b0101#4 ++ 0b101#3 ++ 0b0000000000000000001011011#25, .hdRew 0b101),
      (0b0110#4 ++ 0b101#3 ++ 0b0000000000000#13 ++ 0b00001#5 ++ 0b1011011#7, .hdPos 1 0b101),
      (0b0111#4 ++ 0b101#3 ++ 0b0000#4 ++ 0b1#1 ++ 0b00000000#8 ++ 0b00001#5 ++ 0b1011011#7, .hdChk 1 0b101 true),
      (0b1000#4 ++ 0b101#3 ++ 0b00000#5 ++ 0b00010#5 ++ 0b000000001011011#15, .hdSave 0b101 2),
      (0b1001#4 ++ 0b101#3 ++ 0b00000#5 ++ 0b00010#5 ++ 0b000000001011011#15, .hdLoad 0b101 2)].all (fun p => decodesTo p.1 p.2) = true := by decide +kernel

theorem decodes_Engines1 : [
      (0b000000000000#12 ++ 0b00010#5 ++ 0b001#3 ++ 0b11011#5 ++ 0b1011011#7, .stBind 27 2),
      (0b00000010000000000001#20 ++ 0b11011#5 ++ 0b1011011#7, .stRel 27),
      (0b000001000000#12 ++ 0b11011#5 ++ 0b001#3 ++ 0b00001#5 ++ 0b1011011#7, .stPos 1 27),
      (0b0000011#7 ++ 0b00011#5 ++ 0b00010#5 ++ 0b001#3 ++ 0b00001#5 ++ 0b1011011#7, .cpGo 1 2 3),
      (0b0000100#7 ++ 0b00011#5 ++ 0b00010#5 ++ 0b001#3 ++ 0b00001#5 ++ 0b1011011#7, .gtGo 1 2 3),
      (0b000010100000#12 ++ 0b00010#5 ++ 0b001#3 ++ 0b00001#5 ++ 0b1011011#7, .cpWait 1 2),
      (0b000011000000#12 ++ 0b00010#5 ++ 0b001000001011011#15, .cpStop 2),
      (0b000011100000#12 ++ 0b00010#5 ++ 0b001#3 ++ 0b00001#5 ++ 0b1011011#7, .cpStat 1 2)].all (fun p => decodesTo p.1 p.2) = true := by decide +kernel

theorem decodes_Control1 : [
      (0b000000000#9 ++ 0b101#3 ++ 0b0#1 ++ 0b10#2 ++ 0b01#2 ++ 0b001000001111011#15, .fenceS .part 0b10 0b1),
      (0b00000010#8 ++ 0b1#1 ++ 0b101#3 ++ 0b00000001000001111011#20, .acq true .part),
      (0b000001000#9 ++ 0b101#3 ++ 0b00000001000001111011#20, .rel .part),
      (0b0000011#7 ++ 0b00011#5 ++ 0b00010#5 ++ 0b0010#4 ++ 0b1#1 ++ 0b101#3 ++ 0b1111011#7, .sigPub true .part 2 3),
      (0b000010000#9 ++ 0b101#3 ++ 0b00010#5 ++ 0b001#3 ++ 0b00001#5 ++ 0b1111011#7, .sigInv .part 1 2),
      (0b00001010#8 ++ 0b0101#4 ++ 0b00000001000001111011#20, .fenceEng 0b101)].all (fun p => decodesTo p.1 p.2) = true := by decide +kernel

theorem decodes_Control0 : [
      (0b0000#4 ++ 0b1#1 ++ 0b1#1 ++ 0b1#1 ++ 0b00011#5 ++ 0b00010#5 ++ 0b000#3 ++ 0b00001#5 ++ 0b1111011#7, .amoAdd true true true 1 2 3),
      (0b0001#4 ++ 0b1#1 ++ 0b1#1 ++ 0b1#1 ++ 0b00011#5 ++ 0b00010#5 ++ 0b000#3 ++ 0b00001#5 ++ 0b1111011#7, .amoSwap true true true 1 2 3),
      (0b0010#4 ++ 0b1#1 ++ 0b1#1 ++ 0b1#1 ++ 0b00011#5 ++ 0b00010#5 ++ 0b000#3 ++ 0b00001#5 ++ 0b1111011#7, .amoAnd true true true 1 2 3),
      (0b0011#4 ++ 0b1#1 ++ 0b1#1 ++ 0b1#1 ++ 0b00011#5 ++ 0b00010#5 ++ 0b000#3 ++ 0b00001#5 ++ 0b1111011#7, .amoOr true true true 1 2 3),
      (0b0100#4 ++ 0b1#1 ++ 0b1#1 ++ 0b1#1 ++ 0b00011#5 ++ 0b00010#5 ++ 0b000#3 ++ 0b00001#5 ++ 0b1111011#7, .amoXor true true true 1 2 3),
      (0b0101#4 ++ 0b1#1 ++ 0b1#1 ++ 0b1#1 ++ 0b00011#5 ++ 0b00010#5 ++ 0b000#3 ++ 0b00001#5 ++ 0b1111011#7, .amoMin true true true 1 2 3),
      (0b0110#4 ++ 0b1#1 ++ 0b1#1 ++ 0b1#1 ++ 0b00011#5 ++ 0b00010#5 ++ 0b000#3 ++ 0b00001#5 ++ 0b1111011#7, .amoMax true true true 1 2 3),
      (0b0111#4 ++ 0b1#1 ++ 0b1#1 ++ 0b1#1 ++ 0b00011#5 ++ 0b00010#5 ++ 0b000#3 ++ 0b00001#5 ++ 0b1111011#7, .amoMinn true true true 1 2 3),
      (0b1000#4 ++ 0b1#1 ++ 0b1#1 ++ 0b1#1 ++ 0b00011#5 ++ 0b00010#5 ++ 0b000#3 ++ 0b00001#5 ++ 0b1111011#7, .amoMaxn true true true 1 2 3),
      (0b1001#4 ++ 0b1#1 ++ 0b1#1 ++ 0b1#1 ++ 0b00011#5 ++ 0b00010#5 ++ 0b000#3 ++ 0b00001#5 ++ 0b1111011#7, .amoCas true true true 1 2 3),
      (0b1010#4 ++ 0b1#1 ++ 0b1#1 ++ 0b1#1 ++ 0b00000#5 ++ 0b00010#5 ++ 0b000#3 ++ 0b00001#5 ++ 0b1111011#7, .lr true true true 1 2),
      (0b1011#4 ++ 0b1#1 ++ 0b1#1 ++ 0b1#1 ++ 0b00011#5 ++ 0b00010#5 ++ 0b000#3 ++ 0b00001#5 ++ 0b1111011#7, .sc true true true 1 2 3)].all (fun p => decodesTo p.1 p.2) = true := by decide +kernel

theorem decodes_Control2 : [
      (0b0000000#7 ++ 0b00011#5 ++ 0b00010#5 ++ 0b010000001111011#15, .barCfg 2 3),
      (0b000000100000#12 ++ 0b00010#5 ++ 0b010#3 ++ 0b00001#5 ++ 0b1111011#7, .barArr 1 2),
      (0b0000010#7 ++ 0b00011#5 ++ 0b00010#5 ++ 0b010#3 ++ 0b00001#5 ++ 0b1111011#7, .barWait 1 2 3),
      (0b1000010#7 ++ 0b00011#5 ++ 0b00010#5 ++ 0b010#3 ++ 0b00001#5 ++ 0b1111011#7, .barWaitN 1 2 3),
      (0b00000110#8 ++ 0b0110#4 ++ 0b00000010#8 ++ 0b00001#5 ++ 0b1111011#7, .domSync 1 0b110),
      (0b0000100#7 ++ 0b00011#5 ++ 0b00010#5 ++ 0b010000001111011#15, .semPost 2 3),
      (0b0000101#7 ++ 0b00011#5 ++ 0b00010#5 ++ 0b010#3 ++ 0b00001#5 ++ 0b1111011#7, .semWait 1 2 3),
      (0b1000101#7 ++ 0b00011#5 ++ 0b00010#5 ++ 0b010#3 ++ 0b00001#5 ++ 0b1111011#7, .semWaitN 1 2 3)].all (fun p => decodesTo p.1 p.2) = true := by decide +kernel

theorem decodes_Control3 : [
      (0b000000000000#12 ++ 0b00010#5 ++ 0b011#3 ++ 0b00001#5 ++ 0b1111011#7, .mbxBind 1 2),
      (0b000000100000#12 ++ 0b00010#5 ++ 0b011#3 ++ 0b00001#5 ++ 0b1111011#7, .mbxRel 1 2),
      (0b00000100000000000011#20 ++ 0b00001#5 ++ 0b1111011#7, .mbxPeek 1),
      (0b000001100000#12 ++ 0b00010#5 ++ 0b011#3 ++ 0b00001#5 ++ 0b1111011#7, .mbxTake 1 2),
      (0b000010000000#12 ++ 0b00010#5 ++ 0b011000001111011#15, .mbxDone 2),
      (0b0000101#7 ++ 0b00011#5 ++ 0b00010#5 ++ 0b0110000#7 ++ 0b1#1 ++ 0b1111011#7, .msgSend true 2 3),
      (0b00001100000000000011000001111011#32, .msgAbort)].all (fun p => decodesTo p.1 p.2) = true := by decide +kernel

theorem decodes_Control4 : [
      (0b000000000000#12 ++ 0b00010#5 ++ 0b100#3 ++ 0b00001#5 ++ 0b1111011#7, .dealPost 1 2),
      (0b000000100000#12 ++ 0b00010#5 ++ 0b100#3 ++ 0b00001#5 ++ 0b1111011#7, .dealStat 1 2),
      (0b00000100000000000100000001111011#32, .handExit),
      (0b0000011#7 ++ 0b00011#5 ++ 0b00010#5 ++ 0b100#3 ++ 0b00001#5 ++ 0b1111011#7, .rngPush 1 2 3),
      (0b0000100#7 ++ 0b00011#5 ++ 0b00010#5 ++ 0b100#3 ++ 0b00001#5 ++ 0b1111011#7, .rngPop 1 2 3),
      (0b000010100000#12 ++ 0b00010#5 ++ 0b100#3 ++ 0b00001#5 ++ 0b1111011#7, .rngSkip 1 2)].all (fun p => decodesTo p.1 p.2) = true := by decide +kernel

theorem decodes_Vector0 : [
      (0b000000000000#12 ++ 0b00010#5 ++ 0b000#3 ++ 0b00001#5 ++ 0b0101011#7, .vclaim 1 2),
      (0b00000010000000000000000000101011#32, .vrel),
      (0b000001000000#12 ++ 0b00010#5 ++ 0b000#3 ++ 0b00001#5 ++ 0b0101011#7, .vlen 1 2),
      (0b0000011#7 ++ 0b00011#5 ++ 0b00010#5 ++ 0b000000#6 ++ 0b1#1 ++ 0b1#1 ++ 0b0101011#7, .vfence true true 2 3)].all (fun p => decodesTo p.1 p.2) = true := by decide +kernel

theorem decodes_Vector1 : [
      (0b00000#5 ++ 0b01#2 ++ 0b10011#5 ++ 0b10010#5 ++ 0b001#3 ++ 0b10001#5 ++ 0b0101011#7, .vfadd .f32 17 18 19),
      (0b00001#5 ++ 0b01#2 ++ 0b10011#5 ++ 0b10010#5 ++ 0b001#3 ++ 0b10001#5 ++ 0b0101011#7, .vfsub .f32 17 18 19),
      (0b00010#5 ++ 0b01#2 ++ 0b10011#5 ++ 0b10010#5 ++ 0b001#3 ++ 0b10001#5 ++ 0b0101011#7, .vfmul .f32 17 18 19),
      (0b00011#5 ++ 0b01#2 ++ 0b10011#5 ++ 0b10010#5 ++ 0b001#3 ++ 0b10001#5 ++ 0b0101011#7, .vfma .f32 17 18 19),
      (0b00100#5 ++ 0b01#2 ++ 0b10011#5 ++ 0b10010#5 ++ 0b001#3 ++ 0b10001#5 ++ 0b0101011#7, .vfms .f32 17 18 19),
      (0b00101#5 ++ 0b01#2 ++ 0b10011#5 ++ 0b10010#5 ++ 0b001#3 ++ 0b10001#5 ++ 0b0101011#7, .vfnms .f32 17 18 19),
      (0b00110#5 ++ 0b01#2 ++ 0b10011#5 ++ 0b10010#5 ++ 0b001#3 ++ 0b10001#5 ++ 0b0101011#7, .vfmin .f32 17 18 19),
      (0b00111#5 ++ 0b01#2 ++ 0b10011#5 ++ 0b10010#5 ++ 0b001#3 ++ 0b10001#5 ++ 0b0101011#7, .vfmax .f32 17 18 19),
      (0b01000#5 ++ 0b01#2 ++ 0b10011#5 ++ 0b10010#5 ++ 0b001#3 ++ 0b10001#5 ++ 0b0101011#7, .vfeq .f32 17 18 19),
      (0b01001#5 ++ 0b01#2 ++ 0b10011#5 ++ 0b10010#5 ++ 0b001#3 ++ 0b10001#5 ++ 0b0101011#7, .vflt .f32 17 18 19),
      (0b01010#5 ++ 0b01#2 ++ 0b10011#5 ++ 0b10010#5 ++ 0b001#3 ++ 0b10001#5 ++ 0b0101011#7, .vfle .f32 17 18 19),
      (0b01011#5 ++ 0b01#2 ++ 0b10011#5 ++ 0b10010#5 ++ 0b001#3 ++ 0b10001#5 ++ 0b0101011#7, .vfsel .f32 17 18 19)].all (fun p => decodesTo p.1 p.2) = true := by decide +kernel

theorem decodes_Vector2 : [
      (0b0000#4 ++ 0b10#2 ++ 0b1#1 ++ 0b10011#5 ++ 0b10010#5 ++ 0b010#3 ++ 0b10001#5 ++ 0b0101011#7, .vadd .b32 true 17 18 19),
      (0b0001#4 ++ 0b10#2 ++ 0b1#1 ++ 0b10011#5 ++ 0b10010#5 ++ 0b010#3 ++ 0b10001#5 ++ 0b0101011#7, .vsub .b32 true 17 18 19),
      (0b0010#4 ++ 0b10#2 ++ 0b1#1 ++ 0b10011#5 ++ 0b10010#5 ++ 0b010#3 ++ 0b10001#5 ++ 0b0101011#7, .vmul .b32 true 17 18 19),
      (0b0011#4 ++ 0b10#2 ++ 0b1#1 ++ 0b10011#5 ++ 0b10010#5 ++ 0b010#3 ++ 0b10001#5 ++ 0b0101011#7, .vadds .b32 true 17 18 19),
      (0b0100#4 ++ 0b10#2 ++ 0b1#1 ++ 0b10011#5 ++ 0b10010#5 ++ 0b010#3 ++ 0b10001#5 ++ 0b0101011#7, .vsubs .b32 true 17 18 19),
      (0b0101#4 ++ 0b10#2 ++ 0b1#1 ++ 0b10011#5 ++ 0b10010#5 ++ 0b010#3 ++ 0b10001#5 ++ 0b0101011#7, .vmin .b32 true 17 18 19),
      (0b0110#4 ++ 0b10#2 ++ 0b1#1 ++ 0b10011#5 ++ 0b10010#5 ++ 0b010#3 ++ 0b10001#5 ++ 0b0101011#7, .vmax .b32 true 17 18 19),
      (0b0111#4 ++ 0b10#2 ++ 0b1#1 ++ 0b10011#5 ++ 0b10010#5 ++ 0b010#3 ++ 0b10001#5 ++ 0b0101011#7, .vand .b32 true 17 18 19),
      (0b1000#4 ++ 0b10#2 ++ 0b1#1 ++ 0b10011#5 ++ 0b10010#5 ++ 0b010#3 ++ 0b10001#5 ++ 0b0101011#7, .vor .b32 true 17 18 19),
      (0b1001#4 ++ 0b10#2 ++ 0b1#1 ++ 0b10011#5 ++ 0b10010#5 ++ 0b010#3 ++ 0b10001#5 ++ 0b0101011#7, .vxor .b32 true 17 18 19),
      (0b1010#4 ++ 0b10#2 ++ 0b1#1 ++ 0b10011#5 ++ 0b10010#5 ++ 0b010#3 ++ 0b10001#5 ++ 0b0101011#7, .vsll .b32 true 17 18 19),
      (0b1011#4 ++ 0b10#2 ++ 0b1#1 ++ 0b10011#5 ++ 0b10010#5 ++ 0b010#3 ++ 0b10001#5 ++ 0b0101011#7, .vsr .b32 true 17 18 19),
      (0b1100#4 ++ 0b10#2 ++ 0b1#1 ++ 0b10011#5 ++ 0b10010#5 ++ 0b010#3 ++ 0b10001#5 ++ 0b0101011#7, .veq .b32 true 17 18 19),
      (0b1101#4 ++ 0b10#2 ++ 0b1#1 ++ 0b10011#5 ++ 0b10010#5 ++ 0b010#3 ++ 0b10001#5 ++ 0b0101011#7, .vlt .b32 true 17 18 19)].all (fun p => decodesTo p.1 p.2) = true := by decide +kernel

theorem decodes_Vector3 : [
      (0b000#3 ++ 0b0100#4 ++ 0b1#1 ++ 0b0001#4 ++ 0b10010#5 ++ 0b011#3 ++ 0b10001#5 ++ 0b0101011#7, .vcvt .n8 true .i16 17 18),
      (0b001100#6 ++ 0b1#1 ++ 0b00011#5 ++ 0b10010#5 ++ 0b011#3 ++ 0b10001#5 ++ 0b0101011#7, .vscale .f32 17 18 3),
      (0b010100#6 ++ 0b1#1 ++ 0b00011#5 ++ 0b10010#5 ++ 0b011#3 ++ 0b10001#5 ++ 0b0101011#7, .vscalea .f32 17 18 3),
      (0b01110#5 ++ 0b01#2 ++ 0b00000#5 ++ 0b10010#5 ++ 0b011#3 ++ 0b10001#5 ++ 0b0101011#7, .vexp2 .f32 17 18),
      (0b10010#5 ++ 0b01#2 ++ 0b00000#5 ++ 0b10010#5 ++ 0b011#3 ++ 0b10001#5 ++ 0b0101011#7, .vlog2 .f32 17 18),
      (0b10110#5 ++ 0b01#2 ++ 0b00000#5 ++ 0b10010#5 ++ 0b011#3 ++ 0b10001#5 ++ 0b0101011#7, .vrcp .f32 17 18),
      (0b11010#5 ++ 0b01#2 ++ 0b00000#5 ++ 0b10010#5 ++ 0b011#3 ++ 0b10001#5 ++ 0b0101011#7, .vrsqrt .f32 17 18)].all (fun p => decodesTo p.1 p.2) = true := by decide +kernel

theorem decodes_Vector4 : [
      (0b000#3 ++ 0b0000#4 ++ 0b00000#5 ++ 0b10010#5 ++ 0b100#3 ++ 0b10001#5 ++ 0b0101011#7, .vredsum .i8 17 18),
      (0b001#3 ++ 0b0000#4 ++ 0b00000#5 ++ 0b10010#5 ++ 0b100#3 ++ 0b10001#5 ++ 0b0101011#7, .vredmax .i8 17 18),
      (0b010#3 ++ 0b0000#4 ++ 0b00000#5 ++ 0b10010#5 ++ 0b100#3 ++ 0b10001#5 ++ 0b0101011#7, .vredmin .i8 17 18),
      (0b011#3 ++ 0b0000#4 ++ 0b10011#5 ++ 0b10010#5 ++ 0b100#3 ++ 0b10001#5 ++ 0b0101011#7, .vdot .i8 17 18 19),
      (0b10010#5 ++ 0b01#2 ++ 0b10011#5 ++ 0b10010#5 ++ 0b100#3 ++ 0b01000#5 ++ 0b0101011#7, .vopa .f32 8 18 19)].all (fun p => decodesTo p.1 p.2) = true := by decide +kernel

theorem decodes_Vector5 : [
      (0b000#3 ++ 0b10#2 ++ 0b0000000#7 ++ 0b00010#5 ++ 0b101#3 ++ 0b10001#5 ++ 0b0101011#7, .vld .b32 17 2),
      (0b001#3 ++ 0b10#2 ++ 0b00#2 ++ 0b00011#5 ++ 0b00010#5 ++ 0b101#3 ++ 0b10001#5 ++ 0b0101011#7, .vlds .b32 17 2 3),
      (0b010#3 ++ 0b10#2 ++ 0b00#2 ++ 0b10011#5 ++ 0b00010#5 ++ 0b101#3 ++ 0b10001#5 ++ 0b0101011#7, .vldx .b32 17 2 19),
      (0b011#3 ++ 0b10#2 ++ 0b0000000#7 ++ 0b00010#5 ++ 0b101#3 ++ 0b10100#5 ++ 0b0101011#7, .vst .b32 20 2),
      (0b100#3 ++ 0b10#2 ++ 0b00#2 ++ 0b00011#5 ++ 0b00010#5 ++ 0b101#3 ++ 0b10100#5 ++ 0b0101011#7, .vsts .b32 20 2 3)].all (fun p => decodesTo p.1 p.2) = true := by decide +kernel

theorem decodes_Vector6 : [
      (0b0000#4 ++ 0b10#2 ++ 0b1#1 ++ 0b00000#5 ++ 0b00010#5 ++ 0b110#3 ++ 0b10001#5 ++ 0b0101011#7, .vbcast .b32 true 17 2),
      (0b0001#4 ++ 0b10#2 ++ 0b1#1 ++ 0b10011#5 ++ 0b10010#5 ++ 0b110#3 ++ 0b10001#5 ++ 0b0101011#7, .vperm .b32 true 17 18 19),
      (0b0010#4 ++ 0b10#2 ++ 0b1#1 ++ 0b00000#5 ++ 0b10010#5 ++ 0b110#3 ++ 0b10001#5 ++ 0b0101011#7, .vmv .b32 true 17 18),
      (0b0011#4 ++ 0b10#2 ++ 0b1#1 ++ 0b00011#5 ++ 0b10010#5 ++ 0b110#3 ++ 0b00001#5 ++ 0b0101011#7, .vmvx .b32 true 1 18 3),
      (0b0100#4 ++ 0b10#2 ++ 0b1#1 ++ 0b00011#5 ++ 0b00010#5 ++ 0b110#3 ++ 0b10001#5 ++ 0b0101011#7, .vins .b32 true 17 2 3),
      (0b0101#4 ++ 0b10#2 ++ 0b1#1 ++ 0b00000#5 ++ 0b10010#5 ++ 0b110#3 ++ 0b00001#5 ++ 0b0101011#7, .vmpop .b32 true 1 18),
      (0b0110#4 ++ 0b10#2 ++ 0b1#1 ++ 0b00000#5 ++ 0b10010#5 ++ 0b110#3 ++ 0b00001#5 ++ 0b0101011#7, .vmfirst .b32 true 1 18)].all (fun p => decodesTo p.1 p.2) = true := by decide +kernel

theorem decodes_Engines2 : [
      (0b000000000000#12 ++ 0b00010#5 ++ 0b010000001011011#15, .mxCfg 2),
      (0b0000001#7 ++ 0b00011#5 ++ 0b00010#5 ++ 0b010000001011011#15, .mxLda 2 3),
      (0b000001000000#12 ++ 0b00010#5 ++ 0b010000001011011#15, .mxLdb 2),
      (0b000001100000#12 ++ 0b00010#5 ++ 0b010000001011011#15, .mxGo 2),
      (0b0000100#7 ++ 0b10001#5 ++ 0b00000010#8 ++ 0b00001#5 ++ 0b1011011#7, .mxPop 17 1),
      (0b00001010000000000010000001011011#32, .mxDrop),
      (0b00001100000000000010000001011011#32, .mxAbort)].all (fun p => decodesTo p.1 p.2) = true := by decide +kernel

theorem decodes_Engines3 : [
      (0b0000000#7 ++ 0b00011#5 ++ 0b00010#5 ++ 0b011#3 ++ 0b00001#5 ++ 0b1011011#7, .wdEnter 1 2 3),
      (0b00000010000000000011000001011011#32, .wdExit),
      (0b000001000000#12 ++ 0b00010#5 ++ 0b011#3 ++ 0b00001#5 ++ 0b1011011#7, .wdResume 1 2),
      (0b00000110000000000011#20 ++ 0b00001#5 ++ 0b1011011#7, .wdWait 1)].all (fun p => decodesTo p.1 p.2) = true := by decide +kernel

theorem decodes_Engines4 : [
      (0b000000000000#12 ++ 0b00010#5 ++ 0b100#3 ++ 0b00001#5 ++ 0b1011011#7, .txReq 1 2),
      (0b00000010000000000100#20 ++ 0b00001#5 ++ 0b1011011#7, .txRes 1),
      (0b00000100000000000100#20 ++ 0b00001#5 ++ 0b1011011#7, .txStat 1)].all (fun p => decodesTo p.1 p.2) = true := by decide +kernel

/-! ## Refused terms and words (the checks of WellFormed) -/

theorem test_refuses_empty_wcwait : (Instr.wcwait 0).wf = false := rfl
theorem test_refuses_empty_wcread : (Instr.wcread 1 0).wf = false := rfl
theorem test_refuses_empty_pfxOrd : (Instr.pfxOrd 0).wf = false := rfl
theorem test_refuses_empty_predecessors : (Instr.fenceS .oct 0 1).wf = false := rfl
theorem test_refuses_empty_successors : (Instr.fenceS .oct 1 0).wf = false := rfl
theorem test_refuses_empty_engine_mask : (Instr.fenceEng 0).wf = false := rfl
theorem test_refuses_full_acquire_of_a_core : (Instr.acq true .core).wf = false ∧ (Instr.acq true .thr).wf = false := ⟨rfl, rfl⟩
theorem test_refuses_domain_level_nine : (Instr.domSync 1 9).wf = false := by decide
theorem test_refuses_vfence_operands : (Instr.vfence false false 2 3).wf = false := by decide
theorem test_refuses_vscale_of_halves : (Instr.vscale .f16 1 2 3).wf = false ∧ (Instr.vscalea .f16 1 2 3).wf = false := ⟨rfl, rfl⟩
theorem test_refuses_vdot_of_words : (Instr.vdot .i32 1 2 3).wf = false := rfl
/-- The words of the terms above are no instructions: wcwait 000 (R118), pfx.ord 00 (R30). -/
theorem test_reserved_words : [0, 0x0200607B, 0xFFFFFFFF].all (fun w => !(decode w).toBool) = true := by decide +kernel

/-! ## Worked examples of the spec -/

/-- A register of thread 0 of core 0 after a step. -/
def regAfter (o : Host.Outcome State Fault Refusal) (r : Nat) : Option Word :=
  match o with | .next t => some ((t.thr 0).regs.get 0 r) | _ => none

/-- Chapter 1, worked example: auipc, ld, pfx.imm and addi, pfx.ord, jal and add as words. -/
theorem test_chapter_1_words : [(0x00000297, Instr.auipc 5 0), (0x0202B303, .ld 6 5 0x20), (0x48D17B7B, .pfxImm 0x123456),
      (0x78800393, .addi 7 0 0x788), (0x020061FB, .pfxOrd 3), (0x0100006F, .jal 0 8), (0x007304B3, .add 9 6 7)].all
    (fun p => decodesTo p.1 p.2) = true := by decide +kernel
/-- Chapter 1: a pfx.imm unit, its prefix issued, builds 0x1_2345_6788 (R29). -/
theorem test_prefixed_immediate :
    regAfter (step ((State.reset.withFetchWord 64 0x7880039348D17B7B).modThr 0 fun th => { th with paid := 1 })) 7 = some 0x123456788 := by
  decide +kernel
/-- Chapter 1: x9 is the sum of x6 and x7. -/
theorem test_add : regAfter (exec (.add 9 6 7) (unitAt [(6, 0x0123456789ABCDEF), (7, 0x123456788)])) 9 = some 0x01234568ACF13577 := by
  decide +kernel

/-- The registers of the worked example of chapter 2. -/
def ends : State := unitAt [(5, -1), (6, 0x53E), (7, 0x404), (8, 3), (11, 0xC000000000000123), (16, 0x8000000000000000)]
/-- Chapter 2, worked example: fields past bit 63 (R58, R59). -/
theorem test_bfx_past_the_top : regAfter (exec (.bfx 8 5 6) ends) 8 = some 3 := by decide +kernel
theorem test_bfxs_past_the_top : regAfter (exec (.bfxs 9 5 6) ends) 9 = some 3 := by decide +kernel
theorem test_bfxs_sign : regAfter (exec (.bfxs 10 5 7) ends) 10 = some (-1) := by decide +kernel
theorem test_bfi_past_the_top : regAfter (exec (.bfi 11 5 6) (ends.modThr 0 fun th => { th with regs := th.regs.set 11 0x123 })) 11
    = some 0xC000000000000123 := by decide +kernel
theorem test_cpop : regAfter (exec (.cpop 12 11) ends) 12 = some 6 := by decide +kernel
theorem test_clz : regAfter (exec (.clz 13 8) ends) 13 = some 62 := by decide +kernel
/-- Chapter 2, worked example: the undivisible cases (R50, Table 2.10). -/
theorem test_div_by_zero : regAfter (exec (.div 14 5 0) ends) 14 = some (-1) := by decide +kernel
theorem test_remu_by_zero : regAfter (exec (.remu 15 11 0) ends) 15 = some 0xC000000000000123 := by decide +kernel
theorem test_div_overflow : regAfter (exec (.div 17 16 5) ends) 17 = some 0x8000000000000000 := by decide +kernel
theorem test_rem_overflow : regAfter (exec (.rem 18 16 5) ends) 18 = some 0 := by decide +kernel

/-- Chapter 3, worked example: trap 5 with XDELEG.SWT set records XCAUSE 0x508, XVAL, XPC and XINST and enters XTVEC. -/
theorem test_trap_delegated :
    (match exec (.trap 5 7) ((unitAt [(7, 0x2A)]).modThr 0 fun th => { th with pc := 0x118, xtvec := 0x124, xdeleg := 0x100 }) with
      | .next t => let u := t.thr 0; decide (u.xcause = 0x508 ∧ u.xval = 0x2A ∧ u.xpc = 0x118 ∧ u.inTrap = true ∧ u.pc = 0x124)
      | _ => false) = true := by decide +kernel

/-- The binary32 bits of the sixteen elements of the example of chapter 12: 6.0, 1.0, 1.25, −0.5, 3.75, 0.0, 0.375, 0.125, 5.25,
−5.75, 0.0, 0.0, −0.0, 2.0, 7.75, 1.0. -/
def sixteen : List Nat := [0x40C00000, 0x3F800000, 0x3FA00000, 0xBF000000, 0x40700000, 0, 0x3EC00000, 0x3E000000, 0x40A80000,
  0xC0B80000, 0, 0, 0x80000000, 0x40000000, 0x40F80000, 0x3F800000]
/-- Chapter 12, Table 12.9: the SX4 block of twelve bytes, with NX and SAT (R238, R239). -/
theorem test_sx_block :
    (let x := fp32ToSxWork { ctl := 0x0100000000000010 } (sixteen.flatMap (bytesOf 4)) []
     decide (x.bytes = [0x81, 0x04, 0x4C, 0x88, 0xF8, 0x80, 0x00, 0x8A, 0x03, 0x00, 0xC8, 0x13] ∧ x.flags = flagNX ||| flagSAT))
      = true := by decide +kernel
/-- Chapter 12, Table 12.10: the aligned integers of elements 0 to 4 at Δ = 4, where element 4 loses a bit (R242). -/
theorem test_alignment :
    (let b := sxUnpack 1 (bytesVal [0x81, 0x04, 0x4C, 0x88, 0xF8, 0x80, 0x00, 0x8A, 0x03, 0x00, 0xC8, 0x13])
     let w := alignWindow (b :: List.replicate 7 (sxUnpack 1 133))
     decide (w.1 = 133 ∧ w.2.1.take 5 = [12, 2, 2, -1, 7] ∧ w.2.2 = true)) = true := by decide +kernel

/-- Chapter 13, Table 13.13: a lane of vdot takes the exact total (R265). -/
theorem test_vdot_exact_total :
    dotLane { vregs := (((({} : Claim).setElem 1 0 4 2147483600).setElem 2 0 4 0x807F).setElem 3 0 4 0x7F7F).vregs } .i8 1 2 3 0
      = (0x7FFFFF51, 0) := by decide +kernel
theorem test_vdot_saturates :
    dotLane { vregs := (((({} : Claim).setElem 1 0 4 2147483600).setElem 2 0 4 0x7F7F).setElem 3 0 4 0x7F7F).vregs } .i8 1 2 3 0
      = (0x7FFFFFFF, flagSAT) := by decide +kernel

/-- Chapter 14, worked example: each of the sixteen elements of the block is 128 (R242). -/
theorem test_weight_block :
    ((alignWindow (sxUnpack 1 (bytesVal (bytesOf 8 0x084210842108007F ++ bytesOf 4 0x42108421)) :: List.replicate 7 (sxUnpack 1 0))).2.1.take 16)
      = List.replicate 16 128 := by decide +kernel

/-- Chapter 16, Table 16.8: the four records of 2.0, 5.0, −1.0, 5.0, NaN, 3.0, 5.0, 0.0 (R311, R313). -/
theorem test_top_k :
    (let x := topKWork { ctl := 0x2000000000000008, k := 4 }
       ([0x40000000, 0x40A00000, 0xBF800000, 0x40A00000, 0x7FC00000, 0x40400000, 0x40A00000, 0].flatMap (bytesOf 4)) []
     decide (x.bytes = [0x40A0000000000001, 0x40A0000000000003, 0x40A0000000000006, 0x4040000000000005].flatMap (bytesOf 8)
       ∧ x.result = 4 ∧ x.flags = 0)) = true := by decide +kernel

/-- Chapter 19, Table 19.3: the refill of tick 2 at seat 1, which repays 32, and that of tick 3 at seat 2 (R345). -/
theorem test_refill :
    (let a := Bucket.refill { rate := 64, depth := 64, tok := 0, debt := 32, demand := true } 0
     let b := Bucket.refill { rate := 32, depth := 32, tok := 0, debt := 32, demand := true } 0
     decide (a.1.tok = 32 ∧ a.1.debt = 0 ∧ a.2 = 32 ∧ b.1.tok = 16 ∧ b.1.debt = 16 ∧ b.2 = 16)) = true := by decide +kernel

/-! ## The hypotheses of the statements can be met -/

/-- The hypotheses of DecodeOfEncode can be met. -/
theorem meets_DecodeOfEncode :
    ∃ i : Instr, i.isEvent = false ∧ i.wf = true := 
  ⟨.vopa .bf16 31 30 29, by decide +kernel⟩

/-- The hypotheses of EncodeOfDecode can be met. -/
theorem meets_EncodeOfDecode :
    ∃ (w : IWord) (i : Instr), decode w = .ok i := 
  ⟨0x00208133, .add 2 1 2, rfl⟩

/-- The hypotheses of RegisterRegister can be met. -/
theorem meets_RegisterRegister :
    ∃ (rd rs1 rs2 : Reg) (s s1 s2 s3 : State) (a b : Word),
      Ready (.sll rd rs1 rs2) s ∧ Gives (readX rs1) s a s1 ∧ Gives (readX rs2) s1 b s2 ∧
      Gives (writeX rd (BitVec.ofNat 64 (a.toNat * 2 ^ (b.toNat % 64)))) s2 () s3 := 
  ⟨1, 2, 3, (unitAt [(2, 9), (3, 64)]), _, _, _, _, _, ready (by decide +kernel), gives (by decide +kernel), gives
    (by decide +kernel), givesVal (by decide +kernel)⟩

/-- The hypotheses of MultiplyDivide can be met. -/
theorem meets_MultiplyDivide :
    ∃ (rd rs1 rs2 : Reg) (s s1 s2 s3 : State) (a b : Word),
      Ready (.divu rd rs1 rs2) s ∧ Gives (readX rs1) s a s1 ∧ Gives (readX rs2) s1 b s2 ∧
      Gives (writeX rd (if b.toNat = 0 then BitVec.allOnes 64 else BitVec.ofNat 64 (a.toNat / b.toNat))) s2 () s3 := 
  ⟨1, 2, 3, (unitAt [(2, 9), (3, 0)]), _, _, _, _, _, ready (by decide +kernel), gives (by decide +kernel), gives
    (by decide +kernel), givesVal (by decide +kernel)⟩

/-- The hypotheses of RegisterRegister32 can be met. -/
theorem meets_RegisterRegister32 :
    ∃ (rd rs1 rs2 : Reg) (s s1 s2 s3 : State) (a b : Word),
      Ready (.addw rd rs1 rs2) s ∧ Gives (readX rs1) s a s1 ∧ Gives (readX rs2) s1 b s2 ∧
      Gives (writeX rd (sext32 (a.toNat + b.toNat))) s2 () s3 := 
  ⟨1, 2, 3, (unitAt [(2, 0x7FFFFFFF), (3, 1)]), _, _, _, _, _, ready (by decide +kernel), gives (by decide +kernel), gives
    (by decide +kernel), givesVal (by decide +kernel)⟩

/-- The hypotheses of Immediates can be met. -/
theorem meets_Immediates :
    (∃ (rd rs1 : Reg) (imm : BitVec 12) (s s1 s2 : State) (a : Word),
      Ready (.addi rd rs1 imm) s ∧ Gives (readX rs1) s a s1 ∧ Gives (writeX rd (BitVec.ofInt 64 (a.toNat + imm.toInt))) s1 () s2) ∧
    (∃ (rd : _) (imm : _) (s : State) (s1 : State),
      Ready (.lui rd imm) s ∧
      Gives (writeX rd (BitVec.ofInt 64 (imm.toInt * 2 ^ 12))) s () s1) ∧
    (∃ (rd : _) (imm : _) (s : State) (s1 : State),
      Ready (.auipc rd imm) s ∧
      Gives (writeX rd (BitVec.ofInt 64 ((s.thr s.cur).pc.toNat + imm.toInt * 2 ^ 12))) s () s1) :=
  ⟨⟨1, 2, 0x800, (unitAt [(2, 9), (3, 0)]), _, _, _, ready (by decide +kernel), gives (by decide +kernel), givesVal
      (by decide +kernel)⟩,
    ⟨1, 0x80000, (unitAt []), _, ready (by decide +kernel), givesVal (by decide +kernel)⟩,
    ⟨1, 0xFFFFF, (unitAt []), _, ready (by decide +kernel), givesVal (by decide +kernel)⟩⟩

/-- The hypotheses of BitFields can be met. -/
theorem meets_BitFields :
    (∃ (rd rs1 rs2 : Reg) (s s1 s2 s3 : State) (a b : Word),
      Ready (.bfx rd rs1 rs2) s ∧ Gives (readX rs1) s a s1 ∧ Gives (readX rs2) s1 b s2 ∧
      Gives (writeX rd (BitVec.ofNat 64 (a.toNat / 2 ^ (b.toNat % 256) % 2 ^ (b.toNat / 256 % 256)))) s2 () s3) ∧
    (∃ (rd rs1 : Reg) (s s1 s2 : State) (a : Word),
      Ready (.clz rd rs1) s ∧ Gives (readX rs1) s a s1 ∧ Gives (writeX rd (BitVec.ofNat 64 (((List.range 64).reverse.takeWhile fun j => !a.getLsbD j).length))) s1 () s2) ∧
    (∃ (rd : _) (rs1 : _) (rs2 : _) (s : State) (s1 : State) (s2 : State) (s3 : State) (s4 : State) (v : _) (c : _) (d : _) (r : _),
      Ready (.bfi rd rs1 rs2) s ∧
      Gives (readX rs1) s v s1 ∧
      Gives (readX rs2) s1 c s2 ∧
      Gives (readX rd) s2 d s3 ∧
      (∀ j, j < 64 → r.getLsbD j = if c.toNat % 256 ≤ j ∧ j < c.toNat % 256 + c.toNat / 256 % 256 then v.getLsbD (j - c.toNat %
        256) else d.getLsbD j) ∧
      Gives (writeX rd r) s3 () s4) ∧
    (∃ (rd : _) (rs1 : _) (s : State) (s1 : State) (s2 : State) (a : _) (r : _),
      Ready (.rev8 rd rs1) s ∧
      Gives (readX rs1) s a s1 ∧
      (∀ i j, i < 8 → j < 8 → r.getLsbD (8 * i + j) = a.getLsbD (8 * (7 - i) + j)) ∧
      Gives (writeX rd r) s1 () s2) :=
  ⟨⟨1, 2, 3, (unitAt [(2, 9), (3, 0x4000)]), _, _, _, _, _, ready (by decide +kernel), gives (by decide +kernel), gives
      (by decide +kernel), givesVal (by decide +kernel)⟩,
    ⟨1, 2, (unitAt [(2, 0), (3, 0)]), _, _, _, ready (by decide +kernel), gives (by decide +kernel), givesVal
      (by decide +kernel)⟩,
    ⟨1, 2, 3, (unitAt [(1, 0xFFFF), (2, 5), (3, 0x404)]), _, _, _, _, _, _, _, 0xFF5F, ready (by decide +kernel), gives
      (by decide +kernel), gives (by decide +kernel), gives (by decide +kernel), by decide +kernel, givesVal
      (by decide +kernel)⟩,
    ⟨1, 2, (unitAt [(2, 0x0102030405060708)]), _, _, 0x0102030405060708, 0x0807060504030201, ready (by decide +kernel), givesVal
      (by decide +kernel), fun i j hi hj => (by decide +kernel : ∀ i, i < 8 → ∀ j, j < 8 → (0x0807060504030201 : Word).getLsbD
      (8 * i + j) = (0x0102030405060708 : Word).getLsbD (8 * (7 - i) + j)) i hi j hj, givesVal (by decide +kernel)⟩⟩

/-- The hypotheses of Loads can be met. -/
theorem meets_Loads :
    (∃ (rd rs1 : Reg) (imm : BitVec 12) (s s1 s2 s3 : State) (a : Word) (v : Nat),
      Ready (.lh rd rs1 imm) s ∧ Gives (readX rs1) s a s1 ∧
      Gives (memRead (a + imm.signExtend 64) 2 s1.plainAtt) s1 v s2 ∧ Gives (writeX rd (BitVec.ofInt 64 (BitVec.ofNat 16 v).toInt)) s2 () s3) ∧
    (∃ (s : State) (va : Word) (n : Nat),
      n ∈ [1, 2, 4, 8] ∧
      coreOf s.cur < 2048 ∧
      va.toNat % n = 0 ∧
      let c := coreOf s.cur
      let a := (rewriteOwn c va).toNat
      s.heldBy (clusterOf c) a n = none ∧
      (s.core c).rstores = [] ∧
      (∃ off, placeOf c a = .bank c off ∧ off < 0x60000 ∧ s.bankOwned ((s.thr s.cur).seat.getD 0) c off = true ∧ s.poisoned
        (bankAddr c off) = false)) ∧
    (∃ (s : State) (va : Word) (n : Nat) (k : Nat) (off : Nat) (s1 : State),
      n ∈ [1, 2, 4, 8] ∧
      coreOf s.cur < 2048 ∧
      va.toNat % n = 0 ∧
      let c := coreOf s.cur
      let a := (rewriteOwn c va).toNat
      s.heldBy (clusterOf c) a n = none ∧
      (s.core c).rstores = [] ∧
      placeOf c a = .cm k off ∧
      Gives (cmCheck (s.agent s.cur) k off n needR) s (.ok true) s1 ∧
      s1.arbs = {} ∧
      (s1.core c).rstores = [] ∧
      (s1.cluster k).cmQueue = [] ∧
      ((s1.cluster k).cmBlocks.find? fun y => y.1 == off / 512) ≠ none ∧
      s1.poisoned (cmAddr k off) = false) ∧
    (∃ (s : State) (va : Word) (n : Nat) (b : Block) (e : PlbEntry),
      n ∈ [1, 2, 4, 8] ∧
      coreOf s.cur < 2048 ∧
      va.toNat % n = 0 ∧
      let c := coreOf s.cur
      let a := (rewriteOwn c va).toNat
      s.heldBy (clusterOf c) a n = none ∧
      (s.core c).rstores = [] ∧
      placeOf c a = .page ∧
      ((s.core c).set (setOf a)).blocks.find? (fun x => x.holds a) = some b ∧
      b.poisoned = false ∧
      b.dom ≠ 0 ∧
      (s.core c).stale = false ∧
      (s.core c).plb.find? (fun x => x.seat == (s.thr s.cur).seat.getD 0 && x.dom == b.dom) = some e ∧
      e.nib &&& 1 = 1) ∧
    (∃ (s : State) (va : Word) (n : Nat) (x : Xlated) (s1 : State),
      n ∈ [1, 2, 4, 8] ∧
      coreOf s.cur < 2048 ∧
      va.toNat % n = 0 ∧
      let c := coreOf s.cur
      let a := (rewriteOwn c va).toNat
      s.heldBy (clusterOf c) a n = none ∧
      (s.core c).rstores = [] ∧
      placeOf c a = .page ∧
      ((s.core c).set (setOf a)).blocks.find? (fun x => x.holds a) = none ∧
      ((s.core c).set (setOf a)).victims.find? (fun v => v.blk.holds a) = none ∧
      Gives (translate (s.agent s.cur) a needR) s (.ok x) s1 ∧
      x.pa < 192 * 2 ^ 30 ∧
      s1.arbs = {} ∧
      (s1.core c).rstores = [] ∧
      s1.poisoned x.pa = false) :=
  ⟨⟨1, 2, 0x7FE, (unitAt [(2, own), (3, 0)]), _, _, _, _, _, ready (by decide +kernel), gives (by decide +kernel), gives
      (by decide +kernel), givesVal (by decide +kernel)⟩,
    ⟨(unitAt []), 0x00F000000005FFF8, 8, by decide +kernel, by decide +kernel, by decide +kernel, of_decide_eq_true
      (by decide +kernel), by decide +kernel, ⟨0x5FFF8, by decide +kernel⟩⟩,
    ⟨({ ((((unitAt []).modCluster 0 fun c => { c with xlat := [{ page := 0x00F2000000000000, size := 0x40000000, dom := 1 }] }).modCore 0 fun c => { c with plb := [{ seat := 16, dom := 1, nib := 15 }] }).modCluster 0 fun c => { c with cmBlocks := [(0, false)] }) with arbs := {} }),
      0x00F2000000000000, 8, 0, 0, _, by decide +kernel, by decide +kernel, by decide +kernel, of_decide_eq_true
      (by decide +kernel), by decide +kernel, by decide +kernel, givesOkVal (by decide +kernel), by decide +kernel⟩,
    ⟨({ ((unitAt []).modCore 0 fun c => { c with l1 := ⟨[(8, { blocks := [{ va := 0x200, words := 8, dom := 1 }] })]⟩, plb := [{ seat := 16, dom := 1, nib := 1 }] }) with arbs := {} }),
      0x23F, 1, { va := 0x200, words := 8, dom := 1 }, { seat := 16, dom := 1, nib := 1 }, by decide +kernel⟩,
    ⟨({ (((State.reset.withFetchWord 32 0x13).modThr 0 fun th => { th with regs := ⟨[(2, 0x200)]⟩ })) with arbs := {} }), 0x200,
      8, { pa := 512, dom := 1, borrowed := false, size := 0x40000000 }, _, by decide +kernel, by decide +kernel,
      by decide +kernel, of_decide_eq_true (by decide +kernel), by decide +kernel, by decide +kernel, by decide +kernel,
      of_decide_eq_true (by decide +kernel), givesOkVal (by decide +kernel), by decide +kernel⟩⟩

/-- The hypotheses of Stores can be met. -/
theorem meets_Stores :
    ∃ (rs2 rs1 : Reg) (imm : BitVec 12) (s s1 s2 s3 : State) (a v : Word),
      Ready (.sd rs2 rs1 imm) s ∧ Gives (readX rs1) s a s1 ∧ Gives (readX rs2) s1 v s2 ∧
      Gives (memWrite (a + imm.signExtend 64) 8 v.toNat s2.plainAtt) s2 () s3 := 
  ⟨3, 2, 0x7F8, (unitAt [(2, own), (3, 5)]), _, _, _, _, _, ready (by decide +kernel), gives (by decide +kernel), gives
    (by decide +kernel), givesVal (by decide +kernel)⟩

/-- The hypotheses of BranchForms can be met. -/
theorem meets_BranchForms :
    (∃ (rs1 rs2 : Reg) (off : BitVec 12) (s s1 s2 : State) (a b : Word),
      Ready (.beq rs1 rs2 off) s ∧ (s.thr s.cur).fq = [] ∧ Gives (readX rs1) s a s1 ∧ Gives (readX rs2) s1 b s2 ∧
      a.toNat ≠ b.toNat) ∧
    (∃ (rs1 rs2 : Reg) (off : BitVec 12) (s s1 s2 : State) (a b : Word),
      Ready (.beq rs1 rs2 off) s ∧ (s.thr s.cur).fq = [] ∧ Gives (readX rs1) s a s1 ∧ Gives (readX rs2) s1 b s2 ∧
      a.toNat = b.toNat ∧ ((s.thr s.cur).pc + (off ++ (0 : BitVec 1)).signExtend 64).getLsbD 1 = false) ∧
    (∃ (rs1 rs2 : Reg) (off : BitVec 12) (s s1 s2 : State) (a b : Word),
      Ready (.beq rs1 rs2 off) s ∧ (s.thr s.cur).fq = [] ∧ Gives (readX rs1) s a s1 ∧ Gives (readX rs2) s1 b s2 ∧
      a.toNat = b.toNat ∧ ((s.thr s.cur).pc + (off ++ (0 : BitVec 1)).signExtend 64).getLsbD 1 = true) :=
  ⟨⟨2, 3, 2, (unitAt [(2, 1), (3, 2)]), _, _, _, _, ready (by decide +kernel), by decide +kernel, gives (by decide +kernel),
      gives (by decide +kernel), by decide +kernel⟩,
    ⟨2, 3, 2, (unitAt [(2, 1), (3, 1)]), _, _, _, _, ready (by decide +kernel), by decide +kernel, gives (by decide +kernel),
      gives (by decide +kernel), by decide +kernel⟩,
    ⟨2, 3, 1, (unitAt [(2, 1), (3, 1)]), _, _, _, _, ready (by decide +kernel), by decide +kernel, gives (by decide +kernel),
      gives (by decide +kernel), by decide +kernel⟩⟩

/-- The hypotheses of Jumps can be met. -/
theorem meets_Jumps :
    (∃ (rd : _) (off : _) (s : State) (s1 : State),
      Ready (.jal rd off) s ∧
      (s.thr s.cur).fq = [] ∧
      let target := (s.thr s.cur).pc + (off ++ (0 : BitVec 1)).signExtend 64
      target.getLsbD 1 = false ∧
      Gives (writeX rd ((s.thr s.cur).pc + 4)) s () s1) ∧
    (∃ (rd : _) (off : _) (s : State),
      Ready (.jal rd off) s ∧
      (s.thr s.cur).fq = [] ∧
      let target := (s.thr s.cur).pc + (off ++ (0 : BitVec 1)).signExtend 64
      target.getLsbD 1 = true) ∧
    (∃ (rd : _) (rs1 : _) (imm : _) (s : State) (s1 : State) (s2 : State) (a : _),
      Ready (.jalr rd rs1 imm) s ∧
      (s.thr s.cur).fq = [] ∧
      Gives (readX rs1) s a s1 ∧
      let sum := a.toNat + (imm.signExtend 64).toNat
      let target := BitVec.ofNat 64 (sum - sum % 2)
      target.getLsbD 1 = false ∧
      Gives (writeX rd ((s.thr s.cur).pc + 4)) s1 () s2) ∧
    (∃ (rd : _) (rs1 : _) (imm : _) (s : State) (s1 : State) (a : _),
      Ready (.jalr rd rs1 imm) s ∧
      (s.thr s.cur).fq = [] ∧
      Gives (readX rs1) s a s1 ∧
      let sum := a.toNat + (imm.signExtend 64).toNat
      let target := BitVec.ofNat 64 (sum - sum % 2)
      target.getLsbD 1 = true) :=
  ⟨⟨1, 2, (unitAt []), _, ready (by decide +kernel), by decide +kernel, by decide +kernel, givesVal (by decide +kernel)⟩,
    ⟨1, 1, (unitAt []), ready (by decide +kernel), by decide +kernel⟩,
    ⟨1, 2, 0xFFF, (unitAt [(2, 9)]), _, _, _, ready (by decide +kernel), by decide +kernel, gives (by decide +kernel),
      by decide +kernel, givesVal (by decide +kernel)⟩,
    ⟨1, 2, 2, (unitAt [(2, 9)]), _, _, ready (by decide +kernel), by decide +kernel, gives (by decide +kernel),
      by decide +kernel⟩⟩

/-- The hypotheses of ControlRegisters can be met. -/
theorem meets_ControlRegisters :
    (∃ (rd : _) (csr : _) (rs1 : _) (s : State) (s1 : State) (v : _),
      Ready (.csrrw rd csr rs1) s ∧
      Gives (readX rs1) s v s1) ∧
    (∃ (rd : _) (csr : _) (rs1 : _) (s : State) (s1 : State) (v : _),
      Ready (.csrrs rd csr rs1) s ∧
      Gives (readX rs1) s v s1) ∧
    (∃ (rd : _) (csr : _) (rs1 : _) (s : State) (s1 : State) (v : _),
      Ready (.csrrc rd csr rs1) s ∧
      Gives (readX rs1) s v s1) ∧
    (∃ (rd : _) (csr : _) (z : _) (s : State),
      Ready (.csrrwi rd csr z) s) ∧
    (∃ (rd : _) (csr : _) (z : _) (s : State),
      Ready (.csrrsi rd csr z) s) ∧
    (∃ (rd : _) (csr : _) (z : _) (s : State),
      Ready (.csrrci rd csr z) s) :=
  ⟨⟨1, 6, 2, (unitAt [(2, 7)]), _, _, ready (by decide +kernel), gives (by decide +kernel)⟩,
    ⟨1, 6, 2, (unitAt [(2, 7)]), _, _, ready (by decide +kernel), gives (by decide +kernel)⟩,
    ⟨1, 6, 2, (unitAt [(2, 7)]), _, _, ready (by decide +kernel), gives (by decide +kernel)⟩,
    ⟨1, 6, 1, (unitAt []), ready (by decide +kernel)⟩,
    ⟨1, 6, 1, (unitAt []), ready (by decide +kernel)⟩,
    ⟨1, 6, 1, (unitAt []), ready (by decide +kernel)⟩⟩

/-- The hypotheses of PrefixedUnits can be met. -/
theorem meets_PrefixedUnits :
    (∃ (rd rs1 : Reg) (i : BitVec 12) (s s1 s2 s3 s4 : State) (a : Word) (v : Nat),
      HasPrefixes (encode (.lb rd rs1 i)) (.pfxImm 1) [encode (.lb rd rs1 i)] (some 1) (none) ∧ Fetches 1 [encode (.lb rd rs1 i)] s s1 ∧
      UnitReady (encode (.pfxImm 1) :: [encode (.lb rd rs1 i)]) s1 ∧ Gives (readX rs1) s1 a s2 ∧ Gives (counterSeen ((none : Option (BitVec 2)).getD 0)) s2 true s2 ∧
      Gives (memRead (a + widened (some 1) i) 1 s2.plainAtt) s2 v s3 ∧ Gives (writeX rd (BitVec.ofInt 64 (BitVec.ofNat 8 v).toInt)) s3 () s4) ∧
    (∃ (rd rs1 : Reg) (i : BitVec 12) (s s1 s2 s3 s4 : State) (a : Word) (v : Nat),
      HasPrefixes (encode (.ld rd rs1 i)) (.pfxOrd 3) [encode (.ld rd rs1 i)] (none) (some 3) ∧ Fetches 1 [encode (.ld rd rs1 i)] s s1 ∧
      UnitReady (encode (.pfxOrd 3) :: [encode (.ld rd rs1 i)]) s1 ∧ Gives (readX rs1) s1 a s2 ∧ Gives (counterSeen ((some 3 : Option (BitVec 2)).getD 0)) s2 true s2 ∧
      Gives (memRead (a + widened (none) i) 8 s2.plainAtt) s2 v s3 ∧ Gives (writeX rd (BitVec.ofNat 64 v)) s3 () s4) ∧
    (∃ (rd rs1 : Reg) (i : BitVec 12) (s s1 s2 s3 s4 : State) (a : Word) (v : Nat),
      HasPrefixes (encode (.ld rd rs1 i)) (.pfxImm 0) [encode (.pfxOrd 1), encode (.ld rd rs1 i)] (some 0) (some 1) ∧ Fetches 1 [encode (.pfxOrd 1), encode (.ld rd rs1 i)] s s1 ∧
      UnitReady (encode (.pfxImm 0) :: [encode (.pfxOrd 1), encode (.ld rd rs1 i)]) s1 ∧ Gives (readX rs1) s1 a s2 ∧ Gives (counterSeen ((some 1 : Option (BitVec 2)).getD 0)) s2 true s2 ∧
      Gives (memRead (a + widened (some 0) i) 8 s2.plainAtt) s2 v s3 ∧ Gives (writeX rd (BitVec.ofNat 64 v)) s3 () s4) ∧
    (∃ (rd rs1 : Reg) (i : BitVec 12) (s s1 s2 s3 s4 : State) (a : Word) (v : Nat),
      HasPrefixes (encode (.ld rd rs1 i)) (.pfxOrd 1) [encode (.pfxImm 0), encode (.ld rd rs1 i)] (some 0) (some 1) ∧ Fetches 1 [encode (.pfxImm 0), encode (.ld rd rs1 i)] s s1 ∧
      UnitReady (encode (.pfxOrd 1) :: [encode (.pfxImm 0), encode (.ld rd rs1 i)]) s1 ∧ Gives (readX rs1) s1 a s2 ∧ Gives (counterSeen ((some 1 : Option (BitVec 2)).getD 0)) s2 true s2 ∧
      Gives (memRead (a + widened (some 0) i) 8 s2.plainAtt) s2 v s3 ∧ Gives (writeX rd (BitVec.ofNat 64 v)) s3 () s4) ∧
    (∃ (rs2 rs1 : Reg) (i : BitVec 12) (s s1 s2 s3 s4 : State) (a v : Word),
      HasPrefixes (encode (.sd rs2 rs1 i)) (.pfxImm 1) [encode (.sd rs2 rs1 i)] (some 1) (none) ∧ Fetches 1 [encode (.sd rs2 rs1 i)] s s1 ∧
      UnitReady (encode (.pfxImm 1) :: [encode (.sd rs2 rs1 i)]) s1 ∧ Gives (readX rs1) s1 a s2 ∧ Gives (readX rs2) s2 v s3 ∧
      Gives (counterSeen ((none : Option (BitVec 2)).getD 0)) s3 true s3 ∧ Gives (memWrite (a + widened (some 1) i) 8 v.toNat s3.plainAtt) s3 () s4) ∧
    (∃ (p : BitVec 22) (rd rs1 : Reg) (i : BitVec 12) (s s1 s2 s3 : State) (a : Word),
      Fetches 1 [encode (.addi rd rs1 i)] s s1 ∧ UnitReady [encode (.pfxImm p), encode (.addi rd rs1 i)] s1 ∧
      Gives (readX rs1) s1 a s2 ∧ Gives (writeX rd (BitVec.ofNat 64 (a.toNat + ((p ++ i).signExtend 64).toNat))) s2 () s3) ∧
    (∃ (p : _) (rd : _) (rs1 : _) (i : _) (s : State) (s1 : State) (s2 : State) (s3 : State) (a : _),
      Fetches 1 [encode (.jalr rd rs1 i)] s s1 ∧
      UnitReady [encode (.pfxImm p), encode (.jalr rd rs1 i)] s1 ∧
      (s1.thr s1.cur).fq = [] ∧
      Gives (readX rs1) s1 a s2 ∧
      let sum := a.toNat + ((p ++ i).signExtend 64).toNat
      let target := BitVec.ofNat 64 (sum - sum % 2)
      target.getLsbD 1 = false ∧
      Gives (writeX rd ((s1.thr s1.cur).pc + 8)) s2 () s3 ∧
      target.getLsbD 1 = false ∧
      Gives (writeX rd ((s1.thr s1.cur).pc + 8)) s2 () s3) ∧
    (∃ (p : _) (rd : _) (rs1 : _) (i : _) (s : State) (s1 : State),
      Fetches 1 [encode (.addi rd rs1 i)] s s1 ∧
      PrefixReady [encode (.pfxImm p), encode (.addi rd rs1 i)] s1 ∧
      (s1.thr s1.cur).boundSlot rs1 = none ∧
      (s1.thr s1.cur).boundSlot rd = none) ∧
    (∃ (c : _) (rd : _) (rs1 : _) (i : _) (s : State) (s1 : State),
      c ≠ 0 ∧
      Fetches 1 [encode (.ld rd rs1 i)] s s1 ∧
      PrefixReady [encode (.pfxOrd c), encode (.ld rd rs1 i)] s1 ∧
      (s1.thr s1.cur).boundSlot rs1 = none ∧
      (s1.thr s1.cur).boundSlot rd = none ∧
      ((s1.thr s1.cur).regs.get 0 rs1.toNat + i.signExtend 64).toNat % 8 ≠ 0 ∧
      rs1 ≠ 0) ∧
    (∃ (s s1 : State) (w : IWord) (t : Instr), decode w = .ok t ∧ takesImm t = false ∧ (∀ c, t ≠ .pfxOrd c) ∧ Fetches 1 [w] s s1) ∧
    (∃ (s s1 : State) (w : IWord) (t : Instr), decode w = .ok t ∧ takesOrd t = false ∧ (∀ p, t ≠ .pfxImm p) ∧ Fetches 1 [w] s s1) ∧
    (∃ (s s1 : State) (w : IWord) (t : Instr), decode w = .ok t ∧ takesOrd t = false ∧ Fetches 1 [encode (.pfxOrd 1), w] s s1) ∧
    (∃ (s s1 : State) (w : IWord) (t : Instr), decode w = .ok t ∧ takesOrd t = false ∧ Fetches 1 [encode (.pfxImm 1), w] s s1) ∧
    (∃ (s s1 : State) (w : IWord) (e : DecErr), decode w = .error e ∧ Fetches 1 [w] s s1) ∧
    (∃ (s s1 : State) (w : IWord) (e : DecErr), decode w = .error e ∧ Fetches 1 [w] s s1) ∧
    (∃ (s s1 : State) (w : IWord) (e : DecErr), decode w = .error e ∧ Fetches 1 [encode (.pfxOrd 1), w] s s1) ∧
    (∃ (s s1 : State) (w : IWord) (e : DecErr), decode w = .error e ∧ Fetches 1 [encode (.pfxImm 1), w] s s1) :=
  ⟨⟨1, 2, 8, ((State.reset.withFetchWord 96 0x00810083000070FB).modThr 0 fun th => { th with paid := 1 }), _, _, _, _, _, _,
      .imm 1, ⟨_, givesOkVal (by decide +kernel), rfl⟩, uready (by decide +kernel), gives (by decide +kernel), givesVal
      (by decide +kernel), gives (by decide +kernel), givesVal (by decide +kernel)⟩,
    ⟨1, 2, 8, ((State.reset.withFetchWord 96 0x00813083020061FB).modThr 0 fun th => { th with paid := 1 }), _, _, _, _, _, _,
      .ord 3 (by decide +kernel), ⟨_, givesOkVal (by decide +kernel), rfl⟩, uready (by decide +kernel), gives
      (by decide +kernel), givesVal (by decide +kernel), gives (by decide +kernel), givesVal (by decide +kernel)⟩,
    ⟨1, 2, 8, ((State.reset.withFetchWord 96 0x00813083020060FB0000707B).modThr 0 fun th => { th with paid := 2 }), _, _, _, _,
      _, _, .immOrd 0 1 (by decide +kernel), ⟨_, givesOkVal (by decide +kernel), _, givesOkVal (by decide +kernel), rfl⟩, uready
      (by decide +kernel), gives (by decide +kernel), givesVal (by decide +kernel), gives (by decide +kernel), givesVal
      (by decide +kernel)⟩,
    ⟨1, 2, 8, ((State.reset.withFetchWord 96 0x008130830000707B020060FB).modThr 0 fun th => { th with paid := 2 }), _, _, _, _,
      _, _, .ordImm 0 1 (by decide +kernel), ⟨_, givesOkVal (by decide +kernel), _, givesOkVal (by decide +kernel), rfl⟩, uready
      (by decide +kernel), gives (by decide +kernel), givesVal (by decide +kernel), gives (by decide +kernel), givesVal
      (by decide +kernel)⟩,
    ⟨3, 2, 8, ((State.reset.withFetchWord 96 0x00313423000070FB).modThr 0 fun th => { th with paid := 1 }), _, _, _, _, _, _,
      .imm 1, ⟨_, givesOkVal (by decide +kernel), rfl⟩, uready (by decide +kernel), gives (by decide +kernel), gives
      (by decide +kernel), givesVal (by decide +kernel), givesVal (by decide +kernel)⟩,
    ⟨1, 1, 2, 8, ((State.reset.withFetchWord 96 0x00810093000070FB).modThr 0 fun th => { th with paid := 1 }), _, _, _, _, ⟨_,
      givesOkVal (by decide +kernel), rfl⟩, uready (by decide +kernel), gives (by decide +kernel), givesVal (by decide +kernel)⟩,
    ⟨1, 1, 2, 9, ((State.reset.withFetchWord 96 0x009100E7000070FB).modThr 0 fun th => { th with paid := 1 }), _, _, _, _, ⟨_,
      givesOkVal (by decide +kernel), rfl⟩, uready (by decide +kernel), by decide +kernel, gives (by decide +kernel),
      by decide +kernel, givesVal (by decide +kernel), by decide +kernel, rfl⟩,
    ⟨1, 1, 2, 8, (State.reset.withFetchWord 96 0x00810093000070FB), _, ⟨_, givesOkVal (by decide +kernel), rfl⟩, pready
      (by decide +kernel), by decide +kernel⟩,
    ⟨3, 1, 2, 7, (State.reset.withFetchWord 96 0x00713083020061FB), _, by decide +kernel, ⟨_, givesOkVal (by decide +kernel),
      rfl⟩, pready (by decide +kernel), by decide +kernel⟩,
    ⟨(State.reset.withFetchWord 64 0x003100B3000070FB), _, 0x3100B3, .add 1 2 3, rfl, rfl, nofun, ⟨_, givesOkVal
      (by decide +kernel), rfl⟩⟩,
    ⟨(State.reset.withFetchWord 64 0x00810093020060FB), _, 0x810093, .addi 1 2 8, rfl, rfl, nofun, ⟨_, givesOkVal
      (by decide +kernel), rfl⟩⟩,
    ⟨(State.reset.withFetchWord 96 0x00810093020060FB000070FB), _, 0x810093, .addi 1 2 8, rfl, rfl, ⟨_, givesOkVal
      (by decide +kernel), _, givesOkVal (by decide +kernel), rfl⟩⟩,
    ⟨(State.reset.withFetchWord 96 0x00810093000070FB020060FB), _, 0x810093, .addi 1 2 8, rfl, rfl, ⟨_, givesOkVal
      (by decide +kernel), _, givesOkVal (by decide +kernel), rfl⟩⟩,
    ⟨(State.reset.withFetchWord 64 0x00000000000070FB), _, 0, _, rfl, ⟨_, givesOkVal (by decide +kernel), rfl⟩⟩,
    ⟨(State.reset.withFetchWord 64 0x00000000020060FB), _, 0, _, rfl, ⟨_, givesOkVal (by decide +kernel), rfl⟩⟩,
    ⟨(State.reset.withFetchWord 96 0x00000000020060FB000070FB), _, 0, _, rfl, ⟨_, givesOkVal (by decide +kernel), _, givesOkVal
      (by decide +kernel), rfl⟩⟩,
    ⟨(State.reset.withFetchWord 96 0x00000000000070FB020060FB), _, 0, _, rfl, ⟨_, givesOkVal (by decide +kernel), _, givesOkVal
      (by decide +kernel), rfl⟩⟩⟩

/-- The hypotheses of DelegatedTrap can be met. -/
theorem meets_DelegatedTrap :
    ∃ (t : Nat) (cause : BitVec 8) (s : State),
      (s.thr t).inTrap = false ∧
      (s.thr t).gang = false ∧
      cause.toNat < 9 ∧
      (s.thr t).xdeleg.getLsbD cause.toNat = true := 
  ⟨0, 8, ((unitAt []).modThr 0 fun th => { th with xdeleg := 0x100 }), by decide +kernel⟩

/-- The hypotheses of ParkingTrap can be met. -/
theorem meets_ParkingTrap :
    ∃ (t : Nat) (cause : BitVec 8) (s : State),
      (s.thr t).fused = false ∧
      (s.thr t).delegates cause = false := 
  ⟨0, 8, (unitAt []), by decide +kernel⟩

/-- The hypotheses of SystemForms can be met. -/
theorem meets_SystemForms :
    (∃ (code : _) (rs1 : _) (s : State) (s1 : State) (v : _),
      Ready (.trap code rs1) s ∧
      Gives (readX rs1) s v s1) ∧
    (∃ (s : State),
      Ready .xret s ∧
      (s.thr s.cur).fq = [] ∧
      (s.thr s.cur).inTrap = true ∧
      (s.thr s.cur).xpc.getLsbD 1 = false) ∧
    (∃ (s : State),
      Ready .xret s ∧
      (s.thr s.cur).inTrap = false) ∧
    (∃ (rd : _) (rs1 : _) (s : State) (s1 : State) (s2 : State) (v : _) (r : _),
      Ready (.idle rd rs1) s ∧
      (s.thr s.cur).fq = [] ∧
      Gives (readX rs1) s v s1 ∧
      (s1.thr s.cur).wakeR = some r ∧
      Gives (writeX rd (r.zeroExtend 64)) (s1.modThr s.cur fun th => { th with wake := false }) () s2) ∧
    (∃ (rd : _) (rs1 : _) (s : State) (s1 : State) (s2 : State) (v : _),
      Ready (.idle rd rs1) s ∧
      (s.thr s.cur).fq = [] ∧
      Gives (readX rs1) s v s1 ∧
      (s1.thr s.cur).wakeR = none ∧
      (s1.thr s.cur).wake = true ∧
      Gives (writeX rd 0) (s1.modThr s.cur fun th => { th with wake := false }) () s2) ∧
    (∃ (rd : _) (rs1 : _) (s : State) (s1 : State) (v : _),
      Ready (.idle rd rs1) s ∧
      (s.thr s.cur).fq = [] ∧
      Gives (readX rs1) s v s1 ∧
      (s1.thr s.cur).wakeR = none ∧
      (s1.thr s.cur).wake = false ∧
      (s.thr s.cur).st = .running) ∧
    (∃ (s : State),
      Ready .yield s ∧
      (s.thr s.cur).fq = []) ∧
    (∃ (rd : _) (rs1 : _) (rs2 : _) (s : State) (s1 : State) (s2 : State) (s3 : State) (a : _) (b : _) (v : _),
      Ready (.fuse rd rs1 rs2) s ∧
      Gives (readX rs1) s a s1 ∧
      Gives (readX rs2) s1 b s2 ∧
      (s2.thr s.cur).fuseAns = some v ∧
      Gives (writeX rd v) s2 () s3) ∧
    (∃ (rd : _) (rs1 : _) (rs2 : _) (s : State) (s1 : State) (s2 : State) (s3 : State) (a : _) (b : _),
      Ready (.fuse rd rs1 rs2) s ∧
      Gives (readX rs1) s a s1 ∧
      Gives (readX rs2) s1 b s2 ∧
      (s2.thr s.cur).fuseAns = none ∧
      (s2.thr s.cur).gang = true ∧
      Gives (writeX rd (BitVec.ofInt 64 (-3))) s2 () s3) ∧
    (∃ (rd : _) (rs1 : _) (rs2 : _) (s : State) (s1 : State) (s2 : State) (s3 : State) (a : _) (b : _),
      Ready (.fuse rd rs1 rs2) s ∧
      Gives (readX rs1) s a s1 ∧
      Gives (readX rs2) s1 b s2 ∧
      (s2.thr s.cur).fuseAns = none ∧
      (s2.thr s.cur).gang = false ∧
      (a.toNat % 16 < 2 ∨ 8 < a.toNat % 16 ∨ 8 < a.toNat / 16 % 8 + a.toNat % 16 ∨ coreOf s.cur % 8 < a.toNat / 16 % 8 ∨ a.toNat
        / 16 % 8 + a.toNat % 16 ≤ coreOf s.cur % 8) ∧
      Gives (writeX rd (BitVec.ofInt 64 (-2))) s2 () s3) ∧
    (∃ (rd : _) (rs1 : _) (rs2 : _) (s : State) (s1 : State) (s2 : State) (s3 : State) (a : _) (b : _),
      Ready (.fuse rd rs1 rs2) s ∧
      Gives (readX rs1) s a s1 ∧
      Gives (readX rs2) s1 b s2 ∧
      (s2.thr s.cur).fuseAns = none ∧
      (s2.thr s.cur).gang = false ∧
      (a.toNat % 16 < 2 ∨ 8 < a.toNat % 16 ∨ 8 < a.toNat / 16 % 8 + a.toNat % 16 ∨ coreOf s.cur % 8 < a.toNat / 16 % 8 ∨ a.toNat
        / 16 % 8 + a.toNat % 16 ≤ coreOf s.cur % 8) ∧
      Gives (writeX rd (BitVec.ofInt 64 (-2))) s2 () s3) ∧
    (∃ (rd : _) (rs1 : _) (rs2 : _) (s : State) (s1 : State) (s2 : State) (s3 : State) (a : _) (b : _),
      Ready (.fuse rd rs1 rs2) s ∧
      Gives (readX rs1) s a s1 ∧
      Gives (readX rs2) s1 b s2 ∧
      (s2.thr s.cur).fuseAns = none ∧
      (s2.thr s.cur).gang = false ∧
      (a.toNat % 16 < 2 ∨ 8 < a.toNat % 16 ∨ 8 < a.toNat / 16 % 8 + a.toNat % 16 ∨ coreOf s.cur % 8 < a.toNat / 16 % 8 ∨ a.toNat
        / 16 % 8 + a.toNat % 16 ≤ coreOf s.cur % 8) ∧
      Gives (writeX rd (BitVec.ofInt 64 (-2))) s2 () s3) ∧
    (∃ (rd : _) (rs1 : _) (rs2 : _) (s : State) (s1 : State) (s2 : State) (s3 : State) (a : _) (b : _),
      Ready (.fuse rd rs1 rs2) s ∧
      Gives (readX rs1) s a s1 ∧
      Gives (readX rs2) s1 b s2 ∧
      (s2.thr s.cur).fuseAns = none ∧
      (s2.thr s.cur).gang = false ∧
      (a.toNat % 16 < 2 ∨ 8 < a.toNat % 16 ∨ 8 < a.toNat / 16 % 8 + a.toNat % 16 ∨ coreOf s.cur % 8 < a.toNat / 16 % 8 ∨ a.toNat
        / 16 % 8 + a.toNat % 16 ≤ coreOf s.cur % 8) ∧
      Gives (writeX rd (BitVec.ofInt 64 (-2))) s2 () s3) ∧
    (∃ (rd : _) (rs1 : _) (rs2 : _) (s : State) (s1 : State) (s2 : State) (a : _) (b : _),
      Ready (.fuse rd rs1 rs2) s ∧
      coreOf s.cur < 2048 ∧
      Gives (readX rs1) s a s1 ∧
      Gives (readX rs2) s1 b s2 ∧
      (s2.thr s.cur).fuseAns = none ∧
      (s2.thr s.cur).gang = false ∧
      2 ≤ a.toNat % 16 ∧
      a.toNat / 16 % 8 + a.toNat % 16 ≤ 8 ∧
      a.toNat / 16 % 8 ≤ coreOf s.cur % 8 ∧
      coreOf s.cur % 8 < a.toNat / 16 % 8 + a.toNat % 16 ∧
      (s.thr s.cur).fuseWait = none) ∧
    (∃ (s : State),
      Ready .split s ∧
      (s.thr s.cur).gang = false) ∧
    (∃ (s : State),
      Ready .split s ∧
      (s.thr s.cur).gang = true ∧
      (s.thr s.cur).leader = false) ∧
    (∃ (s : State),
      Ready .xret s ∧
      (s.thr s.cur).fq = [] ∧
      (s.thr s.cur).inTrap = true ∧
      (s.thr s.cur).xpc.getLsbD 1 = true) ∧
    (∃ (s : State),
      Ready .split s ∧
      (s.thr s.cur).gang = true ∧
      (s.thr s.cur).leader = true ∧
      (s.thr s.cur).sent = false) :=
  ⟨⟨31, 2, (unitAt [(2, 7)]), _, _, ready (by decide +kernel), gives (by decide +kernel)⟩,
    ⟨((unitAt []).modThr 0 fun th => { th with inTrap := true, xpc := 0x100 }), ready (by decide +kernel), by decide +kernel⟩,
    ⟨(unitAt []), ready (by decide +kernel), by decide +kernel⟩,
    ⟨1, 2, ((unitAt [(2, 7)]).modThr 0 fun th => { th with wakeR := some 3 }), _, _, _, 3, ready (by decide +kernel),
      by decide +kernel, gives (by decide +kernel), by decide +kernel, givesVal (by decide +kernel)⟩,
    ⟨1, 2, ((unitAt []).modThr 0 fun th => { th with wake := true }), _, _, _, ready (by decide +kernel), by decide +kernel,
      gives (by decide +kernel), by decide +kernel, by decide +kernel, givesVal (by decide +kernel)⟩,
    ⟨1, 2, (unitAt [(2, 100)]), _, _, ready (by decide +kernel), by decide +kernel, gives (by decide +kernel),
      by decide +kernel⟩,
    ⟨(unitAt []), ready (by decide +kernel), by decide +kernel⟩,
    ⟨1, 2, 3, ((unitAt [(2, 0x12)]).modThr 0 fun th => { th with fuseAns := some 1 }), _, _, _, _, _, 1, ready
      (by decide +kernel), gives (by decide +kernel), gives (by decide +kernel), by decide +kernel, givesVal
      (by decide +kernel)⟩,
    ⟨1, 2, 3, ((unitAt [(2, 0x12)]).modThr 0 fun th => { th with gang := true }), _, _, _, _, _, ready (by decide +kernel),
      gives (by decide +kernel), gives (by decide +kernel), by decide +kernel, by decide +kernel, givesVal (by decide +kernel)⟩,
    ⟨1, 2, 3, (unitAt [(2, 0x01)]), _, _, _, _, _, ready (by decide +kernel), gives (by decide +kernel), gives
      (by decide +kernel), by decide +kernel, by decide +kernel, by decide +kernel, givesVal (by decide +kernel)⟩,
    ⟨1, 2, 3, (unitAt [(2, 0x09)]), _, _, _, _, _, ready (by decide +kernel), gives (by decide +kernel), gives
      (by decide +kernel), by decide +kernel, by decide +kernel, by decide +kernel, givesVal (by decide +kernel)⟩,
    ⟨1, 2, 3, (unitAt [(2, 0x72)]), _, _, _, _, _, ready (by decide +kernel), gives (by decide +kernel), gives
      (by decide +kernel), by decide +kernel, by decide +kernel, by decide +kernel, givesVal (by decide +kernel)⟩,
    ⟨1, 2, 3, (unitAt [(2, 0x12)]), _, _, _, _, _, ready (by decide +kernel), gives (by decide +kernel), gives
      (by decide +kernel), by decide +kernel, by decide +kernel, by decide +kernel, givesVal (by decide +kernel)⟩,
    ⟨1, 2, 3, (unitAt [(2, 0x02)]), _, _, _, _, ready (by decide +kernel), by decide +kernel, gives (by decide +kernel), gives
      (by decide +kernel), by decide +kernel⟩,
    ⟨(unitAt []), ready (by decide +kernel), by decide +kernel⟩,
    ⟨((unitAt []).modThr 0 fun th => { th with gang := true }), ready (by decide +kernel), by decide +kernel⟩,
    ⟨((unitAt []).modThr 0 fun th => { th with inTrap := true, xpc := 0x102 }), ready (by decide +kernel), by decide +kernel⟩,
    ⟨((unitAt []).modThr 0 fun th => { th with gang := true, leader := true, fused := true, gsize := 2 }), ready
      (by decide +kernel), by decide +kernel⟩⟩

/-- The hypotheses of RegisterOperands can be met. -/
theorem meets_RegisterOperands :
    (∃ (r : Reg) (s : State),
      r ≠ 0 ∧
      (s.thr s.cur).boundSlot r = none) ∧
    (∃ (r : Reg) (s : State),
      r ≠ 0 ∧
      (s.thr s.cur).boundSlot r = none) ∧
    (∃ (r : Reg) (s : State) (k : _) (b : Binding) (v : _) (l : _),
      (s.thr s.cur).boundSlot r = some (k, b) ∧
      28 ≤ r.toNat ∧
      b.exh = false ∧
      b.arrived = .value v :: l) ∧
    (∃ (r : Reg) (s : State) (k : _) (b : Binding),
      (s.thr s.cur).boundSlot r = some (k, b) ∧
      28 ≤ r.toNat) ∧
    (∃ (r : Reg) (s : State) (k : _) (b : Binding),
      r ≠ 0 ∧
      (s.thr s.cur).boundSlot r = some (k, b) ∧
      r.toNat < 28) ∧
    (∃ (r : Reg) (s : State) (k : _) (b : Binding),
      (s.thr s.cur).boundSlot r = some (k, b) ∧
      28 ≤ r.toNat ∧
      b.exh = true) ∧
    (∃ (r : Reg) (s : State) (k : _) (b : Binding),
      r ≠ 0 ∧
      (s.thr s.cur).boundSlot r = some (k, b) ∧
      r.toNat < 28 ∧
      b.exh = true) ∧
    (∃ (r : Reg) (s : State) (s1 : State) (s2 : State) (s3 : State) (k : _) (b : Binding) (a : _) (off : _),
      r ≠ 0 ∧
      (s.thr s.cur).boundSlot r = some (k, b) ∧
      r.toNat < 28 ∧
      b.exh = false ∧
      ((s.core (coreOf s.cur)).rstores.filter fun q => q.tid == s.cur && q.slot == some k && !q.sent).length < 32 ∧
      Gives (pushTarget (b.addr b.next) b.esz) s a s1 ∧
      Gives settleRelease s1 () s2 ∧
      placeOf (coreOf s.cur) a = .bank (coreOf s.cur) off ∧
      off < 0x60000 ∧
      Gives (drainCost (s.agent s.cur) k (b2n (b.next * b.esz % 32 == 0))) s2 () s3) ∧
    (∃ (r : Reg) (s : State) (s1 : State) (s2 : State) (k : _) (b : Binding) (a : _) (m : _) (off : _),
      r ≠ 0 ∧
      (s.thr s.cur).boundSlot r = some (k, b) ∧
      r.toNat < 28 ∧
      b.exh = false ∧
      ((s.core (coreOf s.cur)).rstores.filter fun q => q.tid == s.cur && q.slot == some k && !q.sent).length < 32 ∧
      Gives (pushTarget (b.addr b.next) b.esz) s a s1 ∧
      Gives settleRelease s1 () s2 ∧
      placeOf (coreOf s.cur) a = .bank m off ∧
      m ≠ coreOf s.cur ∧
      (s2.core (coreOf s.cur)).rstores.length < 64) :=
  ⟨⟨31, (unitAt [(31, 9)]), by decide +kernel⟩,
    ⟨1, (unitAt []), by decide +kernel⟩,
    ⟨28, ((unitAt []).modThr 0 fun th => { th with binds := ⟨[(0, { reg := 28, arrived := [.value 5] })]⟩ }), 0,
      { reg := 28, arrived := [.value 5] }, 5, [], by decide +kernel⟩,
    ⟨31, ((unitAt []).modThr 0 fun th => { th with binds := ⟨[(0, { reg := 31, next := 0 })]⟩ }), 0, { reg := 31 },
      by decide +kernel⟩,
    ⟨27, ((unitAt []).modThr 0 fun th => { th with binds := ⟨[(0, { reg := 27, last := 5 })]⟩ }), 0, { reg := 27, last := 5 },
      by decide +kernel⟩,
    ⟨28, ((unitAt []).modThr 0 fun th => { th with binds := ⟨[(0, { reg := 28, exh := true })]⟩ }), 0,
      { reg := 28, exh := true }, by decide +kernel⟩,
    ⟨27, ((unitAt []).modThr 0 fun th => { th with binds := ⟨[(0, { reg := 27, exh := true })]⟩ }), 0,
      { reg := 27, exh := true }, by decide +kernel⟩,
    ⟨27, ((unitAt []).modThr 0 fun th =>
      { th with binds := ⟨[(0, { reg := 27, fmt := 3, base := 0x00F1000000000000, counts := 0x100000002, strides := 8 })]⟩ }),
      _, _, _, 0, { reg := 27, fmt := 3, base := 0x00F1000000000000, counts := 0x100000002, strides := 8 }, 0x00F1000000000000,
      0, by decide +kernel, by decide +kernel, by decide +kernel, of_decide_eq_true (by decide +kernel), by decide +kernel,
      givesVal (by decide +kernel), givesVal (by decide +kernel), by decide +kernel, by decide +kernel, givesVal
      (by decide +kernel)⟩,
    ⟨27, (((unitAt []).modThr 0 fun th =>
      { th with binds := ⟨[(0, { reg := 27, fmt := 3, base := 0x00F1000000080000, counts := 0x100000002, strides := 8 })]⟩ }).modCore
      1 fun c => { c with groups := [{ base := 0, size := 8, seat := 16, mapped := true }] }), _, _, 0,
      { reg := 27, fmt := 3, base := 0x00F1000000080000, counts := 0x100000002, strides := 8 }, 0x00F1000000080000, 1, 0,
      by decide +kernel, by decide +kernel, by decide +kernel, of_decide_eq_true (by decide +kernel), by decide +kernel,
      givesVal (by decide +kernel), givesVal (by decide +kernel), by decide +kernel⟩⟩

/-- The hypotheses of WordTraps can be met. -/
theorem meets_WordTraps :
    ∃ (s : State),
      (s.thr s.cur).fused = false := 
  ⟨(unitAt []), by decide +kernel⟩

/-- The hypotheses of StepRunsDecoded can be met. -/
theorem meets_StepRunsDecoded :
    ∃ (s s1 : State) (t : Nat) (w : IWord) (i : Instr),
      firstEvent s s.urgent = none ∧
      s.pend = [] ∧
      s.agenda = [] ∧
      s.evTurn = false ∧
      s.nextThread = some t ∧
      let s0 := wakeCore (coreOf t) { s with cur := t, coreAt := coreOf t, slotUsed := s.slotUsed && s.coreAt == coreOf t }
      (s0.thr t).fq = [] ∧
      Gives (unitWord 0) s0 (.ok w) s1 ∧
      decodeOn (coreOf t) w = .ok i := 
  ⟨(State.reset.withFetchWord 32 0x810093), _, 0, 0x810093, .addi 1 2 8, by decide +kernel, by decide +kernel,
    by decide +kernel, of_decide_eq_true (by decide +kernel), by decide +kernel, by decide +kernel, givesOkVal
    (by decide +kernel), rfl⟩

/-- The hypotheses of OwnAccesses can be met. -/
theorem meets_OwnAccesses :
    (∃ (rd : _) (rs1 : _) (scope : _) (wait : _) (pol : _) (off : _) (s : State) (s1 : State) (s2 : State) (s3 : State) (a : _) (v : _),
      Ready (.ldo rd rs1 scope wait pol off) s ∧
      Gives (readX rs1) s a s1 ∧
      Gives (counterSeen wait) s1 true s1 ∧
      Gives (memRead (a + BitVec.ofNat 64 (8 * off.toNat)) 8 { scope := scope, pol := pol }) s1 v s2 ∧
      Gives (writeX rd (BitVec.ofNat 64 v)) s2 () s3) ∧
    (∃ (rd : _) (rs1 : _) (scope : _) (wait : _) (pol : _) (off : _) (s : State) (s1 : State) (s2 : State) (s3 : State) (a : _) (v : _),
      Ready (.lwo rd rs1 scope wait pol off) s ∧
      Gives (readX rs1) s a s1 ∧
      Gives (counterSeen wait) s1 true s1 ∧
      Gives (memRead (a + BitVec.ofNat 64 (4 * off.toNat)) 4 { scope := scope, pol := pol }) s1 v s2 ∧
      Gives (writeX rd (sext32 v)) s2 () s3) ∧
    (∃ (rs2 : _) (rs1 : _) (scope : _) (wait : _) (pol : _) (off : _) (s : State) (s1 : State) (s2 : State) (s3 : State) (a : _) (v : _),
      Ready (.sdo rs2 rs1 scope wait pol off) s ∧
      Gives (readX rs1) s a s1 ∧
      Gives (readX rs2) s1 v s2 ∧
      Gives (counterSeen wait) s2 true s2 ∧
      Gives (memWrite (a + BitVec.ofNat 64 (8 * off.toNat)) 8 v.toNat { scope := scope, pol := pol }) s2 () s3) ∧
    (∃ (rs2 : _) (rs1 : _) (scope : _) (wait : _) (pol : _) (off : _) (s : State) (s1 : State) (s2 : State) (s3 : State) (a : _) (v : _),
      Ready (.swo rs2 rs1 scope wait pol off) s ∧
      Gives (readX rs1) s a s1 ∧
      Gives (readX rs2) s1 v s2 ∧
      Gives (counterSeen wait) s2 true s2 ∧
      Gives (memWrite (a + BitVec.ofNat 64 (4 * off.toNat)) 4 v.toNat { scope := scope, pol := pol }) s2 () s3) :=
  ⟨⟨1, 2, .core, 3, .default, 15, (unitAt [(2, own), (3, 5)]), _, _, _, _, _, ready (by decide +kernel), gives
      (by decide +kernel), rfl, gives (by decide +kernel), givesVal (by decide +kernel)⟩,
    ⟨1, 2, .core, 3, .default, 15, (unitAt [(2, own), (3, 5)]), _, _, _, _, _, ready (by decide +kernel), gives
      (by decide +kernel), rfl, gives (by decide +kernel), givesVal (by decide +kernel)⟩,
    ⟨3, 2, .core, 3, .default, 15, (unitAt [(2, own), (3, 5)]), _, _, _, _, _, ready (by decide +kernel), gives
      (by decide +kernel), gives (by decide +kernel), rfl, givesVal (by decide +kernel)⟩,
    ⟨3, 2, .core, 3, .default, 15, (unitAt [(2, own), (3, 5)]), _, _, _, _, _, ready (by decide +kernel), gives
      (by decide +kernel), gives (by decide +kernel), rfl, givesVal (by decide +kernel)⟩⟩

/-- The hypotheses of RemoteStores can be met. -/
theorem meets_RemoteStores :
    (∃ (rs2 : _) (rs1 : _) (off : _) (s : State) (s1 : State) (s2 : State) (s3 : State) (a : _) (v : _),
      Ready (.rst rs2 rs1 off) s ∧
      Gives (readX rs1) s a s1 ∧
      Gives (readX rs2) s1 v s2 ∧
      let va := a + BitVec.ofNat 64 (8 * off.toNat)
      va.toNat % 8 = 0 ∧
      Gives (homedWrite va (.store 8 v.toNat) needW false) s2 () s3) ∧
    (∃ (rs2 : _) (rs1 : _) (off : _) (s : State) (s1 : State) (s2 : State) (s3 : State) (a : _) (v : _),
      Ready (.rsa rs2 rs1 off) s ∧
      Gives (readX rs1) s a s1 ∧
      Gives (readX rs2) s1 v s2 ∧
      let va := a + BitVec.ofNat 64 (8 * off.toNat)
      va.toNat % 8 = 0 ∧
      Gives (homedWrite va (.add v) needRW true) s2 () s3) ∧
    (∃ (rs2 : _) (rs1 : _) (off : _) (s : State) (s1 : State) (s2 : State) (a : _) (v : _),
      Ready (Instr.rst rs2 rs1 off) s ∧
      Gives (readX rs1) s a s1 ∧
      Gives (readX rs2) s1 v s2 ∧
      (a + BitVec.ofNat 64 (8 * off.toNat)).toNat % 8 ≠ 0) ∧
    (∃ (s : State) (m off : Nat),
      m < 2048 ∧
      m ≠ coreOf s.cur ∧
      off < 0x60000 ∧
      off % 8 = 0 ∧
      (s.thr s.cur).relMark = none ∧
      s.bankOwned ((s.thr s.cur).seat.getD 0) m off = true ∧
      (∀ x ∈ (s.cluster (clusterOf (coreOf s.cur))).engines.cells, x.2.st = .free) ∧
      (s.core (coreOf s.cur)).rstores.length < 64) ∧
    (∃ (s s1 : State) (n : Nat) (r : RStore),
      (s.core n).rstores = [r] ∧
      r.performed = false ∧
      r.sent = false ∧
      ((s.partOfCore n).map fun f => (s.part f).swept) ≠ some true ∧
      Gives (sendStore n 0 r) s () s1) ∧
    (∃ (s s1 s2 : State) (n : Nat) (r : RStore),
      (s.core n).rstores = [r] ∧
      r.performed = false ∧
      r.sent = true ∧
      ((s.partOfCore n).map fun f => (s.part f).swept) ≠ some true ∧
      Gives (performStore n r) s () s1 ∧
      Gives (charges (placeAnswers (r.agent n) r.addr 0)) (markPerformed n 0 s1).settled () s2) ∧
    (∃ (mask : _) (s : State),
      Ready (.wcwait mask) s ∧
      (∀ c : BitVec 2, c ≠ 0 → mask.getLsbD (c.toNat - 1) = true → (s.core (coreOf s.cur)).writeCounter ((s.thr s.cur).seat.getD
        0) c = 0)) ∧
    (∃ (rd : _) (c : _) (s : State) (s1 : State),
      Ready (.wcread rd c) s ∧
      Gives (writeX rd (BitVec.ofNat 64 ((s.core (coreOf s.cur)).writeCounter ((s.thr s.cur).seat.getD 0) c))) s () s1) :=
  ⟨⟨3, 2, 31, (unitAt [(2, 0x00F1000000080000), (3, 5)]), _, _, _, _, _, ready (by decide +kernel), gives (by decide +kernel),
      gives (by decide +kernel), by decide +kernel, givesVal (by decide +kernel)⟩,
    ⟨3, 2, 31, (unitAt [(2, 0x00F1000000080000), (3, 5)]), _, _, _, _, _, ready (by decide +kernel), gives (by decide +kernel),
      gives (by decide +kernel), by decide +kernel, givesVal (by decide +kernel)⟩,
    ⟨3, 2, 31, (unitAt [(2, 0x00F0000000000001), (3, 5)]), _, _, _, _, ready (by decide +kernel), gives (by decide +kernel),
      gives (by decide +kernel), by decide +kernel⟩,
    ⟨(unitAt []), 1, 0x5FFF8, by decide +kernel⟩,
    ⟨((unitAt []).modCore 0 fun c =>
      { c with rstores := [{ seat := 16, cls := 1, dest := 1, addr := 0x00F1000000080000, kind := .store 8 5, sent := false }] }),
      _, 0, { seat := 16, cls := 1, dest := 1, addr := 0x00F1000000080000, kind := .store 8 5, sent := false },
      by decide +kernel, by decide +kernel, by decide +kernel, of_decide_eq_true (by decide +kernel), givesVal
      (by decide +kernel)⟩,
    ⟨((unitAt []).modCore 0 fun c =>
      { c with rstores := [{ seat := 16, cls := 1, dest := 1, addr := 0x00F1000000080000, kind := .store 8 5, sent := true }] }),
      _, _, 0, { seat := 16, cls := 1, dest := 1, addr := 0x00F1000000080000, kind := .store 8 5, sent := true },
      by decide +kernel, by decide +kernel, by decide +kernel, of_decide_eq_true (by decide +kernel), givesVal
      (by decide +kernel), givesVal (by decide +kernel)⟩,
    ⟨7, (unitAt []), ready (by decide +kernel), by decide +kernel⟩,
    ⟨1, 3, (unitAt []), _, ready (by decide +kernel), givesVal (by decide +kernel)⟩⟩

/-- The hypotheses of CircularBuffers can be met. -/
theorem meets_CircularBuffers :
    (∃ (h : _) (rs1 : _) (s : State) (s1 : State) (s2 : State) (a : _) (b : _) (c : _) (g : _),
      Ready (.cbCfg h rs1) s ∧
      Gives (readX rs1) s a s1 ∧
      Gives (readDoublewords a 3) s1 [b, c, g] s2 ∧
      let n := coreOf s2.cur
      let seat := (s2.thr s2.cur).seat.getD 0
      let base := rewriteOwn n b
      let ctrl := rewriteOwn n c
      let good := base.toNat % 8 = 0 ∧ ctrl.toNat % 16 = 0 ∧ g.toNat < 2 ^ 32 ∧ isPow2 (cbSlots g) = true ∧ cbSlots g ≤ 4096 ∧
        cbSize g % 8 = 0 ∧ 8 ≤ cbSize g ∧ cbSize g ≤ 32768 ∧ (bankCore n base.toNat).isSome = true ∧ bankCore n base.toNat =
        bankCore n ctrl.toNat ∧ s2.banksOwned seat n base.toNat (cbSlots g * cbSize g) = true ∧ s2.banksOwned seat n ctrl.toNat
        16 = true
      good) ∧
    (∃ (h : _) (rs1 : _) (s : State) (s1 : State) (s2 : State) (a : _) (b : _) (c : _) (g : _),
      Ready (.cbCfg h rs1) s ∧
      Gives (readX rs1) s a s1 ∧
      Gives (readDoublewords a 3) s1 [b, c, g] s2 ∧
      let n := coreOf s2.cur
      let seat := (s2.thr s2.cur).seat.getD 0
      let base := rewriteOwn n b
      let ctrl := rewriteOwn n c
      let good := base.toNat % 8 = 0 ∧ ctrl.toNat % 16 = 0 ∧ g.toNat < 2 ^ 32 ∧ isPow2 (cbSlots g) = true ∧ cbSlots g ≤ 4096 ∧
        cbSize g % 8 = 0 ∧ 8 ≤ cbSize g ∧ cbSize g ≤ 32768 ∧ (bankCore n base.toNat).isSome = true ∧ bankCore n base.toNat =
        bankCore n ctrl.toNat ∧ s2.banksOwned seat n base.toNat (cbSlots g * cbSize g) = true ∧ s2.banksOwned seat n ctrl.toNat
        16 = true
      ¬ good) ∧
    (∃ (rd : _) (h : _) (rs1 : _) (s : State) (s1 : State) (s2 : State) (s3 : State) (n : _) (p : _) (q : _),
      Ready (.cbWfill rd h rs1) s ∧
      Gives (readX rs1) s n s1 ∧
      let c := (s1.thr s1.cur).cbs.get {} h.toNat
      c.valid = true ∧
      Gives (cbCounts c) s1 (p, q) s2 ∧
      n.toNat ≤ (p - q).toNat ∧
      (p - q).toNat ≤ cbSlots c.geom ∧
      Gives (writeX rd (c.base + BitVec.ofNat 64 (q.toNat % cbSlots c.geom * cbSize c.geom))) (s2.modThr s2.cur fun th =>
        { th with cbs := th.cbs.set h.toNat { c with grantC := BitVec.ofNat 13 (p - q).toNat } }) () s3) ∧
    (∃ (rd : _) (h : _) (rs1 : _) (s : State) (s1 : State) (s2 : State) (s3 : State) (n : _) (p : _) (q : _),
      Ready (.cbWfree rd h rs1) s ∧
      Gives (readX rs1) s n s1 ∧
      let c := (s1.thr s1.cur).cbs.get {} h.toNat
      c.valid = true ∧
      Gives (cbCounts c) s1 (p, q) s2 ∧
      n.toNat + (p - q).toNat ≤ cbSlots c.geom ∧
      Gives (writeX rd (c.base + BitVec.ofNat 64 (p.toNat % cbSlots c.geom * cbSize c.geom))) (s2.modThr s2.cur fun th =>
        { th with cbs := th.cbs.set h.toNat { c with grantP := BitVec.ofNat 13 (cbSlots c.geom - (p - q).toNat) } }) () s3) ∧
    (∃ (h : _) (rs1 : _) (s : State) (s1 : State) (s2 : State) (n : _),
      Ready (.cbAdvp h rs1) s ∧
      Gives (readX rs1) s n s1 ∧
      let c := (s1.thr s1.cur).cbs.get {} h.toNat
      c.valid = true ∧
      n.toNat ≤ c.grantP.toNat ∧
      Gives (homedWrite c.ctrl (.add n) needRW true) (s1.modThr s1.cur fun th =>
        { th with cbs := th.cbs.set h.toNat { c with grantP := BitVec.ofNat 13 (c.grantP.toNat - n.toNat) } }) () s2) ∧
    (∃ (h : _) (rs1 : _) (s : State) (s1 : State) (s2 : State) (n : _),
      Ready (.cbAdvc h rs1) s ∧
      Gives (readX rs1) s n s1 ∧
      let c := (s1.thr s1.cur).cbs.get {} h.toNat
      c.valid = true ∧
      n.toNat ≤ c.grantC.toNat ∧
      Gives (homedWrite (c.ctrl + 8) (.add n) needRW true) (s1.modThr s1.cur fun th =>
        { th with cbs := th.cbs.set h.toNat { c with grantC := BitVec.ofNat 13 (c.grantC.toNat - n.toNat) } }) () s2) ∧
    (∃ (rd : _) (h : _) (rs1 : _) (s : State) (s1 : State) (n : _),
      (∀ i ∈ [Instr.cbWfill rd h rs1, .cbWfree rd h rs1, .cbAdvp h rs1, .cbAdvc h rs1], Ready i s) ∧
      Gives (readX rs1) s n s1 ∧
      ((s1.thr s1.cur).cbs.get {} h.toNat).valid = false) ∧
    (∃ (rd : _) (h : _) (rs1 : _) (s : State) (s1 : State) (n : _),
      (∀ mk ∈ [Instr.cbWfill, Instr.cbWfree], Ready (mk rd h rs1) s) ∧
      Gives (readX rs1) s n s1 ∧
      let c := (s1.thr s1.cur).cbs.get {} h.toNat
      c.valid = true ∧
      cbSlots c.geom < n.toNat) ∧
    (∃ (rd : _) (h : _) (rs1 : _) (s : State) (s1 : State) (s2 : State) (n : _) (p : _) (q : _),
      (∀ mk ∈ [Instr.cbWfill, Instr.cbWfree], Ready (mk rd h rs1) s) ∧
      Gives (readX rs1) s n s1 ∧
      let c := (s1.thr s1.cur).cbs.get {} h.toNat
      c.valid = true ∧
      n.toNat ≤ cbSlots c.geom ∧
      Gives (cbCounts c) s1 (p, q) s2 ∧
      cbSlots c.geom < (p - q).toNat) ∧
    (∃ (h : _) (rs1 : _) (s : State) (s1 : State) (n : _),
      Ready (.cbAdvp h rs1) s ∧
      Gives (readX rs1) s n s1 ∧
      ((s1.thr s1.cur).cbs.get {} h.toNat).valid = true ∧
      ((s1.thr s1.cur).cbs.get {} h.toNat).grantP.toNat < n.toNat) ∧
    (∃ (h : _) (rs1 : _) (s : State) (s1 : State) (n : _),
      Ready (.cbAdvc h rs1) s ∧
      Gives (readX rs1) s n s1 ∧
      ((s1.thr s1.cur).cbs.get {} h.toNat).valid = true ∧
      ((s1.thr s1.cur).cbs.get {} h.toNat).grantC.toNat < n.toNat) ∧
    (∃ (rd : _) (h : _) (rs1 : _) (s : State) (s1 : State) (s2 : State) (n : _) (p : _) (q : _),
      Ready (.cbWfill rd h rs1) s ∧
      Gives (readX rs1) s n s1 ∧
      let c := (s1.thr s1.cur).cbs.get {} h.toNat
      c.valid = true ∧
      Gives (cbCounts c) s1 (p, q) s2 ∧
      n.toNat ≤ cbSlots c.geom ∧
      (p - q).toNat < n.toNat) ∧
    (∃ (rd : _) (h : _) (rs1 : _) (s : State) (s1 : State) (s2 : State) (n : _) (p : _) (q : _),
      Ready (.cbWfree rd h rs1) s ∧
      Gives (readX rs1) s n s1 ∧
      let c := (s1.thr s1.cur).cbs.get {} h.toNat
      c.valid = true ∧
      Gives (cbCounts c) s1 (p, q) s2 ∧
      n.toNat ≤ cbSlots c.geom ∧
      (p - q).toNat ≤ cbSlots c.geom ∧
      cbSlots c.geom < n.toNat + (p - q).toNat) :=
  ⟨⟨7, 2, ((((unitAt [(2, own)]).store 0xF1000000000000 8 0x00F0000000001000).store 0xF1000000000008 8
      0x00F0000000000100).store 0xF1000000000010 8 0x40040), _, _, _, 0x00F0000000001000, 0x00F0000000000100, 0x40040, ready
      (by decide +kernel), gives (by decide +kernel), givesVal (by decide +kernel), by decide +kernel⟩,
    ⟨7, 2, ((((unitAt [(2, own)]).store 0xF1000000000000 8 0x00F0000000001001).store 0xF1000000000008 8
      0x00F0000000000100).store 0xF1000000000010 8 0x40040), _, _, _, 0x00F0000000001001, 0x00F0000000000100, 0x40040, ready
      (by decide +kernel), gives (by decide +kernel), givesVal (by decide +kernel), by decide +kernel⟩,
    ⟨1, 15, 2, ((((unitAt [(2, 2)]).modThr 0 fun th =>
      { th with cbs := ⟨[(15, { base := 0x00F1000000001000, ctrl := 0x00F1000000000100, geom := 0x40040, valid := true, grantP := 2, grantC := 2 })]⟩ }).store
      0xF1000000000100 8 5).store 0xF1000000000108 8 3), _, _, _, _, 5, 3, ready (by decide +kernel), gives (by decide +kernel),
      by decide +kernel, givesVal (by decide +kernel), by decide +kernel, by decide +kernel, givesVal (by decide +kernel)⟩,
    ⟨1, 15, 2, ((((unitAt [(2, 2)]).modThr 0 fun th =>
      { th with cbs := ⟨[(15, { base := 0x00F1000000001000, ctrl := 0x00F1000000000100, geom := 0x40040, valid := true, grantP := 2, grantC := 2 })]⟩ }).store
      0xF1000000000100 8 5).store 0xF1000000000108 8 3), _, _, _, _, 5, 3, ready (by decide +kernel), gives (by decide +kernel),
      by decide +kernel, givesVal (by decide +kernel), by decide +kernel, givesVal (by decide +kernel)⟩,
    ⟨15, 2, ((((unitAt [(2, 2)]).modThr 0 fun th =>
      { th with cbs := ⟨[(15, { base := 0x00F1000000001000, ctrl := 0x00F1000000000100, geom := 0x40040, valid := true, grantP := 2, grantC := 2 })]⟩ }).store
      0xF1000000000100 8 5).store 0xF1000000000108 8 3), _, _, _, ready (by decide +kernel), gives (by decide +kernel),
      by decide +kernel, by decide +kernel, givesVal (by decide +kernel)⟩,
    ⟨15, 2, ((((unitAt [(2, 2)]).modThr 0 fun th =>
      { th with cbs := ⟨[(15, { base := 0x00F1000000001000, ctrl := 0x00F1000000000100, geom := 0x40040, valid := true, grantP := 2, grantC := 2 })]⟩ }).store
      0xF1000000000100 8 5).store 0xF1000000000108 8 3), _, _, _, ready (by decide +kernel), gives (by decide +kernel),
      by decide +kernel, by decide +kernel, givesVal (by decide +kernel)⟩,
    ⟨1, 7, 2, (unitAt [(2, 2)]), _, _, readyAll (by decide +kernel), gives (by decide +kernel), by decide +kernel⟩,
    ⟨1, 15, 2, ((unitAt [(2, 5)]).modThr 0 fun th =>
      { th with cbs := ⟨[(15, { base := 0x00F1000000001000, ctrl := 0x00F1000000000100, geom := 0x40040, valid := true, grantP := 2, grantC := 2 })]⟩ }),
      _, _, bothReady (ready (by decide +kernel)) (ready (by decide +kernel)), gives (by decide +kernel), by decide +kernel⟩,
    ⟨1, 15, 2, ((((unitAt [(2, 4)]).modThr 0 fun th =>
      { th with cbs := ⟨[(15, { base := 0x00F1000000001000, ctrl := 0x00F1000000000100, geom := 0x40040, valid := true, grantP := 2, grantC := 2 })]⟩ }).store
      0xF1000000000100 8 8).store 0xF1000000000108 8 3), _, _, _, 8, 3, bothReady (ready (by decide +kernel)) (ready
      (by decide +kernel)), gives (by decide +kernel), by decide +kernel, by decide +kernel, givesVal (by decide +kernel),
      by decide +kernel⟩,
    ⟨15, 2, ((unitAt [(2, 3)]).modThr 0 fun th =>
      { th with cbs := ⟨[(15, { base := 0x00F1000000001000, ctrl := 0x00F1000000000100, geom := 0x40040, valid := true, grantP := 2, grantC := 2 })]⟩ }),
      _, _, ready (by decide +kernel), gives (by decide +kernel), by decide +kernel⟩,
    ⟨15, 2, ((unitAt [(2, 3)]).modThr 0 fun th =>
      { th with cbs := ⟨[(15, { base := 0x00F1000000001000, ctrl := 0x00F1000000000100, geom := 0x40040, valid := true, grantP := 2, grantC := 2 })]⟩ }),
      _, _, ready (by decide +kernel), gives (by decide +kernel), by decide +kernel⟩,
    ⟨1, 15, 2, ((((unitAt [(2, 4)]).modThr 0 fun th =>
      { th with cbs := ⟨[(15, { base := 0x00F1000000001000, ctrl := 0x00F1000000000100, geom := 0x40040, valid := true, grantP := 2, grantC := 2 })]⟩ }).store
      0xF1000000000100 8 5).store 0xF1000000000108 8 3), _, _, _, 5, 3, ready (by decide +kernel), gives (by decide +kernel),
      by decide +kernel, givesVal (by decide +kernel), by decide +kernel⟩,
    ⟨1, 15, 2, ((((unitAt [(2, 4)]).modThr 0 fun th =>
      { th with cbs := ⟨[(15, { base := 0x00F1000000001000, ctrl := 0x00F1000000000100, geom := 0x40040, valid := true, grantP := 2, grantC := 2 })]⟩ }).store
      0xF1000000000100 8 5).store 0xF1000000000108 8 3), _, _, _, 5, 3, ready (by decide +kernel), gives (by decide +kernel),
      by decide +kernel, givesVal (by decide +kernel), by decide +kernel⟩⟩

/-- The hypotheses of Fills can be met. -/
theorem meets_Fills :
    (∃ (s s1 : State) (tid : _) (va : Word) (l : _),
      s.mayFill tid va.toNat = true ∧
      placeOf (coreOf tid) va.toNat = .page ∧
      (∀ x ∈ (s.core (coreOf tid)).icache.get [] (isetOf va.toNat), x.va ≠ va.toNat / 64 * 64) ∧
      Gives (fillICache (s.agent tid) va.toNat) s l s1) ∧
    (∃ (s s1 s2 s3 : State) (tid : _) (va : Word) (x : _) (b : _),
      (s.thr tid).st ≠ .empty ∧
      placeOf (coreOf tid) va.toNat = .page ∧
      Gives (heldBlock (s.agent tid) va.toNat) s none s1 ∧
      Gives (translate (s.agent tid) va.toNat needR) s1 (.ok x) s2 ∧
      x.pa < 2 ^ 47 ∧
      Gives (fillBlock (s.agent tid) va.toNat x .default) s2 (.ok b) s3) ∧
    (∃ (s s1 : State) (tid : Nat) (dom : Nat) (r : _),
      (s.thr tid).st ≠ .empty ∧
      Gives (rightsOf (s.agent tid) (BitVec.ofNat 16 dom)) s r s1) ∧
    (∃ (s s1 : State) (tid : _) (va : Word) (acc : _) (x : _),
      (s.thr tid).st ≠ .empty ∧
      placeOf (coreOf tid) va.toNat = .page ∧
      (∀ e ∈ (s.cluster (xlatOf (coreOf tid))).xlat, ¬ (e.page ≤ va.toNat ∧ va.toNat < e.page + e.size)) ∧
      Gives (walk (s.agent tid) va.toNat (accessNeed acc) false) s (.ok x) s1) ∧
    (∃ (s : State) (tid : _) (va : Word),
      s.mayFill tid va.toNat = false) :=
  ⟨⟨(State.reset.withFetchWord 32 0x13), _, 0, 0x3C, _, by decide +kernel, by decide +kernel, by decide +kernel, @gives _ ⟨{}⟩
      _ _ (by decide +kernel)⟩,
    ⟨(State.reset.withFetchWord 32 0x13), _, _, _, 0, 0x200, _, _, by decide +kernel, by decide +kernel, givesVal
      (by decide +kernel), @givesOk _ _ ⟨⟨0, 0, false, 0⟩⟩ _ _ (by decide +kernel), by decide +kernel, @givesOk _ _ ⟨{}⟩ _ _
      (by decide +kernel)⟩,
    ⟨(State.reset.withFetchWord 32 0x13), _, 0, 1, .ok 15, by decide +kernel, givesOkVal (by decide +kernel)⟩,
    ⟨((State.reset.withFetchWord 32 0x13).modCluster 0 fun c => { c with xlat := [] }), _, 0, 0x200000, .load, _,
      by decide +kernel, by decide +kernel, by decide +kernel, @givesOk _ _ ⟨⟨0, 0, false, 0⟩⟩ _ _ (by decide +kernel)⟩,
    ⟨(State.reset.withFetchWord 32 0x13), 0, 0x40, by decide +kernel⟩⟩

/-- The hypotheses of HeadBinding can be met. -/
theorem meets_HeadBinding :
    (∃ (rd : _) (h : _) (rs1 : _) (s : State) (s1 : State) (s2 : State) (a : _),
      Ready (.hdAcq rd h rs1) s ∧
      coreOf s.cur < 2048 ∧
      Gives (readX rs1) s a s1 ∧
      let c := clusterOf (coreOf s1.cur)
      let k := a.toNat % 2048
      let w := s1.seatTracks ((s1.thr s1.cur).seat.getD 0) c
      ((s1.thr s1.cur).head h.toNat).hs = .unbound ∧
      w.base ≤ k ∧
      k < w.base + w.count ∧
      k < s1.cmBaseOf c ∧
      (s1.track c k).formatting = false ∧
      s1.boundHeads c k = [] ∧
      Gives (writeX rd 0) ((s1.setHead s1.cur h.toNat
        { hs := .owned, sh := a.getLsbD 11, grp := if a.getLsbD 11 then a.extractLsb' 12 8 else 0, track := BitVec.ofNat 11 k }).modTrack
        c k fun y => { y with owner := some { tid := s1.cur, h := h } }) () s2) ∧
    (∃ (rd : _) (h : _) (rs1 : _) (s : State) (s1 : State) (s2 : State) (a : _),
      Ready (.hdAcq rd h rs1) s ∧
      coreOf s.cur < 2048 ∧
      Gives (readX rs1) s a s1 ∧
      let c := clusterOf (coreOf s1.cur)
      let k := a.toNat % 2048
      let w := s1.seatTracks ((s1.thr s1.cur).seat.getD 0) c
      ((s1.thr s1.cur).head h.toNat).hs = .unbound ∧
      w.base ≤ k ∧
      k < w.base + w.count ∧
      k < s1.cmBaseOf c ∧
      a.getLsbD 11 = false ∧
      s1.boundHeads c k ≠ [] ∧
      Gives (writeX rd (BitVec.ofInt 64 (-1))) s1 () s2) ∧
    (∃ (rd : _) (h : _) (rs1 : _) (s : State) (s1 : State) (s2 : State) (a : _),
      Ready (.hdAcq rd h rs1) s ∧
      coreOf s.cur < 2048 ∧
      Gives (readX rs1) s a s1 ∧
      let c := clusterOf (coreOf s1.cur)
      let k := a.toNat % 2048
      let seat := (s1.thr s1.cur).seat.getD 0
      let w := s1.seatTracks seat c
      ((s1.thr s1.cur).head h.toNat).hs = .unbound ∧
      w.base ≤ k ∧
      k < w.base + w.count ∧
      k < s1.cmBaseOf c ∧
      a.getLsbD 11 = true ∧
      (s1.track c k).formatting = false ∧
      s1.boundHeads c k ≠ [] ∧
      (∀ b ∈ s1.boundHeads c k, b.2.sh = true ∧ b.2.grp = a.extractLsb' 12 8 ∧ (s1.thr b.1.tid).seat = some seat) ∧
      Gives (writeX rd 1) (enterQueue c k { tid := s1.cur, h := h } (s1.setHead s1.cur h.toNat
        { hs := .sharedWait, sh := true, grp := a.extractLsb' 12 8, track := BitVec.ofNat 11 k })) () s2) ∧
    (∃ (rd : _) (h : _) (rs1 : _) (s : State) (s1 : State) (a : Word),
      Ready (.hdAcq rd h rs1) s ∧
      coreOf s.cur < 2048 ∧
      Gives (readX rs1) s a s1 ∧
      ((s1.thr s1.cur).head h.toNat).hs ≠ .unbound) ∧
    (∃ (rd : _) (h : _) (rs1 : _) (s : State) (s1 : State) (a : Word),
      Ready (.hdAcq rd h rs1) s ∧
      coreOf s.cur < 2048 ∧
      Gives (readX rs1) s a s1 ∧
      let w := s1.seatTracks ((s1.thr s1.cur).seat.getD 0) (clusterOf (coreOf s1.cur))
      ((s1.thr s1.cur).head h.toNat).hs = .unbound ∧
      w.base + w.count ≤ a.toNat % 2048) ∧
    (∃ (h : _) (s : State),
      Ready (.hdRel h false) s ∧
      coreOf s.cur < 2048 ∧
      ((s.thr s.cur).head h.toNat).hs ≠ .unbound) ∧
    (∃ (h : _) (s : State),
      Ready (.hdRel h true) s ∧
      coreOf s.cur < 2048 ∧
      ((s.thr s.cur).head h.toNat).hs = .owned ∧
      ((s.thr s.cur).head h.toNat).sh = false) ∧
    (∃ (h : _) (s : State),
      Ready (.hdRel h true) s ∧
      coreOf s.cur < 2048 ∧
      ((s.thr s.cur).head h.toNat).hs = .owned ∧
      ((s.thr s.cur).head h.toNat).sh = true ∧
      (s.track (clusterOf (coreOf s.cur)) ((s.thr s.cur).head h.toNat).track.toNat).queue ≠ []) ∧
    (∃ (rd : _) (h : _) (s : State) (s1 : State),
      Ready (.hdPos rd h) s ∧
      coreOf s.cur < 2048 ∧
      ((s.thr s.cur).head h.toNat).hs ≠ .unbound ∧
      Gives (writeX rd (BitVec.ofNat 64 ((s.thr s.cur).head h.toNat).pos.toNat)) s () s1) ∧
    (∃ (rd : _) (h : _) (s : State) (s1 : State),
      Ready (.hdChk rd h false) s ∧
      coreOf s.cur < 2048 ∧
      ((s.thr s.cur).head h.toNat).hs ≠ .unbound ∧
      Gives (writeX rd (BitVec.ofNat 64 ((s.thr s.cur).head h.toNat).dw1)) s () s1) ∧
    (∃ (rd : _) (h : _) (s : State) (s1 : State) (a : HAccess) (c : Word),
      Ready (.hdChk rd h true) s ∧
      coreOf s.cur < 2048 ∧
      let x := (s.thr s.cur).head h.toNat
      (x.hs = .owned ∨ x.hs = .error) ∧
      x.acc = some a ∧
      a.fatal = none ∧
      a.result = some c ∧
      Gives (writeX rd c) (s.setHead s.cur h.toNat { x with hs := .owned, tflag := false, acc := none }) () s1) ∧
    (∃ (h : _) (rs1 : _) (s : State) (s1 : State) (s2 : State) (a : _),
      Ready (.hdSave h rs1) s ∧
      coreOf s.cur < 2048 ∧
      Gives (readX rs1) s a s1 ∧
      let x := (s1.thr s1.cur).head h.toNat
      x.hs ≠ .unbound ∧
      a.toNat % 64 = 0 ∧
      Gives
        (do for i in List.range 8 do memWrite (a + BitVec.ofNat 64 (8 * i)) 8 (if i = 0 then x.dw0 else if i = 1 then x.dw1 else 0) {})
        s1 () s2) ∧
    (∃ (h : _) (rs1 : _) (s : State) (s1 : State) (s2 : State) (a : _) (ws : _),
      Ready (.hdLoad h rs1) s ∧
      coreOf s.cur < 2048 ∧
      Gives (readX rs1) s a s1 ∧
      ((s1.thr s1.cur).head h.toNat).hs = .unbound ∧
      a.toNat % 64 = 0 ∧
      Gives ((List.range 8).mapM fun i => memRead (a + BitVec.ofNat 64 (8 * i)) 8 {}) s1 ws s2) ∧
    (∃ (rd : _) (h : _) (s : State),
      (∀ i ∈ [Instr.hdRel h false, .hdRel h true, .hdPos rd h, .hdChk rd h false, .hdChk rd h true], Ready i s) ∧
      coreOf s.cur < 2048 ∧
      ((s.thr s.cur).head h.toNat).hs = .unbound) ∧
    (∃ (h : _) (rs1 : _) (s : State) (s1 : State) (a : _),
      Ready (.hdSave h rs1) s ∧
      coreOf s.cur < 2048 ∧
      Gives (readX rs1) s a s1 ∧
      ((s1.thr s1.cur).head h.toNat).hs = .unbound) :=
  ⟨⟨1, 7, 2, (unitAt [(2, 15)]), _, _, _, ready (by decide +kernel), by decide +kernel, gives (by decide +kernel),
      by decide +kernel, by decide +kernel, by decide +kernel, of_decide_eq_true (by decide +kernel), by decide +kernel,
      by decide +kernel, givesVal (by decide +kernel)⟩,
    ⟨1, 7, 2, ((unitAt [(2, 5)]).modThr 1 fun th => { th with heads := ⟨[(0, { hs := .owned, track := 5 })]⟩ }), _, _, _, ready
      (by decide +kernel), by decide +kernel, gives (by decide +kernel), by decide +kernel, by decide +kernel,
      by decide +kernel, of_decide_eq_true (by decide +kernel), by decide +kernel, by decide +kernel, givesVal
      (by decide +kernel)⟩,
    ⟨1, 7, 2, ((unitAt [(2, 0x7805)]).modThr 1 fun th =>
      { th with seat := some 16, heads := ⟨[(0, { hs := .owned, sh := true, grp := 7, track := 5 })]⟩ }), _, _, _, ready
      (by decide +kernel), by decide +kernel, gives (by decide +kernel), by decide +kernel, by decide +kernel,
      by decide +kernel, of_decide_eq_true (by decide +kernel), by decide +kernel, by decide +kernel, by decide +kernel,
      of_decide_eq_true (by decide +kernel), givesVal (by decide +kernel)⟩,
    ⟨1, 7, 2, ((unitAt [(2, 5)]).modThr 0 fun th => { th with heads := ⟨[(7, { hs := .owned, track := 5 })]⟩ }), _, _, ready
      (by decide +kernel), by decide +kernel, gives (by decide +kernel), by decide +kernel⟩,
    ⟨1, 7, 2, (unitAt [(2, 16)]), _, _, ready (by decide +kernel), by decide +kernel, gives (by decide +kernel),
      by decide +kernel⟩,
    ⟨7, ((unitAt []).modThr 0 fun th => { th with heads := ⟨[(7, { hs := .owned, track := 5 })]⟩ }), ready (by decide +kernel),
      by decide +kernel⟩,
    ⟨7, ((unitAt []).modThr 0 fun th => { th with heads := ⟨[(7, { hs := .owned, track := 5, pos := 4095 })]⟩ }), ready
      (by decide +kernel), by decide +kernel⟩,
    ⟨7, (((unitAt []).modThr 0 fun th => { th with heads := ⟨[(7, { hs := .owned, sh := true, track := 5 })]⟩ }).modTrack 0 5
      fun k => { k with owner := some { tid := 0, h := 7 }, queue := [(16, { tid := 1, h := 0 })] }), ready (by decide +kernel),
      by decide +kernel⟩,
    ⟨1, 7, ((unitAt []).modThr 0 fun th => { th with heads := ⟨[(7, { hs := .owned, track := 5, pos := 4095 })]⟩ }), _, ready
      (by decide +kernel), by decide +kernel, by decide +kernel, givesVal (by decide +kernel)⟩,
    ⟨1, 7, ((unitAt []).modThr 0 fun th => { th with heads := ⟨[(7, { hs := .owned, track := 5, pos := 4095 })]⟩ }), _, ready
      (by decide +kernel), by decide +kernel, by decide +kernel, givesVal (by decide +kernel)⟩,
    ⟨1, 7, ((unitAt []).modThr 0 fun th =>
      { th with heads := ⟨[(7, { hs := .owned, track := 5, acc := some { result := some 3 } })]⟩ }), _, { result := some 3 }, 3,
      ready (by decide +kernel), by decide +kernel, by decide +kernel, by decide +kernel, of_decide_eq_true (by decide +kernel),
      by decide +kernel, givesVal (by decide +kernel)⟩,
    ⟨7, 2, ((unitAt [(2, own)]).modThr 0 fun th => { th with heads := ⟨[(7, { hs := .owned, track := 5 })]⟩ }), _, _, _, ready
      (by decide +kernel), by decide +kernel, gives (by decide +kernel), by decide +kernel, by decide +kernel, givesVal
      (by decide +kernel)⟩,
    ⟨7, 2, ((unitAt [(2, own)]).store 0xF1000000000000 8 0x9000000500000000), _, _, _, _, ready (by decide +kernel),
      by decide +kernel, gives (by decide +kernel), by decide +kernel, by decide +kernel, gives (by decide +kernel)⟩,
    ⟨1, 7, (unitAt []), readyAll (by decide +kernel), by decide +kernel⟩,
    ⟨7, 2, (unitAt [(2, own)]), _, _, ready (by decide +kernel), by decide +kernel, gives (by decide +kernel),
      by decide +kernel⟩⟩

/-- The hypotheses of HeadMoves can be met. -/
theorem meets_HeadMoves :
    (∃ (h : _) (rs1 : _) (rs2 : _) (s : State) (s1 : State) (s2 : State) (p : _) (c : _),
      Ready (.hdSeek h rs1 rs2) s ∧
      coreOf s.cur < 2048 ∧
      Gives (readX rs1) s p s1 ∧
      Gives (readX rs2) s1 c s2 ∧
      let x := (s2.thr s2.cur).head h.toNat
      let k := s2.track (clusterOf (coreOf s2.cur)) x.track.toNat
      x.hs = .owned ∧
      k.flag = false) ∧
    (∃ (h : _) (rs1 : _) (rs2 : _) (s : State) (s1 : State) (s2 : State) (p : _) (c : _),
      Ready (.hdSeek h rs1 rs2) s ∧
      coreOf s.cur < 2048 ∧
      Gives (readX rs1) s p s1 ∧
      Gives (readX rs2) s1 c s2 ∧
      let x := (s2.thr s2.cur).head h.toNat
      let k := s2.track (clusterOf (coreOf s2.cur)) x.track.toNat
      x.hs = .owned ∧
      k.flag = false) ∧
    (∃ (h : _) (s : State),
      Ready (.hdRew h) s ∧
      coreOf s.cur < 2048 ∧
      let x := (s.thr s.cur).head h.toNat
      let k := s.track (clusterOf (coreOf s.cur)) x.track.toNat
      x.hs = .owned ∧
      k.flag = false) ∧
    (∃ (rd : _) (h : _) (s : State) (s1 : State),
      Ready (.hdRds rd h) s ∧
      coreOf s.cur < 2048 ∧
      let c := clusterOf (coreOf s.cur)
      let x := (s.thr s.cur).head h.toNat
      let k := s.track c x.track.toNat
      let w := k.shown x.pos.toNat
      x.hs = .owned ∧
      x.acc = none ∧
      k.flag = false ∧
      k.shifts = [] ∧
      shiftToward k.off.toNat x.pos.toNat = 0 ∧
      checkWord w x.pos.toNat false = .pass ∧
      w.errs = 0 ∧
      Gives (writeX rd w.data) (askShift c x.track.toNat
        { by_ := if x.dir then -(x.step.toNat : Int) else x.step.toNat, kind := .step, seat := (s.thr s.cur).seat.getD 0, head := { tid := s.cur, h := h } }
        (s.setHead s.cur h.toNat
        { x with lastTag := w.tag, acc := none, pos := if x.dir then x.pos - x.step.zeroExtend 12 else x.pos + x.step.zeroExtend 12 }))
        () s1) ∧
    (∃ (h : _) (rs1 : _) (s : State) (s1 : State) (v : _),
      Ready (.hdWrs h rs1) s ∧
      coreOf s.cur < 2048 ∧
      Gives (readX rs1) s v s1 ∧
      let c := clusterOf (coreOf s1.cur)
      let x := (s1.thr s1.cur).head h.toNat
      let k := s1.track c x.track.toNat
      let w := k.shown x.pos.toNat
      x.hs = .owned ∧
      x.acc = none ∧
      k.flag = false ∧
      k.shifts = [] ∧
      shiftToward k.off.toNat x.pos.toNat = 0 ∧
      checkWord w x.pos.toNat true = .pass) ∧
    (∃ (rd : _) (h : _) (rs1 : _) (rs2 : _) (s : State) (s1 : State) (s2 : State) (a : _) (b : _),
      coreOf s.cur < 2048 ∧
      Gives (readX rs1) s a s1 ∧
      Gives (readX rs2) s1 b s2 ∧
      let x := (s.thr s.cur).head h.toNat
      x.hs = .owned ∧
      x.acc = none ∧
      (s.track (clusterOf (coreOf s.cur)) x.track.toNat).flag = true ∧
      (∀ i ∈ [Instr.hdSeek h rs1 rs2, .hdRew h, .hdRds rd h, .hdWrs h rs1], Ready i s) ∧
      (s.thr s.cur).fused = false) :=
  ⟨⟨7, 2, 3, ((unitAt [(2, 4095), (3, 0x18)]).modThr 0 fun th => { th with heads := ⟨[(7, { hs := .owned, track := 5 })]⟩ }),
      _, _, _, _, ready (by decide +kernel), by decide +kernel, gives (by decide +kernel), gives (by decide +kernel),
      by decide +kernel⟩,
    ⟨7, 2, 3, ((unitAt [(2, 0), (3, 1)]).modThr 0 fun th => { th with heads := ⟨[(7, { hs := .owned, track := 5 })]⟩ }), _, _,
      _, _, ready (by decide +kernel), by decide +kernel, gives (by decide +kernel), gives (by decide +kernel),
      by decide +kernel⟩,
    ⟨7, ((unitAt []).modThr 0 fun th => { th with heads := ⟨[(7, { hs := .owned, track := 5, mark := 9 })]⟩ }), ready
      (by decide +kernel), by decide +kernel⟩,
    ⟨1, 7, ((unitAt []).modThr 0 fun th => { th with heads := ⟨[(7, { hs := .owned, track := 5 })]⟩ }), _, ready
      (by decide +kernel), by decide +kernel, by decide +kernel, by decide +kernel, of_decide_eq_true (by decide +kernel),
      by decide +kernel, by decide +kernel, by decide +kernel, of_decide_eq_true (by decide +kernel), givesVal
      (by decide +kernel)⟩,
    ⟨7, 2, ((unitAt [(2, 77)]).modThr 0 fun th => { th with heads := ⟨[(7, { hs := .owned, track := 5 })]⟩ }), _, _, ready
      (by decide +kernel), by decide +kernel, gives (by decide +kernel), by decide +kernel⟩,
    ⟨1, 7, 2, 3, (((unitAt [(2, 3), (3, 1)]).modThr 0 fun th =>
      { th with heads := ⟨[(7, { hs := .owned, track := 5 })]⟩ }).modTrack 0 5 fun k => { k with flag := true }), _, _, _, _,
      by decide +kernel, gives (by decide +kernel), gives (by decide +kernel), by decide +kernel, by decide +kernel,
      by decide +kernel, readyAll (by decide +kernel), by decide +kernel⟩⟩

/-- The hypotheses of TrackEvents can be met. -/
theorem meets_TrackEvents :
    (∃ (s : State) (c : _) (k : _) (r : _),
      (s.track c k).owner = none ∧
      s.nextOwner c k = some r ∧
      ((s.thr r.tid).head r.h.toNat).hs = .sharedWait) ∧
    (∃ (s : State) (c : _) (k : _) (r : _),
      (s.track c k).owner = none ∧
      s.nextOwner c k = some r ∧
      let x := (s.thr r.tid).head r.h.toNat
      let d := shiftToward (s.track c k).finalOff x.pos.toNat
      x.hs = .reacq ∧
      d ≠ 0) ∧
    (∃ (s : State) (c : _) (k : _) (x : _) (l : _),
      (s.track c k).shifts = x :: l ∧
      x.granted = true ∧
      x.kind = .step) ∧
    (∃ (s : State) (c : _) (k : _) (x : _),
      (s.track c k).shifts = [x] ∧
      x.granted = true ∧
      x.kind = .back ∧
      (s.track c k).owner = some x.head ∧
      ((s.thr x.head.tid).head x.head.h.toNat).hs = .reacq ∧
      ((s.thr x.head.tid).head x.head.h.toNat).track.toNat = k) ∧
    (∃ (s : State) (c : _) (k : _) (x : _),
      (s.grantable c).find? (fun e => e.1 == k) = some (k, x) ∧
      (∀ e ∈ s.grantable c, e.2.before x = false)) ∧
    (∃ (s : State) (c : _),
      64 ≤ s.slotsGranted c (fun _ => true)) ∧
    (∃ (s : State) (tid : _) (h : BitVec 3),
      let x := (s.thr tid).head h.toNat
      let k := s.track (clusterOf (coreOf tid)) x.track.toNat
      x.hs = .realign ∧
      k.shifts = [] ∧
      (x.acc.getD {}).fatal = none ∧
      checkWord (k.shown x.pos.toNat) x.pos.toNat (x.acc.getD {}).write = .pass) ∧
    (∃ (s : State) (c : _) (first : _) (count : _) (k : _) (x : _),
      (s.cluster c).tracks.cells.find? (fun e => e.1 == k) = some (k, x) ∧
      x.formatting = true ∧
      first ≤ k ∧
      k < first + count) :=
  ⟨⟨(((unitAt []).modThr 0 fun th => { th with heads := ⟨[(7, { hs := .sharedWait, track := 5 })]⟩ }).modTrack 0 5 fun k =>
      { k with queue := [(16, { tid := 0, h := 7 })] }), 0, 5, { tid := 0, h := 7 }, by decide +kernel⟩,
    ⟨(((unitAt []).modThr 0 fun th => { th with heads := ⟨[(7, { hs := .reacq, track := 5, pos := 3 })]⟩ }).modTrack 0 5 fun k
      => { k with queue := [(16, { tid := 0, h := 7 })] }), 0, 5, { tid := 0, h := 7 }, by decide +kernel⟩,
    ⟨((unitAt []).modTrack 0 5 fun k => { k with shifts := [{ by_ := 1, kind := .step, granted := true }] }), 0, 5,
      { by_ := 1, kind := .step, granted := true }, [], by decide +kernel⟩,
    ⟨(((unitAt []).modThr 0 fun th => { th with heads := ⟨[(7, { hs := .reacq, track := 5 })]⟩ }).modTrack 0 5 fun k =>
      { k with owner := some { tid := 0, h := 7 }, shifts := [{ by_ := 1, kind := .back, granted := true, head := { tid := 0, h := 7 } }] }),
      0, 5, { by_ := 1, kind := .back, granted := true, head := { tid := 0, h := 7 } }, by decide +kernel⟩,
    ⟨((unitAt []).modTrack 0 5 fun k => { k with shifts := [{ by_ := 1, seat := 16 }] }), 0, 5, { by_ := 1, seat := 16 },
      by decide +kernel⟩,
    ⟨((unitAt []).setCluster 0 { tracks := ⟨(List.range 64).map fun i => (i, { shifts := [{ by_ := 1, granted := true }] })⟩ }),
      0, by decide +kernel⟩,
    ⟨((unitAt []).modThr 0 fun th => { th with heads := ⟨[(7, { hs := .realign, track := 5 })]⟩ }), 0, 7, by decide +kernel⟩,
    ⟨((unitAt []).modTrack 0 5 fun k => { k with formatting := true, off := 9 }), 0, 5, 1, 5, { formatting := true, off := 9 },
      by decide +kernel⟩⟩

/-- The hypotheses of Fences can be met. -/
theorem meets_Fences :
    (∃ (scope : _) (pred : _) (succ : _) (s : State),
      Ready (.fenceS scope pred succ) s ∧
      (pred.getLsbD 0 = false ∨ scope = .thr)) ∧
    (∃ (scope : _) (pred : _) (succ : _) (s : State),
      Ready (.fenceS scope pred succ) s ∧
      (pred.getLsbD 0 = false ∨ scope = .thr)) ∧
    (∃ (scope : _) (pred : _) (succ : _) (s : State) (s1 : State),
      Ready (.fenceS scope pred succ) s ∧
      pred.getLsbD 0 = true ∧
      scope ≠ .thr ∧
      Gives (release scope) s () s1) ∧
    (∃ (full : _) (scope : _) (s : State),
      Ready (.acq full scope) s ∧
      (full = false ∨ scopeCached scope = true)) ∧
    (∃ (full : _) (scope : _) (s : State),
      Ready (.acq full scope) s ∧
      (full = false ∨ scopeCached scope = true)) ∧
    (∃ (scope : _) (s : State) (s1 : State),
      Ready (.acq true scope) s ∧
      scopeCached scope = false ∧
      Gives acquireFull s () s1) ∧
    (∃ (scope : _) (s : State),
      Ready (.rel scope) s) ∧
    (∃ (add : _) (scope : _) (rs1 : _) (rs2 : _) (s : State) (s1 : State) (s2 : State) (s3 : State) (s4 : State) (s5 : State) (s6 : State) (s7 : State) (a : _) (v : _) (h : _),
      Ready (.sigPub add scope rs1 rs2) s ∧
      Gives (readX rs1) s a s1 ∧
      Gives (readX rs2) s1 v s2 ∧
      a.toNat % 128 = 0 ∧
      Gives (homeOrTrap 6 a needRW 128) s2 h s3 ∧
      Gives settleRelease s3 () s4 ∧
      s5 = s4 ∧
      Gives (release scope) s5 () s6 ∧
      let n := coreOf s6.cur
      let seat := (s6.thr s6.cur).seat.getD 0
      Gives (publish h (.pub add v ((s6.core n).sigs.get 0 seat))) (s6.modCore n fun c => { c with sigs := c.sigs.set seat 0 })
        () s7) ∧
    (∃ (scope : _) (rd : _) (rs1 : _) (s : State) (s1 : State) (s2 : State) (s3 : State) (s4 : State) (s5 : State) (a : _) (h : _),
      Ready (.sigInv scope rd rs1) s ∧
      Gives (readX rs1) s a s1 ∧
      a.toNat % 128 = 0 ∧
      Gives (homeOrTrap 5 a needR 128) s1 h s2 ∧
      (∃ m off, h = .bank m off ∧ Gives
        (do waitOwnStores (s1.agent s1.cur) h.addr 128; performSent (coreOf s1.cur) m ; request (s1.agent s1.cur) h.addr 0 128)
        s2 () s3) ∧
      s3.poisonAt h.addr = none ∧
      s3.poisonAt (h.addr + 64) = none ∧
      Gives (acquireSig scope (BitVec.ofNat 512 (s3.load (h.addr + 64) 64))) s3 () s4 ∧
      Gives (writeX rd (BitVec.ofNat 64 (s3.load h.addr 8))) s4 () s5) ∧
    (∃ (scope : _) (rd : _) (rs1 : _) (s : State) (s1 : State) (s2 : State) (s3 : State) (s4 : State) (s5 : State) (s6 : State) (a : _) (c : _) (off : _),
      Ready (.sigInv scope rd rs1) s ∧
      Gives (readX rs1) s a s1 ∧
      a.toNat % 128 = 0 ∧
      Gives (homeOrTrap 5 a needR 128) s1 (.cm c off) s2 ∧
      Gives
        (do waitOwnStores (s1.agent s1.cur) (cmAddr c off) 128; performSent (coreOf s1.cur) (8192 + c) ; request (s1.agent s1.cur) (cmAddr c off) 0 128)
        s2 () s3 ∧
      Gives (cmExpand (s1.agent s1.cur) c (off / 512)) s3 (.ok ()) s4 ∧
      s4.poisonAt (cmAddr c off) = none ∧
      s4.poisonAt (cmAddr c off + 64) = none ∧
      Gives (acquireSig scope (BitVec.ofNat 512 (s4.load (cmAddr c off + 64) 64))) s4 () s5 ∧
      Gives (writeX rd (BitVec.ofNat 64 (s4.load (cmAddr c off) 8))) s5 () s6) ∧
    (∃ (scope : _) (rd : _) (rs1 : _) (s : State) (s1 : State) (s2 : State) (s3 : State) (s4 : State) (s5 : State) (s6 : State) (s7 : State) (s8 : State) (s9 : State) (a : _) (va : _) (x : _) (v : _) (w : _),
      Ready (.sigInv scope rd rs1) s ∧
      Gives (readX rs1) s a s1 ∧
      a.toNat % 128 = 0 ∧
      Gives (homeOrTrap 5 a needR 128) s1 (.page va x) s2 ∧
      let ag := s1.agent s1.cur
      Gives (waitOwnStores ag x.pa 128) s2 () s3 ∧
      Gives (cleanWhere ag (fun b => b.overlaps va 128)) s3 () s4 ∧
      Gives (performBefore ag.core x.pa 128) s4 () s5 ∧
      Gives (readHome ag x.pa 64) s5 (.ok v) s6 ∧
      Gives (readHome ag (x.pa + 64) 64) s6 (.ok w) s7 ∧
      s7.poisonAt x.pa = none ∧
      s7.poisonAt (x.pa + 64) = none ∧
      Gives (do acquireSig scope (BitVec.ofNat 512 (s7.load (x.pa + 64) 64)) ; dropWhere ag (fun b => b.overlaps va 128) false)
        s7 () s8 ∧
      Gives (writeX rd (BitVec.ofNat 64 (s7.load x.pa 8))) s8 () s9) ∧
    (∃ (mask : _) (s : State) (s1 : State) (s2 : State),
      Ready (.fenceEng mask) s ∧
      (if mask.getLsbD 0 then Gives reportHeld s () s1 else s1 = s) ∧
      (∀ e, e < 4 → mask.getLsbD e = true → s1.enginePending s.cur e = false) ∧
      Gives (acquireSig .oct ((List.range 4).foldl (fun x e => if mask.getLsbD e then x ||| (s1.thr s1.cur).engSigs.get 0 e else
        x) 0)) s1 () s2) ∧
    (∃ (mask : _) (s : State) (s1 : State) (s2 : State),
      Ready (.fenceEng mask) s ∧
      (if mask.getLsbD 0 then Gives reportHeld s () s1 else s1 = s) ∧
      (∀ e, e < 4 → mask.getLsbD e = true → s1.enginePending s.cur e = false) ∧
      Gives (acquireSig .oct ((List.range 4).foldl (fun x e => if mask.getLsbD e then x ||| (s1.thr s1.cur).engSigs.get 0 e else
        x) 0)) s1 () s2) :=
  ⟨⟨.part, 2, 1, (unitAt []), ready (by decide +kernel), by decide⟩,
    ⟨.thr, 3, 3, (unitAt []), ready (by decide +kernel), by decide⟩,
    ⟨.part, 3, 3, (unitAt []), _, ready (by decide +kernel), by decide +kernel, by decide +kernel, givesVal (by decide +kernel)⟩,
    ⟨false, .part, (unitAt []), ready (by decide +kernel), by decide⟩,
    ⟨true, .thr, (unitAt []), ready (by decide +kernel), by decide⟩,
    ⟨.part, (unitAt []), _, ready (by decide +kernel), by decide +kernel, givesVal (by decide +kernel)⟩,
    ⟨.host, (unitAt []), ready (by decide +kernel)⟩,
    ⟨true, .part, 2, 3, (unitAt [(2, own), (3, 5)]), _, _, _, _, _, _, _, _, _, _, ready (by decide +kernel), gives
      (by decide +kernel), gives (by decide +kernel), by decide +kernel, @gives _ ⟨.bank 0 0⟩ _ _ (by decide +kernel), givesVal
      (by decide +kernel), rfl, givesVal (by decide +kernel), givesVal (by decide +kernel)⟩,
    ⟨.part, 1, 2, (unitAt [(2, own)]), _, _, _, _, _, _, .bank 0 0, ready (by decide +kernel), gives (by decide +kernel),
      by decide +kernel, givesVal (by decide +kernel), ⟨0, 0, rfl, givesVal (by decide +kernel)⟩, by decide +kernel,
      by decide +kernel, givesVal (by decide +kernel), givesVal (by decide +kernel)⟩,
    ⟨.part, 1, 2, (((unitAt [(2, 0x00F2000000000000)]).modCluster 0 fun c =>
      { c with xlat := [{ page := 0x00F2000000000000, size := 0x40000000, dom := 1 }] }).modCore 0 fun c =>
      { c with plb := [{ seat := 16, dom := 1, nib := 15 }] }), _, _, _, _, _, _, _, 0, 0, ready (by decide +kernel), gives
      (by decide +kernel), by decide +kernel, givesVal (by decide +kernel), givesVal (by decide +kernel), givesOkVal
      (by decide +kernel), by decide +kernel, by decide +kernel, givesVal (by decide +kernel), givesVal (by decide +kernel)⟩,
    ⟨.part, 1, 2, ((State.reset.withFetchWord 32 0x13).modThr 0 fun th => { th with regs := ⟨[(2, 0x200)]⟩ }), _, _, _, _, _, _,
      _, _, _, _, 512, { pa := 512, dom := 1, borrowed := false, size := 0x40000000 }, _, _, ready (by decide +kernel), gives
      (by decide +kernel), by decide +kernel, givesVal (by decide +kernel), givesVal (by decide +kernel), givesVal
      (by decide +kernel), givesVal (by decide +kernel), givesOk (by decide +kernel), givesOk (by decide +kernel),
      by decide +kernel, by decide +kernel, givesVal (by decide +kernel), givesVal (by decide +kernel)⟩,
    ⟨15, (unitAt []), _, _, ready (by decide +kernel), givesVal (by decide +kernel), by decide +kernel, givesVal
      (by decide +kernel)⟩,
    ⟨2, (unitAt []), _, _, ready (by decide +kernel), rfl, by decide +kernel, givesVal (by decide +kernel)⟩⟩

/-- The hypotheses of Atomics can be met. -/
theorem meets_Atomics :
    (∃ (aq rl scx : Bool) (rd rs1 rs2 : Reg) (s s1 s2 s3 s4 s5 s6 s7 s8 s9 : State) (a v e : Word) (h : HomeAt) (old : Word),
      Ready (.amoAdd aq rl scx rd rs1 rs2) s ∧
      Gives (readX rs1) s a s1 ∧
      Gives (readX rs2) s1 v s2 ∧
      (e = 0 ∧ s3 = s2) ∧
      a.toNat % 8 = 0 ∧
      Gives (homeOrTrap 6 a needRW) s3 h s4 ∧
      Gives settleRelease s4 () s5 ∧
      (if rl then Gives (release (if scx then .host else .part)) s5 () s6 else s6 = s5) ∧
      Gives (atomicOld 6 a h) s6 old s7 ∧
      Gives (atomicWrite h (BitVec.ofNat 64 (old.toNat + v.toNat))) s7 () s8 ∧
      Gives (writeX rd old) s8 () s9) ∧
    (∃ (aq rl scx : Bool) (rd rs1 rs2 : Reg) (s s1 s2 s3 s4 s5 s6 s7 s8 s9 : State) (a v e : Word) (h : HomeAt) (old : Word),
      Ready (.amoCas aq rl scx rd rs1 rs2) s ∧
      Gives (readX rs1) s a s1 ∧
      Gives (readX rs2) s1 v s2 ∧
      Gives (readX rd) s2 e s3 ∧
      a.toNat % 8 = 0 ∧
      Gives (homeOrTrap 6 a needRW) s3 h s4 ∧
      Gives settleRelease s4 () s5 ∧
      (if rl then Gives (release (if scx then .host else .part)) s5 () s6 else s6 = s5) ∧
      Gives (atomicOld 6 a h) s6 old s7 ∧
      Gives (atomicWrite h (v)) s7 () s8 ∧
      Gives (writeX rd old) s8 () s9) ∧
    (∃ (s : State) (s1 : State) (m : Nat) (off : Nat),
      off < 0x60000 ∧
      (s.core (coreOf s.cur)).rstores = [] ∧
      Gives (request (s.agent s.cur) (bankAddr m off) 8 8) s () s1 ∧
      s1.poisonAt (bankAddr m off) = none) ∧
    (∃ (s : State) (off : Nat),
      off < 0x60000 ∧
      Memory.wf s.mem) :=
  ⟨⟨true, true, false, 1, 2, 3, (unitAt [(2, own), (3, 5)]), _, _, _, _, _, _, _, _, _, _, _, 0, _, _, ready
      (by decide +kernel), gives (by decide +kernel), gives (by decide +kernel), ⟨rfl, rfl⟩, by decide +kernel, @gives _ ⟨.bank
      0 0⟩ _ _ (by decide +kernel), givesVal (by decide +kernel), givesVal (by decide +kernel), gives (by decide +kernel),
      givesVal (by decide +kernel), givesVal (by decide +kernel)⟩,
    ⟨true, false, false, 1, 2, 3, (unitAt [(2, own), (3, 5)]), _, _, _, _, _, _, _, _, _, _, _, _, _, _, ready
      (by decide +kernel), gives (by decide +kernel), gives (by decide +kernel), gives (by decide +kernel), by decide +kernel,
      @gives _ ⟨.bank 0 0⟩ _ _ (by decide +kernel), givesVal (by decide +kernel), rfl, gives (by decide +kernel), givesVal
      (by decide +kernel), givesVal (by decide +kernel)⟩,
    ⟨(unitAt []), _, 0, 0x5FFF8, by decide +kernel, by decide +kernel, givesVal (by decide +kernel), by decide +kernel⟩,
    ⟨(unitAt []), 0x5FFF8, by decide +kernel⟩⟩

/-- The hypotheses of Reservations can be met. -/
theorem meets_Reservations :
    (∃ (aq : _) (rl : _) (scx : _) (rd : _) (rs1 : _) (s : State) (s1 : State) (s2 : State) (s3 : State) (s4 : State) (s5 : State) (a : _) (h : _) (old : _),
      Ready (.lr aq rl scx rd rs1) s ∧
      Gives (readX rs1) s a s1 ∧
      a.toNat % 8 = 0 ∧
      Gives (homeOrTrap 5 a needR) s1 h s2 ∧
      (if rl then Gives (release (if scx then .host else .part)) s2 () s3 else s3 = s2) ∧
      Gives (atomicOld 5 a h) s3 old s4 ∧
      Gives (writeX rd old) (s4.modThr s4.cur fun th => { th with resv := some { addr := h.addr, cycle := s4.cycle } }) () s5) ∧
    (∃ (aq : _) (rl : _) (scx : _) (rd : _) (rs1 : _) (rs2 : _) (s : State) (s1 : State) (s2 : State) (s3 : State) (s4 : State) (s5 : State) (s6 : State) (s7 : State) (s8 : State) (a : _) (v : _) (h : _) (old : _) (r : _),
      Ready (.sc aq rl scx rd rs1 rs2) s ∧
      Gives (readX rs1) s a s1 ∧
      Gives (readX rs2) s1 v s2 ∧
      a.toNat % 8 = 0 ∧
      Gives (homeOrTrap 6 a needRW) s2 h s3 ∧
      Gives settleRelease s3 () s4 ∧
      (if rl then Gives (release (if scx then .host else .part)) s4 () s5 else s5 = s4) ∧
      Gives (atomicOld 6 a h) s5 old s6 ∧
      (s6.thr s6.cur).resv = some r ∧
      r.addr = h.addr ∧
      s6.cycle < r.cycle + 1024 ∧
      Gives (atomicWrite h v) s6 () s7 ∧
      Gives (writeX rd 0) (s7.modThr s7.cur fun th => { th with resv := none }) () s8) ∧
    (∃ (aq : _) (rl : _) (scx : _) (rd : _) (rs1 : _) (rs2 : _) (s : State) (s1 : State) (s2 : State) (s3 : State) (s4 : State) (s5 : State) (s6 : State) (s8 : State) (a : _) (v : _) (h : _) (old : _),
      Ready (.sc aq rl scx rd rs1 rs2) s ∧
      Gives (readX rs1) s a s1 ∧
      Gives (readX rs2) s1 v s2 ∧
      a.toNat % 8 = 0 ∧
      Gives (homeOrTrap 6 a needRW) s2 h s3 ∧
      Gives settleRelease s3 () s4 ∧
      (if rl then Gives (release (if scx then .host else .part)) s4 () s5 else s5 = s4) ∧
      Gives (atomicOld 6 a h) s5 old s6 ∧
      (∀ r, (s6.thr s6.cur).resv = some r → r.addr ≠ h.addr ∨ r.cycle + 1024 ≤ s6.cycle) ∧
      Gives (writeX rd 1) (s6.modThr s6.cur fun th => { th with resv := none }) () s8) ∧
    (∃ (tid : _) (s : State) (r : _),
      (s.thr tid).resv = some r ∧
      r.cycle + 1024 ≤ s.cycle) ∧
    (∃ (s : State) (a : Nat) (bs : List Byte) (t : Nat) (r : Resv),
      (s.thr t).resv = some r ∧
      r.addr < a + bs.length ∧
      a < r.addr + 8) :=
  ⟨⟨true, true, false, 1, 2, (unitAt [(2, own)]), _, _, _, _, _, _, _, _, ready (by decide +kernel), gives (by decide +kernel),
      by decide +kernel, @gives _ ⟨.bank 0 0⟩ _ _ (by decide +kernel), givesVal (by decide +kernel), gives (by decide +kernel),
      givesVal (by decide +kernel)⟩,
    ⟨true, false, false, 1, 2, 3, ((unitAt [(2, own), (3, 5)]).modThr 0 fun th =>
      { th with resv := some { addr := 0x00F1000000000000, cycle := 0 } }), _, _, _, _, _, _, _, _, _, _, _, _,
      { addr := 0x00F1000000000000, cycle := 0 }, ready (by decide +kernel), gives (by decide +kernel), gives
      (by decide +kernel), by decide +kernel, @gives _ ⟨.bank 0 0⟩ _ _ (by decide +kernel), givesVal (by decide +kernel), rfl,
      gives (by decide +kernel), by decide +kernel, by decide +kernel, by decide +kernel, givesVal (by decide +kernel), givesVal
      (by decide +kernel)⟩,
    ⟨true, true, true, 1, 2, 3, (unitAt [(2, own), (3, 5)]), _, _, _, _, _, _, _, _, _, _, _, ready (by decide +kernel), gives
      (by decide +kernel), gives (by decide +kernel), by decide +kernel, @gives _ ⟨.bank 0 0⟩ _ _ (by decide +kernel), givesVal
      (by decide +kernel), givesVal (by decide +kernel), gives (by decide +kernel), fun r hr => ofNone (by decide +kernel) hr,
      givesVal (by decide +kernel)⟩,
    ⟨0,
      { ((unitAt []).modThr 0 fun th => { th with resv := some { addr := 0x00F1000000000000, cycle := 0 } }) with cycle := 1024 },
      { addr := 0x00F1000000000000, cycle := 0 }, by decide +kernel⟩,
    ⟨((unitAt []).modThr 0 fun th => { th with resv := some { addr := 0x00F1000000000000, cycle := 0 } }), 0x00F1000000000007,
      [1], 0, { addr := 0x00F1000000000000, cycle := 0 }, by decide +kernel⟩⟩

/-- The hypotheses of Barriers can be met. -/
theorem meets_Barriers :
    (∃ (rs1 : _) (rs2 : _) (s : State) (s1 : State) (s2 : State) (i : _) (n : _),
      Ready (.barCfg rs1 rs2) s ∧
      Gives (readX rs1) s i s1 ∧
      Gives (readX rs2) s1 n s2 ∧
      let core := i.toNat % 2048
      let b := i.toNat / 65536 % 32
      let u := flipBarrier core b s2
      let th := s2.thr s2.cur
      core = coreOf s2.cur ∧
      ((u.bar core b).configured = false ∨ (u.bar core b).seat = th.seat.getD 0) ∧
      (u.bar core b).arr = 0 ∧
      (∀ e ∈ u.threads.cells, ∀ w, e.2.regWait = some w → w.sem = true ∨ w.obj ≠ barObj core b ∨ w.done = true) ∧
      1 ≤ n.toNat ∧
      n.toNat ≤ 65535) ∧
    (∃ (rs1 : _) (rs2 : _) (s : State) (s1 : State) (s2 : State) (i : _) (n : _),
      Ready (.barCfg rs1 rs2) s ∧
      Gives (readX rs1) s i s1 ∧
      Gives (readX rs2) s1 n s2 ∧
      i.toNat % 2048 ≠ coreOf s2.cur) ∧
    (∃ (rs1 : _) (rs2 : _) (s : State) (s1 : State) (s2 : State) (i : _) (n : _),
      Ready (.barCfg rs1 rs2) s ∧
      Gives (readX rs1) s i s1 ∧
      Gives (readX rs2) s1 n s2 ∧
      i.toNat % 2048 = coreOf s2.cur ∧
      65535 < n.toNat) ∧
    (∃ (rd : _) (rs1 : _) (s : State) (s1 : State) (s2 : State) (s3 : State) (s4 : State) (i : _) (sig : _),
      Ready (.barArr rd rs1) s ∧
      Gives (readX rs1) s i s1 ∧
      Gives (barName i) s1 () s1 ∧
      let core := i.toNat % 2048
      let b := i.toNat / 65536 % 32
      Gives (releaseSig (coverScope (coreOf s1.cur) core)) s1 sig s2 ∧
      (if core = coreOf s2.cur then s3 = s2 else Gives (sendArrival (dieOf core)) s2 () s3) ∧
      let u := flipBarrier core b s3
      let x := u.bar core b
      x.configured = true ∧
      x.seat = (u.thr u.cur).seat.getD 0 ∧
      Gives (writeX rd (x.phase.zeroExtend 64)) (u.setBar core b { x with arr := x.arr + 1, sig := x.sig ||| sig }) () s4) ∧
    (∃ (rd : _) (rs1 : _) (s : State) (s1 : State) (s2 : State) (s3 : State) (i : _) (sig : _),
      Ready (.barArr rd rs1) s ∧
      Gives (readX rs1) s i s1 ∧
      Gives (barName i) s1 () s1 ∧
      let core := i.toNat % 2048
      Gives (releaseSig (coverScope (coreOf s1.cur) core)) s1 sig s2 ∧
      (if core = coreOf s2.cur then s3 = s2 else Gives (sendArrival (dieOf core)) s2 () s3) ∧
      let u := flipBarrier core (i.toNat / 65536 % 32) s3
      let x := u.bar core (i.toNat / 65536 % 32)
      (x.configured = false ∨ x.seat ≠ (u.thr u.cur).seat.getD 0)) ∧
    (∃ (rd : _) (rs1 : _) (rs2 : _) (s : State) (s1 : State) (s2 : State) (i : _) (p : _),
      (∀ mk ∈ [Instr.barWait, Instr.barWaitN], Ready (mk rd rs1 rs2) s) ∧
      Gives (readX rs1) s i s1 ∧
      Gives (readX rs2) s1 p s2 ∧
      Gives (barName i) s2 () s2 ∧
      (s2.thr s2.cur).objAns = none ∧
      let core := i.toNat % 2048
      let u := flipBarrier core (i.toNat / 65536 % 32) s2
      let x := u.bar core (i.toNat / 65536 % 32)
      (x.configured = false ∨ x.seat ≠ (u.thr u.cur).seat.getD 0)) ∧
    (∃ (rd : _) (rs1 : _) (rs2 : _) (s : State) (s1 : State) (s2 : State) (i : _) (p : _),
      Ready (.barWait rd rs1 rs2) s ∧
      Gives (readX rs1) s i s1 ∧
      Gives (readX rs2) s1 p s2 ∧
      Gives (barName i) s2 () s2 ∧
      (s2.thr s2.cur).objAns = none ∧
      let core := i.toNat % 2048
      let b := i.toNat / 65536 % 32
      let u := flipBarrier core b s2
      let x := u.bar core b
      x.configured = true ∧
      x.seat = (u.thr u.cur).seat.getD 0 ∧
      x.phase.toNat = p.toNat % 65536) ∧
    (∃ (rd : _) (rs1 : _) (rs2 : _) (s : State) (s1 : State) (s2 : State) (s3 : State) (s4 : State) (i : _) (p : _),
      Ready (.barWait rd rs1 rs2) s ∧
      Gives (readX rs1) s i s1 ∧
      Gives (readX rs2) s1 p s2 ∧
      Gives (barName i) s2 () s2 ∧
      (s2.thr s2.cur).objAns = none ∧
      let core := i.toNat % 2048
      let b := i.toNat / 65536 % 32
      let u := flipBarrier core b s2
      let x := u.bar core b
      x.configured = true ∧
      x.seat = (u.thr u.cur).seat.getD 0 ∧
      x.phase.toNat ≠ p.toNat % 65536 ∧
      Gives (acquireSig (coverScope (coreOf s2.cur) core) x.sig) u () s3 ∧
      Gives (writeX rd (x.phase.zeroExtend 64)) s3 () s4) ∧
    (∃ (rd : _) (rs1 : _) (rs2 : _) (s : State) (s1 : State) (s2 : State) (s3 : State) (s4 : State) (i : _) (p : _) (phase : _) (sig : _),
      Ready (.barWait rd rs1 rs2) s ∧
      Gives (readX rs1) s i s1 ∧
      Gives (readX rs2) s1 p s2 ∧
      Gives (barName i) s2 () s2 ∧
      (s2.thr s2.cur).objAns = some (phase, sig) ∧
      Gives (acquireSig (coverScope (coreOf s2.cur) (i.toNat % 2048)) sig) s2 () s3 ∧
      Gives (writeX rd (phase.zeroExtend 64)) s3 () s4) ∧
    (∃ (rd : _) (rs1 : _) (rs2 : _) (s : State) (s1 : State) (s2 : State) (s3 : State) (s4 : State) (i : _) (p : _),
      Ready (.barWaitN rd rs1 rs2) s ∧
      Gives (readX rs1) s i s1 ∧
      Gives (readX rs2) s1 p s2 ∧
      Gives (barName i) s2 () s2 ∧
      let core := i.toNat % 2048
      let b := i.toNat / 65536 % 32
      let u := flipBarrier core b s2
      let x := u.bar core b
      x.configured = true ∧
      x.seat = (u.thr u.cur).seat.getD 0 ∧
      x.phase.toNat ≠ p.toNat % 65536 ∧
      Gives (acquireSig (coverScope (coreOf u.cur) core) x.sig) u () s3 ∧
      Gives (writeX rd 0) s3 () s4) ∧
    (∃ (rd : _) (rs1 : _) (rs2 : _) (s : State) (s1 : State) (s2 : State) (s3 : State) (i : _) (p : _),
      Ready (.barWaitN rd rs1 rs2) s ∧
      Gives (readX rs1) s i s1 ∧
      Gives (readX rs2) s1 p s2 ∧
      Gives (barName i) s2 () s2 ∧
      let core := i.toNat % 2048
      let b := i.toNat / 65536 % 32
      let u := flipBarrier core b s2
      let x := u.bar core b
      x.configured = true ∧
      x.seat = (u.thr u.cur).seat.getD 0 ∧
      x.phase.toNat = p.toNat % 65536 ∧
      (u.thr u.cur).regWait = none ∧
      Gives (writeX rd 1) (u.modThr u.cur fun th =>
        { th with regWait := some { obj := BitVec.ofNat 16 (2048 * b + core), arg := x.phase } }) () s3) ∧
    (∃ (rd : _) (rs1 : _) (rs2 : _) (s : State) (s1 : State) (s2 : State) (i : _) (p : _),
      Ready (.barWaitN rd rs1 rs2) s ∧
      Gives (readX rs1) s i s1 ∧
      Gives (readX rs2) s1 p s2 ∧
      Gives (barName i) s2 () s2 ∧
      let core := i.toNat % 2048
      let u := flipBarrier core (i.toNat / 65536 % 32) s2
      let x := u.bar core (i.toNat / 65536 % 32)
      x.configured = true ∧
      x.seat = (u.thr u.cur).seat.getD 0 ∧
      x.phase.toNat = p.toNat % 65536 ∧
      (u.thr u.cur).regWait ≠ none) ∧
    (∃ (s : State) (core : _) (b : _),
      (s.bar core b).configured = true ∧
      (s.bar core b).arr = (s.bar core b).count) ∧
    (∃ (s : State) (i : Word),
      (∀ f, partOfSeat ((s.thr s.cur).seat.getD 0) = some f → s.covers f (i.toNat % 2048) = true) ∧
      partOfSeat ((s.thr s.cur).seat.getD 0) ≠ none) :=
  ⟨⟨2, 3, (unitAt [(2, 0x1F0000), (3, 65535)]), _, _, _, _, ready (by decide +kernel), gives (by decide +kernel), gives
      (by decide +kernel), by decide +kernel⟩,
    ⟨2, 3, (unitAt [(2, 0x1F0001), (3, 1)]), _, _, _, _, ready (by decide +kernel), gives (by decide +kernel), gives
      (by decide +kernel), by decide +kernel⟩,
    ⟨2, 3, (unitAt [(2, 0x1F0000), (3, 65536)]), _, _, _, _, ready (by decide +kernel), gives (by decide +kernel), gives
      (by decide +kernel), by decide +kernel⟩,
    ⟨1, 2, ((unitAt [(2, 0x1F0000)]).setBar 0 31 { configured := true, seat := 16, count := 1 }), _, _, _, _, _, _, ready
      (by decide +kernel), gives (by decide +kernel), rfl, gives (by decide +kernel), rfl, by decide +kernel, by decide +kernel,
      givesVal (by decide +kernel)⟩,
    ⟨1, 2, (unitAt [(2, 0x1F0000)]), _, _, _, _, _, ready (by decide +kernel), gives (by decide +kernel), rfl, gives
      (by decide +kernel), rfl, by decide +kernel⟩,
    ⟨1, 2, 3, (unitAt [(2, 0x1F0000), (3, 5)]), _, _, _, _, bothReady (ready (by decide +kernel)) (ready (by decide +kernel)),
      gives (by decide +kernel), gives (by decide +kernel), rfl, by decide +kernel⟩,
    ⟨1, 2, 3, ((unitAt [(2, 0x1F0000), (3, 0x10005)]).setBar 0 31 { configured := true, seat := 16, count := 1, phase := 5 }),
      _, _, _, _, ready (by decide +kernel), gives (by decide +kernel), gives (by decide +kernel), rfl, by decide +kernel⟩,
    ⟨1, 2, 3, ((unitAt [(2, 0x1F0000), (3, 0x10005)]).setBar 0 31 { configured := true, seat := 16, count := 1, phase := 6 }),
      _, _, _, _, _, _, ready (by decide +kernel), gives (by decide +kernel), gives (by decide +kernel), rfl, by decide +kernel,
      by decide +kernel, by decide +kernel, of_decide_eq_true (by decide +kernel), givesVal (by decide +kernel), givesVal
      (by decide +kernel)⟩,
    ⟨1, 2, 3, ((unitAt [(2, 0x1F0000), (3, 5)]).modThr 0 fun th => { th with objAns := some (6, 3) }), _, _, _, _, _, _, 6, 3,
      ready (by decide +kernel), gives (by decide +kernel), gives (by decide +kernel), rfl, by decide +kernel, givesVal
      (by decide +kernel), givesVal (by decide +kernel)⟩,
    ⟨1, 2, 3, ((unitAt [(2, 0x1F0000), (3, 5)]).setBar 0 31 { configured := true, seat := 16, count := 1, phase := 6 }), _, _,
      _, _, _, _, ready (by decide +kernel), gives (by decide +kernel), gives (by decide +kernel), rfl, by decide +kernel,
      by decide +kernel, by decide +kernel, givesVal (by decide +kernel), givesVal (by decide +kernel)⟩,
    ⟨1, 2, 3, ((unitAt [(2, 0x1F0000), (3, 0x10005)]).setBar 0 31 { configured := true, seat := 16, count := 1, phase := 5 }),
      _, _, _, _, _, ready (by decide +kernel), gives (by decide +kernel), gives (by decide +kernel), rfl, by decide +kernel,
      by decide +kernel, by decide +kernel, of_decide_eq_true (by decide +kernel), givesVal (by decide +kernel)⟩,
    ⟨1, 2, 3, (((unitAt [(2, 0x1F0000), (3, 0x10005)]).setBar 0 31
      { configured := true, seat := 16, count := 1, phase := 5 }).modThr 0 fun th =>
      { th with regWait := some { obj := 0xF800, arg := 5 } }), _, _, _, _, ready (by decide +kernel), gives
      (by decide +kernel), gives (by decide +kernel), rfl, by decide +kernel⟩,
    ⟨(((unitAt []).setBar 0 31 { configured := true, seat := 16, count := 1, arr := 1, phase := 65535 }).modThr 0 fun th =>
      { th with barWait := some (0xF800, 65535) }), 0, 31, by decide +kernel⟩,
    ⟨(unitAt []), 0x1F0000, fun f hf => ofSome (a := 1) (P := fun f => (unitAt []).covers f 0 = true) (by decide +kernel) hf
      (by decide +kernel), by decide +kernel⟩⟩

/-- The hypotheses of Domains can be met. -/
theorem meets_Domains :
    (∃ (rd : _) (k : _) (s : State),
      Ready (.domSync rd k) s ∧
      (s.thr s.cur).memb.getLsbD k.toNat = false) ∧
    (∃ (rd : _) (k : _) (s : State) (s1 : State) (s2 : State) (sig : _),
      Ready (.domSync rd k) s ∧
      (s.thr s.cur).memb.getLsbD k.toNat = true ∧
      (s.thr s.cur).domArr = none ∧
      Gives (releaseSig (domScope k.toNat)) s sig s1 ∧
      Gives (sendArrival (domDie k.toNat (coreOf s.cur))) s1 () s2 ∧
      s2.cur = s.cur) ∧
    (∃ (rd : _) (k : _) (s : State) (s1 : State) (s2 : State) (a : _),
      Ready (.domSync rd k) s ∧
      (s.thr s.cur).memb.getLsbD k.toNat = true ∧
      (s.thr s.cur).domArr = some a ∧
      a.level = k ∧
      let d := (s.thr s.cur).deal.getD 0
      let x := s.domain d (domKey k.toNat (coreOf s.cur))
      let boundary := x.phase = false ∧ lowestBit (s.thr s.cur).memb = k.toNat
      x.phase ≠ a.phase ∧
      Gives (acquireSig (domScope k.toNat) x.lastSig) (s.modThr s.cur fun th =>
        { th with domArr := none, domKills := th.domKills.set k.toNat x.kills, phase := if x.phase then th.phase ||| BitVec.ofNat 9 (2 ^ k.toNat) else th.phase &&& ~~~(BitVec.ofNat 9 (2 ^ k.toNat)), tricks := if boundary then th.tricks + 1 else th.tricks })
        () s1 ∧
      Gives (writeX rd (if (s.thr s.cur).domKills.get 0 k.toNat = x.kills then 0 else BitVec.ofInt 64 (-1))) (if boundary ∧
        (s1.claim (coreOf s1.cur)).owner = some s1.cur then trickBoundary (coreOf s1.cur) s1 else s1) () s2) ∧
    (∃ (s : State) (deal : Nat) (level : Nat) (node : Nat),
      0 < (s.domain deal (4096 * level + node)).living ∧
      (s.domain deal (4096 * level + node)).living ≤ (s.domain deal (4096 * level + node)).arrived) ∧
    (∃ (s : State) (deal : Nat) (level : Nat) (node : Nat),
      (s.domain deal (4096 * level + node)).arrived < (s.domain deal (4096 * level + node)).living) :=
  ⟨⟨1, 8, (unitAt []), ready (by decide +kernel), by decide +kernel⟩,
    ⟨1, 8, ((unitAt []).modThr 0 fun th => { th with memb := 0x100, deal := some 3 }), _, _, _, ready (by decide +kernel),
      by decide +kernel, by decide +kernel, gives (by decide +kernel), givesVal (by decide +kernel), by decide +kernel⟩,
    ⟨1, 8, ((unitAt []).modThr 0 fun th =>
      { th with memb := 0x100, deal := some 3, domArr := some { phase := true, level := 8 } }), _, _,
      { phase := true, level := 8 }, ready (by decide +kernel), by decide +kernel, by decide +kernel, by decide +kernel,
      of_decide_eq_true (by decide +kernel), givesVal (by decide +kernel), givesVal (by decide +kernel)⟩,
    ⟨((unitAt []).setDomain 3 (4096 * 8) { living := 2, arrived := 2 }), 3, 8, 0, by decide +kernel⟩,
    ⟨((unitAt []).setDomain 3 (4096 * 8) { living := 2, arrived := 1 }), 3, 8, 0, by decide +kernel⟩⟩

/-- The hypotheses of Semaphores can be met. -/
theorem meets_Semaphores :
    (∃ (rs1 : Reg) (rs2 : Reg) (s : State) (s1 : State) (s2 : State) (i : Word) (n : Word),
      Gives (readX rs1) s i s1 ∧
      Gives (readX rs2) s1 n s2) ∧
    (∃ (rd : _) (rs1 : _) (rs2 : _) (s : State) (c : _) (v : _) (keep : _),
      semOperands rs1 rs2 s = .error (.trap 15 c v keep) ∧
      (∀ i ∈ [Instr.semPost rs1 rs2, .semWait rd rs1 rs2, .semWaitN rd rs1 rs2], Ready i s)) ∧
    (∃ (rs1 : _) (rs2 : _) (s : State) (s1 : State) (s2 : State) (s3 : State) (o : _) (i : _) (n : _) (sig : _),
      Ready (.semPost rs1 rs2) s ∧
      Gives (semOperands rs1 rs2) s (o, i, n) s1 ∧
      Gives (releaseSig .oct) s1 sig s2 ∧
      Gives (sendArrival (dieOf (coreOf s2.cur))) s2 () s3) ∧
    (∃ (rd : _) (rs1 : _) (rs2 : _) (s : State) (s1 : State) (s2 : State) (s3 : State) (o : _) (i : _) (n : _),
      Ready (.semWait rd rs1 rs2) s ∧
      Gives (semOperands rs1 rs2) s (o, i, n) s1 ∧
      (s1.thr s1.cur).objAns = none ∧
      (∀ r ∈ (s1.sem o i).queue, r.tid = s1.cur → r.registered = true) ∧
      let u := serveQueue o i s1
      let x := u.sem o i
      x.queue = [] ∧
      n ≤ x.val ∧
      Gives (acquireSig .oct x.sig) (u.setSem o i { x with val := x.val - n, sig := if x.val = n then 0 else x.sig }) () s2 ∧
      Gives (writeX rd (BitVec.ofNat 64 (x.val - n))) s2 () s3) ∧
    (∃ (rd : _) (rs1 : _) (rs2 : _) (s : State) (s1 : State) (s2 : State) (s3 : State) (o : _) (i : _) (n : _) (v : _) (sig : _),
      Ready (.semWait rd rs1 rs2) s ∧
      Gives (semOperands rs1 rs2) s (o, i, n) s1 ∧
      (s1.thr s1.cur).objAns = some (v, sig) ∧
      Gives (acquireSig .oct sig) s1 () s2 ∧
      Gives (writeX rd (v.zeroExtend 64)) s2 () s3) ∧
    (∃ (rd : _) (rs1 : _) (rs2 : _) (s : State) (s1 : State) (o : _) (i : _) (n : _),
      Ready (.semWait rd rs1 rs2) s ∧
      Gives (semOperands rs1 rs2) s (o, i, n) s1 ∧
      (s1.thr s1.cur).objAns = none ∧
      (∀ r ∈ (s1.sem o i).queue, r.tid = s1.cur → r.registered = true) ∧
      let u := serveQueue o i s1
      let x := u.sem o i
      (x.queue ≠ [] ∨ x.val < n)) ∧
    (∃ (rd : _) (rs1 : _) (rs2 : _) (s : State) (s1 : State) (s2 : State) (s3 : State) (o : _) (i : _) (n : _),
      Ready (.semWaitN rd rs1 rs2) s ∧
      Gives (semOperands rs1 rs2) s (o, i, n) s1 ∧
      let u := serveQueue o i s1
      let x := u.sem o i
      x.queue = [] ∧
      n ≤ x.val ∧
      Gives (acquireSig .oct x.sig) (u.setSem o i { x with val := x.val - n, sig := if x.val = n then 0 else x.sig }) () s2 ∧
      Gives (writeX rd (BitVec.ofNat 64 (x.val - n))) s2 () s3) ∧
    (∃ (rd : _) (rs1 : _) (rs2 : _) (s : State) (s1 : State) (s2 : State) (o : _) (i : _) (n : _),
      Ready (.semWaitN rd rs1 rs2) s ∧
      Gives (semOperands rs1 rs2) s (o, i, n) s1 ∧
      let u := serveQueue o i s1
      let x := u.sem o i
      (x.queue ≠ [] ∨ x.val < n) ∧
      (u.thr u.cur).regWait = none ∧
      Gives (writeX rd (BitVec.ofInt 64 (-1))) ((u.setSem o i
        { x with queue := x.queue ++ [{ tid := s1.cur, n := n, registered := true }] }).modThr u.cur fun th =>
        { th with regWait := some { sem := true, obj := BitVec.ofNat 16 i, arg := BitVec.ofNat 16 n } }) () s2) ∧
    (∃ (rd : _) (rs1 : _) (rs2 : _) (s : State) (s1 : State) (o : _) (i : _) (n : _),
      Ready (.semWaitN rd rs1 rs2) s ∧
      Gives (semOperands rs1 rs2) s (o, i, n) s1 ∧
      let u := serveQueue o i s1
      ((u.sem o i).queue ≠ [] ∨ (u.sem o i).val < n) ∧
      (u.thr u.cur).regWait ≠ none) ∧
    (∃ (s : State) (o : Nat) (i : Nat) (r : SemReq) (rest : List SemReq),
      (s.sem o i).queue = r :: rest ∧
      r.n ≤ (s.sem o i).val ∧
      r.tid < 100000) ∧
    (∃ (s : State) (o : Nat) (i : Nat) (r : SemReq) (rest : List SemReq),
      (s.sem o i).queue = r :: rest ∧
      (s.sem o i).val < r.n) ∧
    (∃ (s : State) (s1 : State) (tid : Nat) (w : _),
      (s.thr tid).regWait = some w ∧
      w.done = true ∧
      (s.thr tid).st = .idle ∧
      Gives (acquireAt (s.agent tid) (regScope tid w) w.sig) s () s1 ∧
      (s1.thr tid).st = .idle) :=
  ⟨⟨2, 3, (unitAt [(2, 63), (3, 65535)]), _, _, _, _, gives (by decide +kernel), gives (by decide +kernel)⟩,
    ⟨1, 2, 3, (unitAt [(2, 64), (3, 1)]), 5, 64, _, rfl, readyAll (by decide +kernel)⟩,
    ⟨2, 3, (unitAt [(2, 63), (3, 65535)]), _, _, _, 0, 63, 65535, _, ready (by decide +kernel), givesVal (by decide +kernel),
      gives (by decide +kernel), givesVal (by decide +kernel)⟩,
    ⟨1, 2, 3, ((unitAt [(2, 63), (3, 2)]).setSem 0 63 { val := 2, sig := 1 }), _, _, _, 0, 63, 2, ready (by decide +kernel),
      givesVal (by decide +kernel), by decide +kernel, by decide +kernel, by decide +kernel, of_decide_eq_true
      (by decide +kernel), givesVal (by decide +kernel), givesVal (by decide +kernel)⟩,
    ⟨1, 2, 3, ((unitAt [(2, 63), (3, 2)]).modThr 0 fun th => { th with objAns := some (6, 3) }), _, _, _, 0, 63, 2, 6, 3, ready
      (by decide +kernel), givesVal (by decide +kernel), by decide +kernel, givesVal (by decide +kernel), givesVal
      (by decide +kernel)⟩,
    ⟨1, 2, 3, ((unitAt [(2, 63), (3, 2)]).setSem 0 63 { val := 1 }), _, 0, 63, 2, ready (by decide +kernel), givesVal
      (by decide +kernel), by decide +kernel⟩,
    ⟨1, 2, 3, ((unitAt [(2, 63), (3, 2)]).setSem 0 63 { val := 2, sig := 1 }), _, _, _, 0, 63, 2, ready (by decide +kernel),
      givesVal (by decide +kernel), by decide +kernel, by decide +kernel, givesVal (by decide +kernel), givesVal
      (by decide +kernel)⟩,
    ⟨1, 2, 3, ((unitAt [(2, 63), (3, 2)]).setSem 0 63 { val := 1 }), _, _, 0, 63, 2, ready (by decide +kernel), givesVal
      (by decide +kernel), by decide +kernel, by decide +kernel, givesVal (by decide +kernel)⟩,
    ⟨1, 2, 3, (((unitAt [(2, 63), (3, 2)]).setSem 0 63 { val := 1 }).modThr 0 fun th =>
      { th with regWait := some { obj := 0xF800, arg := 5 } }), _, 0, 63, 2, ready (by decide +kernel), givesVal
      (by decide +kernel), by decide +kernel⟩,
    ⟨((unitAt []).setSem 0 63 { val := 2, queue := [{ tid := 0, n := 2 }] }), 0, 63, { tid := 0, n := 2 }, [],
      by decide +kernel⟩,
    ⟨((unitAt []).setSem 0 63 { val := 1, queue := [{ tid := 0, n := 2 }] }), 0, 63, { tid := 0, n := 2 }, [],
      by decide +kernel⟩,
    ⟨((unitAt []).modThr 0 fun th =>
      { th with st := .idle, regWait := some { sem := true, obj := 63, arg := 2, done := true, sig := 3 } }), _, 0,
      { sem := true, obj := 63, arg := 2, done := true, sig := 3 }, by decide +kernel, by decide +kernel, by decide +kernel,
      givesVal (by decide +kernel), by decide +kernel⟩⟩

/-- The hypotheses of Mailboxes can be met. -/
theorem meets_Mailboxes :
    (∃ (rd : _) (rs1 : _) (s : State) (s1 : State) (s2 : State) (a : _) (b : _) (c : _) (f : _),
      Ready (.mbxBind rd rs1) s ∧
      Gives (readX rs1) s a s1 ∧
      Gives (readDoublewords a 4) s1 [b, c, f, 0] s2 ∧
      let n := coreOf s2.cur
      let seat := (s2.thr s2.cur).seat.getD 0
      let ma := (rewriteOwn n b).toNat
      let rb := (rewriteOwn n c).toNat
      ma % 16 = 0 ∧
      rb % 256 = 0 ∧
      f.toNat ≤ 256 ∧
      isPow2 f.toNat = true ∧
      bankCore n ma = some n ∧
      bankCore n rb = some n ∧
      s2.banksOwned seat n ma 16 = true ∧
      s2.banksOwned seat n rb (256 * f.toNat) = true ∧
      (ma < rb ∨ rb + 256 * f.toNat ≤ ma) ∧
      s2.mailboxAt ma = none) ∧
    (∃ (rd : _) (s : State) (s1 : State) (v : _),
      Ready (.mbxPeek rd) s ∧
      let boxes := (s.cluster (clusterOf (coreOf s.cur))).mailboxes.cells
      (((∀ e ∈ boxes, e.2.tid = s.cur → e.2.inn = e.2.out) ∧ v = BitVec.ofInt 64 (-1)) ∨ (∃ l e r, boxes = l ++ e :: r ∧ (∀ d ∈
        l, d.2.tid = s.cur → d.2.inn = d.2.out) ∧ e.2.tid = s.cur ∧ e.2.inn ≠ e.2.out ∧ v = BitVec.ofNat 64 e.1)) ∧
      Gives (writeX rd v) s () s1) ∧
    (∃ (rd : _) (s : State) (s1 : State) (v : _),
      Ready (.mbxPeek rd) s ∧
      let boxes := (s.cluster (clusterOf (coreOf s.cur))).mailboxes.cells
      (((∀ e ∈ boxes, e.2.tid = s.cur → e.2.inn = e.2.out) ∧ v = BitVec.ofInt 64 (-1)) ∨ (∃ l e r, boxes = l ++ e :: r ∧ (∀ d ∈
        l, d.2.tid = s.cur → d.2.inn = d.2.out) ∧ e.2.tid = s.cur ∧ e.2.inn ≠ e.2.out ∧ v = BitVec.ofNat 64 e.1)) ∧
      Gives (writeX rd v) s () s1) ∧
    (∃ (rd : _) (rs1 : _) (s : State) (s1 : State) (s2 : State) (m : _) (x : _),
      Ready (.mbxTake rd rs1) s ∧
      Gives (readX rs1) s m s1 ∧
      s1.mailbox (clusterOf (coreOf s1.cur)) m.toNat = some x ∧
      x.tid = s1.cur ∧
      Gives (writeX rd (if x.inn = x.out then 0 else BitVec.ofNat 64 (x.rbase + 256 * (x.out % x.nrec)))) s1 () s2) ∧
    (∃ (rd : _) (rs1 : _) (s : State) (s1 : State) (s2 : State) (m : _) (x : _),
      Ready (.mbxTake rd rs1) s ∧
      Gives (readX rs1) s m s1 ∧
      s1.mailbox (clusterOf (coreOf s1.cur)) m.toNat = some x ∧
      x.tid = s1.cur ∧
      Gives (writeX rd (if x.inn = x.out then 0 else BitVec.ofNat 64 (x.rbase + 256 * (x.out % x.nrec)))) s1 () s2) ∧
    (∃ (rs1 : _) (s : State) (s1 : State) (m : _) (x : _),
      Ready (.mbxDone rs1) s ∧
      Gives (readX rs1) s m s1 ∧
      s1.mailbox (clusterOf (coreOf s1.cur)) m.toNat = some x ∧
      x.tid = s1.cur ∧
      x.inn ≠ x.out) ∧
    (∃ (rs1 : _) (s : State) (s1 : State) (m : _) (x : _),
      Ready (.mbxDone rs1) s ∧
      Gives (readX rs1) s m s1 ∧
      s1.mailbox (clusterOf (coreOf s1.cur)) m.toNat = some x ∧
      x.tid = s1.cur ∧
      x.inn = x.out) ∧
    (∃ (rd : _) (rs1 : _) (s : State) (s1 : State) (m : _),
      (∀ i ∈ [Instr.mbxTake rd rs1, .mbxDone rs1, .mbxRel rd rs1], Ready i s) ∧
      Gives (readX rs1) s m s1 ∧
      (∀ x, s1.mailbox (clusterOf (coreOf s1.cur)) m.toNat = some x → x.tid ≠ s1.cur)) ∧
    (∃ (rd : _) (rs1 : _) (s : State) (s1 : State) (s2 : State) (m : _) (x : Mailbox),
      Ready (.mbxRel rd rs1) s ∧
      Gives (readX rs1) s m s1 ∧
      let c := clusterOf (coreOf s1.cur)
      s1.mailbox c m.toNat = some x ∧
      x.tid = s1.cur ∧
      x.inn = x.out ∧
      (s1.cluster c).arrivals = [] ∧
      Gives (writeX rd 0) (unbindMailbox c m.toNat s1) () s2) ∧
    (∃ (rd : _) (rs1 : _) (s : State) (s1 : State) (m : _) (x : Mailbox),
      Ready (.mbxRel rd rs1) s ∧
      Gives (readX rs1) s m s1 ∧
      let c := clusterOf (coreOf s1.cur)
      s1.mailbox c m.toNat = some x ∧
      x.tid = s1.cur ∧
      x.inn ≠ x.out) ∧
    (∃ (s : State) (c : Nat) (m : Nat) (x : Mailbox) (a : Arrival),
      s.mailbox c m = some x ∧
      x.room = true ∧
      (s.cluster c).arrivals.find? (fun e => e.ma == x.ma) = some a) ∧
    (∃ (rs1 : _) (rs2 : _) (s : State) (s1 : State) (s2 : State) (s3 : State) (s4 : State) (d : _) (v : _) (h : _),
      Ready (.msgSend false rs1 rs2) s ∧
      Gives (readX rs1) s d s1 ∧
      Gives (readX rs2) s1 v s2 ∧
      (s2.thr s2.cur).msg = none ∧
      d.toNat % 16 = 0 ∧
      Gives settleRelease s2 () s3 ∧
      Gives (homeCheck (s3.agent s3.cur) d needW 8 true) s3 (.ok h) s4) ∧
    (∃ (rs1 : _) (rs2 : _) (s : State) (s1 : State) (s2 : State) (s3 : State) (s4 : State) (s5 : State) (d : _) (v : _) (h : _),
      Ready (.msgSend true rs1 rs2) s ∧
      Gives (readX rs1) s d s1 ∧
      Gives (readX rs2) s1 v s2 ∧
      (s2.thr s2.cur).msg = none ∧
      d.toNat % 16 = 0 ∧
      Gives settleRelease s2 () s3 ∧
      Gives (homeCheck (s3.agent s3.cur) d needW 8 true) s3 (.ok h) s4 ∧
      Gives (sendPacket { dest := d, home := h.addr, words := [v], issued := 0 }) s4 () s5) ∧
    (∃ (rs1 : _) (rs2 : _) (s : State) (s1 : State) (s2 : State) (v : _) (m : _),
      Ready (.msgSend false rs1 rs2) s ∧
      (s2.thr s2.cur).msg = some m ∧
      Gives (readX rs1) s m.dest s1 ∧
      Gives (readX rs2) s1 v s2 ∧
      m.words.length ≠ 31) ∧
    (∃ (rs1 : _) (rs2 : _) (s : State) (s1 : State) (s2 : State) (s3 : State) (v : _) (m : _),
      Ready (.msgSend true rs1 rs2) s ∧
      (s2.thr s2.cur).msg = some m ∧
      Gives (readX rs1) s m.dest s1 ∧
      Gives (readX rs2) s1 v s2 ∧
      m.words.length ≠ 31 ∧
      Gives (sendPacket { m with words := m.words ++ [v] }) s2 () s3) ∧
    (∃ (e : _) (rs1 : _) (rs2 : _) (s : State) (s1 : State) (s2 : State) (d : _) (v : _) (m : _),
      Ready (.msgSend e rs1 rs2) s ∧
      Gives (readX rs1) s d s1 ∧
      Gives (readX rs2) s1 v s2 ∧
      (s2.thr s2.cur).msg = some m ∧
      (d ≠ m.dest ∨ m.words.length = 31)) ∧
    (∃ (e : _) (rs1 : _) (rs2 : _) (s : State) (s1 : State) (s2 : State) (d : _) (v : _) (m : _),
      Ready (.msgSend e rs1 rs2) s ∧
      Gives (readX rs1) s d s1 ∧
      Gives (readX rs2) s1 v s2 ∧
      (s2.thr s2.cur).msg = some m ∧
      (d ≠ m.dest ∨ m.words.length = 31)) ∧
    (∃ (e : _) (rs1 : _) (rs2 : _) (s : State) (s1 : State) (s2 : State) (d : _) (v : _),
      Ready (.msgSend e rs1 rs2) s ∧
      Gives (readX rs1) s d s1 ∧
      Gives (readX rs2) s1 v s2 ∧
      (s2.thr s2.cur).msg = none ∧
      d.toNat % 16 ≠ 0) ∧
    (∃ (s : State),
      Ready .msgAbort s) :=
  ⟨⟨1, 2, ((((unitAt [(2, own)]).store 0xF1000000000000 8 0x00F0000000000100).store 0xF1000000000008 8
      0x00F0000000001000).store 0xF1000000000010 8 256), _, _, _, 0x00F0000000000100, 0x00F0000000001000, 256, ready
      (by decide +kernel), gives (by decide +kernel), givesVal (by decide +kernel), by decide +kernel⟩,
    ⟨1, (unitAt []), _, _, ready (by decide +kernel), .inl ⟨by decide +kernel, rfl⟩, givesVal (by decide +kernel)⟩,
    ⟨1, ((unitAt []).setMailbox 0 0
      { tid := 0, seat := 16, ma := 0x00F1000000000100, rbase := 0x00F1000000001000, nrec := 4, inn := 2, out := 1 }), _, _,
      ready (by decide +kernel), .inr ⟨[], (0,
      { tid := 0, seat := 16, ma := 0x00F1000000000100, rbase := 0x00F1000000001000, nrec := 4, inn := 2, out := 1 }), [],
      by decide +kernel, by decide +kernel, by decide +kernel, by decide +kernel, rfl⟩, givesVal (by decide +kernel)⟩,
    ⟨1, 2, ((unitAt [(2, 0)]).setMailbox 0 0
      { tid := 0, seat := 16, ma := 0x00F1000000000100, rbase := 0x00F1000000001000, nrec := 4, inn := 2, out := 1 }), _, _, _,
      { tid := 0, seat := 16, ma := 0x00F1000000000100, rbase := 0x00F1000000001000, nrec := 4, inn := 2, out := 1 }, ready
      (by decide +kernel), gives (by decide +kernel), by decide +kernel, by decide +kernel, givesVal (by decide +kernel)⟩,
    ⟨1, 2, ((unitAt [(2, 0)]).setMailbox 0 0
      { tid := 0, seat := 16, ma := 0x00F1000000000100, rbase := 0x00F1000000001000, nrec := 4, inn := 1, out := 1 }), _, _, _,
      { tid := 0, seat := 16, ma := 0x00F1000000000100, rbase := 0x00F1000000001000, nrec := 4, inn := 1, out := 1 }, ready
      (by decide +kernel), gives (by decide +kernel), by decide +kernel, by decide +kernel, givesVal (by decide +kernel)⟩,
    ⟨2, ((unitAt [(2, 0)]).setMailbox 0 0
      { tid := 0, seat := 16, ma := 0x00F1000000000100, rbase := 0x00F1000000001000, nrec := 4, inn := 2, out := 1 }), _, _,
      { tid := 0, seat := 16, ma := 0x00F1000000000100, rbase := 0x00F1000000001000, nrec := 4, inn := 2, out := 1 }, ready
      (by decide +kernel), gives (by decide +kernel), by decide +kernel⟩,
    ⟨2, ((unitAt [(2, 0)]).setMailbox 0 0
      { tid := 0, seat := 16, ma := 0x00F1000000000100, rbase := 0x00F1000000001000, nrec := 4, inn := 1, out := 1 }), _, _,
      { tid := 0, seat := 16, ma := 0x00F1000000000100, rbase := 0x00F1000000001000, nrec := 4, inn := 1, out := 1 }, ready
      (by decide +kernel), gives (by decide +kernel), by decide +kernel⟩,
    ⟨1, 2, (unitAt [(2, 7)]), _, _, readyAll (by decide +kernel), gives (by decide +kernel), fun x hx => ofNone
      (by decide +kernel) hx⟩,
    ⟨1, 2, ((unitAt [(2, 0)]).setMailbox 0 0
      { tid := 0, seat := 16, ma := 0x00F1000000000100, rbase := 0x00F1000000001000, nrec := 4, inn := 1, out := 1 }), _, _, _,
      { tid := 0, seat := 16, ma := 0x00F1000000000100, rbase := 0x00F1000000001000, nrec := 4, inn := 1, out := 1 }, ready
      (by decide +kernel), gives (by decide +kernel), by decide +kernel, by decide +kernel, by decide +kernel, of_decide_eq_true
      (by decide +kernel), givesVal (by decide +kernel)⟩,
    ⟨1, 2, ((unitAt [(2, 0)]).setMailbox 0 0
      { tid := 0, seat := 16, ma := 0x00F1000000000100, rbase := 0x00F1000000001000, nrec := 4, inn := 2, out := 1 }), _, _,
      { tid := 0, seat := 16, ma := 0x00F1000000000100, rbase := 0x00F1000000001000, nrec := 4, inn := 2, out := 1 }, ready
      (by decide +kernel), gives (by decide +kernel), by decide +kernel⟩,
    ⟨(((unitAt []).setMailbox 0 0
      { tid := 0, seat := 16, ma := 0x00F1000000000100, rbase := 0x00F1000000001000, nrec := 4, inn := 1, out := 1 }).modCluster
      0 fun c => { c with arrivals := [{ ma := 0x00F1000000000100, kind := 1 }] }), 0, 0,
      { tid := 0, seat := 16, ma := 0x00F1000000000100, rbase := 0x00F1000000001000, nrec := 4, inn := 1, out := 1 },
      { ma := 0x00F1000000000100, kind := 1 }, by decide +kernel⟩,
    ⟨2, 3, (unitAt [(2, 0x00F1000000080000), (3, 5)]), _, _, _, _, _, _, _, ready (by decide +kernel), gives
      (by decide +kernel), gives (by decide +kernel), by decide +kernel, by decide +kernel, givesVal (by decide +kernel),
      @givesOk _ _ ⟨.bank 0 0⟩ _ _ (by decide +kernel)⟩,
    ⟨2, 3, (unitAt [(2, 0x00F1000000080000), (3, 5)]), _, _, _, _, _, _, _, _, ready (by decide +kernel), gives
      (by decide +kernel), gives (by decide +kernel), by decide +kernel, by decide +kernel, givesVal (by decide +kernel),
      @givesOk _ _ ⟨.bank 0 0⟩ _ _ (by decide +kernel), givesVal (by decide +kernel)⟩,
    ⟨2, 3, ((unitAt [(2, 0x00F1000000080000), (3, 5)]).modThr 0 fun th =>
      { th with msg := some { dest := 0x00F1000000080000, home := 0x00F1000000080000, words := [1] } }), _, _, _,
      { dest := 0x00F1000000080000, home := 0x00F1000000080000, words := [1] }, ready (by decide +kernel), by decide +kernel,
      givesVal (by decide +kernel), gives (by decide +kernel), by decide +kernel⟩,
    ⟨2, 3, ((unitAt [(2, 0x00F1000000080000), (3, 5)]).modThr 0 fun th =>
      { th with msg := some { dest := 0x00F1000000080000, home := 0x00F1000000080000, words := [1] } }), _, _, _, _,
      { dest := 0x00F1000000080000, home := 0x00F1000000080000, words := [1] }, ready (by decide +kernel), by decide +kernel,
      givesVal (by decide +kernel), gives (by decide +kernel), by decide +kernel, givesVal (by decide +kernel)⟩,
    ⟨true, 2, 3, ((unitAt [(2, 0x00F1000000080008), (3, 5)]).modThr 0 fun th =>
      { th with msg := some { dest := 0x00F1000000080000, home := 0x00F1000000080000, words := [1] } }), _, _, _, _,
      { dest := 0x00F1000000080000, home := 0x00F1000000080000, words := [1] }, ready (by decide +kernel), gives
      (by decide +kernel), gives (by decide +kernel), by decide +kernel⟩,
    ⟨false, 2, 3, ((unitAt [(2, 0x00F1000000080000), (3, 5)]).modThr 0 fun th =>
      { th with msg := some { dest := 0x00F1000000080000, home := 0x00F1000000080000, words := (List.replicate 31 0) } }), _, _,
      _, _, { dest := 0x00F1000000080000, home := 0x00F1000000080000, words := (List.replicate 31 0) }, ready
      (by decide +kernel), gives (by decide +kernel), gives (by decide +kernel), by decide +kernel⟩,
    ⟨true, 2, 3, (unitAt [(2, 0x00F1000000080008), (3, 5)]), _, _, _, _, ready (by decide +kernel), gives (by decide +kernel),
      gives (by decide +kernel), by decide +kernel⟩,
    ⟨(unitAt []), ready (by decide +kernel)⟩⟩

/-- The hypotheses of Streams can be met. -/
theorem meets_Streams :
    (∃ (xs : _) (rs1 : _) (s : State) (s1 : State) (s2 : State) (a : _) (slot : _) (b : _) (strides : _) (counts : _) (fmt : _) (s3 : State),
      Ready (.stBind xs rs1) s ∧
      coreOf s.cur < 2048 ∧
      24 ≤ xs.toNat ∧
      Gives (readX rs1) s a s1 ∧
      (s1.thr s1.cur).boundSlot xs = none ∧
      slot < 4 ∧
      ((s1.thr s1.cur).binds.get {} slot).reg = 0 ∧
      (∀ j, j < slot → ((s1.thr s1.cur).binds.get {} j).reg ≠ 0) ∧
      Gives (readDoublewords a 4) s1 [b, strides, counts, fmt] s2 ∧
      let esz := 2 ^ (fmt.toNat % 4)
      let base := rewriteOwn (coreOf s2.cur) b
      let good := fmt.toNat < 8 ∧ (fmt.toNat % 4 = 3 → fmt.toNat < 4) ∧ base.toNat % esz = 0 ∧ strides.toNat % 2 ^ 32 % esz = 0
        ∧ strides.toNat / 2 ^ 32 % esz = 0 ∧ counts.toNat % 2 ^ 32 * (counts.toNat / 2 ^ 32) ≠ 0
      good ∧
      Gives pushRelease s2 () s3) ∧
    (∃ (xs : _) (rs1 : _) (s : State) (s1 : State) (s2 : State) (a : _) (slot : _) (b : _) (strides : _) (counts : _) (fmt : _),
      Ready (.stBind xs rs1) s ∧
      coreOf s.cur < 2048 ∧
      24 ≤ xs.toNat ∧
      Gives (readX rs1) s a s1 ∧
      (s1.thr s1.cur).boundSlot xs = none ∧
      slot < 4 ∧
      ((s1.thr s1.cur).binds.get {} slot).reg = 0 ∧
      (∀ j, j < slot → ((s1.thr s1.cur).binds.get {} j).reg ≠ 0) ∧
      Gives (readDoublewords a 4) s1 [b, strides, counts, fmt] s2 ∧
      let esz := 2 ^ (fmt.toNat % 4)
      let base := rewriteOwn (coreOf s2.cur) b
      let good := fmt.toNat < 8 ∧ (fmt.toNat % 4 = 3 → fmt.toNat < 4) ∧ base.toNat % esz = 0 ∧ strides.toNat % 2 ^ 32 % esz = 0
        ∧ strides.toNat / 2 ^ 32 % esz = 0 ∧ counts.toNat % 2 ^ 32 * (counts.toNat / 2 ^ 32) ≠ 0
      ¬ good) ∧
    (∃ (xs : _) (rs1 : _) (s : State),
      Ready (.stBind xs rs1) s ∧
      coreOf s.cur < 2048 ∧
      xs.toNat < 24) ∧
    (∃ (xs : _) (rs1 : _) (s : State) (s1 : State) (a : Word),
      Ready (.stBind xs rs1) s ∧
      coreOf s.cur < 2048 ∧
      24 ≤ xs.toNat ∧
      Gives (readX rs1) s a s1 ∧
      (s1.thr s1.cur).boundSlot xs ≠ none) ∧
    (∃ (xs : _) (rs1 : _) (s : State) (s1 : State) (a : Word),
      Ready (.stBind xs rs1) s ∧
      coreOf s.cur < 2048 ∧
      24 ≤ xs.toNat ∧
      Gives (readX rs1) s a s1 ∧
      (s1.thr s1.cur).boundSlot xs = none ∧
      (∀ j, j < 4 → ((s1.thr s1.cur).binds.get {} j).reg ≠ 0)) ∧
    (∃ (xs : _) (s : State) (slot : _) (b : _),
      Ready (.stRel xs) s ∧
      coreOf s.cur < 2048 ∧
      24 ≤ xs.toNat ∧
      (s.thr s.cur).boundSlot xs = some (slot, b)) ∧
    (∃ (rd : _) (xs : _) (s : State) (s1 : State) (slot : _) (b : _),
      Ready (.stPos rd xs) s ∧
      coreOf s.cur < 2048 ∧
      24 ≤ xs.toNat ∧
      (s.thr s.cur).boundSlot xs = some (slot, b) ∧
      Gives (writeX rd (BitVec.ofNat 64 b.next)) s () s1) ∧
    (∃ (rd : _) (xs : _) (s : State),
      (∀ i ∈ [Instr.stRel xs, .stPos rd xs], Ready i s) ∧
      coreOf s.cur < 2048 ∧
      (xs.toNat < 24 ∨ (s.thr s.cur).boundSlot xs = none)) ∧
    (∃ (rd : _) (xs : _) (s : State),
      (∀ i ∈ [Instr.stRel xs, .stPos rd xs], Ready i s) ∧
      coreOf s.cur < 2048 ∧
      (xs.toNat < 24 ∨ (s.thr s.cur).boundSlot xs = none)) ∧
    (∃ (s : State) (s1 : State) (tid : Nat) (slot : Nat) (b : Binding) (v : Nat),
      (s.thr tid).binds.get {} slot = b ∧
      28 ≤ b.reg.toNat ∧
      b.exh = false ∧
      coreOf tid < 2048 ∧
      (∀ e ∈ b.arrived, ∃ w, e = .value w) ∧
      b.arrived.length < 32 ∧
      (s.thr tid).refills = true ∧
      let k := b.next + b.arrived.length
      let c := clusterOf (coreOf tid)
      k < b.counts.toNat % 2 ^ 32 * (b.counts.toNat / 2 ^ 32) ∧
      s.clusterHeld c = false ∧
      s.heldBy c (b.addr k).toNat b.esz = none ∧
      Gives (metered
        { arb := copyArb c, bucket := (s.agent tid).seat, cost := if k * b.esz % 32 = 0 then 1 else 0, line := (b.addr k).toNat + 1, who := copyWho tid (18 + slot) }
        (engineRead (s.agent tid) (b.addr k) b.esz)) s (.ok v) s1) ∧
    (∃ (s : State) (s1 : State) (tid : Nat) (slot : Nat) (l : List RStore) (r : RStore) (rest : List RStore),
      (s.core (coreOf tid)).rstores = l ++ r :: rest ∧
      r.tid = tid ∧
      r.slot = some slot ∧
      r.sent = false ∧
      (∀ q ∈ l, q.tid = tid → q.slot = some slot → q.sent = true) ∧
      (∀ q ∈ l, q.tid = tid → q.dest = r.dest → q.sent = true) ∧
      Gives (sendStore (coreOf tid) l.length r) s () s1) ∧
    (∃ (s : State) (tid : Nat) (slot : Nat) (l : List RStore) (r : RStore) (q : RStore) (l' : List RStore) (rest : List RStore),
      (s.core (coreOf tid)).rstores = l ++ q :: l' ++ r :: rest ∧
      r.tid = tid ∧
      r.slot = some slot ∧
      r.sent = false ∧
      (∀ p ∈ l ++ q :: l', p.tid = tid → p.slot = some slot → p.sent = true) ∧
      q.tid = tid ∧
      q.dest = r.dest ∧
      q.sent = false) :=
  ⟨⟨31, 2, (((((unitAt [(2, own)]).store 0xF1000000000000 8 0x00F0000000001000).store 0xF1000000000008 8 8).store
      0xF1000000000010 8 0x100000002).store 0xF1000000000018 8 3), _, _, _, 0, 0x00F0000000001000, 8, 0x100000002, 3, _, ready
      (by decide +kernel), by decide +kernel, by decide +kernel, gives (by decide +kernel), by decide +kernel,
      by decide +kernel, by decide +kernel, of_decide_eq_true (by decide +kernel), givesVal (by decide +kernel),
      by decide +kernel, givesVal (by decide +kernel)⟩,
    ⟨24, 2, (((((unitAt [(2, own)]).store 0xF1000000000000 8 0x00F0000000001000).store 0xF1000000000008 8 8).store
      0xF1000000000010 8 0x100000002).store 0xF1000000000018 8 7), _, _, _, 0, 0x00F0000000001000, 8, 0x100000002, 7, ready
      (by decide +kernel), by decide +kernel, by decide +kernel, gives (by decide +kernel), by decide +kernel,
      by decide +kernel, by decide +kernel, of_decide_eq_true (by decide +kernel), givesVal (by decide +kernel),
      by decide +kernel⟩,
    ⟨23, 2, (unitAt [(2, own)]), ready (by decide +kernel), by decide +kernel⟩,
    ⟨31, 2, ((unitAt [(2, own)]).modThr 0 fun th =>
      { th with binds := ⟨[(0, { reg := 25 }), (1, { reg := 26 }), (2, { reg := 27 }), (3, { reg := 31 })]⟩ }), _, _, ready
      (by decide +kernel), by decide +kernel, by decide +kernel, gives (by decide +kernel), by decide +kernel⟩,
    ⟨24, 2, ((unitAt [(2, own)]).modThr 0 fun th =>
      { th with binds := ⟨[(0, { reg := 25 }), (1, { reg := 26 }), (2, { reg := 27 }), (3, { reg := 31 })]⟩ }), _, _, ready
      (by decide +kernel), by decide +kernel, by decide +kernel, gives (by decide +kernel), by decide +kernel⟩,
    ⟨24, ((unitAt []).modThr 0 fun th =>
      { th with binds := ⟨[(0, { base := 0x00F1000000001000, strides := 8, counts := 0x100000002, fmt := 3, reg := 24 })]⟩ }),
      0, { base := 0x00F1000000001000, strides := 8, counts := 0x100000002, fmt := 3, reg := 24 }, ready (by decide +kernel),
      by decide +kernel⟩,
    ⟨1, 24, ((unitAt []).modThr 0 fun th =>
      { th with binds := ⟨[(0, { base := 0x00F1000000001000, strides := 8, counts := 0x100000002, fmt := 3, reg := 24, next := 2 })]⟩ }),
      _, 0, { base := 0x00F1000000001000, strides := 8, counts := 0x100000002, fmt := 3, reg := 24, next := 2 }, ready
      (by decide +kernel), by decide +kernel, by decide +kernel, by decide +kernel, givesVal (by decide +kernel)⟩,
    ⟨1, 24, (unitAt []), readyAll (by decide +kernel), by decide +kernel, .inr (by decide +kernel)⟩,
    ⟨1, 23, (unitAt []), readyAll (by decide +kernel), by decide +kernel, .inl (by decide +kernel)⟩,
    ⟨((unitAt []).modThr 0 fun th =>
      { th with binds := ⟨[(0, { base := 0x00F1000000001000, strides := 8, counts := 0x100000002, fmt := 3, reg := 28 })]⟩ }),
      _, 0, 0, { base := 0x00F1000000001000, strides := 8, counts := 0x100000002, fmt := 3, reg := 28 }, _, by decide +kernel,
      by decide +kernel, by decide +kernel, of_decide_eq_true (by decide +kernel), by simp, by decide +kernel,
      by decide +kernel, by decide +kernel, of_decide_eq_true (by decide +kernel), by decide +kernel, givesOk
      (by decide +kernel)⟩,
    ⟨((unitAt []).modCore 0 fun c =>
      { c with rstores := [{ tid := 0, seat := 16, cls := 1, dest := 1, addr := 0x00F1000000080000, kind := .store 8 5, slot := some 1, cost := 1 }] }),
      _, 0, 1, [],
      { tid := 0, seat := 16, cls := 1, dest := 1, addr := 0x00F1000000080000, kind := .store 8 5, slot := some 1, cost := 1 },
      [], by decide +kernel, by decide +kernel, by decide +kernel, of_decide_eq_true (by decide +kernel), by decide +kernel,
      by decide +kernel, givesVal (by decide +kernel)⟩,
    ⟨((unitAt []).modCore 0 fun c =>
      { c with rstores := [{ tid := 0, seat := 16, cls := 1, dest := 1, addr := 0x00F1000000080000, kind := .store 8 5, slot := some 0, cost := 1 }, { tid := 0, seat := 16, cls := 1, dest := 1, addr := 0x00F1000000080000, kind := .store 8 5, slot := some 1, cost := 1 }] }),
      0, 1, [],
      { tid := 0, seat := 16, cls := 1, dest := 1, addr := 0x00F1000000080000, kind := .store 8 5, slot := some 1, cost := 1 },
      { tid := 0, seat := 16, cls := 1, dest := 1, addr := 0x00F1000000080000, kind := .store 8 5, slot := some 0, cost := 1 },
      [], [], by decide +kernel⟩⟩

/-- The hypotheses of Copies can be met. -/
theorem meets_Copies :
    (∃ (rd : _) (rs1 : _) (rs2 : _) (s : State) (s1 : State) (s2 : State) (s3 : State) (a : _) (e : _) (b : _) (d : _) (l : _) (m : _) (s4 : State) (s5 : State),
      Ready (.cpGo rd rs1 rs2) s ∧
      coreOf s.cur < 2048 ∧
      Gives (readX rs1) s a s1 ∧
      Gives (readX rs2) s1 e s2 ∧
      e.toNat ≤ 15 ∧
      Gives (readDoublewords a 4) s2 [b, d, l, m] s3 ∧
      let n := coreOf s3.cur
      let c := clusterOf n
      let seat := (s3.thr s3.cur).seat.getD 0
      let src := rewriteOwn n b
      let dst := rewriteOwn n d
      let mbx := rewriteOwn n m
      src.toNat % 8 = 0 ∧
      dst.toNat % 8 = 0 ∧
      l.toNat < 2 ^ 32 ∧
      l ≠ 0 ∧
      l.toNat % 8 = 0 ∧
      mbx.toNat % 16 = 0 ∧
      s3.badBanks seat n dst.toNat l.toNat = false ∧
      (s3.engine c e.toNat).st = .free ∧
      s3.channelsHeld seat c < s3.cpMax seat c ∧
      Gives pushRelease s3 () s4 ∧
      Gives (writeX rd 0) (s4.setEngine c e.toNat
        { src := src, dst := dst, len := l.toNat, mbx := mbx, st := .active, seat := seat, tid := s4.cur, deal := (s4.thr s4.cur).deal.getD 0, hand := (s4.thr s4.cur).hand.toNat })
        () s5) ∧
    (∃ (rd : _) (rs1 : _) (rs2 : _) (s : State) (s1 : State) (s2 : State) (s3 : State) (a : _) (e : _) (b : _) (d : _) (l : _) (m : _) (s4 : State),
      Ready (.cpGo rd rs1 rs2) s ∧
      coreOf s.cur < 2048 ∧
      Gives (readX rs1) s a s1 ∧
      Gives (readX rs2) s1 e s2 ∧
      e.toNat ≤ 15 ∧
      Gives (readDoublewords a 4) s2 [b, d, l, m] s3 ∧
      let n := coreOf s3.cur
      let c := clusterOf n
      let seat := (s3.thr s3.cur).seat.getD 0
      let src := rewriteOwn n b
      let dst := rewriteOwn n d
      let mbx := rewriteOwn n m
      src.toNat % 8 = 0 ∧
      dst.toNat % 8 = 0 ∧
      l.toNat < 2 ^ 32 ∧
      l ≠ 0 ∧
      l.toNat % 8 = 0 ∧
      mbx.toNat % 16 = 0 ∧
      s3.badBanks seat n dst.toNat l.toNat = false ∧
      (s3.engine c e.toNat).st ≠ .free ∧
      Gives (writeX rd (BitVec.ofInt 64 (-1))) s3 () s4) ∧
    (∃ (rd : _) (rs1 : _) (rs2 : _) (s : State) (s1 : State) (s2 : State) (s3 : State) (a : _) (g : _) (b : _) (t : _) (d : _) (f : _) (m : _) (s4 : State) (s5 : State),
      Ready (.gtGo rd rs1 rs2) s ∧
      coreOf s.cur < 2048 ∧
      Gives (readX rs1) s a s1 ∧
      Gives (readX rs2) s1 g s2 ∧
      g.toNat ≤ 1 ∧
      Gives (readDoublewords a 6) s2 [b, t, d, f, m, 0] s3 ∧
      let n := coreOf s3.cur
      let c := clusterOf n
      let seat := (s3.thr s3.cur).seat.getD 0
      let idx := rewriteOwn n b
      let dst := rewriteOwn n d
      let mbx := rewriteOwn n m
      let esz := 2 ^ (f.toNat / 2 ^ 32 % 4)
      let len := f.toNat % 2 ^ 32
      idx.toNat % (if f.getLsbD 34 then 8 else 4) = 0 ∧
      dst.toNat % esz = 0 ∧
      f.toNat < 2 ^ 35 ∧
      len ≠ 0 ∧
      mbx.toNat % 16 = 0 ∧
      s3.badBanks seat n dst.toNat (len * esz) = false ∧
      (s3.engine c (16 + g.toNat)).st = .free ∧
      Gives pushRelease s3 () s4 ∧
      Gives (writeX rd 0) (s4.setEngine c (16 + g.toNat)
        { src := idx, tbl := rewriteOwn n t, dst := dst, len := len, mbx := mbx, esz := esz, iw64 := f.getLsbD 34, st := .active, seat := seat, tid := s4.cur, deal := (s4.thr s4.cur).deal.getD 0, hand := (s4.thr s4.cur).hand.toNat })
        () s5) ∧
    (∃ (rd : _) (rs1 : _) (rs2 : _) (s : State) (s1 : State) (s2 : State) (s3 : State) (a : _) (g : _) (b : _) (t : _) (d : _) (f : _) (m : _) (s4 : State),
      Ready (.gtGo rd rs1 rs2) s ∧
      coreOf s.cur < 2048 ∧
      Gives (readX rs1) s a s1 ∧
      Gives (readX rs2) s1 g s2 ∧
      g.toNat ≤ 1 ∧
      Gives (readDoublewords a 6) s2 [b, t, d, f, m, 0] s3 ∧
      let n := coreOf s3.cur
      let c := clusterOf n
      let seat := (s3.thr s3.cur).seat.getD 0
      let idx := rewriteOwn n b
      let dst := rewriteOwn n d
      let mbx := rewriteOwn n m
      let esz := 2 ^ (f.toNat / 2 ^ 32 % 4)
      let len := f.toNat % 2 ^ 32
      idx.toNat % (if f.getLsbD 34 then 8 else 4) = 0 ∧
      dst.toNat % esz = 0 ∧
      f.toNat < 2 ^ 35 ∧
      len ≠ 0 ∧
      mbx.toNat % 16 = 0 ∧
      s3.badBanks seat n dst.toNat (len * esz) = false ∧
      (s3.engine c (16 + g.toNat)).st ≠ .free ∧
      Gives (writeX rd (BitVec.ofInt 64 (-1))) s3 () s4) ∧
    (∃ (rd : _) (rs1 : _) (s : State) (s1 : State) (e : _) (v : Word) (dst : Nat) (bytes : Nat) (s2 : State) (s3 : State),
      Ready (.cpWait rd rs1) s ∧
      coreOf s.cur < 2048 ∧
      Gives (readX rs1) s e s1 ∧
      e.toNat ≤ 17 ∧
      (s1.thr s1.cur).cpAns = some (v, dst, bytes) ∧
      Gives (dropRange dst bytes) s1 () s2 ∧
      Gives (writeX rd v) s2 () s3) ∧
    (∃ (rd : _) (rs1 : _) (s : State) (s1 : State) (e : _) (s2 : State),
      Ready (.cpWait rd rs1) s ∧
      coreOf s.cur < 2048 ∧
      Gives (readX rs1) s e s1 ∧
      e.toNat ≤ 17 ∧
      let c := clusterOf (coreOf s1.cur)
      let x := s1.engine c e.toNat
      let mine := x.st ≠ .free ∧ x.seat = (s1.thr s1.cur).seat.getD 0
      (s1.thr s1.cur).cpAns = none ∧
      ¬ mine ∧
      Gives (writeX rd (BitVec.ofInt 64 (-1))) s1 () s2) ∧
    (∃ (rd : _) (rs1 : _) (s : State) (s1 : State) (e : _) (s2 : State) (s3 : State),
      Ready (.cpWait rd rs1) s ∧
      coreOf s.cur < 2048 ∧
      Gives (readX rs1) s e s1 ∧
      e.toNat ≤ 17 ∧
      let c := clusterOf (coreOf s1.cur)
      let x := s1.engine c e.toNat
      let mine := x.st ≠ .free ∧ x.seat = (s1.thr s1.cur).seat.getD 0
      (s1.thr s1.cur).cpAns = none ∧
      mine ∧
      x.st = .done ∧
      Gives (dropRange x.dst.toNat (x.bytes e.toNat)) s1 () s2 ∧
      Gives (writeX rd (BitVec.ofNat 64 x.landed)) (freeEngine c e.toNat s2) () s3) ∧
    (∃ (rd : _) (rs1 : _) (s : State) (s1 : State) (e : _),
      Ready (.cpWait rd rs1) s ∧
      coreOf s.cur < 2048 ∧
      Gives (readX rs1) s e s1 ∧
      e.toNat ≤ 17 ∧
      let c := clusterOf (coreOf s1.cur)
      let x := s1.engine c e.toNat
      let mine := x.st ≠ .free ∧ x.seat = (s1.thr s1.cur).seat.getD 0
      (s1.thr s1.cur).cpAns = none ∧
      mine ∧
      x.st = .faulted) ∧
    (∃ (rd : _) (rs1 : _) (s : State) (s1 : State) (e : _),
      Ready (.cpWait rd rs1) s ∧
      coreOf s.cur < 2048 ∧
      Gives (readX rs1) s e s1 ∧
      e.toNat ≤ 17 ∧
      let c := clusterOf (coreOf s1.cur)
      let x := s1.engine c e.toNat
      let mine := x.st ≠ .free ∧ x.seat = (s1.thr s1.cur).seat.getD 0
      (s1.thr s1.cur).cpAns = none ∧
      mine ∧
      x.st = .active) ∧
    (∃ (rs1 : _) (s : State) (s1 : State) (e : _),
      Ready (.cpStop rs1) s ∧
      coreOf s.cur < 2048 ∧
      Gives (readX rs1) s e s1 ∧
      e.toNat ≤ 17 ∧
      let c := clusterOf (coreOf s1.cur)
      let x := s1.engine c e.toNat
      x.st = .free) ∧
    (∃ (rs1 : _) (s : State) (s1 : State) (e : _) (s2 : State),
      Ready (.cpStop rs1) s ∧
      coreOf s.cur < 2048 ∧
      Gives (readX rs1) s e s1 ∧
      e.toNat ≤ 17 ∧
      let c := clusterOf (coreOf s1.cur)
      let x := s1.engine c e.toNat
      x.st ≠ .free ∧
      x.seat = (s1.thr s1.cur).seat.getD 0 ∧
      Gives (completeEngine c e.toNat { x with st := .stopped }) (s1.setEngine c e.toNat { x with st := .stopped }) () s2) ∧
    (∃ (rd : _) (rs1 : _) (s : State) (s1 : State) (s2 : State) (e : _),
      Ready (.cpStat rd rs1) s ∧
      coreOf s.cur < 2048 ∧
      Gives (readX rs1) s e s1 ∧
      e.toNat ≤ 17 ∧
      let x := s1.engine (clusterOf (coreOf s1.cur)) e.toNat
      Gives (writeX rd (BitVec.ofNat 64 (if x.st = .free then 0 else if x.seat = (s1.thr s1.cur).seat.getD 0 then x.landed * 2 ^
        32 + (if x.side then 2 ^ 16 else 0) + x.sub.toNat * 2 ^ 8 + x.st.code else 5))) s1 () s2) ∧
    (∃ (rd : _) (rs1 : _) (s : State) (s1 : State) (e : _),
      (∀ i ∈ [Instr.cpWait rd rs1, .cpStop rs1, .cpStat rd rs1], Ready i s) ∧
      coreOf s.cur < 2048 ∧
      Gives (readX rs1) s e s1 ∧
      17 < e.toNat) ∧
    (∃ (s : State) (s1 : State) (c : Nat) (e : Nat) (r : Landed),
      let x := s.engine c e
      let ag := { s.agent x.tid with seat := x.seat }
      let esz := if e < 16 then 8 else x.esz
      let n := if e < 16 then min (256 - x.landed % 256) (x.bytes e - x.landed) else x.esz
      x.st = .active ∧
      e ≤ 17 ∧
      s.clusterHeld c = false ∧
      x.ending = none ∧
      Gives (landAll (fun k => if e < 16 then copyElement
        { ag with packet := some (if k % 32 = 0 then min 256 (x.bytes e - 8 * k) else 0) } c e (8 * k) else gatherElement ag c e
        k) x.seat c e esz ((List.range (n / esz)).map fun i => x.landed / esz + i)) s r s1) ∧
    (∃ (s : State) (s1 : State) (c : Nat) (e : Nat) (st : EState),
      let x := s.engine c e
      let y : Engine := { x with st := st, ending := none }
      x.st = .active ∧
      e ≤ 17 ∧
      s.clusterHeld c = false ∧
      x.ending = some st ∧
      Gives (completeEngine c e y) s () s1) ∧
    (∃ (s : State) (c : Nat) (j : CmJob),
      (s.cluster c).cmJob = some j ∧
      j.failed = none ∧
      j.writes = [] ∧
      j.reads = []) :=
  ⟨⟨1, 2, 3, (((((unitAt [(2, own), (3, 15)]).store 0xF1000000000000 8 0x00F0000000001000).store 0xF1000000000008 8
      0x00F0000000002000).store 0xF1000000000010 8 16).store 0xF1000000000018 8 0), _, _, _, _, _, 0x00F0000000001000,
      0x00F0000000002000, 16, 0, _, _, ready (by decide +kernel), by decide +kernel, gives (by decide +kernel), gives
      (by decide +kernel), by decide +kernel, givesVal (by decide +kernel), by decide +kernel, by decide +kernel,
      by decide +kernel, of_decide_eq_true (by decide +kernel), by decide +kernel, by decide +kernel, by decide +kernel,
      of_decide_eq_true (by decide +kernel), by decide +kernel, givesVal (by decide +kernel), givesVal (by decide +kernel)⟩,
    ⟨1, 2, 3, ((((((unitAt [(2, own), (3, 15)]).setEngine 0 15
      { seat := 16, tid := 0, src := 0x00F1000000001000, dst := 0x00F1000000002000, len := 16, st := .active }).store
      0xF1000000000000 8 0x00F0000000001000).store 0xF1000000000008 8 0x00F0000000002000).store 0xF1000000000010 8 16).store
      0xF1000000000018 8 0), _, _, _, _, _, 0x00F0000000001000, 0x00F0000000002000, 16, 0, _, ready (by decide +kernel),
      by decide +kernel, gives (by decide +kernel), gives (by decide +kernel), by decide +kernel, givesVal (by decide +kernel),
      by decide +kernel, by decide +kernel, by decide +kernel, of_decide_eq_true (by decide +kernel), by decide +kernel,
      by decide +kernel, by decide +kernel, of_decide_eq_true (by decide +kernel), givesVal (by decide +kernel)⟩,
    ⟨1, 2, 3, (((((((unitAt [(2, own), (3, 1)]).store 0xF1000000000000 8 0x00F0000000001000).store 0xF1000000000008 8
      0x00F0000000003000).store 0xF1000000000010 8 0x00F0000000002000).store 0xF1000000000018 8 0x300000002).store
      0xF1000000000020 8 0).store 0xF1000000000028 8 0), _, _, _, _, _, 0x00F0000000001000, 0x00F0000000003000,
      0x00F0000000002000, 0x300000002, 0, _, _, ready (by decide +kernel), by decide +kernel, gives (by decide +kernel), gives
      (by decide +kernel), by decide +kernel, givesVal (by decide +kernel), by decide +kernel, by decide +kernel,
      by decide +kernel, of_decide_eq_true (by decide +kernel), by decide +kernel, by decide +kernel, by decide +kernel,
      givesVal (by decide +kernel), givesVal (by decide +kernel)⟩,
    ⟨1, 2, 3, ((((((((unitAt [(2, own), (3, 1)]).setEngine 0 17
      { seat := 16, tid := 0, src := 0x00F1000000001000, dst := 0x00F1000000002000, len := 16, st := .active }).store
      0xF1000000000000 8 0x00F0000000001000).store 0xF1000000000008 8 0x00F0000000003000).store 0xF1000000000010 8
      0x00F0000000002000).store 0xF1000000000018 8 0x300000002).store 0xF1000000000020 8 0).store 0xF1000000000028 8 0), _, _,
      _, _, _, 0x00F0000000001000, 0x00F0000000003000, 0x00F0000000002000, 0x300000002, 0, _, ready (by decide +kernel),
      by decide +kernel, gives (by decide +kernel), gives (by decide +kernel), by decide +kernel, givesVal (by decide +kernel),
      by decide +kernel, by decide +kernel, by decide +kernel, of_decide_eq_true (by decide +kernel), by decide +kernel,
      by decide +kernel, by decide +kernel, givesVal (by decide +kernel)⟩,
    ⟨1, 2, ((unitAt [(2, 17)]).modThr 0 fun th => { th with cpAns := some (5, 0x00F1000000002000, 16) }), _, _, 5,
      0x00F1000000002000, 16, _, _, ready (by decide +kernel), by decide +kernel, gives (by decide +kernel), by decide +kernel,
      by decide +kernel, givesVal (by decide +kernel), givesVal (by decide +kernel)⟩,
    ⟨1, 2, (unitAt [(2, 17)]), _, _, _, ready (by decide +kernel), by decide +kernel, gives (by decide +kernel),
      by decide +kernel, by decide +kernel, by decide +kernel, givesVal (by decide +kernel)⟩,
    ⟨1, 2, ((unitAt [(2, 15)]).setEngine 0 15
      { seat := 16, tid := 0, src := 0x00F1000000001000, dst := 0x00F1000000002000, len := 16, st := .done, landed := 16 }), _,
      _, _, _, ready (by decide +kernel), by decide +kernel, gives (by decide +kernel), by decide +kernel, by decide +kernel,
      by decide +kernel, of_decide_eq_true (by decide +kernel), givesVal (by decide +kernel), givesVal (by decide +kernel)⟩,
    ⟨1, 2, ((unitAt [(2, 15)]).setEngine 0 15
      { seat := 16, tid := 0, src := 0x00F1000000001000, dst := 0x00F1000000002000, len := 16, st := .faulted }), _, _, ready
      (by decide +kernel), by decide +kernel, gives (by decide +kernel), by decide +kernel⟩,
    ⟨1, 2, ((unitAt [(2, 15)]).setEngine 0 15
      { seat := 16, tid := 0, src := 0x00F1000000001000, dst := 0x00F1000000002000, len := 16, st := .active }), _, _, ready
      (by decide +kernel), by decide +kernel, gives (by decide +kernel), by decide +kernel⟩,
    ⟨2, (unitAt [(2, 17)]), _, _, ready (by decide +kernel), by decide +kernel, gives (by decide +kernel), by decide +kernel⟩,
    ⟨2, ((unitAt [(2, 15)]).setEngine 0 15
      { seat := 16, tid := 0, src := 0x00F1000000001000, dst := 0x00F1000000002000, len := 16, st := .active }), _, _, _, ready
      (by decide +kernel), by decide +kernel, gives (by decide +kernel), by decide +kernel, by decide +kernel,
      by decide +kernel, givesVal (by decide +kernel)⟩,
    ⟨1, 2, ((unitAt [(2, 15)]).setEngine 0 15
      { seat := 16, tid := 0, src := 0x00F1000000001000, dst := 0x00F1000000002000, len := 16, st := .faulted }), _, _, _, ready
      (by decide +kernel), by decide +kernel, gives (by decide +kernel), by decide +kernel, givesVal (by decide +kernel)⟩,
    ⟨1, 2, (unitAt [(2, 18)]), _, _, readyAll (by decide +kernel), by decide +kernel, gives (by decide +kernel),
      by decide +kernel⟩,
    ⟨((((unitAt []).setEngine 0 15
      { seat := 16, tid := 0, src := 0x00F1000000001000, dst := 0x00F1000000002000, len := 16, st := .active }).store
      0xF1000000001000 8 7).store 0xF1000000001008 8 9), _, 0, 15, .ok, by decide +kernel, by decide +kernel, by decide +kernel,
      of_decide_eq_true (by decide +kernel), givesVal (by decide +kernel)⟩,
    ⟨((unitAt []).setEngine 0 15
      { seat := 16, tid := 0, src := 0x00F1000000001000, dst := 0x00F1000000002000, len := 16, st := .active, landed := 16, ending := some .done }),
      _, 0, 15, .done, by decide +kernel, by decide +kernel, by decide +kernel, of_decide_eq_true (by decide +kernel), givesVal
      (by decide +kernel)⟩,
    ⟨((unitAt []).modCluster 0 fun c => { c with cmJob := some { block := 2047 } }), 0, { block := 2047 }, by decide +kernel⟩⟩

/-- The hypotheses of VectorClaims can be met. -/
theorem meets_VectorClaims :
    (∃ (rd : _) (rs1 : _) (s : State) (s1 : State) (q : _) (s2 : State),
      Ready (.vclaim rd rs1) s ∧
      coreOf s.cur < 2048 ∧
      Gives (readX rs1) s q s1 ∧
      let hi := q.toNat % 16
      8 < hi ∧
      Gives (writeX rd (BitVec.ofInt 64 (-2))) s1 () s2) ∧
    (∃ (rd : _) (rs1 : _) (s : State) (s1 : State) (q : _) (s2 : State),
      Ready (.vclaim rd rs1) s ∧
      coreOf s.cur < 2048 ∧
      Gives (readX rs1) s q s1 ∧
      let t := s1.cur
      let n := coreOf t
      let hi := q.toNat % 16
      let lo := q.toNat / 16 % 16
      let c := s1.claim n
      hi ≤ 8 ∧
      lo ≤ hi ∧
      c.owner = some 1 ∧
      1 ≠ t ∧
      Gives (writeX rd (BitVec.ofInt 64 (-3))) s1 () s2) ∧
    (∃ (rd : _) (rs1 : _) (s : State) (s1 : State) (q : _) (s2 : State),
      Ready (.vclaim rd rs1) s ∧
      coreOf s.cur < 2048 ∧
      Gives (readX rs1) s q s1 ∧
      let t := s1.cur
      let n := coreOf t
      let hi := q.toNat % 16
      let lo := q.toNat / 16 % 16
      let c := s1.claim n
      let rsv := s1.reserved (octetOf n) (s1.thr t).deal (s1.thr t).hand.toNat
      hi ≤ 8 ∧
      lo ≤ hi ∧
      c.owner = none ∧
      rsv.length < lo ∧
      Gives (writeX rd (BitVec.ofInt 64 (-1))) s1 () s2) ∧
    (∃ (rd : _) (rs1 : _) (s : State) (s1 : State) (q : _) (s2 : State),
      Ready (.vclaim rd rs1) s ∧
      coreOf s.cur < 2048 ∧
      Gives (readX rs1) s q s1 ∧
      let t := s1.cur
      let n := coreOf t
      let hi := q.toNat % 16
      let lo := q.toNat / 16 % 16
      let c := s1.claim n
      let rsv := s1.reserved (octetOf n) (s1.thr t).deal (s1.thr t).hand.toNat
      let u := s1.modClaim n fun c => { c with owner := some t, minG := lo, maxG := hi, waiting := true }
      let new := rebalance n (c.decided.take hi) u
      let moves := new ≠ c.decided
      hi ≤ 8 ∧
      lo ≤ hi ∧
      c.owner = none ∧
      lo ≤ rsv.length ∧
      c.fault = none ∧
      (moves → c.queue = []) ∧
      lo ≤ new.length ∧
      new ≠ [] ∧
      Gives (writeX rd (BitVec.ofNat 64 new.length)) ((if moves then moveGroups n new u else u).modClaim n fun c =>
        { c with waiting := false, vl := 512 * new.length }) () s2) ∧
    (∃ (rd : _) (rs1 : _) (s : State) (s1 : State) (q : _) (s2 : State),
      Ready (.vclaim rd rs1) s ∧
      coreOf s.cur < 2048 ∧
      Gives (readX rs1) s q s1 ∧
      let t := s1.cur
      let n := coreOf t
      let hi := q.toNat % 16
      let lo := q.toNat / 16 % 16
      let c := s1.claim n
      let u := s1.modClaim n fun c => { c with owner := some t, minG := lo, maxG := hi, waiting := true }
      let new := rebalance n (c.decided.take hi) u
      let moves := new ≠ c.decided
      hi ≤ 8 ∧
      lo = 0 ∧
      c.owner = none ∧
      c.fault = none ∧
      (moves → c.queue = []) ∧
      new = [] ∧
      Gives (writeX rd 0) (endClaim n (if moves then moveGroups n new u else u)) () s2) ∧
    (∃ (rd : _) (rs1 : _) (s : State) (s1 : State) (q : _),
      Ready (.vclaim rd rs1) s ∧
      coreOf s.cur < 2048 ∧
      Gives (readX rs1) s q s1 ∧
      let t := s1.cur
      let n := coreOf t
      let hi := q.toNat % 16
      let lo := q.toNat / 16 % 16
      let c := s1.claim n
      let rsv := s1.reserved (octetOf n) (s1.thr t).deal (s1.thr t).hand.toNat
      let u := s1.modClaim n fun c => { c with owner := some t, minG := lo, maxG := hi, waiting := true }
      let new := rebalance n (c.decided.take hi) u
      let moves := new ≠ c.decided
      hi ≤ 8 ∧
      lo ≤ hi ∧
      c.owner = none ∧
      lo ≤ rsv.length ∧
      c.fault = none ∧
      (moves → c.queue = []) ∧
      new.length < lo) ∧
    (∃ (s : State),
      Ready .vrel s ∧
      coreOf s.cur < 2048 ∧
      (s.claim (coreOf s.cur)).owner = none) ∧
    (∃ (s : State),
      Ready .vrel s ∧
      coreOf s.cur < 2048 ∧
      (s.claim (coreOf s.cur)).owner = some s.cur ∧
      (s.claim (coreOf s.cur)).fault = none ∧
      (s.claim (coreOf s.cur)).queue = []) ∧
    (∃ (s : State) (o : Nat),
      Ready .vrel s ∧
      coreOf s.cur < 2048 ∧
      (s.claim (coreOf s.cur)).owner = some o ∧
      o ≠ s.cur) ∧
    (∃ (rd : _) (rs1 : _) (s : State) (s1 : State) (s2 : State) (v : _),
      Ready (.vlen rd rs1) s ∧
      coreOf s.cur < 2048 ∧
      (s.claim (coreOf s.cur)).owner = some s.cur ∧
      (s.claim (coreOf s.cur)).fault = none ∧
      Gives (readX rs1) s v s1 ∧
      let n := coreOf s1.cur
      let l := min v.toNat (512 * (s1.claim n).decided.length)
      Gives (writeX rd (BitVec.ofNat 64 (l - l % 8))) (s1.modClaim n fun c => { c with vl := l - l % 8 }) () s2) ∧
    (∃ (r : _) (sp : _) (rs1 : _) (rs2 : _) (s : State) (s1 : State) (s2 : State) (mask : Word) (a : Word),
      Ready (.vfence r sp rs1 rs2) s ∧
      coreOf s.cur < 2048 ∧
      (if sp then Gives (readX rs1) s mask s1 ∧ Gives (readX rs2) s1 a s2 else s2 = s) ∧
      let n := coreOf s2.cur
      let c := s2.claim n
      let th := s2.thr s2.cur
      let stopping := sp = true ∧ th.kn5 = true ∧ th.st = .stopping
      c.owner ≠ some s2.cur ∧
      ¬ stopping) ∧
    (∃ (r : _) (sp : _) (rs1 : _) (rs2 : _) (s : State) (s1 : State) (s2 : State) (mask : Word) (a : Word),
      Ready (.vfence r sp rs1 rs2) s ∧
      coreOf s.cur < 2048 ∧
      (if sp then Gives (readX rs1) s mask s1 ∧ Gives (readX rs2) s1 a s2 else s2 = s) ∧
      let n := coreOf s2.cur
      let c := s2.claim n
      let th := s2.thr s2.cur
      let stopping := sp = true ∧ th.kn5 = true ∧ th.st = .stopping
      c.owner ≠ some s2.cur ∧
      stopping) ∧
    (∃ (r : _) (sp : _) (rs1 : _) (rs2 : _) (s : State) (s1 : State) (s2 : State) (mask : Word) (a : Word),
      Ready (.vfence r sp rs1 rs2) s ∧
      coreOf s.cur < 2048 ∧
      (if sp then Gives (readX rs1) s mask s1 ∧ Gives (readX rs2) s1 a s2 else s2 = s) ∧
      let n := coreOf s2.cur
      let c := s2.claim n
      let th := s2.thr s2.cur
      let stopping := sp = true ∧ th.kn5 = true ∧ th.st = .stopping
      c.owner = some s2.cur ∧
      c.fault = none ∧
      c.queue = [] ∧
      ¬ stopping) ∧
    (∃ (r : _) (sp : _) (rs1 : _) (rs2 : _) (s : State) (s1 : State) (s2 : State) (mask : Word) (a : Word) (s3 : State),
      Ready (.vfence r sp rs1 rs2) s ∧
      coreOf s.cur < 2048 ∧
      (if sp then Gives (readX rs1) s mask s1 ∧ Gives (readX rs2) s1 a s2 else s2 = s) ∧
      let n := coreOf s2.cur
      let c := s2.claim n
      let th := s2.thr s2.cur
      let stopping := sp = true ∧ th.kn5 = true ∧ th.st = .stopping
      let new := rebalance n c.decided s2
      let u := if r = true then (if new = c.decided then settleMoves n s2 else moveGroups n new s2) else s2
      c.owner = some s2.cur ∧
      c.fault = none ∧
      c.queue = [] ∧
      stopping ∧
      Gives (safePoint mask a) u () s3) ∧
    (∃ (r : _) (sp : _) (rs1 : _) (rs2 : _) (s : State) (s1 : State) (s2 : State) (mask : Word) (a : Word),
      Ready (.vfence r sp rs1 rs2) s ∧
      coreOf s.cur < 2048 ∧
      (if sp then Gives (readX rs1) s mask s1 ∧ Gives (readX rs2) s1 a s2 else s2 = s) ∧
      let n := coreOf s2.cur
      let c := s2.claim n
      c.owner = some s2.cur ∧
      c.fault = none ∧
      c.queue ≠ []) ∧
    (∃ (s : State),
      Ready .vrel s ∧
      coreOf s.cur < 2048 ∧
      (s.claim (coreOf s.cur)).owner = some s.cur ∧
      (s.claim (coreOf s.cur)).fault = none ∧
      (s.claim (coreOf s.cur)).queue ≠ []) ∧
    (∃ (s : State) (core : Nat) (m : LaneMove) (l : List LaneMove),
      (s.claim core).moves = m :: l ∧
      m.ahead = 0) ∧
    (∃ (s : State) (core : Nat) (m : LaneMove) (l : List LaneMove),
      (s.claim core).moves = m :: l ∧
      m.ahead ≠ 0) :=
  ⟨⟨1, 2, (unitAt [(2, 0x09)]), _, _, _, ready (by decide +kernel), by decide +kernel, gives (by decide +kernel),
      by decide +kernel, givesVal (by decide +kernel)⟩,
    ⟨1, 2, ((unitAt [(2, 0x88)]).modCore 0 fun c => { c with claim := { owner := some 1 } }), _, _, _, ready
      (by decide +kernel), by decide +kernel, gives (by decide +kernel), by decide +kernel, by decide +kernel,
      by decide +kernel, of_decide_eq_true (by decide +kernel), givesVal (by decide +kernel)⟩,
    ⟨1, 2, (unitAt [(2, 0x88)]), _, _, _, ready (by decide +kernel), by decide +kernel, gives (by decide +kernel),
      by decide +kernel, by decide +kernel, by decide +kernel, of_decide_eq_true (by decide +kernel), givesVal
      (by decide +kernel)⟩,
    ⟨1, 2, (((unitAt [(2, 0x88)]).modThr 0 fun th => { th with deal := some 3 }).modOctet 0 fun y =>
      { y with lanes := [{ deal := 3, hand := 0, groups := [0, 1, 2, 3, 4, 5, 6, 7] }] }), _, _, _, ready (by decide +kernel),
      by decide +kernel, gives (by decide +kernel), by decide +kernel, by decide +kernel, by decide +kernel, of_decide_eq_true
      (by decide +kernel), by decide +kernel, by decide +kernel, by decide +kernel, of_decide_eq_true (by decide +kernel),
      givesVal (by decide +kernel)⟩,
    ⟨1, 2, ((unitAt [(2, 0x00)]).modThr 0 fun th => { th with deal := some 3 }), _, _, _, ready (by decide +kernel),
      by decide +kernel, gives (by decide +kernel), by decide +kernel, by decide +kernel, by decide +kernel, of_decide_eq_true
      (by decide +kernel), by decide +kernel, by decide +kernel, givesVal (by decide +kernel)⟩,
    ⟨1, 2, (((((unitAt [(2, 0x11)]).modThr 0 fun th => { th with deal := some 3 }).modOctet 0 fun y =>
      { y with lanes := [{ deal := 3, hand := 0, groups := [0] }] }).modCore 1 fun c =>
      { c with claim := { owner := some 4, groups := [0], minG := 1, maxG := 1 } }).modThr 4 fun th =>
      { th with st := .running, deal := some 3 }), _, _, ready (by decide +kernel), by decide +kernel, gives
      (by decide +kernel), by decide +kernel⟩,
    ⟨(unitAt []), ready (by decide +kernel), by decide +kernel⟩,
    ⟨((unitAt []).modCore 0 fun c => { c with claim := { owner := some 0 } }), ready (by decide +kernel), by decide +kernel⟩,
    ⟨((unitAt []).modCore 0 fun c => { c with claim := { owner := some 1 } }), 1, ready (by decide +kernel), by decide +kernel⟩,
    ⟨1, 2, ((unitAt [(2, 0xFFFF)]).modCore 0 fun c => { c with claim := { owner := some 0, groups := [0] } }), _, _, _, ready
      (by decide +kernel), by decide +kernel, by decide +kernel, by decide +kernel, gives (by decide +kernel), givesVal
      (by decide +kernel)⟩,
    ⟨true, false, 0, 0, (unitAt []), (unitAt []), _, 0, 0, ready (by decide +kernel), by decide +kernel, rfl, by decide +kernel⟩,
    ⟨false, true, 2, 3, ((unitAt [(2, 1), (3, own)]).modThr 0 fun th => { th with kn5 := true, st := .stopping }), _, _, _, _,
      ready (by decide +kernel), by decide +kernel, ⟨gives (by decide +kernel), gives (by decide +kernel)⟩, by decide +kernel⟩,
    ⟨true, false, 0, 0, ((unitAt []).modCore 0 fun c => { c with claim := { owner := some 0, groups := [0] } }), (unitAt []), _,
      0, 0, ready (by decide +kernel), by decide +kernel, rfl, by decide +kernel⟩,
    ⟨false, true, 2, 3, (((unitAt [(2, 1), (3, own)]).modThr 0 fun th => { th with kn5 := true, st := .stopping }).modCore 0 fun
      c => { c with claim := { owner := some 0, groups := [0] } }), _, _, _, _, _, ready (by decide +kernel), by decide +kernel,
      ⟨gives (by decide +kernel), gives (by decide +kernel)⟩, by decide +kernel, by decide +kernel, by decide +kernel,
      of_decide_eq_true (by decide +kernel), givesVal (by decide +kernel)⟩,
    ⟨true, false, 0, 0, ((unitAt []).modCore 0 fun c =>
      { c with claim := { owner := some 0, groups := [0], queue := [{ instr := .vrel, tid := 0 }] } }), (unitAt []), _, 0, 0,
      ready (by decide +kernel), by decide +kernel, rfl, by decide +kernel⟩,
    ⟨((unitAt []).modCore 0 fun c =>
      { c with claim := { owner := some 0, groups := [0], queue := [{ instr := .vrel, tid := 0 }] } }), ready
      (by decide +kernel), by decide +kernel⟩,
    ⟨((unitAt []).modCore 0 fun c => { c with claim := { owner := some 0, groups := [0], moves := [⟨[0, 1], 0⟩, ⟨[0], 3⟩] } }),
      0, ⟨[0, 1], 0⟩, [⟨[0], 3⟩], by decide +kernel⟩,
    ⟨((unitAt []).modCore 0 fun c => { c with claim := { owner := some 0, groups := [0], moves := [⟨[0, 1], 1⟩] } }), 0, ⟨[0,
      1], 1⟩, [], by decide +kernel⟩⟩

/-- The hypotheses of VectorCommands can be met. -/
theorem meets_VectorCommands :
    (∃ (i : Instr) (x1 x2 : Option Reg) (s s1 s2 s3 : State) (a b : Word),
      Ready i s ∧ coreOf s.cur < 2048 ∧
      let n := coreOf s.cur
      (s.claim n).owner = some s.cur ∧ (s.claim n).fault = none ∧ (s.claim n).queue.length < 16 ∧
      Gives (optX x1) s a s1 ∧ Gives (optX x2) s1 b s2 ∧ Gives pushRelease s2 () s3) ∧
    (∃ (i : Instr) (x1 x2 : Option Reg) (s s1 s2 s3 : State) (a b : Word),
      Ready i s ∧ coreOf s.cur < 2048 ∧
      let n := coreOf s.cur
      (s.claim n).owner = some s.cur ∧ (s.claim n).fault = none ∧ (s.claim n).queue.length < 16 ∧
      Gives (optX x1) s a s1 ∧ Gives (optX x2) s1 b s2 ∧ Gives pushRelease s2 () s3) ∧
    (∃ (vd : Reg) (a : Reg) (b : Reg),
      vd.toNat % 8 = 0 ∧
      (a.toNat < vd.toNat ∨ vd.toNat + 8 ≤ a.toNat) ∧
      (b.toNat < vd.toNat ∨ vd.toNat + 8 ≤ b.toNat)) ∧
    (∃ (t : _) (vd : _) (a : _) (b : _) (s : State),
      Ready (.vopa t vd a b) s ∧
      coreOf s.cur < 2048 ∧
      (s.claim (coreOf s.cur)).owner = some s.cur ∧
      (s.claim (coreOf s.cur)).fault = none ∧
      (vd.toNat % 8 ≠ 0 ∨ vd.toNat ≤ a.toNat ∧ a.toNat < vd.toNat + 8 ∨ vd.toNat ≤ b.toNat ∧ b.toNat < vd.toNat + 8)) ∧
    (∃ (i : Instr) (x1 x2 : Option Reg) (s s1 s2 s3 : State) (a b : Word),
      Ready i s ∧ coreOf s.cur < 2048 ∧
      let n := coreOf s.cur
      (s.claim n).owner = some s.cur ∧ (s.claim n).fault = none ∧ (s.claim n).queue.length < 16 ∧
      Gives (optX x1) s a s1 ∧ Gives (optX x2) s1 b s2 ∧ Gives pushRelease s2 () s3) ∧
    (∃ (z : _) (n : _) (rd : _) (vs1 : _) (rs2 : _) (s : State) (s1 : State) (s2 : State) (i : _),
      Ready (.vmvx z n rd vs1 rs2) s ∧
      coreOf s.cur < 2048 ∧
      (s.claim (coreOf s.cur)).owner = some s.cur ∧
      (s.claim (coreOf s.cur)).fault = none ∧
      Gives (readX rs2) s i s1 ∧
      let c := s1.claim (coreOf s1.cur)
      let w := szSize z
      let v := if i.toNat < c.vl / w then c.elem vs1.toNat i.toNat w else 0
      c.queue = [] ∧
      Gives (writeX rd (if n then BitVec.ofNat 64 v else BitVec.ofInt 64 (signExtend v (8 * w)))) s1 () s2) ∧
    (∃ (z : _) (n : _) (rd : _) (vs1 : _) (rs2 : _) (s : State) (s1 : State) (s2 : State) (i : _),
      Ready (.vmvx z n rd vs1 rs2) s ∧
      coreOf s.cur < 2048 ∧
      (s.claim (coreOf s.cur)).owner = some s.cur ∧
      (s.claim (coreOf s.cur)).fault = none ∧
      Gives (readX rs2) s i s1 ∧
      let c := s1.claim (coreOf s1.cur)
      let w := szSize z
      let v := if i.toNat < c.vl / w then c.elem vs1.toNat i.toNat w else 0
      c.queue = [] ∧
      Gives (writeX rd (if n then BitVec.ofNat 64 v else BitVec.ofInt 64 (signExtend v (8 * w)))) s1 () s2) ∧
    (∃ (z : _) (n : _) (rd : _) (vs1 : _) (s : State) (s1 : State),
      Ready (.vmpop z n rd vs1) s ∧
      coreOf s.cur < 2048 ∧
      let c := s.claim (coreOf s.cur)
      c.owner = some s.cur ∧
      c.fault = none ∧
      c.queue = [] ∧
      Gives (writeX rd (BitVec.ofNat 64 ((List.range (c.vl / szSize z)).countP fun e => c.bit vs1.toNat e))) s () s1) ∧
    (∃ (z : _) (n : _) (rd : _) (vs1 : _) (s : State) (s1 : State) (v : _),
      Ready (.vmfirst z n rd vs1) s ∧
      coreOf s.cur < 2048 ∧
      let c := s.claim (coreOf s.cur)
      c.owner = some s.cur ∧
      c.fault = none ∧
      c.queue = [] ∧
      (((∀ e, e < c.vl / szSize z → c.bit vs1.toNat e = false) ∧ v = BitVec.ofInt 64 (-1)) ∨ ∃ e, e < c.vl / szSize z ∧ c.bit
        vs1.toNat e = true ∧ (∀ d, d < e → c.bit vs1.toNat d = false) ∧ v = BitVec.ofNat 64 e) ∧
      Gives (writeX rd v) s () s1) ∧
    (∃ (z : _) (n : _) (rd : _) (vs1 : _) (s : State) (s1 : State) (v : _),
      Ready (.vmfirst z n rd vs1) s ∧
      coreOf s.cur < 2048 ∧
      let c := s.claim (coreOf s.cur)
      c.owner = some s.cur ∧
      c.fault = none ∧
      c.queue = [] ∧
      (((∀ e, e < c.vl / szSize z → c.bit vs1.toNat e = false) ∧ v = BitVec.ofInt 64 (-1)) ∨ ∃ e, e < c.vl / szSize z ∧ c.bit
        vs1.toNat e = true ∧ (∀ d, d < e → c.bit vs1.toNat d = false) ∧ v = BitVec.ofNat 64 e) ∧
      Gives (writeX rd v) s () s1) ∧
    (∃ (i : Instr) (s : State), Ready i s ∧ coreOf s.cur < 2048 ∧ (s.claim (coreOf s.cur)).owner ≠ some s.cur) ∧
    (∃ (i : Instr) (s : State) (sub : BitVec 8) (va pc : Word), Ready i s ∧ coreOf s.cur < 2048 ∧ (s.claim (coreOf s.cur)).owner = some s.cur ∧
      (s.claim (coreOf s.cur)).fault = some (sub, va, pc)) ∧
    (∃ (i : Instr) (s : State), Ready i s ∧ coreOf s.cur < 2048 ∧ (s.claim (coreOf s.cur)).owner = some s.cur ∧ (s.claim (coreOf s.cur)).fault = none ∧
      (s.claim (coreOf s.cur)).queue.length = 16) ∧
    (∃ (z : _) (n : _) (rd : _) (vs1 : _) (rs2 : _) (s : State) (s1 : State) (i : _),
      (∀ f ∈ [Instr.vmvx z n rd vs1 rs2, .vmpop z n rd vs1, .vmfirst z n rd vs1], Ready f s) ∧
      coreOf s.cur < 2048 ∧
      Gives (readX rs2) s i s1 ∧
      (s.claim (coreOf s.cur)).owner = some s.cur ∧
      (s.claim (coreOf s.cur)).fault = none ∧
      (s.claim (coreOf s.cur)).queue ≠ []) :=
  ⟨⟨.vfadd .f32 31 1 2, none, none, ((unitAt []).modCore 0 fun c =>
      { c with claim := { owner := some 0, groups := [0], vl := 512, queue := List.replicate 15 { instr := .vrel, tid := 0 } } }),
      _, _, _, _, _, ready (by decide +kernel), by decide +kernel, by decide +kernel, by decide +kernel, by decide +kernel,
      gives (by decide +kernel), gives (by decide +kernel), givesVal (by decide +kernel)⟩,
    ⟨.vadd .b64 false 31 1 2, none, none, ((unitAt []).modCore 0 fun c =>
      { c with claim := { owner := some 0, groups := [0], vl := 512, queue := List.replicate 15 { instr := .vrel, tid := 0 } } }),
      _, _, _, _, _, ready (by decide +kernel), by decide +kernel, by decide +kernel, by decide +kernel, by decide +kernel,
      gives (by decide +kernel), gives (by decide +kernel), givesVal (by decide +kernel)⟩,
    ⟨24, 23, 0, by decide +kernel, .inl (by decide), .inl (by decide)⟩,
    ⟨.f32, 9, 0, 0, ((unitAt []).modCore 0 fun c => { c with claim := { owner := some 0, groups := [0], vl := 512 } }), ready
      (by decide +kernel), by decide +kernel⟩,
    ⟨.vlds .b64 31 2 3, (some 2), (some 3), ((unitAt [(2, own), (3, 8)]).modCore 0 fun c =>
      { c with claim := { owner := some 0, groups := [0], vl := 512, queue := List.replicate 15 { instr := .vrel, tid := 0 } } }),
      _, _, _, _, _, ready (by decide +kernel), by decide +kernel, by decide +kernel, by decide +kernel, by decide +kernel,
      gives (by decide +kernel), gives (by decide +kernel), givesVal (by decide +kernel)⟩,
    ⟨.b64, false, 1, 1, 3, ((unitAt [(3, 63)]).modCore 0 fun c =>
      { c with claim := { owner := some 0, groups := [0], vl := 512 } }), _, _, _, ready (by decide +kernel), by decide +kernel,
      by decide +kernel, by decide +kernel, gives (by decide +kernel), by decide +kernel, givesVal (by decide +kernel)⟩,
    ⟨.b64, true, 1, 1, 3, ((unitAt [(3, 64)]).modCore 0 fun c =>
      { c with claim := { owner := some 0, groups := [0], vl := 512 } }), _, _, _, ready (by decide +kernel), by decide +kernel,
      by decide +kernel, by decide +kernel, gives (by decide +kernel), by decide +kernel, givesVal (by decide +kernel)⟩,
    ⟨.b64, false, 1, 1, ((unitAt []).modCore 0 fun c =>
      { c with claim := { owner := some 0, groups := [0], vl := 8, vregs := ⟨[(4096, 8)]⟩ } }), _, ready (by decide +kernel),
      by decide +kernel, by decide +kernel, by decide +kernel, of_decide_eq_true (by decide +kernel), givesVal
      (by decide +kernel)⟩,
    ⟨.b64, false, 1, 1, ((unitAt []).modCore 0 fun c => { c with claim := { owner := some 0, groups := [0], vl := 512 } }), _,
      _, ready (by decide +kernel), by decide +kernel, by decide +kernel, by decide +kernel, of_decide_eq_true
      (by decide +kernel), .inl ⟨by decide +kernel, rfl⟩, givesVal (by decide +kernel)⟩,
    ⟨.b64, false, 1, 1, ((unitAt []).modCore 0 fun c =>
      { c with claim := { owner := some 0, groups := [0], vl := 64, vregs := ⟨[(4096, 8)]⟩ } }), _, _, ready
      (by decide +kernel), by decide +kernel, by decide +kernel, by decide +kernel, of_decide_eq_true (by decide +kernel), .inr
      ⟨3, by decide +kernel, by decide +kernel, by decide +kernel, rfl⟩, givesVal (by decide +kernel)⟩,
    ⟨.vmpop .b64 false 1 2, (unitAt []), ready (by decide +kernel), by decide +kernel⟩,
    ⟨.vfadd .f32 1 2 3, ((unitAt []).modCore 0 fun c => { c with claim := { owner := some 0, fault := some (4, 8, 12) } }), 4,
      8, 12, ready (by decide +kernel), by decide +kernel⟩,
    ⟨.vfadd .f32 1 2 3, ((unitAt []).modCore 0 fun c =>
      { c with claim := { owner := some 0, queue := List.replicate 16 { instr := .vrel, tid := 0 } } }), ready
      (by decide +kernel), by decide +kernel⟩,
    ⟨.b64, true, 1, 1, 3, ((unitAt [(3, 5)]).modCore 0 fun c =>
      { c with claim := { owner := some 0, vl := 512, queue := [{ instr := .vrel, tid := 0 }] } }), _, _, readyAll
      (by decide +kernel), by decide +kernel, gives (by decide +kernel), by decide +kernel⟩⟩

/-- The hypotheses of VectorResults can be met. -/
theorem meets_VectorResults :
    (∃ (s : State) (core : Nat) (q : VCmd) (rest : List VCmd),
      s.poolRuns core = true ∧ (s.claim core).queue = q :: rest ∧ q.instr = .vadd .b64 false 3 1 2 ∧ (s.claim core).moves = [] ∧ q.vl ≤ 4096) ∧
    (∃ (s : State) (core : Nat) (q : VCmd) (rest : List VCmd),
      s.poolRuns core = true ∧ (s.claim core).queue = q :: rest ∧ q.instr = .vbcast .b8 true 31 0 ∧ (s.claim core).moves = [] ∧ q.vl ≤ 4096) ∧
    (∃ (s : State) (core : Nat) (q : VCmd) (rest : List VCmd),
      s.poolRuns core = true ∧ (s.claim core).queue = q :: rest ∧ q.instr = .vadds .b8 true 3 1 2 ∧ (s.claim core).moves = [] ∧ q.vl ≤ 4096) ∧
    (∃ (s : State) (core : Nat) (q : VCmd) (rest : List VCmd),
      s.poolRuns core = true ∧ (s.claim core).queue = q :: rest ∧ q.instr = .veq .b64 false 3 1 2 ∧ (s.claim core).moves = [] ∧ q.vl ≤ 4096) ∧
    (∃ (s : State) (core : Nat) (q : VCmd) (rest : List VCmd) (hs : List Nat) (bs : List Byte) (s1 s2 : State),
      s.poolRuns core = true ∧ (s.claim core).queue = q :: rest ∧ q.instr = .vld .b64 3 1 ∧ (s.claim core).moves = [] ∧ q.homes = [] ∧ q.data = [] ∧
      Gives (vectorCheck (s.agent q.tid) false 8 ((List.range (q.vl / 8)).map fun e => rewriteOwn (coreOf q.tid) q.x1 + BitVec.ofNat 64 (e * 8)) []) s (.all hs) s1 ∧
      Gives (vectorRead (s.agent q.tid) 8 (((List.range (q.vl / 8)).map fun e => rewriteOwn (coreOf q.tid) q.x1 + BitVec.ofNat 64 (e * 8)).zip hs) []) s1 (.all bs) s2) ∧
    (∃ (s : State) (core : Nat) (q : VCmd) (rest : List VCmd) (hs : List Nat) (k : Nat) (s1 s2 : State),
      s.poolRuns core = true ∧ (s.claim core).queue = q :: rest ∧ q.instr = .vst .b64 3 1 ∧ (s.claim core).moves = [] ∧ q.homes = [] ∧ q.prog = 0 ∧
      let as := (List.range (q.vl / 8)).map fun e => rewriteOwn (coreOf q.tid) q.x1 + BitVec.ofNat 64 (e * 8)
      Gives (vectorCheck (s.agent q.tid) true 8 as []) s (.all hs) s1 ∧
      let xs := as.zip hs
      Gives (vectorWrite (s.agent q.tid) 8 (((List.range xs.length).zip xs).map fun x => (x.2, (s.claim core).elem 3 x.1 8)) 0) s1 (.all k) s2) ∧
    (∃ (s : State) (core : Nat) (q : VCmd) (rest : List VCmd),
      s.poolRuns core = true ∧ (s.claim core).queue = q :: rest ∧ q.instr = .vfadd .f32 3 1 2 ∧ (s.claim core).moves = [] ∧ q.vl ≤ 4096) ∧
    (∃ (s : State) (core : Nat) (q : VCmd) (rest : List VCmd),
      s.poolRuns core = true ∧ (s.claim core).queue = q :: rest ∧ q.instr = .vfle .f16 31 1 2 ∧ (s.claim core).moves = [] ∧ q.vl ≤ 4096) ∧
    (∃ (s : State) (core : Nat) (q : VCmd) (rest : List VCmd),
      s.poolRuns core = true ∧ (s.claim core).queue = q :: rest ∧ q.instr = .vopa .f32 8 1 2 ∧ (s.claim core).moves = [] ∧ q.vl ≤ 4096 ∧ (8 : Reg).toNat % 8 = 0) ∧
    (∃ (s : State) (core : Nat) (q : VCmd) (rest : List VCmd),
      s.poolRuns core = true ∧ (s.claim core).queue = q :: rest ∧ q.instr = .vcvt .i8 true .f32 3 1 ∧ (s.claim core).moves = [] ∧ q.vl ≤ 4096) ∧
    (∃ (s : State) (core : Nat) (q : VCmd) (rest : List VCmd),
      s.poolRuns core = true ∧ (s.claim core).queue = q :: rest ∧ q.instr = .vredsum .f32 3 1 ∧ (s.claim core).moves = [] ∧ q.vl ≤ 4096 ∧ ∃ f, ntyFloat .f32 = some f) ∧
    (∃ (s : State) (core : Nat) (q : VCmd) (rest : List VCmd),
      s.poolRuns core = true ∧ (s.claim core).queue = q :: rest ∧ q.instr = .vredmin .n16 3 1 ∧ (s.claim core).moves = [] ∧ q.vl ≤ 4096 ∧ ntyFloat .n16 = none) :=
  ⟨⟨((unitAt []).modCore 0 fun c =>
      { c with claim := { owner := some 0, groups := [0, 1, 2, 3, 4, 5, 6, 7], vl := 4096, queue := [{ instr := .vadd .b64 false 3 1 2, tid := 0, vl := 4096 }] } }),
      0, { instr := .vadd .b64 false 3 1 2, tid := 0, vl := 4096 }, [], by decide +kernel, by decide +kernel, rfl,
      by decide +kernel⟩,
    ⟨((unitAt []).modCore 0 fun c =>
      { c with claim := { owner := some 0, groups := [0, 1, 2, 3, 4, 5, 6, 7], vl := 4096, queue := [{ instr := .vbcast .b8 true 31 0, tid := 0, vl := 4096 }] } }),
      0, { instr := .vbcast .b8 true 31 0, tid := 0, vl := 4096 }, [], by decide +kernel, by decide +kernel, rfl,
      by decide +kernel⟩,
    ⟨((unitAt []).modCore 0 fun c =>
      { c with claim := { owner := some 0, groups := [0, 1, 2, 3, 4, 5, 6, 7], vl := 4096, queue := [{ instr := .vadds .b8 true 3 1 2, tid := 0, vl := 4096 }] } }),
      0, { instr := .vadds .b8 true 3 1 2, tid := 0, vl := 4096 }, [], by decide +kernel, by decide +kernel, rfl,
      by decide +kernel⟩,
    ⟨((unitAt []).modCore 0 fun c =>
      { c with claim := { owner := some 0, groups := [0, 1, 2, 3, 4, 5, 6, 7], vl := 4096, queue := [{ instr := .veq .b64 false 3 1 2, tid := 0, vl := 4096 }] } }),
      0, { instr := .veq .b64 false 3 1 2, tid := 0, vl := 4096 }, [], by decide +kernel, by decide +kernel, rfl,
      by decide +kernel⟩,
    ⟨((unitAt []).modCore 0 fun c =>
      { c with claim := { owner := some 0, groups := [0, 1, 2, 3, 4, 5, 6, 7], vl := 16, queue := [{ instr := .vld .b64 3 1, tid := 0, vl := 16, x1 := own }] } }),
      0, { instr := .vld .b64 3 1, tid := 0, vl := 16, x1 := own }, [], _, _, _, _, by decide +kernel, by decide +kernel, rfl,
      by decide +kernel, by decide +kernel, by decide +kernel, givesAll (by decide +kernel), givesAll (by decide +kernel)⟩,
    ⟨((unitAt []).modCore 0 fun c =>
      { c with claim := { owner := some 0, groups := [0, 1, 2, 3, 4, 5, 6, 7], vl := 16, queue := [{ instr := .vst .b64 3 1, tid := 0, vl := 16, x1 := own }] } }),
      0, { instr := .vst .b64 3 1, tid := 0, vl := 16, x1 := own }, [], _, _, _, _, by decide +kernel, by decide +kernel, rfl,
      by decide +kernel, by decide +kernel, by decide +kernel, givesAll (by decide +kernel), givesAll (by decide +kernel)⟩,
    ⟨((unitAt []).modCore 0 fun c =>
      { c with claim := { owner := some 0, groups := [0, 1, 2, 3, 4, 5, 6, 7], vl := 4096, queue := [{ instr := .vfadd .f32 3 1 2, tid := 0, vl := 4096 }] } }),
      0, { instr := .vfadd .f32 3 1 2, tid := 0, vl := 4096 }, [], by decide +kernel, by decide +kernel, rfl, by decide +kernel⟩,
    ⟨((unitAt []).modCore 0 fun c =>
      { c with claim := { owner := some 0, groups := [0, 1, 2, 3, 4, 5, 6, 7], vl := 4096, queue := [{ instr := .vfle .f16 31 1 2, tid := 0, vl := 4096 }] } }),
      0, { instr := .vfle .f16 31 1 2, tid := 0, vl := 4096 }, [], by decide +kernel, by decide +kernel, rfl, by decide +kernel⟩,
    ⟨((unitAt []).modCore 0 fun c =>
      { c with claim := { owner := some 0, groups := [0, 1, 2, 3, 4, 5, 6, 7], vl := 4096, queue := [{ instr := .vopa .f32 8 1 2, tid := 0, vl := 4096 }] } }),
      0, { instr := .vopa .f32 8 1 2, tid := 0, vl := 4096 }, [], by decide +kernel, by decide +kernel, rfl, by decide +kernel⟩,
    ⟨((unitAt []).modCore 0 fun c =>
      { c with claim := { owner := some 0, groups := [0, 1, 2, 3, 4, 5, 6, 7], vl := 4096, queue := [{ instr := .vcvt .i8 true .f32 3 1, tid := 0, vl := 4096 }] } }),
      0, { instr := .vcvt .i8 true .f32 3 1, tid := 0, vl := 4096 }, [], by decide +kernel, by decide +kernel, rfl,
      by decide +kernel⟩,
    ⟨((unitAt []).modCore 0 fun c =>
      { c with claim := { owner := some 0, groups := [0, 1, 2, 3, 4, 5, 6, 7], vl := 4096, queue := [{ instr := .vredsum .f32 3 1, tid := 0, vl := 4096 }] } }),
      0, { instr := .vredsum .f32 3 1, tid := 0, vl := 4096 }, [], by decide +kernel, by decide +kernel, rfl, by decide +kernel,
      by decide +kernel, _, rfl⟩,
    ⟨((unitAt []).modCore 0 fun c =>
      { c with claim := { owner := some 0, groups := [0, 1, 2, 3, 4, 5, 6, 7], vl := 4096, queue := [{ instr := .vredmin .n16 3 1, tid := 0, vl := 4096 }] } }),
      0, { instr := .vredmin .n16 3 1, tid := 0, vl := 4096 }, [], by decide +kernel, by decide +kernel, rfl, by decide +kernel⟩⟩

/-- The hypotheses of RowArray can be met. -/
theorem meets_RowArray :
    (∃ (rs1 : _) (s : State) (s1 : State) (c : _),
      Ready (.mxCfg rs1) s ∧
      coreOf s.cur < 2048 ∧
      Gives (readX rs1) s c s1 ∧
      Gives (mxHeld true) s1 () s1 ∧
      c.toNat % 4 ≠ 3 ∧
      c.toNat / 4 % 4 ≠ 3 ∧
      c.toNat / 16 % 4 ≠ 3 ∧
      c.toNat / 64 % 4 ≠ 3 ∧
      c.toNat < 2 ^ 32 ∧
      c.toNat / 2 ^ 8 % 2 ^ 8 = 0 ∧
      (c.toNat / 16 % 4 ≠ 0 → c.toNat / 2 ^ 16 % 2 ^ 16 ≠ 0) ∧
      (s1.reduced (dieOf (coreOf s1.cur)) = true → c.toNat % 4 ≠ 2 ∧ c.toNat / 4 % 4 ≠ 2)) ∧
    (∃ (rs1 : _) (s : State) (s1 : State) (c : _),
      Ready (.mxCfg rs1) s ∧
      coreOf s.cur < 2048 ∧
      Gives (readX rs1) s c s1 ∧
      Gives (mxHeld true) s1 () s1 ∧
      (c.toNat % 4 = 3 ∨ c.toNat / 4 % 4 = 3 ∨ c.toNat / 16 % 4 = 3 ∨ c.toNat / 64 % 4 = 3 ∨ 2 ^ 32 ≤ c.toNat ∨ c.toNat / 2 ^ 8
        % 2 ^ 8 ≠ 0 ∨ c.toNat / 16 % 4 ≠ 0 ∧ c.toNat / 2 ^ 16 % 2 ^ 16 = 0 ∨ s1.reduced (dieOf (coreOf s1.cur)) = true ∧
        (c.toNat % 4 = 2 ∨ c.toNat / 4 % 4 = 2))) ∧
    (∃ (rs1 : _) (s : State) (s1 : State) (c : _),
      Ready (.mxCfg rs1) s ∧
      coreOf s.cur < 2048 ∧
      Gives (readX rs1) s c s1 ∧
      Gives (mxHeld true) s1 () s1 ∧
      (c.toNat % 4 = 3 ∨ c.toNat / 4 % 4 = 3 ∨ c.toNat / 16 % 4 = 3 ∨ c.toNat / 64 % 4 = 3 ∨ 2 ^ 32 ≤ c.toNat ∨ c.toNat / 2 ^ 8
        % 2 ^ 8 ≠ 0 ∨ c.toNat / 16 % 4 ≠ 0 ∧ c.toNat / 2 ^ 16 % 2 ^ 16 = 0 ∨ s1.reduced (dieOf (coreOf s1.cur)) = true ∧
        (c.toNat % 4 = 2 ∨ c.toNat / 4 % 4 = 2))) ∧
    (∃ (s : State) (b : Bool),
      let holds := s.holdsArray ((s.thr s.cur).seat.getD 0) (octetOf (coreOf s.cur)) = true
      let driven := b = true ∧ s.runOctet (octetOf (coreOf s.cur)) ≠ none
      holds ∧
      ¬ driven) ∧
    (∃ (s : State),
      let holds := s.holdsArray ((s.thr s.cur).seat.getD 0) (octetOf (coreOf s.cur)) = true
      ¬ holds) ∧
    (∃ (s : State) (b : Bool),
      let holds := s.holdsArray ((s.thr s.cur).seat.getD 0) (octetOf (coreOf s.cur)) = true
      let driven := b = true ∧ s.runOctet (octetOf (coreOf s.cur)) ≠ none
      holds ∧
      driven) ∧
    (∃ (rs1 : _) (rs2 : _) (s : State) (s1 : State) (s2 : State) (s3 : State) (s4 : State) (a : _) (d : _),
      Ready (.mxLda rs1 rs2) s ∧
      coreOf s.cur < 2048 ∧
      Gives (readX rs1) s a s1 ∧
      Gives (readX rs2) s1 d s2 ∧
      let n := coreOf s.cur
      let o := octetOf n
      let ctx := (s2.mx n).ctx
      let count := d.toNat / 256 % 128
      (∀ l ∈ (s2.octet o).loads, l.tid ≠ s.cur) ∧
      Gives (mxHeld false) s2 () s2 ∧
      d.toNat < 2 ^ 15 ∧
      d.toNat / 64 % 4 = 0 ∧
      1 ≤ count ∧
      count ≤ 64 ∧
      a.toNat % sxAlign (ctx.toNat % 4) = 0 ∧
      let l : MxLoad :=
        { tid := s.cur, arr := (s2.octet o).arrivals, addr := rewriteOwn n a, first := d.toNat % 64, count := count, fmt := BitVec.ofNat 2 (ctx.toNat % 4), g := spG (ctx.toNat / 16 % 4) }
      Gives (progress pushRelease) (keepLoad o l (s2.modOctet o fun y => { y with arrivals := y.arrivals + 1 })) () s3 ∧
      Gives (ldaVectors (s.agent s.cur) o count l) s3 () s4) ∧
    (∃ (rs1 : _) (rs2 : _) (s : State) (s1 : State) (s2 : State) (s3 : State) (s4 : State) (a : _) (d : _) (l : _),
      Ready (.mxLda rs1 rs2) s ∧
      coreOf s.cur < 2048 ∧
      Gives (readX rs1) s a s1 ∧
      Gives (readX rs2) s1 d s2 ∧
      (s2.octet (octetOf (coreOf s.cur))).loads.find? (fun x => x.tid == s.cur) = some l ∧
      Gives (progress pushRelease) s2 () s3 ∧
      Gives (ldaVectors (s.agent s.cur) (octetOf (coreOf s.cur)) (l.count - l.done) l) s3 () s4) ∧
    (∃ (ag : Agent) (o : Nat) (l : MxLoad) (s : State) (s1 : State) (bs : _),
      s.loadWaits o l ((l.first + l.done) % 64) = false ∧
      Gives (readBlocks ag l.fmt.toNat (8 * l.g - l.got.length) (l.addr + BitVec.ofNat 64 ((8 * l.g * l.done + l.got.length) *
        sxBytes l.fmt.toNat)) l.got) s (.all bs) s1) ∧
    (∃ (rs1 : _) (s : State) (s1 : State) (s2 : State) (s3 : State) (a : _),
      Ready (.mxLdb rs1) s ∧
      coreOf s.cur < 2048 ∧
      Gives (readX rs1) s a s1 ∧
      let n := coreOf s.cur
      let o := octetOf n
      let ctx := (s1.mx n).ctx
      (∀ l ∈ (s1.mx n).ldbs, l.tid ≠ s.cur) ∧
      Gives (mxHeld true) s1 () s1 ∧
      a.toNat % sxAlign (ctx.toNat / 4 % 4) = 0 ∧
      let l : MxLoad :=
        { tid := s.cur, arr := (s1.octet o).arrivals, addr := rewriteOwn n a, fmt := BitVec.ofNat 2 (ctx.toNat / 4 % 4), ncol := shapeCols (ctx.toNat / 64 % 4), seed := BitVec.ofNat 16 (ctx.toNat / 2 ^ 16 % 2 ^ 16) }
      Gives (progress pushRelease) (keepTile n l (s1.modOctet o fun y => { y with arrivals := y.arrivals + 1 })) () s2 ∧
      Gives (ldbTile (s.agent s.cur) n l) s2 () s3) ∧
    (∃ (rs1 : _) (s : State) (s1 : State) (s2 : State) (s3 : State) (a : _) (l : _),
      Ready (.mxLdb rs1) s ∧
      coreOf s.cur < 2048 ∧
      Gives (readX rs1) s a s1 ∧
      (s1.mx (coreOf s.cur)).ldbs.find? (fun x => x.tid == s.cur) = some l ∧
      Gives (progress pushRelease) s1 () s2 ∧
      Gives (ldbTile (s.agent s.cur) (coreOf s.cur) l) s2 () s3) ∧
    (∃ (ag : Agent) (n : Nat) (l : MxLoad) (s : State) (s1 : State) (bs : _),
      s.tileWaits n l = false ∧
      Gives (readBlocks ag l.fmt.toNat (8 * l.ncol - l.got.length) (l.addr + BitVec.ofNat 64 (l.got.length * sxBytes
        l.fmt.toNat)) l.got) s (.all bs) s1) ∧
    (∃ (rs1 : _) (s : State) (s1 : State) (s2 : State) (d : _),
      Ready (.mxGo rs1) s ∧
      coreOf s.cur < 2048 ∧
      Gives (readX rs1) s d s1 ∧
      let n := coreOf s.cur
      (∀ g ∈ (s1.mx n).go, g.tid ≠ s.cur) ∧
      Gives (mxHeld true) s1 () s1 ∧
      d.toNat < 2 ^ 15 ∧
      d.getLsbD 7 = false ∧
      1 ≤ d.toNat / 256 % 128 ∧
      d.toNat / 256 % 128 ≤ 64 ∧
      Gives (progress pushRelease) (s1.modMx n fun m =>
        { m with go := m.go ++ [{ tid := s.cur, ctx := (s1.mx n).ctx, desc := d, ans := .waits }] }) () s2) ∧
    (∃ (rs1 : _) (s : State) (s1 : State) (d : _) (g : GoReq),
      Ready (.mxGo rs1) s ∧
      coreOf s.cur < 2048 ∧
      Gives (readX rs1) s d s1 ∧
      (s1.mx (coreOf s.cur)).go.find? (fun g => g.tid == s.cur) = some g ∧
      g.ans = .joined) ∧
    (∃ (rs1 : _) (s : State) (s1 : State) (d : _) (g : GoReq),
      Ready (.mxGo rs1) s ∧
      coreOf s.cur < 2048 ∧
      Gives (readX rs1) s d s1 ∧
      (s1.mx (coreOf s.cur)).go.find? (fun g => g.tid == s.cur) = some g ∧
      g.ans = .traps 2 0x407F) ∧
    (∃ (vd : _) (rd : _) (s : State) (s1 : State) (s2 : State) (p : _) (r : _),
      Ready (.mxPop vd rd) s ∧
      coreOf s.cur < 2048 ∧
      Gives (mxHeld false) s () s ∧
      let n := coreOf s.cur
      let h := if (s.mx n).popHalf then 1 else 0
      let leaves := p.sums.length ≠ 256 ∨ (s.mx n).popHalf = true
      (s.claim n).owner = some s.cur ∧
      (s.claim n).queue.length < 16 ∧
      (s.mx n).queue = p :: r ∧
      Gives pushRelease s () s1 ∧
      Gives (writeX rd (BitVec.ofNat 64 (p.ea + 256 * h + (if p.last then 512 else 0) + (if p.loss then 1024 else 0) + 65536 *
        (p.row % 65536)))) (recheckOctet (octetOf n) ((s1.modClaim n fun c =>
        { c with queue := c.queue ++ [{ instr := .mxPop vd rd, tid := s.cur, pc := (s.thr s.cur).pc, vl := c.vl, data := halfRow p h }] }).modMx
        n fun m => { m with queue := if leaves then r else p :: r, popHalf := !decide leaves })) () s2) ∧
    (∃ (vd : _) (rd : _) (s : State) (s1 : State) (s2 : State) (p : _) (r : _),
      Ready (.mxPop vd rd) s ∧
      coreOf s.cur < 2048 ∧
      Gives (mxHeld false) s () s ∧
      let n := coreOf s.cur
      let h := if (s.mx n).popHalf then 1 else 0
      let leaves := p.sums.length ≠ 256 ∨ (s.mx n).popHalf = true
      (s.claim n).owner = some s.cur ∧
      (s.claim n).queue.length < 16 ∧
      (s.mx n).queue = p :: r ∧
      Gives pushRelease s () s1 ∧
      Gives (writeX rd (BitVec.ofNat 64 (p.ea + 256 * h + (if p.last then 512 else 0) + (if p.loss then 1024 else 0) + 65536 *
        (p.row % 65536)))) (recheckOctet (octetOf n) ((s1.modClaim n fun c =>
        { c with queue := c.queue ++ [{ instr := .mxPop vd rd, tid := s.cur, pc := (s.thr s.cur).pc, vl := c.vl, data := halfRow p h }] }).modMx
        n fun m => { m with queue := if leaves then r else p :: r, popHalf := !decide leaves })) () s2) ∧
    (∃ (vd : _) (rd : _) (s : State) (s1 : State),
      Ready (.mxPop vd rd) s ∧
      coreOf s.cur < 2048 ∧
      Gives (mxHeld false) s () s ∧
      (s.claim (coreOf s.cur)).owner = some s.cur ∧
      (s.mx (coreOf s.cur)).queue = [] ∧
      (s.octet (octetOf (coreOf s.cur))).ops = [] ∧
      (s.octet (octetOf (coreOf s.cur))).pipe = [] ∧
      s.runOctet (octetOf (coreOf s.cur)) = none ∧
      Gives (writeX rd (BitVec.ofInt 64 (-1))) s () s1) ∧
    (∃ (s : State),
      Ready .mxDrop s ∧
      coreOf s.cur < 2048 ∧
      Gives (mxHeld false) s () s) ∧
    (∃ (s : State),
      Ready .mxAbort s ∧
      coreOf s.cur < 2048 ∧
      Gives (mxHeld true) s () s) ∧
    (∃ (rs1 : _) (rs2 : _) (s : State) (s1 : State) (s2 : State) (a : Word) (d : Word),
      Ready (.mxLda rs1 rs2) s ∧
      coreOf s.cur < 2048 ∧
      Gives (readX rs1) s a s1 ∧
      Gives (readX rs2) s1 d s2 ∧
      (∀ l ∈ (s2.octet (octetOf (coreOf s.cur))).loads, l.tid ≠ s.cur) ∧
      Gives (mxHeld false) s2 () s2 ∧
      let bad := 2 ^ 15 ≤ d.toNat ∨ d.toNat / 64 % 4 ≠ 0 ∨ d.toNat / 256 % 128 = 0 ∨ 64 < d.toNat / 256 % 128
      bad) ∧
    (∃ (rs1 : _) (rs2 : _) (s : State) (s1 : State) (s2 : State) (a : Word) (d : Word),
      Ready (.mxLda rs1 rs2) s ∧
      coreOf s.cur < 2048 ∧
      Gives (readX rs1) s a s1 ∧
      Gives (readX rs2) s1 d s2 ∧
      (∀ l ∈ (s2.octet (octetOf (coreOf s.cur))).loads, l.tid ≠ s.cur) ∧
      Gives (mxHeld false) s2 () s2 ∧
      let bad := 2 ^ 15 ≤ d.toNat ∨ d.toNat / 64 % 4 ≠ 0 ∨ d.toNat / 256 % 128 = 0 ∨ 64 < d.toNat / 256 % 128
      ¬ bad ∧
      a.toNat % sxAlign ((s2.mx (coreOf s.cur)).ctx.toNat % 4) ≠ 0) ∧
    (∃ (rs1 : _) (s : State) (s1 : State) (a : _),
      Ready (.mxLdb rs1) s ∧
      coreOf s.cur < 2048 ∧
      Gives (readX rs1) s a s1 ∧
      (∀ l ∈ (s1.mx (coreOf s.cur)).ldbs, l.tid ≠ s.cur) ∧
      Gives (mxHeld true) s1 () s1 ∧
      a.toNat % sxAlign ((s1.mx (coreOf s.cur)).ctx.toNat / 4 % 4) ≠ 0) ∧
    (∃ (rs1 : _) (s : State) (s1 : State) (d : _),
      Ready (.mxGo rs1) s ∧
      coreOf s.cur < 2048 ∧
      Gives (readX rs1) s d s1 ∧
      (∀ g ∈ (s1.mx (coreOf s.cur)).go, g.tid ≠ s.cur) ∧
      Gives (mxHeld true) s1 () s1 ∧
      (2 ^ 15 ≤ d.toNat ∨ d.getLsbD 7 = true ∨ d.toNat / 256 % 128 = 0 ∨ 64 < d.toNat / 256 % 128)) ∧
    (∃ (vd : _) (rd : _) (s : State),
      Ready (.mxPop vd rd) s ∧
      coreOf s.cur < 2048 ∧
      Gives (mxHeld false) s () s ∧
      (s.claim (coreOf s.cur)).owner ≠ some s.cur) :=
  ⟨⟨2, (unitAt [(2, 0x50050)]), _, _, ready (by decide +kernel), by decide +kernel, gives (by decide +kernel), rfl,
      by decide +kernel⟩,
    ⟨2, (unitAt [(2, 0x3)]), _, _, ready (by decide +kernel), by decide +kernel, gives (by decide +kernel), rfl,
      by decide +kernel⟩,
    ⟨2, (unitAt [(2, 0x100)]), _, _, ready (by decide +kernel), by decide +kernel, gives (by decide +kernel), rfl,
      by decide +kernel⟩,
    ⟨(unitAt []), false, by decide +kernel⟩,
    ⟨((unitAt []).modThr 0 fun th => { th with seat := some 17 }), by decide +kernel⟩,
    ⟨((unitAt []).modOctet 0 fun y => { y with run := { st := .running, seat := 16 } }), true, by decide +kernel⟩,
    ⟨2, 3, (unitAt [(2, own), (3, 0x13F)]), _, _, _, _, _, _, ready (by decide +kernel), by decide +kernel, gives
      (by decide +kernel), gives (by decide +kernel), by decide +kernel, rfl, by decide +kernel, by decide +kernel,
      by decide +kernel, of_decide_eq_true (by decide +kernel), by decide +kernel, givesVal (by decide +kernel), givesVal
      (by decide +kernel)⟩,
    ⟨2, 3, ((unitAt [(2, own), (3, 0x403F)]).modOctet 0 fun y =>
      { y with loads := [{ tid := 0, arr := 0, addr := 0x00F1000000000000, first := 63, count := 2, fmt := 2, g := 4, done := 1, got := [0] }] }),
      _, _, _, _, _, _,
      { tid := 0, arr := 0, addr := 0x00F1000000000000, first := 63, count := 2, fmt := 2, g := 4, done := 1, got := [0] },
      ready (by decide +kernel), by decide +kernel, gives (by decide +kernel), gives (by decide +kernel), by decide +kernel,
      givesVal (by decide +kernel), givesVal (by decide +kernel)⟩,
    ⟨{ core := 0, tid := 0, seat := 16, deal := none }, 0,
      { tid := 0, arr := 0, addr := 0x00F1000000000000, first := 63, count := 2, fmt := 2, g := 4, done := 1, got := [0] },
      (unitAt []), _, _, by decide +kernel, givesAll (by decide +kernel)⟩,
    ⟨2, ((unitAt [(2, own)]).modMx 0 fun m => { m with ctx := 0x80 }), _, _, _, _, ready (by decide +kernel), by decide +kernel,
      gives (by decide +kernel), by decide +kernel, rfl, by decide +kernel, givesVal (by decide +kernel), givesVal
      (by decide +kernel)⟩,
    ⟨2, ((unitAt [(2, own)]).modMx 0 fun m =>
      { m with ldbs := [{ tid := 0, arr := 0, addr := 0x00F1000000000000, ncol := 64, fmt := 2, got := List.replicate 510 0 }] }),
      _, _, _, _, { tid := 0, arr := 0, addr := 0x00F1000000000000, ncol := 64, fmt := 2, got := List.replicate 510 0 }, ready
      (by decide +kernel), by decide +kernel, gives (by decide +kernel), by decide +kernel, givesVal (by decide +kernel),
      givesVal (by decide +kernel)⟩,
    ⟨{ core := 0, tid := 0, seat := 16, deal := none }, 0,
      { tid := 0, arr := 0, addr := 0x00F1000000000000, ncol := 64, fmt := 2, got := List.replicate 510 0 }, (unitAt []), _, _,
      by decide +kernel, givesAll (by decide +kernel)⟩,
    ⟨2, (unitAt [(2, 0x407F)]), _, _, _, ready (by decide +kernel), by decide +kernel, gives (by decide +kernel),
      by decide +kernel, rfl, by decide +kernel, by decide +kernel, by decide +kernel, of_decide_eq_true (by decide +kernel),
      givesVal (by decide +kernel)⟩,
    ⟨2, ((unitAt [(2, 0x407F)]).modMx 0 fun m => { m with go := [{ tid := 0, desc := 0x407F, ans := .joined }] }), _, _,
      { tid := 0, desc := 0x407F, ans := .joined }, ready (by decide +kernel), by decide +kernel, gives (by decide +kernel),
      by decide +kernel⟩,
    ⟨2, ((unitAt [(2, 0x407F)]).modMx 0 fun m => { m with go := [{ tid := 0, desc := 0x407F, ans := .traps 2 0x407F }] }), _, _,
      { tid := 0, desc := 0x407F, ans := .traps 2 0x407F }, ready (by decide +kernel), by decide +kernel, gives
      (by decide +kernel), by decide +kernel⟩,
    ⟨31, 1, (((unitAt []).modCore 0 fun c => { c with claim := { owner := some 0, groups := [0] } }).modMx 0 fun m =>
      { m with queue := [{ sums := List.replicate 64 1, ea := 255, row := 65535, last := true, loss := true }] }), _, _,
      { sums := List.replicate 64 1, ea := 255, row := 65535, last := true, loss := true }, [], ready (by decide +kernel),
      by decide +kernel, rfl, by decide +kernel, by decide +kernel, by decide +kernel, givesVal (by decide +kernel), givesVal
      (by decide +kernel)⟩,
    ⟨31, 1, (((unitAt []).modCore 0 fun c => { c with claim := { owner := some 0, groups := [0] } }).modMx 0 fun m =>
      { m with queue := [{ sums := List.replicate 256 1, ea := 255, row := 65535, last := true, loss := true }] }), _, _,
      { sums := List.replicate 256 1, ea := 255, row := 65535, last := true, loss := true }, [], ready (by decide +kernel),
      by decide +kernel, rfl, by decide +kernel, by decide +kernel, by decide +kernel, givesVal (by decide +kernel), givesVal
      (by decide +kernel)⟩,
    ⟨31, 1, ((unitAt []).modCore 0 fun c => { c with claim := { owner := some 0, groups := [0] } }), _, ready
      (by decide +kernel), by decide +kernel, rfl, by decide +kernel, by decide +kernel, by decide +kernel, of_decide_eq_true
      (by decide +kernel), by decide +kernel, givesVal (by decide +kernel)⟩,
    ⟨(unitAt []), ready (by decide +kernel), by decide +kernel, rfl⟩,
    ⟨(unitAt []), ready (by decide +kernel), by decide +kernel, rfl⟩,
    ⟨2, 3, (unitAt [(2, own), (3, 0x0)]), _, _, _, _, ready (by decide +kernel), by decide +kernel, gives (by decide +kernel),
      gives (by decide +kernel), by decide +kernel, rfl, by decide +kernel⟩,
    ⟨2, 3, (unitAt [(2, 0x00F1000000000004), (3, 0x13F)]), _, _, _, _, ready (by decide +kernel), by decide +kernel, gives
      (by decide +kernel), gives (by decide +kernel), by decide +kernel, rfl, by decide +kernel⟩,
    ⟨2, (unitAt [(2, 0x00F1000000000004)]), _, _, ready (by decide +kernel), by decide +kernel, gives (by decide +kernel),
      by decide +kernel, rfl, by decide +kernel⟩,
    ⟨2, (unitAt [(2, 0x80)]), _, _, ready (by decide +kernel), by decide +kernel, gives (by decide +kernel), by decide +kernel,
      rfl, by decide +kernel⟩,
    ⟨31, 1, (unitAt []), ready (by decide +kernel), by decide +kernel, rfl, by decide +kernel⟩⟩

/-- The hypotheses of RowEvents can be met. -/
theorem meets_RowEvents :
    (∃ (s : State) (o : Nat),
      s.joining o = none) ∧
    (∃ (s : State) (o : Nat) (rs : List GoReq),
      s.joining o = some rs ∧
      s.joinFault o rs = none) ∧
    (∃ (s : State) (o : Nat) (rs : List GoReq) (sub : BitVec 8),
      s.joining o = some rs ∧
      s.joinFault o rs = some sub) ∧
    (∃ (s : State) (o : Nat) (p : MxOp) (r : List MxOp),
      (s.octet o).ops = p :: r ∧
      (p.started = true ∨ s.clusterHeld (o / 2) = true ∨ s.cycle < p.joinAt + 4)) ∧
    (∃ (s : State) (o : Nat) (p : MxOp) (r : List MxOp),
      (s.octet o).ops = p :: r ∧
      p.started = false ∧
      p.reqs.length = 8 ∧
      s.clusterHeld (o / 2) = false ∧
      p.joinAt + 4 ≤ s.cycle ∧
      (∀ i, i < 8 → (p.reqs.getD i {}).desc.getLsbD 6 = true → ∀ l ∈ (s.mx (8 * o + i)).ldbs, p.arr ≤ l.arr)) ∧
    (∃ (s : State) (o : Nat) (p : MxOp) (r : List MxOp),
      s.runOf o = none ∧
      (s.octet o).ops = p :: r ∧
      (s.octet o).left = 1 ∧
      s.positionDue o = true ∧
      p.reqs.length = 8) ∧
    (∃ (s : State) (o : Nat) (x : PassOut) (r : List PassOut),
      (s.octet o).pipe = x :: r ∧
      s.runOctet o = none ∧
      x.ended + 6 ≤ s.cycle ∧
      x.rows.length = 8) ∧
    (∃ (s : State) (o : Nat) (x : PassOut) (r : List PassOut),
      (s.octet o).pipe = x :: r ∧
      s.cycle < x.ended + 6) :=
  ⟨⟨(unitAt []), 0, by decide +kernel⟩,
    ⟨(allCores (fun m => { m with go := [{ tid := 0, desc := 0x13F }] }) ((unitAt []).modOctet 0 fun y =>
      { y with rows := ⟨[(63, { loaded := true, ints := List.replicate 128 1, exp := 5 })]⟩, usable := 1 })), 0, List.replicate
      8 { tid := 0, desc := 0x13F }, by decide +kernel⟩,
    ⟨(allCores (fun m => { m with go := [{ tid := 0, desc := 0x17F }] }) ((unitAt []).modOctet 0 fun y =>
      { y with rows := ⟨[(63, { loaded := true, ints := List.replicate 128 1, exp := 5 })]⟩, usable := 1 })), 0, List.replicate
      8 { tid := 0, desc := 0x17F }, 2, by decide +kernel⟩,
    ⟨{ ((unitAt []).modOctet 0 fun y => { y with ops := [{ reqs := List.replicate 8 { tid := 0, desc := 0x13F }, first := 63, count := 1, started := false, joinAt := 5 }] }) with cycle := 8 },
      0, { reqs := List.replicate 8 { tid := 0, desc := 0x13F }, first := 63, count := 1, started := false, joinAt := 5 }, [],
      by decide +kernel, .inr (.inr (by decide +kernel))⟩,
    ⟨{ ((unitAt []).modOctet 0 fun y => { y with ops := [{ reqs := List.replicate 8 { tid := 0, desc := 0x13F }, first := 63, count := 1, started := false, joinAt := 5 }] }) with cycle := 9 },
      0, { reqs := List.replicate 8 { tid := 0, desc := 0x13F }, first := 63, count := 1, started := false, joinAt := 5 }, [],
      by decide +kernel⟩,
    ⟨{ ((unitAt []).modOctet 0 fun y => { y with rows := ⟨[(63, { loaded := true, ints := List.replicate 128 1, exp := 5 })]⟩, usable := 1, left := 1, ops := [{ reqs := List.replicate 8 { tid := 0, desc := 0x13F }, first := 63, count := 1, started := true }] }) with cycle := 7 },
      0, { reqs := List.replicate 8 { tid := 0, desc := 0x13F }, first := 63, count := 1, started := true }, [],
      by decide +kernel⟩,
    ⟨{ ((unitAt []).modOctet 0 fun y => { y with pipe := [{ ended := 3, rows := List.replicate 8 {} }] }) with cycle := 9 }, 0,
      { ended := 3, rows := List.replicate 8 {} }, [], by decide +kernel⟩,
    ⟨{ ((unitAt []).modOctet 0 fun y => { y with pipe := [{ ended := 3, rows := List.replicate 8 {} }] }) with cycle := 8 }, 0,
      { ended := 3, rows := List.replicate 8 {} }, [], by decide +kernel⟩⟩

/-- The hypotheses of WeightDriven can be met. -/
theorem meets_WeightDriven :
    (∃ (rd : _) (rs1 : _) (rs2 : _) (s : State) (s1 : State) (s2 : State) (s3 : State) (a : _) (d : _),
      Ready (.wdEnter rd rs1 rs2) s ∧
      coreOf s.cur < 2048 ∧
      Gives (readX rs1) s a s1 ∧
      Gives (readX rs2) s1 d s2 ∧
      s2.cur = s.cur ∧
      let n := coreOf s.cur
      (∀ g ∈ (s2.mx n).enter, g.tid ≠ s.cur) ∧
      d.toNat < 2 ∧
      a.toNat % 32 = 0 ∧
      a.toNat < 2 ^ 56 ∧
      (∀ o ∈ coveredOctets (octetOf n) (d.getLsbD 0), s2.holdsArray ((s2.thr s.cur).seat.getD 0) o = true ∧ s2.arrayBusy o =
        false) ∧
      Gives engineRelease s2 () s3) ∧
    (∃ (rd : _) (rs1 : _) (rs2 : _) (s : State) (s1 : State) (s2 : State) (s3 : State) (a : _) (d : _),
      Ready (.wdEnter rd rs1 rs2) s ∧
      coreOf s.cur < 2048 ∧
      Gives (readX rs1) s a s1 ∧
      Gives (readX rs2) s1 d s2 ∧
      s2.cur = s.cur ∧
      let n := coreOf s.cur
      (∀ g ∈ (s2.mx n).enter, g.tid ≠ s.cur) ∧
      d.toNat < 2 ∧
      a.toNat % 32 = 0 ∧
      a.toNat < 2 ^ 56 ∧
      (∀ o ∈ coveredOctets (octetOf n) (d.getLsbD 0), s2.holdsArray ((s2.thr s.cur).seat.getD 0) o = true ∧ s2.arrayBusy o =
        false) ∧
      Gives engineRelease s2 () s3) ∧
    (∃ (rd : _) (rs1 : _) (rs2 : _) (s : State) (s1 : State) (s2 : State) (a : _) (d : _) (g : EnterReq) (s3 : State),
      Ready (.wdEnter rd rs1 rs2) s ∧
      coreOf s.cur < 2048 ∧
      Gives (readX rs1) s a s1 ∧
      Gives (readX rs2) s1 d s2 ∧
      s2.cur = s.cur ∧
      (s2.mx (coreOf s.cur)).enter.find? (fun g => g.tid == s.cur) = some g ∧
      let u := s2.modMx (coreOf s.cur) fun m => { m with enter := m.enter.filter fun g => g.tid != s.cur }
      g.ans = .joined ∧
      Gives (writeX rd 0) u () s3) ∧
    (∃ (rd : _) (rs1 : _) (rs2 : _) (s : State) (s1 : State) (s2 : State) (a : _) (d : _) (g : EnterReq),
      Ready (.wdEnter rd rs1 rs2) s ∧
      coreOf s.cur < 2048 ∧
      Gives (readX rs1) s a s1 ∧
      Gives (readX rs2) s1 d s2 ∧
      s2.cur = s.cur ∧
      (s2.mx (coreOf s.cur)).enter.find? (fun g => g.tid == s.cur) = some g ∧
      g.ans = .traps 2 1024) ∧
    (∃ (s : State),
      Ready .wdExit s ∧
      coreOf s.cur < 2048 ∧
      s.runOctet (octetOf (coreOf s.cur)) = none) ∧
    (∃ (s : State) (o : Nat),
      Ready .wdExit s ∧
      coreOf s.cur < 2048 ∧
      s.runOctet (octetOf (coreOf s.cur)) = some o) ∧
    (∃ (rd : _) (rs1 : _) (s : State) (s1 : State) (c : _) (s2 : State),
      Ready (.wdResume rd rs1) s ∧
      coreOf s.cur < 2048 ∧
      Gives (readX rs1) s c s1 ∧
      ¬ (c.toNat < 2048) ∧
      Gives (writeX rd (BitVec.ofInt 64 (-1))) s1 () s2) ∧
    (∃ (rd : _) (rs1 : _) (s : State) (s1 : State) (c : _) (s2 : State),
      Ready (.wdResume rd rs1) s ∧
      coreOf s.cur < 2048 ∧
      Gives (readX rs1) s c s1 ∧
      let seat := (s1.thr s1.cur).seat.getD 0
      c.toNat < 2048 ∧
      partOfSeat seat = some 1 ∧
      s1.covers 1 c.toNat = true ∧
      s1.holdsArray seat (octetOf c.toNat) = true ∧
      s1.runOctet (octetOf c.toNat) = none ∧
      Gives (writeX rd (BitVec.ofInt 64 (-2))) s1 () s2) ∧
    (∃ (rd : _) (rs1 : _) (s : State) (s1 : State) (c : _) (o : Nat) (s2 : State),
      Ready (.wdResume rd rs1) s ∧
      coreOf s.cur < 2048 ∧
      Gives (readX rs1) s c s1 ∧
      let seat := (s1.thr s1.cur).seat.getD 0
      c.toNat < 2048 ∧
      partOfSeat seat = some 1 ∧
      s1.covers 1 c.toNat = true ∧
      s1.holdsArray seat (octetOf c.toNat) = true ∧
      s1.runOctet (octetOf c.toNat) = some o ∧
      (s1.run o).st = .faulted ∧
      Gives (writeX rd 0) (s1.modRun o fun r => { r with st := .running, header := none, got := [] }) () s2) ∧
    (∃ (rd : _) (s : State) (s1 : State),
      Ready (.wdWait rd) s ∧
      coreOf s.cur < 2048 ∧
      s.runOctet (octetOf (coreOf s.cur)) = none ∧
      Gives (writeX rd ((s.octet (octetOf (coreOf s.cur))).endc.zeroExtend 64)) s () s1) ∧
    (∃ (rd : _) (s : State) (s1 : State) (o : Nat),
      Ready (.wdWait rd) s ∧
      coreOf s.cur < 2048 ∧
      s.runOctet (octetOf (coreOf s.cur)) = some o ∧
      (s.run o).st = .faulted ∧
      Gives (writeX rd 4) s () s1) ∧
    (∃ (rd : _) (s : State) (o : Nat),
      Ready (.wdWait rd) s ∧
      coreOf s.cur < 2048 ∧
      s.runOctet (octetOf (coreOf s.cur)) = some o ∧
      (s.run o).st ≠ .faulted) ∧
    (∃ (s : State) (o : Nat) (own : List EnterReq),
      s.entering o = some own ∧
      let pair := own.any fun r => r.d.getLsbD 0
      let sib := s.entering (o / 2 * 2 + (1 - o % 2))
      let rs := if pair then (if o % 2 = 0 then own ++ sib.getD [] else sib.getD [] ++ own) else own
      let r0 := rs.headD {}
      let t0 := s.thr r0.tid
      (pair = true → sib ≠ none) ∧
      (∀ r ∈ rs, r.a = r0.a ∧ r.d = r0.d ∧ (s.thr r.tid).deal = t0.deal ∧ (s.thr r.tid).hand = t0.hand) ∧
      (∀ x ∈ coveredOctets o pair, s.arrayBusy x = false)) ∧
    (∃ (s : State) (o : Nat) (own : List EnterReq),
      s.entering o = some own ∧
      let pair := own.any fun r => r.d.getLsbD 0
      let sib := s.entering (o / 2 * 2 + (1 - o % 2))
      let rs := if pair then (if o % 2 = 0 then own ++ sib.getD [] else sib.getD [] ++ own) else own
      let r0 := rs.headD {}
      let t0 := s.thr r0.tid
      (pair = true → sib ≠ none) ∧
      (∀ r ∈ rs, r.a = r0.a ∧ r.d = r0.d ∧ (s.thr r.tid).deal = t0.deal ∧ (s.thr r.tid).hand = t0.hand) ∧
      (∀ x ∈ coveredOctets o pair, s.arrayBusy x = false)) ∧
    (∃ (s : State) (s1 : State) (o : Nat) (a : _) (b : _) (c : _) (d : _) (sub : BitVec 8),
      (s.run o).st = .running ∧
      (s.run o).header = none ∧
      s.clusterHeld (o / 2) = false ∧
      Gives (parisonWords (s.run o).agent 4 (s.run o).paddr []) s (.all [a, b, c, d]) s1 ∧
      let h : Header := { w0 := a, succ := b, alt := c, w3 := d }
      h.check (s.run o).pair (s1.reduced (dieOf (8 * o))) = some sub) ∧
    (∃ (s : State) (s1 : State) (o : Nat) (a : _) (b : _) (c : _) (d : _),
      (s.run o).st = .running ∧
      (s.run o).header = none ∧
      s.clusterHeld (o / 2) = false ∧
      Gives (parisonWords (s.run o).agent 4 (s.run o).paddr []) s (.all [a, b, c, d]) s1 ∧
      let h : Header := { w0 := a, succ := b, alt := c, w3 := d }
      h.check (s.run o).pair (s1.reduced (dieOf (8 * o))) = none ∧
      h.op ≠ 2) ∧
    (∃ (s : State) (s1 : State) (o : Nat) (a : _) (b : _) (c : _) (d : _),
      (s.run o).st = .running ∧
      (s.run o).header = none ∧
      s.clusterHeld (o / 2) = false ∧
      Gives (parisonWords (s.run o).agent 4 (s.run o).paddr []) s (.all [a, b, c, d]) s1 ∧
      let h : Header := { w0 := a, succ := b, alt := c, w3 := d }
      h.check (s.run o).pair (s1.reduced (dieOf (8 * o))) = none ∧
      h.op = 2) ∧
    (∃ (s : State) (o : Nat) (h : Header),
      s.atParison o 0 h) ∧
    (∃ (s : State) (s1 : State) (o : Nat) (h : Header) (ws : List Word),
      s.atParison o 1 h ∧
      h.plen % 8 = 0 ∧
      let r := s.run o
      Gives (parisonWords r.agent (h.plen / 8 - r.got.length) (r.paddr + 32 + BitVec.ofNat 64 (8 * r.got.length)) r.got) s (.all
        ws) s1 ∧
      (∃ y, payloadHalf h (ws.flatMap wordBytes) = .ok y)) ∧
    (∃ (s : State) (s1 : State) (o : Nat) (h : Header) (ws : List Word) (sub : _),
      s.atParison o 1 h ∧
      h.plen % 8 = 0 ∧
      let r := s.run o
      Gives (parisonWords r.agent (h.plen / 8 - r.got.length) (r.paddr + 32 + BitVec.ofNat 64 (8 * r.got.length)) r.got) s (.all
        ws) s1 ∧
      (match payloadHalf h (ws.flatMap wordBytes) with | .error e => e == sub | .ok _ => false) = true) ∧
    (∃ (s : State) (o : Nat) (h : Header),
      s.atParison o 2 h ∧
      s.runFull o h = false ∧
      h.count ≤ (s.octet (h.octet o)).pipe.length ∧
      ((s.octet (h.octet o)).pipe.getLastD {}).ended + 7 ≤ s.cycle ∧
      (h.swap = true → ∀ n ∈ h.cores o, ∀ l ∈ (s.mx n).ldbs, (s.run o).arr ≤ l.arr)) ∧
    (∃ (s : State) (o : Nat) (h : Header),
      s.atParison o 2 h ∧
      (∃ n ∈ h.cores o, 8 - h.count < (s.mx n).staged.length)) ∧
    (∃ (s : State) (o : Nat) (h : Header),
      s.atParison o 2 h ∧
      s.runFull o h = false ∧
      (s.octet (h.octet o)).pipe.length < h.count ∧
      (s.octet (h.octet o)).left = 0 ∧
      s.runPass o (s.run o) h (s.octet (h.octet o)).pipe.length = .fault) ∧
    (∃ (s : State) (o : Nat) (h : Header),
      s.atParison o 3 h ∧
      (∀ n ∈ h.cores o, (s.mx n).queue.length + (s.mx n).staged.length ≤ 8)) ∧
    (∃ (s : State) (o : Nat) (h : Header),
      s.atParison o 4 h) ∧
    (∃ (s : State) (o : Nat) (h : Header),
      s.atParison o 4 h) ∧
    (∃ (s : State) (o : Nat) (h : Header),
      s.atParison o 4 h) ∧
    (∃ (s : State) (o : Nat) (h : Header),
      s.atParison o 5 h ∧
      (s.run o).ret = none) ∧
    (∃ (s : State) (o : Nat) (h : Header) (a : Word),
      s.atParison o 5 h ∧
      (s.run o).ret = some a) ∧
    (∃ (s : State) (o : Nat) (h : Header) (a : Word),
      s.atParison o 6 h ∧
      (s.run o).ret = some a) ∧
    (∃ (s : State) (o : Nat) (h : Header),
      s.atParison o 6 h ∧
      (s.run o).ret = none) ∧
    (∃ (s : State) (o : Nat) (h : Header),
      s.atParison o 7 h ∧
      let u := serveQueue (h.octet o) h.sem s
      let fits := spanHas (u.semWindow (s.run o).seat (h.octet o)) h.sem = true ∧ (u.sem (h.octet o) h.sem).val + h.n ≤ 65535
      fits) ∧
    (∃ (s : State) (o : Nat) (h : Header),
      s.atParison o 7 h ∧
      let u := serveQueue (h.octet o) h.sem s
      let fits := spanHas (u.semWindow (s.run o).seat (h.octet o)) h.sem = true ∧ (u.sem (h.octet o) h.sem).val + h.n ≤ 65535
      ¬ fits) ∧
    (∃ (s : State) (o : Nat) (h : Header),
      s.atParison o 8 h ∧
      (s.run o).waiting = false ∧
      spanHas (s.semWindow (s.run o).seat (h.octet o)) h.sem = true ∧
      let u := serveQueue (h.octet o) h.sem s
      let x := u.sem (h.octet o) h.sem
      x.queue = [] ∧
      h.n ≤ x.val) ∧
    (∃ (s : State) (o : Nat) (h : Header),
      s.atParison o 8 h ∧
      (s.run o).waiting = false ∧
      spanHas (s.semWindow (s.run o).seat (h.octet o)) h.sem = true ∧
      let u := serveQueue (h.octet o) h.sem s
      let x := u.sem (h.octet o) h.sem
      x.val < h.n) ∧
    (∃ (s : State) (o : Nat) (h : Header),
      s.atParison o 8 h ∧
      (s.run o).waiting = false ∧
      spanHas (s.semWindow (s.run o).seat (h.octet o)) h.sem = false) ∧
    (∃ (s : State) (o : Nat) (h : Header),
      s.atParison o 9 h) :=
  ⟨⟨1, 2, 3, (unitAt [(2, 0x400), (3, 0)]), _, _, _, _, _, ready (by decide +kernel), by decide +kernel, gives
      (by decide +kernel), gives (by decide +kernel), by decide +kernel, by decide +kernel, by decide +kernel, of_decide_eq_true
      (by decide +kernel), by decide +kernel, by decide +kernel, givesVal (by decide +kernel)⟩,
    ⟨1, 2, 3, (unitAt [(2, 0x400), (3, 1)]), _, _, _, _, _, ready (by decide +kernel), by decide +kernel, gives
      (by decide +kernel), gives (by decide +kernel), by decide +kernel, by decide +kernel, by decide +kernel, of_decide_eq_true
      (by decide +kernel), by decide +kernel, by decide +kernel, givesVal (by decide +kernel)⟩,
    ⟨1, 2, 3, ((unitAt [(2, 0x400), (3, 0)]).modMx 0 fun m => { m with enter := [{ tid := 0, a := 0x400, ans := .joined }] }),
      _, _, _, _, { tid := 0, a := 0x400, ans := .joined }, _, ready (by decide +kernel), by decide +kernel, gives
      (by decide +kernel), gives (by decide +kernel), by decide +kernel, by decide +kernel, by decide +kernel, givesVal
      (by decide +kernel)⟩,
    ⟨1, 2, 3, ((unitAt [(2, 0x400), (3, 0)]).modMx 0 fun m =>
      { m with enter := [{ tid := 0, a := 0x400, ans := .traps 2 1024 }] }), _, _, _, _,
      { tid := 0, a := 0x400, ans := .traps 2 1024 }, ready (by decide +kernel), by decide +kernel, gives (by decide +kernel),
      gives (by decide +kernel), by decide +kernel⟩,
    ⟨(unitAt []), ready (by decide +kernel), by decide +kernel⟩,
    ⟨((unitAt []).modOctet 0 fun y => { y with run := { st := .running, seat := 16, tid := 0, paddr := 0x400 } }), 0, ready
      (by decide +kernel), by decide +kernel⟩,
    ⟨1, 2, (unitAt [(2, 2048)]), _, _, _, ready (by decide +kernel), by decide +kernel, gives (by decide +kernel),
      by decide +kernel, givesVal (by decide +kernel)⟩,
    ⟨1, 2, (unitAt [(2, 15)]), _, _, _, ready (by decide +kernel), by decide +kernel, gives (by decide +kernel),
      by decide +kernel, by decide +kernel, by decide +kernel, of_decide_eq_true (by decide +kernel), by decide +kernel,
      givesVal (by decide +kernel)⟩,
    ⟨1, 2, ((unitAt [(2, 15)]).modOctet 1 fun y => { y with run := { st := .faulted, seat := 16 } }), _, _, 1, _, ready
      (by decide +kernel), by decide +kernel, gives (by decide +kernel), by decide +kernel, by decide +kernel,
      by decide +kernel, of_decide_eq_true (by decide +kernel), by decide +kernel, by decide +kernel, givesVal
      (by decide +kernel)⟩,
    ⟨1, (unitAt []), _, ready (by decide +kernel), by decide +kernel, by decide +kernel, givesVal (by decide +kernel)⟩,
    ⟨1, ((unitAt []).modOctet 0 fun y => { y with run := { st := .faulted, seat := 16 } }), _, 0, ready (by decide +kernel),
      by decide +kernel, by decide +kernel, by decide +kernel, givesVal (by decide +kernel)⟩,
    ⟨1, ((unitAt []).modOctet 0 fun y => { y with run := { st := .running, seat := 16, tid := 0, paddr := 0x400 } }), 0, ready
      (by decide +kernel), by decide +kernel⟩,
    ⟨((List.range 8).foldl (fun s n => s.modMx n fun m => { m with enter := [{ tid := 0, a := 0x400, d := 0 }] }) (unitAt [])),
      0, List.replicate 8 { tid := 0, a := 0x400, d := 0 }, by decide +kernel⟩,
    ⟨((List.range 16).foldl (fun s n => s.modMx n fun m => { m with enter := [{ tid := 0, a := 0x400, d := 1 }] }) (unitAt [])),
      1, List.replicate 8 { tid := 0, a := 0x400, d := 1 }, by decide +kernel⟩,
    ⟨(((((mapped.modOctet 0 fun y => { y with run := { st := .running, seat := 16, tid := 0, paddr := 0x400 } }).store 0x400 8
      0x0).store 0x408 8 0x0).store 0x410 8 0x0).store 0x418 8 0x0), _, 0, 0x0, 0x0, 0x0, 0x0, 5, by decide +kernel,
      by decide +kernel, by decide +kernel, givesAllVal (by decide +kernel), by decide +kernel⟩,
    ⟨(((((mapped.modOctet 0 fun y => { y with run := { st := .running, seat := 16, tid := 0, paddr := 0x400 } }).store 0x400 8
      0x0).store 0x408 8 0x800).store 0x410 8 0x0).store 0x418 8 0x2C4E0D6400000000), _, 0, 0x0, 0x800, 0x0, 0x2C4E0D6400000000,
      by decide +kernel, by decide +kernel, by decide +kernel, givesAllVal (by decide +kernel), by decide +kernel⟩,
    ⟨(((((mapped.modOctet 0 fun y => { y with run := { st := .running, seat := 16, tid := 0, paddr := 0x400 } }).store 0x400 8
      0x10000000000FF02).store 0x408 8 0x800).store 0x410 8 0x0).store 0x418 8 0x4E0CE27500000000), _, 0, 0x10000000000FF02,
      0x800, 0x0, 0x4E0CE27500000000, by decide +kernel, by decide +kernel, by decide +kernel, givesAllVal (by decide +kernel),
      by decide +kernel⟩,
    ⟨(mapped.modOctet 0 fun y =>
      { y with run := { st := .running, seat := 16, tid := 0, paddr := 0x400, header := some { w0 := 0x0, succ := 0x800, alt := 0x0, w3 := 0x2C4E0D6400000000 } } }),
      0, { w0 := 0x0, succ := 0x800, alt := 0x0, w3 := 0x2C4E0D6400000000 }, (by unfold State.atParison; decide +kernel)⟩,
    ⟨(mapped.modOctet 0 fun y =>
      { y with run := { st := .running, seat := 16, tid := 0, paddr := 0x400, header := some { w0 := 0x2000101, succ := 0x800, alt := 0x0, w3 := 0xDEAC4AF500000080 } } }),
      _, 0, { w0 := 0x2000101, succ := 0x800, alt := 0x0, w3 := 0xDEAC4AF500000080 }, List.replicate 16 0,
      (by unfold State.atParison; decide +kernel), by decide +kernel, givesAllVal (by decide +kernel), zeroPayload _
      (by decide +kernel) (by decide +kernel)⟩,
    ⟨(mapped.modOctet 0 fun y =>
      { y with run := { st := .running, seat := 16, tid := 0, paddr := 0x400, header := some { w0 := 0x2000101, succ := 0x800, alt := 0x0, w3 := 0x7A48E02C00000008 } } }),
      _, 0, { w0 := 0x2000101, succ := 0x800, alt := 0x0, w3 := 0x7A48E02C00000008 }, _, 7,
      (by unfold State.atParison; decide +kernel), by decide +kernel, givesAll (by decide +kernel), by decide +kernel⟩,
    ⟨{ ((mapped.modOctet 0 fun y => { y with run := { st := .running, seat := 16, tid := 0, paddr := 0x400, header := some { w0 := 0x100000000000102, succ := 0x800, alt := 0x0, w3 := 0x3EBD82B000000000 } } }).modOctet 0 fun y => { y with pipe := [{ ended := 3, rows := List.replicate 8 {} }] }) with cycle := 10 },
      0, { w0 := 0x100000000000102, succ := 0x800, alt := 0x0, w3 := 0x3EBD82B000000000 },
      (by unfold State.atParison; decide +kernel), by decide +kernel⟩,
    ⟨((mapped.modOctet 0 fun y =>
      { y with run := { st := .running, seat := 16, tid := 0, paddr := 0x400, header := some { w0 := 0x100000000000102, succ := 0x800, alt := 0x0, w3 := 0x3EBD82B000000000 } } }).modMx
      0 fun m => { m with staged := List.replicate 8 {} }), 0,
      { w0 := 0x100000000000102, succ := 0x800, alt := 0x0, w3 := 0x3EBD82B000000000 },
      (by unfold State.atParison; decide +kernel), ⟨0, by decide +kernel, by decide +kernel⟩⟩,
    ⟨(mapped.modOctet 0 fun y =>
      { y with run := { st := .running, seat := 16, tid := 0, paddr := 0x400, header := some { w0 := 0x100000000000102, succ := 0x800, alt := 0x0, w3 := 0x3EBD82B000000000 } } }),
      0, { w0 := 0x100000000000102, succ := 0x800, alt := 0x0, w3 := 0x3EBD82B000000000 },
      (by unfold State.atParison; decide +kernel), by decide +kernel⟩,
    ⟨((mapped.modOctet 0 fun y =>
      { y with run := { st := .running, seat := 16, tid := 0, paddr := 0x400, header := some { w0 := 0x103, succ := 0x800, alt := 0x0, w3 := 0x91A2746900000000 } } }).modMx
      0 fun m => { m with queue := List.replicate 4 {}, staged := List.replicate 4 {} }), 0,
      { w0 := 0x103, succ := 0x800, alt := 0x0, w3 := 0x91A2746900000000 }, (by unfold State.atParison; decide +kernel),
      by decide +kernel⟩,
    ⟨(mapped.modOctet 0 fun y =>
      { y with run := { st := .running, seat := 16, tid := 0, paddr := 0x400, header := some { w0 := 0x14, succ := 0x800, alt := 0x0, w3 := 0xAA23257C00000000 } }, cnt := 1 }),
      0, { w0 := 0x14, succ := 0x800, alt := 0x0, w3 := 0xAA23257C00000000 }, (by unfold State.atParison; decide +kernel)⟩,
    ⟨(mapped.modOctet 0 fun y =>
      { y with run := { st := .running, seat := 16, tid := 0, paddr := 0x400, header := some { w0 := 0x14, succ := 0x800, alt := 0x0, w3 := 0xAA23257C00000000 } }, cnt := 0 }),
      0, { w0 := 0x14, succ := 0x800, alt := 0x0, w3 := 0xAA23257C00000000 }, (by unfold State.atParison; decide +kernel)⟩,
    ⟨(mapped.modOctet 0 fun y =>
      { y with run := { st := .running, seat := 16, tid := 0, paddr := 0x400, header := some { w0 := 0x34, succ := 0x800, alt := 0x0, w3 := 0xA1E4F72800000000 } }, cflag := true }),
      0, { w0 := 0x34, succ := 0x800, alt := 0x0, w3 := 0xA1E4F72800000000 }, (by unfold State.atParison; decide +kernel)⟩,
    ⟨(mapped.modOctet 0 fun y =>
      { y with run := { st := .running, seat := 16, tid := 0, paddr := 0x400, header := some { w0 := 0x5, succ := 0x800, alt := 0xC00, w3 := 0xF7F4104800000000 } } }),
      0, { w0 := 0x5, succ := 0x800, alt := 0xC00, w3 := 0xF7F4104800000000 }, (by unfold State.atParison; decide +kernel),
      by decide +kernel⟩,
    ⟨(mapped.modOctet 0 fun y =>
      { y with run := { st := .running, seat := 16, tid := 0, paddr := 0x400, header := some { w0 := 0x5, succ := 0x800, alt := 0xC00, w3 := 0xF7F4104800000000 }, ret := some 32 } }),
      0, { w0 := 0x5, succ := 0x800, alt := 0xC00, w3 := 0xF7F4104800000000 }, 32, (by unfold State.atParison; decide +kernel),
      by decide +kernel⟩,
    ⟨(mapped.modOctet 0 fun y =>
      { y with run := { st := .running, seat := 16, tid := 0, paddr := 0x400, header := some { w0 := 0x6, succ := 0x0, alt := 0x0, w3 := 0x358066C200000000 }, ret := some 32 } }),
      0, { w0 := 0x6, succ := 0x0, alt := 0x0, w3 := 0x358066C200000000 }, 32, (by unfold State.atParison; decide +kernel),
      by decide +kernel⟩,
    ⟨(mapped.modOctet 0 fun y =>
      { y with run := { st := .running, seat := 16, tid := 0, paddr := 0x400, header := some { w0 := 0x6, succ := 0x0, alt := 0x0, w3 := 0x358066C200000000 } } }),
      0, { w0 := 0x6, succ := 0x0, alt := 0x0, w3 := 0x358066C200000000 }, (by unfold State.atParison; decide +kernel),
      by decide +kernel⟩,
    ⟨((mapped.modOctet 0 fun y =>
      { y with run := { st := .running, seat := 16, tid := 0, paddr := 0x400, header := some { w0 := 0x13F000000000007, succ := 0x800, alt := 0x0, w3 := 0x4B0381C700000000 } } }).setSem
      0 63 { val := 65534 }), 0, { w0 := 0x13F000000000007, succ := 0x800, alt := 0x0, w3 := 0x4B0381C700000000 },
      (by unfold State.atParison; decide +kernel), by decide +kernel⟩,
    ⟨((mapped.modOctet 0 fun y =>
      { y with run := { st := .running, seat := 16, tid := 0, paddr := 0x400, header := some { w0 := 0x13F000000000007, succ := 0x800, alt := 0x0, w3 := 0x4B0381C700000000 } } }).setSem
      0 63 { val := 65535 }), 0, { w0 := 0x13F000000000007, succ := 0x800, alt := 0x0, w3 := 0x4B0381C700000000 },
      (by unfold State.atParison; decide +kernel), by decide +kernel⟩,
    ⟨((mapped.modOctet 0 fun y =>
      { y with run := { st := .running, seat := 16, tid := 0, paddr := 0x400, header := some { w0 := 0x13F000000000008, succ := 0x800, alt := 0x0, w3 := 0x29AE5FCD00000000 } } }).setSem
      0 63 { val := 1 }), 0, { w0 := 0x13F000000000008, succ := 0x800, alt := 0x0, w3 := 0x29AE5FCD00000000 },
      (by unfold State.atParison; decide +kernel), by decide +kernel⟩,
    ⟨((mapped.modOctet 0 fun y =>
      { y with run := { st := .running, seat := 16, tid := 0, paddr := 0x400, header := some { w0 := 0x13F000000000008, succ := 0x800, alt := 0x0, w3 := 0x29AE5FCD00000000 } } }).setSem
      0 63 { val := 0 }), 0, { w0 := 0x13F000000000008, succ := 0x800, alt := 0x0, w3 := 0x29AE5FCD00000000 },
      (by unfold State.atParison; decide +kernel), by decide +kernel⟩,
    ⟨((mapped.modOctet 0 fun y =>
      { y with run := { st := .running, seat := 16, tid := 0, paddr := 0x400, header := some { w0 := 0x13F000000000008, succ := 0x800, alt := 0x0, w3 := 0x29AE5FCD00000000 } } }).modSeat
      16 fun k => { k with cfg := { k.cfg with sems := [] } }), 0,
      { w0 := 0x13F000000000008, succ := 0x800, alt := 0x0, w3 := 0x29AE5FCD00000000 },
      (by unfold State.atParison; decide +kernel), by decide +kernel⟩,
    ⟨(mapped.modOctet 0 fun y =>
      { y with run := { st := .running, seat := 16, tid := 0, paddr := 0x400, header := some { w0 := 0x9, succ := 0x0, alt := 0x0, w3 := 0x572DB8C800000000 } } }),
      0, { w0 := 0x9, succ := 0x0, alt := 0x0, w3 := 0x572DB8C800000000 }, (by unfold State.atParison; decide +kernel)⟩⟩

/-- The hypotheses of Transform can be met. -/
theorem meets_Transform :
    (∃ (rd : _) (rs1 : _) (s : State) (s1 : State) (s2 : State) (a : _) (b : _) (d : _) (ctl : _) (k : _) (s3 : State),
      Ready (.txReq rd rs1) s ∧
      coreOf s.cur < 2048 ∧
      Gives (readX rs1) s a s1 ∧
      a.toNat % 32 = 0 ∧
      Gives (readDoublewords a 4) s1 [b, d, ctl, k] s2 ∧
      let n := coreOf s2.cur
      let th := s2.thr s2.cur
      let src := rewriteOwn n b
      let dst := rewriteOwn n d
      txInvalid src dst ctl k = false ∧
      src.toNat % txSrcAlign ctl = 0 ∧
      dst.toNat % txDstAlign ctl = 0 ∧
      th.tx.state ≠ 0 ∧
      Gives (writeX rd (BitVec.ofInt 64 (-2))) s2 () s3) ∧
    (∃ (rd : _) (rs1 : _) (s : State) (s1 : State) (s2 : State) (a : _) (b : _) (d : _) (ctl : _) (k : _) (s3 : State),
      Ready (.txReq rd rs1) s ∧
      coreOf s.cur < 2048 ∧
      Gives (readX rs1) s a s1 ∧
      a.toNat % 32 = 0 ∧
      Gives (readDoublewords a 4) s1 [b, d, ctl, k] s2 ∧
      let n := coreOf s2.cur
      let o := octetOf n
      let th := s2.thr s2.cur
      let seat := th.seat.getD 0
      let src := rewriteOwn n b
      let dst := rewriteOwn n d
      txInvalid src dst ctl k = false ∧
      src.toNat % txSrcAlign ctl = 0 ∧
      dst.toNat % txDstAlign ctl = 0 ∧
      th.tx.state = 0 ∧
      th.txSlot = false ∧
      s2.slotOpen o seat = false ∧
      Gives (writeX rd (BitVec.ofInt 64 (-1))) ((noteNow 0x300 o (2 ^ 48) s2).modOctet o fun y =>
        { y with txBusy := (y.txBusy + 1) % 2 ^ 16 }) () s3) ∧
    (∃ (rd : _) (rs1 : _) (s : State) (s1 : State) (s2 : State) (a : _) (b : _) (d : _) (ctl : _) (k : _) (s3 : State),
      Ready (.txReq rd rs1) s ∧
      coreOf s.cur < 2048 ∧
      Gives (readX rs1) s a s1 ∧
      a.toNat % 32 = 0 ∧
      Gives (readDoublewords a 4) s1 [b, d, ctl, k] s2 ∧
      let n := coreOf s2.cur
      let o := octetOf n
      let th := s2.thr s2.cur
      let seat := th.seat.getD 0
      let src := rewriteOwn n b
      let dst := rewriteOwn n d
      txInvalid src dst ctl k = false ∧
      src.toNat % txSrcAlign ctl = 0 ∧
      dst.toNat % txDstAlign ctl = 0 ∧
      th.tx.state = 0 ∧
      (th.txSlot = true ∨ s2.slotOpen o seat = true) ∧
      Gives (progress pushRelease) (s2.modThr s2.cur fun th => { th with txSlot := true }) () s3) ∧
    (∃ (rd : _) (s : State) (s1 : State),
      Ready (.txRes rd) s ∧
      coreOf s.cur < 2048 ∧
      let x := (s.thr s.cur).tx
      x.state = 0 ∧
      Gives (writeX rd (BitVec.ofInt 64 (-1))) s () s1) ∧
    (∃ (rd : _) (s : State) (s1 : State) (s2 : State),
      Ready (.txRes rd) s ∧
      coreOf s.cur < 2048 ∧
      let x := (s.thr s.cur).tx
      let u := s.modThr s.cur fun th => { th with tx := {} }
      x.state = 3 ∧
      Gives (dropWhere (u.agent u.cur) (fun b => b.overlaps x.dst x.bytes) false) u () s1 ∧
      Gives (writeX rd x.result) s1 () s2) ∧
    (∃ (rd : _) (s : State),
      Ready (.txRes rd) s ∧
      coreOf s.cur < 2048 ∧
      let x := (s.thr s.cur).tx
      x.state = 4) ∧
    (∃ (rd : _) (s : State),
      Ready (.txRes rd) s ∧
      coreOf s.cur < 2048 ∧
      let x := (s.thr s.cur).tx
      x.state ≠ 0 ∧
      x.state ≠ 3 ∧
      x.state ≠ 4) ∧
    (∃ (rd : _) (s : State) (s1 : State),
      Ready (.txStat rd) s ∧
      coreOf s.cur < 2048 ∧
      Gives (writeX rd ((s.thr s.cur).tx.state.zeroExtend 64)) s () s1) ∧
    (∃ (s : State) (o : Nat) (r : TxReq) (rest : List TxReq) (s1 s2 s3 s4 : State) (bs old : List Byte) (hs : List Nat) (k : Nat),
      (s.octet o).txq = r :: rest ∧ txOp r.ctl = 0 ∧ r.outcome = none ∧ r.out = none ∧ r.dead = false ∧ r.put = 0 ∧ r.homes = [] ∧
      Gives (txExecute.readAll r.agent r (2 * txN r.ctl + 2) (fun r _ => txSrcBytes r.ctl) r.got)
        (s.modThr r.tid fun th => { th with tx := { th.tx with state := 2 } }) (.all bs) s1 ∧
      Gives (txRead r.agent needW 1024 r.dst (0) []) s1 (.all old) s2 ∧
      let w := fp32ToSxWork r bs old
      let u := txDstAlign r.ctl
      Gives (txCheck r.agent u (w.bytes.length / u) r.dst []) s2 (.all hs) s3 ∧ w.bad = none ∧
      Gives (txWrite r.agent u hs r.dst w.bytes 0) s3 (.all k) s4) ∧
    (∃ (s : State) (o : Nat) (r : TxReq) (rest : List TxReq) (s1 s2 s3 s4 : State) (bs old : List Byte) (hs : List Nat) (k : Nat),
      (s.octet o).txq = r :: rest ∧ txOp r.ctl = 1 ∧ r.outcome = none ∧ r.out = none ∧ r.dead = false ∧ r.put = 0 ∧ r.homes = [] ∧
      Gives (txExecute.readAll r.agent r (2 * txN r.ctl + 2) (fun r _ => txSrcBytes r.ctl) r.got)
        (s.modThr r.tid fun th => { th with tx := { th.tx with state := 2 } }) (.all bs) s1 ∧
      Gives (txRead r.agent needW 1024 r.dst (0) []) s1 (.all old) s2 ∧
      let w := sxToFp32Work r bs old
      let u := txDstAlign r.ctl
      Gives (txCheck r.agent u (w.bytes.length / u) r.dst []) s2 (.all hs) s3 ∧ w.bad = none ∧
      Gives (txWrite r.agent u hs r.dst w.bytes 0) s3 (.all k) s4) ∧
    (∃ (s : State) (o : Nat) (r : TxReq) (rest : List TxReq) (s1 s2 s3 s4 : State) (bs old : List Byte) (hs : List Nat) (k : Nat),
      (s.octet o).txq = r :: rest ∧ txOp r.ctl = 2 ∧ r.outcome = none ∧ r.out = none ∧ r.dead = false ∧ r.put = 0 ∧ r.homes = [] ∧
      Gives (txExecute.readAll r.agent r (2 * txN r.ctl + 2) (fun r _ => txSrcBytes r.ctl) r.got)
        (s.modThr r.tid fun th => { th with tx := { th.tx with state := 2 } }) (.all bs) s1 ∧
      Gives (txRead r.agent needW 1024 r.dst (0) []) s1 (.all old) s2 ∧
      let w := topKWork r bs old
      let u := txDstAlign r.ctl
      Gives (txCheck r.agent u (w.bytes.length / u) r.dst []) s2 (.all hs) s3 ∧ w.bad = none ∧
      Gives (txWrite r.agent u hs r.dst w.bytes 0) s3 (.all k) s4) ∧
    (∃ (s : State) (o : Nat) (r : TxReq) (rest : List TxReq) (s1 s2 s3 s4 : State) (bs old : List Byte) (hs : List Nat) (k : Nat),
      (s.octet o).txq = r :: rest ∧ txOp r.ctl = 3 ∧ r.outcome = none ∧ r.out = none ∧ r.dead = false ∧ r.put = 0 ∧ r.homes = [] ∧
      Gives (txExecute.readAll r.agent r (2 * txN r.ctl + 2) (fun r _ => txSrcBytes r.ctl) r.got)
        (s.modThr r.tid fun th => { th with tx := { th.tx with state := 2 } }) (.all bs) s1 ∧
      Gives (txRead r.agent needW 1024 r.dst (0) []) s1 (.all old) s2 ∧
      let w := compressWork r bs old
      let u := txDstAlign r.ctl
      Gives (txCheck r.agent u (w.bytes.length / u) r.dst []) s2 (.all hs) s3 ∧ w.bad = none ∧
      Gives (txWrite r.agent u hs r.dst w.bytes 0) s3 (.all k) s4) ∧
    (∃ (s : State) (o : Nat) (r : TxReq) (rest : List TxReq) (s1 s2 s3 s4 : State) (bs old : List Byte) (hs : List Nat) (k : Nat),
      (s.octet o).txq = r :: rest ∧ txOp r.ctl = 4 ∧ r.outcome = none ∧ r.out = none ∧ r.dead = false ∧ r.put = 0 ∧ r.homes = [] ∧
      Gives (txExecute.readAll r.agent r (2 * txN r.ctl + 2) (fun r bs => codedNeed (txN r.ctl) bs) r.got)
        (s.modThr r.tid fun th => { th with tx := { th.tx with state := 2 } }) (.all bs) s1 ∧
      Gives (txRead r.agent needW 1024 r.dst (0) []) s1 (.all old) s2 ∧
      let w := expandWork r bs old
      let u := txDstAlign r.ctl
      Gives (txCheck r.agent u (w.bytes.length / u) r.dst []) s2 (.all hs) s3 ∧ w.bad = none ∧
      Gives (txWrite r.agent u hs r.dst w.bytes 0) s3 (.all k) s4) ∧
    (∃ (s : State) (o : Nat) (r : TxReq) (rest : List TxReq) (s1 s2 s3 s4 : State) (bs old : List Byte) (hs : List Nat) (k : Nat),
      (s.octet o).txq = r :: rest ∧ txOp r.ctl = 5 ∧ r.outcome = none ∧ r.out = none ∧ r.dead = false ∧ r.put = 0 ∧ r.homes = [] ∧
      Gives (txExecute.readAll r.agent r (2 * txN r.ctl + 2) (fun r _ => txSrcBytes r.ctl) r.got)
        (s.modThr r.tid fun th => { th with tx := { th.tx with state := 2 } }) (.all bs) s1 ∧
      Gives (txRead r.agent needW 1024 r.dst (if txAcc r.ctl then 1024 else 0) []) s1 (.all old) s2 ∧
      let w := histogramWork r bs old
      let u := txDstAlign r.ctl
      Gives (txCheck r.agent u (w.bytes.length / u) r.dst []) s2 (.all hs) s3 ∧ w.bad = none ∧
      Gives (txWrite r.agent u hs r.dst w.bytes 0) s3 (.all k) s4) ∧
    (∃ (s : State) (o : Nat) (r : TxReq) (rest : List TxReq) (sub : BitVec 8) (v : Word),
      (s.octet o).txq = r :: rest ∧
      r.outcome = some (sub, v) ∧
      r.dead = false) ∧
    (∃ (rd : _) (rs1 : _) (s : State) (s1 : State) (a : _),
      Ready (.txReq rd rs1) s ∧
      coreOf s.cur < 2048 ∧
      Gives (readX rs1) s a s1 ∧
      a.toNat % 32 ≠ 0) ∧
    (∃ (rd : _) (rs1 : _) (s : State) (s1 : State) (s2 : State) (a : _) (b : Word) (d : Word) (ctl : Word) (k : Word),
      Ready (.txReq rd rs1) s ∧
      coreOf s.cur < 2048 ∧
      Gives (readX rs1) s a s1 ∧
      a.toNat % 32 = 0 ∧
      Gives (readDoublewords a 4) s1 [b, d, ctl, k] s2 ∧
      let src := rewriteOwn (coreOf s.cur) b
      let dst := rewriteOwn (coreOf s.cur) d
      txInvalid src dst ctl k = true) ∧
    (∃ (rd : _) (rs1 : _) (s : State) (s1 : State) (s2 : State) (a : _) (b : Word) (d : Word) (ctl : Word) (k : Word),
      Ready (.txReq rd rs1) s ∧
      coreOf s.cur < 2048 ∧
      Gives (readX rs1) s a s1 ∧
      a.toNat % 32 = 0 ∧
      Gives (readDoublewords a 4) s1 [b, d, ctl, k] s2 ∧
      let src := rewriteOwn (coreOf s.cur) b
      let dst := rewriteOwn (coreOf s.cur) d
      txInvalid src dst ctl k = false ∧
      src.toNat % txSrcAlign ctl ≠ 0) ∧
    (∃ (rd : _) (rs1 : _) (s : State) (s1 : State) (s2 : State) (a : _) (b : Word) (d : Word) (ctl : Word) (k : Word),
      Ready (.txReq rd rs1) s ∧
      coreOf s.cur < 2048 ∧
      Gives (readX rs1) s a s1 ∧
      a.toNat % 32 = 0 ∧
      Gives (readDoublewords a 4) s1 [b, d, ctl, k] s2 ∧
      let src := rewriteOwn (coreOf s.cur) b
      let dst := rewriteOwn (coreOf s.cur) d
      txInvalid src dst ctl k = false ∧
      src.toNat % txSrcAlign ctl = 0 ∧
      dst.toNat % txDstAlign ctl ≠ 0) ∧
    (∃ (s : State) (o : Nat) (r : TxReq) (rest : List TxReq) (s1 : State),
      (s.octet o).txq = r :: rest ∧ txOp r.ctl = 0 ∧ r.outcome = none ∧ r.out = none ∧ r.dead = false ∧ r.put = 0 ∧ r.homes = [] ∧
      Gives (txExecute.readAll r.agent r (2 * txN r.ctl + 2) (fun r _ => txSrcBytes r.ctl) r.got)
        (s.modThr r.tid fun th => { th with tx := { th.tx with state := 2 } }) (.fault 3 0x00F1000000100000) s1) ∧
    (∃ (s : State) (o : Nat) (r : TxReq) (rest : List TxReq) (s1 : State) (bs old : List Byte) (hs : List Nat) (s2 s3 : State),
      (s.octet o).txq = r :: rest ∧ txOp r.ctl = 1 ∧ r.outcome = none ∧ r.out = none ∧ r.dead = false ∧ r.put = 0 ∧ r.homes = [] ∧
      Gives (txExecute.readAll r.agent r (2 * txN r.ctl + 2) (fun r _ => txSrcBytes r.ctl) r.got)
        (s.modThr r.tid fun th => { th with tx := { th.tx with state := 2 } }) (.all bs) s1 ∧
      Gives (txRead r.agent needW 1024 r.dst (0) []) s1 (.all old) s2 ∧
      Gives (txCheck r.agent (txDstAlign r.ctl) ((sxToFp32Work r bs old).bytes.length / txDstAlign r.ctl) r.dst []) s2 (.all hs) s3 ∧ (sxToFp32Work r bs old).bad = some (0x20, 0x00F1000000001000)) ∧
    (∃ (s : State) (o : Nat) (r : TxReq) (rest : List TxReq) (s1 : State),
      (s.octet o).txq = r :: rest ∧ txOp r.ctl = 2 ∧ r.outcome = none ∧ r.out = none ∧ r.dead = false ∧ r.put = 0 ∧ r.homes = [] ∧
      Gives (txExecute.readAll r.agent r (2 * txN r.ctl + 2) (fun r _ => txSrcBytes r.ctl) r.got)
        (s.modThr r.tid fun th => { th with tx := { th.tx with state := 2 } }) (.fault 3 0x00F1000000100000) s1) ∧
    (∃ (s : State) (o : Nat) (r : TxReq) (rest : List TxReq) (s1 : State) (bs old : List Byte) (s2 s3 : State),
      (s.octet o).txq = r :: rest ∧ txOp r.ctl = 3 ∧ r.outcome = none ∧ r.out = none ∧ r.dead = false ∧ r.put = 0 ∧ r.homes = [] ∧
      Gives (txExecute.readAll r.agent r (2 * txN r.ctl + 2) (fun r _ => txSrcBytes r.ctl) r.got)
        (s.modThr r.tid fun th => { th with tx := { th.tx with state := 2 } }) (.all bs) s1 ∧
      Gives (txRead r.agent needW 1024 r.dst (0) []) s1 (.all old) s2 ∧
      Gives (txCheck r.agent (txDstAlign r.ctl) ((compressWork r bs old).bytes.length / txDstAlign r.ctl) r.dst []) s2 (.fault 4 0x00F1000000100000) s3) ∧
    (∃ (s : State) (o : Nat) (r : TxReq) (rest : List TxReq) (s1 : State) (bs old : List Byte) (s2 s3 : State),
      (s.octet o).txq = r :: rest ∧ txOp r.ctl = 4 ∧ r.outcome = none ∧ r.out = none ∧ r.dead = false ∧ r.put = 0 ∧ r.homes = [] ∧
      Gives (txExecute.readAll r.agent r (2 * txN r.ctl + 2) (fun r bs => codedNeed (txN r.ctl) bs) r.got)
        (s.modThr r.tid fun th => { th with tx := { th.tx with state := 2 } }) (.all bs) s1 ∧
      Gives (txRead r.agent needW 1024 r.dst (0) []) s1 (.all old) s2 ∧
      Gives (txCheck r.agent (txDstAlign r.ctl) ((expandWork r bs old).bytes.length / txDstAlign r.ctl) r.dst []) s2 (.fault 4 0x00F1000000100000) s3) ∧
    (∃ (s : State) (o : Nat) (r : TxReq) (rest : List TxReq) (s1 : State) (bs : List Byte) (s2 : State),
      (s.octet o).txq = r :: rest ∧ txOp r.ctl = 5 ∧ r.outcome = none ∧ r.out = none ∧ r.dead = false ∧ r.put = 0 ∧ r.homes = [] ∧
      Gives (txExecute.readAll r.agent r (2 * txN r.ctl + 2) (fun r _ => txSrcBytes r.ctl) r.got)
        (s.modThr r.tid fun th => { th with tx := { th.tx with state := 2 } }) (.all bs) s1 ∧
      Gives (txRead r.agent needW 1024 r.dst (if txAcc r.ctl then 1024 else 0) []) s1 (.fault 3 0x00F1000000100000) s2) :=
  ⟨⟨1, 2, ((((((unitAt [(2, own)]).modThr 0 fun th => { th with tx := { state := 1 } }).store 0xF1000000000000 8
      0x00F0000000001000).store 0xF1000000000008 8 0x00F0000000002000).store 0xF1000000000010 8 0x3000000000000001).store
      0xF1000000000018 8 0), _, _, _, 0x00F0000000001000, 0x00F0000000002000, 0x3000000000000001, 0, _, ready
      (by decide +kernel), by decide +kernel, gives (by decide +kernel), by decide +kernel, givesVal (by decide +kernel),
      by decide +kernel, by decide +kernel, by decide +kernel, of_decide_eq_true (by decide +kernel), givesVal
      (by decide +kernel)⟩,
    ⟨1, 2, ((((((unitAt [(2, own)]).modOctet 0 fun y =>
      { y with txq := List.replicate 4 { tid := 0, seat := 16, ctl := 0 } }).store 0xF1000000000000 8 0x00F0000000001000).store
      0xF1000000000008 8 0x00F0000000002000).store 0xF1000000000010 8 0x3000000000000001).store 0xF1000000000018 8 0), _, _, _,
      0x00F0000000001000, 0x00F0000000002000, 0x3000000000000001, 0, _, ready (by decide +kernel), by decide +kernel, gives
      (by decide +kernel), by decide +kernel, givesVal (by decide +kernel), by decide +kernel, by decide +kernel,
      by decide +kernel, of_decide_eq_true (by decide +kernel), by decide +kernel, by decide +kernel, givesVal
      (by decide +kernel)⟩,
    ⟨1, 2, ((((((unitAt [(2, own)]).modOctet 0 fun y =>
      { y with txq := List.replicate 3 { tid := 0, seat := 16, ctl := 0 } }).store 0xF1000000000000 8 0x00F0000000001000).store
      0xF1000000000008 8 0x00F0000000002000).store 0xF1000000000010 8 0x3000000000000001).store 0xF1000000000018 8 0), _, _, _,
      0x00F0000000001000, 0x00F0000000002000, 0x3000000000000001, 0, _, ready (by decide +kernel), by decide +kernel, gives
      (by decide +kernel), by decide +kernel, givesVal (by decide +kernel), by decide +kernel, by decide +kernel,
      by decide +kernel, of_decide_eq_true (by decide +kernel), by decide +kernel, givesVal (by decide +kernel)⟩,
    ⟨1, (unitAt []), _, ready (by decide +kernel), by decide +kernel, by decide +kernel, givesVal (by decide +kernel)⟩,
    ⟨1, ((unitAt []).modThr 0 fun th => { th with tx := { state := 3, result := 5, dst := 0x00F1000000002000, bytes := 16 } }),
      _, _, ready (by decide +kernel), by decide +kernel, by decide +kernel, givesVal (by decide +kernel), givesVal
      (by decide +kernel)⟩,
    ⟨1, ((unitAt []).modThr 0 fun th => { th with tx := { state := 4, fault := 4, addr := 5 } }), ready (by decide +kernel),
      by decide +kernel⟩,
    ⟨1, ((unitAt []).modThr 0 fun th => { th with tx := { state := 2 } }), ready (by decide +kernel), by decide +kernel⟩,
    ⟨1, (unitAt []), _, ready (by decide +kernel), by decide +kernel, givesVal (by decide +kernel)⟩,
    ⟨((unitAt []).modOctet 0 fun y =>
      { y with txq := [{ tid := 0, seat := 16, src := 0x00F1000000001000, dst := 0x00F1000000002000, ctl := 0x10 }] }), 0,
      { tid := 0, seat := 16, src := 0x00F1000000001000, dst := 0x00F1000000002000, ctl := 0x10 }, [], _, _, _, _, _, _, _, _,
      by decide +kernel, by decide +kernel, rfl, rfl, rfl, rfl, rfl, givesAll (by decide +kernel), givesAll (by decide +kernel),
      givesAll (by decide +kernel), by decide +kernel, givesAll (by decide +kernel)⟩,
    ⟨((unitAt []).modOctet 0 fun y =>
      { y with txq := [{ tid := 0, seat := 16, src := 0x00F1000000001000, dst := 0x00F1000000002000, ctl := 0x1000000000000010 }] }),
      0, { tid := 0, seat := 16, src := 0x00F1000000001000, dst := 0x00F1000000002000, ctl := 0x1000000000000010 }, [], _, _, _,
      _, _, _, _, _, by decide +kernel, by decide +kernel, rfl, rfl, rfl, rfl, rfl, givesAll (by decide +kernel), givesAll
      (by decide +kernel), givesAll (by decide +kernel), by decide +kernel, givesAll (by decide +kernel)⟩,
    ⟨((unitAt []).modOctet 0 fun y =>
      { y with txq := [{ tid := 0, seat := 16, src := 0x00F1000000001000, dst := 0x00F1000000002000, ctl := 0x2000000000000002, k := 1 }] }),
      0, { tid := 0, seat := 16, src := 0x00F1000000001000, dst := 0x00F1000000002000, ctl := 0x2000000000000002, k := 1 }, [],
      _, _, _, _, _, _, _, _, by decide +kernel, by decide +kernel, rfl, rfl, rfl, rfl, rfl, givesAll (by decide +kernel),
      givesAll (by decide +kernel), givesAll (by decide +kernel), by decide +kernel, givesAll (by decide +kernel)⟩,
    ⟨((unitAt []).modOctet 0 fun y =>
      { y with txq := [{ tid := 0, seat := 16, src := 0x00F1000000001000, dst := 0x00F1000000002000, ctl := 0x3000000000000001 }] }),
      0, { tid := 0, seat := 16, src := 0x00F1000000001000, dst := 0x00F1000000002000, ctl := 0x3000000000000001 }, [], _, _, _,
      _, _, _, _, _, by decide +kernel, by decide +kernel, rfl, rfl, rfl, rfl, rfl, givesAll (by decide +kernel), givesAll
      (by decide +kernel), givesAll (by decide +kernel), by decide +kernel, givesAll (by decide +kernel)⟩,
    ⟨((unitAt []).modOctet 0 fun y =>
      { y with txq := [{ tid := 0, seat := 16, src := 0x00F1000000001000, dst := 0x00F1000000002000, ctl := 0x4000000000000001 }] }),
      0, { tid := 0, seat := 16, src := 0x00F1000000001000, dst := 0x00F1000000002000, ctl := 0x4000000000000001 }, [], _, _, _,
      _, _, _, _, _, by decide +kernel, by decide +kernel, rfl, rfl, rfl, rfl, rfl, givesAll (by decide +kernel), givesAll
      (by decide +kernel), givesAll (by decide +kernel), by decide +kernel, givesAll (by decide +kernel)⟩,
    ⟨((unitAt []).modOctet 0 fun y =>
      { y with txq := [{ tid := 0, seat := 16, src := 0x00F1000000001000, dst := 0x00F1000000002000, ctl := 0x5000000000000001 }] }),
      0, { tid := 0, seat := 16, src := 0x00F1000000001000, dst := 0x00F1000000002000, ctl := 0x5000000000000001 }, [], _, _, _,
      _, _, _, _, _, by decide +kernel, by decide +kernel, rfl, rfl, rfl, rfl, rfl, givesAll (by decide +kernel), givesAll
      (by decide +kernel), givesAll (by decide +kernel), by decide +kernel, givesAll (by decide +kernel)⟩,
    ⟨((unitAt []).modOctet 0 fun y => { y with txq := [{ tid := 0, seat := 16, outcome := some (0, 7) }] }), 0,
      { tid := 0, seat := 16, outcome := some (0, 7) }, [], 0, 7, by decide +kernel⟩,
    ⟨1, 2, (unitAt [(2, 0x00F0000000000010)]), _, _, ready (by decide +kernel), by decide +kernel, gives (by decide +kernel),
      by decide +kernel⟩,
    ⟨1, 2, (((((unitAt [(2, own)]).store 0xF1000000000000 8 0x00F0000000001000).store 0xF1000000000008 8
      0x00F0000000002000).store 0xF1000000000010 8 0xF000000000000001).store 0xF1000000000018 8 0), _, _, _, 0x00F0000000001000,
      0x00F0000000002000, 0xF000000000000001, 0, ready (by decide +kernel), by decide +kernel, gives (by decide +kernel),
      by decide +kernel, givesVal (by decide +kernel), by decide +kernel⟩,
    ⟨1, 2, (((((unitAt [(2, own)]).store 0xF1000000000000 8 0x00F0000000001001).store 0xF1000000000008 8
      0x00F0000000002000).store 0xF1000000000010 8 0x3000000000000001).store 0xF1000000000018 8 0), _, _, _, 0x00F0000000001001,
      0x00F0000000002000, 0x3000000000000001, 0, ready (by decide +kernel), by decide +kernel, gives (by decide +kernel),
      by decide +kernel, givesVal (by decide +kernel), by decide +kernel⟩,
    ⟨1, 2, (((((unitAt [(2, own)]).store 0xF1000000000000 8 0x00F0000000001000).store 0xF1000000000008 8
      0x00F0000000002001).store 0xF1000000000010 8 0x3000000000000001).store 0xF1000000000018 8 0), _, _, _, 0x00F0000000001000,
      0x00F0000000002001, 0x3000000000000001, 0, ready (by decide +kernel), by decide +kernel, gives (by decide +kernel),
      by decide +kernel, givesVal (by decide +kernel), by decide +kernel⟩,
    ⟨((unitAt []).modOctet 0 fun y =>
      { y with txq := [{ tid := 0, seat := 16, src := 0x00F1000000100000, dst := 0x00F1000000002000, ctl := 0x10 }] }), 0,
      { tid := 0, seat := 16, src := 0x00F1000000100000, dst := 0x00F1000000002000, ctl := 0x10 }, [], _, by decide +kernel,
      by decide +kernel, rfl, rfl, rfl, rfl, rfl, givesFault (by decide +kernel)⟩,
    ⟨(((unitAt []).modOctet 0 fun y =>
      { y with txq := [{ tid := 0, seat := 16, src := 0x00F1000000001000, dst := 0x00F1000000002000, ctl := 0x1000000000000010 }] }).store
      0xF1000000001000 8 0xFF), 0,
      { tid := 0, seat := 16, src := 0x00F1000000001000, dst := 0x00F1000000002000, ctl := 0x1000000000000010 }, [], _, _, _, _,
      _, _, by decide +kernel, by decide +kernel, rfl, rfl, rfl, rfl, rfl, givesAll (by decide +kernel), givesAll
      (by decide +kernel), givesAll (by decide +kernel), by decide +kernel⟩,
    ⟨((unitAt []).modOctet 0 fun y =>
      { y with txq := [{ tid := 0, seat := 16, src := 0x00F1000000100000, dst := 0x00F1000000002000, ctl := 0x2000000000000002 }] }),
      0, { tid := 0, seat := 16, src := 0x00F1000000100000, dst := 0x00F1000000002000, ctl := 0x2000000000000002 }, [], _,
      by decide +kernel, by decide +kernel, rfl, rfl, rfl, rfl, rfl, givesFault (by decide +kernel)⟩,
    ⟨((unitAt []).modOctet 0 fun y =>
      { y with txq := [{ tid := 0, seat := 16, src := 0x00F1000000001000, dst := 0x00F1000000100000, ctl := 0x3000000000000001 }] }),
      0, { tid := 0, seat := 16, src := 0x00F1000000001000, dst := 0x00F1000000100000, ctl := 0x3000000000000001 }, [], _, _, _,
      _, _, by decide +kernel, by decide +kernel, rfl, rfl, rfl, rfl, rfl, givesAll (by decide +kernel), givesAll
      (by decide +kernel), givesFault (by decide +kernel)⟩,
    ⟨((unitAt []).modOctet 0 fun y =>
      { y with txq := [{ tid := 0, seat := 16, src := 0x00F1000000001000, dst := 0x00F1000000100000, ctl := 0x4000000000000001 }] }),
      0, { tid := 0, seat := 16, src := 0x00F1000000001000, dst := 0x00F1000000100000, ctl := 0x4000000000000001 }, [], _, _, _,
      _, _, by decide +kernel, by decide +kernel, rfl, rfl, rfl, rfl, rfl, givesAll (by decide +kernel), givesAll
      (by decide +kernel), givesFault (by decide +kernel)⟩,
    ⟨((unitAt []).modOctet 0 fun y =>
      { y with txq := [{ tid := 0, seat := 16, src := 0x00F1000000001000, dst := 0x00F1000000100000, ctl := 0x5020000000000001 }] }),
      0, { tid := 0, seat := 16, src := 0x00F1000000001000, dst := 0x00F1000000100000, ctl := 0x5020000000000001 }, [], _, _, _,
      by decide +kernel, by decide +kernel, rfl, rfl, rfl, rfl, rfl, givesAll (by decide +kernel), givesFault
      (by decide +kernel)⟩⟩

/-- The hypotheses of Threads can be met. -/
theorem meets_Threads :
    (∃ (s : State) (tid : Nat),
      let th := s.thr tid
      th.st = .parked ∧
      th.saving = true) ∧
    (∃ (s : State) (tid : Nat),
      let th := s.thr tid
      th.st = .stopped ∧
      th.saving = false ∧
      th.pmark = true) ∧
    (∃ (s : State) (tid : Nat),
      let th := s.thr tid
      th.st = .stopped ∧ th.pmark = false ∧
      th.saving = false) ∧
    (∃ (s : State) (tid : Nat),
      let th := s.thr tid
      th.st ≠ .parked ∧
      th.st ≠ .stopped) ∧
    (∃ (s : State) (tid : Nat),
      let th := s.thr tid
      th.st = .stopping) ∧
    (∃ (s : State) (tid : Nat),
      let th := s.thr tid
      th.st = .parked ∧ th.saving = false) ∧
    (∃ (s : State) (tid : Nat),
      let th := s.thr tid
      th.st = .resuming) ∧
    (∃ (s : State) (tid : Nat),
      let th := s.thr tid
      th.st = .parked ∧
      th.saving = true) ∧
    (∃ (s : State) (tid : Nat),
      let th := s.thr tid
      th.st = .empty) ∧
    (∃ (s : State) (tid : Nat),
      let th := s.thr tid
      th.st = .stopping ∧
      th.saving = true) ∧
    (∃ (s : State) (tid : Nat),
      (s.thr tid).fused = false ∧
      let th := s.thr tid
      th.st = .running) ∧
    (∃ (s : State) (tid : Nat),
      (s.thr tid).fused = false ∧
      let th := s.thr tid
      th.st = .idle) ∧
    (∃ (s : State) (tid : Nat),
      (s.thr tid).fused = false ∧
      let th := s.thr tid
      th.st = .parked) ∧
    (∃ (s : State) (tid : Nat),
      (s.thr tid).fused = false ∧
      let th := s.thr tid
      th.st = .resuming) ∧
    (∃ (s : State) (tid : Nat),
      (s.thr tid).fused = false ∧
      let th := s.thr tid
      th.st = .stopped) ∧
    (∃ (s : State) (tid : Nat),
      (s.thr tid).fused = false ∧
      let th := s.thr tid
      th.st = .parked ∧
      th.saving = true) ∧
    (∃ (s : State) (tid : Nat),
      let th := s.thr tid
      th.st = .idle) ∧
    (∃ (s : State) (tid : Nat),
      let th := s.thr tid
      th.st ≠ .idle ∧
      th.st ≠ .empty) ∧
    (∃ (s : State) (tid : Nat),
      let th := s.thr tid
      th.st = .empty) ∧
    (∃ (s : State) (target : Nat) (source : Nat),
      s.canAdopt target source = false) ∧
    (∃ (s : State) (target : Nat) (source : Nat),
      s.canAdopt target source = true ∧
      s.storesOut source = true) ∧
    (∃ (s : State) (target : Nat) (source : Nat),
      s.canAdopt target source = true ∧
      s.storesOut source = false) ∧
    (∃ (s : State) (tid : Nat),
      let n := coreOf tid
      2048 ≤ n ∧
      n < 2064 ∧
      tid % 4 ≠ 0 ∧
      (s.thr tid).st = .empty) ∧
    (∃ (tid : Nat),
      tid % 4 = 0) ∧
    (∃ (tid : Nat),
      let n := coreOf tid
      n < 2048) ∧
    (∃ (s : State) (tid : Nat),
      s.atBoundary tid = false) ∧
    (∃ (s : State) (tid : Nat),
      let th := s.thr tid
      s.atBoundary tid = true ∧
      th.st = .running ∧
      th.killPend = true) ∧
    (∃ (s : State) (tid : Nat),
      let th := s.thr tid
      s.atBoundary tid = true ∧
      th.st = .stopping ∧
      th.killPend = false ∧
      s.unitsDone tid = true ∧
      th.kn5 = false) ∧
    (∃ (s : State) (tid h : Nat), h < 8 ∧ ((s.thr tid).head h).hs ≠ .unbound) ∧
    (∃ (s : State) (s1 : State) (tid : Nat),
      (s.thr tid).saving = true ∧
      Memory.wf s1.mem ∧
      (s.thr tid).tx.state ≠ 1 ∧
      (s.thr tid).tx.state ≠ 2 ∧
      (s.thr tid).postDue = false ∧
      Gives (cleanWhere (s.agent tid) fun b => b.dirtiedBy [tid]) s () s1 ∧
      (s1.thr tid).killPend = false ∧
      (s1.thr tid).resumePend = false) ∧
    (∃ (s : State) (s1 : State) (tid : Nat),
      (s.thr tid).st = .resuming ∧
      (s.thr tid).restoring = true ∧
      Gives (remakeClaim tid) s () s1) :=
  ⟨⟨((unitAt []).modThr 0 fun th => { th with st := .parked, saving := true }), 0, by decide +kernel⟩,
    ⟨((unitAt []).modThr 0 fun th => { th with st := .stopped, pmark := true }), 0, by decide +kernel⟩,
    ⟨((unitAt []).modThr 0 fun th => { th with st := .stopped }), 0, by decide +kernel⟩,
    ⟨((unitAt []).modThr 0 fun th => { th with st := .idle }), 0, by decide +kernel⟩,
    ⟨((unitAt []).modThr 0 fun th => { th with st := .stopping }), 0, by decide +kernel⟩,
    ⟨((unitAt []).modThr 0 fun th => { th with st := .parked }), 0, by decide +kernel⟩,
    ⟨((unitAt []).modThr 0 fun th => { th with st := .resuming }), 0, by decide +kernel⟩,
    ⟨((unitAt []).modThr 0 fun th => { th with st := .parked, saving := true }), 0, by decide +kernel⟩,
    ⟨((unitAt []).modThr 0 fun th => { th with st := .empty }), 0, by decide +kernel⟩,
    ⟨((unitAt []).modThr 0 fun th => { th with st := .stopping, saving := true }), 0, by decide +kernel⟩,
    ⟨((unitAt []).modThr 0 fun th => { th with st := .running }), 0, by decide +kernel⟩,
    ⟨((unitAt []).modThr 0 fun th => { th with st := .idle }), 0, by decide +kernel⟩,
    ⟨((unitAt []).modThr 0 fun th => { th with st := .parked }), 0, by decide +kernel⟩,
    ⟨((unitAt []).modThr 0 fun th => { th with st := .resuming }), 0, by decide +kernel⟩,
    ⟨((unitAt []).modThr 0 fun th => { th with st := .stopped }), 0, by decide +kernel⟩,
    ⟨((unitAt []).modThr 0 fun th => { th with st := .parked, saving := true }), 0, by decide +kernel⟩,
    ⟨((unitAt []).modThr 0 fun th => { th with st := .idle }), 0, by decide +kernel⟩,
    ⟨((unitAt []).modThr 0 fun th => { th with st := .running }), 0, by decide +kernel⟩,
    ⟨((unitAt []).modThr 0 fun th => { th with st := .empty }), 0, by decide +kernel⟩,
    ⟨(unitAt []), 4, 0, by decide +kernel⟩,
    ⟨(((unitAt []).modThr 0 fun th => { th with st := .stopped, saved := true }).modCore 0 fun c =>
      { c with rstores := [{ tid := 0 }] }), 4, 0, by decide +kernel⟩,
    ⟨((unitAt []).modThr 0 fun th => { th with st := .parked, saved := true }), 8191, 0, by decide +kernel⟩,
    ⟨(unitAt []), 8255, by decide +kernel⟩,
    ⟨8192, by decide +kernel⟩,
    ⟨8191, by decide +kernel⟩,
    ⟨((unitAt []).modThr 0 fun th => { th with st := .stopping, wakeR := some 1 }), 0, by decide +kernel⟩,
    ⟨((unitAt []).modThr 0 fun th => { th with killPend := true }), 0, by decide +kernel⟩,
    ⟨((unitAt []).modThr 0 fun th => { th with st := .stopping }), 0, by decide +kernel⟩,
    ⟨(((unitAt []).modThr 0 fun th => { th with st := .stopping, heads := ⟨[(7, { hs := .owned, track := 5 })]⟩ }).modTrack 0 5
      fun k => { k with owner := some { tid := 0, h := 7 } }), 0, 7, by decide +kernel⟩,
    ⟨((unitAt [(1, 5)]).modThr 0 fun th => { th with st := .stopped, saving := true }), _, 0, by decide +kernel,
      by decide +kernel, by decide +kernel, of_decide_eq_true (by decide +kernel), by decide +kernel, givesVal
      (by decide +kernel), by decide +kernel⟩,
    ⟨((unitAt []).modThr 0 fun th => { th with st := .resuming, restoring := true }), _, 0, by decide +kernel,
      by decide +kernel, givesVal (by decide +kernel)⟩⟩

/-- The hypotheses of WakesAndGangs can be met. -/
theorem meets_WakesAndGangs :
    (∃ (s : State) (tid : Nat) (d : Nat),
      (s.thr tid).st = .idle ∧
      (s.thr tid).deadline = some d ∧
      d ≤ s.cycle) ∧
    (∃ (s : State) (tid : Nat) (d : Nat),
      (s.thr tid).st = .idle ∧
      (s.thr tid).deadline = some d ∧
      s.cycle < d) ∧
    (∃ (s : State) (tid : Nat),
      (s.thr tid).st ≠ .idle) ∧
    (∃ (s : State) (tid : Nat) (d : BitVec 7) (limit : Nat),
      (s.thr tid).fuseWait = some (d, limit) ∧
      (s.thr tid).fuseAns = none ∧
      (limit = 0 ∨ s.cycle < limit) ∧
      s.fuseMet tid d = true ∧
      (∀ k ∈ fuseMembers tid d, (s.thr k).deal = (s.thr tid).deal ∧ (s.thr k).hand = (s.thr tid).hand ∧ (s.thr k).seat = (s.thr
        tid).seat) ∧
      4 ∈ fuseMembers tid d) ∧
    (∃ (s : State) (tid : Nat) (d : BitVec 7) (limit : Nat),
      (s.thr tid).fuseWait = some (d, limit) ∧
      (s.thr tid).fuseAns = none ∧
      (limit = 0 ∨ s.cycle < limit) ∧
      s.fuseMet tid d = true ∧
      (∃ k ∈ fuseMembers tid d, (s.thr k).deal ≠ (s.thr tid).deal)) ∧
    (∃ (s : State) (tid : Nat) (d : BitVec 7) (limit : Nat),
      (s.thr tid).fuseWait = some (d, limit) ∧
      (s.thr tid).fuseAns = none ∧
      s.cycle < limit ∧
      s.fuseMet tid d = false) ∧
    (∃ (s : State) (tid : Nat) (d : BitVec 7) (limit : Nat),
      (s.thr tid).fuseWait = some (d, limit) ∧
      (s.thr tid).fuseAns = none ∧
      limit ≠ 0 ∧
      limit ≤ s.cycle) ∧
    (∃ (s : State) (tid : Nat) (u : GUnit) (r : List GUnit),
      (s.thr tid).flight = u :: r ∧
      ((s.thr tid).fq.map fun x => x.words.length).sum + u.words.length ≤ 8) ∧
    (∃ (s : State) (tid : Nat) (u : GUnit) (r : List GUnit),
      (s.thr tid).flight = u :: r ∧
      8 < ((s.thr tid).fq.map fun x => x.words.length).sum + u.words.length) ∧
    (∃ (s : State) (n : Nat),
      s.awake n = true ∧
      (s.core n).stale = true) ∧
    (∃ (s : State) (n : Nat),
      (s.awake n = false ∨ (s.core n).stale = false)) ∧
    (∃ (s : State) (tid : Nat) (csr : BitVec 12) (e : _),
      csrEntry csr.toNat = some e ∧
      e.2 ≠ .none ∧
      (e.2 = .system → (s.thr tid).sys = true)) ∧
    (∃ (csr : BitVec 12) (e : _),
      csrEntry csr.toNat = some e ∧
      e.2 = .none) ∧
    (∃ (csr : BitVec 12),
      csrEntry csr.toNat = none) :=
  ⟨⟨{ ((unitAt []).modThr 0 fun th => { th with st := .idle, deadline := some 5 }) with cycle := 5 }, 0, 5, by decide +kernel⟩,
    ⟨((unitAt []).modThr 0 fun th => { th with st := .idle, deadline := some 5 }), 0, 5, by decide +kernel⟩,
    ⟨((unitAt []).modThr 0 fun th => { th with st := .running }), 0, by decide +kernel⟩,
    ⟨(((unitAt []).modThr 0 fun th =>
      { th with st := .running, seat := some 16, deal := some 3, fuseWait := some (0x02, 9), hand := 1 }).modThr 4 fun th =>
      { th with st := .running, seat := some 16, deal := some 3, fuseWait := some (0x02, 9), hand := 1 }), 0, 2, 9,
      by decide +kernel⟩,
    ⟨((((unitAt []).modThr 0 fun th =>
      { th with st := .running, seat := some 16, deal := some 3, fuseWait := some (0x02, 9), hand := 1 }).modThr 4 fun th =>
      { th with st := .running, seat := some 16, deal := some 3, fuseWait := some (0x02, 9), hand := 1 }).modThr 4 fun th =>
      { th with deal := some 4 }), 0, 2, 9, by decide +kernel⟩,
    ⟨((unitAt []).modThr 0 fun th =>
      { th with st := .running, seat := some 16, deal := some 3, fuseWait := some (0x02, 9), hand := 1 }), 0, 2, 9,
      by decide +kernel⟩,
    ⟨{ ((unitAt []).modThr 0 fun th => { th with st := .running, seat := some 16, deal := some 3, fuseWait := some (0x02, 9), hand := 1 }) with cycle := 9 },
      0, 2, 9, by decide +kernel⟩,
    ⟨((unitAt []).modThr 0 fun th =>
      { th with flight := [{ words := [1, 2, 3] }], fq := [{ words := [1, 2, 3] }, { words := [1, 2] }] }), 0,
      { words := [1, 2, 3] }, [], by decide +kernel⟩,
    ⟨((unitAt []).modThr 0 fun th =>
      { th with flight := [{ words := [1, 2, 3] }], fq := [{ words := [1, 2, 3] }, { words := [1, 2, 3] }] }), 0,
      { words := [1, 2, 3] }, [], by decide +kernel⟩,
    ⟨((unitAt []).modCore 0 fun c => { c with stale := true, plb := [{ seat := 16, dom := 1, nib := 15 }] }), 0,
      by decide +kernel⟩,
    ⟨((unitAt []).modCore 1 fun c => { c with stale := true }), 1, by decide +kernel⟩,
    ⟨(unitAt []), 0, 2, _, rfl, by decide +kernel⟩,
    ⟨7, _, rfl, by decide +kernel⟩,
    ⟨0xFFF, by decide +kernel⟩⟩

/-- The hypotheses of TranslationRequests can be met. -/
theorem meets_TranslationRequests :
    (∃ (s : State) (n : Nat) (size : BitVec 2),
      (s.core n).xreq = none ∧
      n < 2048 ∧
      size ≠ 3) ∧
    (∃ (s : State) (n : Nat) (f : Nat),
      (s.core n).xreq = none ∧
      n < 2048 ∧
      s.partOfCore n = some f) ∧
    (∃ (s : State) (n : Nat) (f : Nat),
      (s.core n).xreq = none ∧
      n < 2048 ∧
      s.partOfCore n = some f) ∧
    (∃ (s : State) (n : Nat) (c : Command),
      (s.core n).xreq = some c) ∧
    (∃ (s : State) (n : Nat) (f : Nat) (r : Command),
      (s.core n).xreq = some r ∧
      (∀ m v z, r ≠ .xlatPage m v z) ∧
      s.partOfCore n = some f ∧
      let u := restartVector ((s.coresOf f).filter fun m => !s.poolRuns m) s
      (∀ m ∈ s.coresOf f, (u.core m).pageStores = false ∧ u.writesUnderWay m = false)) ∧
    (∃ (s : State) (s1 : State) (n : Nat) (m : Nat) (v : BitVec 40) (z : BitVec 2),
      (s.core n).xreq = some (.xlatPage m v z) ∧
      Gives (dropPageBlocks (reqPage v z).1 (reqPage v z).2 (s.cores.cells.map fun c => c.1)) s () s1 ∧
      let u := restartVector ((s.cores.cells.map fun c => c.1).filter fun m => !s1.poolRuns m) s1
      (∀ k ∈ s.cores.cells.map (fun c => c.1), (u.core k).pageStores = false ∧ u.writesUnderWay k = false)) ∧
    (∃ (s : State) (n : Nat),
      (s.core n).xreq = none) :=
  ⟨⟨((unitAt []).modCluster 0 fun c => { c with xlat := [{ page := 0, size := 0x200000, dom := 1 }] }), 0, 2,
      by decide +kernel⟩,
    ⟨((unitAt []).modCore 0 fun c => { c with plb := [{ seat := 16, dom := 1, nib := 15 }] }), 0, 1, by decide +kernel⟩,
    ⟨(unitAt []), 0, 1, by decide +kernel⟩,
    ⟨((unitAt []).modCore 0 fun c => { c with xreqBusy := true, xreq := some (.xlatFlush 0) }), 0, .xlatFlush 0,
      by decide +kernel⟩,
    ⟨((unitAt []).modCore 0 fun c => { c with xreqBusy := true, xreq := some (.xlatFlush 0) }), 0, 1, .xlatFlush 0,
      by decide +kernel, fun _ _ _ => by simp, by decide +kernel⟩,
    ⟨((unitAt []).modCore 0 fun c => { c with xreqBusy := true, xreq := some (.xlatPage 0 0 1) }), _, 0, 0, 0, 1,
      by decide +kernel, givesVal (by decide +kernel), by decide +kernel⟩,
    ⟨(unitAt []), 0, by decide +kernel⟩⟩

/-- The hypotheses of Deals can be met. -/
theorem meets_Deals :
    (∃ (rd : _) (rs1 : _) (s : State) (s1 : State) (a : _),
      Ready (.dealPost rd rs1) s ∧
      Gives (readX rs1) s a s1 ∧
      a.toNat % 64 ≠ 0) ∧
    (∃ (rd : _) (rs1 : _) (s : State) (s1 : State) (s2 : State) (s3 : State) (s4 : State) (s5 : State) (s6 : State) (a : Word) (r : DealRecord) (tail : Option Word) (ans : Word),
      Ready (.dealPost rd rs1) s ∧
      Gives (readX rs1) s a s1 ∧
      a.toNat % 64 = 0 ∧
      Gives (release .part) s1 () s2 ∧
      Gives (readRecord readDoublewords a) s2 r s3 ∧
      let ag := s2.agent s2.cur
      let dealer := isDealer ag.core
      Gives (ringTail ag r a) s3 tail s4 ∧
      Gives (acceptDeal
        { system := dealer || (s2.thr s2.cur).sys, compute := !dealer, seat := (s2.thr s2.cur).seat, part := s4.partOfCore ag.core, ag := ag, tail := tail }
        a r) s4 ans s5 ∧
      Gives (writeX rd ans) s5 () s6) ∧
    (∃ (s : State) (p : Poster) (r : DealRecord) (f : Nat),
      s.partOfCluster r.home = some f ∧
      (p.compute = true → p.part = some f) ∧
      let seat := 16 * f + r.seatField
      let x := s.seat seat
      (s.seatsOf f).contains seat = true ∧
      s.removing f seat = false ∧
      (s.cluster r.home).queue.length < 64 ∧
      x.journal.length < 1024 ∧
      s.queueHeld r.home = false ∧
      r.invalid (s.part f).level p.tail.isSome = false ∧
      (p.system = true ∨ (p.seat = some seat ∧ (r.dw 0).getLsbD 44 = false)) ∧
      (r.seq = 0 ∨ r.seq = x.nextSeq) ∧
      s.unplaceable f r.home r.hands = false ∧
      (∀ h ∈ r.hands, groupBanks h.spBytes ≤ 32)) ∧
    (∃ (s : State) (p : Poster) (r : DealRecord) (f : Nat) (seat : Nat),
      s.partOfCluster r.home = some f ∧
      (p.compute = true → p.part = some f) ∧
      seat = 16 * f + r.seatField ∧
      (64 ≤ (s.cluster r.home).queue.length ∨ ((s.seatsOf f).contains seat = true ∧ s.removing f seat = false ∧ 1024 ≤ (s.seat
        seat).journal.length) ∨ s.queueHeld r.home = true)) ∧
    (∃ (rd : _) (rs1 : _) (s : State) (s1 : State) (s2 : State) (v : _),
      Ready (.dealStat rd rs1) s ∧
      Gives (readX rs1) s v s1 ∧
      Gives (writeX rd (BitVec.ofNat 64 (s1.dealStat ((s1.thr s1.cur).seat.getD 0) (BitVec.ofNat 32 v.toNat)))) s1 () s2) ∧
    (∃ (s : State),
      Ready .handExit s ∧
      (s.claim (coreOf s.cur)).owner ≠ some s.cur) ∧
    (∃ (s : State),
      Ready .handExit s ∧
      (s.claim (coreOf s.cur)).owner = some s.cur ∧
      (s.claim (coreOf s.cur)).fault = none ∧
      (s.claim (coreOf s.cur)).queue = []) ∧
    (∃ (s : State) (c : Nat) (d : Nat) (s1 : State) (f : Nat),
      s.partOfCluster c = some f ∧
      s.queueHeld c = false ∧
      (s.cluster c).queue.find? (fun d => (s.deal d).st == .launching) = some d ∧
      Gives (if s.unopened d then openGroups d else copyFootprint d) s () s1) ∧
    (∃ (s : State) (d : Nat) (s1 : State),
      Gives (do for g in (s.dealGroups d).filter (fun g => !g.2.mapped) do drainGroup g.1 g.2) s () s1) ∧
    (∃ (s : State) (c : Nat) (d : Nat) (f : Nat) (s1 : State) (p : List Nat),
      s.partOfCluster c = some f ∧
      s.queueHeld c = false ∧
      (∀ k ∈ (s.cluster c).queue, (s.deal k).st ≠ .launching) ∧
      choose f s (s.readyDeals c) [] [] = some (d, s1, p)) ∧
    (∃ (s : State) (c : Nat) (f : Nat),
      s.partOfCluster c = some f ∧
      (∀ k ∈ (s.cluster c).queue, (s.deal k).st ≠ .launching) ∧
      choose f s (s.readyDeals c) [] [] = none) ∧
    (∃ (s : State) (s1 : State) (d : Nat) (h : HandRec),
      (s.deal d).st = .launching ∧
      (s.deal d).fpNext = none ∧
      s.unopened d = false ∧
      s.queueHeld (s.deal d).home = false ∧
      let x := s.deal d
      x.hands = [h] ∧
      Gives (do for n in (h.threads.map coreOf).eraseDups do launchAcquire d x.seat (s.seat x.seat).cfg.issue n) s () s1) ∧
    (∃ (s : State) (d : Nat) (i : Nat) (h : HandRec) (s1 : State),
      (s.deal d).hands[i]? = some h ∧
      (s.deal d).st = .running ∧
      h.retired = false ∧
      s.handBusy d i = false ∧
      Gives (retireHand d i h) s () s1) ∧
    (∃ (s : State) (d : Nat) (i : Nat) (h : HandRec),
      (s.deal d).hands[i]? = some h ∧
      (s.deal d).st = .running ∧
      h.retired = false ∧
      s.handBusy d i = true) ∧
    (∃ (s : State) (d : Nat) (i : Nat),
      s.handEngines d i = []) ∧
    (∃ (s : State) (d : Nat) (i : Nat) (h : HandRec) (s1 : State),
      (s.deal d).hands[i]? = some h ∧
      h.retired = true ∧
      (s.deal d).st = .running ∧
      (∀ k ∈ (s.deal d).hands, k.retired = true) ∧
      Gives (retireDeal d) s () s1) ∧
    (∃ (s : State) (d : Nat) (i : Nat) (h : HandRec),
      (s.deal d).hands[i]? = some h ∧
      h.retired = true ∧
      ((s.deal d).st ≠ .running ∨ (s.deal d).hands.any (fun k => k.retired == false) = true)) ∧
    (∃ (s : State) (d h n : Nat), ((releaseGroups d h s).core n).groups.any (fun g => g.ofHand d h) = true) ∧
    (∃ (s : State) (s1 : State) (s2 : State) (d : Nat),
      let x := s.deal d
      Gives
        (do for n in (x.ran.map coreOf).eraseDups do cleanWhere { s.queueAgent d with core := n } fun b => b.dirtiedBy (x.ran.filter fun t => coreOf t == n))
        s () s1 ∧
      Gives (completeDeal d) s1 () s2) ∧
    (∃ (s : State) (s1 : State) (d : Nat),
      Gives (completeDeal d) s () s1) :=
  ⟨⟨1, 2, (unitAt [(2, 0x00F0000000000020)]), _, _, ready (by decide +kernel), gives (by decide +kernel), by decide +kernel⟩,
    ⟨1, 2, ((((unitAt [(2, own)]).store 0xF1000000000000 8 0x0100000000000000).store 0xF10000000000C0 8 0x100).store
      0xF10000000000C8 8 0x0000000100010000), _, _, _, _, _, _, _, _, _, _, ready (by decide +kernel), gives
      (by decide +kernel), by decide +kernel, givesVal (by decide +kernel), @gives _ ⟨⟨[], [], []⟩⟩ _ _ (by decide +kernel),
      gives (by decide +kernel), gives (by decide +kernel), givesVal (by decide +kernel)⟩,
    ⟨(unitAt []),
      { system := false, compute := true, seat := some 16, part := some 1, ag := { core := 0, tid := 0, seat := 16, deal := none }, tail := none },
      { w := [0x0100000000000000], hw := [0x100, 0x0000000100010000, 0, 0], fp := [] }, 1, by decide +kernel⟩,
    ⟨((unitAt []).modCluster 0 fun c =>
      { c with queue := [0, 0, 0, 0, 0, 0, 0, 0, 0, 0, 0, 0, 0, 0, 0, 0, 0, 0, 0, 0, 0, 0, 0, 0, 0, 0, 0, 0, 0, 0, 0, 0, 0, 0, 0, 0, 0, 0, 0, 0, 0, 0, 0, 0, 0, 0, 0, 0, 0, 0, 0, 0, 0, 0, 0, 0, 0, 0, 0, 0, 0, 0, 0, 0] }),
      { system := false, compute := true, seat := some 16, part := some 1, ag := { core := 0, tid := 0, seat := 16, deal := none }, tail := none },
      { w := [0x0100000000000000], hw := [0x100, 0x0000000100010000, 0, 0], fp := [] }, 1, 16, by decide +kernel,
      by decide +kernel, by decide +kernel, .inl (by decide +kernel)⟩,
    ⟨1, 2, ((unitAt [(2, 3)]).setDeal 3 { seat := 16, seq := 3, st := .running }), _, _, _, ready (by decide +kernel), gives
      (by decide +kernel), givesVal (by decide +kernel)⟩,
    ⟨(unitAt []), ready (by decide +kernel), by decide +kernel⟩,
    ⟨((unitAt []).modCore 0 fun c => { c with claim := { owner := some 0, groups := [0] } }), ready (by decide +kernel),
      by decide +kernel⟩,
    ⟨(((unitAt []).setDeal 3 { seat := 16, st := .launching }).modCluster 0 fun c => { c with queue := [3] }), 0, 3, _, 1,
      by decide +kernel, by decide +kernel, by decide +kernel, givesVal (by decide +kernel)⟩,
    ⟨(((unitAt []).setDeal 3 { seat := 16, st := .launching, hands := [{ entry := 0x100, first := 1, tmask := 1 }] }).modCore 0
      fun c => { c with groups := [{ base := 0, size := 1, seat := 16, deal := 3, hand := 0, mapped := false }] }), 3, _,
      givesVal (by decide +kernel)⟩,
    ⟨((((unitAt []).setDeal 3
      { seat := 16, st := .ready, hands := [{ entry := 0x100, first := 1, tmask := 1, spBytes := 0 }] }).modCluster 0 fun c =>
      { c with queue := [3] }).modHub fun h => { h with trained := [0, 1, 2, 3] }), 0, _, 1, _, _, by decide +kernel,
      by decide +kernel, by decide +kernel, chose (by decide +kernel)⟩,
    ⟨((unitAt []).modCluster 0 fun c => { c with queue := [] }), 0, 1, by decide +kernel⟩,
    ⟨((unitAt []).setDeal 3 { seat := 16, st := .launching, hands := [{ entry := 0x100, first := 1, tmask := 1 }] }), _, 3,
      { entry := 0x100, first := 1, tmask := 1 }, by decide +kernel, by decide +kernel, by decide +kernel, of_decide_eq_true
      (by decide +kernel), by decide +kernel, givesVal (by decide +kernel)⟩,
    ⟨((unitAt []).setDeal 3 { seat := 16, st := .running, hands := [{ entry := 0x100, first := 1, tmask := 1 }] }), 3, 0,
      { entry := 0x100, first := 1, tmask := 1 }, _, by decide +kernel, by decide +kernel, by decide +kernel, of_decide_eq_true
      (by decide +kernel), givesVal (by decide +kernel)⟩,
    ⟨(((unitAt []).setDeal 3 { seat := 16, st := .running, hands := [{ entry := 0x100, first := 1, tmask := 1 }] }).modThr 0 fun
      th => { th with deal := some 3 }), 3, 0, { entry := 0x100, first := 1, tmask := 1 }, by decide +kernel⟩,
    ⟨((unitAt []).setDeal 3 { seat := 16, st := .running, hands := [{ entry := 0x100, first := 1, tmask := 1 }] }), 3, 0,
      by decide +kernel⟩,
    ⟨((unitAt []).setDeal 3
      { seat := 16, st := .running, hands := [{ entry := 0x100, first := 1, tmask := 1, retired := true }] }), 3, 0,
      { entry := 0x100, first := 1, tmask := 1, retired := true }, _, by decide +kernel, by decide +kernel, by decide +kernel,
      of_decide_eq_true (by decide +kernel), givesVal (by decide +kernel)⟩,
    ⟨((unitAt []).setDeal 3
      { seat := 16, st := .running, hands := [{ entry := 0x100, first := 1, tmask := 1, retired := true }, { entry := 0x100, first := 1, tmask := 1 }] }),
      3, 0, { entry := 0x100, first := 1, tmask := 1, retired := true }, by decide +kernel⟩,
    ⟨(((unitAt []).modCore 0 fun c =>
      { c with groups := [{ base := 0, size := 1, seat := 16, deal := 3, hand := 0, mapped := false }] }).modCore 1 fun c =>
      { c with rstores := [{ seat := 16, cls := 1, dest := 0, addr := 0x00F1000000000000, kind := .store 8 5 }] }), 3, 0, 0,
      by decide +kernel⟩,
    ⟨((unitAt []).setDeal 3
      { seat := 16, st := .running, hands := [{ entry := 0x100, first := 1, tmask := 1, retired := true }], ran := [0] }), _, _,
      3, givesVal (by decide +kernel), givesVal (by decide +kernel)⟩,
    ⟨((unitAt []).setDeal 3 { seat := 16, st := .running }), _, 3, givesVal (by decide +kernel)⟩⟩

/-- The hypotheses of Rings can be met. -/
theorem meets_Rings :
    (∃ (rd : _) (rs1 : _) (rs2 : _) (s : State) (s1 : State) (s2 : State) (s3 : State) (s4 : State) (s5 : State) (s6 : State) (c : Word) (a : Word) (b : RingBlock) (v : Nat) (body : List Word) (s7 : State),
      Ready (.rngPush rd rs1 rs2) s ∧
      Gives (readX rs1) s c s1 ∧
      Gives (readX rs2) s1 a s2 ∧
      Gives (ringBlock c) s2 b s3 ∧
      Gives (memRead a 8 s3.plainAtt) s3 v s4 ∧
      let h := BitVec.ofNat 64 v
      let t := recSize h
      t ≤ 4096 ∧
      t ≤ b.size / 2 ∧
      Gives (readDoublewords (a + 8) ((t - 8) / 8)) s4 body s5 ∧
      Gives (release .part) s5 () s6 ∧
      let off := b.res.toNat % b.size
      let skip := if b.size - off < t then b.size - off else 0
      let next := b.res + BitVec.ofNat 64 (t + skip)
      b.size < (next - b.tail).toNat ∧
      Gives (writeX rd (BitVec.ofInt 64 (-1))) s6 () s7) ∧
    (∃ (rd : _) (rs1 : _) (rs2 : _) (s : State) (s1 : State) (s2 : State) (s3 : State) (s4 : State) (s5 : State) (s6 : State) (c : Word) (a : Word) (b : RingBlock) (v : Nat) (body : List Word) (s7 : State) (s8 : State) (s9 : State) (s10 : State) (s11 : State),
      Ready (.rngPush rd rs1 rs2) s ∧
      Gives (readX rs1) s c s1 ∧
      Gives (readX rs2) s1 a s2 ∧
      Gives (ringBlock c) s2 b s3 ∧
      Gives (memRead a 8 s3.plainAtt) s3 v s4 ∧
      let h := BitVec.ofNat 64 v
      let t := recSize h
      t ≤ 4096 ∧
      t ≤ b.size / 2 ∧
      Gives (readDoublewords (a + 8) ((t - 8) / 8)) s4 body s5 ∧
      Gives (release .part) s5 () s6 ∧
      let off := b.res.toNat % b.size
      let skip := if b.size - off < t then b.size - off else 0
      let next := b.res + BitVec.ofNat 64 (t + skip)
      (next - b.tail).toNat ≤ b.size ∧
      b.head = b.res ∧
      Gives (ringWrite (c + 0x10) next) s6 () s7 ∧
      Gives (ringWrite (b.base + BitVec.ofNat 64 off) (BitVec.ofNat 64 (2 ^ 62 + (skip - 8)))) s7 () s8 ∧
      Gives
        (do for x in (List.range (t / 8)).zip (h :: body) do ringWrite (b.base + BitVec.ofNat 64 ((off + skip) % b.size + 8 * x.1)) x.2)
        s8 () s9 ∧
      Gives (ringWrite c next) s9 () s10 ∧
      Gives (writeX rd (BitVec.ofNat 64 ((off + skip) % b.size))) s10 () s11) ∧
    (∃ (rd : _) (rs1 : _) (rs2 : _) (s : State) (s1 : State) (s2 : State) (s3 : State) (c : Word) (a : Word),
      Ready (.rngPop rd rs1 rs2) s ∧
      Gives (readX rs1) s c s1 ∧
      Gives (readX rs2) s1 a s2 ∧
      Gives (ringPop rd c (some a)) s2 () s3) ∧
    (∃ (rd : _) (rs1 : _) (s : State) (s1 : State) (s2 : State) (c : Word),
      Ready (.rngSkip rd rs1) s ∧
      Gives (readX rs1) s c s1 ∧
      Gives (ringPop rd c none) s1 () s2) ∧
    (∃ (rd : _) (c : Word) (s : State) (s1 : State) (s2 : State) (s3 : State) (b : RingBlock),
      Gives (ringBlock c) s b s1 ∧
      Gives (passSkips b ((b.head - b.tail).toNat / 8 + 1) b.tail) s1 (.empty b.tail) s2 ∧
      Gives (writeX rd (BitVec.ofInt 64 (-1))) s2 () s3) ∧
    (∃ (rd : _) (c : Word) (s : State) (s1 : State) (s2 : State) (s3 : State) (s4 : State) (s5 : State) (s6 : State) (b : RingBlock) (t : Word) (h : Word),
      Gives (ringBlock c) s b s1 ∧
      Gives (passSkips b ((b.head - b.tail).toNat / 8 + 1) b.tail) s1 (.record t h) s2 ∧
      Gives (release .part) s2 () s3 ∧
      s4 = s3 ∧
      Gives (ringWrite (c + 8) (t + BitVec.ofNat 64 (recSize h))) s4 () s5 ∧
      Gives (writeX rd (BitVec.ofNat 64 (h.toNat % 2 ^ 32))) s5 () s6) ∧
    (∃ (rd : _) (c : Word) (dst : Word) (s : State) (s1 : State) (s2 : State) (s3 : State) (s4 : State) (s5 : State) (s6 : State) (b : RingBlock) (t : Word) (h : Word),
      Gives (ringBlock c) s b s1 ∧
      Gives (passSkips b ((b.head - b.tail).toNat / 8 + 1) b.tail) s1 (.record t h) s2 ∧
      Gives (release .part) s2 () s3 ∧
      Gives
        (do for i in List.range (recSize h / 8) do ringWrite (dst + BitVec.ofNat 64 (8 * i)) (← ringRead (b.base + BitVec.ofNat 64 (t.toNat % b.size + 8 * i))))
        s3 () s4 ∧
      Gives (ringWrite (c + 8) (t + BitVec.ofNat 64 (recSize h))) s4 () s5 ∧
      Gives (writeX rd (BitVec.ofNat 64 (h.toNat % 2 ^ 32))) s5 () s6) :=
  ⟨⟨1, 2, 3, (((((((((unitAt [(2, own), (3, 0x00F1000000003000)]).store 0xF1000000000000 8 4088).store 0xF1000000000008 8
      0).store 0xF1000000000010 8 4088).store 0xF1000000000018 8 0x00F1000000001000).store 0xF1000000000020 8 12).store
      0xF1000000003000 8 16).store 0xF1000000003008 8 7).store 0xF1000000003010 8 9), _, _, _, _, _, _, _, _, _, _, _, _, ready
      (by decide +kernel), gives (by decide +kernel), gives (by decide +kernel), @gives _ ⟨⟨0, 0, 0, 0, 0⟩⟩ _ _
      (by decide +kernel), gives (by decide +kernel), by decide +kernel, by decide +kernel, gives (by decide +kernel), givesVal
      (by decide +kernel), by decide +kernel, givesVal (by decide +kernel)⟩,
    ⟨1, 2, 3, (((((((((unitAt [(2, own), (3, 0x00F1000000003000)]).store 0xF1000000000000 8 4088).store 0xF1000000000008 8
      4080).store 0xF1000000000010 8 4088).store 0xF1000000000018 8 0x00F1000000001000).store 0xF1000000000020 8 12).store
      0xF1000000003000 8 16).store 0xF1000000003008 8 7).store 0xF1000000003010 8 9), _, _, _, _, _, _, _, _, _, _, _, _, _, _,
      _, _, ready (by decide +kernel), gives (by decide +kernel), gives (by decide +kernel), @gives _ ⟨⟨0, 0, 0, 0, 0⟩⟩ _ _
      (by decide +kernel), gives (by decide +kernel), by decide +kernel, by decide +kernel, gives (by decide +kernel), givesVal
      (by decide +kernel), by decide +kernel, by decide +kernel, givesVal (by decide +kernel), givesVal (by decide +kernel),
      givesVal (by decide +kernel), givesVal (by decide +kernel), givesVal (by decide +kernel)⟩,
    ⟨1, 2, 3, (((((((((unitAt [(2, own), (3, 0x00F1000000003000)]).store 0xF1000000000000 8 24).store 0xF1000000000008 8
      0).store 0xF1000000000010 8 24).store 0xF1000000000018 8 0x00F1000000001000).store 0xF1000000000020 8 12).store
      0xF1000000001000 8 16).store 0xF1000000001008 8 7).store 0xF1000000001010 8 9), _, _, _, _, _, ready (by decide +kernel),
      gives (by decide +kernel), gives (by decide +kernel), givesVal (by decide +kernel)⟩,
    ⟨1, 2, (((((((((unitAt [(2, own)]).store 0xF1000000000000 8 24).store 0xF1000000000008 8 0).store 0xF1000000000010 8
      24).store 0xF1000000000018 8 0x00F1000000001000).store 0xF1000000000020 8 12).store 0xF1000000001000 8 16).store
      0xF1000000001008 8 7).store 0xF1000000001010 8 9), _, _, _, ready (by decide +kernel), gives (by decide +kernel), givesVal
      (by decide +kernel)⟩,
    ⟨1, own, ((((((unitAt []).store 0xF1000000000000 8 24).store 0xF1000000000008 8 24).store 0xF1000000000010 8 24).store
      0xF1000000000018 8 0x00F1000000001000).store 0xF1000000000020 8 12), _, _, _, _, @gives _ ⟨⟨0, 0, 0, 0, 0⟩⟩ _ _
      (by decide +kernel), givesEmpty (by decide +kernel), givesVal (by decide +kernel)⟩,
    ⟨1, own, (((((((((unitAt []).store 0xF1000000000000 8 24).store 0xF1000000000008 8 0).store 0xF1000000000010 8 24).store
      0xF1000000000018 8 0x00F1000000001000).store 0xF1000000000020 8 12).store 0xF1000000001000 8 16).store 0xF1000000001008 8
      7).store 0xF1000000001010 8 9), _, _, _, _, _, _, _, 0, 16, @gives _ ⟨⟨0, 0, 0, 0, 0⟩⟩ _ _ (by decide +kernel),
      givesRecord (by decide +kernel), givesVal (by decide +kernel), rfl, givesVal (by decide +kernel), givesVal
      (by decide +kernel)⟩,
    ⟨1, own, 0x00F1000000003000, (((((((((unitAt []).store 0xF1000000000000 8 24).store 0xF1000000000008 8 0).store
      0xF1000000000010 8 24).store 0xF1000000000018 8 0x00F1000000001000).store 0xF1000000000020 8 12).store 0xF1000000001000 8
      16).store 0xF1000000001008 8 7).store 0xF1000000001010 8 9), _, _, _, _, _, _, _, 0, 16, @gives _ ⟨⟨0, 0, 0, 0, 0⟩⟩ _ _
      (by decide +kernel), givesRecord (by decide +kernel), givesVal (by decide +kernel), givesVal (by decide +kernel), givesVal
      (by decide +kernel), givesVal (by decide +kernel)⟩⟩

/-- The hypotheses of SharedResources can be met. -/
theorem meets_SharedResources :
    (∃ (s : State),
      s.cycle < 128 * (s.ticks + 1)) ∧
    (∃ (s : State),
      128 * (s.ticks + 1) ≤ s.cycle) ∧
    (∃ (s : State),
      128 * (s.ticks + 1) ≤ s.cycle ∧
      (∀ p ∈ s.parts.toList, p.2.pending = [] ∧ p.2.pendingCfg = none)) ∧
    (∃ (s : State) (c : Nat) (b : Nat) (l : List Waiting) (w : Waiting) (r : List Waiting),
      let a := s.arb (channelArb c)
      let x := a.bucket b
      a.queue = l ++ w :: r ∧
      (∀ v ∈ l, v.req.bucket ≠ b) ∧
      w.req.bucket = b ∧
      w.since + 4096 ≤ s.cycle ∧
      s.cycle ≤ w.asked + 1 ∧
      x.debt + (w.req.cost - x.tok) ≤ 65535 ∧
      a.aged + w.req.cost ≤ 48 ∧
      (∀ p ∈ a.buckets.toList, p.1 ≠ b → p.2.spentAt ≠ s.cycle ∨ p.2.spent = 0)) ∧
    (∃ (s : State) (c : Nat) (b : Nat),
      let a := s.arb (channelArb c)
      let x := a.bucket b
      (∀ w ∈ a.queue, w.req.bucket = b → s.cycle < w.since + 4096 ∨ w.asked + 1 < s.cycle ∨ 48 < a.aged + w.req.cost ∨ 65535 <
        x.debt + (w.req.cost - x.tok))) ∧
    (∃ (s : State) (c : Nat) (b : Nat),
      let a := s.arb (channelArb c)
      let x := a.bucket b
      (∀ w ∈ a.queue, w.req.bucket = b → s.cycle < w.since + 4096 ∨ w.asked + 1 < s.cycle ∨ 48 < a.aged + w.req.cost ∨ 65535 <
        x.debt + (w.req.cost - x.tok))) ∧
    (∃ (s : State) (c : Nat) (b : Nat),
      let a := s.arb (channelArb c)
      let x := a.bucket b
      (∀ w ∈ a.queue, w.req.bucket = b → s.cycle < w.since + 4096 ∨ w.asked + 1 < s.cycle ∨ 48 < a.aged + w.req.cost ∨ 65535 <
        x.debt + (w.req.cost - x.tok))) ∧
    (∃ (s : State) (c : Nat) (b : Nat),
      let a := s.arb (channelArb c)
      let x := a.bucket b
      (∀ w ∈ a.queue, w.req.bucket = b → s.cycle < w.since + 4096 ∨ w.asked + 1 < s.cycle ∨ 48 < a.aged + w.req.cost ∨ 65535 <
        x.debt + (w.req.cost - x.tok))) ∧
    (∃ (s : State) (c : Nat) (b : Nat),
      let a := s.arb (channelArb c)
      let x := a.bucket b
      (∀ w ∈ a.queue, w.req.bucket = b → s.cycle < w.since + 4096 ∨ w.asked + 1 < s.cycle ∨ 48 < a.aged + w.req.cost ∨ 65535 <
        x.debt + (w.req.cost - x.tok))) ∧
    (∃ (s : State) (c : Nat) (f : Nat) (r : List Nat),
      s.scrubs.get [] c = f :: r ∧
      s.scrubOver c = true) ∧
    (∃ (s : State) (c : Nat),
      s.scrubOver c = false) :=
  ⟨⟨(unitAt []), by decide +kernel⟩,
    ⟨{ (unitAt []) with cycle := 128 }, by decide +kernel⟩,
    ⟨{ ((unitAt []).modArb 10003 fun a => { a with buckets := ⟨[(16, { rate := 9, depth := 128, tok := 100, debt := 3 })]⟩ }) with cycle := 128 },
      by decide +kernel⟩,
    ⟨({ ((unitAt []).modArb 10003 fun a => { a with buckets := ⟨[(16, { rate := 9, depth := 128, tok := 0, debt := 65533 }), (17, { rate := 9, depth := 128, tok := 5 })]⟩, queue := [{ req := { arb := 10003, bucket := 17, cost := 2 }, since := 7, asked := 4102 }, { req := { arb := 10003, bucket := 16, cost := 2 }, since := 7, asked := 4102 }], aged := 46 }) with cycle := 4103 }),
      3, 16, [{ req := { arb := 10003, bucket := 17, cost := 2 }, since := 7, asked := 4102 }],
      { req := { arb := 10003, bucket := 16, cost := 2 }, since := 7, asked := 4102 }, [], by decide +kernel⟩,
    ⟨({ ((unitAt []).modArb 10003 fun a => { a with buckets := ⟨[(16, { rate := 9, depth := 128, tok := 0, debt := 65533 }), (17, { rate := 9, depth := 128, tok := 5 })]⟩, queue := [] }) with cycle := 5000 }),
      3, 16, by decide +kernel⟩,
    ⟨({ ((unitAt []).modArb 10003 fun a => { a with buckets := ⟨[(16, { rate := 9, depth := 128, tok := 0, debt := 65533 }), (17, { rate := 9, depth := 128, tok := 5 })]⟩, queue := [{ req := { arb := 10003, bucket := 16, cost := 2 }, since := 8, asked := 4102 }] }) with cycle := 4103 }),
      3, 16, by decide +kernel⟩,
    ⟨({ ((unitAt []).modArb 10003 fun a => { a with buckets := ⟨[(16, { rate := 9, depth := 128, tok := 0, debt := 65533 }), (17, { rate := 9, depth := 128, tok := 5 })]⟩, queue := [{ req := { arb := 10003, bucket := 16, cost := 2 }, since := 7, asked := 4101 }] }) with cycle := 4103 }),
      3, 16, by decide +kernel⟩,
    ⟨({ ((unitAt []).modArb 10003 fun a => { a with buckets := ⟨[(16, { rate := 9, depth := 128, tok := 0, debt := 65533 }), (17, { rate := 9, depth := 128, tok := 5 })]⟩, queue := [{ req := { arb := 10003, bucket := 16, cost := 3 }, since := 7, asked := 4102 }], aged := 46 }) with cycle := 4103 }),
      3, 16, by decide +kernel⟩,
    ⟨({ ((unitAt []).modArb 10003 fun a => { a with buckets := ⟨[(16, { rate := 9, depth := 128, tok := 0, debt := 65534 }), (17, { rate := 9, depth := 128, tok := 5 })]⟩, queue := [{ req := { arb := 10003, bucket := 16, cost := 2 }, since := 7, asked := 4102 }] }) with cycle := 4103 }),
      3, 16, by decide +kernel⟩,
    ⟨{ (unitAt []) with scrubs := ⟨[(3, [5, 6])]⟩, scrubLeft := ⟨[(3, 0)]⟩ }, 3, 5, [6], by decide +kernel⟩,
    ⟨{ (unitAt []) with scrubs := ⟨[(3, [5, 6])]⟩, scrubLeft := ⟨[(3, 1)]⟩ }, 3, by decide +kernel⟩⟩

/-- The hypotheses of Errors can be met. -/
theorem meets_Errors :
    (∃ (f : Nat) (s : State),
      let x := s.func f
      x.elogHead - x.elogTail = 256) ∧
    (∃ (f : Nat) (r : Report) (s : State),
      let x := s.func f
      x.elogHead - x.elogTail ≠ 256 ∧
      r.cls < 16 ∧
      r.source < 4096 ∧
      r.cause < 256 ∧
      r.sub < 256 ∧
      r.core < 2048) ∧
    (∃ (s : State) (pa : Nat),
      (∀ f, s.frame (pa / 65536) ≠ .held f) ∧
      pa < 192 * 2 ^ 30) ∧
    (∃ (s : State) (pa : Nat) (f : Nat),
      s.frame (pa / 65536) = .held f) ∧
    (∃ (s : State) (loc : Nat),
      loc < 192 * 2 ^ 30 ∧
      s.dirtyLine loc = false) ∧
    (∃ (s : State) (loc : Nat),
      loc < 192 * 2 ^ 30 ∧
      s.dirtyLine loc = true) ∧
    (∃ (loc : Nat) (n : Nat) (off : Nat),
      placeOf 0 loc = .bank n off) ∧
    (∃ (loc : Nat) (c : Nat) (off : Nat) (i : Nat),
      placeOf 0 loc = .cm c off ∧
      i < 8) ∧
    (∃ (s : State) (n : Nat) (loc : Nat) (l : L2Line),
      loc / (6 * 2 ^ 30) = n ∧
      ((s.slice n).sets.get [] (loc / 64 % 16384)).find? (fun l => l.addr == loc / 64 * 64) = some l ∧
      l.dirty = false) ∧
    (∃ (s : State) (n : Nat) (loc : Nat) (l : L2Line),
      loc / (6 * 2 ^ 30) = n ∧
      ((s.slice n).sets.get [] (loc / 64 % 16384)).find? (fun l => l.addr == loc / 64 * 64) = some l ∧
      l.dirty = true) ∧
    (∃ (s : State) (n : Nat) (loc : Nat) (b : Block),
      (((s.core n).set (setOf loc)).blocks ++ ((s.core n).set (setOf loc)).victims.map fun v => v.blk).find? (fun b => b.holds
        loc) = some b ∧
      b.dirty = 0) ∧
    (∃ (s : State) (n : Nat) (loc : Nat) (b : Block),
      (((s.core n).set (setOf loc)).blocks ++ ((s.core n).set (setOf loc)).victims.map fun v => v.blk).find? (fun b => b.holds
        loc) = some b ∧
      b.dirty ≠ 0) :=
  ⟨⟨1, (State.reset.modFunc 1 fun x => { x with elogHead := 256 }), by decide +kernel⟩,
    ⟨1, { cls := 15, source := 4095, cause := 255, sub := 255, core := 2047 }, (State.reset.modFunc 1 fun x =>
      { x with elogHead := 255 }), by decide +kernel⟩,
    ⟨(unitAt []), 206158430207, fun f h => (by cases (show FrameState.free = .held f from h)), by decide +kernel⟩,
    ⟨((unitAt []).setFrame 1 (.held 1)), 65536, 1, by decide +kernel⟩,
    ⟨(unitAt []), 206158430207, by decide +kernel⟩,
    ⟨((unitAt []).modSlice 31 fun z => { z with sets := ⟨[(16383, [{ addr := 0x2FFFFFFFC0, way := 0, dirty := true }])]⟩ }),
      206158430207, by decide +kernel⟩,
    ⟨0x00F100000005FFFF, 0, 0x5FFFF, by decide +kernel⟩,
    ⟨0x00F20000000FFFFF, 0, 0xFFFFF, 7, by decide +kernel⟩,
    ⟨((unitAt []).modSlice 31 fun z => { z with sets := ⟨[(16383, [{ addr := 0x2FFFFFFFC0, way := 0, dirty := false }])]⟩ }),
      31, 206158430207, { addr := 0x2FFFFFFFC0, way := 0, dirty := false }, by decide +kernel⟩,
    ⟨((unitAt []).modSlice 31 fun z => { z with sets := ⟨[(16383, [{ addr := 0x2FFFFFFFC0, way := 0, dirty := true }])]⟩ }), 31,
      206158430207, { addr := 0x2FFFFFFFC0, way := 0, dirty := true }, by decide +kernel⟩,
    ⟨((unitAt []).modCore 0 fun c =>
      { c with l1 := ⟨[(4, { blocks := [{ va := 0x100, home := 0x100, dirty := 0, data := List.replicate 8 0 }] })]⟩ }), 0,
      0x107, { va := 0x100, home := 0x100, dirty := 0, data := List.replicate 8 0 }, by decide +kernel⟩,
    ⟨((unitAt []).modCore 0 fun c =>
      { c with l1 := ⟨[(4, { blocks := [{ va := 0x100, home := 0x100, dirty := 1, data := List.replicate 8 0 }] })]⟩ }), 0,
      0x107, { va := 0x100, home := 0x100, dirty := 1, data := List.replicate 8 0 }, by decide +kernel⟩⟩

/-- The hypotheses of SynchronisedStop can be met. -/
theorem meets_SynchronisedStop :
    (∃ (s : State) (fn : Nat) (g : Nat),
      s.partAt fn = true ∧
      (s.part fn).phase = .none ∧
      s.cycle + 2048 ≤ g) ∧
    (∃ (s : State) (g : Nat) (result : Word),
      g < s.cycle + 2048 ∧
      result ≠ 0 ∧
      result.toNat % 8 = 0 ∧
      result.toNat < 192 * 2 ^ 30 ∧
      memCanonical s.mem = true) ∧
    (∃ (s : State) (g : Nat) (result : Word),
      g < s.cycle + 2048 ∧
      result ≠ 0 ∧
      result.toNat % 8 = 0 ∧
      result.toNat < 192 * 2 ^ 30 ∧
      memCanonical s.mem = true) ∧
    (∃ (s : State) (fn : Nat),
      s.cycle < (s.part fn).atCycle) ∧
    (∃ (s : State) (fn : Nat),
      (s.part fn).phase = .asked ∧
      (s.part fn).atCycle ≤ s.cycle) ∧
    (∃ (s : State) (fn : Nat) (u : Nat),
      (s.part fn).phase = .asked ∧
      (s.part fn).atCycle ≤ s.cycle ∧
      s.threads = ⟨[(u, s.thr u)]⟩ ∧
      s.covers fn (coreOf u) = true ∧
      (s.thr u).st = .running) ∧
    (∃ (s : State) (fn : Nat),
      (s.part fn).phase = .stopping ∧
      s.quietPart fn = true) ∧
    (∃ (s : State) (fn : Nat),
      s.quietPart fn = false) ∧
    (∃ (s : State) (fn : Nat) (router : Nat) (link : Nat) (vc : Nat),
      (router, link, vc) ∉ (s.part fn).flying) ∧
    (∃ (s : State) (fn : Nat) (router : Nat) (link : Nat) (vc : Nat),
      (s.part fn).phase = .agreed ∧
      (router, link, vc) ∈ (s.part fn).flying) ∧
    (∃ (s : State) (fn : Nat),
      (s.part fn).phase = .agreed ∧
      (∀ x ∈ inputPairs, x ∈ (s.part fn).tokens) ∧
      (∀ u ∈ s.threadsIn fn, (s.thr u).st = .empty ∨ (s.thr u).st = .stopped)) ∧
    (∃ (s : State) (fn : Nat) (x : Nat × Nat × Nat),
      (s.part fn).phase = .agreed ∧
      x ∈ inputPairs ∧
      x ∉ (s.part fn).tokens) ∧
    (∃ (s : State) (fn : Nat) (g : Nat),
      s.partAt fn = true ∧
      (s.part fn).phase = .stopped ∧
      s.cycle + 2048 ≤ g) ∧
    (∃ (s : State) (fn : Nat),
      (s.part fn).phase = .resuming ∧
      (s.part fn).atCycle ≤ s.cycle) ∧
    (∃ (s : State) (fn : Nat) (u : Nat),
      (s.part fn).phase = .resuming ∧
      (s.part fn).atCycle ≤ s.cycle ∧
      (s.part fn).stopped = [u] ∧
      (s.thr u).st = .stopped ∧
      (s.thr u).pmark = false ∧
      (s.thr u).saving = false ∧
      s.octets = {}) ∧
    (∃ (s : State) (fn : Nat) (u : Nat),
      u ∈ s.threadsIn fn ∧
      (s.thr u).st ≠ .empty ∧
      (s.thr u).st ≠ .stopped) ∧
    (∃ (s : State) (fn : Nat) (n : Nat),
      (s.part fn).phase = .resuming ∧
      (s.part fn).atCycle ≤ s.cycle ∧
      (s.part fn).stopped = [] ∧
      s.octets = {} ∧
      isDealer n = false ∧
      s.covers fn n = true) :=
  ⟨⟨(unitAt []), 1, 2048, by decide +kernel⟩,
    ⟨(unitAt []), 2047, 0x2FFFFFFFF8, by decide +kernel⟩,
    ⟨(unitAt []), 2047, 0x2FFFFFFFF8, by decide +kernel⟩,
    ⟨((unitAt []).modPart 1 fun p => { p with phase := .asked, atCycle := 2048 }), 1, by decide +kernel⟩,
    ⟨((unitAt []).modPart 1 fun p => { p with phase := .asked }), 1, by decide +kernel⟩,
    ⟨((unitAt []).modPart 1 fun p => { p with phase := .asked }), 1, 0, by decide +kernel⟩,
    ⟨(((unitAt []).modPart 1 fun p => { p with phase := .stopping }).modThr 0 fun th =>
      { th with st := .stopped, saved := true }), 1, by decide +kernel⟩,
    ⟨(unitAt []), 1, by decide +kernel⟩,
    ⟨((unitAt []).modPart 1 fun p => { p with phase := .agreed }), 1, 176, 5, 2, by decide +kernel⟩,
    ⟨((unitAt []).modPart 1 fun p => { p with phase := .agreed, flying := [(176, 5, 2)] }), 1, 176, 5, 2, by decide +kernel⟩,
    ⟨(((unitAt []).modThr 0 fun th => { th with st := .stopped }).modPart 1 fun p =>
      { p with phase := .agreed, tokens := inputPairs }), 1, by decide +kernel, fun x h => h, by decide +kernel⟩,
    ⟨((unitAt []).modPart 1 fun p => { p with phase := .agreed }), 1, (176, 0, 2), by decide +kernel⟩,
    ⟨((unitAt []).modPart 1 fun p => { p with phase := .stopped }), 1, 2048, by decide +kernel⟩,
    ⟨((unitAt []).modPart 1 fun p => { p with phase := .resuming }), 1, by decide +kernel⟩,
    ⟨(((unitAt []).modPart 1 fun p => { p with phase := .resuming, stopped := [0] }).modThr 0 fun th =>
      { th with st := .stopped }), 1, 0, by decide +kernel⟩,
    ⟨((unitAt []).modPart 1 fun p => { p with phase := .agreed, tokens := inputPairs }), 1, 0, by decide +kernel⟩,
    ⟨((unitAt []).modPart 1 fun p => { p with phase := .resuming }), 1, 0, by decide +kernel⟩⟩

/-- The hypotheses of LinksAndHost can be met. -/
theorem meets_LinksAndHost :
    (∃ (s : State) (fn : Nat) (off : Nat),
      0 < fn ∧
      s.partAt fn = true ∧
      memCanonical s.mem = true ∧
      off / 2 ^ 33 < (s.part fn).nodes ∧
      off % 2 ^ 33 < 6 * 2 ^ 30) ∧
    (∃ (off : Nat),
      6 * 2 ^ 30 ≤ off % 2 ^ 33) ∧
    (∃ (s : State) (fn : Nat) (off : Nat),
      0 < fn ∧
      s.partAt fn = true ∧
      off / 2 ^ 33 < (s.part fn).nodes ∧
      off % 2 ^ 33 < 6 * 2 ^ 30 ∧
      let a := (fn - 1 + off / 2 ^ 33) * (6 * 2 ^ 30) + off % 2 ^ 33
      s.poisoned a = false) ∧
    (∃ (s : State) (fn : Nat) (off : Nat),
      0 < fn ∧
      s.partAt fn = true ∧
      6 * 2 ^ 30 ≤ off % 2 ^ 33) ∧
    (∃ (s : State) (fn : Nat),
      s.funcAt fn = false) ∧
    (∃ (s : State) (fn : Nat),
      s.funcAt fn = true) ∧
    (∃ (s : State) (fn : Nat) (j : Nat),
      s.funcAt fn = true ∧
      j < 16) ∧
    (∃ (s : State),
      s.funcAt 0 = true) ∧
    (∃ (s : State) (fn : Nat) (seat : BitVec 4),
      let k := 16 * fn + seat.toNat
      (s.seatsOf fn).contains k = true) ∧
    (∃ (s : State) (fn : Nat) (seat : BitVec 4),
      s.funcAt fn = true ∧
      (s.seatsOf fn).contains (16 * fn + seat.toNat) = true) ∧
    (∃ (s : State) (port : Nat) (vc : Nat),
      port < 16 ∧
      vc < 3 ∧
      (s.link (0x970 + port)).failed = false ∧
      (s.link (0x970 + port)).unacked.length < 64) ∧
    (∃ (s : State) (link : Nat),
      isLink link = true ∧
      (s.link link).failed = false ∧
      (s.link link).retrained = false ∧
      (s.link link).unacked ≠ []) ∧
    (∃ (s : State) (link : Nat),
      isLink link = true ∧
      (s.link link).failed = false ∧
      (s.link link).retrained = false ∧
      (s.link link).unacked ≠ []) ∧
    (∃ (s : State) (link : Nat),
      isLink link = true ∧
      (s.link link).failed = false ∧
      (s.link link).retrained = true ∧
      (s.link link).replaying = true ∧
      (s.link link).replays = 7 ∧
      (s.link link).unacked ≠ []) ∧
    (∃ (s : State) (link : Nat),
      isLink link = true ∧
      (s.link link).failed = false ∧
      8 ≤ (s.link link).replays) ∧
    (∃ (s : State) (link : Nat),
      (s.link link).unacked = []) ∧
    (∃ (s : State) (link : Nat) (p : LinkPacket) (r : List LinkPacket),
      (s.link link).unacked = p :: r ∧
      (s.link link).failed = false ∧
      (s.link link).replays < 8) ∧
    (∃ (s : State) (port : Nat) (vc : Nat) (seq : BitVec 12) (raw : Bool) (n : Nat) (payload : List Byte) (crc : _),
      port < 16 ∧
      vc < 3 ∧
      let k := 0x970 + port
      crc = crc32c (peerBytes seq vc raw n payload) ∧
      seq = (s.link k).next) ∧
    (∃ (s : State) (port : Nat) (vc : Nat) (seq : BitVec 12) (raw : Bool) (n : Nat) (payload : List Byte) (crc : _),
      port < 16 ∧
      vc < 3 ∧
      let k := 0x970 + port
      crc = crc32c (peerBytes seq vc raw n payload) ∧
      seq ≠ (s.link k).next) ∧
    (∃ (port : Nat) (vc : Nat) (seq : BitVec 12) (raw : Bool) (n : Nat) (payload : List Byte) (crc : _),
      port < 16 ∧
      vc < 3 ∧
      crc ≠ crc32c (peerBytes seq vc raw n payload)) ∧
    (∃ (s : State) (fn : Nat),
      s.funcAt fn = true) ∧
    (∃ (s : State) (fn : Nat) (j : Nat),
      s.funcAt fn = true ∧
      j < 16) :=
  ⟨⟨(unitAt []), 1, 0x17FFFFFFF, by decide +kernel⟩,
    ⟨0x180000000, by decide +kernel⟩,
    ⟨(unitAt []), 1, 0x17FFFFFFF, by decide +kernel⟩,
    ⟨(unitAt []), 1, 0x180000000, by decide +kernel⟩,
    ⟨(unitAt []), 2, by decide +kernel⟩,
    ⟨(unitAt []), 1, by decide +kernel⟩,
    ⟨(unitAt []), 1, 15, by decide +kernel⟩,
    ⟨((unitAt []).modHub fun h => { h with up := true }), by decide +kernel⟩,
    ⟨(unitAt []), 1, 0, by decide +kernel⟩,
    ⟨(unitAt []), 1, 0, by decide +kernel⟩,
    ⟨(unitAt []), 15, 2, by decide +kernel⟩,
    ⟨((unitAt []).setLink 2431 { unacked := [{}] }), 2431, by decide +kernel⟩,
    ⟨((unitAt []).setLink 2431 { unacked := [{}], replaying := true, replays := 3 }), 2431, by decide +kernel⟩,
    ⟨((unitAt []).setLink 2431 { replays := 7, retrained := true, replaying := true, unacked := [{}] }), 2431,
      by decide +kernel⟩,
    ⟨((unitAt []).setLink 0x97F { replays := 8 }), 0x97F, by decide +kernel⟩,
    ⟨(unitAt []), 2431, by decide +kernel⟩,
    ⟨((unitAt []).setLink 2431 { unacked := [{}, { seq := 1 }], replays := 7 }), 2431, {}, [{ seq := 1 }], by decide +kernel⟩,
    ⟨(unitAt []), 15, 2, 0, false, 0, [], crc32c (peerBytes 0 2 false 0 []), by decide +kernel⟩,
    ⟨(unitAt []), 15, 2, 4095, false, 0, [], crc32c (peerBytes 4095 2 false 0 []), by decide +kernel⟩,
    ⟨15, 2, 0, false, 0, [], crc32c (peerBytes 0 2 false 0 []) + 1, by decide +kernel⟩,
    ⟨(unitAt []), 1, by decide +kernel⟩,
    ⟨(unitAt []), 1, 15, by decide +kernel⟩⟩

/-- The hypotheses of Power can be met. -/
theorem meets_Power :
    (∃ (s : State) (o : Nat),
      (s.cycle % 8 ≠ 0 ∨ s.cycle / 8 ≤ (s.octet o).frame)) ∧
    (∃ (s : State) (o : Nat),
      (s.cycle % 8 ≠ 0 ∨ s.cycle / 8 ≤ (s.octet o).frame)) ∧
    (∃ (s : State) (o : Nat),
      s.cycle % 8 = 0 ∧
      (s.octet o).frame < s.cycle / 8) ∧
    (∃ (s : State) (o : Nat),
      (s.cycle % 8 + (s.octet o).usable < 8 ∨ s.cycle < (s.octet o).issued)) ∧
    (∃ (s : State) (o : Nat),
      (s.cycle % 8 + (s.octet o).usable < 8 ∨ s.cycle < (s.octet o).issued)) ∧
    (∃ (s : State) (o : Nat),
      8 ≤ s.cycle % 8 + (s.octet o).usable ∧
      (s.octet o).issued ≤ s.cycle ∧
      1 < (s.octet o).left) ∧
    (∃ (s : State) (o : Nat),
      8 ≤ s.cycle % 8 + (s.octet o).usable ∧
      (s.octet o).issued ≤ s.cycle ∧
      (s.octet o).left = 0 ∧
      (s.runReady o = true ∨ s.opReady o = true)) ∧
    (∃ (s : State) (o : Nat),
      8 ≤ s.cycle % 8 + (s.octet o).usable ∧
      (s.octet o).issued ≤ s.cycle ∧
      (s.octet o).left = 0 ∧
      s.runReady o = false ∧
      s.opReady o = false ∧
      0 < (s.octet o).level) ∧
    (∃ (s : State) (o : Nat),
      8 ≤ s.cycle % 8 + (s.octet o).usable ∧
      (s.octet o).issued ≤ s.cycle ∧
      (s.octet o).left = 0 ∧
      s.runReady o = false ∧
      s.opReady o = false ∧
      (s.octet o).level = 0) ∧
    (∃ (s : State) (o : Nat),
      s.demand o = true ∧
      (s.octet o).rising = false) ∧
    (∃ (s : State) (o : Nat),
      (s.demand o = false ∨ (s.octet o).rising = true)) ∧
    (∃ (s : State) (o : Nat),
      (s.demand o = false ∨ (s.octet o).rising = true)) ∧
    (∃ (s : State) (o : Nat),
      0 < (s.octet o).level ∧
      (s.octet o).level ≤ 8 ∧
      (s.octet o).rampAt + 32 ≤ s.cycle ∧
      (s.demand o = true → (s.octet o).rising = true)) ∧
    (∃ (s : State) (o : Nat),
      0 < (s.octet o).level ∧
      (s.octet o).level ≤ 8 ∧
      (s.octet o).rampAt + 32 ≤ s.cycle ∧
      (s.demand o = true → (s.octet o).rising = true)) ∧
    (∃ (s : State) (o : Nat),
      0 < (s.octet o).level ∧
      (s.octet o).level ≤ 8 ∧
      (s.octet o).rampAt + 32 ≤ s.cycle ∧
      (s.demand o = true → (s.octet o).rising = true)) ∧
    (∃ (s : State) (o : Nat),
      (s.octet o).level = 0 ∨ s.cycle < (s.octet o).rampAt + 32) ∧
    (∃ (s : State) (o : Nat),
      (s.octet o).level = 0 ∨ s.cycle < (s.octet o).rampAt + 32) ∧
    (∃ (s : State),
      s.cycle < 2048 * (s.hub.windows + 1)) ∧
    (∃ (s : State) (mw : Nat) (o : Nat),
      2048 * (s.hub.windows + 1) ≤ s.cycle ∧
      o < 256 ∧
      s.arrayAllotted o = true ∧
      1000 * s.hub.plim < mw) ∧
    (∃ (s : State) (mw : Nat) (o : Nat),
      2048 * (s.hub.windows + 1) ≤ s.cycle ∧
      o < 256 ∧
      s.arrayAllotted o = true ∧
      100 * mw < 95 * (1000 * s.hub.plim)) ∧
    (∃ (s : State) (o : Nat),
      2048 * (s.hub.windows + 1) ≤ s.cycle ∧
      o < 256 ∧
      s.arrayAllotted o = false) ∧
    (∃ (w : Nat),
      1200 ≤ w ∧
      w ≤ 2000) ∧
    (∃ (w : Nat),
      1200 ≤ w ∧
      w ≤ 2000) ∧
    (∃ (w : Nat),
      (w < 1200 ∨ 2000 < w)) ∧
    (∃ (w : Nat),
      (w < 1200 ∨ 2000 < w)) :=
  ⟨⟨{ (unitAt []) with cycle := 9 }, 0, .inl (by decide +kernel)⟩,
    ⟨{ ((unitAt []).modOctet 0 fun y => { y with frame := 5000 }) with cycle := 40000 }, 0, .inr (by decide +kernel)⟩,
    ⟨{ (unitAt []) with cycle := 40000 }, 0, by decide +kernel⟩,
    ⟨{ ((unitAt []).modOctet 0 fun y => { y with usable := 2, level := 2 }) with cycle := 5 }, 0, .inl (by decide +kernel)⟩,
    ⟨{ ((unitAt []).modOctet 0 fun y => { y with usable := 2, issued := 8 }) with cycle := 7 }, 0, .inr (by decide +kernel)⟩,
    ⟨{ ((unitAt []).modOctet 0 fun y => { y with usable := 1, left := 8 }) with cycle := 7 }, 0, by decide +kernel⟩,
    ⟨{ ((unitAt []).modOctet 0 fun y => { y with usable := 1, rows := ⟨[(63, { loaded := true, ints := List.replicate 128 1, exp := 5 })]⟩, ops := [{ reqs := List.replicate 8 { tid := 0, desc := 0x13F }, first := 63, count := 1, started := true }] }) with cycle := 7 },
      0, by decide +kernel, by decide +kernel, by decide +kernel, .inr (by decide +kernel)⟩,
    ⟨{ ((unitAt []).modOctet 0 fun y => { y with usable := 1, level := 1 }) with cycle := 7 }, 0, by decide +kernel⟩,
    ⟨{ ((unitAt []).modOctet 0 fun y => { y with usable := 1, level := 0 }) with cycle := 7 }, 0, by decide +kernel⟩,
    ⟨((unitAt []).modOctet 0 fun y =>
      { y with rows := ⟨[(63, { loaded := true, ints := List.replicate 128 1, exp := 5 })]⟩, ops := [{ reqs := List.replicate 8 { tid := 0, desc := 0x13F }, first := 63, count := 1, started := true }] }),
      0, by decide +kernel⟩,
    ⟨(unitAt []), 0, .inl (by decide +kernel)⟩,
    ⟨(((unitAt []).modOctet 0 fun y =>
      { y with rows := ⟨[(63, { loaded := true, ints := List.replicate 128 1, exp := 5 })]⟩, ops := [{ reqs := List.replicate 8 { tid := 0, desc := 0x13F }, first := 63, count := 1, started := true }] }).modOctet
      0 fun y => { y with rising := true }), 0, .inr (by decide +kernel)⟩,
    ⟨{ ((unitAt []).modOctet 0 fun y => { y with level := 8 }) with cycle := 32 }, 0, by decide +kernel⟩,
    ⟨{ ((unitAt []).modOctet 0 fun y => { y with level := 1 }) with cycle := 32 }, 0, by decide +kernel⟩,
    ⟨{ (((unitAt []).modOctet 0 fun y => { y with rows := ⟨[(63, { loaded := true, ints := List.replicate 128 1, exp := 5 })]⟩, ops := [{ reqs := List.replicate 8 { tid := 0, desc := 0x13F }, first := 63, count := 1, started := true }] }).modOctet 0 fun y => { y with level := 8, rising := true }) with cycle := 32 },
      0, by decide +kernel⟩,
    ⟨(unitAt []), 0, .inl (by decide +kernel)⟩,
    ⟨((unitAt []).modOctet 0 fun y => { y with level := 1, rampAt := 1 }), 0, .inr (by decide +kernel)⟩,
    ⟨(unitAt []), by decide +kernel⟩,
    ⟨{ (unitAt []) with cycle := 2048 }, 2000001, 1, by decide +kernel⟩,
    ⟨{ ((unitAt []).modHub fun h => { h with step := 7 }) with cycle := 2048 }, 1899999, 1, by decide +kernel⟩,
    ⟨{ (unitAt []) with cycle := 2048 }, 255, by decide +kernel⟩,
    ⟨1200, by decide +kernel⟩,
    ⟨2000, by decide +kernel⟩,
    ⟨1199, by decide +kernel⟩,
    ⟨2001, by decide +kernel⟩⟩

/-- The hypotheses of Management can be met. -/
theorem meets_Management :
    (∃ (s : State) (f : Nat), s.canMerge f = true ∧ s.frame (17 * 98304) = .held 17) ∧
    (∃ (s : State) (f : Nat),
      s.partIdle f = true ∧
      3 < (s.part f).level ∧
      (s.part f).level ≤ 8) ∧
    (∃ (s : State) (f : Nat),
      s.partIdle f = false) ∧
    (∃ (s : State) (f : Nat) (cs : List Span) (ws : List RoWindow),
      s.acceptsPart f cs ws = true) ∧
    (∃ (s : State) (fn : Nat) (seat : BitVec 4) (cfg : Option SeatCfg),
      s.acceptsSeat fn (16 * fn + seat.toNat) cfg = true ∧
      cfg ≠ none ∧
      fn < 64) ∧
    (∃ (s : State) (fn : Nat) (seat : BitVec 4) (cfg : Option SeatCfg),
      s.acceptsSeat fn (16 * fn + seat.toNat) cfg = true ∧
      cfg = none) ∧
    (∃ (s : State) (addr : Word),
      addr.toNat % 8 = 0 ∧
      addr.toNat < 192 * 2 ^ 30 ∧
      s.frame (addr.toNat / 65536) = .held 0 ∧
      memCanonical s.mem = true) ∧
    (∃ (s : State) (addr : Word),
      s.frame (addr.toNat / 65536) ≠ .held 0) ∧
    (∃ (s s1 : State) (fn : Nat) (record : Word) (r : DealRecord) (v : Word),
      record.toNat % 64 = 0 ∧
      Gives (readRecord (fun (a : Word) n => do
        match ← look fun s => s.hubWords a.toNat n with
        | some ws => return ws
        | none => trap 16 0x01 a) record) { s with arbs := {} } r { s with arbs := {} } ∧
      Gives (acceptDeal { system := true, compute := false, seat := none, part := none,
                          ag := { core := 16 * r.home, tid := 99999, seat := 16 * fn + r.seatField, deal := none },
                          tail := none } record r) { s with arbs := {} } v s1) ∧
    (∃ (record : Word),
      record.toNat % 64 ≠ 0) ∧
    (∃ (s : State) (record : Word),
      record.toNat % 64 = 0 ∧
      (readRecord (fun (a : Word) n => do
        match ← look fun s => s.hubWords a.toNat n with
        | some ws => return ws
        | none => trap 16 0x01 a) record { s with arbs := {} }).toOption = none) ∧
    (∃ (s : State) (c : Nat) (b : Nat) (dest : Word),
      c < 32 ∧
      dest.toNat % 8 = 0 ∧
      dest.toNat < 192 * 2 ^ 30 ∧
      memCanonical s.mem = true ∧
      let x := (s.arb (channelArb c)).bucket b
      x.tok < 2 ^ 64 ∧
      x.debt < 2 ^ 64 ∧
      (s.arb (channelArb c)).kitty < 2 ^ 64) ∧
    (∃ (s : State) (c : Nat) (k : Nat) (pos : Nat) (src : Nat) (w : Word),
      c < 128 ∧
      k < s.cmBaseOf c ∧
      pos < 4096 ∧
      s.hubWords src 1 = some [w]) ∧
    (∃ (s : State) (holder : Nat) (f : Nat),
      (f + 1) * 65536 ≤ 192 * 2 ^ 30 ∧
      s.frame f = .free ∧
      s.mayHold holder f = true) ∧
    (∃ (s : State) (holder : Nat) (first : Nat) (count : Nat) (i : Nat),
      i < count ∧
      (s.frame (first + i) ≠ .free ∨ s.mayHold holder (first + i) = false)) ∧
    (∃ (s : State) (holder : Nat) (f : Nat),
      (f + 1) * 65536 ≤ 192 * 2 ^ 30 ∧
      s.frame f = .held holder) ∧
    (∃ (s : State) (holder : Nat) (first : Nat) (count : Nat) (i : Nat),
      i < count ∧
      s.frame (first + i) ≠ .held holder) ∧
    (∃ (s : State) (f : Nat),
      (f + 1) * 65536 ≤ 192 * 2 ^ 30 ∧
      s.frame f = .free) :=
  ⟨⟨(({ State.reset with parts := ⟨[(1, { level := 7 }), (17, { level := 7 })]⟩ } : State).setFrame (17 * 98304) (.held 17)),
      17, by decide +kernel⟩,
    ⟨State.reset, 1, by decide +kernel⟩,
    ⟨(unitAt []), 1, by decide +kernel⟩,
    ⟨State.reset, 1, List.replicate 128 { base := 2048, count := 0 }, [], by decide +kernel⟩,
    ⟨(State.reset.setFrame 0 (.held 1)), 1, 15, some {}, by decide +kernel⟩,
    ⟨(unitAt []), 1, 0, none, by decide +kernel⟩,
    ⟨((unitAt []).setFrame 0x2FFFFF (.held 0)), 0x2FFFFFFFF8, by decide +kernel⟩,
    ⟨((unitAt []).setFrame 0x2FFFFF (.held 1)), 0x2FFFFFFFF8, by decide +kernel⟩,
    ⟨((((unitAt []).store 0x2FFFFFF000 8 0x0100000000000000).store 0x2FFFFFF0C0 8 0x100).store 0x2FFFFFF0C8 8
      0x0000000100010000), _, 1, 0x2FFFFFF000,
      { w := 0x0100000000000000 :: List.replicate 23 0, hw := [0x100, 0x0000000100010000, 0, 0], fp := [] }, _,
      by decide +kernel, rfl, @gives _ ⟨0⟩ _ _ (by decide +kernel)⟩,
    ⟨0x2FFFFFF020, by decide +kernel⟩,
    ⟨(unitAt []), 0x00F0000000000000, by decide +kernel, isNone_of (by decide +kernel)⟩,
    ⟨((unitAt []).modArb 10031 fun a =>
      { a with kitty := 3, buckets := ⟨[(16, { rate := 9, depth := 9, tok := 5, debt := 2 })]⟩ }), 31, 16, 0x2FFFFFFFE8,
      by decide +kernel⟩,
    ⟨(unitAt []), 0, 63, 4095, 0x2FFFFFFFF8, 0, by decide +kernel⟩,
    ⟨(unitAt []), 1, 0x2FFFFF, by decide +kernel⟩,
    ⟨((unitAt []).setFrame 0x2FFFFF (.held 1)), 1, 0x2FFFFE, 2, 1, by decide +kernel⟩,
    ⟨((unitAt []).setFrame 0x2FFFFF (.held 1)), 1, 0x2FFFFF, by decide +kernel⟩,
    ⟨(unitAt []), 1, 0x2FFFFE, 2, 1, by decide +kernel⟩,
    ⟨(unitAt []), 0x2FFFFF, by decide +kernel⟩⟩

/-- The hypotheses of FirmwareAndResets can be met. -/
theorem meets_FirmwareAndResets :
    (∃ (s : State),
      s.hub.up = false ∧
      s.hub.active.valid = true) ∧
    (∃ (s : State),
      s.hub.up = false ∧
      s.hub.active.valid = false ∧
      s.hub.inactive.valid = true) ∧
    (∃ (s : State) (d : Nat),
      d < 8 ∧
      d ∉ s.hub.trained ∧
      d ∉ s.hub.failedDies) ∧
    (∃ (s : State) (d : Nat),
      d < 8 ∧
      d ∉ s.hub.trained ∧
      d ∉ s.hub.failedDies ∧
      s.hub.up = true ∧
      s.hub.active.valid = true) ∧
    (∃ (s : State) (d : Nat),
      d < 8 ∧
      d ∉ s.hub.trained ∧
      d ∉ s.hub.failedDies) ∧
    (∃ (s : State) (src : Word) (len : Nat),
      s.hub.activeB = false ∧
      src.toNat + len ≤ 192 * 2 ^ 30) ∧
    (∃ (s : State),
      (s.hub.state = 0 ∨ s.hub.state = 3) ∧
      s.hub.inactive.valid = true) ∧
    (∃ (s : State),
      (s.hub.state = 0 ∨ s.hub.state = 3) ∧
      s.hub.inactive.valid = true) ∧
    (∃ (s : State),
      (s.hub.state = 0 ∨ s.hub.state = 3) ∧
      s.hub.inactive.valid = false) ∧
    (∃ (s : State),
      (s.hub.state = 1 ∨ s.hub.state = 2)) ∧
    (∃ (s : State),
      (s.hub.state = 1 ∨ s.hub.state = 2)) ∧
    (∃ (k : Nat),
      k < 16) ∧
    (∃ (s : State),
      s.hub.state = 1 ∧
      (∀ k, k < 16 → k ∈ s.hub.qacks) ∧
      s.cycle ≤ s.hub.deadline) ∧
    (∃ (s : State),
      s.cycle < s.hub.deadline) ∧
    (∃ (s : State) (k : Nat),
      s.hub.state = 1 ∧
      k < 16 ∧
      k ∉ s.hub.qacks ∧
      s.hub.deadline ≤ s.cycle) ∧
    (∃ (s : State) (k : Nat),
      s.hub.state = 2 ∧
      k < 16 ∧
      s.cycle ≤ s.hub.deadline ∧
      s.hub.result = 0) ∧
    (∃ (s : State) (k : Nat) (v : BitVec 16),
      s.hub.state = 2 ∧
      k < 16 ∧
      v ≠ s.hub.active.version) ∧
    (∃ (s : State),
      s.cycle ≤ s.hub.deadline) ∧
    (∃ (s : State),
      s.hub.state = 2 ∧
      s.hub.result = 0 ∧
      s.hub.deadline < s.cycle) ∧
    (∃ (k : Nat),
      k < 16) ∧
    (∃ (s : State) (d : Nat),
      d < 8 ∧
      s.deals = {}) ∧
    (∃ (s : State) (f : Nat),
      0 < f ∧
      s.partAt f = true ∧
      s.deals = {}) ∧
    (∃ (s : State) (fn : Nat), s.funcAt fn = true ∧ s.hub.spdm.get 0 fn = 1) ∧
    (∃ (s : State) (fn : Nat), s.funcAt fn = true ∧ s.hub.spdm.get 0 fn = 2) ∧
    (∃ (s : State) (fn : Nat), s.funcAt fn = true ∧ s.hub.spdm.get 0 fn = 3) ∧
    (∃ (s : State) (fn : Nat), s.funcAt fn = true ∧ s.hub.spdm.get 0 fn < 3) ∧
    (∃ (s : State) (fn : Nat),
      s.funcAt fn = false) ∧
    (∃ (s : State),
      s.hub.up = true) ∧
    (∃ (s : State),
      s.hub.state = 1 ∧
      (∀ k, k < 16 → k ∈ s.hub.qacks) ∧
      s.hub.deadline < s.cycle) ∧
    (∃ (s : State),
      s.hub.up = true) :=
  ⟨⟨((unitAt []).modHub fun h => { h with slotA := { full := true, valid := true }, trained := [0] }), by decide +kernel⟩,
    ⟨((unitAt []).modHub fun h => { h with slotB := { full := true, valid := true }, trained := [0] }), by decide +kernel⟩,
    ⟨((unitAt []).modHub fun h => { h with trained := [0, 1, 2, 3, 4, 5, 6] }), 7, by decide +kernel⟩,
    ⟨((unitAt []).modHub fun h => { h with up := true, slotA := { full := true, valid := true } }), 0, by decide +kernel⟩,
    ⟨(unitAt []), 7, by decide +kernel⟩,
    ⟨(unitAt []), 0x2FFFFFFFF0, 16, by decide +kernel⟩,
    ⟨((unitAt []).modHub fun h => { h with slotB := { full := true, valid := true } }), by decide +kernel⟩,
    ⟨((unitAt []).modHub fun h => { h with state := 3, slotB := { full := true, valid := true } }), by decide +kernel⟩,
    ⟨(unitAt []), by decide +kernel⟩,
    ⟨((unitAt []).modHub fun h => { h with state := 1 }), by decide +kernel⟩,
    ⟨((unitAt []).modHub fun h => { h with state := 2 }), by decide +kernel⟩,
    ⟨15, by decide +kernel⟩,
    ⟨((unitAt []).modHub fun h => { h with state := 1, qacks := List.range 16 }), by decide +kernel⟩,
    ⟨((unitAt []).modHub fun h => { h with deadline := 1 }), by decide +kernel⟩,
    ⟨((unitAt []).modHub fun h => { h with state := 1, qacks := List.range 15 }), 15, by decide +kernel⟩,
    ⟨((unitAt []).modHub fun h => { h with state := 2, deadline := 0 }), 15, by decide +kernel⟩,
    ⟨((unitAt []).modHub fun h => { h with state := 2 }), 15, 1, by decide +kernel⟩,
    ⟨((unitAt []).modHub fun h => { h with deadline := 0 }), by decide +kernel⟩,
    ⟨{ ((unitAt []).modHub fun h => { h with state := 2 }) with cycle := 1 }, by decide +kernel⟩,
    ⟨15, by decide +kernel⟩,
    ⟨(unitAt []), 7, by decide +kernel⟩,
    ⟨State.reset, 1, by decide +kernel⟩,
    ⟨((unitAt []).modHub fun h => { h with up := true, spdm := ⟨[(0, 1)]⟩ }), 0, by decide +kernel⟩,
    ⟨((unitAt []).modHub fun h => { h with up := true, spdm := ⟨[(0, 2)]⟩ }), 0, by decide +kernel⟩,
    ⟨((unitAt []).modHub fun h => { h with up := true, spdm := ⟨[(0, 3)]⟩ }), 0, by decide +kernel⟩,
    ⟨((unitAt []).modHub fun h => { h with up := true }), 0, by decide +kernel⟩,
    ⟨(unitAt []), 0, by decide +kernel⟩,
    ⟨{ ((unitAt []).modHub fun h => { h with up := true }) with cycle := 1 }, by decide +kernel⟩,
    ⟨{ ((unitAt []).modHub fun h => { h with state := 1, deadline := 9, qacks := List.range 16 }) with cycle := 10 },
      by decide +kernel⟩,
    ⟨((unitAt []).modHub fun h => { h with up := true }), by decide +kernel⟩⟩

/-- The hypotheses of RegisterFrame can be met. -/
theorem meets_RegisterFrame :
    (∃ (i : Instr) (rd : Reg) (s : State),
      plainDest i = some rd ∧
      Ready i s ∧
      (s.thr s.cur).leader = false ∧
      (s.thr s.cur).fq = [] ∧
      (s.thr s.cur).binds = {}) ∧
    (∃ (i : Instr) (rd : Reg) (s : State),
      plainDest i = some rd ∧
      Ready i s ∧
      (s.thr s.cur).leader = false ∧
      (s.thr s.cur).fq = [] ∧
      (s.thr s.cur).binds = {}) :=
  ⟨⟨.add 31 1 2, 31, (unitAt []), by decide +kernel, ready (by decide +kernel), by decide +kernel⟩,
    ⟨.lui 0 0xFFFFF, 0, (unitAt []), by decide +kernel, ready (by decide +kernel), by decide +kernel⟩⟩

/-- The hypotheses of ScratchpadStores can be met. -/
theorem meets_ScratchpadStores :
    ∃ (rs2 rs1 : Reg) (imm : BitVec 12) (s : State) (a v : Word) (off : Nat),
      Ready (.sd rs2 rs1 imm) s ∧ memCanonical s.mem = true ∧ coreOf s.cur < 2048 ∧ (s.thr s.cur).relMark = none ∧
      (s.thr s.cur).leader = false ∧ (s.thr s.cur).fq = [] ∧ Gives (readX rs1) s a s ∧ Gives (readX rs2) s v s ∧
      let c := coreOf s.cur
      let va := (rewriteOwn c (a + imm.signExtend 64)).toNat
      (a + imm.signExtend 64).toNat % 8 = 0 ∧ s.heldBy (clusterOf c) va 8 = none ∧ placeOf c va = .bank c off ∧
      off < 0x60000 ∧ s.bankOwned ((s.thr s.cur).seat.getD 0) c off = true := 
  ⟨3, 2, 0xFF8, (unitAt [(2, 0x00F0000000060000), (3, 5)]), 0x00F0000000060000, 5, 0x5FFF8, ready (by decide +kernel),
    by decide +kernel, by decide +kernel, by decide +kernel, by decide +kernel, by decide +kernel, rfl, rfl, by decide +kernel⟩

/-- The hypotheses of MemoryStaysCanonical can be met. -/
theorem meets_MemoryStaysCanonical :
    ∃ s t : State, memCanonical s.mem = true ∧ step s = .next t := 
  ⟨State.reset, (nextOf (o := step State.reset) (by decide +kernel)).choose, by decide +kernel, (nextOf
    (by decide +kernel)).choose_spec⟩

/-- The last thread of the cores that are not dealer cores. -/
theorem meets_ResetState_thread : coreOf 8191 < 2048 := by decide

end Sys2Proof.Tests
end

section
/-! The fills of caches and buffers as steps of their own (R84, R98, R323, R327). A fill's entry stands at its end because what follows
its entry keeps it: transfers touch no core and no cluster, and a write-back touches no block of a first-level cache. -/

namespace Sys2Proof.Machine.NamedFills

/-! ## Actions that keep a part of the state -/

/-- An action that answers leaves what `f` shows of the state as it was. -/
def Keeps {α β : Type} (f : State → β) (act : Act α) : Prop := ∀ s a t, act s = .ok (a, t) → f t = f s

section Keeps

variable {α β γ : Type} {f : State → γ}

theorem Keeps.pure (a : α) : Keeps f (pure a : Act α) := by
  rintro s b t ⟨⟩
  rfl

theorem Keeps.look (g : State → α) : Keeps f (look g) := by
  rintro s b t ⟨⟩
  rfl

theorem Keeps.upd {g : State → State} (h : ∀ s, f (g s) = f s) : Keeps f (upd g) := by
  rintro s b t ⟨⟩
  exact h s

theorem Keeps.upd_pure {g : State → State} {a : α} (h : ∀ s, f (g s) = f s) :
    Keeps f (Machine.upd g >>= fun _ => Pure.pure a) := by
  rintro s b t ⟨⟩
  exact h s

theorem Keeps.hold : Keeps f (hold : Act α) := by
  rintro s b t ⟨⟩

theorem Keeps.bind {x : Act α} {k : α → Act β} (hx : Keeps f x) (hk : ∀ a, Keeps f (k a)) : Keeps f (x >>= k) := by
  intro s b t h
  obtain ⟨a, s1, h1, h2⟩ := Act.bind_inv h
  exact (hk a s1 b t h2).trans (hx s a s1 h1)

/-- An action run under a condition before the rest. -/
theorem Keeps.guard {c : Prop} [Decidable c] {x : Act Unit} {k : Unit → Act β} (hx : Keeps f x) (hk : Keeps f (k ())) :
    Keeps f (if c then x >>= k else k ()) := by
  split
  · exact hx.bind fun _ => hk
  · exact hk

theorem Keeps.forIn {σ : Type} {k : α → σ → Act (ForInStep σ)} (hk : ∀ a b, Keeps f (k a b)) (l : List α) (b : σ) :
    Keeps f (forIn l b k) := by
  induction l generalizing b with
  | nil => exact Keeps.pure b
  | cons a l ih =>
    rw [List.forIn_cons]
    refine (hk a b).bind fun r => ?_
    cases r with
    | done c => exact Keeps.pure c
    | yield c => exact ih c

/-- What keeps `f` keeps what `f` determines. -/
theorem Keeps.mono {g : State → β} {act : Act α} (h : Keeps f act) (hg : ∀ s t, f t = f s → g t = g s) : Keeps g act :=
  fun s a t e => hg s t (h s a t e)

theorem foldl_keeps {g : State → α → State} (h : ∀ s a, f (g s a) = f s) (l : List α) (s : State) :
    f (l.foldl g s) = f s := by
  induction l generalizing s with
  | nil => rfl
  | cons a l ih => exact (ih (g s a)).trans (h s a)

end Keeps

/-! ## Transfers leave the cores and the clusters -/

/-- The cores and the clusters of a state, which hold every cache and buffer. -/
def holders (s : State) : NMap Core × NMap Cluster := (s.cores, s.clusters)

theorem holders_spendUnits (e : Nat) (d : Option Nat) (s : State) : holders (spendUnits e d s) = holders s := by
  cases d <;> rfl

theorem holders_acceptOldest (k : Nat) (s : State) : holders (acceptOldest k s) = holders s := by
  unfold acceptOldest
  dsimp only
  repeat' split
  all_goals rfl

theorem holders_sendOn (k : Nat) (p : LinkPacket) (s : State) : holders (sendOn k p s) = holders s := by
  unfold sendOn
  dsimp only
  split
  · exact holders_acceptOldest k s
  · rfl

theorem holders_crossLink (r : Req) (s : State) : holders (crossLink r s) = holders s := by
  unfold crossLink
  split
  · exact holders_sendOn _ _ s
  · split <;> rfl

theorem holders_pay (r : Req) (s : State) : holders (s.pay r) = holders s :=
  (holders_crossLink r _).trans (holders_spendUnits _ _ s)

theorem holders_ask {r : Req} {s t : State} (h : s.ask r = some t) : holders t = holders s := by
  unfold State.ask at h
  split at h
  · cases h
    rfl
  · split at h
    · cases h
      exact holders_pay r s
    · split at h
      · cases h
        exact holders_pay r _
      · cases h

theorem holders_askAll {l : List Req} {s t : State} (h : askAll l s = .ok t) : holders t = holders s := by
  induction l generalizing s with
  | nil =>
    cases h
    rfl
  | cons r l ih =>
    unfold askAll at h
    split at h
    · rename_i s1 h1
      exact (ih h).trans (holders_ask h1)
    · cases h

theorem charges_keeps (l : List Req) : Keeps holders (charges l) := by
  intro s a t h
  unfold charges at h
  split at h
  · rename_i s1 h1
    cases h
    exact holders_askAll h1
  · cases h

theorem l2Access_keeps (ag : Agent) (pa : Nat) (store : Bool) (pre post : List Req) :
    Keeps holders (l2Access ag pa store pre post) := by
  unfold l2Access
  dsimp only
  refine (Keeps.look _).bind fun lines => ?_
  split
  · exact (charges_keeps _).bind fun _ => Keeps.guard (Keeps.upd fun _ => rfl) (Keeps.upd fun _ => rfl)
  · refine (Keeps.upd fun s => ?_).bind fun _ => (Keeps.look _).bind fun held => (Keeps.look _).bind fun _ =>
      (charges_keeps _).bind fun _ => ?_
    · split <;> rfl
    · split
      · exact Keeps.pure ()
      · exact Keeps.upd fun _ => rfl

theorem readHome_keeps (ag : Agent) (pa n k : Nat) : Keeps holders (readHome ag pa n k) := by
  unfold readHome
  extract_lets pre answer
  have hanswer : Keeps holders (answer ()) := by
    refine (Keeps.look _).bind fun p => ?_
    split
    · exact Keeps.pure _
    · exact (Keeps.look _).bind fun _ => Keeps.pure _
  split
  · exact (l2Access_keeps ag pa false _ _).bind fun _ => hanswer
  · exact (charges_keeps _).bind fun _ => hanswer

theorem storeLines_keeps (ag : Agent) (a size : Nat) (pre : List Req) : Keeps holders (storeLines ag a size pre) := by
  unfold storeLines
  split
  · refine (Keeps.forIn (fun i _ => ?_) _ _).bind fun _ => Keeps.pure ()
    split
    · exact (l2Access_keeps ag _ true _ _).bind fun _ => Keeps.pure _
    · exact Keeps.pure _
  · exact charges_keeps pre

theorem holders_storeBytes (s : State) (a : Nat) (bs : List Byte) : holders (s.storeBytes a bs) = holders s := rfl

theorem holders_applyKind (a : Nat) (k : RKind) (s : State) : holders (applyKind a k s) = holders s := by
  cases k with
  | store n v => rfl
  | add v =>
    simp only [applyKind]
    split <;> rfl
  | pub additive v sig =>
    simp only [applyKind, holders_storeBytes]
    split
    · rfl
    · exact holders_storeBytes ..
  | packet ws hs => exact foldl_keeps (g := fun s (x : Nat × Word) => s.store x.1 8 x.2.toNat) (fun _ _ => rfl) (hs.zip ws) s

theorem performMem_keeps (n : Nat) (r : RStore) (pre post : List Req) : Keeps holders (performMem n r pre post) := by
  unfold performMem
  refine (Keeps.look _).bind fun held => ?_
  split
  · exact Keeps.upd fun _ => rfl
  · exact (Keeps.forIn (fun p _ => (storeLines_keeps _ (Prod.fst p) (Prod.snd p) pre).bind fun _ => Keeps.pure _) _ _).bind fun _ =>
      (charges_keeps post).bind fun _ => Keeps.upd (holders_applyKind _ _)

/-! ## Write-backs leave the blocks of the first-level caches -/

/-- The blocks of a set of core n's first-level cache. -/
def blocksAt (n ix : Nat) (s : State) : List Block := ((s.core n).set ix).blocks

theorem blocksAt_modCore (n ix : Nat) {m : Nat} {g : Core → Core} (h : ∀ c, (g c).l1 = c.l1) (s : State) :
    blocksAt n ix (s.modCore m g) = blocksAt n ix s := by
  by_cases hm : m = n
  · subst hm
    simp [blocksAt, State.modCore, Core.set, h]
  · simp [blocksAt, State.modCore, State.setCore_core_other, hm]

theorem blocksAt_modSet_same (n ix : Nat) (g : L1Set → L1Set) (s : State) :
    blocksAt n ix (s.modSet n ix g) = (g ((s.core n).set ix)).blocks := by
  simp [blocksAt, State.modSet, State.modCore, Core.set]

theorem blocksAt_modSet_victims (n ix m jx : Nat) (v : List Victim) (s : State) :
    blocksAt n ix (s.modSet m jx fun z => { z with victims := v }) = blocksAt n ix s := by
  by_cases hm : m = n
  · subst hm
    by_cases hx : jx = ix
    · subst hx
      exact blocksAt_modSet_same ..
    · simp [blocksAt, State.modSet, State.modCore, Core.set, NMap.get_set_other, hx]
  · simp [blocksAt, State.modSet, State.modCore, State.setCore_core_other, hm]

theorem Keeps.blocksAt {α : Type} {act : Act α} (h : Keeps holders act) (n ix : Nat) : Keeps (blocksAt n ix) act :=
  h.mono fun s t e => by
    obtain ⟨hcores, -⟩ := Prod.mk.inj e
    simp [NamedFills.blocksAt, State.core, hcores]

theorem Keeps.clusters {α : Type} {act : Act α} (h : Keeps holders act) : Keeps State.clusters act :=
  h.mono fun _ _ e => (Prod.mk.inj e).2

theorem blocksAt_markPerformed (n ix m i : Nat) (s : State) : blocksAt n ix (markPerformed m i s) = blocksAt n ix s := by
  refine blocksAt_modCore n ix (fun c => ?_) s
  split <;> rfl

theorem performBefore_keeps (n ix m a len : Nat) : Keeps (blocksAt n ix) (performBefore m a len) := by
  unfold performBefore
  refine (Keeps.look _).bind fun c => Keeps.guard Keeps.hold ?_
  refine (Keeps.forIn (fun i _ => ?_) _ _).bind fun _ => Keeps.pure ()
  exact ((performMem_keeps m _ _ _).blocksAt n ix).bind fun _ =>
    (Keeps.upd (blocksAt_markPerformed n ix m i)).bind fun _ => Keeps.pure _

theorem writeBack_keeps (n ix : Nat) (ag : Agent) (b : Block) : Keeps (blocksAt n ix) (writeBack ag b) := by
  unfold writeBack
  split
  · exact Keeps.pure ()
  · refine (performBefore_keeps n ix _ _ _).bind fun _ => (Keeps.look _).bind fun held => ?_
    split
    · refine ((l2Access_keeps _ _ true _ _).blocksAt n ix).bind fun _ => Keeps.upd fun s => ?_
      have hstored := foldl_keeps (f := blocksAt n ix) (g := fun s x => s.storeBytes (b.home + x.1) [x.2])
        (fun _ _ => rfl) b.dirtyBytes s
      dsimp only
      split <;> exact hstored
    · exact Keeps.upd fun _ => rfl

theorem leavePredictor_l1 (b : Block) (c : Core) : (leavePredictor b c).l1 = c.l1 := by
  unfold leavePredictor
  dsimp only
  repeat' split
  all_goals rfl

theorem evict_keeps (n ix : Nat) (ag : Agent) (jx : Nat) (b : Block) : Keeps (blocksAt n ix) (evict ag jx b) := by
  unfold evict
  dsimp only
  refine (Keeps.upd (blocksAt_modCore n ix (leavePredictor_l1 b))).bind fun _ => (Keeps.look _).bind fun c => ?_
  split
  · exact writeBack_keeps n ix ag b
  · exact (Keeps.forIn (fun v _ => (writeBack_keeps n ix ag (Victim.blk v)).bind fun _ => Keeps.pure _) _ _).bind fun _ =>
      Keeps.upd (blocksAt_modSet_victims n ix ag.core jx _)

/-! ## What an action that answers ends with -/

/-- Where an action answers, its answer and the state it leaves meet `P`. -/
def Ends {α : Type} (P : α → State → Prop) (act : Act α) : Prop := ∀ s a t, act s = .ok (a, t) → P a t

section Ends

variable {α β : Type} {P : β → State → Prop}

theorem Ends.bind {x : Act α} {k : α → Act β} (hk : ∀ a, Ends P (k a)) : Ends P (x >>= k) := by
  intro s b t h
  obtain ⟨a, s1, -, h2⟩ := Act.bind_inv h
  exact hk a s1 b t h2

theorem Ends.pure_bind {a : α} {k : α → Act β} (hk : Ends P (k a)) : Ends P (pure a >>= k) := hk

theorem Ends.pure {b : β} (h : ∀ t, P b t) : Ends P (pure b) := by
  rintro s c t ⟨⟩
  exact h s

/-- An update and an answer at the end of an action. -/
theorem Ends.upd_pure {g : State → State} {b : β} (h : ∀ s, P b (g s)) : Ends P (upd g >>= fun _ => Pure.pure b) := by
  rintro s c t ⟨⟩
  exact h s

end Ends

/-! ## Instruction lines (R83, R84) -/

/-- A thread's line enters its set whatever stands there: a free way of its two, or that of its least recently filled line. -/
theorem mem_fillLine (k : Nat) (l : ILine) (lines : List ILine) : ∃ w, { l with way := w } ∈ fillLine k l lines := by
  unfold fillLine
  dsimp only
  split
  · rename_i w _
    exact ⟨w, by simp⟩
  · rename_i o _ _ _
    exact ⟨o.way, by simp⟩
  · rename_i hfree hown
    simp [hown] at hfree

/-- The line `l` is for the address `va` and stands in its set of core n's instruction cache. -/
def LineStands (n va : Nat) (l : ILine) (t : State) : Prop :=
  l.va = va / 64 * 64 ∧ ∃ w, { l with way := w } ∈ (t.core n).icache.get [] (isetOf va)

@[simp] theorem settled_core (s : State) (n : Nat) : s.settled.core n = s.core n := rfl

theorem fillICache_stands (ag : Agent) (va : Nat) : Ends (LineStands ag.core va) (fillICache ag va) := by
  unfold fillICache
  refine Ends.bind fun _ => ?_
  extract_lets line bad enter
  have henter : ∀ l, l.va = va / 64 * 64 → Ends (LineStands ag.core va) (enter l) := by
    rintro l hl s a t ⟨⟩
    refine ⟨hl, ?_⟩
    obtain ⟨w, hw⟩ := mem_fillLine (ag.tid % 4) l ((s.core ag.core).icache.get [] (isetOf va))
    exact ⟨w, by simpa [State.modCore] using hw⟩
  refine Ends.bind fun x => ?_
  split
  · exact Ends.pure_bind (henter _ rfl)
  · refine Ends.bind fun v => ?_
    split <;> exact Ends.pure_bind (henter _ rfl)

/-! ## Rights nibbles (R327) -/

/-- An answer that is a nibble stands in core n's buffer for the seat and the domain. -/
def NibStands (n seat : Nat) (dom : BitVec 16) (r : Except Bad (BitVec 4)) (t : State) : Prop :=
  ∀ nib, r = .ok nib → { seat := seat, dom := dom, nib := nib } ∈ (t.core n).plb

theorem rightsOf_stands (ag : Agent) {dom : BitVec 16} (hdom : dom ≠ 0) :
    Ends (NibStands ag.core ag.seat dom) (rightsOf ag dom) := by
  unfold rightsOf
  rw [if_neg hdom]
  refine Ends.bind fun stale => ?_
  extract_lets answer
  have hanswer : Ends (NibStands ag.core ag.seat dom) (answer ()) := by
    refine Ends.bind fun plb => ?_
    split
    · rename_i e he
      refine Ends.upd_pure fun s nib hnib => ?_
      have hkey := List.find?_some he
      simp only [Bool.and_eq_true, beq_iff_eq] at hkey
      obtain ⟨hseat, hdom⟩ := hkey
      cases hnib
      simp [State.modCore, ← hseat, ← hdom]
    · refine Ends.bind fun base => Ends.bind fun v => ?_
      split
      · refine Ends.upd_pure fun s nib hnib => ?_
        cases hnib
      · refine Ends.upd_pure fun s nib hnib => ?_
        cases hnib
        simp [State.modCore]
  split
  · exact Ends.bind fun _ => hanswer
  · exact hanswer

theorem rightsOf_keeps (ag : Agent) (dom : BitVec 16) : Keeps State.clusters (rightsOf ag dom) := by
  unfold rightsOf
  split
  · exact Keeps.pure _
  · refine (Keeps.look _).bind fun stale => Keeps.guard (Keeps.upd fun _ => rfl) ?_
    refine (Keeps.look _).bind fun plb => ?_
    split
    · exact Keeps.upd_pure fun _ => rfl
    · refine (Keeps.look _).bind fun base => ((readHome_keeps _ _ _ _).clusters).bind fun v => ?_
      split <;> exact Keeps.upd_pure fun _ => rfl

/-! ## Blocks (R98) -/

/-- Taking in smaller blocks leaves a block at its place and size. -/
theorem foldl_absorb_holds (l : List Block) (b : Block) (va : Nat) : (l.foldl Block.absorb b).holds va = b.holds va := by
  induction l generalizing b with
  | nil => rfl
  | cons o l ih => exact ih (b.absorb o)

/-- A fill reads at least a word. -/
theorem fillSize_pos (th : Thread) (c : Core) (pol : Policy) (va : Nat) : 0 < (fillSize th c pol va).1 := by
  unfold fillSize
  dsimp only
  split
  · decide
  · split <;> exact Nat.two_pow_pos _

theorem aligned_holds {w : Nat} (hw : 0 < w) (va : Nat) : va / (8 * w) * (8 * w) ≤ va ∧ va < va / (8 * w) * (8 * w) + 8 * w :=
  ⟨Nat.div_mul_le_self va (8 * w), Nat.lt_div_mul_add (by omega)⟩

theorem insertBlock_stands (ag : Agent) (ix : Nat) (b : Block) (first : Bool) :
    Ends (fun _ t => b ∈ blocksAt ag.core ix t) (insertBlock ag ix b first) := by
  unfold insertBlock
  refine Ends.bind fun z => ?_
  dsimp only
  intro s a t h
  obtain ⟨_, s1, hput, h⟩ := Act.bind_inv h
  have hkept : blocksAt ag.core ix t = blocksAt ag.core ix s1 :=
    ((Keeps.forIn (fun e _ => (evict_keeps ag.core ix ag ix e).bind fun _ => Keeps.pure _) _ _).bind
      fun _ => Keeps.pure ()) s1 a t h
  cases hput
  rw [hkept, blocksAt_modSet_same]
  cases first <;> simp

/-- A block that an answer gives holds `va` and stands in its set of core n's first-level cache. -/
def BlockStands (n va : Nat) (r : Except Bad Block) (t : State) : Prop :=
  ∀ b, r = .ok b → b ∈ blocksAt n (setOf va) t ∧ b.holds va = true

theorem fillBlock_stands (ag : Agent) (va : Nat) (x : Xlated) (pol : Policy) :
    Ends (BlockStands ag.core va) (fillBlock ag va x pol) := by
  unfold fillBlock
  refine Ends.bind fun th => Ends.bind fun c => ?_
  have hw := fillSize_pos th c pol va
  generalize fillSize th c pol va = size at hw
  obtain ⟨w, e⟩ := size
  refine Ends.bind fun _ => Ends.bind fun v => ?_
  split
  · exact Ends.pure fun t b hb => by cases hb
  · refine Ends.bind fun z => Ends.bind fun _ => ?_
    intro s r t h
    obtain ⟨_, s1, hins, h⟩ := Act.bind_inv h
    cases h
    rintro b ⟨⟩
    refine ⟨insertBlock_stands ag _ _ _ _ _ _ hins, ?_⟩
    rw [foldl_absorb_holds]
    simp [Block.holds, Block.end_, aligned_holds hw va]

/-! ## Walks (R323) -/

theorem checkRight_keeps (ag : Agent) (dom : BitVec 16) (need : BitVec 4) : Keeps State.clusters (checkRight ag dom need) := by
  unfold checkRight
  refine (rightsOf_keeps ag dom).bind fun r => ?_
  split <;> exact Keeps.pure _

theorem walkFrom_keeps (ag : Agent) (va : Nat) (cm : Bool) (level ea : Nat) : Keeps State.clusters (walkFrom ag va cm level ea) := by
  induction level generalizing ea with
  | zero =>
    refine ((readHome_keeps _ _ _ _).clusters).bind fun r => ?_
    split
    · exact Keeps.pure _
    · split <;> exact Keeps.pure _
  | succ level ih =>
    refine ((readHome_keeps _ _ _ _).clusters).bind fun r => ?_
    split
    · exact Keeps.pure _
    · split
      · exact Keeps.pure _
      · exact Keeps.pure _
      · exact ih _

@[simp] theorem store_cluster (s : State) (a n v k : Nat) : (s.store a n v).cluster k = s.cluster k := rfl

/-- A walk that passes its checks has been counted, and an entry of its translation unit covers the address. -/
theorem walk_ok {ag : Agent} {va : Nat} {need : BitVec 4} {cm : Bool} {s t : State} {x : Xlated}
    (h : walk ag va need cm s = .ok (.ok x, t)) :
    (t.cluster (xlatOf ag.core)).walks = (s.cluster (xlatOf ag.core)).walks + 1 ∧
      ∃ e ∈ (t.cluster (xlatOf ag.core)).xlat, e.page ≤ va ∧ va < e.page + e.size ∧ e.dom = x.dom := by
  unfold walk at h
  obtain ⟨root, s0, hroot, h⟩ := Act.bind_inv h
  cases hroot
  obtain ⟨leaf, s1, hleaf, h⟩ := Act.bind_inv h
  have hc1 : s1.clusters = s.clusters := walkFrom_keeps _ _ _ _ _ _ _ _ hleaf
  cases leaf with
  | error b => cases h
  | ok l =>
    obtain ⟨chk, s2, hchk, h⟩ := Act.bind_inv h
    obtain rfl : s2 = s1 := Keeps.look (f := id) _ _ _ _ hchk
    cases chk with
    | none => cases h
    | some borrowed =>
      dsimp only at h
      split at h
      · cases h
      · obtain ⟨right, s3, hright, h⟩ := Act.bind_inv h
        have hc3 : s3.clusters = s2.clusters := checkRight_keeps _ _ _ _ _ _ hright
        cases right with
        | error b => cases h
        | ok _ =>
          cases h
          have hcover : va / 2 ^ l.bits * 2 ^ l.bits ≤ va ∧ va < va / 2 ^ l.bits * 2 ^ l.bits + 2 ^ l.bits :=
            ⟨Nat.div_mul_le_self .., Nat.lt_div_mul_add (Nat.two_pow_pos _)⟩
          have hsame : s3.cluster (xlatOf ag.core) = s.cluster (xlatOf ag.core) := by simp [State.cluster, hc3, hc1]
          simp [State.modCluster, hsame, hcover]

/-! ## The named steps run the fill they name -/

theorem exec_icacheFill (tid : Nat) (va : Word) (s : State) : exec (.icacheFill tid va) s = execIcacheFill tid va s := rfl
theorem exec_l1Fill (tid : Nat) (va : Word) (s : State) : exec (.l1Fill tid va) s = execL1Fill tid va s := rfl
theorem exec_plbFill (tid dom : Nat) (s : State) : exec (.plbFill tid dom) s = execPlbFill tid dom s := rfl
theorem exec_pageWalk (tid : Nat) (va : Word) (acc : Access) (s : State) :
    exec (.pageWalk tid va acc) s = execPageWalk tid va acc s := rfl

@[simp] theorem agent_core (s : State) (tid : Nat) : (s.agent tid).core = coreOf tid := rfl

theorem live_of_not_empty {s : State} {tid : Nat} (h : (s.thr tid).st ≠ .empty) : s.live tid = true := by
  simp [State.live, h]

theorem icacheFill_fills {s t : State} {tid : Nat} {va : Word} {l : ILine} (hmay : s.mayFill tid va.toNat = true)
    (hpage : placeOf (coreOf tid) va.toNat = .page)
    (hmiss : ∀ x ∈ (s.core (coreOf tid)).icache.get [] (isetOf va.toNat), x.va ≠ va.toNat / 64 * 64)
    (hfill : Gives (fillICache (s.agent tid) va.toNat) s l t) : exec (.icacheFill tid va) s = .next t := by
  rw [exec_icacheFill]
  have hall : (((s.core (coreOf tid)).icache.get [] (isetOf va.toNat)).all fun x => x.va != va.toNat / 64 * 64) = true := by
    simpa using hmiss
  refine runEvent_ok ?_
  rw [Act.bind_ok (look_apply _ s), if_pos hmay, Act.bind_ok (look_apply _ s), agent_core, if_pos hpage,
    Act.bind_ok (look_apply _ s), if_pos hall, Act.bind_ok hfill, Act.pure_apply]

theorem icacheFill_idle {s : State} {tid : Nat} {va : Word} (hmay : s.mayFill tid va.toNat = false) :
    exec (.icacheFill tid va) s = .next s := by
  rw [exec_icacheFill]
  refine runEvent_ok ?_
  rw [Act.bind_ok (look_apply _ s), if_neg (by simp [hmay]), Act.pure_apply]

theorem l1Fill_fills {s s1 s2 t : State} {tid : Nat} {va : Word} {x : Xlated} {b : Block} (hst : (s.thr tid).st ≠ .empty)
    (hpage : placeOf (coreOf tid) va.toNat = .page) (hmiss : Gives (heldBlock (s.agent tid) va.toNat) s none s1)
    (hxlat : Gives (translate (s.agent tid) va.toNat needR) s1 (.ok x) s2) (hgddr : x.pa < Config.hostBit)
    (hfill : Gives (fillBlock (s.agent tid) va.toNat x .default) s2 (.ok b) t) : exec (.l1Fill tid va) s = .next t := by
  rw [exec_l1Fill]
  refine runEvent_ok ?_
  rw [Act.bind_ok (look_apply _ s), if_pos (live_of_not_empty hst), Act.bind_ok (look_apply _ s), agent_core, if_pos hpage,
    Act.bind_ok hmiss]
  dsimp only
  rw [Act.bind_ok hxlat]
  dsimp only
  rw [if_pos hgddr, Act.bind_ok hfill, Act.pure_apply]

theorem plbFill_fills {s t : State} {tid dom : Nat} {r : Except Bad (BitVec 4)} (hst : (s.thr tid).st ≠ .empty)
    (hrights : Gives (rightsOf (s.agent tid) (BitVec.ofNat 16 dom)) s r t) : exec (.plbFill tid dom) s = .next t := by
  rw [exec_plbFill]
  refine runEvent_ok ?_
  rw [Act.bind_ok (look_apply _ s), if_pos (live_of_not_empty hst), Act.bind_ok (look_apply _ s), Act.bind_ok hrights,
    Act.pure_apply]

theorem pageWalk_walks {s t : State} {tid : Nat} {va : Word} {acc : Access} {x : Xlated} (hst : (s.thr tid).st ≠ .empty)
    (hpage : placeOf (coreOf tid) va.toNat = .page)
    (hmiss : ∀ e ∈ (s.cluster (xlatOf (coreOf tid))).xlat, ¬ (e.page ≤ va.toNat ∧ va.toNat < e.page + e.size))
    (hwalk : Gives (walk (s.agent tid) va.toNat (accessNeed acc) false) s (.ok x) t) :
    exec (.pageWalk tid va acc) s = .next t := by
  rw [exec_pageWalk]
  have hany : ¬ ((s.cluster (xlatOf (coreOf tid))).xlat.any fun e =>
      decide (e.page ≤ va.toNat) && decide (va.toNat < e.page + e.size)) = true := by
    simpa using hmiss
  refine runEvent_ok ?_
  rw [Act.bind_ok (look_apply _ s), if_pos (live_of_not_empty hst), Act.bind_ok (look_apply _ s),
    Act.bind_ok (look_apply _ s), agent_core, if_neg hany, hpage]
  dsimp only
  rw [Act.bind_ok hwalk, Act.pure_apply]

/-- Settles O24: each named step is the fill it names, and each fill ends with its entry in place. The block of a first-level
fill outlives the evictions that make room for it, since a write-back changes no block of a cache. -/
theorem fills : Obligations.Fills := by
  refine ⟨?icache, ?l1, ?plb, ?walk, fun s tid va => icacheFill_idle⟩
  case icache =>
    intro s s1 tid va l hmay hpage hmiss hfill
    exact ⟨icacheFill_fills hmay hpage hmiss hfill, fillICache_stands _ _ _ _ _ hfill⟩
  case l1 =>
    intro s s1 s2 s3 tid va x b hst hpage hmiss hxlat hgddr hfill
    exact ⟨l1Fill_fills hst hpage hmiss hxlat hgddr hfill, fillBlock_stands _ _ _ _ _ _ _ hfill b rfl⟩
  case plb =>
    intro s tid dom hst r s1 hrights
    exact ⟨plbFill_fills hst hrights, fun nib hnib hdom => rightsOf_stands (s.agent tid) hdom _ _ _ hrights nib hnib⟩
  case walk =>
    intro s s1 tid va acc x hst hpage hmiss hwalk
    exact ⟨pageWalk_walks hst hpage hmiss hwalk, walk_ok hwalk⟩

end Sys2Proof.Machine.NamedFills
end

section
/-! What the forms of near storage share: a trap of their own checks keeps nothing (R35), and a unit that waits keeps its thread's PC,
handles and registers (R63). The own loads and stores (R110). -/

namespace Sys2Proof.Machine.NearStorage

open NamedFills

/-! ## What a trap keeps where only operands were read -/

/-- A state but for its threads. -/
def besideThreads (s : State) : State := { s with threads := {} }

theorem popElem_keeps (i : Reg) (slot : Nat) (b : Binding) : Keeps besideThreads (popElem i slot b) := by
  unfold popElem
  refine (Keeps.look fun s => s.cur).bind fun t => ?_
  cases b.exh with
  | true => rintro s a t ⟨⟩
  | false =>
    refine (Keeps.pure ()).bind fun _ => ?_
    split
    · exact Keeps.upd_pure fun _ => rfl
    · rintro s a t ⟨⟩
    · rintro s a t ⟨⟩

theorem readX_keeps (i : Reg) : Keeps besideThreads (readX i) := by
  unfold readX
  refine (Keeps.look fun s => s.thr s.cur).bind fun th => ?_
  split
  · exact Keeps.pure _
  · split
    · exact Keeps.pure _
    · split
      · exact popElem_keeps _ _ _
      · exact Keeps.pure _

theorem keepAccesses_of_besideThreads {s t : State} (h : besideThreads t = besideThreads s) : keepAccesses t s = s := by
  obtain ⟨⟩ := s
  obtain ⟨⟩ := t
  simp only [besideThreads, State.mk.injEq] at h
  simp [keepAccesses, keepPaid, State.xlatView, State.cluster, State.core, h]

/-- A form traps on a check of its operands alone: nothing but that trap stays (R35). -/
theorem runPlain_traps_clean {i : Instr} {act : Act Unit} {s s1 : State} {c sub : BitVec 8} {v : Word} (hr : Ready i s)
    (hact : act s = .error (.trap c sub v (keepAccesses s1))) (hs : besideThreads s1 = besideThreads s) :
    runPlain i act s = .next (trapped i s c sub v s) := by
  rw [runPlain_trap hr hact, keepAccesses_of_besideThreads hs]

/-! ## Checks that pass and checks that fail -/

theorem trapIf_pass {c : Bool} {cause sub : BitVec 8} {v : Word} {s : State} (h : c = false) :
    trapIf c cause sub v s = .ok ((), s) := by
  rw [h, trapIf_false]

theorem trapIf_fail {c : Bool} {cause sub : BitVec 8} {v : Word} {s : State} (h : c = true) :
    trapIf c cause sub v s = .error (.trap cause sub v (keepAccesses s)) := by
  rw [h, trapIf_true]

/-! ## What a unit that waits keeps (R63) -/

@[simp] theorem spend_thr (k n : Nat) (d : Option Nat) (s : State) (t : Nat) : (spend k n d s).thr t = s.thr t := by
  cases d <;> rfl

@[simp] theorem modThr_thr (s : State) (t : Nat) (f : Thread → Thread) : (s.modThr t f).thr t = f (s.thr t) := by
  simp [State.modThr]

theorem modThr_thr_other (s : State) (f : Thread → Thread) {m t : Nat} (h : m ≠ t) : (s.modThr m f).thr t = s.thr t :=
  s.setThr_thr_other _ h

/-- What a wait at the unit leaves of a thread: its PC, its handles and its registers. -/
def unitFrame (th : Thread) : Word × NMap CbHandle × NMap Word := (th.pc, th.cbs, th.regs)

@[simp] theorem modCore_thr (s : State) (n : Nat) (f : Core → Core) (t : Nat) : (s.modCore n f).thr t = s.thr t := rfl
@[simp] theorem modArb_thr (s : State) (k : Nat) (f : Arb → Arb) (t : Nat) : (s.modArb k f).thr t = s.thr t := rfl

theorem issueWord_thr (t : Nat) (s : State) : (issueWord t s).thr t = { s.thr t with instret := (s.thr t).instret + 1 } := by
  refine (spend_thr 0 1 (s.thr t).deal _ t).trans ?_
  rw [modCore_thr, modThr_thr]
  split <;> rfl

theorem issueCharge_unitFrame (t : Nat) (s : State) : unitFrame ((issueCharge t s).thr t) = unitFrame (s.thr t) := by
  unfold issueCharge
  split
  · rfl
  · rw [modThr_thr, issueWord_thr]
    rfl

theorem foldl_modThr_thr (f : Thread → Thread) (l : List Nat) (s : State) {t : Nat} (h : ∀ m ∈ l, m ≠ t) :
    (l.foldl (fun s m => s.modThr m f) s).thr t = s.thr t := by
  induction l generalizing s with
  | nil => rfl
  | cons m l ih =>
    rw [List.foldl_cons, ih _ fun k hk => h k (List.mem_cons_of_mem m hk), modThr_thr_other s f (h m List.mem_cons_self)]

theorem forwardUnit_unitFrame (t : Nat) (u : GUnit) (s : State) :
    unitFrame ((forwardUnit t u s).thr t) = unitFrame (s.thr t) := by
  unfold forwardUnit
  split
  · rw [modThr_thr, foldl_modThr_thr _ _ _ (by simp [State.gangOthers])]
    rfl
  · rfl

theorem holdUnit_waits (t : Nat) (ws : List IWord) (s : State) :
    ((holdUnit t ws s).thr t).waiting = true ∧ unitFrame ((holdUnit t ws s).thr t) = unitFrame (s.thr t) := by
  unfold holdUnit
  rw [modThr_thr]
  refine ⟨rfl, ?_⟩
  show unitFrame (State.thr (if _ then _ else _) t) = _
  split
  · rfl
  · exact forwardUnit_unitFrame t _ s

/-- A ready form whose action waits stays at its unit with its handles and registers. -/
theorem runPlain_waits {i : Instr} {act : Act Unit} {s : State} (hr : Ready i s) (hact : act s = .error (.hold id)) :
    ∃ t, runPlain i act s = .next t ∧ (t.thr s.cur).waiting = true ∧ (t.thr s.cur).pc = (s.thr s.cur).pc ∧
      (t.thr s.cur).cbs = (s.thr s.cur).cbs ∧ (t.thr s.cur).regs = (s.thr s.cur).regs := by
  refine ⟨_, runUnit_hold hr (Act.bind_error hact), ?_⟩
  obtain ⟨hwaiting, hheld⟩ := holdUnit_waits s.cur [encode i] (issueCharge s.cur (id s))
  have hframe := hheld.trans (issueCharge_unitFrame s.cur s)
  simp only [unitFrame, Prod.mk.injEq] at hframe
  exact ⟨hwaiting, hframe⟩

/-! ## Own loads and stores (R110) -/

theorem waitCounter_seen {c : BitVec 2} {s t : State} (h : counterSeen c s = .ok (true, t)) : waitCounter c s = .ok ((), t) := by
  unfold waitCounter
  rw [Act.bind_ok h]
  rfl

/-- A word's sign extension is its balanced remainder. -/
theorem signExtend_word (v : Nat) : signExtend v 32 = Int.bmod (v : Int) (2 ^ 32) := by
  unfold signExtend Int.bmod
  dsimp only
  split <;> split <;> omega

theorem extendLoad_word (v : Nat) : extendLoad 4 true v = sext32 v := by
  rw [extendLoad, if_pos rfl, wordOfInt, signExtend_word, sext32, BitVec.signExtend, BitVec.toInt_ofInt]

theorem ownLoad_ok {n : Nat} {rd rs1 : Reg} {scope : Scope} {wait : BitVec 2} {pol : Policy} {off : BitVec 4} {a : Word} {v : Nat}
    {s s1 s2 s3 : State} (hread : readX rs1 s = .ok (a, s1)) (hseen : counterSeen wait s1 = .ok (true, s1))
    (hload : memRead (a + BitVec.ofNat 64 (n * off.toNat)) n { scope := scope, pol := pol } s1 = .ok (v, s2))
    (hwrite : writeX rd (extendLoad n (n == 4) v) s2 = .ok ((), s3)) :
    ownLoad n rd rs1 scope wait pol off s = .ok ((), s3) := by
  rw [Nat.mul_comm] at hload
  unfold ownLoad
  rw [Act.bind_ok hread, Act.bind_ok (waitCounter_seen hseen)]
  exact (Act.bind_ok hload).trans hwrite

theorem ownStore_ok {n : Nat} {rs2 rs1 : Reg} {scope : Scope} {wait : BitVec 2} {pol : Policy} {off : BitVec 4} {a v : Word}
    {s s1 s2 s3 : State} (hbase : readX rs1 s = .ok (a, s1)) (hvalue : readX rs2 s1 = .ok (v, s2))
    (hseen : counterSeen wait s2 = .ok (true, s2))
    (hstore : memWrite (a + BitVec.ofNat 64 (n * off.toNat)) n v.toNat { scope := scope, pol := pol } s2 = .ok ((), s3)) :
    ownStore n rs2 rs1 scope wait pol off s = .ok ((), s3) := by
  rw [Nat.mul_comm] at hstore
  unfold ownStore
  rw [Act.bind_ok hbase, Act.bind_ok hvalue, Act.bind_ok (waitCounter_seen hseen)]
  exact hstore

/-- Settles O21: the two loads and the two stores are one action at two sizes, whose wait passes where the counter has been
seen at zero; lwo extends the sign of what it reads. -/
theorem ownAccesses : Obligations.OwnAccesses := by
  refine ⟨?ldo, ?lwo, ?sdo, ?swo⟩
  case ldo =>
    intro rd rs1 scope wait pol off s s1 s2 s3 a v hr hread hseen hload hwrite
    exact runPlain_ok hr (ownLoad_ok hread hseen hload hwrite)
  case lwo =>
    intro rd rs1 scope wait pol off s s1 s2 s3 a v hr hread hseen hload hwrite
    rw [← extendLoad_word] at hwrite
    exact runPlain_ok hr (ownLoad_ok hread hseen hload hwrite)
  case sdo =>
    intro rs2 rs1 scope wait pol off s s1 s2 s3 a v hr hbase hvalue hseen hstore
    exact runPlain_ok hr (ownStore_ok hbase hvalue hseen hstore)
  case swo =>
    intro rs2 rs1 scope wait pol off s s1 s2 s3 a v hr hbase hvalue hseen hstore
    exact runPlain_ok hr (ownStore_ok hbase hvalue hseen hstore)

end Sys2Proof.Machine.NearStorage
end

section
/-! Circular buffers (R120 to R122): what each form does with its handle, check by check. -/

namespace Sys2Proof.Machine.NearStorage

/-! ## Handles -/

/-- Handle h of the thread whose unit is running. -/
abbrev handleOf (s : State) (h : BitVec 4) : CbHandle := (s.thr s.cur).cbs.get {} h.toNat

/-- The slots that a wait finds: filled ones for a consumer, free ones for a producer. -/
def slotsFor (consumer : Bool) (c : CbHandle) (p q : Word) : Nat :=
  if consumer then (p - q).toNat else cbSlots c.geom - (p - q).toNat

/-- A handle with a grant of k slots as consumer or as producer. -/
def grantSlots (consumer : Bool) (c : CbHandle) (k : Nat) : CbHandle :=
  if consumer then { c with grantC := BitVec.ofNat 13 k } else { c with grantP := BitVec.ofNat 13 k }

/-- The slots that a handle's earlier waits granted. -/
def grantOf (producer : Bool) (c : CbHandle) : Nat := (if producer then c.grantP else c.grantC).toNat

/-- Where the count lies that an advance adds to: P for a producer, C for a consumer. -/
def countAt (producer : Bool) (c : CbHandle) : Word := if producer then c.ctrl else c.ctrl + 8

/-- The address of the slot that a wait gives. -/
def slotAddr (consumer : Bool) (c : CbHandle) (p q : Word) : Word :=
  c.base + wordOfNat ((if consumer then q else p).toNat % cbSlots c.geom * cbSize c.geom)

/-- What a wait for n slots of handle h does with the counts it has read (R122). -/
def cbResolve (consumer : Bool) (h : BitVec 4) (c : CbHandle) (n p q : Word) : Act Word := do
  trapIf (decide (cbSlots c.geom < (p - q).toNat)) 15 0x43 (h.zeroExtend 64)
  if slotsFor consumer c p q < n.toNat then hold
  modMe fun th => { th with cbs := th.cbs.set h.toNat (grantSlots consumer c (slotsFor consumer c p q)) }
  return slotAddr consumer c p q

/-- A handle once an advance has spent n slots of its grant. -/
def spendGrant (producer : Bool) (c : CbHandle) (n : Word) : CbHandle :=
  grantSlots (!producer) c (grantOf producer c - n.toNat)

section Waits

variable {consumer : Bool} {h : BitVec 4} {rs1 : Reg} {s s1 s2 : State} {n p q : Word}

theorem cbWait_invalid (hread : readX rs1 s = .ok (n, s1)) (hvalid : (handleOf s1 h).valid = false) :
    cbWait consumer h rs1 s = .error (.trap 15 0x41 (h.zeroExtend 64) (keepAccesses s1)) := by
  unfold cbWait
  rw [Act.bind_ok hread, Act.bind_ok (me_apply s1)]
  exact Act.bind_error (trapIf_fail (congrArg not hvalid))

theorem cbWait_beyond (hread : readX rs1 s = .ok (n, s1)) (hvalid : (handleOf s1 h).valid = true)
    (hmore : cbSlots (handleOf s1 h).geom < n.toNat) :
    cbWait consumer h rs1 s = .error (.trap 15 0x42 (h.zeroExtend 64) (keepAccesses s1)) := by
  unfold cbWait
  rw [Act.bind_ok hread, Act.bind_ok (me_apply s1), Act.bind_ok (trapIf_pass (congrArg not hvalid))]
  exact Act.bind_error (trapIf_fail (decide_eq_true hmore))

theorem cbWait_counts (hread : readX rs1 s = .ok (n, s1)) (hvalid : (handleOf s1 h).valid = true)
    (hfits : n.toNat ≤ cbSlots (handleOf s1 h).geom) (hcounts : cbCounts (handleOf s1 h) s1 = .ok ((p, q), s2)) :
    cbWait consumer h rs1 s = cbResolve consumer h (handleOf s1 h) n p q s2 := by
  have hless : decide (cbSlots (handleOf s1 h).geom < n.toNat) = false := decide_eq_false (by omega)
  unfold cbWait
  rw [Act.bind_ok hread, Act.bind_ok (me_apply s1), Act.bind_ok (trapIf_pass (congrArg not hvalid)),
    Act.bind_ok (trapIf_pass hless), Act.bind_ok hcounts]
  rfl

theorem cbResolve_overfilled {c : CbHandle} (hfull : cbSlots c.geom < (p - q).toNat) :
    cbResolve consumer h c n p q s = .error (.trap 15 0x43 (h.zeroExtend 64) (keepAccesses s)) :=
  Act.bind_error (trapIf_fail (decide_eq_true hfull))

theorem cbResolve_waits {c : CbHandle} (hfill : (p - q).toNat ≤ cbSlots c.geom) (hfew : slotsFor consumer c p q < n.toNat) :
    cbResolve consumer h c n p q s = .error (.hold id) := by
  unfold cbResolve
  rw [Act.bind_ok (trapIf_pass (decide_eq_false (by omega))), if_pos hfew]
  rfl

theorem cbResolve_grants {c : CbHandle} (hfill : (p - q).toNat ≤ cbSlots c.geom)
    (henough : n.toNat ≤ slotsFor consumer c p q) :
    cbResolve consumer h c n p q s = .ok (slotAddr consumer c p q, s.modThr s.cur fun th =>
      { th with cbs := th.cbs.set h.toNat (grantSlots consumer c (slotsFor consumer c p q)) }) := by
  unfold cbResolve
  rw [Act.bind_ok (trapIf_pass (decide_eq_false (by omega))), if_neg (by omega)]
  rfl

end Waits

section Advances

variable {producer : Bool} {h : BitVec 4} {rs1 : Reg} {s s1 s2 : State} {n : Word}

theorem cbAdvance_invalid (hread : readX rs1 s = .ok (n, s1)) (hvalid : (handleOf s1 h).valid = false) :
    cbAdvance producer h rs1 s = .error (.trap 15 0x41 (h.zeroExtend 64) (keepAccesses s1)) := by
  unfold cbAdvance
  rw [Act.bind_ok hread, Act.bind_ok (me_apply s1)]
  exact Act.bind_error (trapIf_fail (congrArg not hvalid))

theorem cbAdvance_beyond (hread : readX rs1 s = .ok (n, s1)) (hvalid : (handleOf s1 h).valid = true)
    (hmore : grantOf producer (handleOf s1 h) < n.toNat) :
    cbAdvance producer h rs1 s = .error (.trap 15 0x42 (h.zeroExtend 64) (keepAccesses s1)) := by
  unfold cbAdvance
  rw [Act.bind_ok hread, Act.bind_ok (me_apply s1), Act.bind_ok (trapIf_pass (congrArg not hvalid))]
  exact Act.bind_error (trapIf_fail (decide_eq_true hmore))

theorem cbAdvance_ok (hread : readX rs1 s = .ok (n, s1)) (hvalid : (handleOf s1 h).valid = true)
    (hfits : n.toNat ≤ grantOf producer (handleOf s1 h))
    (hadd : homedWrite (countAt producer (handleOf s1 h)) (.add n) needRW true (s1.modThr s1.cur fun th =>
      { th with cbs := th.cbs.set h.toNat (spendGrant producer (handleOf s1 h) n) }) = .ok ((), s2)) :
    cbAdvance producer h rs1 s = .ok ((), s2) := by
  unfold cbAdvance
  rw [Act.bind_ok hread, Act.bind_ok (me_apply s1), Act.bind_ok (trapIf_pass (congrArg not hvalid))]
  refine (Act.bind_ok (trapIf_pass (decide_eq_false (Nat.not_lt.2 hfits)))).trans ?_
  cases producer <;> exact (Act.bind_ok (modMe_apply _ s1)).trans hadd

end Advances

/-! ## Loading a handle: cb.cfg (R122) -/

/-- The handle that a descriptor of the words b, c and g loads on core n, with grants of 0. -/
def loadedHandle (n : Nat) (b c g : Word) : CbHandle :=
  { base := rewriteOwn n b, ctrl := rewriteOwn n c, geom := g, valid := true }

/-- The checks of Table 5.10 on a handle of core n. -/
def cbFits (n : Nat) (x : CbHandle) : Bool :=
  x.base.toNat % 8 == 0 && x.ctrl.toNat % 16 == 0 && bitsOf x.geom 63 32 == 0 && isPow2 (cbSlots x.geom) &&
    decide (cbSlots x.geom ≤ 4096) && cbSize x.geom % 8 == 0 && decide (8 ≤ cbSize x.geom) && decide (cbSize x.geom ≤ 32768) &&
    (bankCore n x.base.toNat).isSome && bankCore n x.base.toNat == bankCore n x.ctrl.toNat

/-- The ring and the control block lie in banks of the seat of the thread whose unit is running (R105). -/
def cbOwned (s : State) (x : CbHandle) : Bool :=
  s.banksOwned ((s.thr s.cur).seat.getD 0) (coreOf s.cur) x.base.toNat (cbSlots x.geom * cbSize x.geom) &&
    s.banksOwned ((s.thr s.cur).seat.getD 0) (coreOf s.cur) x.ctrl.toNat 16

theorem bitsOf_upper_eq_zero (g : Word) : bitsOf g 63 32 = 0 ↔ g.toNat < 2 ^ 32 := by
  have hg := g.isLt
  unfold bitsOf
  omega

/-- The two checks of cb.cfg together are the conditions that Table 5.10 and R105 name. -/
theorem cbAccepted_iff {s : State} {x : CbHandle} : (cbFits (coreOf s.cur) x = true ∧ cbOwned s x = true) ↔
    x.base.toNat % 8 = 0 ∧ x.ctrl.toNat % 16 = 0 ∧ x.geom.toNat < 2 ^ 32 ∧ isPow2 (cbSlots x.geom) = true ∧
      cbSlots x.geom ≤ 4096 ∧ cbSize x.geom % 8 = 0 ∧ 8 ≤ cbSize x.geom ∧ cbSize x.geom ≤ 32768 ∧
      (bankCore (coreOf s.cur) x.base.toNat).isSome = true ∧
      bankCore (coreOf s.cur) x.base.toNat = bankCore (coreOf s.cur) x.ctrl.toNat ∧
      s.banksOwned ((s.thr s.cur).seat.getD 0) (coreOf s.cur) x.base.toNat (cbSlots x.geom * cbSize x.geom) = true ∧
      s.banksOwned ((s.thr s.cur).seat.getD 0) (coreOf s.cur) x.ctrl.toNat 16 = true := by
  simp only [cbFits, cbOwned, Bool.and_eq_true, beq_iff_eq, decide_eq_true_eq, bitsOf_upper_eq_zero, and_assoc]

/-- What cb.cfg does with the descriptor that it has read. -/
def cbLoad (h : BitVec 4) (d : List Word) : Act Unit := do
  let n ← myCore
  let seat ← mySeat
  let x := loadedHandle n (d.getD 0 0) (d.getD 1 0) (d.getD 2 0)
  trapIf (!cbFits n x) 15 0x40 (h.zeroExtend 64)
  let own ← look fun s => s.banksOwned seat n x.base.toNat (cbSlots x.geom * cbSize x.geom) && s.banksOwned seat n x.ctrl.toNat 16
  trapIf (!own) 15 0x40 (h.zeroExtend 64)
  modMe fun th => { th with cbs := th.cbs.set h.toNat x }

theorem exec_cbCfg (h : BitVec 4) (rs1 : Reg) (s : State) : exec (.cbCfg h rs1) s = runPlain (.cbCfg h rs1) (do
    let a ← readX rs1
    let d ← readDoublewords a 3
    cbLoad h d) s := rfl

section Load

variable {h : BitVec 4} {b c g : Word} {s : State}

theorem cbLoad_ok (hfits : cbFits (coreOf s.cur) (loadedHandle (coreOf s.cur) b c g) = true)
    (howned : cbOwned s (loadedHandle (coreOf s.cur) b c g) = true) :
    cbLoad h [b, c, g] s = .ok ((), s.modThr s.cur fun th =>
      { th with cbs := th.cbs.set h.toNat (loadedHandle (coreOf s.cur) b c g) }) := by
  unfold cbLoad
  rw [Act.bind_ok (myCore_apply s), Act.bind_ok (mySeat_apply s)]
  refine (Act.bind_ok (trapIf_pass (congrArg not hfits))).trans ?_
  refine (Act.bind_ok (look_apply _ s)).trans ?_
  exact Act.bind_ok (trapIf_pass (congrArg not howned))

theorem cbLoad_refused (hbad : ¬ (cbFits (coreOf s.cur) (loadedHandle (coreOf s.cur) b c g) = true ∧
      cbOwned s (loadedHandle (coreOf s.cur) b c g) = true)) :
    cbLoad h [b, c, g] s = .error (.trap 15 0x40 (h.zeroExtend 64) (keepAccesses s)) := by
  unfold cbLoad
  rw [Act.bind_ok (myCore_apply s), Act.bind_ok (mySeat_apply s)]
  cases hfits : cbFits (coreOf s.cur) (loadedHandle (coreOf s.cur) b c g) with
  | false => exact Act.bind_error (trapIf_fail (congrArg not hfits))
  | true =>
    have howned : cbOwned s (loadedHandle (coreOf s.cur) b c g) = false := by simpa [hfits] using hbad
    refine (Act.bind_ok (trapIf_pass (congrArg not hfits))).trans ?_
    refine (Act.bind_ok (look_apply _ s)).trans ?_
    exact Act.bind_error (trapIf_fail (congrArg not howned))

end Load

/-- Settles O23: each form reads its operand and handle, checks them in the order of R122, and ends as the first check that
fails, as a wait, or with its effect on the handle. -/
theorem circularBuffers : Obligations.CircularBuffers := by
  refine ⟨?cfg, ?wfill, ?wfree, ?advp, ?advc, ?invalid, ?beyondSlots, ?overfilled, ?beyondGrantP, ?beyondGrantC, ?fillWaits,
    ?freeWaits⟩
  case cfg =>
    intro h rs1 s s1 s2 a b c g hr hread hdesc
    refine ⟨fun hgood => ?_, fun hbad => ?_⟩
    · obtain ⟨hfits, howned⟩ := cbAccepted_iff (x := loadedHandle (coreOf s2.cur) b c g).2 hgood
      refine (exec_cbCfg h rs1 s).trans (runPlain_ok hr ?_)
      rw [Act.bind_ok hread, Act.bind_ok hdesc]
      exact cbLoad_ok hfits howned
    · refine (exec_cbCfg h rs1 s).trans (runPlain_trap hr ?_)
      rw [Act.bind_ok hread, Act.bind_ok hdesc]
      exact cbLoad_refused fun haccepted => hbad (cbAccepted_iff.1 haccepted)
  case wfill =>
    intro rd h rs1 s s1 s2 s3 n p q hr hread c hvalid hcounts henough hfill hwrite
    have hwait := (cbWait_counts hread hvalid (Nat.le_trans henough hfill) hcounts).trans
      (cbResolve_grants (consumer := true) hfill henough)
    exact runPlain_ok hr ((Act.bind_ok hwait).trans hwrite)
  case wfree =>
    intro rd h rs1 s s1 s2 s3 n p q hr hread c hvalid hcounts hfree hwrite
    have hfits : n.toNat ≤ cbSlots c.geom := by omega
    have hfill : (p - q).toNat ≤ cbSlots c.geom := by omega
    have henough : n.toNat ≤ slotsFor false c p q := by
      show n.toNat ≤ cbSlots c.geom - (p - q).toNat
      omega
    have hwait := (cbWait_counts hread hvalid hfits hcounts).trans
      (cbResolve_grants (consumer := false) hfill henough)
    exact runPlain_ok hr ((Act.bind_ok hwait).trans hwrite)
  case advp =>
    intro h rs1 s s1 s2 n hr hread c hvalid hfits hadd
    exact runPlain_ok hr (cbAdvance_ok (producer := true) hread hvalid hfits hadd)
  case advc =>
    intro h rs1 s s1 s2 n hr hread c hvalid hfits hadd
    exact runPlain_ok hr (cbAdvance_ok (producer := false) hread hvalid hfits hadd)
  case invalid =>
    intro rd h rs1 s s1 n i hi hr hread hvalid
    have hs := readX_keeps rs1 _ _ _ hread
    simp only [List.mem_cons, List.not_mem_nil, or_false] at hi
    rcases hi with rfl | rfl | rfl | rfl
    · exact runPlain_traps_clean hr (Act.bind_error (cbWait_invalid hread hvalid)) hs
    · exact runPlain_traps_clean hr (Act.bind_error (cbWait_invalid hread hvalid)) hs
    · exact runPlain_traps_clean hr (cbAdvance_invalid hread hvalid) hs
    · exact runPlain_traps_clean hr (cbAdvance_invalid hread hvalid) hs
  case beyondSlots =>
    intro rd h rs1 s s1 n mk hmk hr hread c hvalid hmore
    have hs := readX_keeps rs1 _ _ _ hread
    simp only [List.mem_cons, List.not_mem_nil, or_false] at hmk
    rcases hmk with rfl | rfl
    · exact runPlain_traps_clean hr (Act.bind_error (cbWait_beyond hread hvalid hmore)) hs
    · exact runPlain_traps_clean hr (Act.bind_error (cbWait_beyond hread hvalid hmore)) hs
  case overfilled =>
    intro rd h rs1 s s1 s2 n p q mk hmk hr hread c hvalid hfits hcounts hfull
    have hwait (consumer : Bool) :=
      (cbWait_counts (consumer := consumer) hread hvalid hfits hcounts).trans (cbResolve_overfilled hfull)
    simp only [List.mem_cons, List.not_mem_nil, or_false] at hmk
    rcases hmk with rfl | rfl
    · exact runPlain_trap hr (Act.bind_error (hwait true))
    · exact runPlain_trap hr (Act.bind_error (hwait false))
  case beyondGrantP =>
    intro h rs1 s s1 n hr hread hvalid hmore
    exact runPlain_traps_clean hr (cbAdvance_beyond (producer := true) hread hvalid hmore) (readX_keeps rs1 _ _ _ hread)
  case beyondGrantC =>
    intro h rs1 s s1 n hr hread hvalid hmore
    exact runPlain_traps_clean hr (cbAdvance_beyond (producer := false) hread hvalid hmore) (readX_keeps rs1 _ _ _ hread)
  case fillWaits =>
    intro rd h rs1 s s1 s2 n p q hr hread c hvalid hcounts hfits hfew
    have hwait := (cbWait_counts hread hvalid hfits hcounts).trans
      (cbResolve_waits (consumer := true) (Nat.le_of_lt (Nat.lt_of_lt_of_le hfew hfits)) hfew)
    exact runPlain_waits hr (Act.bind_error hwait)
  case freeWaits =>
    intro rd h rs1 s s1 s2 n p q hr hread c hvalid hcounts hfits hfill hfew
    have hless : slotsFor false c p q < n.toNat := by
      show cbSlots c.geom - (p - q).toNat < n.toNat
      omega
    have hwait := (cbWait_counts hread hvalid hfits hcounts).trans (cbResolve_waits (consumer := false) hfill hless)
    exact runPlain_waits hr (Act.bind_error hwait)

end Sys2Proof.Machine.NearStorage
end

section
/-! Remote stores and write counters (R113 to R118): what rst, rsa, wcwait and wcread do, the entry that a remote store takes, and its way to
its acknowledgement. A save buffer holds an entry back (R355), which RemoteStores leaves out. -/

namespace Sys2Proof.Machine.NearStorage

/-! ## rst and rsa (R114) -/

theorem aligned_ok {va : Word} {n : Nat} {s : State} (h : va.toNat % n = 0) : aligned va n s = .ok ((), s) :=
  trapIf_pass (by simp [h])

theorem aligned_traps {va : Word} {n : Nat} {s : State} (h : va.toNat % n ≠ 0) :
    aligned va n s = .error (.trap 4 0 va (keepAccesses s)) :=
  trapIf_fail (by simp [h])

/-- What rst and rsa do: a homed write of an operand at the doubleword that their offset names. -/
def homedForm (rs2 rs1 : Reg) (off : BitVec 5) (kind : Word → RKind) (need : BitVec 4) (update : Bool) : Act Unit := do
  let a ← readX rs1
  let v ← readX rs2
  let va := a + wordOfNat (off.toNat * 8)
  aligned va 8
  homedWrite va (kind v) need update

theorem exec_rst (rs2 rs1 : Reg) (off : BitVec 5) (s : State) : exec (.rst rs2 rs1 off) s =
    runPlain (.rst rs2 rs1 off) (homedForm rs2 rs1 off (fun v => .store 8 v.toNat) needW false) s := rfl
theorem exec_rsa (rs2 rs1 : Reg) (off : BitVec 5) (s : State) : exec (.rsa rs2 rs1 off) s =
    runPlain (.rsa rs2 rs1 off) (homedForm rs2 rs1 off .add needRW true) s := rfl

section Homed

variable {rs2 rs1 : Reg} {off : BitVec 5} {kind : Word → RKind} {need : BitVec 4} {update : Bool} {a v : Word}
  {s s1 s2 s3 : State}

theorem homedForm_ok (hbase : readX rs1 s = .ok (a, s1)) (hvalue : readX rs2 s1 = .ok (v, s2))
    (haligned : (a + BitVec.ofNat 64 (8 * off.toNat)).toNat % 8 = 0)
    (hwrite : homedWrite (a + BitVec.ofNat 64 (8 * off.toNat)) (kind v) need update s2 = .ok ((), s3)) :
    homedForm rs2 rs1 off kind need update s = .ok ((), s3) := by
  rw [Nat.mul_comm] at haligned hwrite
  unfold homedForm
  rw [Act.bind_ok hbase, Act.bind_ok hvalue]
  exact (Act.bind_ok (aligned_ok haligned)).trans hwrite

theorem homedForm_misaligned (hbase : readX rs1 s = .ok (a, s1)) (hvalue : readX rs2 s1 = .ok (v, s2))
    (hmisaligned : (a + BitVec.ofNat 64 (8 * off.toNat)).toNat % 8 ≠ 0) :
    homedForm rs2 rs1 off kind need update s =
      .error (.trap 4 0 (a + BitVec.ofNat 64 (8 * off.toNat)) (keepAccesses s2)) := by
  rw [Nat.mul_comm] at hmisaligned ⊢
  unfold homedForm
  rw [Act.bind_ok hbase, Act.bind_ok hvalue]
  exact Act.bind_error (aligned_traps hmisaligned)

theorem rst_does (hr : Ready (.rst rs2 rs1 off) s) (hbase : readX rs1 s = .ok (a, s1)) (hvalue : readX rs2 s1 = .ok (v, s2))
    (haligned : (a + BitVec.ofNat 64 (8 * off.toNat)).toNat % 8 = 0)
    (hwrite : homedWrite (a + BitVec.ofNat 64 (8 * off.toNat)) (.store 8 v.toNat) needW false s2 = .ok ((), s3)) :
    Does (.rst rs2 rs1 off) s none s3 :=
  (exec_rst rs2 rs1 off s).trans (runPlain_ok hr (homedForm_ok hbase hvalue haligned hwrite))

theorem rsa_does (hr : Ready (.rsa rs2 rs1 off) s) (hbase : readX rs1 s = .ok (a, s1)) (hvalue : readX rs2 s1 = .ok (v, s2))
    (haligned : (a + BitVec.ofNat 64 (8 * off.toNat)).toNat % 8 = 0)
    (hwrite : homedWrite (a + BitVec.ofNat 64 (8 * off.toNat)) (.add v) needRW true s2 = .ok ((), s3)) :
    Does (.rsa rs2 rs1 off) s none s3 :=
  (exec_rsa rs2 rs1 off s).trans (runPlain_ok hr (homedForm_ok hbase hvalue haligned hwrite))

/-- rst and rsa trap at an address that is not a multiple of 8, and what their operands popped is withdrawn. -/
theorem rst_rsa_trap {mk : Reg → Reg → BitVec 5 → Instr} (hmk : mk ∈ [Instr.rst, Instr.rsa]) (hr : Ready (mk rs2 rs1 off) s)
    (hbase : readX rs1 s = .ok (a, s1)) (hvalue : readX rs2 s1 = .ok (v, s2))
    (hmisaligned : (a + BitVec.ofNat 64 (8 * off.toNat)).toNat % 8 ≠ 0) :
    Traps (mk rs2 rs1 off) s 4 0 (a + BitVec.ofNat 64 (8 * off.toNat)) s := by
  have hs := (readX_keeps rs2 _ _ _ hvalue).trans (readX_keeps rs1 _ _ _ hbase)
  simp only [List.mem_cons, List.not_mem_nil, or_false] at hmk
  rcases hmk with rfl | rfl
  · exact (exec_rst rs2 rs1 off s).trans (runPlain_traps_clean hr (homedForm_misaligned hbase hvalue hmisaligned) hs)
  · exact (exec_rsa rs2 rs1 off s).trans (runPlain_traps_clean hr (homedForm_misaligned hbase hvalue hmisaligned) hs)

end Homed

/-! ## A store to another core's scratchpad (R113, R116, R117) -/

theorem placeOf_scratch (n : Nat) {m off : Nat} (hm : m < 2048) (hoff : off < 0x80000) :
    placeOf n (scratchBase + m * 0x80000 + off) = .bank m off := by
  have hcore : (scratchBase + m * 0x80000 + off - scratchBase) / 0x80000 = m := by omega
  have hoffset : (scratchBase + m * 0x80000 + off - scratchBase) % 0x80000 = off := by omega
  have hbase : scratchBase = 0x00F1000000000000 := rfl
  unfold placeOf windowsEnd ownBase
  rw [if_neg (by omega), if_neg (by omega), if_neg (by omega), if_pos (by omega), hcore, hoffset]

theorem rewriteOwn_scratch (n : Nat) {m off : Nat} (hm : m < 2048) (hoff : off < 0x80000) :
    (rewriteOwn n (BitVec.ofNat 64 (scratchBase + m * 0x80000 + off))).toNat = scratchBase + m * 0x80000 + off := by
  have hword : (BitVec.ofNat 64 (scratchBase + m * 0x80000 + off)).toNat = scratchBase + m * 0x80000 + off := by
    rw [BitVec.toNat_ofNat]
    unfold scratchBase
    omega
  unfold rewriteOwn
  rw [hword, if_neg (by unfold ownBase scratchBase; omega), hword]

theorem watermark_idle {ag : Agent} {a n : Nat} {s : State}
    (hidle : ∀ x ∈ (s.cluster (clusterOf ag.core)).engines.cells, x.2.st = .free) : watermark ag a n s = .ok (.ok (), s) := by
  have hheld : s.heldBy (clusterOf ag.core) a n = none := by
    unfold State.heldBy
    rw [Option.map_eq_none_iff, List.find?_eq_none]
    intro x hx
    simp [hidle x hx]
  unfold watermark
  split
  · rfl
  · rw [Act.bind_ok (look_apply _ s), hheld]
    rfl

theorem settleRelease_none {s : State} (h : (s.thr s.cur).relMark = none) : settleRelease s = .ok ((), s) := by
  unfold settleRelease
  rw [Act.bind_ok (me_apply s), h]
  rfl

theorem storeHomed_scratch {ag : Agent} {m off : Nat} {kind : RKind} {need : BitVec 4} {s : State} (hm : m < 2048)
    (hoff : off < 0x60000) (hidle : ∀ x ∈ (s.cluster (clusterOf ag.core)).engines.cells, x.2.st = .free)
    (howned : s.bankOwned ag.seat m off = true) :
    storeHomed ag (BitVec.ofNat 64 (scratchBase + m * 0x80000 + off)) kind need false s =
      (bankWrite ag m off kind >>= fun _ => pure (.ok ())) s := by
  have hcheck : bankCheck ag m off kind.size true s = .ok (.ok (), s) := by
    unfold bankCheck
    rw [if_pos hoff, Act.bind_ok (look_apply _ s), if_pos howned]
    rfl
  unfold storeHomed
  rw [rewriteOwn_scratch ag.core hm (by omega), Act.bind_ok (watermark_idle hidle), placeOf_scratch ag.core hm (by omega)]
  exact (Act.bind_ok hcheck).trans rfl

/-- The entry that a remote store of an agent takes. -/
def remoteEntry (ag : Agent) (m off v : Nat) : RStore :=
  { tid := ag.tid, seat := ag.seat, deal := ag.deal, hand := ag.hand, cls := classOfCore ag.core m, dest := m
    addr := bankAddr m off, kind := .store 8 v }

/-- The state once a remote store of an agent has taken its entry. -/
def remoteIssued (ag : Agent) (m off v : Nat) (s : State) : State :=
  (s.modThr ag.tid (dropResv (bankAddr m off) 8)).modCore ag.core fun c =>
    { c with rstores := c.rstores ++ [remoteEntry ag m off v] }

theorem bankWrite_remote {ag : Agent} {m off v : Nat} {s : State} (hm : m ≠ ag.core)
    (hroom : (s.core ag.core).rstores.length < 64) :
    bankWrite ag m off (.store 8 v) s = .ok ((), remoteIssued ag m off v s) := by
  unfold bankWrite
  refine (Act.bind_ok (upd_apply _ s)).trans ?_
  rw [if_neg hm]
  unfold issueRemote
  refine (Act.bind_ok (look_apply _ _)).trans ?_
  exact (congrFun (if_neg (Nat.not_le.2 hroom)) _).trans rfl

theorem homedWrite_remote {m off v : Nat} {s : State} (hm : m < 2048) (hother : m ≠ coreOf s.cur) (hoff : off < 0x60000)
    (hmark : (s.thr s.cur).relMark = none) (howned : s.bankOwned ((s.thr s.cur).seat.getD 0) m off = true)
    (hidle : ∀ x ∈ (s.cluster (clusterOf (coreOf s.cur))).engines.cells, x.2.st = .free)
    (hroom : (s.core (coreOf s.cur)).rstores.length < 64) :
    homedWrite (BitVec.ofNat 64 (scratchBase + m * 0x80000 + off)) (.store 8 v) needW false s =
      .ok ((), remoteIssued (s.agent s.cur) m off v s) := by
  have hstore := storeHomed_scratch (kind := .store 8 v) (need := needW) (ag := s.agent s.cur) hm hoff hidle howned
  rw [Act.bind_ok (bankWrite_remote hother hroom)] at hstore
  unfold homedWrite
  rw [Act.bind_ok (settleRelease_none hmark), Act.bind_ok (meAgent_apply s), Act.bind_ok hstore]
  rfl

/-- A store of a doubleword to another core's scratchpad takes an entry and leaves memory, and its counter rises by one. -/
theorem homedWrite_counts {m off v : Nat} {s : State} (hm : m < 2048) (hother : m ≠ coreOf s.cur) (hoff : off < 0x60000)
    (hmark : (s.thr s.cur).relMark = none) (howned : s.bankOwned ((s.thr s.cur).seat.getD 0) m off = true)
    (hidle : ∀ x ∈ (s.cluster (clusterOf (coreOf s.cur))).engines.cells, x.2.st = .free)
    (hroom : (s.core (coreOf s.cur)).rstores.length < 64) :
    ∃ t, Gives (homedWrite (BitVec.ofNat 64 (scratchBase + m * 0x80000 + off)) (.store 8 v) needW false) s () t ∧
      t.mem = s.mem ∧ (t.core (coreOf s.cur)).rstores.length = (s.core (coreOf s.cur)).rstores.length + 1 ∧
      (t.core (coreOf s.cur)).writeCounter ((s.thr s.cur).seat.getD 0) (classOfCore (coreOf s.cur) m) =
        (s.core (coreOf s.cur)).writeCounter ((s.thr s.cur).seat.getD 0) (classOfCore (coreOf s.cur) m) + 1 := by
  have htable : ((remoteIssued (s.agent s.cur) m off v s).core (coreOf s.cur)).rstores =
      (s.core (coreOf s.cur)).rstores ++ [remoteEntry (s.agent s.cur) m off v] := by
    simp [remoteIssued, State.modCore, State.modThr]
  refine ⟨_, homedWrite_remote hm hother hoff hmark howned hidle hroom, rfl, ?_, ?_⟩
  · simp [htable]
  · unfold Core.writeCounter
    rw [htable]
    simp [remoteEntry, State.agent]

/-! ## An entry's way to its acknowledgement (R115, R116) -/

section Ack

variable {s s1 s2 : State} {n : Nat} {r : RStore}

theorem storeFirst_single {c : Core} (h : c.rstores = [r]) : c.storeFirst 0 = 0 := by
  simp [Core.storeFirst, Core.threadFirst, h]

/-- The step of an entry that stands alone, has not performed, and no save buffer holds. -/
theorem remoteStoreAck_single (htable : (s.core n).rstores = [r]) (hperformed : r.performed = false) (hsaved : r.saved = false)
    (hflows : ((s.partOfCore n).map fun f => (s.part f).swept) ≠ some true) :
    exec (.remoteStoreAck n 0) s =
      runEvent (advanceStore n 0 r >>= fun _ => if 0 = 0 ∧ r.sent then progress (acknowledge n 0 r) else pure ()) s := by
  show execRemoteStoreAck n 0 s = _
  unfold execRemoteStoreAck runEvent
  rw [Act.bind_ok (look_apply _ s), Act.bind_ok (look_apply _ s), if_neg (by simpa using hflows), htable]
  dsimp only [List.getElem?_cons_zero]
  rw [hsaved, hperformed, storeFirst_single htable]
  rfl

/-- An entry that stands alone leaves the core. -/
theorem remoteStoreAck_leaves (htable : (s.core n).rstores = [r]) (hperformed : r.performed = false) (hsaved : r.saved = false)
    (hflows : ((s.partOfCore n).map fun f => (s.part f).swept) ≠ some true) (hsent : r.sent = false)
    (hsend : sendStore n 0 r s = .ok ((), s1)) : exec (.remoteStoreAck n 0) s = .next s1 := by
  rw [remoteStoreAck_single htable hperformed hsaved hflows]
  refine runEvent_ok ?_
  have hadvance : advanceStore n 0 r s = .ok ((), s1) := by
    unfold advanceStore
    rw [hsent]
    exact hsend
  rw [Act.bind_ok hadvance, hsent]
  rfl

/-- The state once a remote store that has performed has been acknowledged: its entry is freed. -/
def acknowledged (n : Nat) (s s2 : State) : State :=
  regain s (s2.modCore n fun c => { c with rstores := c.rstores.drop 1 })

/-- Once it has left, it performs, is acknowledged and is freed, where its answer meets no bucket that makes it wait. -/
theorem remoteStoreAck_acknowledges (htable : (s.core n).rstores = [r]) (hperformed : r.performed = false)
    (hsaved : r.saved = false) (hflows : ((s.partOfCore n).map fun f => (s.part f).swept) ≠ some true) (hsent : r.sent = true)
    (hperform : performStore n r [] [] s = .ok ((), s1))
    (hanswer : charges (placeAnswers (r.agent n) r.addr 0) (markPerformed n 0 s1).settled = .ok ((), s2)) :
    exec (.remoteStoreAck n 0) s = .next (acknowledged n (markPerformed n 0 s1) s2) := by
  rw [remoteStoreAck_single htable hperformed hsaved hflows]
  refine runEvent_ok ?_
  have hadvance : advanceStore n 0 r s = .ok ((), markPerformed n 0 s1) := by
    unfold advanceStore
    rw [hsent]
    exact (Act.bind_ok hperform).trans (upd_apply _ s1)
  have hack : acknowledge n 0 r (markPerformed n 0 s1).settled =
      .ok ((), s2.modCore n fun c => { c with rstores := c.rstores.drop 1 }) :=
    (Act.bind_ok hanswer).trans (upd_apply _ s2)
  rw [Act.bind_ok hadvance, if_pos ⟨rfl, hsent⟩]
  unfold progress
  rw [hack]
  rfl

end Ack

/-- A plain store performs at its bank as a write of memory. -/
theorem performStore_bank {n m off k v : Nat} {r : RStore} {s : State} (hplace : placeOf n r.addr = .bank m off)
    (hkind : r.kind = .store k v) (hoff : off < 0x60000) : performStore n r [] [] s = .ok ((), applyKind r.addr r.kind s) := by
  unfold performStore
  rw [hplace, hkind]
  dsimp only
  rw [if_pos hoff, upd_apply]

/-! ## Write counters as an instruction sees them (R118) -/

theorem counterSeen_zero {c : BitVec 2} {s : State}
    (h : c ≠ 0 → (s.core (coreOf s.cur)).writeCounter ((s.thr s.cur).seat.getD 0) c = 0) :
    counterSeen c s = .ok (true, s) := by
  unfold counterSeen
  rw [Act.bind_ok (me_apply s), Act.bind_ok (myCore_apply s), Act.bind_ok (mySeat_apply s)]
  split
  · rfl
  · split
    · rfl
    · rename_i hc _
      rw [look_apply, h hc]
      rfl

/-- Counters that are all zero have all been seen. -/
theorem mapM_counterSeen_zero {l : List (BitVec 2)} {s : State}
    (h : ∀ c ∈ l, c ≠ 0 → (s.core (coreOf s.cur)).writeCounter ((s.thr s.cur).seat.getD 0) c = 0) :
    l.mapM counterSeen s = .ok (l.map fun _ => true, s) := by
  induction l with
  | nil => rfl
  | cons c l ih =>
    rw [List.mapM_cons, Act.bind_ok (counterSeen_zero (h c List.mem_cons_self)),
      Act.bind_ok (ih fun d hd => h d (List.mem_cons_of_mem c hd))]
    rfl

theorem waitCounters_zero {l : List (BitVec 2)} {s : State}
    (h : ∀ c ∈ l, c ≠ 0 → (s.core (coreOf s.cur)).writeCounter ((s.thr s.cur).seat.getD 0) c = 0) :
    waitCounters l s = .ok ((), s) := by
  unfold waitCounters
  rw [Act.bind_ok (mapM_counterSeen_zero h)]
  exact congrFun (if_neg (by simp)) s

theorem wcwait_does {mask : BitVec 3} {s : State} (hr : Ready (.wcwait mask) s)
    (hzero : ∀ c : BitVec 2, c ≠ 0 → mask.getLsbD (c.toNat - 1) = true →
      (s.core (coreOf s.cur)).writeCounter ((s.thr s.cur).seat.getD 0) c = 0) : Does (.wcwait mask) s none s :=
  runPlain_ok hr (waitCounters_zero fun c hc hne => hzero c hne (List.mem_filter.1 hc).2)

theorem wcread_does {rd : Reg} {c : BitVec 2} {s t : State} (hr : Ready (.wcread rd c) s)
    (hwrite : writeX rd (BitVec.ofNat 64 ((s.core (coreOf s.cur)).writeCounter ((s.thr s.cur).seat.getD 0) c)) s = .ok ((), t)) :
    Does (.wcread rd c) s none t := by
  refine runPlain_ok hr ?_
  rw [Act.bind_ok (myCore_apply s), Act.bind_ok (mySeat_apply s), Act.bind_ok (look_apply _ s)]
  exact hwrite

/-! ## Entries in save buffers (R355) -/

/-- The step of an entry that a save buffer holds changes nothing. -/
theorem remoteStoreAck_saved {s : State} {n i : Nat} {r : RStore} (hentry : (s.core n).rstores[i]? = some r)
    (hsaved : r.saved = true) : exec (.remoteStoreAck n i) s = .next s := by
  refine runEvent_ok ?_
  rw [Act.bind_ok (look_apply _ s), Act.bind_ok (look_apply _ s)]
  split
  · rfl
  · rw [hentry]
    dsimp only
    rw [if_pos hsaved]
    rfl

/-- A store of core 0 to the first doubleword of core 1's scratchpad that has left its core and lies in a save buffer. -/
def savedStore : RStore :=
  { seat := 16, cls := 1, dest := 1, addr := 0x00F1000000080000, kind := .store 8 5, sent := true, saved := true }

/-- The module after reset, whose one partition is not stopped, with that store alone in core 0's table. -/
def savedState : State := State.reset.modCore 0 fun c => { c with rstores := [savedStore] }

theorem savedState_rstores : (savedState.core 0).rstores = [savedStore] := rfl

theorem savedState_flows : ((savedState.partOfCore 0).map fun f => (savedState.part f).swept) ≠ some true := by decide

theorem performStore_savedStore :
    performStore 0 savedStore [] [] savedState = .ok ((), applyKind savedStore.addr savedStore.kind savedState) :=
  performStore_bank (placeOf_scratch 0 (m := 1) (off := 0) (by decide) (by decide)) (k := 8) (v := 5) rfl (by decide)

/-- The answer meets no bucket after reset, so that it is granted. -/
theorem savedStore_answered : ∃ t, charges (placeAnswers (savedStore.agent 0) savedStore.addr 0)
    (markPerformed 0 0 (applyKind savedStore.addr savedStore.kind savedState)).settled = .ok ((), t) := ⟨_, rfl⟩

/-- Refutes O22: `savedState` meets the hypotheses of the clause on an entry that has left its core, yet the entry's step frees
nothing, since a save buffer of its router holds it (R355). The statement asks that the partition is not stopped and not that
the entry lies in no save buffer (`RStore.saved`); of such entries `remoteStoreAck_leaves` and `remoteStoreAck_acknowledges`
hold, and the clauses on the instructions are `rst_does`, `rsa_does`, `rst_rsa_trap`, `homedWrite_counts`, `wcwait_does` and
`wcread_does`. -/
theorem not_remoteStores : ¬ Obligations.RemoteStores := by
  rintro ⟨-, -, -, -, -, hfrees, -, -⟩
  obtain ⟨s2, hanswered⟩ := savedStore_answered
  obtain ⟨t, hnext, -, hfreed⟩ := hfrees savedState _ s2 0 savedStore savedState_rstores rfl rfl savedState_flows
    performStore_savedStore hanswered
  have hstays : exec (.remoteStoreAck 0 0) savedState = .next savedState :=
    remoteStoreAck_saved (by rw [savedState_rstores]; rfl) rfl
  cases hnext.symm.trans hstays
  have hperformed : ((applyKind savedStore.addr savedStore.kind savedState).core 0).rstores = [savedStore] := rfl
  rw [hperformed, savedState_rstores] at hfreed
  cases hfreed

end Sys2Proof.Machine.NearStorage
end

section
/-! Stream bindings (R147 to R153, R162): what binds, frees and reads a slot, how an element arrives, and which pushed element is sent. -/

namespace Sys2Proof.Machine.CopyUnit

open NamedFills NearStorage

/-! ## Forms of compute cores -/

theorem isDealer_compute {n : Nat} (h : n < 2048) : isDealer n = false := decide_eq_false (Nat.not_le.2 h)

section Compute

variable {i : Instr} {act : Act Unit} {s s1 : State} {c sub : BitVec 8} {v : Word}

/-- On a compute core a form that dealer cores lack runs as any other. -/
theorem runComputePlain_compute (hcore : coreOf s.cur < 2048) : runComputePlain i act s = runPlain i act s := by
  unfold runComputePlain runCompute
  rw [isDealer_compute hcore]
  rfl

theorem runComputePlain_ok (hr : Ready i s) (hcore : coreOf s.cur < 2048) (hact : act s = .ok ((), s1)) :
    runComputePlain i act s = .next (completed i s none s1) := by
  rw [runComputePlain_compute hcore, runPlain_ok hr hact]

theorem runComputePlain_trap {keep : State → State} (hr : Ready i s) (hcore : coreOf s.cur < 2048)
    (hact : act s = .error (.trap c sub v keep)) : runComputePlain i act s = .next (trapped i s c sub v (keep s)) := by
  rw [runComputePlain_compute hcore, runPlain_trap hr hact]

/-- A form that traps where it has done no more than read its operands keeps nothing (R35). -/
theorem runComputePlain_traps_clean (hr : Ready i s) (hcore : coreOf s.cur < 2048)
    (hact : act s = .error (.trap c sub v (keepAccesses s1))) (hs : besideThreads s1 = besideThreads s) :
    runComputePlain i act s = .next (trapped i s c sub v s) := by
  rw [runComputePlain_compute hcore, runPlain_traps_clean hr hact hs]

end Compute

/-! ## Fields of a doubleword -/

theorem bitsOf_low (w : Word) : bitsOf w 31 0 = w.toNat % 2 ^ 32 := by
  simp [bitsOf]

theorem bitsOf_high (w : Word) : bitsOf w 63 32 = w.toNat / 2 ^ 32 :=
  Nat.mod_eq_of_lt (Nat.div_lt_of_lt_mul w.isLt)

theorem b2n_beq (m n : Nat) : b2n (m == n) = if m = n then 1 else 0 := by
  simp [b2n]

/-! ## The register of a stream form (R147) -/

section Register

variable {xs : Reg} {s : State} {slot : Nat} {b : Binding}

theorem streamReg_ok (h : 24 ≤ xs.toNat) : streamReg xs s = .ok ((), s) :=
  trapIf_pass (decide_eq_false (Nat.not_lt.2 h))

theorem streamReg_traps (h : xs.toNat < 24) :
    streamReg xs s = .error (.trap 10 0x01 (xs.zeroExtend 64) (keepAccesses s)) :=
  trapIf_fail (decide_eq_true h)

theorem boundOrTrap_ok (h : 24 ≤ xs.toNat) (hbound : (s.thr s.cur).boundSlot xs = some (slot, b)) :
    boundOrTrap xs s = .ok ((slot, b), s) := by
  unfold boundOrTrap
  rw [Act.bind_ok (streamReg_ok h), Act.bind_ok (me_apply s), hbound]
  rfl

theorem boundOrTrap_traps (h : xs.toNat < 24 ∨ (s.thr s.cur).boundSlot xs = none) :
    boundOrTrap xs s = .error (.trap 10 0x01 (xs.zeroExtend 64) (keepAccesses s)) := by
  unfold boundOrTrap
  by_cases hlow : xs.toNat < 24
  · exact Act.bind_error (streamReg_traps hlow)
  · rw [Act.bind_ok (streamReg_ok (Nat.not_lt.1 hlow)), Act.bind_ok (me_apply s), h.resolve_left hlow]
    rfl

end Register

/-! ## st.bind (R150) -/

/-- The lowest of a thread's four slots that holds no binding. -/
def freeSlot (th : Thread) : Option Nat := (List.range 4).find? fun k => (th.binds.get {} k).reg == 0

/-- The binding of a register on core n that a descriptor of four doublewords asks for. -/
def askedBinding (n : Nat) (xs : Reg) (d : List Word) : Binding :=
  { base := rewriteOwn n (d.getD 0 0), strides := d.getD 1 0, counts := d.getD 2 0, fmt := d.getD 3 0, reg := xs }

/-- A check of st.bind on Table 7.4 fails. -/
def bindingMisfits (b : Binding) : Bool :=
  b.base.toNat % b.esz != 0 || bitsOf b.strides 31 0 % b.esz != 0 || bitsOf b.strides 63 32 % b.esz != 0 || b.count == 0 ||
    bitsOf b.fmt 63 3 != 0 || (b.esz == 8 && bitOf b.fmt 2)

/-- What st.bind does with the descriptor that it has read at an address. -/
def bindDescriptor (xs : Reg) (a : Word) (slot : Nat) (d : List Word) : Act Unit := do
  let b := askedBinding (← myCore) xs d
  trapIf (bindingMisfits b) 10 0x03 a
  pushRelease
  upd (setBind (← cur) slot b)
  modMe fun th => { th with regs := th.regs.set xs.toNat 0 }

/-- What st.bind does once it has read its operand. -/
def bindAt (xs : Reg) (a : Word) : Act Unit := do
  let th ← me
  trapIf (th.boundSlot xs).isSome 10 0x01 (regVal xs)
  match freeSlot th with
  | none => trap 10 0x02 (regVal xs)
  | some slot => readDoublewords a 4 >>= bindDescriptor xs a slot

theorem exec_stBind (xs rs1 : Reg) (s : State) :
    exec (.stBind xs rs1) s = runComputePlain (.stBind xs rs1) (streamReg xs >>= fun _ => readX rs1 >>= bindAt xs) s := rfl

theorem freeSlot_some {th : Thread} {slot : Nat} (hslot : slot < 4) (hfree : (th.binds.get {} slot).reg = 0)
    (hlower : ∀ j, j < slot → (th.binds.get {} j).reg ≠ 0) : freeSlot th = some slot :=
  List.find?_range_eq_some.2 ⟨beq_iff_eq.2 hfree, List.mem_range.2 hslot, fun j hj => congrArg not (beq_false_of_ne (hlower j hj))⟩

theorem freeSlot_none {th : Thread} (h : ∀ j, j < 4 → (th.binds.get {} j).reg ≠ 0) : freeSlot th = none :=
  List.find?_range_eq_none.2 fun j hj => congrArg not (beq_false_of_ne (h j hj))

theorem esz_eq (b : Binding) : b.esz = 2 ^ (b.fmt.toNat % 4) := by
  simp [Binding.esz, bitsOf]

theorem esz_eq_eight (b : Binding) : b.esz = 8 ↔ b.fmt.toNat % 4 = 3 := by
  rw [esz_eq]
  exact Nat.pow_right_inj (n := 3) (Nat.lt_succ_self 1)

/-- For a format without reserved bits, SGN is bit 2. -/
theorem unsigned_iff {w : Word} (h : w.toNat < 8) : bitOf w 2 = false ↔ w.toNat < 4 := by
  simp only [bitOf, BitVec.getLsbD, Nat.testBit_eq_decide_div_mod_eq, decide_eq_false_iff_not]
  omega

/-- The checks of st.bind are the conditions that Table 7.4 names. -/
theorem bindingMisfits_eq_false_iff (b : Binding) : bindingMisfits b = false ↔
    b.fmt.toNat < 8 ∧ (b.fmt.toNat % 4 = 3 → b.fmt.toNat < 4) ∧ b.base.toNat % b.esz = 0 ∧
      b.strides.toNat % 2 ^ 32 % b.esz = 0 ∧ b.strides.toNat / 2 ^ 32 % b.esz = 0 ∧
      b.counts.toNat % 2 ^ 32 * (b.counts.toNat / 2 ^ 32) ≠ 0 := by
  have hreserved : bitsOf b.fmt 63 3 = 0 ↔ b.fmt.toNat < 8 := by
    have := b.fmt.isLt
    unfold bitsOf
    omega
  have hsigned : b.fmt.toNat < 8 → ((b.esz = 8 → bitOf b.fmt 2 = false) ↔ (b.fmt.toNat % 4 = 3 → b.fmt.toNat < 4)) :=
    fun h => by rw [esz_eq_eight, unsigned_iff h]
  simp only [bindingMisfits, Binding.count, bitsOf_low, bitsOf_high, Bool.or_eq_false_iff, bne_eq_false_iff_eq, beq_eq_false_iff_ne,
    Bool.and_eq_false_imp, beq_iff_eq, hreserved]
  constructor
  · rintro ⟨⟨⟨⟨⟨hbase, hlow⟩, hhigh⟩, hcount⟩, hfmt⟩, hsgn⟩
    exact ⟨hfmt, (hsigned hfmt).1 hsgn, hbase, hlow, hhigh, hcount⟩
  · rintro ⟨hfmt, hsgn, hbase, hlow, hhigh, hcount⟩
    exact ⟨⟨⟨⟨⟨hbase, hlow⟩, hhigh⟩, hcount⟩, hfmt⟩, (hsigned hfmt).2 hsgn⟩

section Bind

variable {xs : Reg} {a : Word} {slot : Nat} {d : List Word} {s s1 : State}

theorem bindDescriptor_ok (hfits : bindingMisfits (askedBinding (coreOf s.cur) xs d) = false)
    (hrelease : pushRelease s = .ok ((), s1)) :
    bindDescriptor xs a slot d s = .ok ((), s1.modThr s1.cur fun th => { th with
      binds := th.binds.set slot (askedBinding (coreOf s.cur) xs d), regs := th.regs.set xs.toNat 0 }) := by
  unfold bindDescriptor
  rw [Act.bind_ok (myCore_apply s), Act.bind_ok (trapIf_pass hfits), Act.bind_ok hrelease, Act.bind_ok (cur_apply s1)]
  refine (Act.bind_ok (upd_apply _ s1)).trans ?_
  simp [setBind, State.modThr]

theorem bindDescriptor_refused (hmisfits : bindingMisfits (askedBinding (coreOf s.cur) xs d) = true) :
    bindDescriptor xs a slot d s = .error (.trap 10 0x03 a (keepAccesses s)) := by
  unfold bindDescriptor
  rw [Act.bind_ok (myCore_apply s)]
  exact Act.bind_error (trapIf_fail hmisfits)

theorem bindAt_bound (hbound : (s.thr s.cur).boundSlot xs ≠ none) :
    bindAt xs a s = .error (.trap 10 0x01 (xs.zeroExtend 64) (keepAccesses s)) := by
  unfold bindAt
  rw [Act.bind_ok (me_apply s)]
  exact Act.bind_error (trapIf_fail (Option.isSome_iff_ne_none.2 hbound))

theorem bindAt_full (hbound : (s.thr s.cur).boundSlot xs = none) (hfull : freeSlot (s.thr s.cur) = none) :
    bindAt xs a s = .error (.trap 10 0x02 (xs.zeroExtend 64) (keepAccesses s)) := by
  unfold bindAt
  rw [Act.bind_ok (me_apply s), hbound, Option.isSome_none, Act.bind_ok (trapIf_false _ _ _ s), hfull]
  rfl

theorem bindAt_free (hbound : (s.thr s.cur).boundSlot xs = none) (hfree : freeSlot (s.thr s.cur) = some slot)
    (hread : readDoublewords a 4 s = .ok (d, s1)) : bindAt xs a s = bindDescriptor xs a slot d s1 := by
  unfold bindAt
  rw [Act.bind_ok (me_apply s), hbound, Option.isSome_none, Act.bind_ok (trapIf_false _ _ _ s), hfree]
  exact Act.bind_ok hread

end Bind

/-! ## st.rel and st.pos (R150) -/

section Unbind

variable {xs rd : Reg} {slot : Nat} {b : Binding} {s s1 : State}

theorem stRel_does (hr : Ready (.stRel xs) s) (hcore : coreOf s.cur < 2048) (hreg : 24 ≤ xs.toNat)
    (hbound : (s.thr s.cur).boundSlot xs = some (slot, b)) :
    Does (.stRel xs) s none ((addPf (clusterOf (coreOf s.cur)) 1 16 b.values s).modThr s.cur fun th =>
      { th with binds := th.binds.erase slot, regs := th.regs.set xs.toNat 0 }) := by
  refine runComputePlain_ok hr hcore ?_
  rw [Act.bind_ok (boundOrTrap_ok hreg hbound)]
  rfl

theorem stPos_does (hr : Ready (.stPos rd xs) s) (hcore : coreOf s.cur < 2048) (hreg : 24 ≤ xs.toNat)
    (hbound : (s.thr s.cur).boundSlot xs = some (slot, b)) (hwrite : writeX rd (BitVec.ofNat 64 b.next) s = .ok ((), s1)) :
    Does (.stPos rd xs) s none s1 := by
  refine runComputePlain_ok hr hcore ?_
  rw [Act.bind_ok (boundOrTrap_ok hreg hbound)]
  exact hwrite

end Unbind

/-! ## Arrival of an element (R151, R157, R162) -/

section Arrival

variable {s s1 : State} {tid slot v : Nat} {b : Binding}

/-- The element that a read binding asks for next. -/
abbrev nextAsked (b : Binding) : Nat := b.next + b.arrived.length

/-- The request for the tokens of that element: one for every 32 bytes. -/
def elementRequest (s : State) (tid slot : Nat) (b : Binding) : Req :=
  { arb := copyArb (clusterOf (coreOf tid)), bucket := (s.agent tid).seat, cost := b2n (nextAsked b * b.esz % 32 == 0),
    line := (b.addr (nextAsked b)).toNat + 1, who := copyWho tid (18 + slot) }

/-- The read binding `b` of a slot asks for an element: it has room and elements left, no fault recorded, and its thread refills. -/
structure Refills (s : State) (tid slot : Nat) (b : Binding) : Prop where
  bound : (s.thr tid).binds.get {} slot = b
  read : 28 ≤ b.reg.toNat
  more : b.exh = false
  left : nextAsked b < b.count
  room : b.arrived.length < 32
  sound : ∀ e ∈ b.arrived, ∃ w, e = .value w
  runs : (s.thr tid).refills = true
  compute : coreOf tid < 2048

/-- A binding that asks is held back by none of the conditions of R151. -/
theorem Refills.asks (hb : Refills s tid slot b) :
    ¬ (b.reg.toNat < 28 ∨ b.exh = true ∨ b.count ≤ nextAsked b ∨ 32 ≤ b.arrived.length ∨
      (b.arrived.any fun e => match e with | .value _ => false | .faulted _ _ => true) = true ∨ (!(s.thr tid).refills) = true ∨
      isDealer (coreOf tid) = true) := by
  rintro (hwrite | hexh | hend | hfull | hfault | hstops | hdealer)
  · exact Nat.not_lt.2 hb.read hwrite
  · exact Bool.false_ne_true (hb.more.symm.trans hexh)
  · exact Nat.not_lt.2 hend hb.left
  · exact Nat.not_lt.2 hfull hb.room
  · obtain ⟨e, he, hfaulted⟩ := List.any_eq_true.1 hfault
    obtain ⟨w, rfl⟩ := hb.sound e he
    exact Bool.false_ne_true hfaulted
  · rw [hb.runs] at hstops
    exact Bool.false_ne_true hstops
  · exact Bool.false_ne_true ((isDealer_compute hb.compute).symm.trans hdealer)

theorem streamElementArrival_arrives (hb : Refills s tid slot b) (hflows : s.clusterHeld (clusterOf (coreOf tid)) = false)
    (hfree : s.heldBy (clusterOf (coreOf tid)) (b.addr (nextAsked b)).toNat b.esz = none)
    (hread : metered (elementRequest s tid slot b) (engineRead (s.agent tid) (b.addr (nextAsked b)) b.esz) s = .ok (.ok v, s1)) :
    exec (.streamElementArrival tid slot) s = .next (s1.modThr tid fun th => { th with
      binds := th.binds.set slot { b with arrived := b.arrived ++ [.value (b.extend v)] }, waiting := false }) := by
  obtain rfl := hb.bound
  refine runEvent_ok ?_
  rw [Act.bind_ok (look_apply _ s), Act.bind_ok (look_apply _ s)]
  refine (congrFun (if_neg hb.asks) s).trans ?_
  rw [Act.bind_ok (look_apply _ s)]
  refine (congrFun (if_neg (by rw [agent_core, hflows]; exact Bool.false_ne_true)) s).trans ?_
  rw [Act.bind_ok (look_apply _ s), agent_core, hfree]
  refine (Act.bind_ok hread).trans ?_
  refine congrArg (fun t => Except.ok ((), t)) ?_
  simp [setBind, State.modThr]

end Arrival

/-! ## Sending of a pushed element (R152) -/

/-- The place of the first entry that a binding slot of a thread has pushed and not sent. -/
def firstUnsent (tid slot : Nat) (rs : List RStore) : Option Nat :=
  (List.range rs.length).find? fun i => match rs[i]? with
    | some r => r.tid == tid && r.slot == some slot && !r.sent
    | none => false

/-- What sends the first unsent element of a slot: it waits behind stores of its thread to its destination. -/
def sendFirst (tid slot : Nat) (rs : List RStore) : Act Unit :=
  match firstUnsent tid slot rs with
  | none => pure ()
  | some i =>
    let r := rs.getD i {}
    if (rs.take i).any fun q => q.tid == tid && q.dest == r.dest && !q.sent then pure () else sendStore (coreOf tid) i r

theorem exec_streamPushSend (tid slot : Nat) (s : State) : exec (.streamPushSend tid slot) s =
    runEvent (look (fun s => (s.core (coreOf tid)).rstores) >>= sendFirst tid slot) s := rfl

section Send

variable {s s1 : State} {tid slot : Nat} {l rest : List RStore} {r : RStore}

theorem firstUnsent_eq (htid : r.tid = tid) (hslot : r.slot = some slot) (hunsent : r.sent = false)
    (hearlier : ∀ q ∈ l, q.tid = tid → q.slot = some slot → q.sent = true) :
    firstUnsent tid slot (l ++ r :: rest) = some l.length := by
  refine List.find?_range_eq_some.2 ⟨by simp [htid, hslot, hunsent], by simp, fun j hj => ?_⟩
  have hsent := hearlier l[j] (List.getElem_mem hj)
  simpa only [List.getElem?_append_left hj, List.getElem?_eq_getElem hj, Bool.not_eq_true', Bool.and_eq_false_imp,
    Bool.and_eq_true, beq_iff_eq, Bool.not_eq_false', and_imp] using hsent

/-- Where the entry `r` behind `l` is the first unsent one of its slot, it is sent unless an entry of `l` stands before it. -/
theorem sendFirst_eq (hfirst : firstUnsent tid slot (l ++ r :: rest) = some l.length) :
    sendFirst tid slot (l ++ r :: rest) =
      if l.any fun q => q.tid == tid && q.dest == r.dest && !q.sent then pure () else sendStore (coreOf tid) l.length r := by
  unfold sendFirst
  rw [hfirst]
  simp

theorem sendFirst_sends (hfirst : firstUnsent tid slot (l ++ r :: rest) = some l.length)
    (hahead : ∀ q ∈ l, q.tid = tid → q.dest = r.dest → q.sent = true) :
    sendFirst tid slot (l ++ r :: rest) = sendStore (coreOf tid) l.length r := by
  rw [sendFirst_eq hfirst, if_neg]
  simpa using hahead

theorem sendFirst_waits (hfirst : firstUnsent tid slot (l ++ r :: rest) = some l.length)
    (hbehind : ∃ q ∈ l, q.tid = tid ∧ q.dest = r.dest ∧ q.sent = false) :
    sendFirst tid slot (l ++ r :: rest) = pure () := by
  rw [sendFirst_eq hfirst, if_pos]
  simpa [and_assoc] using hbehind

end Send

/-- Settles O35: each form checks its register, its slot and its descriptor in the order of R150; an arrival and a sending run
where nothing of R151 and R152 holds the binding back. -/
theorem streams : Obligations.Streams := by
  refine ⟨?bind, ?bindRegister, ?bindSlot, ?rel, ?pos, ?unbound, ?arrival, ?send, ?sendWaits⟩
  case bind =>
    intro xs rs1 s s1 s2 a slot b strides counts fmt hr hcore hreg hread hbound hslot hfree hlower hdesc esz base good
    have hfits : bindingMisfits (askedBinding (coreOf s2.cur) xs [b, strides, counts, fmt]) = false ↔ good := by
      rw [bindingMisfits_eq_false_iff, esz_eq]
      rfl
    have hact : (streamReg xs >>= fun _ => readX rs1 >>= bindAt xs) s = bindDescriptor xs a slot [b, strides, counts, fmt] s2 := by
      rw [Act.bind_ok (streamReg_ok hreg), Act.bind_ok hread, bindAt_free hbound (freeSlot_some hslot hfree hlower) hdesc]
    refine ⟨fun hgood s3 hrelease => ?_, fun hbad => ?_⟩
    · exact (exec_stBind xs rs1 s).trans (runComputePlain_ok hr hcore (hact.trans (bindDescriptor_ok (hfits.2 hgood) hrelease)))
    · refine (exec_stBind xs rs1 s).trans (runComputePlain_trap hr hcore (hact.trans (bindDescriptor_refused ?_)))
      exact (Bool.not_eq_false _).mp fun h => hbad (hfits.1 h)
  case bindRegister =>
    intro xs rs1 s hr hcore hlow
    exact (exec_stBind xs rs1 s).trans (runComputePlain_traps_clean hr hcore (Act.bind_error (streamReg_traps hlow)) rfl)
  case bindSlot =>
    intro xs rs1 s s1 a hr hcore hreg hread
    have hact : (streamReg xs >>= fun _ => readX rs1 >>= bindAt xs) s = bindAt xs a s1 := by
      rw [Act.bind_ok (streamReg_ok hreg), Act.bind_ok hread]
    have hs := readX_keeps rs1 _ _ _ hread
    refine ⟨fun hbound => ?_, fun hbound hfull => ?_⟩
    · exact (exec_stBind xs rs1 s).trans (runComputePlain_traps_clean hr hcore (hact.trans (bindAt_bound hbound)) hs)
    · exact (exec_stBind xs rs1 s).trans
        (runComputePlain_traps_clean hr hcore (hact.trans (bindAt_full hbound (freeSlot_none hfull))) hs)
  case rel =>
    intro xs s slot b hr hcore hreg hbound
    exact stRel_does hr hcore hreg hbound
  case pos =>
    intro rd xs s s1 slot b hr hcore hreg hbound hwrite
    exact stPos_does hr hcore hreg hbound hwrite
  case unbound =>
    intro rd xs s i hi hr hcore hnone
    simp only [List.mem_cons, List.not_mem_nil, or_false] at hi
    rcases hi with rfl | rfl
    · exact runComputePlain_traps_clean hr hcore (Act.bind_error (boundOrTrap_traps hnone)) rfl
    · exact runComputePlain_traps_clean hr hcore (Act.bind_error (boundOrTrap_traps hnone)) rfl
  case arrival =>
    intro s s1 tid slot b v hbound hread hmore hcore hsound hroom hruns k c hleft hflows hfree hgives
    rw [← bitsOf_low, ← bitsOf_high] at hleft
    rw [← b2n_beq] at hgives
    exact streamElementArrival_arrives ⟨hbound, hread, hmore, hleft, hroom, hsound, hruns, hcore⟩ hflows hfree hgives
  case send =>
    intro s s1 tid slot l r rest htable htid hslot hunsent hearlier hahead hsend
    rw [exec_streamPushSend]
    refine runEvent_ok ?_
    rw [Act.bind_ok (look_apply _ s), htable, sendFirst_sends (firstUnsent_eq htid hslot hunsent hearlier) hahead]
    exact hsend
  case sendWaits =>
    intro s tid slot l r q l' rest htable htid hslot hunsent hearlier hqtid hdest hqunsent
    rw [exec_streamPushSend]
    refine runEvent_ok ?_
    rw [Act.bind_ok (look_apply _ s), htable,
      sendFirst_waits (firstUnsent_eq htid hslot hunsent hearlier) ⟨q, by simp, hqtid, hdest, hqunsent⟩]
    rfl

end Sys2Proof.Machine.CopyUnit
end

section
/-! Copy channels and gather engines (R154 to R159, R162), and the end of the expander's work on a block (R167). -/

namespace Sys2Proof.Machine.CopyUnit

open NearStorage

/-! ## The destination of an engine -/

theorem bytes_channel {e : Nat} (he : e < 16) (x : Engine) : x.bytes e = x.len := if_pos he

theorem bytes_gather (g : Nat) (x : Engine) : x.bytes (16 + g) = x.len * x.esz := if_neg (by omega)

/-! ## Starting an engine (R155, R156) -/

/-- The engine `x` as the thread whose unit is running starts it for a seat. -/
def startedEngine (s : State) (seat : Nat) (x : Engine) : Engine :=
  { x with st := .active, seat := seat, tid := s.cur, deal := (s.thr s.cur).deal.getD 0, hand := (s.thr s.cur).hand.toNat }

/-- An engine may not be started for a seat: it is held, or it is a channel and the seat holds as many as it may. -/
def engineBusy (s : State) (seat c e : Nat) : Bool :=
  (s.engine c e).st != .free || (decide (e < 16) && decide (s.cpMax seat c ≤ s.channelsHeld seat c))

section Start

variable {rd : Reg} {e : Nat} {x : Engine} {s s1 s2 : State}

theorem startEngine_starts
    (hbanks : s.badBanks ((s.thr s.cur).seat.getD 0) (coreOf s.cur) x.dst.toNat (x.bytes e) = false)
    (hfree : engineBusy s ((s.thr s.cur).seat.getD 0) (clusterOf (coreOf s.cur)) e = false) (hrelease : pushRelease s = .ok ((), s1))
    (hwrite : writeX rd 0 (s1.setEngine (clusterOf (coreOf s.cur)) e (startedEngine s1 ((s.thr s.cur).seat.getD 0) x)) = .ok ((), s2)) :
    startEngine rd e x s = .ok ((), s2) := by
  unfold startEngine
  rw [Act.bind_ok (myCore_apply s), Act.bind_ok (mySeat_apply s), Act.bind_ok (look_apply _ s), Act.bind_ok (trapIf_pass hbanks),
    Act.bind_ok (look_apply _ s)]
  refine (congrFun (if_neg (ne_true_of_eq_false hfree)) s).trans ?_
  rw [Act.bind_ok hrelease, Act.bind_ok (me_apply s1)]
  exact (Act.bind_ok (upd_apply _ s1)).trans hwrite

theorem startEngine_busy
    (hbanks : s.badBanks ((s.thr s.cur).seat.getD 0) (coreOf s.cur) x.dst.toNat (x.bytes e) = false)
    (hbusy : engineBusy s ((s.thr s.cur).seat.getD 0) (clusterOf (coreOf s.cur)) e = true)
    (hwrite : writeX rd (BitVec.ofInt 64 (-1)) s = .ok ((), s1)) : startEngine rd e x s = .ok ((), s1) := by
  unfold startEngine
  rw [Act.bind_ok (myCore_apply s), Act.bind_ok (mySeat_apply s), Act.bind_ok (look_apply _ s), Act.bind_ok (trapIf_pass hbanks),
    Act.bind_ok (look_apply _ s)]
  exact (congrFun (if_pos hbusy) s).trans hwrite

end Start

theorem engineBusy_channel {s : State} {seat c e : Nat} (he : e ≤ 15) :
    engineBusy s seat c e = true ↔ (s.engine c e).st ≠ .free ∨ s.cpMax seat c ≤ s.channelsHeld seat c := by
  have hchannel : e < 16 := by omega
  simp [engineBusy, hchannel]

theorem engineBusy_gather {s : State} {seat c g : Nat} :
    engineBusy s seat c (16 + g) = true ↔ (s.engine c (16 + g)).st ≠ .free := by
  have hgather : ¬ 16 + g < 16 := by omega
  simp [engineBusy, hgather]

/-! ## cp.go (R155) -/

/-- The channel that a descriptor of four doublewords asks for on core n. -/
def askedChannel (n : Nat) (d : List Word) : Engine :=
  { src := rewriteOwn n (d.getD 0 0), dst := rewriteOwn n (d.getD 1 0), len := bitsOf (d.getD 2 0) 31 0, mbx := rewriteOwn n (d.getD 3 0) }

/-- A check of cp.go on Table 7.6 fails. -/
def channelMisfits (x : Engine) (l : Word) : Bool :=
  x.src.toNat % 8 != 0 || x.dst.toNat % 8 != 0 || bitsOf l 63 32 != 0 || x.len == 0 || x.len % 8 != 0 || x.mbx.toNat % 16 != 0

/-- What cp.go does with channel e and the descriptor that it has read at an address. -/
def goChannel (rd : Reg) (a e : Word) (d : List Word) : Act Unit := do
  let n ← myCore
  trapIf (channelMisfits (askedChannel n d) (d.getD 2 0)) 10 0x03 a
  startEngine rd e.toNat (askedChannel n d)

theorem exec_cpGo (rd rs1 rs2 : Reg) (s : State) : exec (.cpGo rd rs1 rs2) s = runComputePlain (.cpGo rd rs1 rs2) (do
    let a ← readX rs1
    let e ← readX rs2
    trapIf (decide (15 < e.toNat)) 10 0x06 e
    let d ← readDoublewords a 4
    goChannel rd a e d) s := rfl

theorem goChannel_fits {rd : Reg} {a e : Word} {d : List Word} {s : State}
    (hfits : channelMisfits (askedChannel (coreOf s.cur) d) (d.getD 2 0) = false) :
    goChannel rd a e d s = startEngine rd e.toNat (askedChannel (coreOf s.cur) d) s := by
  unfold goChannel
  rw [Act.bind_ok (myCore_apply s)]
  exact Act.bind_ok (trapIf_pass hfits)

theorem cpGo_ok {rd rs1 rs2 : Reg} {a e : Word} {d : List Word} {s s1 s2 s3 t : State} (hr : Ready (.cpGo rd rs1 rs2) s)
    (hcore : coreOf s.cur < 2048) (hbase : readX rs1 s = .ok (a, s1)) (hnumber : readX rs2 s1 = .ok (e, s2)) (he : e.toNat ≤ 15)
    (hdesc : readDoublewords a 4 s2 = .ok (d, s3)) (hfits : channelMisfits (askedChannel (coreOf s3.cur) d) (d.getD 2 0) = false)
    (hstart : startEngine rd e.toNat (askedChannel (coreOf s3.cur) d) s3 = .ok ((), t)) : Does (.cpGo rd rs1 rs2) s none t := by
  refine (exec_cpGo rd rs1 rs2 s).trans (runComputePlain_ok hr hcore ?_)
  rw [Act.bind_ok hbase, Act.bind_ok hnumber, Act.bind_ok (trapIf_pass (decide_eq_false (Nat.not_lt.2 he))), Act.bind_ok hdesc,
    goChannel_fits hfits, hstart]

theorem askedChannel_eq {n : Nat} {b d l m : Word} (hsize : l.toNat < 2 ^ 32) : askedChannel n [b, d, l, m] =
    { src := rewriteOwn n b, dst := rewriteOwn n d, len := l.toNat, mbx := rewriteOwn n m } := by
  have hlen : bitsOf l 31 0 = l.toNat := by rw [bitsOf_low, Nat.mod_eq_of_lt hsize]
  rw [← hlen]
  rfl

theorem channel_fits {x : Engine} {l : Word} (hsize : l.toNat < 2 ^ 32) (hlen : x.len = l.toNat) (hsome : l ≠ 0)
    (hmultiple : l.toNat % 8 = 0) (hsrc : x.src.toNat % 8 = 0) (hdst : x.dst.toNat % 8 = 0) (hmbx : x.mbx.toNat % 16 = 0) :
    channelMisfits x l = false := by
  have hpos : l.toNat ≠ 0 := fun h => hsome (BitVec.eq_of_toNat_eq h)
  simp [channelMisfits, hlen, (bitsOf_upper_eq_zero l).2 hsize, hpos, hmultiple, hsrc, hdst, hmbx]

/-! ## gt.go (R156) -/

/-- The gather engine that a descriptor of six doublewords asks for on core n. -/
def askedGather (n : Nat) (d : List Word) : Engine :=
  { src := rewriteOwn n (d.getD 0 0), tbl := rewriteOwn n (d.getD 1 0), dst := rewriteOwn n (d.getD 2 0),
    len := bitsOf (d.getD 3 0) 31 0, esz := 2 ^ bitsOf (d.getD 3 0) 33 32, iw64 := bitOf (d.getD 3 0) 34, mbx := rewriteOwn n (d.getD 4 0) }

/-- A check of gt.go on Table 7.7 fails. -/
def gatherMisfits (x : Engine) (f reserved : Word) : Bool :=
  x.src.toNat % (if x.iw64 then 8 else 4) != 0 || x.dst.toNat % x.esz != 0 || bitsOf f 63 35 != 0 || x.len == 0 ||
    x.mbx.toNat % 16 != 0 || reserved != 0

/-- What gt.go does with gather engine g and the descriptor that it has read at an address. -/
def goGather (rd : Reg) (a g : Word) (d : List Word) : Act Unit := do
  let n ← myCore
  trapIf (gatherMisfits (askedGather n d) (d.getD 3 0) (d.getD 5 0)) 10 0x03 a
  startEngine rd (16 + g.toNat) (askedGather n d)

theorem exec_gtGo (rd rs1 rs2 : Reg) (s : State) : exec (.gtGo rd rs1 rs2) s = runComputePlain (.gtGo rd rs1 rs2) (do
    let a ← readX rs1
    let g ← readX rs2
    trapIf (decide (1 < g.toNat)) 10 0x06 g
    let d ← readDoublewords a 6
    goGather rd a g d) s := rfl

theorem goGather_fits {rd : Reg} {a g : Word} {d : List Word} {s : State}
    (hfits : gatherMisfits (askedGather (coreOf s.cur) d) (d.getD 3 0) (d.getD 5 0) = false) :
    goGather rd a g d s = startEngine rd (16 + g.toNat) (askedGather (coreOf s.cur) d) s := by
  unfold goGather
  rw [Act.bind_ok (myCore_apply s)]
  exact Act.bind_ok (trapIf_pass hfits)

theorem gtGo_ok {rd rs1 rs2 : Reg} {a g : Word} {d : List Word} {s s1 s2 s3 t : State} (hr : Ready (.gtGo rd rs1 rs2) s)
    (hcore : coreOf s.cur < 2048) (hbase : readX rs1 s = .ok (a, s1)) (hnumber : readX rs2 s1 = .ok (g, s2)) (hg : g.toNat ≤ 1)
    (hdesc : readDoublewords a 6 s2 = .ok (d, s3))
    (hfits : gatherMisfits (askedGather (coreOf s3.cur) d) (d.getD 3 0) (d.getD 5 0) = false)
    (hstart : startEngine rd (16 + g.toNat) (askedGather (coreOf s3.cur) d) s3 = .ok ((), t)) : Does (.gtGo rd rs1 rs2) s none t := by
  refine (exec_gtGo rd rs1 rs2 s).trans (runComputePlain_ok hr hcore ?_)
  rw [Act.bind_ok hbase, Act.bind_ok hnumber, Act.bind_ok (trapIf_pass (decide_eq_false (Nat.not_lt.2 hg))), Act.bind_ok hdesc,
    goGather_fits hfits, hstart]

theorem askedGather_eq {n : Nat} {b t d f m z : Word} : askedGather n [b, t, d, f, m, z] =
    { src := rewriteOwn n b, tbl := rewriteOwn n t, dst := rewriteOwn n d, len := f.toNat % 2 ^ 32,
      esz := 2 ^ (f.toNat / 2 ^ 32 % 4), iw64 := f.getLsbD 34, mbx := rewriteOwn n m } := by
  rw [← bitsOf_low]
  rfl

theorem gather_fits {x : Engine} {f : Word} (hsize : f.toNat < 2 ^ 35) (hsome : x.len ≠ 0)
    (hidx : x.src.toNat % (if x.iw64 then 8 else 4) = 0) (hdst : x.dst.toNat % x.esz = 0) (hmbx : x.mbx.toNat % 16 = 0) :
    gatherMisfits x f 0 = false := by
  have hreserved : bitsOf f 63 35 = 0 := by
    unfold bitsOf
    omega
  simp [gatherMisfits, hreserved, hsome, hidx, hdst, hmbx]

/-! ## The engine that cp.wait, cp.stop and cp.stat name (R158) -/

section Number

variable {rs1 : Reg} {e : Word} {s s1 : State}

theorem engineNumber_ok (hread : readX rs1 s = .ok (e, s1)) (he : e.toNat ≤ 17) : engineNumber rs1 s = .ok (e.toNat, s1) := by
  unfold engineNumber
  rw [Act.bind_ok hread, Act.bind_ok (trapIf_pass (decide_eq_false (Nat.not_lt.2 he)))]
  rfl

theorem engineNumber_traps (hread : readX rs1 s = .ok (e, s1)) (he : 17 < e.toNat) :
    engineNumber rs1 s = .error (.trap 10 0x06 e (keepAccesses s1)) := by
  unfold engineNumber
  rw [Act.bind_ok hread]
  exact Act.bind_error (trapIf_fail (decide_eq_true he))

end Number

/-! ## cp.wait (R158) -/

/-- cp.wait takes the count of an engine that has ended: it drops the blocks of the destination and frees the engine. -/
def takeCount (rd : Reg) (c e : Nat) (x : Engine) : Act Unit := do
  dropRange x.dst.toNat (x.bytes e)
  upd (freeEngine c e)
  writeX rd (wordOfNat x.landed)

/-- What cp.wait does with engine e where the engine's end has left it nothing. -/
def awaitEngine (rd : Reg) (c e seat : Nat) : Act Unit := do
  let x ← look fun s => s.engine c e
  if x.st = .free ∨ x.seat ≠ seat then writeX rd (-1)
  else
    match x.st with
    | .done => takeCount rd c e x
    | .stopped => takeCount rd c e x
    | .faulted => trap 10 0x08 (wordOfNat e)
    | _ => holdKeep fun s => s.modThr s.cur fun y => { y with cpWait := some e }

/-- What cp.wait does with engine number e. -/
def waitOn (rd : Reg) (e : Nat) : Act Unit := do
  let th ← me
  let c := clusterOf (← myCore)
  let seat ← mySeat
  match th.cpAns with
  | some (v, dst, bytes) =>
    dropRange dst bytes
    writeX rd v
  | none => awaitEngine rd c e seat

theorem exec_cpWait (rd rs1 : Reg) (s : State) :
    exec (.cpWait rd rs1) s = runComputePlain (.cpWait rd rs1) (engineNumber rs1 >>= waitOn rd) s := rfl

section Wait

variable {rd : Reg} {c e dst bytes seat : Nat} {v : Word} {s s1 s2 : State}

theorem waitOn_answered (hans : (s.thr s.cur).cpAns = some (v, dst, bytes)) (hdrop : dropRange dst bytes s = .ok ((), s1))
    (hwrite : writeX rd v s1 = .ok ((), s2)) : waitOn rd e s = .ok ((), s2) := by
  unfold waitOn
  rw [Act.bind_ok (me_apply s), Act.bind_ok (myCore_apply s), Act.bind_ok (mySeat_apply s), hans]
  exact (Act.bind_ok hdrop).trans hwrite

theorem waitOn_pending (hans : (s.thr s.cur).cpAns = none) :
    waitOn rd e s = awaitEngine rd (clusterOf (coreOf s.cur)) e ((s.thr s.cur).seat.getD 0) s := by
  unfold waitOn
  rw [Act.bind_ok (me_apply s), Act.bind_ok (myCore_apply s), Act.bind_ok (mySeat_apply s), hans]

theorem awaitEngine_foreign (hother : ¬ ((s.engine c e).st ≠ .free ∧ (s.engine c e).seat = seat)) :
    awaitEngine rd c e seat s = writeX rd (BitVec.ofInt 64 (-1)) s := by
  have hor : (s.engine c e).st = .free ∨ (s.engine c e).seat ≠ seat :=
    Decidable.or_iff_not_imp_left.2 fun hst hseat => hother ⟨hst, hseat⟩
  unfold awaitEngine
  rw [Act.bind_ok (look_apply _ s), if_pos hor]
  rfl

theorem awaitEngine_ended (hseat : (s.engine c e).seat = seat) (hended : (s.engine c e).st = .done ∨ (s.engine c e).st = .stopped)
    (hdrop : dropRange (s.engine c e).dst.toNat ((s.engine c e).bytes e) s = .ok ((), s1))
    (hwrite : writeX rd (BitVec.ofNat 64 (s.engine c e).landed) (freeEngine c e s1) = .ok ((), s2)) :
    awaitEngine rd c e seat s = .ok ((), s2) := by
  have htake : takeCount rd c e (s.engine c e) s = .ok ((), s2) :=
    (Act.bind_ok hdrop).trans ((Act.bind_ok (upd_apply _ s1)).trans hwrite)
  unfold awaitEngine
  rw [Act.bind_ok (look_apply _ s)]
  rcases hended with hst | hst
  · rw [if_neg (by simp [hst, hseat]), hst]
    exact htake
  · rw [if_neg (by simp [hst, hseat]), hst]
    exact htake

theorem awaitEngine_faulted (hseat : (s.engine c e).seat = seat) (hst : (s.engine c e).st = .faulted) :
    awaitEngine rd c e seat s = .error (.trap 10 0x08 (wordOfNat e) (keepAccesses s)) := by
  unfold awaitEngine
  rw [Act.bind_ok (look_apply _ s), if_neg (by simp [hst, hseat]), hst]
  rfl

/-- The wait of the current thread for engine e. -/
def markWait (e : Nat) (s : State) : State := s.modThr s.cur fun th => { th with cpWait := some e }

theorem awaitEngine_active (hseat : (s.engine c e).seat = seat) (hst : (s.engine c e).st = .active) :
    awaitEngine rd c e seat s = .error (.hold (markWait e)) := by
  unfold awaitEngine
  rw [Act.bind_ok (look_apply _ s), if_neg (by simp [hst, hseat]), hst]
  rfl

end Wait

/-! ## What a unit that waits changes of its thread (R63) -/

theorem issueCharge_thr (t : Nat) (s : State) :
    ∃ n b, (issueCharge t s).thr t = { s.thr t with instret := n, issued := b } := by
  unfold issueCharge
  split
  · exact ⟨(s.thr t).instret, (s.thr t).issued, rfl⟩
  · exact ⟨_, _, by rw [modThr_thr, issueWord_thr]⟩

theorem forwardUnit_thr (t : Nat) (u : GUnit) (s : State) : ∃ b, (forwardUnit t u s).thr t = { s.thr t with sent := b } := by
  unfold forwardUnit
  split
  · exact ⟨true, by rw [modThr_thr, foldl_modThr_thr _ _ _ (by simp [State.gangOthers])]⟩
  · exact ⟨(s.thr t).sent, rfl⟩

theorem holdUnit_thr (t : Nat) (ws : List IWord) (s : State) :
    ∃ b f, (holdUnit t ws s).thr t = { s.thr t with sent := b, waiting := true, firm := f } := by
  unfold holdUnit
  rw [modThr_thr]
  dsimp only
  split
  · exact ⟨(s.thr t).sent, _, rfl⟩
  · obtain ⟨b, hb⟩ := forwardUnit_thr t ((s.thr t).gangUnit ws ((s.thr t).behind ws)) s
    exact ⟨b, _, by rw [hb]⟩

/-- A thread whose unit waits once it has issued is left as what the wait keeps gives it, but for the unit's own marks. -/
theorem held_thr (t : Nat) (ws : List IWord) (s : State) :
    ∃ n b d f, (holdUnit t ws (issueCharge t s)).thr t =
      { s.thr t with instret := n, issued := b, sent := d, waiting := true, firm := f } := by
  obtain ⟨d, f, hheld⟩ := holdUnit_thr t ws (issueCharge t s)
  obtain ⟨n, b, hissued⟩ := issueCharge_thr t s
  exact ⟨n, b, d, f, by rw [hheld, hissued]⟩

theorem cpWait_waits {rd rs1 : Reg} {e : Nat} {s : State} (hr : Ready (.cpWait rd rs1) s) (hcore : coreOf s.cur < 2048)
    (hact : (engineNumber rs1 >>= waitOn rd) s = .error (.hold (markWait e))) :
    ∃ t, exec (.cpWait rd rs1) s = .next t ∧ (t.thr s.cur).cpWait = some e ∧ (t.thr s.cur).pc = (s.thr s.cur).pc ∧
      (t.thr s.cur).waiting = true := by
  refine ⟨_, (exec_cpWait rd rs1 s).trans ((runComputePlain_compute hcore).trans (runUnit_hold hr (Act.bind_error hact))), ?_⟩
  obtain ⟨n, b, d, f, hheld⟩ := held_thr s.cur [encode (.cpWait rd rs1)] (markWait e s)
  rw [hheld, markWait, modThr_thr]
  exact ⟨rfl, rfl, rfl⟩

/-! ## cp.stop and cp.stat (R158) -/

/-- What cp.stop does with engine number e. -/
def stopOwn (e : Nat) : Act Unit := do
  let c := clusterOf (← myCore)
  let seat ← mySeat
  let x ← look fun s => s.engine c e
  if x.st ≠ .free ∧ x.seat = seat then stopEngine c e

theorem exec_cpStop (rs1 : Reg) (s : State) :
    exec (.cpStop rs1) s = runComputePlain (.cpStop rs1) (engineNumber rs1 >>= stopOwn) s := rfl

/-- The word that cp.stat gives of an engine to a seat. -/
def statusFor (seat : Nat) (x : Engine) : Word := if x.st = .free then 0 else if x.seat = seat then x.status else 5

theorem exec_cpStat (rd rs1 : Reg) (s : State) : exec (.cpStat rd rs1) s = runComputePlain (.cpStat rd rs1) (do
    let e ← engineNumber rs1
    let c := clusterOf (← myCore)
    let seat ← mySeat
    let x ← look fun s => s.engine c e
    writeX rd (statusFor seat x)) s := rfl

section Stop

variable {c e : Nat} {s s1 : State}

@[simp] theorem setEngine_engine (s : State) (c e : Nat) (x : Engine) : (s.setEngine c e x).engine c e = x := by
  simp [State.setEngine, State.engine, State.modCluster]

@[simp] theorem mapThr_engine (s : State) (f : Nat → Thread → Thread) (c e : Nat) : (s.mapThr f).engine c e = s.engine c e := rfl

theorem freeEngine_frees (c e : Nat) (s : State) : ((freeEngine c e s).engine c e).st = .free := by
  simp [freeEngine]

theorem stopEngine_ok (hdone : completeEngine c e { s.engine c e with st := .stopped }
      (s.setEngine c e { s.engine c e with st := .stopped }) = .ok ((), s1)) :
    stopEngine c e s = .ok ((), freeEngine c e s1) := by
  unfold stopEngine
  rw [Act.bind_ok (look_apply _ s)]
  refine (Act.bind_ok (upd_apply _ s)).trans ?_
  exact (Act.bind_ok hdone).trans (upd_apply _ s1)

theorem stopOwn_other (hother : ¬ ((s.engine (clusterOf (coreOf s.cur)) e).st ≠ .free ∧
      (s.engine (clusterOf (coreOf s.cur)) e).seat = (s.thr s.cur).seat.getD 0)) : stopOwn e s = .ok ((), s) := by
  unfold stopOwn
  rw [Act.bind_ok (myCore_apply s), Act.bind_ok (mySeat_apply s), Act.bind_ok (look_apply _ s), if_neg hother]
  rfl

theorem stopOwn_own (hheld : (s.engine (clusterOf (coreOf s.cur)) e).st ≠ .free)
    (hseat : (s.engine (clusterOf (coreOf s.cur)) e).seat = (s.thr s.cur).seat.getD 0) :
    stopOwn e s = stopEngine (clusterOf (coreOf s.cur)) e s := by
  unfold stopOwn
  rw [Act.bind_ok (myCore_apply s), Act.bind_ok (mySeat_apply s), Act.bind_ok (look_apply _ s), if_pos ⟨hheld, hseat⟩]

end Stop

/-- The status word is that of Table 7.9 (R158). -/
theorem statusFor_eq (seat : Nat) (x : Engine) : statusFor seat x = BitVec.ofNat 64 (if x.st = .free then 0
    else if x.seat = seat then x.landed * 2 ^ 32 + (if x.side then 2 ^ 16 else 0) + x.sub.toNat * 2 ^ 8 + x.st.code else 5) := by
  have hside : putAt (b2n x.side) 16 = if x.side then 2 ^ 16 else 0 := by cases x.side <;> rfl
  unfold statusFor Engine.status
  rw [hside]
  split
  · rfl
  · split <;> rfl

/-! ## Landing and the end of an engine (R155, R157, R159, R162) -/

/-- The engine once a packet or an element has landed, or one has faulted: after its last, and at a fault, it is ending. -/
def afterLanding (e : Nat) (y : Engine) : Landed → Engine
  | .fault side sub va => { y with ending := some .faulted, side := side, sub := sub, faddr := va }
  | .ok => if y.landed = y.bytes e then { y with ending := some .done } else y

/-- The elements of the next packet of channel e, or the next element of gather engine e, land for engine `x`. -/
def landNext (c e : Nat) (x : Engine) : Act Unit := do
  let ag ← look fun s => { s.agent x.tid with seat := x.seat }
  let esz := if e < 16 then 8 else x.esz
  let n := if e < 16 then min (256 - x.landed % 256) (x.bytes e - x.landed) else x.esz
  let r ← landAll (fun k => if e < 16 then
      copyElement { ag with packet := some (if k % 32 = 0 then min 256 (x.bytes e - 8 * k) else 0) } c e (8 * k)
    else gatherElement ag c e k) x.seat c e esz ((List.range (n / esz)).map fun i => x.landed / esz + i)
  let y ← look fun s => s.engine c e
  upd fun s => recheckCluster c (s.setEngine c e (afterLanding e y r))

section Land

variable {c e : Nat} {st : EState} {s s1 : State}

/-- The step of an active engine whose cluster is not held. -/
theorem exec_copyPacketLanded (hst : (s.engine c e).st = .active) (he : e ≤ 17) (hflows : s.clusterHeld c = false) :
    exec (.copyPacketLanded c e) s =
      runEvent (if (s.engine c e).ending.isSome then endEngine c e (s.engine c e) else landNext c e (s.engine c e)) s := by
  have hgo : ¬ ((s.engine c e).st ≠ .active ∨ 17 < e) := by
    rintro (hidle | hbeyond)
    · exact hidle hst
    · exact Nat.not_lt.2 he hbeyond
  show execCopyPacketLanded c e s = _
  unfold execCopyPacketLanded runEvent
  rw [Act.bind_ok (look_apply _ s), if_neg hgo, Act.bind_ok (look_apply _ s), if_neg (ne_true_of_eq_false hflows)]
  rfl

theorem endEngine_ok (hending : (s.engine c e).ending = some st)
    (hdone : completeEngine c e { s.engine c e with st := st, ending := none } s = .ok ((), s1)) :
    endEngine c e (s.engine c e) s = .ok ((), recheckCluster c (s1.setEngine c e { s.engine c e with st := st, ending := none })) := by
  unfold endEngine
  rw [hending]
  exact (Act.bind_ok hdone).trans (upd_apply _ s1)

end Land

/-! ## The expander's block (R167) -/

/-- The expander's work on a block is done: nothing failed, and no word is left to write or read. -/
structure WorkDone (s : State) (c : Nat) (j : CmJob) : Prop where
  work : (s.cluster c).cmJob = some j
  sound : j.failed = none
  written : j.writes = []
  read : j.reads = []

theorem exec_cmBlockFill_done {s : State} {c : Nat} {j : CmJob} (hj : WorkDone s c j) :
    exec (.cmBlockFill c j.block) s = .next (cmFinish c j s) := by
  have hnext : j.next = none := by simp [CmJob.next, hj.written, hj.read]
  show execCmBlockFill c j.block s = _
  unfold execCmBlockFill
  rw [runEvent_upd]
  simp [hj.work, hj.sound, hnext]

@[simp] theorem setBytes_cluster (s : State) (a : Nat) (bs : List Byte) (c : Nat) : (s.setBytes a bs).cluster c = s.cluster c := rfl

theorem cmFinish_cluster (c : Nat) (j : CmJob) (s : State) : (cmFinish c j s).cluster c =
    { s.cluster c with cmBlocks := (s.cluster c).cmBlocks ++ [(j.block, false)], cmJob := none } := by
  simp [cmFinish, cmEnter, State.modCluster]

/-! ## The obligation -/

/-- Settles O36: cp.go and gt.go start what their descriptor asks for or give −1; cp.wait, cp.stop and cp.stat act on the engine that
their number names, by its holder and its state; a landing takes the engine on or to its end, and its record follows as the next
step. -/
theorem copies : Obligations.Copies := by
  refine ⟨?go, ?gather, ?wait, ?stop, ?stat, ?number, ?lands, ?ends, ?block⟩
  case go =>
    intro rd rs1 rs2 s s1 s2 s3 a e b d l m hr hcore hbase hnumber he hdesc n c seat src dst mbx hsrc hdst hsize hsome hlen hmbx
      hbanks
    have hx := askedChannel_eq (n := n) (b := b) (d := d) (m := m) hsize
    have hfits : channelMisfits (askedChannel n [b, d, l, m]) l = false := by
      rw [hx]
      exact channel_fits hsize rfl hsome hlen hsrc hdst hmbx
    have hown : s3.badBanks seat n (askedChannel n [b, d, l, m]).dst.toNat ((askedChannel n [b, d, l, m]).bytes e.toNat) = false := by
      rw [bytes_channel (Nat.lt_succ_of_le he), hx]
      exact hbanks
    refine ⟨fun hst hcount s4 s5 hrelease hwrite => ?_, fun hbusy s4 hwrite => ?_⟩
    · have hfree : engineBusy s3 seat c e.toNat = false := by
        rw [← Bool.not_eq_true, engineBusy_channel he]
        exact not_or.2 ⟨not_not_intro hst, Nat.not_le.2 hcount⟩
      refine cpGo_ok hr hcore hbase hnumber he hdesc hfits (startEngine_starts hown hfree hrelease ?_)
      rw [hx]
      exact hwrite
    · exact cpGo_ok hr hcore hbase hnumber he hdesc hfits (startEngine_busy hown ((engineBusy_channel he).2 hbusy) hwrite)
  case gather =>
    intro rd rs1 rs2 s s1 s2 s3 a g b t d f m hr hcore hbase hnumber hg hdesc n c seat idx dst mbx esz len hidx hdst hsize hsome hmbx
      hbanks
    have hx := askedGather_eq (n := n) (b := b) (t := t) (d := d) (f := f) (m := m) (z := 0)
    have hfits : gatherMisfits (askedGather n [b, t, d, f, m, 0]) f 0 = false := by
      rw [hx]
      exact gather_fits hsize hsome hidx hdst hmbx
    have hown : s3.badBanks seat n (askedGather n [b, t, d, f, m, 0]).dst.toNat
        ((askedGather n [b, t, d, f, m, 0]).bytes (16 + g.toNat)) = false := by
      rw [bytes_gather, hx]
      exact hbanks
    refine ⟨fun hst s4 s5 hrelease hwrite => ?_, fun hbusy s4 hwrite => ?_⟩
    · have hfree : engineBusy s3 seat c (16 + g.toNat) = false := by
        rw [← Bool.not_eq_true, engineBusy_gather]
        exact not_not_intro hst
      refine gtGo_ok hr hcore hbase hnumber hg hdesc hfits (startEngine_starts hown hfree hrelease ?_)
      rw [hx]
      exact hwrite
    · exact gtGo_ok hr hcore hbase hnumber hg hdesc hfits (startEngine_busy hown (engineBusy_gather.2 hbusy) hwrite)
  case wait =>
    intro rd rs1 s s1 e hr hcore hread he c x mine
    have hact : (engineNumber rs1 >>= waitOn rd) s = waitOn rd e.toNat s1 := Act.bind_ok (engineNumber_ok hread he)
    have hdoes : ∀ t, waitOn rd e.toNat s1 = .ok ((), t) → Does (.cpWait rd rs1) s none t := fun t hwait =>
      (exec_cpWait rd rs1 s).trans (runComputePlain_ok hr hcore (hact.trans hwait))
    refine ⟨?answered, ?foreign, ?ended, ?faulted, ?active⟩
    case answered =>
      intro v dst bytes s2 s3 hans hdrop hwrite
      exact hdoes s3 (waitOn_answered hans hdrop hwrite)
    case foreign =>
      intro hans hother s2 hwrite
      exact hdoes s2 ((waitOn_pending hans).trans ((awaitEngine_foreign hother).trans hwrite))
    case ended =>
      rintro hans ⟨-, hseat⟩ hended s2 s3 hdrop hwrite
      exact hdoes s3 ((waitOn_pending hans).trans (awaitEngine_ended hseat hended hdrop hwrite))
    case faulted =>
      rintro hans ⟨-, hseat⟩ hst
      have htrap := hact.trans ((waitOn_pending hans).trans (awaitEngine_faulted hseat hst))
      rw [wordOfNat, BitVec.ofNat_toNat, BitVec.setWidth_eq] at htrap
      exact (exec_cpWait rd rs1 s).trans (runComputePlain_traps_clean hr hcore htrap (readX_keeps rs1 _ _ _ hread))
    case active =>
      rintro hans ⟨-, hseat⟩ hst
      exact cpWait_waits hr hcore (hact.trans ((waitOn_pending hans).trans (awaitEngine_active hseat hst)))
  case stop =>
    intro rs1 s s1 e hr hcore hread he c x
    have hdoes : ∀ t, stopOwn e.toNat s1 = .ok ((), t) → Does (.cpStop rs1) s none t := fun t hstop =>
      (exec_cpStop rs1 s).trans (runComputePlain_ok hr hcore ((Act.bind_ok (engineNumber_ok hread he)).trans hstop))
    refine ⟨fun hother => hdoes s1 (stopOwn_other hother), fun hst hseat s2 hdone => ⟨hdoes _ ?_, freeEngine_frees c e.toNat s2⟩⟩
    exact (stopOwn_own hst hseat).trans (stopEngine_ok hdone)
  case stat =>
    intro rd rs1 s s1 s2 e hr hcore hread he x hwrite
    refine (exec_cpStat rd rs1 s).trans (runComputePlain_ok hr hcore ?_)
    rw [Act.bind_ok (engineNumber_ok hread he), Act.bind_ok (myCore_apply s1), Act.bind_ok (mySeat_apply s1),
      Act.bind_ok (look_apply _ s1), statusFor_eq]
    exact hwrite
  case number =>
    intro rd rs1 s s1 e i hi hr hcore hread he
    have hs := readX_keeps rs1 _ _ _ hread
    have htrap := engineNumber_traps hread he
    simp only [List.mem_cons, List.not_mem_nil, or_false] at hi
    rcases hi with rfl | rfl | rfl
    · exact runComputePlain_traps_clean hr hcore (Act.bind_error htrap) hs
    · exact runComputePlain_traps_clean hr hcore (Act.bind_error htrap) hs
    · exact runComputePlain_traps_clean hr hcore (Act.bind_error htrap) hs
  case lands =>
    intro s s1 c e r x ag esz n hst he hflows hending hland y z
    rw [exec_copyPacketLanded hst he hflows, hending]
    refine runEvent_ok ?_
    unfold landNext
    refine (Act.bind_ok (look_apply _ s)).trans ((Act.bind_ok hland).trans ?_)
    rw [Act.bind_ok (look_apply _ s1)]
    exact upd_apply _ s1
  case ends =>
    intro s s1 c e st x y hst he hflows hending hdone
    rw [exec_copyPacketLanded hst he hflows, hending]
    exact runEvent_ok (endEngine_ok hending hdone)
  case block =>
    intro s c j hwork hsound hwritten hread
    refine ⟨_, false, exec_cmBlockFill_done ⟨hwork, hsound, hwritten, hread⟩, ?_⟩
    rw [cmFinish_cluster]
    exact ⟨rfl, by simp⟩

end Sys2Proof.Machine.CopyUnit
end

section
/-! Fences and signatures (R176 to R178, R182 to R184): what each form does between its operands and its completion, home by home. -/

namespace Sys2Proof.Machine.Coherence

open NearStorage

/-! ## Steps that a condition guards -/

/-- An action that runs under a condition before the rest. -/
theorem guarded_ok {b : Bool} {x : Act Unit} {k : Unit → Act Unit} {s t : State}
    (hx : if b then Gives x s () t else t = s) : (if b = true then x >>= k else k ()) s = k () t := by
  cases b with
  | false =>
    obtain rfl : t = s := hx
    rfl
  | true => exact Act.bind_ok hx

/-! ## fence.s and acq (R182) -/

theorem fenceS_idle {scope : Scope} {pred succ : BitVec 2} {s : State} (hr : Ready (.fenceS scope pred succ) s)
    (h : pred.getLsbD 0 = false ∨ scope = .thr) : Does (.fenceS scope pred succ) s none s := by
  have hoff : (pred.getLsbD 0 && scope != .thr) = false := by
    rcases h with h | h
    · rw [h, Bool.false_and]
    · rw [h, bne_self_eq_false, Bool.and_false]
  refine runPlain_ok hr ?_
  rw [hoff]
  rfl

theorem fenceS_releases {scope : Scope} {pred succ : BitVec 2} {s s1 : State} (hr : Ready (.fenceS scope pred succ) s)
    (hw : pred.getLsbD 0 = true) (hscope : scope ≠ .thr) (hrelease : release scope s = .ok ((), s1)) :
    Does (.fenceS scope pred succ) s none s1 := by
  have hon : (pred.getLsbD 0 && scope != .thr) = true := by simp [hw, hscope]
  refine runPlain_ok hr ?_
  rw [hon]
  exact hrelease

theorem acq_idle {full : Bool} {scope : Scope} {s : State} (hr : Ready (.acq full scope) s)
    (h : full = false ∨ scopeCached scope = true) : Does (.acq full scope) s none s := by
  have hoff : (full && !scopeCached scope) = false := by
    rcases h with h | h
    · rw [h, Bool.false_and]
    · rw [h, Bool.not_true, Bool.and_false]
  refine runPlain_ok hr ?_
  rw [hoff]
  rfl

theorem acq_acquires {scope : Scope} {s s1 : State} (hr : Ready (.acq true scope) s) (hscope : scopeCached scope = false)
    (hacquire : acquireFull s = .ok ((), s1)) : Does (.acq true scope) s none s1 := by
  refine runPlain_ok hr ?_
  rw [hscope]
  exact hacquire

theorem orSig_sigs (n seat : Nat) (sig : BitVec 512) (s : State) :
    ((orSig n seat sig s).core n).sigs.get 0 seat = (s.core n).sigs.get 0 seat ||| sig := by
  simp [orSig, State.modCore]

/-- A full acquire leaves the seat's signature all ones, whatever its drops did (R178). -/
theorem acquireFull_sig {s s1 : State} (h : acquireFull s = .ok ((), s1)) :
    (s1.core (coreOf s.cur)).sigs.get 0 ((s.thr s.cur).seat.getD 0) = BitVec.allOnes 512 := by
  unfold acquireFull at h
  rw [Act.bind_ok (meAgent_apply s)] at h
  obtain ⟨_, t, -, hupd⟩ := Act.bind_inv h
  cases hupd
  exact (orSig_sigs _ _ _ t).trans BitVec.or_allOnes

/-! ## sig.pub (R183) -/

/-- The sectors that a sig.pub writes are noted in the seat's signature before the rest (R178). -/
def noteRecord (h : HomeAt) (rest : Act Unit) : Act Unit := do
  match h with
  | .page va _ =>
    noteSector (← meAgent) va
    noteSector (← meAgent) (va + 64)
  | _ => pure ()
  rest

theorem noteRecord_page {va : Nat} {x : Xlated} {rest : Act Unit} {s t : State}
    (hnote : (noteSector (s.agent s.cur) va >>= fun _ => noteSector (s.agent s.cur) (va + 64)) s = .ok ((), t)) :
    noteRecord (.page va x) rest s = rest t := by
  obtain ⟨_, u, hlow, hhigh⟩ := Act.bind_inv hnote
  have hagent : u.agent u.cur = s.agent s.cur := by
    rw [noteSector, upd_apply] at hlow
    cases hlow
    rfl
  unfold noteRecord
  refine (Act.bind_ok (meAgent_apply s)).trans ((Act.bind_ok hlow).trans ((Act.bind_ok (meAgent_apply u)).trans ?_))
  rw [hagent]
  exact Act.bind_ok hhigh

/-- The release of a sig.pub, which takes the seat's signature, and its updates at the home. -/
def publishRecord (add : Bool) (scope : Scope) (v : Word) (h : HomeAt) : Act Unit := do
  release scope
  publish h (.pub add v (← takeSig))

theorem exec_sigPub (add : Bool) (scope : Scope) (rs1 rs2 : Reg) (s : State) :
    exec (.sigPub add scope rs1 rs2) s = runPlain (.sigPub add scope rs1 rs2) (do
      let a ← readX rs1
      let v ← readX rs2
      trapIf (a.toNat % 128 != 0) 4 0 a
      let h ← homeOrTrap 6 a needRW 128
      settleRelease
      noteRecord h (publishRecord add scope v h)) s := rfl

theorem publishRecord_ok {add : Bool} {scope : Scope} {v : Word} {h : HomeAt} {s s1 s2 : State}
    (hrelease : release scope s = .ok ((), s1))
    (hpublish : publish h (.pub add v ((s1.core (coreOf s1.cur)).sigs.get 0 ((s1.thr s1.cur).seat.getD 0)))
      (s1.modCore (coreOf s1.cur) fun c => { c with sigs := c.sigs.set ((s1.thr s1.cur).seat.getD 0) 0 }) = .ok ((), s2)) :
    publishRecord add scope v h s = .ok ((), s2) := by
  unfold publishRecord
  rw [Act.bind_ok hrelease]
  exact hpublish

theorem sigPub_does {add : Bool} {scope : Scope} {rs1 rs2 : Reg} {a v : Word} {h : HomeAt} {s s1 s2 s3 s4 t : State}
    (hr : Ready (.sigPub add scope rs1 rs2) s) (hbase : readX rs1 s = .ok (a, s1)) (hvalue : readX rs2 s1 = .ok (v, s2))
    (haligned : a.toNat % 128 = 0) (hhome : homeOrTrap 6 a needRW 128 s2 = .ok (h, s3))
    (hsettle : settleRelease s3 = .ok ((), s4)) (hrest : noteRecord h (publishRecord add scope v h) s4 = .ok ((), t)) :
    Does (.sigPub add scope rs1 rs2) s none t := by
  refine (exec_sigPub add scope rs1 rs2 s).trans (runPlain_ok hr ?_)
  rw [Act.bind_ok hbase, Act.bind_ok hvalue, Act.bind_ok (trapIf_pass (bne_eq_false_iff_eq.2 haligned)), Act.bind_ok hhome,
    Act.bind_ok hsettle]
  exact hrest

/-! ## sig.inv (R183) -/

/-- What a sig.inv does before it reads its record: the record's home holds every earlier write of the core and its bytes are there. -/
def reachRecord (ag : Agent) (a : Word) (h : HomeAt) (rest : Act Unit) : Act Unit := do
  match h with
  | .page va x =>
    cleanWhere ag fun b => b.overlaps va 128
    performBefore ag.core x.pa 128
    for o in [0, 64] do
      match ← readHome ag (x.pa + o) 64 with
      | .error b => raise 5 a (.bad b)
      | .ok _ => pure ()
  | .cm c off =>
    performSent ag.core (8192 + c)
    request ag h.addr 0 128
    match ← cmExpand ag c (off / 512) with
    | .error f => raise 5 a f
    | .ok _ => pure ()
  | .bank m _ =>
    performSent ag.core m
    request ag h.addr 0 128
  rest

/-- What a sig.inv does with its record: it gives the flag, acquires with the field, and drops what the core holds of the record. -/
def takeRecord (ag : Agent) (scope : Scope) (rd : Reg) (a : Word) (h : HomeAt) : Act Unit := do
  match ← look fun s => (s.poisonAt h.addr).or (s.poisonAt (h.addr + 64)) with
  | some sub => raise 5 a (.bad (.data sub))
  | none => pure ()
  let flag ← look fun s => s.load h.addr 8
  let field ← look fun s => s.load (h.addr + 64) 64
  acquireSig scope (BitVec.ofNat 512 field)
  match h with
  | .page va _ => dropWhere ag (fun b => b.overlaps va 128) false
  | _ => pure ()
  writeX rd (wordOfNat flag)

theorem exec_sigInv (scope : Scope) (rd rs1 : Reg) (s : State) :
    exec (.sigInv scope rd rs1) s = runPlain (.sigInv scope rd rs1) (do
      let a ← readX rs1
      trapIf (a.toNat % 128 != 0) 4 0 a
      let ag ← meAgent
      let h ← homeOrTrap 5 a needR 128
      waitOwnStores ag h.addr 128
      reachRecord ag a h (takeRecord ag scope rd a h)) s := rfl

theorem sigInv_does {scope : Scope} {rd rs1 : Reg} {a : Word} {h : HomeAt} {s s1 s2 s3 t : State}
    (hr : Ready (.sigInv scope rd rs1) s) (hread : readX rs1 s = .ok (a, s1)) (haligned : a.toNat % 128 = 0)
    (hhome : homeOrTrap 5 a needR 128 s1 = .ok (h, s2)) (hwait : waitOwnStores (s1.agent s1.cur) h.addr 128 s2 = .ok ((), s3))
    (hrest : reachRecord (s1.agent s1.cur) a h (takeRecord (s1.agent s1.cur) scope rd a h) s3 = .ok ((), t)) :
    Does (.sigInv scope rd rs1) s none t := by
  refine (exec_sigInv scope rd rs1 s).trans (runPlain_ok hr ?_)
  rw [Act.bind_ok hread, Act.bind_ok (trapIf_pass (bne_eq_false_iff_eq.2 haligned)), Act.bind_ok (meAgent_apply s1),
    Act.bind_ok hhome, Act.bind_ok hwait]
  exact hrest

section Reach

variable {ag : Agent} {a : Word} {rest : Act Unit} {s s1 s2 s3 s4 : State}

theorem reachRecord_bank {m off : Nat} (hsent : performSent ag.core m s = .ok ((), s1))
    (hasked : request ag (bankAddr m off) 0 128 s1 = .ok ((), s2)) : reachRecord ag a (.bank m off) rest s = rest s2 := by
  unfold reachRecord
  exact (Act.bind_ok hsent).trans (Act.bind_ok hasked)

theorem reachRecord_cm {c off : Nat} (hsent : performSent ag.core (8192 + c) s = .ok ((), s1))
    (hasked : request ag (cmAddr c off) 0 128 s1 = .ok ((), s2)) (hexpand : cmExpand ag c (off / 512) s2 = .ok (.ok (), s3)) :
    reachRecord ag a (.cm c off) rest s = rest s3 := by
  unfold reachRecord
  exact (Act.bind_ok hsent).trans ((Act.bind_ok hasked).trans (Act.bind_ok hexpand))

theorem reachRecord_page {va v w : Nat} {x : Xlated} (hclean : cleanWhere ag (fun b => b.overlaps va 128) s = .ok ((), s1))
    (hbefore : performBefore ag.core x.pa 128 s1 = .ok ((), s2)) (hlow : readHome ag x.pa 64 0 s2 = .ok (.ok v, s3))
    (hhigh : readHome ag (x.pa + 64) 64 0 s3 = .ok (.ok w, s4)) : reachRecord ag a (.page va x) rest s = rest s4 := by
  unfold reachRecord
  refine (Act.bind_ok hclean).trans ((Act.bind_ok hbefore).trans ?_)
  refine Act.bind_ok (a := PUnit.unit) ?_
  rw [List.forIn_cons]
  refine (Act.bind_ok ((Act.bind_ok hlow).trans rfl)).trans ?_
  dsimp only
  rw [List.forIn_cons]
  exact (Act.bind_ok ((Act.bind_ok hhigh).trans rfl)).trans rfl

end Reach

/-- What the core holds of a record that stands in a page leaves it. -/
def dropRecord (ag : Agent) : HomeAt → Act Unit
  | .page va _ => dropWhere ag (fun b => b.overlaps va 128) false
  | _ => pure ()

theorem takeRecord_ok {ag : Agent} {scope : Scope} {rd : Reg} {a : Word} {h : HomeAt} {s s1 s2 s3 : State}
    (hflag : s.poisonAt h.addr = none) (hfield : s.poisonAt (h.addr + 64) = none)
    (hacquire : acquireSig scope (BitVec.ofNat 512 (s.load (h.addr + 64) 64)) s = .ok ((), s1))
    (hdrop : dropRecord ag h s1 = .ok ((), s2)) (hwrite : writeX rd (BitVec.ofNat 64 (s.load h.addr 8)) s2 = .ok ((), s3)) :
    takeRecord ag scope rd a h s = .ok ((), s3) := by
  unfold takeRecord
  rw [Act.bind_ok (look_apply _ s), hflag, hfield]
  refine (Act.bind_ok (look_apply _ s)).trans ((Act.bind_ok (look_apply _ s)).trans ((Act.bind_ok hacquire).trans ?_))
  cases h with
  | page va x => exact (Act.bind_ok hdrop).trans hwrite
  | cm c off =>
    cases hdrop
    exact hwrite
  | bank m off =>
    cases hdrop
    exact hwrite

/-! ## fence.eng (R184) -/

/-- What fence.eng does once it has reported a held fault: it waits for the named engines and acquires with what they keep. -/
def acquireEngines (t : Nat) (mask : BitVec 4) : Act Unit := do
  let es := (List.range 4).filter fun e => mask.getLsbD e
  if ← look fun s => es.any fun e => s.enginePending t e then hold
  let th ← me
  let sig := es.foldl (fun x e => x ||| th.engSigs.get 0 e) 0
  acquireSig .oct sig

theorem exec_fenceEng (mask : BitVec 4) (s : State) : exec (.fenceEng mask) s = runPlain (.fenceEng mask) (do
    let t ← cur
    if mask.getLsbD 0 then reportHeld
    acquireEngines t mask) s := rfl

theorem acquireEngines_ok {t : Nat} {mask : BitVec 4} {s s1 : State}
    (hidle : ∀ e, e < 4 → mask.getLsbD e = true → s.enginePending t e = false)
    (hacquire : acquireSig .oct ((List.range 4).foldl (fun x e =>
      if mask.getLsbD e then x ||| (s.thr s.cur).engSigs.get 0 e else x) 0) s = .ok ((), s1)) :
    acquireEngines t mask s = .ok ((), s1) := by
  have hnone : (((List.range 4).filter fun e => mask.getLsbD e).any fun e => s.enginePending t e) = false := by
    simpa using hidle
  unfold acquireEngines
  dsimp only
  rw [Act.bind_ok (look_apply _ s), hnone]
  refine (Act.bind_ok (me_apply s)).trans ?_
  rw [List.foldl_filter]
  exact hacquire

/-- Settles O28: each fence acts where its scope and class say so; sig.pub and sig.inv reach their record at its home, be it a bank,
cluster memory or a page, and fence.eng acquires once the engines that it names are idle. -/
theorem fences : Obligations.Fences := by
  refine ⟨?fenceIdle, ?fenceReleases, ?acqIdle, ?acqFull, ?rel, ?sigPub, ?invBank, ?invCm, ?invPage, ?eng⟩
  case fenceIdle =>
    intro scope pred succ s hr h
    exact fenceS_idle hr h
  case fenceReleases =>
    intro scope pred succ s s1 hr hw hscope hrelease
    exact fenceS_releases hr hw hscope hrelease
  case acqIdle =>
    intro full scope s hr h
    exact acq_idle hr h
  case acqFull =>
    intro scope s s1 hr hscope hacquire
    exact ⟨acq_acquires hr hscope hacquire, acquireFull_sig hacquire⟩
  case rel =>
    intro scope s hr
    exact runPlain_ok hr (modMe_apply _ s)
  case sigPub =>
    intro add scope rs1 rs2 s s1 s2 s3 s4 s5 s6 s7 a v h hr hbase hvalue haligned hhome hsettle hnote hrelease n seat hpublish
    have hnoted : noteRecord h (publishRecord add scope v h) s4 = publishRecord add scope v h s5 := by
      cases h with
      | page va x => exact noteRecord_page hnote
      | cm c off =>
        obtain rfl : s5 = s4 := hnote
        rfl
      | bank m off =>
        obtain rfl : s5 = s4 := hnote
        rfl
    exact sigPub_does hr hbase hvalue haligned hhome hsettle (hnoted.trans (publishRecord_ok hrelease hpublish))
  case invBank =>
    intro scope rd rs1 s s1 s2 s3 s4 s5 a h hr hread haligned hhome hreach hflag hfield hacquire hwrite
    obtain ⟨m, off, rfl, hreach⟩ := hreach
    obtain ⟨_, u, hwait, hreach⟩ := Act.bind_inv hreach
    obtain ⟨_, w, hsent, hasked⟩ := Act.bind_inv hreach
    have htake : takeRecord (s1.agent s1.cur) scope rd a (.bank m off) s3 = .ok ((), s5) :=
      takeRecord_ok hflag hfield hacquire rfl hwrite
    exact sigInv_does hr hread haligned hhome hwait ((reachRecord_bank (ag := s1.agent s1.cur) hsent hasked).trans htake)
  case invCm =>
    intro scope rd rs1 s s1 s2 s3 s4 s5 s6 a c off hr hread haligned hhome hreach hexpand hflag hfield hacquire hwrite
    obtain ⟨_, u, hwait, hreach⟩ := Act.bind_inv hreach
    obtain ⟨_, w, hsent, hasked⟩ := Act.bind_inv hreach
    have htake : takeRecord (s1.agent s1.cur) scope rd a (.cm c off) s4 = .ok ((), s6) :=
      takeRecord_ok hflag hfield hacquire rfl hwrite
    exact sigInv_does hr hread haligned hhome hwait ((reachRecord_cm (ag := s1.agent s1.cur) hsent hasked hexpand).trans htake)
  case invPage =>
    intro scope rd rs1 s s1 s2 s3 s4 s5 s6 s7 s8 s9 a va x v w hr hread haligned hhome ag hwait hclean hbefore hlow hhigh hflag
      hfield hacquire hwrite
    obtain ⟨_, u, hacquire, hdrop⟩ := Act.bind_inv hacquire
    have htake : takeRecord ag scope rd a (.page va x) s7 = .ok ((), s9) := takeRecord_ok hflag hfield hacquire hdrop hwrite
    exact sigInv_does hr hread haligned hhome hwait ((reachRecord_page (ag := ag) hclean hbefore hlow hhigh).trans htake)
  case eng =>
    intro mask s s1 s2 hr hreport hidle hacquire
    refine (exec_fenceEng mask s).trans (runPlain_ok hr ?_)
    rw [Act.bind_ok (cur_apply s)]
    exact (guarded_ok hreport).trans (acquireEngines_ok hidle hacquire)

end Sys2Proof.Machine.Coherence
end

section
/-! Atomics (R187, R188): the update at the home that the ten atomics and sc share, and what a doubleword of a bank gives and receives. -/

namespace Sys2Proof.Machine.Coherence

open NearStorage

/-! ## The update at the home (R188) -/

/-- What an atomic does from its checks to the doubleword at its home, which `rest` then resolves. -/
def atHome (rl scx : Bool) (a : Word) (rest : HomeAt → Word → Act Unit) : Act Unit := do
  trapIf (a.toNat % 8 != 0) 4 0 a
  let h ← homeOrTrap 6 a needRW
  settleRelease
  if rl then release (scxScope scx)
  let old ← atomicOld 6 a h
  rest h old

theorem atHome_ok {rl scx : Bool} {a old : Word} {h : HomeAt} {rest : HomeAt → Word → Act Unit} {s s1 s2 s3 s4 : State}
    (haligned : a.toNat % 8 = 0) (hhome : homeOrTrap 6 a needRW 8 s = .ok (h, s1)) (hsettle : settleRelease s1 = .ok ((), s2))
    (hrelease : if rl then Gives (release (if scx then .host else .part)) s2 () s3 else s3 = s2)
    (hreach : atomicOld 6 a h s3 = .ok (old, s4)) : atHome rl scx a rest s = rest h old s4 := by
  unfold atHome
  rw [Act.bind_ok (trapIf_pass (bne_eq_false_iff_eq.2 haligned)), Act.bind_ok hhome, Act.bind_ok hsettle]
  exact (guarded_ok hrelease).trans (Act.bind_ok hreach)

/-! ## The ten atomics (R187, R188) -/

/-- What an atomic does with the old value: it writes the new one, if there is one, and gives the old. -/
def amoResolve (func : Nat) (rd : Reg) (v e : Word) (h : HomeAt) (old : Word) : Act Unit := do
  match amoValue func old v e with
  | some w => atomicWrite h w
  | none => pure ()
  writeX rd old

theorem amo_eq (func : Nat) (rl scx : Bool) (rd rs1 rs2 : Reg) : amo func rl scx rd rs1 rs2 = (do
    let a ← readX rs1
    let v ← readX rs2
    let e ← if func = 9 then readX rd else pure 0
    atHome rl scx a (amoResolve func rd v e)) := rfl

theorem amoResolve_ok {func : Nat} {rd : Reg} {v e old : Word} {h : HomeAt} {s s1 s2 : State}
    (hwrite : match amoValue func old v e with | some w => Gives (atomicWrite h w) s () s1 | none => s1 = s)
    (hgive : writeX rd old s1 = .ok ((), s2)) : amoResolve func rd v e h old s = .ok ((), s2) := by
  unfold amoResolve
  cases hnew : amoValue func old v e with
  | none =>
    rw [hnew] at hwrite
    obtain rfl : s1 = s := hwrite
    exact hgive
  | some w =>
    rw [hnew] at hwrite
    exact (Act.bind_ok hwrite).trans hgive

/-- A form that runs the atomic of a FUNC is atomic with that FUNC's new value; only FUNC 9 compares. -/
theorem amo_atomically {mk : Bool → Bool → Bool → Reg → Reg → Reg → Instr} {func : Nat} {compares : Bool}
    {f : Word → Word → Word → Option Word}
    (hexec : ∀ aq rl scx rd rs1 rs2 s, exec (mk aq rl scx rd rs1 rs2) s =
      runPlain (mk aq rl scx rd rs1 rs2) (amo func rl scx rd rs1 rs2) s)
    (hcompares : compares = true ↔ func = 9) (hvalue : ∀ old v e, amoValue func old v e = f old v e) :
    Atomically mk compares f := by
  intro aq rl scx rd rs1 rs2 s s1 s2 s3 s4 s5 s6 s7 s8 s9 a v e h old hr hbase hoperand hcompared haligned hhome hsettle hrelease
    hreach hwrite hgive
  rw [← hvalue] at hwrite
  have hrest : (atHome rl scx a (amoResolve func rd v e)) s3 = .ok ((), s9) :=
    (atHome_ok haligned hhome hsettle hrelease hreach).trans (amoResolve_ok hwrite hgive)
  refine (hexec aq rl scx rd rs1 rs2 s).trans (runPlain_ok hr ?_)
  rw [amo_eq, Act.bind_ok hbase, Act.bind_ok hoperand]
  by_cases hfunc : func = 9
  · rw [if_pos (hcompares.2 hfunc)] at hcompared
    rw [if_pos hfunc]
    exact (Act.bind_ok hcompared).trans hrest
  · rw [if_neg (mt hcompares.1 hfunc)] at hcompared
    obtain ⟨rfl, rfl⟩ := hcompared
    rw [if_neg hfunc]
    exact hrest

/-- A signed comparison of words is that of their integers. -/
theorem ite_slt (x y a b : Word) : (if x.slt y then a else b) = if x.toInt < y.toInt then a else b := by
  simp only [BitVec.slt_iff_toInt_lt]

/-! ## A doubleword of a bank (R188) -/

section Bank

variable {ag : Agent} {s : State}

theorem waitOwnStores_none {a n : Nat} (h : (s.core ag.core).rstores = []) : waitOwnStores ag a n s = .ok ((), s) := by
  unfold waitOwnStores
  rw [Act.bind_ok (look_apply _ s), h]
  rfl

theorem performSent_none {n dest : Nat} (h : (s.core n).rstores = []) : performSent n dest s = .ok ((), s) := by
  have hsent : (s.core n).sentTo dest = [] := by simp [Core.sentTo, h]
  unfold performSent
  rw [Act.bind_ok (look_apply _ s), hsent]
  rfl

/-- A doubleword of a bank is read where no store of the core stands before it, no bucket makes its request wait, and it is not
poisoned. -/
theorem atomicOld_bank {cause : BitVec 8} {a : Word} {m off : Nat} {t : State} (hoff : off < 0x60000)
    (hstores : (s.core (coreOf s.cur)).rstores = []) (hasked : request (s.agent s.cur) (bankAddr m off) 8 8 s = .ok ((), t))
    (hgood : t.poisonAt (bankAddr m off) = none) :
    atomicOld cause a (.bank m off) s = .ok (BitVec.ofNat 64 (t.load (bankAddr m off) 8), t) := by
  unfold atomicOld
  rw [Act.bind_ok (meAgent_apply s), Act.bind_ok (waitOwnStores_none hstores)]
  refine (Act.bind_ok (performSent_none hstores)).trans ((Act.bind_ok hasked).trans ?_)
  rw [if_pos hoff]
  refine (Act.bind_ok (look_apply _ t)).trans ?_
  rw [show t.poisonAt (HomeAt.bank m off).addr = none from hgood]
  rfl

theorem atomicWrite_bank {m off : Nat} {v : Word} (hoff : off < 0x60000) :
    atomicWrite (.bank m off) v s = .ok ((), s.store (bankAddr m off) 8 v.toNat) := by
  unfold atomicWrite
  rw [Act.bind_ok (meAgent_apply s)]
  exact congrFun (if_pos hoff) s

end Bank

/-! ## Reading back what was stored (R6) -/

@[simp] theorem bytesOf_length (n v : Nat) : (bytesOf n v).length = n := by
  induction n generalizing v with
  | zero => rfl
  | succ n ih => simp [bytesOf, ih]

theorem bytesVal_bytesOf (n v : Nat) : bytesVal (bytesOf n v) = v % 256 ^ n := by
  induction n generalizing v with
  | zero => simp [bytesOf, bytesVal, Nat.mod_one]
  | succ n ih =>
    rw [bytesOf, bytesVal, ih, Nat.pow_succ', Nat.mod_mul, BitVec.toNat_ofNat]

theorem readCells_writeCells (bs : List Byte) (a : Nat) {m : List Host.Cell} (h : memCanonical m = true) :
    readCells (writeCells a bs m) a bs.length = bs := by
  induction bs generalizing a m with
  | nil => rfl
  | cons b bs ih =>
    have hfirst := readCell_writeCells_inside (b :: bs) a 0 h (Nat.succ_pos _)
    rw [List.length_cons, readCells, writeCells, ih (a + 1) (writeCell_canonical a b h)]
    exact congrArg (· :: bs) hfirst

/-- A value of n bytes reads back as it was stored. -/
theorem load_store (s : State) (a n v : Nat) (h : memCanonical s.mem = true) : (s.store a n v).load a n = v % 256 ^ n := by
  have hread := readCells_writeCells (bytesOf n v) a h
  rw [bytesOf_length] at hread
  exact (congrArg bytesVal hread).trans (bytesVal_bytesOf n v)

theorem readCell_store_outside (s : State) {a n x : Nat} (v : Nat) (h : memCanonical s.mem = true) (hx : x < a ∨ a + n ≤ x) :
    readCell (s.store a n v).mem x = readCell s.mem x :=
  readCell_writeCells_outside (bytesOf n v) a x h (by rwa [bytesOf_length])

/-- Settles O29: one action serves the ten forms, each with its own new value; a doubleword of a bank is read at its home and
written there as any store is. -/
theorem atomics : Obligations.Atomics := by
  refine ⟨?add, ?swap, ?and, ?or, ?xor, ?min, ?max, ?minn, ?maxn, ?cas, ?bankRead, ?bankWrite⟩
  case add =>
    exact amo_atomically (func := 0) (fun _ _ _ _ _ _ _ => rfl) (by decide) fun old v _ => congrArg some (BitVec.add_def old v)
  case swap => exact amo_atomically (func := 1) (fun _ _ _ _ _ _ _ => rfl) (by decide) fun _ _ _ => rfl
  case and => exact amo_atomically (func := 2) (fun _ _ _ _ _ _ _ => rfl) (by decide) fun _ _ _ => rfl
  case or => exact amo_atomically (func := 3) (fun _ _ _ _ _ _ _ => rfl) (by decide) fun _ _ _ => rfl
  case xor => exact amo_atomically (func := 4) (fun _ _ _ _ _ _ _ => rfl) (by decide) fun _ _ _ => rfl
  case min =>
    exact amo_atomically (func := 5) (fun _ _ _ _ _ _ _ => rfl) (by decide) fun old v _ => congrArg some (ite_slt old v old v)
  case max =>
    exact amo_atomically (func := 6) (fun _ _ _ _ _ _ _ => rfl) (by decide) fun old v _ => congrArg some (ite_slt old v v old)
  case minn => exact amo_atomically (func := 7) (fun _ _ _ _ _ _ _ => rfl) (by decide) fun _ _ _ => rfl
  case maxn => exact amo_atomically (func := 8) (fun _ _ _ _ _ _ _ => rfl) (by decide) fun _ _ _ => rfl
  case cas => exact amo_atomically (func := 9) (fun _ _ _ _ _ _ _ => rfl) (by decide) fun _ _ _ => rfl
  case bankRead =>
    intro s s1 a m off hoff hstores hasked hgood
    exact atomicOld_bank hoff hstores hasked hgood
  case bankWrite =>
    intro s m off v hoff hmem
    refine ⟨_, atomicWrite_bank hoff, ?_, fun a ha => readCell_store_outside s v.toNat hmem ha⟩
    rw [load_store s _ _ _ hmem]
    exact Nat.mod_eq_of_lt v.isLt

end Sys2Proof.Machine.Coherence
end

section
/-! lr, sc and the reservation between them (R188, R189). -/

namespace Sys2Proof.Machine.Coherence

open NearStorage

/-! ## lr (R188, R189) -/

/-- A thread with a reservation taken at an address in a cycle. -/
def reserve (addr cycle : Nat) (th : Thread) : Thread := { th with resv := some { addr := addr, cycle := cycle } }

/-- A thread without its reservation. -/
def unreserve (th : Thread) : Thread := { th with resv := none }

theorem exec_lr (aq rl scx : Bool) (rd rs1 : Reg) (s : State) :
    exec (.lr aq rl scx rd rs1) s = runPlain (.lr aq rl scx rd rs1) (do
      let a ← readX rs1
      trapIf (a.toNat % 8 != 0) 4 0 a
      let h ← homeOrTrap 5 a needR
      if rl then release (scxScope scx)
      let old ← atomicOld 5 a h
      let now ← look fun s => s.cycle
      modMe (reserve h.addr now)
      writeX rd old) s := rfl

theorem lr_does {aq rl scx : Bool} {rd rs1 : Reg} {a old : Word} {h : HomeAt} {s s1 s2 s3 s4 s5 : State}
    (hr : Ready (.lr aq rl scx rd rs1) s) (hread : readX rs1 s = .ok (a, s1)) (haligned : a.toNat % 8 = 0)
    (hhome : homeOrTrap 5 a needR 8 s1 = .ok (h, s2))
    (hrelease : if rl then Gives (release (if scx then .host else .part)) s2 () s3 else s3 = s2)
    (hreach : atomicOld 5 a h s3 = .ok (old, s4))
    (hwrite : writeX rd old (s4.modThr s4.cur (reserve h.addr s4.cycle)) = .ok ((), s5)) :
    Does (.lr aq rl scx rd rs1) s none s5 := by
  refine (exec_lr aq rl scx rd rs1 s).trans (runPlain_ok hr ?_)
  rw [Act.bind_ok hread, Act.bind_ok (trapIf_pass (bne_eq_false_iff_eq.2 haligned)), Act.bind_ok hhome]
  refine (guarded_ok hrelease).trans ((Act.bind_ok hreach).trans ?_)
  rw [Act.bind_ok (look_apply _ s4), Act.bind_ok (modMe_apply _ s4)]
  exact hwrite

/-! ## sc (R188, R189) -/

/-- A reservation is held on the doubleword at a home and is younger than its life in the cycle `now`. -/
def holdsAt (h : HomeAt) (now : Nat) : Option Resv → Bool
  | some r => r.addr == h.addr && decide (now < r.cycle + resvLife)
  | none => false

theorem holdsAt_iff {h : HomeAt} {now : Nat} {o : Option Resv} :
    holdsAt h now o = true ↔ ∃ r, o = some r ∧ r.addr = h.addr ∧ now < r.cycle + 1024 := by
  cases o with
  | none => simp [holdsAt]
  | some r =>
    have heq : holdsAt h now (some r) = (r.addr == h.addr && decide (now < r.cycle + 1024)) := rfl
    simp [heq]

/-- What sc does once the doubleword has been reached: it writes where the reservation is held, and ends it. -/
def scResolve (rd : Reg) (v : Word) (h : HomeAt) : Act Unit := do
  let now ← look fun s => s.cycle
  let ok := holdsAt h now (← me).resv
  if ok then atomicWrite h v
  modMe unreserve
  writeX rd (if ok then 0 else 1)

theorem exec_sc (aq rl scx : Bool) (rd rs1 rs2 : Reg) (s : State) :
    exec (.sc aq rl scx rd rs1 rs2) s = runPlain (.sc aq rl scx rd rs1 rs2) (do
      let a ← readX rs1
      let v ← readX rs2
      atHome rl scx a fun h _ => scResolve rd v h) s := rfl

section Sc

variable {rd : Reg} {v : Word} {h : HomeAt} {s s1 s2 : State}

theorem scResolve_held (hheld : holdsAt h s.cycle (s.thr s.cur).resv = true) (hstore : atomicWrite h v s = .ok ((), s1))
    (hwrite : writeX rd 0 (s1.modThr s1.cur unreserve) = .ok ((), s2)) : scResolve rd v h s = .ok ((), s2) := by
  unfold scResolve
  rw [Act.bind_ok (look_apply _ s), Act.bind_ok (me_apply s), hheld]
  exact (Act.bind_ok hstore).trans ((Act.bind_ok (modMe_apply _ s1)).trans hwrite)

theorem scResolve_lost (hlost : holdsAt h s.cycle (s.thr s.cur).resv = false)
    (hwrite : writeX rd 1 (s.modThr s.cur unreserve) = .ok ((), s1)) : scResolve rd v h s = .ok ((), s1) := by
  unfold scResolve
  rw [Act.bind_ok (look_apply _ s), Act.bind_ok (me_apply s), hlost]
  exact (Act.bind_ok (modMe_apply _ s)).trans hwrite

end Sc

theorem sc_does {aq rl scx : Bool} {rd rs1 rs2 : Reg} {a v : Word} {s s1 s2 t : State} (hr : Ready (.sc aq rl scx rd rs1 rs2) s)
    (hbase : readX rs1 s = .ok (a, s1)) (hvalue : readX rs2 s1 = .ok (v, s2))
    (hrest : atHome rl scx a (fun h _ => scResolve rd v h) s2 = .ok ((), t)) : Does (.sc aq rl scx rd rs1 rs2) s none t := by
  refine (exec_sc aq rl scx rd rs1 rs2 s).trans (runPlain_ok hr ?_)
  rw [Act.bind_ok hbase, Act.bind_ok hvalue]
  exact hrest

/-! ## The end of a reservation (R189) -/

theorem reservationTimeout_ends {tid : Nat} {s : State} {r : Resv} (hresv : (s.thr tid).resv = some r)
    (hexpired : r.cycle + 1024 ≤ s.cycle) : exec (.reservationTimeout tid) s = .next (s.modThr tid unreserve) := by
  refine runEvent_ok ?_
  rw [Act.bind_ok (look_apply _ s), hresv]
  exact (Act.bind_ok (look_apply _ s)).trans (congrFun (if_pos hexpired) s)

theorem get_mapVals {V : Type} (m : NMap V) (f : Nat → V → V) (d : V) (i : Nat) (h : f i d = d) :
    (m.mapVals f).get d i = f i (m.get d i) := by
  obtain ⟨cells⟩ := m
  simp only [NMap.get, NMap.mapVals]
  induction cells with
  | nil => exact h.symm
  | cons c cells ih =>
    obtain ⟨k, v⟩ := c
    by_cases hk : k = i
    · simp [lookupCells, hk]
    · simpa [lookupCells, hk] using ih

theorem storeBytes_thr (s : State) (a : Nat) (bs : List Byte) (t : Nat) :
    (s.storeBytes a bs).thr t = dropResv a bs.length (s.thr t) :=
  get_mapVals s.threads _ _ t rfl

theorem dropResv_overlapping {a n : Nat} {th : Thread} {r : Resv} (hresv : th.resv = some r) (hend : r.addr < a + n)
    (hstart : a < r.addr + 8) : (dropResv a n th).resv = none := by
  simp [dropResv, hresv, hend, hstart]

/-- Settles O30: lr takes the reservation at the home; sc resolves by whether it is held there, and ends it; time and a store of some of
its bytes end it too. -/
theorem reservations : Obligations.Reservations := by
  refine ⟨?lr, ?scHeld, ?scLost, ?timeout, ?store⟩
  case lr =>
    intro aq rl scx rd rs1 s s1 s2 s3 s4 s5 a h old hr hread haligned hhome hrelease hreach hwrite
    exact lr_does hr hread haligned hhome hrelease hreach hwrite
  case scHeld =>
    intro aq rl scx rd rs1 rs2 s s1 s2 s3 s4 s5 s6 s7 s8 a v h old r hr hbase hvalue haligned hhome hsettle hrelease hreach hresv
      haddr hyoung hstore hwrite
    have hheld : holdsAt h s6.cycle (s6.thr s6.cur).resv = true := holdsAt_iff.2 ⟨r, hresv, haddr, hyoung⟩
    exact sc_does hr hbase hvalue ((atHome_ok haligned hhome hsettle hrelease hreach).trans (scResolve_held hheld hstore hwrite))
  case scLost =>
    intro aq rl scx rd rs1 rs2 s s1 s2 s3 s4 s5 s6 s8 a v h old hr hbase hvalue haligned hhome hsettle hrelease hreach hnone hwrite
    have hlost : holdsAt h s6.cycle (s6.thr s6.cur).resv = false := by
      refine Bool.eq_false_iff.2 fun hheld => ?_
      obtain ⟨r, hresv, haddr, hyoung⟩ := holdsAt_iff.1 hheld
      rcases hnone r hresv with hother | hexpired
      · exact hother haddr
      · exact Nat.not_lt.2 hexpired hyoung
    exact sc_does hr hbase hvalue ((atHome_ok haligned hhome hsettle hrelease hreach).trans (scResolve_lost hlost hwrite))
  case timeout =>
    intro tid s r hresv hexpired
    exact reservationTimeout_ends hresv hexpired
  case store =>
    intro s a bs t r hresv hend hstart
    rw [storeBytes_thr]
    exact dropResv_overlapping hresv hend hstart

end Sys2Proof.Machine.Coherence
end
